-- ==== Sys2Proof/Word.lean ====
section
/-! DEFINITION. The word types of the machine and nothing else: 64-bit words, bytes, register rows and tile
rows (spec/00_scope.md R2, spec/02_state_and_layout.md R40). -/

namespace Sys2Proof

/-- A generator register, an address while it is computed, a state word (R40). -/
abbrev Word := BitVec 64

/-- One byte of memory. -/
abbrev Byte := BitVec 8

/-- One row of a vector register, of a mask or of `CM`: 16,384 bits (R40, R59). -/
abbrev Row := BitVec 16384

/-- One row of an accumulator tile: 2,048 `f32` columns (R40). -/
abbrev TileRow := BitVec 65536

end Sys2Proof
end

