-- ==== Sys2Proof/Config.lean ====
section
/-! DEFINITION. What this part fixes (the counts of Tables 0-2, 1-1 and 1-2), and the values the manual
leaves open. A free value is an opaque constant with no body: nothing can evaluate it, so a claim about it
holds for every value. -/

namespace Sys2Proof.Config

/-- Cores of the package (R10). -/
abbrev cores : Nat := 192
/-- Clusters of the package (R10). -/
abbrev clusters : Nat := 24
/-- Bytes of device DRAM: 512 GiB (R98). -/
abbrev dramBytes : Nat := 0x8000000000
/-- Bytes of a core's scratchpad (R91). -/
abbrev spadBytes : Nat := 0x200000
/-- Frames of 64 KiB in device DRAM (R115). -/
abbrev frames : Nat := 8388608
/-- History-buffer entries of a hart (R18). -/
abbrev history : Nat := 64
/-- Entries of the vector, matrix, copy and collective queues (Table 1-2). -/
abbrev vecCap : Nat := 64
abbrev matCap : Nat := 16
abbrev cpyCap : Nat := 16
abbrev colCap : Nat := 8
/-- Lines of the instruction cache and of the block cache (R10). -/
abbrev icacheLines : Nat := 1024
abbrev bcacheLines : Nat := 512
/-- Virtual functions (Table 0-2). -/
abbrev functions : Nat := 384
/-- Seams of the package (Table 0-2). -/
abbrev seams : Nat := 12
/-- First physical address of the device registers (Table 4-3). -/
abbrev regBase : Nat := 0x8000000000
/-- Copy-queue words the copy engine may run at once (R285). -/
abbrev copiesAtOnce : Nat := 4
/-- Words of one speculative region, and its `VSTH` words (R263, R264). -/
abbrev regionWords : Nat := 48
abbrev regionStores : Nat := 4

/-! ## Free values (assumption log 6, 7, 8, 9) -/

/-- Where the steps in flight of a lane group end when a stop falls inside a convoy (R30, R398): a free value
of the counter `State.free` and the lane group (log 6). -/
opaque stopStep : Nat → Nat → Nat

/-- The order in which the elements of one word reach memory where two of them name the same bytes and the
word is not in ascending order (R130, R258): used only where it permutes its argument (log 7). -/
opaque elemOrder : Nat → List Nat → List Nat

/-- The low 44 bits of a core's cycle count in a stamp (R349): timing, a free value (log 8). -/
opaque stampCycles : Nat → BitVec 44

/-- The stamp of a record that no core writes: timing, a free value (log 8). -/
opaque deviceStamp : Nat → BitVec 64

/-- A byte of a device register that the manual does not name, by physical address and `State.free` (log 10). -/
opaque openRegister : Nat → Nat → BitVec 8

/-- A word that the manual leaves open: bytes 32 to 55 of a counter-overflow record, the stamp of a record that no
core writes, the cycle category of a sample, the bytes of a poisoned line that host DMA reads (log 8). -/
opaque openWord : Nat → BitVec 64

/-- The ML-DSA-44 signature of bytes under the key named: the algorithm is named by the manual and not defined
there (R352, R359, R360; log 9). Key 0 is the device identity key. -/
opaque mlDsaSign : Nat → List Byte → List Byte

/-- Whether an image carries a good signature of its maker: the algorithm is named by the manual and not defined there
(R352; log 9). -/
opaque mlDsaGood : List Byte → Bool

/-- The version of an image in flash, whose place in it the manual does not give, and the minimum version fused into the package
(R450; log 9). -/
opaque imageVersion : List Byte → Nat
opaque minVersion : Nat

/-- Whether the attestation report of another package, with the key that it agrees, carries that package's good signature (R430;
log 9). -/
opaque mlDsaPeerGood : List Byte → BitVec 512 → Bool

/-- A frame's bytes under a migration key: the cipher is not named by the manual (R430; log 9). -/
opaque migrationCipher : BitVec 512 → List Byte → List Byte

/-- Whether the atomic that the scope checker keeps for a line is less than 65,536 cycles old (R438): timing, a free value
(log 11). -/
opaque withinWindow : Nat → Bool

end Sys2Proof.Config
end

