-- ==== Sys2Proof/Syntax.lean ====
section
/-! DEFINITION. The abstract syntax: one constructor of `Instr` for every row of spec/opcode_table.json.
An S-word or a V-word is an instruction of a program; the constructors after them are the steps of the other
agents (spec/95_what_each_step_holds.md), which have no encoding. -/

namespace Sys2Proof

/-- Element type codes 0 to 15 (spec/03_numbers.md R66, Table 3-1). -/
inductive EType where
  | i8 | i16 | i32 | i64 | n8 | n16 | n32 | n64
  | f64 | f32 | bf16 | f16 | f8e4 | f8e5 | f4 | sl
  deriving DecidableEq, Repr

/-- Rounding modes of the rnd field, codes 0 to 3 (R71). -/
inductive Rnd where
  | rne | rtz | rdn | rup
  deriving DecidableEq, Repr

/-- Scope codes 0 to 4 (spec/05_ordering.md R126, Table 5-1). -/
inductive Scope where
  | hart | core | clus | dev | sys
  deriving DecidableEq, Repr

/-- The second source of an operand-form word (R155): a register, an operand slot or an immediate. -/
inductive Src where
  | vv (vb : BitVec 5)
  | vo (slot : BitVec 4)
  | vi (imm : BitVec 16)
  deriving DecidableEq, Repr

/-- Fields of a compute word that takes an operand form (R153, R155). -/
structure Arith where
  c : Bool
  vd : BitVec 5
  va : BitVec 5
  src : Src
  vc : BitVec 5
  m : Bool
  et : EType
  rnd : Rnd
  deriving DecidableEq, Repr

/-- Fields of a word over masks alone (R226). -/
structure MaskArgs where
  c : Bool
  vd : BitVec 5
  va : BitVec 5
  vb : BitVec 5
  m : Bool
  deriving DecidableEq, Repr

/-- Fields of `VRGATHER` and `VRGATHERW` (R231): G registers from vb. -/
structure Gather where
  c : Bool
  vd : BitVec 5
  va : BitVec 5
  vb : BitVec 5
  m : Bool
  et : EType
  g : BitVec 2
  deriving DecidableEq, Repr

/-- What `VBCAST` spreads (R234). -/
inductive BSrc where
  | elem (va : BitVec 5) (e : BitVec 15)
  | slot (n : BitVec 4)
  | imm (i : BitVec 16)
  deriving DecidableEq, Repr

/-- Fields of `VBCAST` (R234). -/
structure Bcast where
  c : Bool
  vd : BitVec 5
  src : BSrc
  m : Bool
  et : EType
  deriving DecidableEq, Repr

/-- Fields of `VROWMV` and `VROWBC` (R235). -/
structure RowMove where
  c : Bool
  vd : BitVec 5
  va : BitVec 5
  m : Bool
  et : EType
  dst : BitVec 4
  src : BitVec 4
  deriving DecidableEq, Repr

/-- Fields of a conversion word (R236): `ove` is the overflow-mask register when OVE = 1. -/
structure Conv where
  c : Bool
  vd : BitVec 5
  va : BitVec 5
  ove : Option (BitVec 5)
  m : Bool
  et : EType
  rnd : Rnd
  sty : EType
  deriving DecidableEq, Repr

/-- Fields of `VCPRS4` (R242). -/
structure Cprs where
  c : Bool
  vd : BitVec 5
  vc : BitVec 5
  va : BitVec 5
  et : EType
  deriving DecidableEq, Repr

/-- Index type of a memory word, IW 0 to 2 (R249). -/
inductive IdxTy where
  | n32 | n64 | n16
  deriving DecidableEq, Repr

/-- Fields of a memory word (R158, R249, Table 9-2). -/
structure MemArgs where
  c : Bool
  vd : BitVec 5
  va : BitVec 5
  vb : BitVec 5
  vc : BitVec 5
  m : Bool
  et : EType
  iw : IdxTy
  re : Bool
  rx : BitVec 2
  we : Bool
  wm : BitVec 3
  sc : Scope
  ord : BitVec 2
  ao : Bool
  adv : Bool
  str : BitVec 4
  deriving DecidableEq, Repr

/-- Where `SOPEN` finds its shape record (R245). -/
inductive RecSrc where
  | reg (va : BitVec 5)
  | slot (n : BitVec 4)
  deriving DecidableEq, Repr

/-- Fields of a Darner word (R318). -/
structure Darn where
  c : Bool
  vd : BitVec 5
  va : BitVec 5
  vb : BitVec 5
  vc : BitVec 5
  g : BitVec 2
  m : Bool
  deriving DecidableEq, Repr

/-- The operand of `VMARK` (R301). -/
inductive MarkSrc where
  | slot (n : BitVec 4)
  | imm (i : BitVec 16)
  deriving DecidableEq, Repr

/-- Fields of `MMA` and `MMAS` (R277, R278). -/
structure MatMul where
  va : BitVec 5
  vb : BitVec 5
  vc : BitVec 5
  scl : Bool
  g : BitVec 2
  t : BitVec 2
  et : EType
  deriving DecidableEq, Repr

/-- Fields of `MSMMA` (R279). -/
structure SliceMul where
  va : BitVec 5
  vb : BitVec 5
  k4 : BitVec 4
  g : BitVec 2
  t : BitVec 2
  et : EType
  deriving DecidableEq, Repr

/-- Fields of `MRD` and `MRDZ` (R280). -/
structure TileRead where
  vd : BitVec 5
  ove : Option (BitVec 5)
  m : Bool
  et : EType
  rnd : Rnd
  t : BitVec 2
  deriving DecidableEq, Repr

/-- Fields of `MWR` and `MWRA` (R281). -/
structure TileWrite where
  va : BitVec 5
  m : Bool
  et : EType
  rnd : Rnd
  t : BitVec 2
  deriving DecidableEq, Repr

/-- Fields of a copy or collective word that reads a descriptor (R283, R291). -/
structure EngArgs where
  mreg : Option (BitVec 5)
  src : RecSrc
  deriving DecidableEq, Repr

/-- Fields of `AUDLOG` (R302). -/
structure AudArgs where
  c : Bool
  va : BitVec 5
  vb : BitVec 5
  slot : BitVec 4
  m : Bool
  et : EType
  deriving DecidableEq, Repr

/-! ## What the events of the other agents carry -/

/-- How a trap is found (spec/21_faults_and_traps.md Table 21-1): at an S-word, at a placed word (named by its
placement rank) before or after its fault point, or as a stop of the hart. -/
inductive TrapKind where
  | generator
  | word (rank : Nat)
  | deferred (rank : Nat)
  | stop (prov : BitVec 64)
  deriving DecidableEq, Repr

/-- A trap of the focused hart: its kind, cause, `tval` and the address involved (R387, R400). -/
structure TrapReq where
  kind : TrapKind
  cause : BitVec 8
  tval : BitVec 64
  addr : BitVec 64
  deriving DecidableEq, Repr

/-- A host access into device memory (R116): `data = none` reads `len` bytes. -/
structure Dma where
  len : Nat
  data : Option (List (BitVec 8))
  deriving DecidableEq, Repr

/-- A unit whose errors are counted (R421, Table 22-3). -/
inductive ErrUnit where
  | core (n : Nat)
  | l2 (cluster : Nat)
  | llc (die region : Nat)
  | frame (n : Nat)
  | seam (n : Nat)
  | mgmt (n : Nat)
  deriving DecidableEq, Repr

/-- Where an uncorrectable error strikes (R418, R420). -/
inductive ErrLoc where
  | line (pa : Nat)
  | dataCacheLine (core : Nat) (va pa : Nat)
  | l2Line (pa ctx : Nat)
  /-- A line of host memory, or one that a data cache or an L2 holds of it (R101). -/
  | hostLine (pa : Nat)
  | hostDataLine (core : Nat) (va pa : Nat)
  | hostL2Line (pa ctx : Nat)
  /-- A line that an instruction cache, or a block cache, keeps. -/
  | fetchLine (core : Nat) (blk : Bool) (line : Nat)
  /-- A store that a hamper holds, by its place in the hamper. -/
  | hamper (core idx : Nat)
  | reg (core : Nat) (v : BitVec 5) (row eg : Nat)
  | tile (core : Nat) (t : BitVec 2) (row eg : Nat)
  | heap (core row : Nat)
  | spad (core row : Nat)
  deriving DecidableEq, Repr

/-- The physical function or one virtual function, as the asker of Table 25-3. -/
inductive ObsFunc where
  | pf
  | vf (n : Nat)
  deriving DecidableEq, Repr

/-- A transfer that a peer of another package has matched with a word at the collective port of `core` (R292): group
and tag, the peer's rank, whether the word here is the sender, LEN as the peer gives it, the bytes that the peer
sends to a `CRECV`, and whether delivery failed. -/
structure CollMsg where
  core : Nat
  grp : Nat
  tag : BitVec 16
  peer : Nat
  send : Bool
  len : Nat
  data : List (BitVec 8)
  failed : Bool
  deriving DecidableEq, Repr

/-- The contribution of one other member to a `CRED` (R294): rank, fn[5:2], et, and the bytes of its buffer. -/
structure CredPart where
  rank : Nat
  op : BitVec 4
  et : EType
  data : List (BitVec 8)
  deriving DecidableEq, Repr

/-- Where a hart is: on a core, or off its core with its gang. -/
inductive Seat where
  | core (n : Nat)
  | off (gid : BitVec 16) (hart : Nat)
  deriving DecidableEq, Repr

/-- A consumer's write of `v` at an offset into the control block of a trap ring (Table 21-5). -/
structure RingWrite where
  off : Nat
  v : BitVec 64
  deriving DecidableEq, Repr

/-- A master frozen by R415 (Table 25-4). -/
inductive Master where
  | hart (w : Seat)
  | copyEngine (w : Seat)
  | collPort (w : Seat)
  | func (vf : Nat)
  deriving DecidableEq, Repr

/-- One image of flash as the boot firmware finds it: whether its storage can be read, and its version (R352, R450). Its
bytes stand in flash. -/
structure BootImage where
  readable : Bool
  deriving DecidableEq, Repr

/-- What the units report during boot (R352, R449): whether the images of slots A and B (firmware, kernel) can be read, whether
the kernel starts, the dies whose DRAM failed, the seams retired and the ports failed. -/
structure BootReport where
  firmwareA : BootImage
  kernelA : BootImage
  firmwareB : BootImage
  kernelB : BootImage
  starts : Bool
  dies : BitVec 4
  seams : BitVec 12
  ports : BitVec 8
  deriving DecidableEq, Repr

/-- The steps of a migration (R430, R431, R444), at the source or at the destination. -/
inductive MigrStep where
  | stopGangs
  /-- The peer's request for a report arrives with its nonce, and its own report with the migration key that is agreed. -/
  | agree (nonce : BitVec 256) (key : BitVec 512) (peer : List (BitVec 8))
  | sendFrame (frame : Nat)
  | sendState
  /-- Frame `src` of the source arrives, in plaintext, with its ownership entry and the measurement under its TAG. -/
  | receiveFrame (src frame : Nat) (entry : BitVec 64) (plain : List (BitVec 8)) (measured : BitVec 256)
  | receiveState
  /-- The destination has refused: the context stays on the source. -/
  | fail
  /-- The context goes on at the destination: it leaves the source. -/
  | left
  /-- The gangs may be placed at the destination, under new ids: of the kernel's choice for those listed. -/
  | resume (gids : List (Nat × Nat))
  deriving DecidableEq, Repr

/-- The device registers that `REGISTER_WRITE` reaches: the split, fault response, retirement, scope checker and
observation registers of the physical function (Tables 14-2, 22-2, 22-4, 25-1, 25-3), the fairness word that it
writes for a function, a function's registers by offset (Tables 12-3, 25-3) and a trace unit's (Table 13-6). -/
inductive DevReg where
  | split
  | faultResponse
  | retirement
  | scopeChecker
  | pfObservation
  | bootStatus
  | fairness (vf : Nat)
  | func (vf off : Nat)
  | trace (cluster off : Nat)
  deriving DecidableEq, Repr

/-- The instructions: one constructor per row of spec/opcode_table.json: V-words, S-words, and the steps of the other
agents. -/
inductive Instr where
  /-- `VADD`: Element-wise integer add (R221). -/
  | vadd (o : Arith)
  /-- `VSUB`: Element-wise integer subtract (R221). -/
  | vsub (o : Arith)
  /-- `VMUL`: Element-wise low product (R221). -/
  | vmul (o : Arith)
  /-- `VMULH`: Element-wise high product (R221). -/
  | vmulh (o : Arith)
  /-- `VMACC`: Element-wise multiply-accumulate into vd (R221). -/
  | vmacc (o : Arith)
  /-- `VMIN`: Element-wise integer minimum (R221). -/
  | vmin (o : Arith)
  /-- `VMAX`: Element-wise integer maximum (R221). -/
  | vmax (o : Arith)
  /-- `VAND`: Element-wise AND, also on bit planes (R221). -/
  | vand (o : Arith)
  /-- `VOR`: Element-wise OR, also on bit planes (R221). -/
  | vor (o : Arith)
  /-- `VXOR`: Element-wise XOR, also on bit planes (R221). -/
  | vxor (o : Arith)
  /-- `VSHL`: Element-wise shift left (R221). -/
  | vshl (o : Arith)
  /-- `VSHR`: Element-wise logical shift right (R221). -/
  | vshr (o : Arith)
  /-- `VSAR`: Element-wise arithmetic shift right (R221). -/
  | vsar (o : Arith)
  /-- `VABS`: Element-wise absolute value (R221). -/
  | vabs (o : Arith)
  /-- `VSADD`: Element-wise saturating add (R221). -/
  | vsadd (o : Arith)
  /-- `VSSUB`: Element-wise saturating subtract (R221). -/
  | vssub (o : Arith)
  /-- `VFADD`: Floating-point add, rounded once (R223). -/
  | vfadd (o : Arith)
  /-- `VFSUB`: Floating-point subtract (R223). -/
  | vfsub (o : Arith)
  /-- `VFMUL`: Floating-point multiply (R223). -/
  | vfmul (o : Arith)
  /-- `VFMA`: Fused multiply-add (R223). -/
  | vfma (o : Arith)
  /-- `VFNMA`: Fused negated multiply-add (R223). -/
  | vfnma (o : Arith)
  /-- `VFDIV`: Floating-point divide (R223). -/
  | vfdiv (o : Arith)
  /-- `VFSQRT`: Floating-point square root (R223). -/
  | vfsqrt (o : Arith)
  /-- `VFRSQE`: Reciprocal-square-root estimate (R84). -/
  | vfrsqe (o : Arith)
  /-- `VFEXP2`: Exact-table base-2 exponential of f32 elements (R82). -/
  | vfexp2 (o : Arith)
  /-- `VFMIN`: Floating-point minimum (R78). -/
  | vfmin (o : Arith)
  /-- `VFMAX`: Floating-point maximum (R78). -/
  | vfmax (o : Arith)
  /-- `VFCLAMP`: Clamps elements between lo and hi (R224). -/
  | vfclamp (o : Arith)
  /-- `VFABS`: Clears the sign bit (R223). -/
  | vfabs (o : Arith)
  /-- `VFNEG`: Inverts the sign bit (R223). -/
  | vfneg (o : Arith)
  /-- `VCMPEQ`: Integer equal compare into a mask (R225). -/
  | vcmpeq (o : Arith)
  /-- `VCMPNE`: Integer not-equal compare (R225). -/
  | vcmpne (o : Arith)
  /-- `VCMPLT`: Integer less compare (R225). -/
  | vcmplt (o : Arith)
  /-- `VCMPGE`: Integer greater-or-equal compare (R225). -/
  | vcmpge (o : Arith)
  /-- `VCMPLE`: Integer less-or-equal compare (R225). -/
  | vcmple (o : Arith)
  /-- `VCMPGT`: Integer greater compare (R225). -/
  | vcmpgt (o : Arith)
  /-- `VFCMPEQ`: Floating-point equal compare (R225). -/
  | vfcmpeq (o : Arith)
  /-- `VFCMPNE`: Floating-point not-equal or unordered compare (R225). -/
  | vfcmpne (o : Arith)
  /-- `VFCMPLT`: Floating-point less compare (R225). -/
  | vfcmplt (o : Arith)
  /-- `VFCMPLE`: Floating-point less-or-equal compare (R225). -/
  | vfcmple (o : Arith)
  /-- `VFCMPGT`: Floating-point greater compare (R225). -/
  | vfcmpgt (o : Arith)
  /-- `VFCMPGE`: Floating-point greater-or-equal compare (R225). -/
  | vfcmpge (o : Arith)
  /-- `VFCMPUN`: Floating-point unordered test (R225). -/
  | vfcmpun (o : Arith)
  /-- `VFCMPORD`: Floating-point ordered test (R225). -/
  | vfcmpord (o : Arith)
  /-- `VMAND`: Mask AND (R226). -/
  | vmand (o : MaskArgs)
  /-- `VMOR`: Mask OR (R226). -/
  | vmor (o : MaskArgs)
  /-- `VMXOR`: Mask XOR (R226). -/
  | vmxor (o : MaskArgs)
  /-- `VMNOT`: Mask NOT (R226). -/
  | vmnot (o : MaskArgs)
  /-- `VMANDN`: Mask AND NOT (R226). -/
  | vmandn (o : MaskArgs)
  /-- `VMPOP`: Counts set mask bits per row (R227). -/
  | vmpop (o : Arith)
  /-- `VMFIRST`: Finds the first set mask bit per row (R227). -/
  | vmfirst (o : Arith)
  /-- `VMSCANAND`: Running AND of mask bits per row (R227). -/
  | vmscanand (o : MaskArgs)
  /-- `VIOTA`: Exclusive prefix count of mask bits (R227). -/
  | viota (o : Arith)
  /-- `VIDX`: Writes each element's index (R227). -/
  | vidx (o : Arith)
  /-- `VIDXR`: Writes each element's row number (R227). -/
  | vidxr (o : Arith)
  /-- `VREDSUM`: Integer sum reduction per row (R228). -/
  | vredsum (o : Arith)
  /-- `VREDMIN`: Integer minimum reduction (R228). -/
  | vredmin (o : Arith)
  /-- `VREDMAX`: Integer maximum reduction (R228). -/
  | vredmax (o : Arith)
  /-- `VREDAND`: Bitwise AND reduction (R228). -/
  | vredand (o : Arith)
  /-- `VREDOR`: Bitwise OR reduction (R228). -/
  | vredor (o : Arith)
  /-- `VREDXOR`: Bitwise XOR reduction (R228). -/
  | vredxor (o : Arith)
  /-- `VFREDT`: Floating-point tree sum per row (R77). -/
  | vfredt (o : Arith)
  /-- `VFREDO`: Floating-point ordered sum per row (R76). -/
  | vfredo (o : Arith)
  /-- `VFREDMAX`: Floating-point maximum reduction (R228). -/
  | vfredmax (o : Arith)
  /-- `VFREDMIN`: Floating-point minimum reduction (R228). -/
  | vfredmin (o : Arith)
  /-- `VSCANSUM`: Inclusive prefix sum (R229). -/
  | vscansum (o : Arith)
  /-- `VSCANMAX`: Inclusive prefix maximum (R229). -/
  | vscanmax (o : Arith)
  /-- `VSCANMIN`: Inclusive prefix minimum (R229). -/
  | vscanmin (o : Arith)
  /-- `VCOLSUM`: Column sum over rows in ascending order (R230). -/
  | vcolsum (o : Arith)
  /-- `VCOLMAX`: Column maximum (R230). -/
  | vcolmax (o : Arith)
  /-- `VCOLMIN`: Column minimum (R230). -/
  | vcolmin (o : Arith)
  /-- `VRGATHER`: Register gather with n16 indices (R231). -/
  | vrgather (o : Gather)
  /-- `VRGATHERW`: Register gather with n32 indices (R231). -/
  | vrgatherw (o : Gather)
  /-- `VSLIDEUP`: Slides elements up by a distance (R232). -/
  | vslideup (o : Arith)
  /-- `VSLIDEDN`: Slides elements down by a distance (R232). -/
  | vslidedn (o : Arith)
  /-- `VCOMPRESS`: Packs selected elements to the front (R233). -/
  | vcompress (o : Arith)
  /-- `VEXPAND`: Spreads elements to selected positions (R233). -/
  | vexpand (o : Arith)
  /-- `VBCAST`: Broadcasts a slot, immediate or element to every active element (R234). -/
  | vbcast (o : Bcast)
  /-- `VMV`: Copies active elements (R234). -/
  | vmv (o : Arith)
  /-- `VROWMV`: Moves consecutive rows (R235). -/
  | vrowmv (o : RowMove)
  /-- `VROWBC`: Broadcasts one row to several rows (R235). -/
  | vrowbc (o : RowMove)
  /-- `VCVT`: Converts elements between types with saturation flags (R237). -/
  | vcvt (o : Conv)
  /-- `VPACK2`: Converts and packs two sources (R238). -/
  | vpack2 (o : Conv)
  /-- `VPACK4`: Converts and packs four sources (R238). -/
  | vpack4 (o : Conv)
  /-- `VUNPK2`: Unpacks and widens into two registers (R239). -/
  | vunpk2 (o : Conv)
  /-- `VUNPK4`: Unpacks and widens into four registers (R239). -/
  | vunpk4 (o : Conv)
  /-- `VQNT`: Quantises elements by scale groups (R240). -/
  | vqnt (o : Conv)
  /-- `VSLICEA`: Slices tile elements into bit planes of operand A width (R241). -/
  | vslicea (o : Conv)
  /-- `VSLICEB`: Slices tile elements into bit planes of operand B width (R241). -/
  | vsliceb (o : Conv)
  /-- `VUNSLICEA`: Reassembles A-width bit planes into tile elements (R241). -/
  | vunslicea (o : Conv)
  /-- `VUNSLICEB`: Reassembles B-width bit planes into tile elements (R241). -/
  | vunsliceb (o : Conv)
  /-- `VCPRS4`: Makes 2:4 compressed data and metadata (R242). -/
  | vcprs4 (o : Cprs)
  /-- `VSPEC`: Opens a speculative region, annulled if an exit is already found (R262). -/
  | vspec (c : Bool)
  /-- `VSPECF`: Clears the exit state and opens a speculative region (R262). -/
  | vspecf (c : Bool)
  /-- `VBRKB`: Writes the break predicate before the first set bit (R270). -/
  | vbrkb (o : MaskArgs)
  /-- `VBRKI`: Writes the break predicate up to and including the first set bit (R270). -/
  | vbrki (o : MaskArgs)
  /-- `VEXITB`: Resolves the region before the first exit element, performing or discarding held stores (R266). -/
  | vexitb (o : MaskArgs)
  /-- `VEXITI`: Resolves the region including the first exit element (R266). -/
  | vexiti (o : MaskArgs)
  /-- `VPART`: Partitions active elements and sets brk.EXV when none remain (R271). -/
  | vpart (o : MaskArgs)
  /-- `VFFTRIM`: Trims younger words to the first suppressed element (R257). -/
  | vfftrim (c : Bool)
  /-- `VPFOLD`: Folds node indices into path digests (R272). -/
  | vpfold (o : Arith)
  /-- `VHACC`: Accumulates values into a scratchpad hash table (R260). -/
  | vhacc (o : MemArgs)
  /-- `VLD`: Streamed vector load (R254). -/
  | vld (o : MemArgs)
  /-- `VLDX`: Indexed vector gather (R251). -/
  | vldx (o : MemArgs)
  /-- `VLDFF`: First-fault streamed load (R255). -/
  | vldff (o : MemArgs)
  /-- `VLDSP`: Speculative streamed load that suppresses every failure (R256). -/
  | vldsp (o : MemArgs)
  /-- `VLDSPX`: Speculative indexed load (R256). -/
  | vldspx (o : MemArgs)
  /-- `VLDP`: Scratchpad load that waits on arrival pointers (R106). -/
  | vldp (o : MemArgs)
  /-- `VST`: Streamed vector store (R254). -/
  | vst (o : MemArgs)
  /-- `VSTX`: Indexed vector scatter (R251). -/
  | vstx (o : MemArgs)
  /-- `VSTH`: Holds stores in the hamper inside a region; plain store outside (R264). -/
  | vsth (o : MemArgs)
  /-- `VSTP`: Scratchpad store that keeps arrival pointers (R254). -/
  | vstp (o : MemArgs)
  /-- `VAMO_ADD`: Per-element atomic add (R258). -/
  | vamoAdd (o : MemArgs)
  /-- `VAMO_SWP`: Per-element atomic swap (R258). -/
  | vamoSwp (o : MemArgs)
  /-- `VAMO_MIN`: Per-element atomic minimum (R258). -/
  | vamoMin (o : MemArgs)
  /-- `VAMO_MAX`: Per-element atomic maximum (R258). -/
  | vamoMax (o : MemArgs)
  /-- `VAMO_AND`: Per-element atomic AND (R258). -/
  | vamoAnd (o : MemArgs)
  /-- `VAMO_OR`: Per-element atomic OR (R258). -/
  | vamoOr (o : MemArgs)
  /-- `VAMO_XOR`: Per-element atomic XOR (R258). -/
  | vamoXor (o : MemArgs)
  /-- `VAMO_FADD`: Per-element atomic floating-point add (R258). -/
  | vamoFadd (o : MemArgs)
  /-- `VXLT`: Translates token positions through a block table to pool addresses (R261). -/
  | vxlt (o : MemArgs)
  /-- `VXLTFF`: First-fault form of key-value translation (R261). -/
  | vxltff (o : MemArgs)
  /-- `SOPEN`: Opens a stream from a shape record at position 0 (R245). -/
  | sopen (c : Bool) (src : RecSrc) (q : BitVec 4)
  /-- `SOPENP`: Opens a stream with a saved position (R245). -/
  | sopenp (c : Bool) (va : BitVec 5) (q : BitVec 4)
  /-- `SADV`: Adds a signed amount to a stream position (R246). -/
  | sadv (c : Bool) (q : BitVec 4) (src : Src)
  /-- `SCLOSE`: Closes a stream (R247). -/
  | sclose (c : Bool) (q : BitVec 4)
  /-- `SSAVE`: Writes a stream's record and position to a register (R247). -/
  | ssave (c : Bool) (vd : BitVec 5) (q : BitVec 4)
  /-- `MCOMP`: Composes two Darner maps per row (R320). -/
  | mcomp (o : Darn)
  /-- `MCSCAN`: Prefix-composes Darner maps and flags constant prefixes (R320). -/
  | mcscan (o : Darn)
  /-- `MCSCANC`: Prefix composition with a carried-in map (R320). -/
  | mcscanc (o : Darn)
  /-- `MCLEGAL`: Builds a legal-token flat mask from a table column (R321). -/
  | mclegal (o : Darn)
  /-- `MCLEGALX`: Maps a token mask onto candidate ids (R321). -/
  | mclegalx (o : Darn)
  /-- `VSETT`: Writes an index-remap configuration and table (R299). -/
  | vsett (c : Bool) (va : BitVec 5) (ix : BitVec 2)
  /-- `VGETT`: Reads an index-remap configuration into a register (R299). -/
  | vgett (c : Bool) (vd : BitVec 5) (ix : BitVec 2)
  /-- `VFENCE_ACQ`: Acquire fence in the vector queue (R300). -/
  | vfenceAcq (c : Bool) (sc : Scope)
  /-- `VFENCE_REL`: Release fence in the vector queue (R300). -/
  | vfenceRel (c : Bool) (sc : Scope)
  /-- `VFENCE_FULL`: Full fence in the vector queue (R300). -/
  | vfenceFull (c : Bool) (sc : Scope)
  /-- `VMARK`: Places a trace marker when retired (R301). -/
  | vmark (c : Bool) (src : MarkSrc)
  /-- `MSHAPE`: Sets a tile window (R275). -/
  | mshape (t : BitVec 2) (row0 : BitVec 4) (col0 : BitVec 11)
  /-- `MSHAPEG`: Reads a tile window into a register (R275). -/
  | mshapeg (vd : BitVec 5) (t : BitVec 2)
  /-- `MZERO`: Zeroes a whole tile (R275). -/
  | mzero (t : BitVec 2)
  /-- `MMA`: Matrix multiply-accumulate into a tile window (R276). -/
  | mma (o : MatMul)
  /-- `MMAS`: Sparse 2:4 matrix multiply-accumulate (R278). -/
  | mmas (o : MatMul)
  /-- `MSMMA`: Bit-sliced integer matrix multiply-accumulate (R279). -/
  | msmma (o : SliceMul)
  /-- `MRD`: Converts a tile window into a register (R280). -/
  | mrd (o : TileRead)
  /-- `MRDZ`: Reads a tile window and zeroes it (R280). -/
  | mrdz (o : TileRead)
  /-- `MWR`: Writes register elements into a tile window (R281). -/
  | mwr (o : TileWrite)
  /-- `MWRA`: Adds register elements into a tile window (R281). -/
  | mwra (o : TileWrite)
  /-- `MSYNC`: Sets a mask bit when older matrix words complete (R282). -/
  | msync (vd : BitVec 5) (p : BitVec 18)
  /-- `VPROJ`: Drains a tile window of logits into the Press (R306). -/
  | vproj (m : Bool) (slot : BitVec 4) (t : BitVec 2)
  /-- `VPROJS`: Clears and configures the Press, then projects (R308). -/
  | vprojs (m : Bool) (vc : BitVec 5) (slot : BitVec 4) (k1 : BitVec 9) (t : BitVec 2)
  /-- `VPROJT`: Starting projection in threshold mode (R308). -/
  | vprojt (m : Bool) (vc : BitVec 5) (slot : BitVec 4) (k1 : BitVec 9) (t : BitVec 2)
  /-- `VPROJB`: Regenerates logits and writes the cross-entropy gradient (R311). -/
  | vprojb (m : Bool) (vd : BitVec 5) (slot : BitVec 4) (t : BitVec 2)
  /-- `VHEAPRD`: Reads the Press heap into two registers (R312). -/
  | vheaprd (vd vc : BitVec 5)
  /-- `VPSTRD`: Reads the Press image into a register (R312). -/
  | vpstrd (vd : BitVec 5)
  /-- `VHMERGE`: Merges incoming heap rows into the heap (R313). -/
  | vhmerge (va vb : BitVec 5)
  /-- `VHMERGEN`: Merges heaps and normalisers from a Press image (R313). -/
  | vhmergen (va vb vc : BitVec 5)
  /-- `VPSTWR`: Restores the Press from registers (R313). -/
  | vpstwr (va vb vc : BitVec 5)
  /-- `DRAW`: Draws a candidate per row with a stream uniform, renormalised over candidates (R317). -/
  | draw (m : Bool) (vd va vb : BitVec 5) (et : EType)
  /-- `DRAWN`: Stream-uniform draw against the Press normaliser (R317). -/
  | drawn (m : Bool) (vd va vb : BitVec 5) (et : EType)
  /-- `DRAWR`: Replay-uniform draw, renormalised over candidates (R317). -/
  | drawr (m : Bool) (vd va vb : BitVec 5) (et : EType) (slot : BitVec 4)
  /-- `DRAWRN`: Replay-uniform draw against the Press normaliser (R317). -/
  | drawrn (m : Bool) (vd va vb : BitVec 5) (et : EType) (slot : BitVec 4)
  /-- `CPY`: Copies bytes chunk by chunk, setting mask bits (R284). -/
  | cpy (o : EngArgs)
  /-- `CPYC`: Appends a token entry to a paged key-value cache with copy-on-write (R288). -/
  | cpyc (vd va : BitVec 5) (slot : BitVec 4)
  /-- `CPYWAIT`: Waits for older copies to complete (R290). -/
  | cpywait (mreg : Option (BitVec 5)) (p : BitVec 18)
  /-- `CPYWAITV`: Waits for older copies and older vector words (R290). -/
  | cpywaitv (mreg : Option (BitVec 5)) (p : BitVec 18)
  /-- `CSEND`: Sends a buffer to one group rank (R292). -/
  | csend (o : EngArgs)
  /-- `CSENDM`: Multicasts a buffer to every other member (R292). -/
  | csendm (o : EngArgs)
  /-- `CRECV`: Receives a matching message into a buffer (R292). -/
  | crecv (o : EngArgs)
  /-- `CREDSUM`: All-reduce sum in the fixed tree (R294). -/
  | credsum (o : EngArgs) (et : EType)
  /-- `CREDMAX`: All-reduce maximum (R294). -/
  | credmax (o : EngArgs) (et : EType)
  /-- `CREDMIN`: All-reduce minimum (R294). -/
  | credmin (o : EngArgs) (et : EType)
  /-- `CREDRS`: All-reduce of triples with Rescale (R295). -/
  | credrs (o : EngArgs) (et : EType)
  /-- `CREDHEAP`: All-reduce merge of heaps (R296). -/
  | credheap (o : EngArgs) (et : EType)
  /-- `CWAIT`: Waits for older collective words (R297). -/
  | cwait (mreg : Option (BitVec 5)) (p : BitVec 18)
  /-- `CWAITV`: Waits for older collective words and older vector words (R297). -/
  | cwaitv (mreg : Option (BitVec 5)) (p : BitVec 18)
  /-- `AUDLOG`: Hashes digests and scores and appends an audit record (R303). -/
  | audlog (o : AudArgs)
  /-- `NOP`: No operation (R189). -/
  | nop
  /-- `HALT`: Waits for every placed word to retire or complete, then ends the hart and returns its core to the dispatcher; the gang ends when its last hart halts (R189). -/
  | halt
  /-- `ECALL`: Traps with cause 0x1F (service call), recording the word as tepc (R189). -/
  | ecall
  /-- `ERET`: In K mode, restores MODE from PM, re-stamps and releases parked words, and resumes the Last at tepc, tepc + 4 or the resoff point (R395). -/
  | eret
  /-- `WFE`: Stalls the Last until an event or for no reason (R190). -/
  | wfe
  /-- `BRK`: Traps with cause 0x20, recording the word as tepc (R189). -/
  | brk
  /-- `FENCE_ACQ`: Acquire fence at the given scope: orders earlier loads before later accesses and discards clean copies (R135). -/
  | fenceAcq (sc : Scope)
  /-- `FENCE_REL`: Release fence at the given scope: orders earlier accesses before later stores and pushes dirty bytes (R135). -/
  | fenceRel (sc : Scope)
  /-- `FENCE_FULL`: Full fence at the given scope: orders every earlier access before every later access (R135). -/
  | fenceFull (sc : Scope)
  /-- `ADD`: sD := sA + sB (R178). -/
  | add (d a b : BitVec 5)
  /-- `SUB`: sD := sA - sB (R178). -/
  | sub (d a b : BitVec 5)
  /-- `AND`: Bitwise AND of sA and sB (R178). -/
  | and (d a b : BitVec 5)
  /-- `OR`: Bitwise OR of sA and sB (R178). -/
  | or (d a b : BitVec 5)
  /-- `XOR`: Bitwise XOR of sA and sB (R178). -/
  | xor (d a b : BitVec 5)
  /-- `SHL`: Shifts sA left by sB[5:0] (R178). -/
  | shl (d a b : BitVec 5)
  /-- `SHR`: Shifts sA right logically by sB[5:0] (R178). -/
  | shr (d a b : BitVec 5)
  /-- `SAR`: Shifts sA right arithmetically by sB[5:0] (R178). -/
  | sar (d a b : BitVec 5)
  /-- `SLT`: Signed less-than compare of sA and sB (R178). -/
  | slt (d a b : BitVec 5)
  /-- `SLTN`: Unsigned less-than compare of sA and sB (R178). -/
  | sltn (d a b : BitVec 5)
  /-- `MIN`: Signed minimum (R178). -/
  | min (d a b : BitVec 5)
  /-- `MAX`: Signed maximum (R178). -/
  | max (d a b : BitVec 5)
  /-- `MINN`: Unsigned minimum (R178). -/
  | minn (d a b : BitVec 5)
  /-- `MAXN`: Unsigned maximum (R178). -/
  | maxn (d a b : BitVec 5)
  /-- `CLZ`: Counts leading zero bits of sA (R178). -/
  | clz (d a : BitVec 5)
  /-- `CTZ`: Counts trailing zero bits of sA (R178). -/
  | ctz (d a : BitVec 5)
  /-- `POPC`: Counts one bits of sA (R178). -/
  | popc (d a : BitVec 5)
  /-- `MUL`: Low 64 bits of sA × sB (R178). -/
  | mul (d a b : BitVec 5)
  /-- `MULH`: High 64 bits of the signed product (R178). -/
  | mulh (d a b : BitVec 5)
  /-- `MULHN`: High 64 bits of the unsigned product (R178). -/
  | mulhn (d a b : BitVec 5)
  /-- `DIV`: Signed quotient with defined results for zero divisor and overflow (R179). -/
  | div (d a b : BitVec 5)
  /-- `DIVN`: Unsigned quotient (R179). -/
  | divn (d a b : BitVec 5)
  /-- `REM`: Signed remainder (R179). -/
  | rem (d a b : BitVec 5)
  /-- `REMN`: Unsigned remainder (R179). -/
  | remn (d a b : BitVec 5)
  /-- `ADDI`: sD := sA + sext(imm16) (R180). -/
  | addi (d a : BitVec 5) (imm : BitVec 16)
  /-- `ANDI`: sD := sA AND zext(imm16) (R180). -/
  | andi (d a : BitVec 5) (imm : BitVec 16)
  /-- `ORI`: sD := sA OR zext(imm16) (R180). -/
  | ori (d a : BitVec 5) (imm : BitVec 16)
  /-- `XORI`: sD := sA XOR zext(imm16) (R180). -/
  | xori (d a : BitVec 5) (imm : BitVec 16)
  /-- `SHLI`: Shifts sA left by an immediate amount (R180). -/
  | shli (d a : BitVec 5) (amt : BitVec 6)
  /-- `SHRI`: Shifts sA right logically by an immediate amount (R180). -/
  | shri (d a : BitVec 5) (amt : BitVec 6)
  /-- `SARI`: Shifts sA right arithmetically by an immediate amount (R180). -/
  | sari (d a : BitVec 5) (amt : BitVec 6)
  /-- `SLTI`: Signed compare of sA with sext(imm16) (R180). -/
  | slti (d a : BitVec 5) (imm : BitVec 16)
  /-- `LIH`: sD := sext(imm16) × 2^16 (R180). -/
  | lih (d : BitVec 5) (imm : BitVec 16)
  /-- `ADDPC`: sD := pc + sext(imm16) × 2^16 (R180). -/
  | addpc (d : BitVec 5) (imm : BitVec 16)
  /-- `INS`: Inserts the low n bits of sA into sD at position p (R181). -/
  | ins (d a : BitVec 5) (pos len : BitVec 6)
  /-- `EXT`: Extracts a zero-extended bit field of sA (R181). -/
  | ext (d a : BitVec 5) (pos len : BitVec 6)
  /-- `EXTS`: Extracts a sign-extended bit field of sA (R181). -/
  | exts (d a : BitVec 5) (pos len : BitVec 6)
  /-- `LD8`: Loads one byte, sign-extended (R182). -/
  | ld8 (d a : BitVec 5) (imm : BitVec 16)
  /-- `LD16`: Loads two bytes, sign-extended (R182). -/
  | ld16 (d a : BitVec 5) (imm : BitVec 16)
  /-- `LD32`: Loads four bytes, sign-extended (R182). -/
  | ld32 (d a : BitVec 5) (imm : BitVec 16)
  /-- `LD64`: Loads eight bytes (R182). -/
  | ld64 (d a : BitVec 5) (imm : BitVec 16)
  /-- `LDN8`: Loads one byte, zero-extended (R182). -/
  | ldn8 (d a : BitVec 5) (imm : BitVec 16)
  /-- `LDN16`: Loads two bytes, zero-extended (R182). -/
  | ldn16 (d a : BitVec 5) (imm : BitVec 16)
  /-- `LDN32`: Loads four bytes, zero-extended (R182). -/
  | ldn32 (d a : BitVec 5) (imm : BitVec 16)
  /-- `LDW`: Reads eight bytes of a parameter window into sD (R184). -/
  | ldw (d : BitVec 5) (n : BitVec 3) (off : BitVec 16)
  /-- `ST8`: Stores one byte of sB (R182). -/
  | st8 (b a : BitVec 5) (off : BitVec 16)
  /-- `ST16`: Stores two bytes of sB (R182). -/
  | st16 (b a : BitVec 5) (off : BitVec 16)
  /-- `ST32`: Stores four bytes of sB (R182). -/
  | st32 (b a : BitVec 5) (off : BitVec 16)
  /-- `ST64`: Stores eight bytes of sB (R182). -/
  | st64 (b a : BitVec 5) (off : BitVec 16)
  /-- `AMO_ADD`: Atomic add at the point its scope selects, returning the old value (R185). -/
  | amoAdd (d a b : BitVec 5) (size : BitVec 2) (ord : BitVec 2) (sc : Scope)
  /-- `AMO_SWP`: Atomic swap (R185). -/
  | amoSwp (d a b : BitVec 5) (size : BitVec 2) (ord : BitVec 2) (sc : Scope)
  /-- `AMO_CAS`: Atomic compare-and-swap with sD as comparand (R185). -/
  | amoCas (d a b : BitVec 5) (size : BitVec 2) (ord : BitVec 2) (sc : Scope)
  /-- `AMO_MIN`: Atomic signed minimum (R185). -/
  | amoMin (d a b : BitVec 5) (size : BitVec 2) (ord : BitVec 2) (sc : Scope)
  /-- `AMO_MAX`: Atomic signed maximum (R185). -/
  | amoMax (d a b : BitVec 5) (size : BitVec 2) (ord : BitVec 2) (sc : Scope)
  /-- `AMO_MINN`: Atomic unsigned minimum (R185). -/
  | amoMinn (d a b : BitVec 5) (size : BitVec 2) (ord : BitVec 2) (sc : Scope)
  /-- `AMO_MAXN`: Atomic unsigned maximum (R185). -/
  | amoMaxn (d a b : BitVec 5) (size : BitVec 2) (ord : BitVec 2) (sc : Scope)
  /-- `AMO_AND`: Atomic AND (R185). -/
  | amoAnd (d a b : BitVec 5) (size : BitVec 2) (ord : BitVec 2) (sc : Scope)
  /-- `AMO_OR`: Atomic OR (R185). -/
  | amoOr (d a b : BitVec 5) (size : BitVec 2) (ord : BitVec 2) (sc : Scope)
  /-- `AMO_XOR`: Atomic XOR (R185). -/
  | amoXor (d a b : BitVec 5) (size : BitVec 2) (ord : BitVec 2) (sc : Scope)
  /-- `BEQ`: Branches when sA equals sB (R187). -/
  | beq (a b : BitVec 5) (off : BitVec 16)
  /-- `BNE`: Branches when sA differs from sB (R187). -/
  | bne (a b : BitVec 5) (off : BitVec 16)
  /-- `BLT`: Branches on signed less (R187). -/
  | blt (a b : BitVec 5) (off : BitVec 16)
  /-- `BGE`: Branches on signed greater or equal (R187). -/
  | bge (a b : BitVec 5) (off : BitVec 16)
  /-- `BLTN`: Branches on unsigned less (R187). -/
  | bltn (a b : BitVec 5) (off : BitVec 16)
  /-- `BGEN`: Branches on unsigned greater or equal (R187). -/
  | bgen (a b : BitVec 5) (off : BitVec 16)
  /-- `JAL`: Jumps by a word offset and links pc + 4 (R188). -/
  | jal (d : BitVec 5) (off : BitVec 21)
  /-- `JALR`: Jumps to sA + sext(imm16) and links pc + 4 (R188). -/
  | jalr (d a : BitVec 5) (imm : BitVec 16)
  /-- `SETVL`: Grants vl and rc, writes the granted vl, and is the cooperative pre-emption point (R193). -/
  | setvl (d a b : BitVec 5)
  /-- `SPUT`: Writes sA to an operand slot for later-placed words (R194). -/
  | sput (slot : BitVec 4) (a : BitVec 5)
  /-- `EMIT`: Places the V-word in sA into its queue, waiting for room (R195). -/
  | emit (a : BitVec 5)
  /-- `EMITQ`: Places the V-word in sA if there is room and reports whether it did (R196). -/
  | emitq (d a : BitVec 5)
  /-- `VFETCH`: Places the words of a vector-fetch block up to VSTOP (R197). -/
  | vfetch (a : BitVec 5) (off : BitVec 16)
  /-- `VDRAIN`: Stalls the Last until earlier words of the named queues retire or complete, then orders their accesses (R199). -/
  | vdrain (mask : BitVec 4)
  /-- `QWAIT`: Stalls until the named queues and history buffer have sA free entries (R200). -/
  | qwait (mask : BitVec 4) (a : BitVec 5)
  /-- `MFS`: Reads a state word into sD, waiting for retirement where R44 requires (R201). -/
  | mfs (d : BitVec 5) (n : BitVec 12)
  /-- `MTS`: Writes sA to a state word, honouring RO, W1C and clipping rules (R201). -/
  | mts (n : BitVec 12) (a : BitVec 5)
  /-- `WMPUB`: Raises a gang watermark to max(w, sA) as a release at its scope (R142). -/
  | wmpub (w : BitVec 3) (a : BitVec 5) (sc : Scope)
  /-- `WMWAIT`: Stalls until the watermark reaches sA, then acquires (R144). -/
  | wmwait (w : BitVec 3) (a : BitVec 5) (sc : Scope)
  /-- `BAR_ARRIVE`: Records the hart's arrival in the current barrier phase as a device-scope release (R204). -/
  | barArrive
  /-- `BAR_WAIT`: Stalls until the phase of the last arrival completes, then acquires (R204). -/
  | barWait
  /-- `BAR_AW`: Arrives at the barrier and then waits (R204). -/
  | barAw
  /-- `LAUNCH`: Submits a launch descriptor to ring 1 and returns the gid or a refusal code (R205). -/
  | launch (d a : BitVec 5)
  /-- `RSEED`: Sets rkey and clears rpos (R206). -/
  | rseed (a : BitVec 5)
  /-- `RSEEK`: Sets the random stream position and clears the draw index (R206). -/
  | rseek (a : BitVec 5)
  /-- `VQSAVE`: Stops the queues and writes every unfinished placed word to a queue image (R207). -/
  | vqsave (d a : BitVec 5)
  /-- `VQLOAD`: Restores state from a queue image and places its entries in placement order (R209). -/
  | vqload (a b : BitVec 5)
  /-- `VCMST`: Writes CM and cmv to memory after waiting for retirement (R210). -/
  | vcmst (a : BitVec 5)
  /-- `VCMLD`: Loads CM and cmv from memory (R210). -/
  | vcmld (a : BitVec 5)
  /-- `TRAP_ENTRY`: Stops queues, removes younger words, writes trap words, enters K mode and continues at tvec (R387). -/
  | trapEntry (t : TrapReq)
  /-- `TRAP_RECORD_DROP`: After 65,536 cycles of full ring the record is dropped and LOST counted (R404). -/
  | trapRecordDrop (ctx : Nat)
  /-- `TRAP_RING_CONS_WRITE`: The consumer advances CONS, freeing room for waiting producers (R404), or writes the word of
  LF and LOST (Table 21-5). -/
  | trapRingConsWrite (ctx : Nat) (cons : RingWrite)
  /-- `PREEMPTION_REQUEST`: The dispatcher requests pre-emption of a placed gang (R338). -/
  | preemptionRequest (gid : BitVec 16)
  /-- `PREEMPT_GANG_WRITE`: A function writes a gid to offset 0x048 to request pre-emption (R338). -/
  | preemptGangWrite (vf : Nat) (gid : BitVec 16)
  /-- `TIME_SLICE_EXPIRY`: A gang's time slice runs out while another function's candidate waits (R338). -/
  | timeSliceExpiry (gid : BitVec 16)
  /-- `GRACE_EXPIRY`: The grace timer expires and the hart is pre-empted by force with cause 0x16 (R424). -/
  | graceExpiry (core : Nat)
  /-- `DISPATCH_ROUND`: When cores free or a gang becomes eligible, the dispatcher places candidates by priority and deficit (R336). -/
  | dispatchRound
  /-- `RING0_TAIL_WRITE`: The host advances TAIL0, submitting ring 0 entries as a release (R332). -/
  | ring0TailWrite (vf : Nat) (tail : BitVec 12)
  /-- `ADMISSION`: Admission checks a ring entry in order and admits or refuses it (R333). -/
  | admission (vf : Nat) (ring1 : Bool)
  /-- `BARRIER_PHASE_COMPLETE`: A barrier phase completes when every hart has arrived, releasing waiters (R204). -/
  | barrierPhaseComplete (gid : BitVec 16)
  /-- `WATERMARK_UPDATE`: The core applies a WMPUB update once earlier accesses are visible (R142). -/
  | watermarkUpdate (core : Nat)
  /-- `WFE_WAKE`: An event ends a WFE wait (R190). -/
  | wfeWake (core : Nat)
  /-- `BUCKET_REFILL`: At each 64-cycle window a bucket gains RATE tokens and open loans become final (R110). -/
  | bucketRefill (cluster : Nat)
  /-- `L2_REQUEST`: A context presents a 64-byte request, spending, borrowing or returning tokens (R109). -/
  | l2Request (cluster ctx : Nat)
  /-- `PAGE_SERVICE`: The management cores map, migrate or refuse the pages of a batch (R412). -/
  | pageService (core : Nat) (frames : List Nat)
  /-- `FAULT_RESPONSE_WRITE`: The host answers a batch resolved or refused through PF offset 0x108 (R413). -/
  | faultResponseWrite (v : BitVec 64)
  /-- `PRI_PAGE_RESPONSE`: The host answers a PRI request for a host-resident page (R409). -/
  | priPageResponse (pasid vpage : Nat) (present : Bool) (hostPage : Nat)
  /-- `ATS_INVALIDATION`: The host invalidates cached host translations (R100). -/
  | atsInvalidation (pasid vpage npages : Nat)
  /-- `TRANSLATION_INVALIDATION`: The kernel invalidates translations of a range (R97). -/
  | translationInvalidation (ctx : Nat) (va : BitVec 64) (bytes : Nat)
  /-- `PAGE_MIGRATION`: The kernel moves a page between host and device (R102). -/
  | pageMigration (ctx : Nat) (va : BitVec 64) (toHost : Bool) (page : Nat)
  /-- `FRAME_TABLE_UPDATE`: The kernel updates a frame ownership entry, purging cached lines, or seals a frame (R118). -/
  | frameTableUpdate (frame : Nat) (entry : BitVec 64)
  /-- `HOST_DMA`: Host DMA into device memory, checked against frame ownership (R116). -/
  | hostDma (vf ctx : Nat) (pa : Nat) (dma : Dma)
  /-- `CORRECTABLE_ERROR`: A correctable error is corrected and counted (R418). -/
  | correctableError (unit : ErrUnit)
  /-- `UNCORRECTABLE_ERROR`: An uncorrectable error poisons its storage unit (R418). -/
  | uncorrectableError (unit : ErrUnit) (loc : ErrLoc)
  /-- `ERROR_COUNT_WINDOW`: A unit's error count returns to 0 at each 2^32-cycle window boundary (R421). -/
  | errorCountWindow (unit : ErrUnit)
  /-- `COUNTER_COUNT`: An enabled counter adds its events each cycle (R346). -/
  | counterCount (core : Nat) (ev : BitVec 16) (n : Nat)
  /-- `COUNTER_OVERFLOW`: A counter wraps to 0 and writes an overflow record or sample (R346). -/
  | counterOverflow (core idx : Nat)
  /-- `COUNTER_WRITE`: A write to a counter takes effect at a cycle boundary (R346). -/
  | counterWrite (core idx : Nat) (v : BitVec 64)
  /-- `TRACE_RECORD_DROP`: A record facing a full trace ring is dropped after the stall limit and LOST counted (R348). -/
  | traceRecordDrop (cluster : Nat)
  /-- `SINGLE_STEP_STOP`: With SSM set, a stop with cause 0x22 after each S-word or convoy (R407). -/
  | singleStepStop (core : Nat)
  /-- `ALLOCATE_BANK`: Requests a counter bank for a context (R440). -/
  | allocateBank (who : ObsFunc) (unit ctx : Nat)
  /-- `RELEASE_BANK`: Releases a counter bank, restoring a reclaimed guest's counters (R442). -/
  | releaseBank (who : ObsFunc) (unit ctx : Nat)
  /-- `ALLOCATE_TRACE_UNIT`: Requests a trace unit for a context (R440). -/
  | allocateTraceUnit (who : ObsFunc) (unit ctx : Nat)
  /-- `RELEASE_TRACE_UNIT`: Releases a trace unit, writing a lost record for a reclaimed guest (R443). -/
  | releaseTraceUnit (who : ObsFunc) (unit ctx : Nat)
  /-- `COLLECTIVE_MATCH`: A send matches a receiver's CRECV and its data leave (R292). -/
  | collectiveMatch (msg : CollMsg)
  /-- `CRED_JOIN`: When every member has joined, the routers combine contributions and write the result (R294). -/
  | credJoin (ctx grp tag : Nat) (parts : List CredPart)
  /-- `COPY_CHUNK_ARRIVAL`: A chunk of a copy has fully arrived and its mask bit is set (R284). -/
  | copyChunkArrival (core idx : Nat)
  /-- `AUDIT_BLOCK_SIGN`: The management cores sign a full audit block and advance PROD (R360). -/
  | auditBlockSign (ctx : Nat)
  /-- `AUDIT_CONS_WRITE`: The consumer advances the audit ring CONS, freeing room for AUDLOG (R454). -/
  | auditConsWrite (ctx : Nat) (cons : BitVec 32)
  /-- `KERNEL_RESUME_HART`: The kernel resumes a hart stopped on route K as ERET would (R402). -/
  | kernelResumeHart (core : Nat)
  /-- `KERNEL_ENTER_HANDLER`: The kernel enters a stopped hart's handler as route H would (R402). -/
  | kernelEnterHandler (core : Nat)
  /-- `DESTROY_GANG`: The kernel destroys a gang, freeing its cores (R445). -/
  | destroyGang (gid : BitVec 16)
  /-- `THAW_MASTER`: The kernel thaws a frozen hart, engine or function (R445). -/
  | thawMaster (m : Master)
  /-- `FUNCTION_LEVEL_RESET`: A function-level reset ends every gang of the function's contexts and empties its rings (R445). -/
  | functionLevelReset (vf : Nat)
  /-- `POWER_ON_BOOT`: At power-on the management cores verify images, start the kernel and bring up the device (R352). -/
  | powerOnBoot (b : BootReport)
  /-- `KEY_SLOT_LOAD`: The management cores load an AES-256-XTS key slot (R354). -/
  | keySlotLoad (slot : Nat) (key : BitVec 512)
  /-- `MODEL_STORE_LOAD`: The kernel loads a model image into a context's frames and seals it (R356). -/
  | modelStoreLoad (ctx : Nat) (va : BitVec 64) (image : List (BitVec 8)) (frames : List Nat)
  /-- `CHECKPOINT`: Pre-empts gangs, pushes dirty lines and writes frame ciphertext to the drives (R357). -/
  | checkpoint (id : Nat) (ctxs : List Nat)
  /-- `CHECKPOINT_RESTORE`: Writes checkpointed ciphertext back to its physical addresses (R447). -/
  | checkpointRestore (id : Nat)
  /-- `ATTESTATION_REQUEST`: A nonce and context are answered with a signed report or a failure code (R359). -/
  | attestationRequest (ctx : Nat) (nonce : BitVec 256)
  /-- `CONTEXT_MIGRATION`: The kernel moves a context between two packages (R430). -/
  | contextMigration (ctx : Nat) (step : MigrStep)
  /-- `THERMAL_LIMIT`: The board controller signals a limit and the clock is lowered (R361). -/
  | thermalLimit
  /-- `THERMAL_LIMIT_CLEAR`: The limit clears and the clock is raised again (R361). -/
  | thermalLimitClear
  /-- `REGISTER_WRITE`: A write to a register with no row of its own stores its RW fields and clears W1C bits (R5). -/
  | registerWrite (r : DevReg) (v : BitVec 64)
  /-- `ILLEGAL_S_WORD`: The Last decodes a pattern that is not an S-word and takes a generator fault with cause 0x01 (R370). -/
  | illegalSWord (w : BitVec 32)
  /-- `ILLEGAL_V_WORD`: A block word that is not an instruction reaches the head of its queue and takes a word fault with cause 0x02 (R372). -/
  | illegalVWord (w : BitVec 64)
  /-- `S_WORD_FETCH_FAULT`: Fetching the S-word at the program counter fails and the fault is reported at that address (R188). -/
  | sWordFetchFault
  /-- `TRACE_RING_CONS_WRITE`: The consumer advances a trace ring's CONS, freeing room so that a stalled producer resumes and a lost record is written first (R348). -/
  | traceRingConsWrite (cluster : Nat) (cons : BitVec 16)
  /-- `COLLECTIVE_GROUP_BIND`: The kernel binds a collective group number of a context to a set of chips (R339). -/
  | collectiveGroupBind (ctx grp : Nat) (chips : List Nat)
  /-- `CHECKPOINT_COMPLETE`: A checkpoint ends with its completion code, releasing waiting host writes and unplaced launches of its contexts (R447). -/
  | checkpointComplete (id : Nat) (code : Nat)
  /-- `RECOVERY_IMAGE_WRITE`: In recovery mode the host writes new firmware or kernel images to flash through the physical function (R450). -/
  | recoveryImageWrite (slotB : Bool) (kernel : Bool) (image : List (BitVec 8))
  deriving DecidableEq, Repr

end Sys2Proof
end

