-- ==== Sys2Proof/WellFormed.lean ====
section
/-! DEFINITION. Which instructions are words of the machine: the constraints on fields that spec/06 (R154 to
R161) and the field tables of spec/08 to spec/11 state. An operand value that is well encoded but breaks a limit
is not ill formed: the word's meaning refuses it (spec/20_rejected_encodings.md R378). -/

namespace Sys2Proof

/-- The width in bits of an element type (R66, R65). -/
def EType.width : EType → Nat
  | .i8 | .n8 | .f8e4 | .f8e5 => 8
  | .i16 | .n16 | .bf16 | .f16 => 16
  | .i32 | .n32 | .f32 => 32
  | .i64 | .n64 | .f64 => 64
  | .f4 => 4
  | .sl => 1

/-- A signed or unsigned integer type, codes 0 to 7. -/
def EType.isInt : EType → Bool
  | .i8 | .i16 | .i32 | .i64 | .n8 | .n16 | .n32 | .n64 => true
  | _ => false

/-- The signed integer types, codes 0 to 3. -/
def EType.isSigned : EType → Bool
  | .i8 | .i16 | .i32 | .i64 => true
  | _ => false

/-- A floating-point type, codes 8 to 14. -/
def EType.isFloat : EType → Bool
  | .f64 | .f32 | .bf16 | .f16 | .f8e4 | .f8e5 | .f4 => true
  | _ => false

/-- Significand bits of a floating-point type, the hidden bit included (R68, Table 3-2). -/
def EType.precision : EType → Nat
  | .f64 => 53
  | .f32 => 24
  | .bf16 => 8
  | .f16 => 11
  | .f8e4 => 4
  | .f8e5 => 3
  | .f4 => 2
  | _ => 0

/-- Whether every value of the source type is exact in the target (R74): between floating-point types when the
target is wider or the same; from an integer type when its magnitude bits fit the significand; between integer
types when the range is contained. `VCVT` then requires rnd = 0 (R237). -/
def exactConv (sty et : EType) : Bool :=
  if sty == et then true
  else if sty.isFloat && et.isFloat then decide (sty.width < et.width)
  else if sty.isInt && et.isFloat then
    decide (sty.width ≤ et.precision + (if sty.isSigned then 1 else 0))
  else if sty.isInt && et.isInt then
    if sty.isSigned then et.isSigned && decide (sty.width ≤ et.width)
    else if et.isSigned then decide (sty.width < et.width)
    else decide (sty.width ≤ et.width)
  else false

/-- Form vv. -/
def Src.isReg : Src → Bool
  | .vv _ => true
  | _ => false

/-- A word without a second source: fn[1:0], vb and vc are zero (R213). -/
def Arith.unary (o : Arith) : Bool := o.src == .vv 0 && o.vc == 0

/-- SC is zero unless AO = 1 or ORD ≠ 00 (Table 6-9). -/
def MemArgs.scopeOk (o : MemArgs) : Bool := o.sc == .hart || o.ao || o.ord != 0

/-- The instructions of the machine. The rnd of `vscansum` and `vcolsum`, which rounds a floating-point sum, may be any for
an integer type too, where it has no effect (R154, R229, R230, log 67). -/
def Instr.wf : Instr → Bool
  | .nop => true
  | .halt => true
  | .ecall => true
  | .eret => true
  | .wfe => true
  | .brk => true
  | .fenceAcq _ => true
  | .fenceRel _ => true
  | .fenceFull _ => true
  | .add _ _ _ => true
  | .sub _ _ _ => true
  | .and _ _ _ => true
  | .or _ _ _ => true
  | .xor _ _ _ => true
  | .shl _ _ _ => true
  | .shr _ _ _ => true
  | .sar _ _ _ => true
  | .slt _ _ _ => true
  | .sltn _ _ _ => true
  | .min _ _ _ => true
  | .max _ _ _ => true
  | .minn _ _ _ => true
  | .maxn _ _ _ => true
  | .clz _ _ => true
  | .ctz _ _ => true
  | .popc _ _ => true
  | .mul _ _ _ => true
  | .mulh _ _ _ => true
  | .mulhn _ _ _ => true
  | .div _ _ _ => true
  | .divn _ _ _ => true
  | .rem _ _ _ => true
  | .remn _ _ _ => true
  | .addi _ _ _ => true
  | .andi _ _ _ => true
  | .ori _ _ _ => true
  | .xori _ _ _ => true
  | .shli _ _ _ => true
  | .shri _ _ _ => true
  | .sari _ _ _ => true
  | .slti _ _ _ => true
  | .lih _ _ => true
  | .addpc _ _ => true
  | .ins _ _ _ _ => true
  | .ext _ _ _ _ => true
  | .exts _ _ _ _ => true
  | .ld8 _ _ _ => true
  | .ld16 _ _ _ => true
  | .ld32 _ _ _ => true
  | .ld64 _ _ _ => true
  | .ldn8 _ _ _ => true
  | .ldn16 _ _ _ => true
  | .ldn32 _ _ _ => true
  | .ldw _ _ _ => true
  | .st8 _ _ _ => true
  | .st16 _ _ _ => true
  | .st32 _ _ _ => true
  | .st64 _ _ _ => true
  | .amoAdd _ _ _ _ _ _ => true
  | .amoSwp _ _ _ _ _ _ => true
  | .amoCas _ _ _ _ _ _ => true
  | .amoMin _ _ _ _ _ _ => true
  | .amoMax _ _ _ _ _ _ => true
  | .amoMinn _ _ _ _ _ _ => true
  | .amoMaxn _ _ _ _ _ _ => true
  | .amoAnd _ _ _ _ _ _ => true
  | .amoOr _ _ _ _ _ _ => true
  | .amoXor _ _ _ _ _ _ => true
  | .beq _ _ _ => true
  | .bne _ _ _ => true
  | .blt _ _ _ => true
  | .bge _ _ _ => true
  | .bltn _ _ _ => true
  | .bgen _ _ _ => true
  | .jal _ _ => true
  | .jalr _ _ _ => true
  | .setvl _ _ _ => true
  | .sput _ _ => true
  | .emit _ => true
  | .emitq _ _ => true
  | .vfetch _ _ => true
  | .vdrain mask => mask != 0
  | .qwait mask _ => mask != 0
  | .mfs _ _ => true
  | .mts _ _ => true
  | .wmpub _ _ _ => true
  | .wmwait _ _ _ => true
  | .barArrive => true
  | .barWait => true
  | .barAw => true
  | .launch _ _ => true
  | .rseed _ => true
  | .rseek _ => true
  | .vqsave _ _ => true
  | .vqload _ _ => true
  | .vcmst _ => true
  | .vcmld _ => true
  | .vadd o => o.vc == 0 && o.rnd == .rne
  | .vsub o => o.vc == 0 && o.rnd == .rne
  | .vmul o => o.vc == 0 && o.rnd == .rne
  | .vmulh o => o.vc == 0 && o.rnd == .rne
  | .vmacc o => o.vc == 0 && o.rnd == .rne
  | .vmin o => o.vc == 0 && o.rnd == .rne
  | .vmax o => o.vc == 0 && o.rnd == .rne
  | .vand o => o.vc == 0 && o.rnd == .rne
  | .vor o => o.vc == 0 && o.rnd == .rne
  | .vxor o => o.vc == 0 && o.rnd == .rne
  | .vshl o => o.vc == 0 && o.rnd == .rne
  | .vshr o => o.vc == 0 && o.rnd == .rne
  | .vsar o => o.vc == 0 && o.rnd == .rne
  | .vabs o => o.unary && o.rnd == .rne
  | .vsadd o => o.vc == 0 && o.rnd == .rne
  | .vssub o => o.vc == 0 && o.rnd == .rne
  | .vfadd o => o.vc == 0
  | .vfsub o => o.vc == 0
  | .vfmul o => o.vc == 0
  | .vfma _ => true
  | .vfnma _ => true
  | .vfdiv o => o.vc == 0
  | .vfsqrt o => o.unary
  | .vfrsqe o => o.unary && o.rnd == .rne
  | .vfexp2 o => o.unary && o.rnd == .rne
  | .vfmin o => o.vc == 0 && o.rnd == .rne
  | .vfmax o => o.vc == 0 && o.rnd == .rne
  | .vfclamp o => o.rnd == .rne
  | .vfabs o => o.unary && o.rnd == .rne
  | .vfneg o => o.unary && o.rnd == .rne
  | .vcmpeq o => o.vc == 0 && o.rnd == .rne
  | .vcmpne o => o.vc == 0 && o.rnd == .rne
  | .vcmplt o => o.vc == 0 && o.rnd == .rne
  | .vcmpge o => o.vc == 0 && o.rnd == .rne
  | .vcmple o => o.vc == 0 && o.rnd == .rne
  | .vcmpgt o => o.vc == 0 && o.rnd == .rne
  | .vfcmpeq o => o.vc == 0 && o.rnd == .rne
  | .vfcmpne o => o.vc == 0 && o.rnd == .rne
  | .vfcmplt o => o.vc == 0 && o.rnd == .rne
  | .vfcmple o => o.vc == 0 && o.rnd == .rne
  | .vfcmpgt o => o.vc == 0 && o.rnd == .rne
  | .vfcmpge o => o.vc == 0 && o.rnd == .rne
  | .vfcmpun o => o.vc == 0 && o.rnd == .rne
  | .vfcmpord o => o.vc == 0 && o.rnd == .rne
  | .vmand _ => true
  | .vmor _ => true
  | .vmxor _ => true
  | .vmnot o => o.vb == 0
  | .vmandn _ => true
  | .vmpop o => o.unary && o.rnd == .rne
  | .vmfirst o => o.unary && o.rnd == .rne
  | .vmscanand o => o.vb == 0
  | .viota o => o.unary && o.rnd == .rne
  | .vidx o => o.unary && o.rnd == .rne && o.va == 0
  | .vidxr o => o.unary && o.rnd == .rne && o.va == 0
  | .vredsum o => o.unary && o.rnd == .rne
  | .vredmin o => o.unary && o.rnd == .rne
  | .vredmax o => o.unary && o.rnd == .rne
  | .vredand o => o.unary && o.rnd == .rne
  | .vredor o => o.unary && o.rnd == .rne
  | .vredxor o => o.unary && o.rnd == .rne
  | .vfredt o => o.unary && o.rnd == .rne
  | .vfredo o => o.unary
  | .vfredmax o => o.unary && o.rnd == .rne
  | .vfredmin o => o.unary && o.rnd == .rne
  | .vscansum o => o.unary
  | .vscanmax o => o.unary && o.rnd == .rne
  | .vscanmin o => o.unary && o.rnd == .rne
  | .vcolsum o => o.unary
  | .vcolmax o => o.unary && o.rnd == .rne
  | .vcolmin o => o.unary && o.rnd == .rne
  | .vrgather _ => true
  | .vrgatherw _ => true
  | .vslideup o => o.vc == 0 && o.rnd == .rne
  | .vslidedn o => o.vc == 0 && o.rnd == .rne
  | .vcompress o => o.src.isReg && !o.m && o.vc == 0 && o.rnd == .rne
  | .vexpand o => o.src.isReg && !o.m && o.vc == 0 && o.rnd == .rne
  | .vbcast _ => true
  | .vmv o => o.unary && o.rnd == .rne
  | .vrowmv _ => true
  | .vrowbc _ => true
  | .vcvt o => o.rnd == .rne || !exactConv o.sty o.et
  | .vpack2 _ => true
  | .vpack4 _ => true
  | .vunpk2 o => o.ove == none && o.rnd == .rne
  | .vunpk4 o => o.ove == none && o.rnd == .rne
  | .vqnt _ => true
  | .vslicea o => o.et == .sl && o.rnd == .rne
  | .vsliceb o => o.et == .sl && o.rnd == .rne
  | .vunslicea o => o.sty == .sl && o.ove == none && o.rnd == .rne
  | .vunsliceb o => o.sty == .sl && o.ove == none && o.rnd == .rne
  | .vcprs4 _ => true
  | .vspec _ => true
  | .vspecf _ => true
  | .vbrkb o => o.vb == 0
  | .vbrki o => o.vb == 0
  | .vexitb o => o.vd == 0 && o.vb == 0
  | .vexiti o => o.vd == 0 && o.vb == 0
  | .vpart o => o.m && o.vb == 0
  | .vfftrim _ => true
  | .vpfold o => o.unary && o.rnd == .rne
  | .vhacc o => o.vc == 0 && !o.adv && !o.ao && (o.ord == 0) && !o.we && o.wm == 0 && o.iw == .n32 && o.scopeOk
  | .vld o => o.va == 0 && o.vb == 0 && o.vc == 0 && (o.ord == 0 || o.ord == 1) && !o.re && o.rx == 0 && o.iw == .n32 && o.scopeOk
  | .vldx o => o.va == 0 && o.vc == 0 && !o.adv && (o.ord == 0 || o.ord == 1) && o.scopeOk
  | .vldff o => o.va == 0 && o.vb == 0 && o.vc == 0 && !o.ao && (o.ord == 0) && !o.re && o.rx == 0 && o.iw == .n32 && o.scopeOk
  | .vldsp o => o.va == 0 && o.vb == 0 && o.vc == 0 && !o.ao && (o.ord == 0) && !o.re && o.rx == 0 && o.iw == .n32 && o.scopeOk
  | .vldspx o => o.va == 0 && o.vc == 0 && !o.adv && !o.ao && (o.ord == 0) && o.scopeOk
  | .vldp o => o.va == 0 && o.vb == 0 && o.vc == 0 && (o.ord == 0 || o.ord == 1) && !o.re && o.rx == 0 && o.iw == .n32 && o.scopeOk
  | .vst o => o.vd == 0 && o.vb == 0 && o.vc == 0 && (o.ord == 0 || o.ord == 2) && !o.we && o.wm == 0 && !o.re && o.rx == 0 && o.iw == .n32 && o.scopeOk
  | .vstx o => o.vd == 0 && o.vc == 0 && !o.adv && (o.ord == 0 || o.ord == 2) && !o.we && o.wm == 0 && o.scopeOk
  | .vsth o => o.vd == 0 && o.vb == 0 && o.vc == 0 && !o.ao && (o.ord == 0) && !o.we && o.wm == 0 && !o.re && o.rx == 0 && o.iw == .n32 && o.scopeOk
  | .vstp o => o.vd == 0 && o.vb == 0 && o.vc == 0 && !o.ao && (o.ord == 0 || o.ord == 2) && !o.we && o.wm == 0 && !o.re && o.rx == 0 && o.iw == .n32 && o.scopeOk
  | .vamoAdd o => o.vc == 0 && !o.adv && !o.we && o.wm == 0 && o.scopeOk
  | .vamoSwp o => o.vc == 0 && !o.adv && !o.we && o.wm == 0 && o.scopeOk
  | .vamoMin o => o.vc == 0 && !o.adv && !o.we && o.wm == 0 && o.scopeOk
  | .vamoMax o => o.vc == 0 && !o.adv && !o.we && o.wm == 0 && o.scopeOk
  | .vamoAnd o => o.vc == 0 && !o.adv && !o.we && o.wm == 0 && o.scopeOk
  | .vamoOr o => o.vc == 0 && !o.adv && !o.we && o.wm == 0 && o.scopeOk
  | .vamoXor o => o.vc == 0 && !o.adv && !o.we && o.wm == 0 && o.scopeOk
  | .vamoFadd o => o.vc == 0 && !o.adv && !o.we && o.wm == 0 && o.scopeOk
  | .vxlt o => !o.adv && !o.ao && (o.ord == 0 || o.ord == 1) && !o.we && o.wm == 0 && !o.re && o.rx == 0 && o.iw == .n32 && o.str == 0 && o.scopeOk
  | .vxltff o => !o.adv && !o.ao && (o.ord == 0 || o.ord == 1) && !o.we && o.wm == 0 && !o.re && o.rx == 0 && o.iw == .n32 && o.str == 0 && o.scopeOk
  | .sopen _ _ _ => true
  | .sopenp _ _ _ => true
  | .sadv _ _ _ => true
  | .sclose _ _ => true
  | .ssave _ _ _ => true
  | .mcomp o => o.vc == 0 && !o.m && o.g != 3
  | .mcscan o => o.vb == 0 && !o.m && o.g != 3
  | .mcscanc o => !o.m && o.g != 3
  | .mclegal o => o.vc == 0 && o.g == 0
  | .mclegalx o => o.vc == 0 && o.g == 0
  | .vsett _ _ _ => true
  | .vgett _ _ _ => true
  | .vfenceAcq _ _ => true
  | .vfenceRel _ _ => true
  | .vfenceFull _ _ => true
  | .vmark _ _ => true
  | .mshape _ _ _ => true
  | .mshapeg _ _ => true
  | .mzero _ => true
  | .mma o => o.vc == 0
  | .mmas _ => true
  | .msmma _ => true
  | .mrd _ => true
  | .mrdz _ => true
  | .mwr _ => true
  | .mwra _ => true
  | .msync _ _ => true
  | .vproj _ _ _ => true
  | .vprojs _ _ _ _ _ => true
  | .vprojt _ _ _ _ _ => true
  | .vprojb _ _ _ _ => true
  | .vheaprd _ _ => true
  | .vpstrd _ => true
  | .vhmerge _ _ => true
  | .vhmergen _ _ _ => true
  | .vpstwr _ _ _ => true
  | .draw _ _ _ _ _ => true
  | .drawn _ _ _ _ _ => true
  | .drawr _ _ _ _ _ _ => true
  | .drawrn _ _ _ _ _ _ => true
  | .cpy _ => true
  | .cpyc _ _ _ => true
  | .cpywait _ _ => true
  | .cpywaitv _ _ => true
  | .csend _ => true
  | .csendm _ => true
  | .crecv _ => true
  | .credsum _ _ => true
  | .credmax _ _ => true
  | .credmin _ _ => true
  | .credrs _ _ => true
  | .credheap _ _ => true
  | .cwait _ _ => true
  | .cwaitv _ _ => true
  | .audlog _ => true
  | .trapEntry _ => true
  | .trapRecordDrop _ => true
  | .trapRingConsWrite _ _ => true
  | .preemptionRequest _ => true
  | .preemptGangWrite _ _ => true
  | .timeSliceExpiry _ => true
  | .graceExpiry _ => true
  | .dispatchRound => true
  | .ring0TailWrite _ _ => true
  | .admission _ _ => true
  | .barrierPhaseComplete _ => true
  | .watermarkUpdate _ => true
  | .wfeWake _ => true
  | .bucketRefill _ => true
  | .l2Request _ _ => true
  | .pageService _ _ => true
  | .faultResponseWrite _ => true
  | .priPageResponse _ _ _ _ => true
  | .atsInvalidation _ _ _ => true
  | .translationInvalidation _ _ _ => true
  | .pageMigration _ _ _ _ => true
  | .frameTableUpdate _ _ => true
  | .hostDma _ _ _ _ => true
  | .correctableError _ => true
  | .uncorrectableError _ _ => true
  | .errorCountWindow _ => true
  | .counterCount _ _ _ => true
  | .counterOverflow _ _ => true
  | .counterWrite _ _ _ => true
  | .traceRecordDrop _ => true
  | .singleStepStop _ => true
  | .allocateBank _ _ _ => true
  | .releaseBank _ _ _ => true
  | .allocateTraceUnit _ _ _ => true
  | .releaseTraceUnit _ _ _ => true
  | .collectiveMatch _ => true
  | .credJoin _ _ _ _ => true
  | .copyChunkArrival _ _ => true
  | .auditBlockSign _ => true
  | .auditConsWrite _ _ => true
  | .kernelResumeHart _ => true
  | .kernelEnterHandler _ => true
  | .destroyGang _ => true
  | .thawMaster _ => true
  | .functionLevelReset _ => true
  | .powerOnBoot _ => true
  | .keySlotLoad _ _ => true
  | .modelStoreLoad _ _ _ _ => true
  | .checkpoint _ _ => true
  | .checkpointRestore _ => true
  | .attestationRequest _ _ => true
  | .contextMigration _ _ => true
  | .thermalLimit => true
  | .thermalLimitClear => true
  | .registerWrite _ _ => true
  | .illegalSWord _ => true
  | .illegalVWord _ => true
  | .sWordFetchFault => true
  | .traceRingConsWrite _ _ => true
  | .collectiveGroupBind _ _ _ => true
  | .checkpointComplete _ _ => true
  | .recoveryImageWrite _ _ _ => true

end Sys2Proof
end

