-- ==== Sys2Proof/Decode.lean ====
section
/-! DEFINITION. The decoder and the encoder of S-words and V-words (spec/06_encoding_and_assembly.md; field tables
of spec/08 to spec/11). A word is first split into its fields; the fields select one candidate instruction; the
candidate stands only if it is well formed and its own encoding is the word again. Every field that a row does
not name is therefore required to be zero (R150, R154), and no reserved pattern falls through to a neighbour. -/

namespace Sys2Proof

/-- The two refusals of decoding: causes 0x01 and 0x02 (R152, R161). -/
inductive Reject where
  | illegalSWord
  | illegalVWord
  deriving DecidableEq, Repr

/-! ## Field codes -/

def EType.code : EType → BitVec 4
  | .i8 => 0
  | .i16 => 1
  | .i32 => 2
  | .i64 => 3
  | .n8 => 4
  | .n16 => 5
  | .n32 => 6
  | .n64 => 7
  | .f64 => 8
  | .f32 => 9
  | .bf16 => 10
  | .f16 => 11
  | .f8e4 => 12
  | .f8e5 => 13
  | .f4 => 14
  | .sl => 15

/-- Table 3-1. -/
def EType.ofCode (b : BitVec 4) : EType :=
  match b.toNat with
  | 0 => .i8
  | 1 => .i16
  | 2 => .i32
  | 3 => .i64
  | 4 => .n8
  | 5 => .n16
  | 6 => .n32
  | 7 => .n64
  | 8 => .f64
  | 9 => .f32
  | 10 => .bf16
  | 11 => .f16
  | 12 => .f8e4
  | 13 => .f8e5
  | 14 => .f4
  | _ => .sl

def Rnd.code : Rnd → BitVec 2
  | .rne => 0
  | .rtz => 1
  | .rdn => 2
  | .rup => 3

/-- Table 3-4. -/
def Rnd.ofCode (b : BitVec 2) : Rnd :=
  match b.toNat with
  | 0 => .rne
  | 1 => .rtz
  | 2 => .rdn
  | _ => .rup

def Scope.code : Scope → BitVec 3
  | .hart => 0
  | .core => 1
  | .clus => 2
  | .dev => 3
  | .sys => 4

/-- Table 5-1: codes 5 to 7 name no scope. -/
def Scope.ofCode (b : BitVec 3) : Option Scope :=
  match b.toNat with
  | 0 => some .hart
  | 1 => some .core
  | 2 => some .clus
  | 3 => some .dev
  | 4 => some .sys
  | _ => none

def IdxTy.code : IdxTy → BitVec 2
  | .n32 => 0
  | .n64 => 1
  | .n16 => 2

/-- IW (R249): 0b11 is not an instruction. -/
def IdxTy.ofCode (b : BitVec 2) : Option IdxTy :=
  match b.toNat with
  | 0 => some .n32
  | 1 => some .n64
  | 2 => some .n16
  | _ => none

/-! ## S-words -/

/-- The fields of the SR format (Table 6-1); SI, SB and SM put `b ++ fn` together, SJ `a ++ b ++ fn`. -/
structure SRaw where
  op : BitVec 6
  d : BitVec 5
  a : BitVec 5
  b : BitVec 5
  fn : BitVec 11
  deriving DecidableEq, Repr

def SRaw.pack (r : SRaw) : BitVec 32 := r.op ++ r.d ++ r.a ++ r.b ++ r.fn

def SRaw.unpack (w : BitVec 32) : SRaw :=
  { op := w.extractLsb' 26 6, d := w.extractLsb' 21 5, a := w.extractLsb' 16 5, b := w.extractLsb' 11 5,
    fn := w.extractLsb' 0 11 }

/-- The 16-bit field of SI, SB and SM. -/
def SRaw.imm (r : SRaw) : BitVec 16 := r.b ++ r.fn
/-- The 21-bit field of SJ. -/
def SRaw.off (r : SRaw) : BitVec 21 := r.a ++ r.b ++ r.fn
/-- A word of the SI format (of SB and SM with their own names for the two register fields). -/
def SRaw.ofImm (op : BitVec 6) (d a : BitVec 5) (imm : BitVec 16) : SRaw :=
  { op := op, d := d, a := a, b := imm.extractLsb' 11 5, fn := imm.extractLsb' 0 11 }
/-- A word of the SJ format. -/
def SRaw.ofOff (op : BitVec 6) (d : BitVec 5) (off : BitVec 21) : SRaw :=
  { op := op, d := d, a := off.extractLsb' 16 5, b := off.extractLsb' 11 5, fn := off.extractLsb' 0 11 }

/-- The privileged S-words (R189, R201, R207 to R210), which a trap reports by their bits. -/
def SRaw.eret : SRaw := ⟨0, 0, 0, 0, 4⟩
def SRaw.mfs (d : BitVec 5) (n : BitVec 12) : SRaw := .ofImm 0x30 d 0 (0#4 ++ n)
def SRaw.mts (n : BitVec 12) (a : BitVec 5) : SRaw := .ofImm 0x31 0 a (0#4 ++ n)
def SRaw.vqsave (d a : BitVec 5) : SRaw := ⟨56, d, a, 0, 0⟩
def SRaw.vqload (a b : BitVec 5) : SRaw := ⟨56, 0, a, b, 1⟩
def SRaw.vcmst (a : BitVec 5) : SRaw := ⟨56, 0, a, 0, 2⟩
def SRaw.vcmld (a : BitVec 5) : SRaw := ⟨56, 0, a, 0, 3⟩

/-- The fields of an S-word (Tables 6-2 to 6-5, 5-2, 5-8). -/
def encodeS : Instr → Option SRaw
  | .nop => some ⟨0, 0, 0, 0, 1⟩
  | .halt => some ⟨0, 0, 0, 0, 2⟩
  | .ecall => some ⟨0, 0, 0, 0, 3⟩
  | .eret => some .eret
  | .wfe => some ⟨0, 0, 0, 0, 5⟩
  | .brk => some ⟨0, 0, 0, 0, 6⟩
  | .fenceAcq sc => some ⟨0, 0, 0, 0, (0b001#3 ++ 1#2 ++ 0#3 ++ sc.code)⟩
  | .fenceRel sc => some ⟨0, 0, 0, 0, (0b001#3 ++ 2#2 ++ 0#3 ++ sc.code)⟩
  | .fenceFull sc => some ⟨0, 0, 0, 0, (0b001#3 ++ 3#2 ++ 0#3 ++ sc.code)⟩
  | .add d a b => some ⟨1, d, a, b, 0⟩
  | .sub d a b => some ⟨1, d, a, b, 1⟩
  | .and d a b => some ⟨1, d, a, b, 2⟩
  | .or d a b => some ⟨1, d, a, b, 3⟩
  | .xor d a b => some ⟨1, d, a, b, 4⟩
  | .shl d a b => some ⟨1, d, a, b, 5⟩
  | .shr d a b => some ⟨1, d, a, b, 6⟩
  | .sar d a b => some ⟨1, d, a, b, 7⟩
  | .slt d a b => some ⟨1, d, a, b, 8⟩
  | .sltn d a b => some ⟨1, d, a, b, 9⟩
  | .min d a b => some ⟨1, d, a, b, 10⟩
  | .max d a b => some ⟨1, d, a, b, 11⟩
  | .minn d a b => some ⟨1, d, a, b, 12⟩
  | .maxn d a b => some ⟨1, d, a, b, 13⟩
  | .clz d a => some ⟨1, d, a, 0, 16⟩
  | .ctz d a => some ⟨1, d, a, 0, 17⟩
  | .popc d a => some ⟨1, d, a, 0, 18⟩
  | .mul d a b => some ⟨2, d, a, b, 0⟩
  | .mulh d a b => some ⟨2, d, a, b, 1⟩
  | .mulhn d a b => some ⟨2, d, a, b, 2⟩
  | .div d a b => some ⟨2, d, a, b, 3⟩
  | .divn d a b => some ⟨2, d, a, b, 4⟩
  | .rem d a b => some ⟨2, d, a, b, 5⟩
  | .remn d a b => some ⟨2, d, a, b, 6⟩
  | .addi d a imm => some (.ofImm 3 d a imm)
  | .andi d a imm => some (.ofImm 4 d a imm)
  | .ori d a imm => some (.ofImm 5 d a imm)
  | .xori d a imm => some (.ofImm 6 d a imm)
  | .slti d a imm => some (.ofImm 8 d a imm)
  | .ld8 d a imm => some (.ofImm 16 d a imm)
  | .ld16 d a imm => some (.ofImm 17 d a imm)
  | .ld32 d a imm => some (.ofImm 18 d a imm)
  | .ld64 d a imm => some (.ofImm 19 d a imm)
  | .ldn8 d a imm => some (.ofImm 20 d a imm)
  | .ldn16 d a imm => some (.ofImm 21 d a imm)
  | .ldn32 d a imm => some (.ofImm 22 d a imm)
  | .jalr d a imm => some (.ofImm 39 d a imm)
  | .shli d a amt => some (.ofImm 7 d a (0#8 ++ 0#2 ++ amt))
  | .shri d a amt => some (.ofImm 7 d a (0#8 ++ 1#2 ++ amt))
  | .sari d a amt => some (.ofImm 7 d a (0#8 ++ 2#2 ++ amt))
  | .lih d imm => some (.ofImm 9 d 0 imm)
  | .addpc d imm => some (.ofImm 10 d 0 imm)
  | .ins d a pos len => some (.ofImm 11 d a (0#4 ++ pos ++ len))
  | .ext d a pos len => some (.ofImm 12 d a (0#4 ++ pos ++ len))
  | .exts d a pos len => some (.ofImm 13 d a (0#4 ++ pos ++ len))
  | .ldw d n off => some (.ofImm 0x17 d (0#2 ++ n) off)
  | .st8 b a off => some (.ofImm 24 b a off)
  | .st16 b a off => some (.ofImm 25 b a off)
  | .st32 b a off => some (.ofImm 26 b a off)
  | .st64 b a off => some (.ofImm 27 b a off)
  | .amoAdd d a b size ord sc => some ⟨0x1C, d, a, b, (0#4 ++ size ++ ord ++ sc.code)⟩
  | .amoSwp d a b size ord sc => some ⟨0x1C, d, a, b, (1#4 ++ size ++ ord ++ sc.code)⟩
  | .amoCas d a b size ord sc => some ⟨0x1C, d, a, b, (2#4 ++ size ++ ord ++ sc.code)⟩
  | .amoMin d a b size ord sc => some ⟨0x1C, d, a, b, (3#4 ++ size ++ ord ++ sc.code)⟩
  | .amoMax d a b size ord sc => some ⟨0x1C, d, a, b, (4#4 ++ size ++ ord ++ sc.code)⟩
  | .amoMinn d a b size ord sc => some ⟨0x1C, d, a, b, (5#4 ++ size ++ ord ++ sc.code)⟩
  | .amoMaxn d a b size ord sc => some ⟨0x1C, d, a, b, (6#4 ++ size ++ ord ++ sc.code)⟩
  | .amoAnd d a b size ord sc => some ⟨0x1C, d, a, b, (7#4 ++ size ++ ord ++ sc.code)⟩
  | .amoOr d a b size ord sc => some ⟨0x1C, d, a, b, (8#4 ++ size ++ ord ++ sc.code)⟩
  | .amoXor d a b size ord sc => some ⟨0x1C, d, a, b, (9#4 ++ size ++ ord ++ sc.code)⟩
  | .beq a b off => some (.ofImm 32 a b off)
  | .bne a b off => some (.ofImm 33 a b off)
  | .blt a b off => some (.ofImm 34 a b off)
  | .bge a b off => some (.ofImm 35 a b off)
  | .bltn a b off => some (.ofImm 36 a b off)
  | .bgen a b off => some (.ofImm 37 a b off)
  | .jal d off => some (.ofOff 0x26 d off)
  | .setvl d a b => some ⟨40, d, a, b, 0⟩
  | .sput slot a => some ⟨41, 0, a, 0, (0#7 ++ slot)⟩
  | .emit a => some ⟨42, 0, a, 0, 0⟩
  | .emitq d a => some ⟨43, d, a, 0, 0⟩
  | .vfetch a off => some (.ofImm 0x2C 0 a off)
  | .vdrain mask => some ⟨45, 0, 0, 0, (0#7 ++ mask)⟩
  | .qwait mask a => some ⟨46, 0, a, 0, (0#7 ++ mask)⟩
  | .mfs d n => some (.mfs d n)
  | .mts n a => some (.mts n a)
  | .wmpub w a sc => some ⟨50, 0, a, 0, (0#4 ++ w ++ 0#1 ++ sc.code)⟩
  | .wmwait w a sc => some ⟨51, 0, a, 0, (0#4 ++ w ++ 0#1 ++ sc.code)⟩
  | .barArrive => some ⟨52, 0, 0, 0, 0⟩
  | .barWait => some ⟨52, 0, 0, 0, 1⟩
  | .barAw => some ⟨52, 0, 0, 0, 2⟩
  | .launch d a => some ⟨53, d, a, 0, 0⟩
  | .rseed a => some ⟨54, 0, a, 0, 0⟩
  | .rseek a => some ⟨55, 0, a, 0, 0⟩
  | .vqsave d a => some (.vqsave d a)
  | .vqload a b => some (.vqload a b)
  | .vcmst a => some (.vcmst a)
  | .vcmld a => some (.vcmld a)
  | _ => none

/-- The one instruction that the opcode and the selecting field of an S-word can stand for. -/
noncomputable def candS (r : SRaw) : Option Instr :=
  let d := r.d
  let a := r.a
  let b := r.b
  let fn := r.fn.toNat
  match r.op.toNat with
  | 0 =>
    match fn with
    | 1 => some .nop
    | 2 => some .halt
    | 3 => some .ecall
    | 4 => some .eret
    | 5 => some .wfe
    | 6 => some .brk
    | _ =>
      match Scope.ofCode (r.fn.extractLsb' 0 3) with
      | none => none
      | some sc =>
        match (r.fn.extractLsb' 6 2).toNat with
        | 1 => some (.fenceAcq sc)
        | 2 => some (.fenceRel sc)
        | 3 => some (.fenceFull sc)
        | _ => none
  | 1 =>
    match fn with
    | 0 => some (.add d a b)
    | 1 => some (.sub d a b)
    | 2 => some (.and d a b)
    | 3 => some (.or d a b)
    | 4 => some (.xor d a b)
    | 5 => some (.shl d a b)
    | 6 => some (.shr d a b)
    | 7 => some (.sar d a b)
    | 8 => some (.slt d a b)
    | 9 => some (.sltn d a b)
    | 10 => some (.min d a b)
    | 11 => some (.max d a b)
    | 12 => some (.minn d a b)
    | 13 => some (.maxn d a b)
    | 16 => some (.clz d a)
    | 17 => some (.ctz d a)
    | 18 => some (.popc d a)
    | _ => none
  | 2 =>
    match fn with
    | 0 => some (.mul d a b)
    | 1 => some (.mulh d a b)
    | 2 => some (.mulhn d a b)
    | 3 => some (.div d a b)
    | 4 => some (.divn d a b)
    | 5 => some (.rem d a b)
    | 6 => some (.remn d a b)
    | _ => none
  | 3 => some (.addi d a r.imm)
  | 4 => some (.andi d a r.imm)
  | 5 => some (.ori d a r.imm)
  | 6 => some (.xori d a r.imm)
  | 8 => some (.slti d a r.imm)
  | 16 => some (.ld8 d a r.imm)
  | 17 => some (.ld16 d a r.imm)
  | 18 => some (.ld32 d a r.imm)
  | 19 => some (.ld64 d a r.imm)
  | 20 => some (.ldn8 d a r.imm)
  | 21 => some (.ldn16 d a r.imm)
  | 22 => some (.ldn32 d a r.imm)
  | 39 => some (.jalr d a r.imm)
  | 7 =>
    match (r.imm.extractLsb' 6 2).toNat with
    | 0 => some (.shli d a (r.imm.extractLsb' 0 6))
    | 1 => some (.shri d a (r.imm.extractLsb' 0 6))
    | 2 => some (.sari d a (r.imm.extractLsb' 0 6))
    | _ => none
  | 9 => some (.lih d r.imm)
  | 10 => some (.addpc d r.imm)
  | 11 => some (.ins d a (r.imm.extractLsb' 6 6) (r.imm.extractLsb' 0 6))
  | 12 => some (.ext d a (r.imm.extractLsb' 6 6) (r.imm.extractLsb' 0 6))
  | 13 => some (.exts d a (r.imm.extractLsb' 6 6) (r.imm.extractLsb' 0 6))
  | 0x17 => some (.ldw d (r.a.extractLsb' 0 3) r.imm)
  | 24 => some (.st8 d a r.imm)
  | 25 => some (.st16 d a r.imm)
  | 26 => some (.st32 d a r.imm)
  | 27 => some (.st64 d a r.imm)
  | 0x1C =>
    let size := r.fn.extractLsb' 5 2
    let ord := r.fn.extractLsb' 3 2
    match Scope.ofCode (r.fn.extractLsb' 0 3) with
    | none => none
    | some sc =>
      match (r.fn.extractLsb' 7 4).toNat with
      | 0 => some (.amoAdd d a b size ord sc)
      | 1 => some (.amoSwp d a b size ord sc)
      | 2 => some (.amoCas d a b size ord sc)
      | 3 => some (.amoMin d a b size ord sc)
      | 4 => some (.amoMax d a b size ord sc)
      | 5 => some (.amoMinn d a b size ord sc)
      | 6 => some (.amoMaxn d a b size ord sc)
      | 7 => some (.amoAnd d a b size ord sc)
      | 8 => some (.amoOr d a b size ord sc)
      | 9 => some (.amoXor d a b size ord sc)
      | _ => none
  | 32 => some (.beq d a r.imm)
  | 33 => some (.bne d a r.imm)
  | 34 => some (.blt d a r.imm)
  | 35 => some (.bge d a r.imm)
  | 36 => some (.bltn d a r.imm)
  | 37 => some (.bgen d a r.imm)
  | 0x26 => some (.jal d r.off)
  | 0x28 => some (.setvl d a b)
  | 0x29 => some (.sput (r.fn.extractLsb' 0 4) a)
  | 0x2A => some (.emit a)
  | 0x2B => some (.emitq d a)
  | 0x2C => some (.vfetch a r.imm)
  | 0x2D => some (.vdrain (r.fn.extractLsb' 0 4))
  | 0x2E => some (.qwait (r.fn.extractLsb' 0 4) a)
  | 0x30 => some (.mfs d (r.imm.extractLsb' 0 12))
  | 0x31 => some (.mts (r.imm.extractLsb' 0 12) a)
  | 0x32 => (Scope.ofCode (r.fn.extractLsb' 0 3)).map (.wmpub (r.fn.extractLsb' 4 3) a)
  | 0x33 => (Scope.ofCode (r.fn.extractLsb' 0 3)).map (.wmwait (r.fn.extractLsb' 4 3) a)
  | 0x34 =>
    match fn with
    | 0 => some .barArrive
    | 1 => some .barWait
    | 2 => some .barAw
    | _ => none
  | 0x35 => some (.launch d a)
  | 0x36 => some (.rseed a)
  | 0x37 => some (.rseek a)
  | 0x38 =>
    match fn with
    | 0 => some (.vqsave d a)
    | 1 => some (.vqload a b)
    | 2 => some (.vcmst a)
    | 3 => some (.vcmld a)
    | _ => none
  | _ => none

/-- The S-word with these bits, or its refusal (R177). -/
noncomputable def decodeS (w : BitVec 32) : Except Reject Instr :=
  match candS (SRaw.unpack w) with
  | none => .error .illegalSWord
  | some i =>
    if i.wf = true ∧ (encodeS i).map SRaw.pack = some w then .ok i else .error .illegalSWord

/-! ## V-words -/

/-- The fields of a V-word (Table 6-7). -/
structure VRaw where
  c : Bool
  op : BitVec 7
  fn : BitVec 6
  vd : BitVec 5
  va : BitVec 5
  vb : BitVec 5
  vc : BitVec 5
  m : Bool
  et : BitVec 4
  rnd : BitVec 2
  x : BitVec 23
  deriving DecidableEq, Repr

def VRaw.pack (r : VRaw) : BitVec 64 :=
  BitVec.ofBool r.c ++ r.op ++ r.fn ++ r.vd ++ r.va ++ r.vb ++ r.vc ++ BitVec.ofBool r.m ++ r.et ++ r.rnd ++ r.x

def VRaw.unpack (w : BitVec 64) : VRaw :=
  { c := w.getLsbD 63, op := w.extractLsb' 56 7, fn := w.extractLsb' 50 6, vd := w.extractLsb' 45 5,
    va := w.extractLsb' 40 5, vb := w.extractLsb' 35 5, vc := w.extractLsb' 30 5, m := w.getLsbD 29,
    et := w.extractLsb' 25 4, rnd := w.extractLsb' 23 2, x := w.extractLsb' 0 23 }

/-- The word of zeros, from which an encoding starts. -/
def VRaw.zero : VRaw := ⟨false, 0, 0, 0, 0, 0, 0, false, 0, 0, 0⟩

/-- fn[1:0] of an operand form (R155). -/
def Src.form : Src → BitVec 2
  | .vv _ => 0
  | .vo _ => 1
  | .vi _ => 2
/-- vb of an operand form. -/
def Src.vb : Src → BitVec 5
  | .vv b => b
  | _ => 0
/-- x23 of an operand form (Table 6-8). -/
def Src.x : Src → BitVec 23
  | .vv _ => 0
  | .vo n => 0#3 ++ n ++ 0#16
  | .vi i => 0#7 ++ i

def VRaw.src (r : VRaw) : Option Src :=
  match (r.fn.extractLsb' 0 2).toNat with
  | 0 => some (.vv r.vb)
  | 1 => some (.vo (r.x.extractLsb' 16 4))
  | 2 => some (.vi (r.x.extractLsb' 0 16))
  | _ => none

/-- A compute word with fn[5:2] = `sel` and an operand form. -/
def Arith.enc (o : Arith) (op : BitVec 7) (sel : BitVec 4) : VRaw :=
  ⟨o.c, op, sel ++ o.src.form, o.vd, o.va, o.src.vb, o.vc, o.m, o.et.code, o.rnd.code, o.src.x⟩
def VRaw.arith (r : VRaw) : Option Arith :=
  r.src.map fun s => ⟨r.c, r.vd, r.va, s, r.vc, r.m, EType.ofCode r.et, Rnd.ofCode r.rnd⟩

def MaskArgs.enc (o : MaskArgs) (op : BitVec 7) (sel : BitVec 4) : VRaw :=
  ⟨o.c, op, sel ++ 0#2, o.vd, o.va, o.vb, 0, o.m, 0, 0, 0⟩
def VRaw.masks (r : VRaw) : MaskArgs := ⟨r.c, r.vd, r.va, r.vb, r.m⟩

def Gather.enc (o : Gather) (wide : BitVec 1) : VRaw :=
  ⟨o.c, 0x30, 0#1 ++ o.g ++ wide ++ 0#2, o.vd, o.va, o.vb, 0, o.m, o.et.code, 0, 0⟩
def VRaw.gather (r : VRaw) : Gather := ⟨r.c, r.vd, r.va, r.vb, r.m, EType.ofCode r.et, r.fn.extractLsb' 3 2⟩

def Bcast.enc (o : Bcast) : VRaw :=
  match o.src with
  | .elem va e => ⟨o.c, 0x35, 0, o.vd, va, 0, 0, o.m, o.et.code, 0, 0#8 ++ e⟩
  | .slot n => ⟨o.c, 0x35, 1, o.vd, 0, 0, 0, o.m, o.et.code, 0, 0#3 ++ n ++ 0#16⟩
  | .imm i => ⟨o.c, 0x35, 2, o.vd, 0, 0, 0, o.m, o.et.code, 0, 0#7 ++ i⟩
def VRaw.bcast (r : VRaw) : Option Bcast :=
  match (r.fn.extractLsb' 0 2).toNat with
  | 0 => some ⟨r.c, r.vd, .elem r.va (r.x.extractLsb' 0 15), r.m, EType.ofCode r.et⟩
  | 1 => some ⟨r.c, r.vd, .slot (r.x.extractLsb' 16 4), r.m, EType.ofCode r.et⟩
  | 2 => some ⟨r.c, r.vd, .imm (r.x.extractLsb' 0 16), r.m, EType.ofCode r.et⟩
  | _ => none

def RowMove.enc (o : RowMove) (var : BitVec 4) : VRaw :=
  ⟨o.c, 0x37, var ++ 0#2, o.vd, o.va, 0, 0, o.m, o.et.code, 0, 0#15 ++ o.dst ++ o.src⟩
def VRaw.rowMove (r : VRaw) : RowMove :=
  ⟨r.c, r.vd, r.va, r.m, EType.ofCode r.et, r.x.extractLsb' 4 4, r.x.extractLsb' 0 4⟩

/-- Table 8-10. -/
def Conv.enc (o : Conv) (op : BitVec 7) (var : BitVec 1) : VRaw :=
  ⟨o.c, op, BitVec.ofBool o.ove.isSome ++ 0#2 ++ var ++ 0#2, o.vd, o.va, 0, o.ove.getD 0, o.m, o.et.code,
    o.rnd.code, 0#19 ++ o.sty.code⟩
def VRaw.conv (r : VRaw) : Conv :=
  ⟨r.c, r.vd, r.va, if r.fn.getLsbD 5 then some r.vc else none, r.m, EType.ofCode r.et, Rnd.ofCode r.rnd,
    EType.ofCode (r.x.extractLsb' 0 4)⟩

def Cprs.enc (o : Cprs) : VRaw := ⟨o.c, 0x3F, 0, o.vd, o.va, 0, o.vc, false, o.et.code, 0, 0⟩
def VRaw.cprs (r : VRaw) : Cprs := ⟨r.c, r.vd, r.vc, r.va, EType.ofCode r.et⟩

/-- The VM sub-layout (Table 6-9), with fn[5:2] = `sel`. -/
def MemArgs.enc (o : MemArgs) (op : BitVec 7) (sel : BitVec 4) : VRaw :=
  ⟨o.c, op, sel ++ o.iw.code, o.vd, o.va, o.vb, o.vc, o.m, o.et.code, 0,
    0#5 ++ BitVec.ofBool o.re ++ o.rx ++ BitVec.ofBool o.we ++ o.wm ++ o.sc.code ++ o.ord ++ BitVec.ofBool o.ao ++
      BitVec.ofBool o.adv ++ o.str⟩
def VRaw.mem (r : VRaw) : Option MemArgs :=
  match IdxTy.ofCode (r.fn.extractLsb' 0 2), Scope.ofCode (r.x.extractLsb' 8 3) with
  | some iw, some sc =>
    some ⟨r.c, r.vd, r.va, r.vb, r.vc, r.m, EType.ofCode r.et, iw, r.x.getLsbD 17, r.x.extractLsb' 15 2,
      r.x.getLsbD 14, r.x.extractLsb' 11 3, sc, r.x.extractLsb' 6 2, r.x.getLsbD 5, r.x.getLsbD 4,
      r.x.extractLsb' 0 4⟩
  | _, _ => none

def Darn.enc (o : Darn) (op : BitVec 7) (var : BitVec 1) : VRaw :=
  ⟨o.c, op, 0#1 ++ o.g ++ var ++ 0#2, o.vd, o.va, o.vb, o.vc, o.m, 0, 0, 0⟩
def VRaw.darn (r : VRaw) : Darn := ⟨r.c, r.vd, r.va, r.vb, r.vc, r.fn.extractLsb' 3 2, r.m⟩

/-- Table 6-10. -/
def MatMul.enc (o : MatMul) (op : BitVec 7) (spm : BitVec 1) : VRaw :=
  ⟨false, op, 0, 0, o.va, o.vb, o.vc, false, o.et.code, 0, 0#17 ++ BitVec.ofBool o.scl ++ spm ++ o.g ++ o.t⟩
def VRaw.matMul (r : VRaw) : MatMul :=
  ⟨r.va, r.vb, r.vc, r.x.getLsbD 5, r.x.extractLsb' 2 2, r.x.extractLsb' 0 2, EType.ofCode r.et⟩

def SliceMul.enc (o : SliceMul) : VRaw :=
  ⟨false, 0x64, 0, 0, o.va, o.vb, 0, false, o.et.code, 0, 0#13 ++ o.k4 ++ 0#2 ++ o.g ++ o.t⟩
def VRaw.sliceMul (r : VRaw) : SliceMul :=
  ⟨r.va, r.vb, r.x.extractLsb' 6 4, r.x.extractLsb' 2 2, r.x.extractLsb' 0 2, EType.ofCode r.et⟩

def TileRead.enc (o : TileRead) (var : BitVec 1) : VRaw :=
  ⟨false, 0x65, BitVec.ofBool o.ove.isSome ++ 0#2 ++ var ++ 0#2, o.vd, 0, 0, o.ove.getD 0, o.m, o.et.code,
    o.rnd.code, 0#21 ++ o.t⟩
def VRaw.tileRead (r : VRaw) : TileRead :=
  ⟨r.vd, if r.fn.getLsbD 5 then some r.vc else none, r.m, EType.ofCode r.et, Rnd.ofCode r.rnd,
    r.x.extractLsb' 0 2⟩

def TileWrite.enc (o : TileWrite) (var : BitVec 4) : VRaw :=
  ⟨false, 0x66, var ++ 0#2, 0, o.va, 0, 0, o.m, o.et.code, o.rnd.code, 0#21 ++ o.t⟩
def VRaw.tileWrite (r : VRaw) : TileWrite :=
  ⟨r.va, r.m, EType.ofCode r.et, Rnd.ofCode r.rnd, r.x.extractLsb' 0 2⟩

def RecSrc.form : RecSrc → BitVec 2
  | .reg _ => 0
  | .slot _ => 1
def RecSrc.va : RecSrc → BitVec 5
  | .reg a => a
  | .slot _ => 0
def RecSrc.slotField : RecSrc → BitVec 4
  | .reg _ => 0
  | .slot n => n
def VRaw.recSrc (r : VRaw) : Option RecSrc :=
  match (r.fn.extractLsb' 0 2).toNat with
  | 0 => some (.reg r.va)
  | 1 => some (.slot (r.x.extractLsb' 16 4))
  | _ => none
def VRaw.mreg (r : VRaw) : Option (BitVec 5) := if r.x.getLsbD 20 then some r.vd else none

/-- Table 10-6, the words that read a descriptor. -/
def EngArgs.enc (o : EngArgs) (op : BitVec 7) (sel : BitVec 4) (et : BitVec 4) : VRaw :=
  ⟨false, op, sel ++ o.src.form, o.mreg.getD 0, o.src.va, 0, 0, false, et, 0,
    0#2 ++ BitVec.ofBool o.mreg.isSome ++ o.src.slotField ++ 0#16⟩
def VRaw.eng (r : VRaw) : Option EngArgs := r.recSrc.map fun s => ⟨r.mreg, s⟩

def AudArgs.enc (o : AudArgs) : VRaw :=
  ⟨o.c, 0x7C, 1, 0, o.va, o.vb, 0, o.m, o.et.code, 0, 0#3 ++ o.slot ++ 0#16⟩
def VRaw.aud (r : VRaw) : AudArgs := ⟨r.c, r.va, r.vb, r.x.extractLsb' 16 4, r.m, EType.ofCode r.et⟩

/-- The waiting words `CPYWAIT` and `CWAIT`. -/
def encWait (op : BitVec 7) (var : BitVec 4) (mreg : Option (BitVec 5)) (p : BitVec 18) : VRaw :=
  ⟨false, op, var ++ 0#2, mreg.getD 0, 0, 0, 0, false, 0, 0, 0#2 ++ BitVec.ofBool mreg.isSome ++ 0#2 ++ p⟩

/-- The fields of `VPROJ` with its starting bits (Table 11-6). -/
def encProj (m : Bool) (vc : BitVec 5) (slot : BitVec 4) (st thr : BitVec 1) (k1 : BitVec 9) (t : BitVec 2) : VRaw :=
  ⟨false, 0x68, 1, 0, 0, 0, vc, m, 0, 0, 0#2 ++ st ++ slot ++ thr ++ k1 ++ 0#4 ++ t⟩

/-- `VMARK` in its two forms (R301). -/
def encMark (c : Bool) : MarkSrc → VRaw
  | .slot n => ⟨c, 0x5E, 1, 0, 0, 0, 0, false, 0, 0, 0#3 ++ n ++ 0#16⟩
  | .imm i => ⟨c, 0x5E, 2, 0, 0, 0, 0, false, 0, 0, 0#7 ++ i⟩

/-- The fields of a V-word (Tables 8-3 to 8-10, 9-2, 10-6, 11-6). A solitary word may carry C = 1: the convoy is then a
conflict, not the word illegal (R161, R375, log 69). -/
def encodeV : Instr → Option VRaw
  | .vadd o => some (o.enc 0x01 0)
  | .vsub o => some (o.enc 0x02 0)
  | .vmul o => some (o.enc 0x03 0)
  | .vmulh o => some (o.enc 0x04 0)
  | .vmacc o => some (o.enc 0x05 0)
  | .vmin o => some (o.enc 0x06 0)
  | .vmax o => some (o.enc 0x07 0)
  | .vand o => some (o.enc 0x08 0)
  | .vor o => some (o.enc 0x09 0)
  | .vxor o => some (o.enc 0x0A 0)
  | .vshl o => some (o.enc 0x0B 0)
  | .vshr o => some (o.enc 0x0C 0)
  | .vsar o => some (o.enc 0x0D 0)
  | .vabs o => some (o.enc 0x0E 0)
  | .vsadd o => some (o.enc 0x0F 0)
  | .vssub o => some (o.enc 0x0F 1)
  | .vfadd o => some (o.enc 0x10 0)
  | .vfsub o => some (o.enc 0x11 0)
  | .vfmul o => some (o.enc 0x12 0)
  | .vfma o => some (o.enc 0x13 0)
  | .vfnma o => some (o.enc 0x14 0)
  | .vfdiv o => some (o.enc 0x15 0)
  | .vfsqrt o => some (o.enc 0x16 0)
  | .vfrsqe o => some (o.enc 0x17 0)
  | .vfexp2 o => some (o.enc 0x18 0)
  | .vfmin o => some (o.enc 0x19 0)
  | .vfmax o => some (o.enc 0x1A 0)
  | .vfclamp o => some (o.enc 0x1B 0)
  | .vfabs o => some (o.enc 0x1C 0)
  | .vfneg o => some (o.enc 0x1D 0)
  | .vcmpeq o => some (o.enc 0x20 0)
  | .vcmpne o => some (o.enc 0x20 1)
  | .vcmplt o => some (o.enc 0x20 2)
  | .vcmpge o => some (o.enc 0x20 3)
  | .vcmple o => some (o.enc 0x20 4)
  | .vcmpgt o => some (o.enc 0x20 5)
  | .vfcmpeq o => some (o.enc 0x21 0)
  | .vfcmpne o => some (o.enc 0x21 1)
  | .vfcmplt o => some (o.enc 0x21 2)
  | .vfcmple o => some (o.enc 0x21 3)
  | .vfcmpgt o => some (o.enc 0x21 4)
  | .vfcmpge o => some (o.enc 0x21 5)
  | .vfcmpun o => some (o.enc 0x21 6)
  | .vfcmpord o => some (o.enc 0x21 7)
  | .vmand o => some (o.enc 0x22 0)
  | .vmor o => some (o.enc 0x23 0)
  | .vmxor o => some (o.enc 0x24 0)
  | .vmnot o => some (o.enc 0x25 0)
  | .vmandn o => some (o.enc 0x26 0)
  | .vmpop o => some (o.enc 0x27 0)
  | .vmfirst o => some (o.enc 0x28 0)
  | .vmscanand o => some (o.enc 0x29 0)
  | .viota o => some (o.enc 0x2A 0)
  | .vidx o => some (o.enc 0x2B 0)
  | .vidxr o => some (o.enc 0x2B 1)
  | .vredsum o => some (o.enc 0x2C 0)
  | .vredmin o => some (o.enc 0x2C 1)
  | .vredmax o => some (o.enc 0x2C 2)
  | .vredand o => some (o.enc 0x2C 3)
  | .vredor o => some (o.enc 0x2C 4)
  | .vredxor o => some (o.enc 0x2C 5)
  | .vfredt o => some (o.enc 0x2D 0)
  | .vfredo o => some (o.enc 0x2D 1)
  | .vfredmax o => some (o.enc 0x2D 2)
  | .vfredmin o => some (o.enc 0x2D 3)
  | .vscansum o => some (o.enc 0x2E 0)
  | .vscanmax o => some (o.enc 0x2E 1)
  | .vscanmin o => some (o.enc 0x2E 2)
  | .vcolsum o => some (o.enc 0x2F 0)
  | .vcolmax o => some (o.enc 0x2F 1)
  | .vcolmin o => some (o.enc 0x2F 2)
  | .vrgather o => some (o.enc 0)
  | .vrgatherw o => some (o.enc 1)
  | .vslideup o => some (o.enc 0x31 0)
  | .vslidedn o => some (o.enc 0x32 0)
  | .vcompress o => some (o.enc 0x33 0)
  | .vexpand o => some (o.enc 0x34 0)
  | .vbcast o => some (o.enc)
  | .vmv o => some (o.enc 0x36 0)
  | .vrowmv o => some (o.enc 0)
  | .vrowbc o => some (o.enc 1)
  | .vcvt o => some (o.enc 0x38 0)
  | .vpack2 o => some (o.enc 0x39 0)
  | .vpack4 o => some (o.enc 0x3A 0)
  | .vunpk2 o => some (o.enc 0x3B 0)
  | .vunpk4 o => some (o.enc 0x3B 1)
  | .vqnt o => some (o.enc 0x3C 0)
  | .vslicea o => some (o.enc 0x3D 0)
  | .vsliceb o => some (o.enc 0x3D 1)
  | .vunslicea o => some (o.enc 0x3E 0)
  | .vunsliceb o => some (o.enc 0x3E 1)
  | .vcprs4 o => some (o.enc)
  | .vspec c => some ({ VRaw.zero with c := c, op := 0x40 })
  | .vspecf c => some ({ VRaw.zero with c := c, op := 0x40, fn := 4 })
  | .vbrkb o => some (o.enc 0x41 0)
  | .vbrki o => some (o.enc 0x41 1)
  | .vexitb o => some (o.enc 0x42 0)
  | .vexiti o => some (o.enc 0x42 1)
  | .vpart o => some (o.enc 0x43 0)
  | .vfftrim c => some ({ VRaw.zero with c := c, op := 0x44 })
  | .vpfold o => some (o.enc 0x45 0)
  | .vhacc o => some (o.enc 0x46 0)
  | .vld o => some (o.enc 0x48 0)
  | .vldx o => some (o.enc 0x4A 0)
  | .vldff o => some (o.enc 0x4B 0)
  | .vldsp o => some (o.enc 0x4C 0)
  | .vldspx o => some (o.enc 0x4C 8)
  | .vldp o => some (o.enc 0x4D 0)
  | .vst o => some (o.enc 0x4E 0)
  | .vstx o => some (o.enc 0x50 0)
  | .vsth o => some (o.enc 0x51 0)
  | .vstp o => some (o.enc 0x52 0)
  | .vamoAdd o => some (o.enc 0x53 0)
  | .vamoSwp o => some (o.enc 0x53 1)
  | .vamoMin o => some (o.enc 0x53 2)
  | .vamoMax o => some (o.enc 0x53 3)
  | .vamoAnd o => some (o.enc 0x53 4)
  | .vamoOr o => some (o.enc 0x53 5)
  | .vamoXor o => some (o.enc 0x53 6)
  | .vamoFadd o => some (o.enc 0x53 7)
  | .vxlt o => some (o.enc 0x54 0)
  | .vxltff o => some (o.enc 0x54 1)
  | .sopen c src q => some ({ VRaw.zero with c := c, op := 0x55, fn := 0#4 ++ src.form, va := src.va, x := 0#3 ++ src.slotField ++ 0#12 ++ q })
  | .sopenp c va q => some ({ VRaw.zero with c := c, op := 0x55, fn := 4, va := va, x := 0#19 ++ q })
  | .sadv c q src => some ({ VRaw.zero with c := c, op := 0x56, fn := 0#4 ++ src.form, vd := 0#1 ++ q, vb := src.vb, et := 3, x := src.x })
  | .sclose c q => some ({ VRaw.zero with c := c, op := 0x57, x := 0#19 ++ q })
  | .ssave c vd q => some ({ VRaw.zero with c := c, op := 0x57, fn := 4, vd := vd, x := 0#19 ++ q })
  | .mcomp o => some (o.enc 0x58 0)
  | .mcscan o => some (o.enc 0x59 0)
  | .mcscanc o => some (o.enc 0x59 1)
  | .mclegal o => some (o.enc 0x5A 0)
  | .mclegalx o => some (o.enc 0x5A 1)
  | .vsett c va ix => some ({ VRaw.zero with c := c, op := 0x5C, va := va, x := 0#21 ++ ix })
  | .vgett c vd ix => some ({ VRaw.zero with c := c, op := 0x5C, fn := 4, vd := vd, x := 0#21 ++ ix })
  | .vfenceAcq c sc => some ({ VRaw.zero with c := c, op := 0x5D, fn := 4, x := 0#12 ++ sc.code ++ 0#8 })
  | .vfenceRel c sc => some ({ VRaw.zero with c := c, op := 0x5D, fn := 8, x := 0#12 ++ sc.code ++ 0#8 })
  | .vfenceFull c sc => some ({ VRaw.zero with c := c, op := 0x5D, fn := 12, x := 0#12 ++ sc.code ++ 0#8 })
  | .vmark c src => some (encMark c src)
  | .mshape t row0 col0 => some ({ VRaw.zero with op := 0x60, x := 0#2 ++ col0 ++ row0 ++ 0#4 ++ t })
  | .mshapeg vd t => some ({ VRaw.zero with op := 0x60, fn := 4, vd := vd, x := 0#21 ++ t })
  | .mzero t => some ({ VRaw.zero with op := 0x61, x := 0#21 ++ t })
  | .mma o => some (o.enc 0x62 0)
  | .mmas o => some (o.enc 0x63 1)
  | .msmma o => some (o.enc)
  | .mrd o => some (o.enc 0)
  | .mrdz o => some (o.enc 1)
  | .mwr o => some (o.enc 0)
  | .mwra o => some (o.enc 1)
  | .msync vd p => some ({ VRaw.zero with op := 0x67, vd := vd, x := 0#5 ++ p })
  | .vproj m slot t => some (encProj m 0 slot 0 0 0 t)
  | .vprojs m vc slot k1 t => some (encProj m vc slot 1 0 k1 t)
  | .vprojt m vc slot k1 t => some (encProj m vc slot 1 1 k1 t)
  | .vprojb m vd slot t => some ({ VRaw.zero with op := 0x69, fn := 1, vd := vd, m := m, x := 0#3 ++ slot ++ 0#14 ++ t })
  | .vheaprd vd vc => some ({ VRaw.zero with op := 0x6A, vd := vd, vc := vc })
  | .vpstrd vd => some ({ VRaw.zero with op := 0x6A, fn := 4, vd := vd })
  | .vhmerge va vb => some ({ VRaw.zero with op := 0x6B, va := va, vb := vb })
  | .vhmergen va vb vc => some ({ VRaw.zero with op := 0x6B, fn := 4, va := va, vb := vb, vc := vc })
  | .vpstwr va vb vc => some ({ VRaw.zero with op := 0x6B, fn := 8, va := va, vb := vb, vc := vc })
  | .draw m vd va vb et => some ({ VRaw.zero with op := 0x6F, fn := 0, vd := vd, va := va, vb := vb, m := m, et := et.code })
  | .drawn m vd va vb et => some ({ VRaw.zero with op := 0x6F, fn := 4, vd := vd, va := va, vb := vb, m := m, et := et.code })
  | .drawr m vd va vb et slot => some ({ VRaw.zero with op := 0x6F, fn := 1, vd := vd, va := va, vb := vb, m := m, et := et.code, x := 0#3 ++ slot ++ 0#16 })
  | .drawrn m vd va vb et slot => some ({ VRaw.zero with op := 0x6F, fn := 5, vd := vd, va := va, vb := vb, m := m, et := et.code, x := 0#3 ++ slot ++ 0#16 })
  | .cpy o => some (o.enc 0x70 0 0)
  | .cpyc vd va slot => some ({ VRaw.zero with op := 0x71, fn := 1, vd := vd, va := va, x := 0#2 ++ 1#1 ++ slot ++ 0#16 })
  | .cpywait mreg p => some (encWait 0x72 0 mreg p)
  | .cpywaitv mreg p => some (encWait 0x72 1 mreg p)
  | .csend o => some (o.enc 0x78 0 0)
  | .csendm o => some (o.enc 0x78 1 0)
  | .crecv o => some (o.enc 0x79 0 0)
  | .credsum o et => some (o.enc 0x7A 0 et.code)
  | .credmax o et => some (o.enc 0x7A 1 et.code)
  | .credmin o et => some (o.enc 0x7A 2 et.code)
  | .credrs o et => some (o.enc 0x7A 3 et.code)
  | .credheap o et => some (o.enc 0x7A 4 et.code)
  | .cwait mreg p => some (encWait 0x7B 0 mreg p)
  | .cwaitv mreg p => some (encWait 0x7B 1 mreg p)
  | .audlog o => some (o.enc)
  | _ => none

/-- The one instruction that the opcode and the selecting fields of a V-word can stand for. -/
def candV (r : VRaw) : Option Instr :=
  let sel := (r.fn.extractLsb' 2 4).toNat
  let b2 := r.fn.getLsbD 2
  let t := r.x.extractLsb' 0 2
  let q := r.x.extractLsb' 0 4
  let slot := r.x.extractLsb' 16 4
  match r.op.toNat with
  | 0x01 => r.arith.map .vadd
  | 0x02 => r.arith.map .vsub
  | 0x03 => r.arith.map .vmul
  | 0x04 => r.arith.map .vmulh
  | 0x05 => r.arith.map .vmacc
  | 0x06 => r.arith.map .vmin
  | 0x07 => r.arith.map .vmax
  | 0x08 => r.arith.map .vand
  | 0x09 => r.arith.map .vor
  | 0x0A => r.arith.map .vxor
  | 0x0B => r.arith.map .vshl
  | 0x0C => r.arith.map .vshr
  | 0x0D => r.arith.map .vsar
  | 0x0E => r.arith.map .vabs
  | 0x0F =>
    match sel with
    | 0 => r.arith.map .vsadd
    | 1 => r.arith.map .vssub
    | _ => none
  | 0x10 => r.arith.map .vfadd
  | 0x11 => r.arith.map .vfsub
  | 0x12 => r.arith.map .vfmul
  | 0x13 => r.arith.map .vfma
  | 0x14 => r.arith.map .vfnma
  | 0x15 => r.arith.map .vfdiv
  | 0x16 => r.arith.map .vfsqrt
  | 0x17 => r.arith.map .vfrsqe
  | 0x18 => r.arith.map .vfexp2
  | 0x19 => r.arith.map .vfmin
  | 0x1A => r.arith.map .vfmax
  | 0x1B => r.arith.map .vfclamp
  | 0x1C => r.arith.map .vfabs
  | 0x1D => r.arith.map .vfneg
  | 0x20 =>
    match sel with
    | 0 => r.arith.map .vcmpeq
    | 1 => r.arith.map .vcmpne
    | 2 => r.arith.map .vcmplt
    | 3 => r.arith.map .vcmpge
    | 4 => r.arith.map .vcmple
    | 5 => r.arith.map .vcmpgt
    | _ => none
  | 0x21 =>
    match sel with
    | 0 => r.arith.map .vfcmpeq
    | 1 => r.arith.map .vfcmpne
    | 2 => r.arith.map .vfcmplt
    | 3 => r.arith.map .vfcmple
    | 4 => r.arith.map .vfcmpgt
    | 5 => r.arith.map .vfcmpge
    | 6 => r.arith.map .vfcmpun
    | 7 => r.arith.map .vfcmpord
    | _ => none
  | 0x22 => some (.vmand r.masks)
  | 0x23 => some (.vmor r.masks)
  | 0x24 => some (.vmxor r.masks)
  | 0x25 => some (.vmnot r.masks)
  | 0x26 => some (.vmandn r.masks)
  | 0x27 => r.arith.map .vmpop
  | 0x28 => r.arith.map .vmfirst
  | 0x29 => some (.vmscanand r.masks)
  | 0x2A => r.arith.map .viota
  | 0x2B =>
    match sel with
    | 0 => r.arith.map .vidx
    | 1 => r.arith.map .vidxr
    | _ => none
  | 0x2C =>
    match sel with
    | 0 => r.arith.map .vredsum
    | 1 => r.arith.map .vredmin
    | 2 => r.arith.map .vredmax
    | 3 => r.arith.map .vredand
    | 4 => r.arith.map .vredor
    | 5 => r.arith.map .vredxor
    | _ => none
  | 0x2D =>
    match sel with
    | 0 => r.arith.map .vfredt
    | 1 => r.arith.map .vfredo
    | 2 => r.arith.map .vfredmax
    | 3 => r.arith.map .vfredmin
    | _ => none
  | 0x2E =>
    match sel with
    | 0 => r.arith.map .vscansum
    | 1 => r.arith.map .vscanmax
    | 2 => r.arith.map .vscanmin
    | _ => none
  | 0x2F =>
    match sel with
    | 0 => r.arith.map .vcolsum
    | 1 => r.arith.map .vcolmax
    | 2 => r.arith.map .vcolmin
    | _ => none
  | 0x30 => if b2 then some (.vrgatherw r.gather) else some (.vrgather r.gather)
  | 0x31 => r.arith.map .vslideup
  | 0x32 => r.arith.map .vslidedn
  | 0x33 => r.arith.map .vcompress
  | 0x34 => r.arith.map .vexpand
  | 0x35 => r.bcast.map .vbcast
  | 0x36 => r.arith.map .vmv
  | 0x37 => if b2 then some (.vrowbc r.rowMove) else some (.vrowmv r.rowMove)
  | 0x38 => some (.vcvt r.conv)
  | 0x39 => some (.vpack2 r.conv)
  | 0x3A => some (.vpack4 r.conv)
  | 0x3B => if b2 then some (.vunpk4 r.conv) else some (.vunpk2 r.conv)
  | 0x3C => some (.vqnt r.conv)
  | 0x3D => if b2 then some (.vsliceb r.conv) else some (.vslicea r.conv)
  | 0x3E => if b2 then some (.vunsliceb r.conv) else some (.vunslicea r.conv)
  | 0x3F => some (.vcprs4 r.cprs)
  | 0x40 => some (if b2 then .vspecf r.c else .vspec r.c)
  | 0x41 => if b2 then some (.vbrki r.masks) else some (.vbrkb r.masks)
  | 0x42 => if b2 then some (.vexiti r.masks) else some (.vexitb r.masks)
  | 0x43 => some (.vpart r.masks)
  | 0x44 => some (.vfftrim r.c)
  | 0x45 => r.arith.map .vpfold
  | 0x46 => r.mem.map .vhacc
  | 0x48 => r.mem.map .vld
  | 0x4A => r.mem.map .vldx
  | 0x4B => r.mem.map .vldff
  | 0x4C => if r.fn.getLsbD 5 then r.mem.map .vldspx else r.mem.map .vldsp
  | 0x4D => r.mem.map .vldp
  | 0x4E => r.mem.map .vst
  | 0x50 => r.mem.map .vstx
  | 0x51 => r.mem.map .vsth
  | 0x52 => r.mem.map .vstp
  | 0x53 =>
    match sel with
    | 0 => r.mem.map .vamoAdd
    | 1 => r.mem.map .vamoSwp
    | 2 => r.mem.map .vamoMin
    | 3 => r.mem.map .vamoMax
    | 4 => r.mem.map .vamoAnd
    | 5 => r.mem.map .vamoOr
    | 6 => r.mem.map .vamoXor
    | 7 => r.mem.map .vamoFadd
    | _ => none
  | 0x54 =>
    match sel with
    | 0 => r.mem.map .vxlt
    | 1 => r.mem.map .vxltff
    | _ => none
  | 0x55 => if b2 then some (.sopenp r.c r.va q) else r.recSrc.map fun s => .sopen r.c s q
  | 0x56 => r.src.map fun s => .sadv r.c (r.vd.extractLsb' 0 4) s
  | 0x57 => some (if b2 then .ssave r.c r.vd q else .sclose r.c q)
  | 0x58 => some (.mcomp r.darn)
  | 0x59 => some (if b2 then .mcscanc r.darn else .mcscan r.darn)
  | 0x5A => some (if b2 then .mclegalx r.darn else .mclegal r.darn)
  | 0x5C => some (if b2 then .vgett r.c r.vd t else .vsett r.c r.va t)
  | 0x5D =>
    match Scope.ofCode (r.x.extractLsb' 8 3) with
    | none => none
    | some sc =>
      match sel with
      | 1 => some (.vfenceAcq r.c sc)
      | 2 => some (.vfenceRel r.c sc)
      | 3 => some (.vfenceFull r.c sc)
      | _ => none
  | 0x5E =>
    match (r.fn.extractLsb' 0 2).toNat with
    | 1 => some (.vmark r.c (.slot slot))
    | 2 => some (.vmark r.c (.imm (r.x.extractLsb' 0 16)))
    | _ => none
  | 0x60 =>
    some (if b2 then .mshapeg r.vd t else .mshape t (r.x.extractLsb' 6 4) (r.x.extractLsb' 10 11))
  | 0x61 => some (.mzero t)
  | 0x62 => some (.mma r.matMul)
  | 0x63 => some (.mmas r.matMul)
  | 0x64 => some (.msmma r.sliceMul)
  | 0x65 => some (if b2 then .mrdz r.tileRead else .mrd r.tileRead)
  | 0x66 => some (if b2 then .mwra r.tileWrite else .mwr r.tileWrite)
  | 0x67 => some (.msync r.vd (r.x.extractLsb' 0 18))
  | 0x68 =>
    if r.x.getLsbD 20 then
      if r.x.getLsbD 15 then some (.vprojt r.m r.vc slot (r.x.extractLsb' 6 9) t)
      else some (.vprojs r.m r.vc slot (r.x.extractLsb' 6 9) t)
    else some (.vproj r.m slot t)
  | 0x69 => some (.vprojb r.m r.vd slot t)
  | 0x6A => some (if b2 then .vpstrd r.vd else .vheaprd r.vd r.vc)
  | 0x6B =>
    match sel with
    | 0 => some (.vhmerge r.va r.vb)
    | 1 => some (.vhmergen r.va r.vb r.vc)
    | 2 => some (.vpstwr r.va r.vb r.vc)
    | _ => none
  | 0x6F =>
    let et := EType.ofCode r.et
    match (r.fn.extractLsb' 0 3).toNat with
    | 0 => some (.draw r.m r.vd r.va r.vb et)
    | 1 => some (.drawr r.m r.vd r.va r.vb et slot)
    | 4 => some (.drawn r.m r.vd r.va r.vb et)
    | 5 => some (.drawrn r.m r.vd r.va r.vb et slot)
    | _ => none
  | 0x70 => r.eng.map .cpy
  | 0x71 => some (.cpyc r.vd r.va slot)
  | 0x72 => some ((if b2 then Instr.cpywaitv else Instr.cpywait) r.mreg (r.x.extractLsb' 0 18))
  | 0x78 => r.eng.map (if b2 then .csendm else .csend)
  | 0x79 => r.eng.map .crecv
  | 0x7A =>
    let et := EType.ofCode r.et
    match sel with
    | 0 => r.eng.map (.credsum · et)
    | 1 => r.eng.map (.credmax · et)
    | 2 => r.eng.map (.credmin · et)
    | 3 => r.eng.map (.credrs · et)
    | 4 => r.eng.map (.credheap · et)
    | _ => none
  | 0x7B => some ((if b2 then Instr.cwaitv else Instr.cwait) r.mreg (r.x.extractLsb' 0 18))
  | 0x7C => some (.audlog r.aud)
  | _ => none

/-- The V-word with these bits, or its refusal (R161, R371). -/
def decodeV (w : BitVec 64) : Except Reject Instr :=
  match candV (VRaw.unpack w) with
  | none => .error .illegalVWord
  | some i =>
    if i.wf = true ∧ (encodeV i).map VRaw.pack = some w then .ok i else .error .illegalVWord

/-- `VSTOP`, which ends a block and is no instruction of a queue (R162). -/
def vstop : BitVec 64 := 0x7F00000000000000

/-! ## Bytes -/

/-- The low byte first (R4). -/
def bytesOf : Nat → Nat → List (BitVec 8)
  | 0, _ => []
  | n + 1, x => BitVec.ofNat 8 x :: bytesOf n (x / 256)

/-- The number whose bytes these are, low byte first (R4). -/
def ofBytes : List (BitVec 8) → Nat
  | [] => 0
  | b :: bs => b.toNat + 256 * ofBytes bs

/-- The words of an instruction of a program as memory holds them: 4 bytes of an S-word, 8 of a V-word. -/
def encode (i : Instr) : Option (List (BitVec 8)) :=
  match encodeS i, encodeV i with
  | some r, _ => some (bytesOf 4 r.pack.toNat)
  | none, some r => some (bytesOf 8 r.pack.toNat)
  | none, none => none

/-- The instruction that bytes of memory hold: 4 bytes are an S-word, 8 bytes a V-word. -/
noncomputable def decode (bs : List (BitVec 8)) : Except Reject Instr :=
  if bs.length = 8 then decodeV (BitVec.ofNat 64 (ofBytes bs)) else decodeS (BitVec.ofNat 32 (ofBytes bs))

/-- A word of the opcode table, its bits numbered from the least significant bit of the first byte: the table's
rows are whole S-words (32 bits) and whole V-words (64 bits). -/
noncomputable def decodeTableWord (nbits w : Nat) : Option Instr :=
  match decode (bytesOf (if nbits ≤ 32 then 4 else 8) w) with
  | .ok i => some i
  | .error _ => none

end Sys2Proof
end

