-- ==== Sys2Proof/Machine/Bits.lean ====
section
/-! DEFINITION. Bit fields, rows and byte lists: the small operations that every meaning shares
(spec/02_state_and_layout.md R52, R56; spec/00_scope.md R4). -/

namespace Sys2Proof.Machine

/-- Bits [hi:lo] of a number. -/
def field (x hi lo : Nat) : Nat := (x >>> lo) % 2 ^ (hi + 1 - lo)

/-- Bits [hi:lo] of a word, as a number. -/
def wfield (x : Word) (hi lo : Nat) : Nat := field x.toNat hi lo

/-- The word with bits [hi:lo] replaced. -/
def setField (x : Word) (hi lo : Nat) (v : Nat) : Word :=
  let mask : Word := BitVec.ofNat 64 ((2 ^ (hi + 1 - lo) - 1) <<< lo)
  (x &&& ~~~mask) ||| (BitVec.ofNat 64 (v <<< lo) &&& mask)

/-- One bit of a word replaced. -/
def setBit (x : Word) (i : Nat) (b : Bool) : Word := setField x i i b.toNat

/-- Bits [lo+n-1:lo] of a row as a number (R52). -/
def rowGet {W : Nat} (r : BitVec W) (lo n : Nat) : Nat := (r.toNat >>> lo) % 2 ^ n

/-- A row with bits [lo+n-1:lo] replaced (R52). -/
def rowSet {W : Nat} (r : BitVec W) (lo n v : Nat) : BitVec W :=
  let old := rowGet r lo n
  r ^^^ BitVec.ofNat W ((old ^^^ (v % 2 ^ n)) <<< lo)

/-- One bit of a row replaced. -/
def rowBit {W : Nat} (r : BitVec W) (i : Nat) (b : Bool) : BitVec W := rowSet r i 1 b.toNat

/-- The value of the low `w` bits as two's complement. -/
def toSigned (w x : Nat) : Int :=
  let y := x % 2 ^ w
  if 2 * y < 2 ^ w then (y : Int) else (y : Int) - (2 ^ w : Nat)

/-- An integer modulo 2^w (R67). -/
def wrap (w : Nat) (x : Int) : Nat := (x % ((2 ^ w : Nat) : Int)).toNat

/-- Sign extension of the low `n` bits to 64. -/
def sext (n x : Nat) : Word := BitVec.ofInt 64 (toSigned n x)

/-- sext of a 16-bit immediate (R148). -/
def sextImm (imm : BitVec 16) : Word := imm.signExtend 64
/-- zext of a 16-bit immediate (R148). -/
def zextImm (imm : BitVec 16) : Word := imm.setWidth 64

/-- The low byte first: a word's 8 bytes (R4). -/
def wordBytes (w : Word) : List Byte := bytesOf 8 w.toNat

/-- The word of 8 bytes. -/
def bytesWord (bs : List Byte) : Word := BitVec.ofNat 64 (ofBytes bs)

/-- Numbers `a`, `a+1`, up to `a+n-1`. -/
def upTo : Nat → Nat → List Nat
  | 0, _ => []
  | n + 1, a => a :: upTo n (a + 1)

/-- Fold over 0 to n-1 in ascending order. -/
def foldN {α : Type} (n : Nat) (f : Nat → α → α) (x : α) : α :=
  Nat.rec x (fun i acc => f i acc) n

/-- Fold over 0 to n-1 in ascending order, stopping at the first refusal. -/
def foldE {ε α : Type} : List Nat → (Nat → α → Except ε α) → α → Except ε α
  | [], _, x => .ok x
  | i :: is, f, x =>
    match f i x with
    | .error e => .error e
    | .ok y => foldE is f y

/-- A list update at a key. -/
def assocSet {κ α : Type} [DecidableEq κ] (l : List (κ × α)) (k : κ) (v : α) : List (κ × α) :=
  (k, v) :: l.filter fun p => p.1 ≠ k

/-- The integer square root, digit by digit from the highest. -/
def isqrtAux : Nat → Nat → Nat → Nat
  | 0, _, r => r
  | k + 1, n, r => if (r + 2 ^ k) * (r + 2 ^ k) ≤ n then isqrtAux k n (r + 2 ^ k) else isqrtAux k n r

def isqrt (n : Nat) : Nat := isqrtAux (n.log2 / 2 + 1) n 0

end Sys2Proof.Machine
end

