-- ==== Sys2Proof/Machine/Float.lean ====
section
/-! DEFINITION. Floating point from the exact value and one rounding (spec/03_numbers.md R68 to R74): a value is
decoded to a sign, a whole significand and an exponent; an operation is computed exactly; the result is rounded
once to the format by the mode. -/

namespace Sys2Proof.Machine

/-- A floating-point value: NaN, an infinity, or (−1)^neg × m × 2^e. -/
inductive FVal where
  | nan
  | inf (neg : Bool)
  | fin (neg : Bool) (m : Nat) (e : Int)
  deriving DecidableEq, Repr

/-- A layout of Table 3-2: exponent bits, fraction bits, bias, the code of the largest finite magnitude, and
whether infinities and NaNs have patterns (Table 3-3). -/
structure Fmt where
  ex : Nat
  fr : Nat
  bias : Nat
  maxCode : Nat
  hasInf : Bool
  hasNan : Bool
  deriving DecidableEq, Repr

/-- Table 3-2 and Table 3-3; a type that is not floating point takes the `f32` layout and is never asked for. -/
def fmtOf : EType → Fmt
  | .f64 => ⟨11, 52, 1023, 0x7FEFFFFFFFFFFFFF, true, true⟩
  | .bf16 => ⟨8, 7, 127, 0x7F7F, true, true⟩
  | .f16 => ⟨5, 10, 15, 0x7BFF, true, true⟩
  | .f8e4 => ⟨4, 3, 7, 0x7E, false, true⟩
  | .f8e5 => ⟨5, 2, 15, 0x7B, true, true⟩
  | .f4 => ⟨2, 1, 1, 7, false, false⟩
  | _ => ⟨8, 23, 127, 0x7F7FFFFF, true, true⟩

/-- The bit of the sign. -/
def Fmt.signBit (f : Fmt) : Nat := f.ex + f.fr

/-- The exponent of the unit of the smallest subnormal. -/
def Fmt.emin (f : Fmt) : Int := 1 - (f.bias : Int) - (f.fr : Int)

/-- The canonical NaN (Table 3-3): all-ones exponent, top fraction bit; 0x7F in `f8e4`. -/
def Fmt.nan (f : Fmt) : Nat :=
  if f.hasInf then (2 ^ f.ex - 1) <<< f.fr ||| 2 ^ (f.fr - 1) else f.maxCode + 1

/-- The code of +infinity where the format has one. -/
def Fmt.inf (f : Fmt) : Nat := (2 ^ f.ex - 1) <<< f.fr

def Fmt.withSign (f : Fmt) (neg : Bool) (code : Nat) : Nat := if neg then code + 2 ^ f.signBit else code

/-- The value of a pattern (R68, R69). -/
def Fmt.decode (f : Fmt) (x : Nat) : FVal :=
  let neg := x.testBit f.signBit
  let mag := x % 2 ^ f.signBit
  let ex := mag >>> f.fr
  let fr := mag % 2 ^ f.fr
  if f.hasInf && ex == 2 ^ f.ex - 1 then (if fr == 0 then .inf neg else .nan)
  else if !f.hasInf && f.hasNan && mag == f.maxCode + 1 then .nan
  else if ex == 0 then .fin neg fr f.emin
  else .fin neg (2 ^ f.fr + fr) (f.emin + ex - 1)

/-- Whether the mode moves away from zero a magnitude of this sign that lies `rem` out of 2^sh past `k`. -/
def roundsUp (rnd : Rnd) (neg : Bool) (k rem sh : Nat) : Bool :=
  match rnd with
  | .rne => 2 * rem > 2 ^ sh || (2 * rem == 2 ^ sh && k % 2 == 1)
  | .rtz => false
  | .rdn => neg && rem != 0
  | .rup => !neg && rem != 0

/-- The code of m × 2^e, m not 0, rounded once into the format's precision with an unbounded exponent range
(R72's *t*); a code above `maxCode` is a magnitude above the largest finite one. -/
def Fmt.roundMag (f : Fmt) (rnd : Rnd) (neg : Bool) (m : Nat) (e : Int) : Nat :=
  let top : Int := e + (m.log2 : Nat)
  let q : Int := max (top - f.fr) f.emin
  let k : Nat :=
    if q ≤ e then m <<< (e - q).toNat
    else
      let sh := (q - e).toNat
      let k := m >>> sh
      if roundsUp rnd neg k (m % 2 ^ sh) sh then k + 1 else k
  (q - f.emin).toNat <<< f.fr + k

/-- Whether the mode carries an overflow of this sign to infinity (IEEE 754-2019, R71). -/
def toInf (rnd : Rnd) (neg : Bool) : Bool :=
  match rnd with
  | .rne => true
  | .rtz => false
  | .rdn => neg
  | .rup => !neg

/-- The result of an operation rounded once to the format (R71): overflow as the mode gives, NaN canonical. -/
def Fmt.round (f : Fmt) (rnd : Rnd) : FVal → Nat
  | .nan => f.nan
  | .inf neg => f.withSign neg f.inf
  | .fin neg 0 _ => f.withSign neg 0
  | .fin neg m e =>
    let c := f.roundMag rnd neg m e
    if c > f.maxCode then f.withSign neg (if toInf rnd neg then f.inf else f.maxCode) else f.withSign neg c

/-- A narrowing conversion (R72, Table 3-5): the pattern, and whether the overflow-mask bit is set. A mode that
rounds this sign toward zero never exceeds the largest magnitude, so it raises no flag. -/
def Fmt.narrow (f : Fmt) (rnd : Rnd) : FVal → Nat × Bool
  | .nan => if f.hasNan then (f.nan, false) else (0, true)
  | .inf neg => if f.hasInf then (f.withSign neg f.inf, false) else (f.withSign neg f.maxCode, true)
  | .fin neg 0 _ => (f.withSign neg 0, false)
  | .fin neg m e =>
    let c := f.roundMag rnd neg m e
    if c > f.maxCode then (f.withSign neg f.maxCode, toInf rnd neg) else (f.withSign neg c, false)

/-! ## Exact operations -/

/-- The signed whole number that a finite value is of 2^e, e at most its own exponent. -/
def scaleTo (neg : Bool) (m : Nat) (e₀ e : Int) : Int :=
  let x : Int := ((m <<< (e₀ - e).toNat : Nat) : Int)
  if neg then -x else x

/-- Exact sum; the sign of a zero sum follows IEEE 754-2019 for the mode. -/
def FVal.add (rnd : Rnd) : FVal → FVal → FVal
  | .nan, _ => .nan
  | _, .nan => .nan
  | .inf a, .inf b => if a == b then .inf a else .nan
  | .inf a, .fin _ _ _ => .inf a
  | .fin _ _ _, .inf b => .inf b
  | .fin a m e, .fin b n g =>
    let k := min e g
    let z := scaleTo a m e k + scaleTo b n g k
    if z = 0 then
      if m = 0 ∧ n = 0 ∧ a = b then .fin a 0 k else .fin (rnd == .rdn) 0 k
    else .fin (decide (z < 0)) z.natAbs k

def FVal.neg : FVal → FVal
  | .nan => .nan
  | .inf a => .inf (!a)
  | .fin a m e => .fin (!a) m e

/-- Exact product. -/
def FVal.mul : FVal → FVal → FVal
  | .nan, _ => .nan
  | _, .nan => .nan
  | .inf a, .inf b => .inf (a != b)
  | .inf a, .fin b n _ => if n = 0 then .nan else .inf (a != b)
  | .fin a m _, .inf b => if m = 0 then .nan else .inf (a != b)
  | .fin a m e, .fin b n g => .fin (a != b) (m * n) (e + g)

/-- Quotient to 2^-130 of its leading bit, with a sticky last bit: enough to round once to any format (R223). -/
def FVal.div : FVal → FVal → FVal
  | .nan, _ => .nan
  | _, .nan => .nan
  | .inf _, .inf _ => .nan
  | .inf a, .fin b _ _ => .inf (a != b)
  | .fin a _ _, .inf b => .fin (a != b) 0 0
  | .fin a m e, .fin b n g =>
    if n = 0 then (if m = 0 then .nan else .inf (a != b))
    else if m = 0 then .fin (a != b) 0 0
    else
      let sh := 130 + n.log2
      let q := (m <<< sh) / n
      let r := (m <<< sh) % n
      .fin (a != b) (2 * q + (if r = 0 then 0 else 1)) (e - g - sh - 1)

/-- Square root, with a sticky last bit (Table 8-4). -/
def FVal.sqrt : FVal → FVal
  | .nan => .nan
  | .inf a => if a then .nan else .inf false
  | .fin a m e =>
    if m = 0 then .fin a 0 0
    else if a then .nan
    else
      let m' := if e % 2 = 0 then m <<< 140 else m <<< 141
      let e' := if e % 2 = 0 then e - 140 else e - 141
      let r := isqrt m'
      .fin false (2 * r + (if r * r = m' then 0 else 1)) (e' / 2 - 1)

/-- The order of two values: `none` when unordered; −0 equals +0 (R225). -/
def FVal.cmp : FVal → FVal → Option Ordering
  | .nan, _ => none
  | _, .nan => none
  | .inf a, .inf b => some (if a == b then .eq else if a then .lt else .gt)
  | .inf a, .fin _ _ _ => some (if a then .lt else .gt)
  | .fin _ _ _, .inf b => some (if b then .gt else .lt)
  | .fin a m e, .fin b n g =>
    let k := min e g
    some (compare (scaleTo a m e k) (scaleTo b n g k))

def FVal.isNeg : FVal → Bool
  | .nan => false
  | .inf a => a
  | .fin a _ _ => a

def FVal.isNan : FVal → Bool
  | .nan => true
  | _ => false

/-! ## Operations on patterns -/

def fval (et : EType) (x : Nat) : FVal := (fmtOf et).decode x

def fadd (et : EType) (rnd : Rnd) (a b : Nat) : Nat := (fmtOf et).round rnd ((fval et a).add rnd (fval et b))
def fsub (et : EType) (rnd : Rnd) (a b : Nat) : Nat := (fmtOf et).round rnd ((fval et a).add rnd (fval et b).neg)
def fmul (et : EType) (rnd : Rnd) (a b : Nat) : Nat := (fmtOf et).round rnd ((fval et a).mul (fval et b))
def fdiv (et : EType) (rnd : Rnd) (a b : Nat) : Nat := (fmtOf et).round rnd ((fval et a).div (fval et b))
def fsqrt (et : EType) (rnd : Rnd) (a : Nat) : Nat := (fmtOf et).round rnd (fval et a).sqrt
def ffma (et : EType) (rnd : Rnd) (a b c : Nat) : Nat :=
  (fmtOf et).round rnd (((fval et a).mul (fval et b)).add rnd (fval et c))
def ffnma (et : EType) (rnd : Rnd) (a b c : Nat) : Nat :=
  (fmtOf et).round rnd (((fval et a).mul (fval et b)).neg.add rnd (fval et c))

/-- The larger (or smaller) of two values, −0 below +0, the other operand beside one NaN, the canonical NaN
beside two (R78). -/
def fmaxmin (et : EType) (wantMax : Bool) (a b : Nat) : Nat :=
  let x := fval et a
  let y := fval et b
  match x.cmp y with
  | none => if x.isNan then (if y.isNan then (fmtOf et).nan else b) else a
  | some .lt => if wantMax then b else a
  | some .gt => if wantMax then a else b
  | some .eq => if x.isNeg == wantMax then b else a

def fmax (et : EType) (a b : Nat) : Nat := fmaxmin et true a b
def fmin (et : EType) (a b : Nat) : Nat := fmaxmin et false a b

/-- A NaN as the canonical NaN of its type (R70). -/
def fcanon (et : EType) (a : Nat) : Nat := if (fval et a).isNan then (fmtOf et).nan else a

/-- A value rounded to a whole number by the mode. -/
def roundInt (rnd : Rnd) (neg : Bool) (m : Nat) (e : Int) : Int :=
  let k : Nat :=
    if 0 ≤ e then m <<< e.toNat
    else
      let sh := (-e).toNat
      let k := m >>> sh
      if roundsUp rnd neg k (m % 2 ^ sh) sh then k + 1 else k
  if neg then -(k : Int) else (k : Int)

/-- The smallest and largest value of an integer type (R67). -/
def intMin (et : EType) : Int := if et.isSigned then -((2 ^ (et.width - 1) : Nat) : Int) else 0
def intMax (et : EType) : Int :=
  if et.isSigned then ((2 ^ (et.width - 1) : Nat) : Int) - 1 else ((2 ^ et.width : Nat) : Int) - 1

/-- Saturation to a range, with the flag (R73). -/
def saturate (lo hi x : Int) : Int × Bool := if x < lo then (lo, true) else if x > hi then (hi, true) else (x, false)

/-- An element of an integer type as an integer. -/
def intVal (et : EType) (x : Nat) : Int := if et.isSigned then toSigned et.width x else ((x % 2 ^ et.width : Nat) : Int)

/-- A value converted to a type by the mode (R72, R73, R74): pattern and overflow flag. -/
def convVal (et : EType) (rnd : Rnd) (v : FVal) : Nat × Bool :=
  if et.isFloat then (fmtOf et).narrow rnd v
  else
    match v with
    | .nan => (0, true)
    | .inf neg => (wrap et.width (if neg then intMin et else intMax et), true)
    | .fin neg m e =>
      let r := saturate (intMin et) (intMax et) (roundInt rnd neg m e)
      (wrap et.width r.1, r.2)

/-- The value of an element of any type 0 to 14. -/
def valOf (sty : EType) (x : Nat) : FVal :=
  if sty.isFloat then fval sty x
  else
    let i := intVal sty x
    .fin (decide (i < 0)) i.natAbs 0

/-- `Convert` of R237 and R280: an element of one type as an element of another. -/
def convert (sty et : EType) (rnd : Rnd) (x : Nat) : Nat × Bool := convVal et rnd (valOf sty x)

end Sys2Proof.Machine
end

