-- ==== Sys2Proof/Machine/Numeric.lean ====
section
/-! DEFINITION. The exact functions of spec/03_numbers.md: `Exp2Exact`, `RsqrtEst`, `DrawHash`, `Fold64`,
`Rescale`, the sum orders; and SHA3-256, which the audit log and the measurements use (R302, R352, R359). -/

namespace Sys2Proof.Machine

/-- `f32` with one RNE rounding. -/
def roundF32 (v : FVal) : Nat := (fmtOf .f32).round .rne v
/-- The value of an `f32` pattern. -/
def f32 (x : Nat) : FVal := fval .f32 x
/-- RoundF32(a − b, rne). -/
def f32Sub (a b : Nat) : Nat := fsub .f32 .rne a b
def f32Add (a b : Nat) : Nat := fadd .f32 .rne a b
def f32Mul (a b : Nat) : Nat := fmul .f32 .rne a b
/-- The patterns of −infinity, +infinity and the canonical NaN of `f32`. -/
abbrev f32NegInf : Nat := 0xFF800000
abbrev f32PosInf : Nat := 0x7F800000
abbrev f32Nan : Nat := 0x7FC00000

/-! ## The base-2 exponential (R82, Table 3-7) -/

def exp2Table : List Nat :=
  [0x40000000, 0x45CAE0F2, 0x4C1BF829, 0x52FF6B55, 0x5A82799A, 0x62B39509, 0x6BA27E65, 0x75606374]

/-- floor(x × 2^32) of a finite value. -/
def floorScaled (neg : Bool) (m : Nat) (e : Int) : Int :=
  let x : Int := if neg then -(m : Int) else (m : Int)
  let k := e + 32
  if 0 ≤ k then x * ((2 ^ k.toNat : Nat) : Int) else x / ((2 ^ (-k).toNat : Nat) : Int)

/-- `Exp2Exact` (R82). -/
def exp2Exact (x : Nat) : Nat :=
  match f32 x with
  | .nan => f32Nan
  | .inf neg => if neg then 0 else f32PosInf
  | .fin neg m e =>
    let X := floorScaled neg m e
    if X ≥ 128 * ((2 ^ 32 : Nat) : Int) then f32PosInf
    else if (f32 x).cmp (.fin true 150 0) = some .lt then 0
    else
      let n : Int := X / ((2 ^ 32 : Nat) : Int)
      let fr := (X % ((2 ^ 32 : Nat) : Int)).toNat
      let j := fr >>> 29
      let f := fr % 2 ^ 29
      let u := 0x00576200
      let u := 0x0276556E + ((u * f) >>> 32)
      let u := 0x0E35846C + ((u * f) >>> 32)
      let u := 0x3D7F7BFF + ((u * f) >>> 32)
      let u := 0xB17217F8 + ((u * f) >>> 32)
      let p := 2 ^ 32 + ((u * f) >>> 32)
      let m' := (exp2Table.getD j 0 * p) >>> 30
      roundF32 (.fin false m' (n - 32))

/-! ## The reciprocal-square-root estimate (R84) -/

/-- h of R84: the whole number nearest 256 / sqrt(y) for y = (129 + 2b) × 2^par / 128. -/
def rsqrtH (par b : Nat) : Nat := (isqrt (512 * 512 * 128 / ((129 + 2 * b) <<< par)) + 1) / 2

/-- `RsqrtEst` (R84). -/
def rsqrtEst (et : EType) (x : Nat) : Nat :=
  let f := fmtOf et
  match f.decode x with
  | .nan => f.nan
  | .inf neg => if neg then f.nan else 0
  | .fin neg m e =>
    if m = 0 then f.withSign neg f.inf
    else if neg then f.nan
    else
      let top := m.log2
      let ex : Int := e + top
      let frac := m % 2 ^ top
      let b := if 6 ≤ top then frac >>> (top - 6) else frac <<< (6 - top)
      let par := (ex % 2).toNat
      f.round .rne (.fin false (rsqrtH par b) (-8 - (ex - par) / 2))

/-! ## The draw hash and the path fold (R85, R87, Table 3-8) -/

/-- `DrawHash` (R85): 24 bits. -/
def drawHash (key posIdx : Word) : Nat :=
  let m1 : Word := 0xE35A94C71B6D2F09
  let z := key ^^^ (posIdx * 0xA7C31E5B6F29D84B)
  let z := (z ^^^ (z >>> 31)) * m1
  let z := (z ^^^ (z >>> 27)) * 0x8F1D6C53A4E907B5
  let z := (z ^^^ (z >>> 33)) * m1
  let z := z ^^^ (z >>> 29)
  wfield z 63 40

/-- `Fold64` (R87). -/
def fold64 (d x : Word) : Word :=
  let z := (d ^^^ x) + 0x5B2EC0197DA43E61
  let z := (z ^^^ (z >>> 31)) * 0xB4F13C8E59A7D263
  let z := (z ^^^ (z >>> 29)) * 0x6C07A9E53D1B8F27
  z ^^^ (z >>> 32)

/-! ## Sum orders (R76, R77, R79) -/

/-- One level of a tree: neighbours combined, an absent partner passed over (R77). -/
def treeLevel {α : Type} (op : α → α → α) : List (Option α) → List (Option α)
  | a :: b :: xs =>
    (match a, b with
      | some x, some y => some (op x y)
      | some x, none => some x
      | none, y => y) :: treeLevel op xs
  | xs => xs

/-- The last level of the tree: at most 2^fuel positions. -/
def tree {α : Type} (op : α → α → α) : Nat → List (Option α) → Option α
  | 0, xs => xs.head?.join
  | _ + 1, [] => none
  | _ + 1, [x] => x
  | n + 1, xs => tree op n (treeLevel op xs)

/-- The tree sum of one row (R77), +0 when nothing is active (R78). -/
def treeSum (et : EType) (xs : List (Option Nat)) : Nat :=
  match tree (fadd et .rne) 16 xs with
  | none => 0
  | some x => fcanon et x

/-- The running combination from the lowest present value (R76, R79). -/
def orderedFold {α : Type} (op : α → α → α) : List α → Option α
  | [] => none
  | x :: xs => some (xs.foldl op x)

/-! ## The rescaling combine (R88) -/

/-- `Rescale` of two triples. -/
def rescale (a b : Nat × Nat × List Nat) : Nat × Nat × List Nat :=
  let mA := a.1
  let mB := b.1
  let bad (m : Nat) : Bool := (f32 m).isNan || m == f32PosInf
  if bad mA || bad mB then (f32Nan, f32Nan, a.2.2.map fun _ => f32Nan)
  else if mA == f32NegInf then (if mB == f32NegInf then (f32NegInf, 0, b.2.2.map fun _ => 0) else b)
  else if mB == f32NegInf then a
  else
    let m := fmax .f32 mA mB
    let cA := f32 (exp2Exact (f32Sub mA m))
    let cB := f32 (exp2Exact (f32Sub mB m))
    let mix (x y : Nat) : Nat := roundF32 (((f32 x).mul cA).add .rne ((f32 y).mul cB))
    (m, mix a.2.1 b.2.1, List.zipWith mix a.2.2 b.2.2)

/-! ## SHA3-256 -/

/-- The 1,600 bits of the permutation: five rows of five lanes. -/
abbrev Lanes := List (List Word)

/-- A row turned left by `k` lanes. -/
def turned (k : Nat) (r : List Word) : List Word := r.drop k ++ r.take k

/-- Every lane takes the parity of the column before it and that of the column after it, turned by a bit. -/
def mixColumns (a : Lanes) : Lanes :=
  let parity := a.foldl (List.zipWith fun x y => x ^^^ y) (List.replicate 5 0)
  let d := List.zipWith (fun x y => x ^^^ y.rotateLeft 1) (turned 4 parity) (turned 1 parity)
  a.map (List.zipWith (fun x y => x ^^^ y) d)

/-- A lane replaced. -/
def Lanes.put (a : Lanes) (x y : Nat) (w : Word) : Lanes := a.modify y fun r => r.set x w

/-- The 24 lanes beside the first move one place along the walk from (1, 0) in which (y, 2x + 3y) follows (x, y); the lane
of step t turns by the triangular number of t + 1. -/
def walkLanes (a : Lanes) : Lanes :=
  (foldN 24 (fun t (acc : Nat × Nat × Lanes) =>
    let (x, y, b) := acc
    let y' := (2 * x + 3 * y) % 5
    (y, y', Lanes.put b y y' (((a.getD y []).getD x 0).rotateLeft ((t + 1) * (t + 2) / 2 % 64)))) (1, 0, a)).2.2

/-- The step that is not linear: each row for itself. -/
def mixRow (r : List Word) : List Word :=
  List.zipWith (fun x p => x ^^^ (~~~p.1 &&& p.2)) r ((turned 1 r).zip (turned 2 r))

/-- The register whose lowest bits make the round constants: multiplication by x modulo x^8 + x^6 + x^5 + x^4 + 1. -/
def roundReg : Nat → Nat
  | 0 => 1
  | t + 1 =>
    let r := 2 * roundReg t
    if r < 256 then r else r ^^^ 0x171

/-- The constant of a round: bit 2^j − 1 is the register's lowest bit at step 7 · round + j. -/
def roundWord (i : Nat) : Word :=
  foldN 7 (fun j w => if (roundReg (7 * i + j)).testBit 0 then w ||| (1 <<< (2 ^ j - 1)) else w) 0

/-- A round of the permutation, and all 24. -/
def mixRound (i : Nat) (a : Lanes) : Lanes :=
  let b := (walkLanes (mixColumns a)).map mixRow
  Lanes.put b 0 0 ((b.getD 0 []).getD 0 0 ^^^ roundWord i)
def permute (a : Lanes) : Lanes := foldN 24 mixRound a

/-- A block of 136 bytes taken in: 17 lanes, row by row. -/
def takeBlock (a : Lanes) (bs : List Byte) : Lanes :=
  permute ((List.range 5).map fun y => (List.range 5).map fun x =>
    (a.getD y []).getD x 0 ^^^ bytesWord ((bs.drop (8 * (x + 5 * y))).take 8))

def takeBlocks : Nat → List Byte → Lanes → Lanes
  | 0, _, a => a
  | n + 1, bs, a => takeBlocks n (bs.drop 136) (takeBlock a (bs.take 136))

/-- What fills a message of `n` bytes up to whole blocks: SHA-3's two suffix bits, and the first and last bit of the pad. -/
def padBytes (n : Nat) : List Byte :=
  let r := 136 - n % 136
  (List.range r).map fun i => BitVec.ofNat 8 ((if i = 0 then 0x06 else 0) + if i + 1 = r then 0x80 else 0)

/-- SHA3-256: 32 bytes. -/
def sha3 (bs : List Byte) : List Byte :=
  let a := takeBlocks (bs.length / 136 + 1) (bs ++ padBytes bs.length) (List.replicate 5 (List.replicate 5 0))
  ((a.getD 0 []).take 4).flatMap wordBytes

end Sys2Proof.Machine
end

