-- ==== Sys2Proof/Machine/State.lean ====
section
/-! DEFINITION. The state of the machine as plain data, its faults and refusals, and the state after reset. One
core is in focus and runs; the others stand beside it; the device is what they share. -/

namespace Sys2Proof.Machine

/-- Memory: (address, byte) pairs at rising addresses; an unlisted address reads as 0 (log 2). -/
abbrev Memory := List Host.Cell

/-- A vector register: 16 rows (R40). -/
abbrev VReg := Vector Row 16

/-- An accumulator tile: 16 rows of 2,048 `f32` (R40). -/
abbrev Tile := Vector TileRow 16

/-- Where bytes stand: device DRAM, host memory, the scratchpad of the core, or a device register. -/
inductive Place where
  | dram (pa : Nat)
  | host (pa : Nat)
  | spad (off : Nat)
  | reg (pa : Nat)
  deriving DecidableEq, Repr

/-- The four issue queues (Table 1-2). -/
inductive Que where
  | vec | mat | cpy | col
  deriving DecidableEq, Repr

/-- What an access is for: `Translate`'s kind (R65, R94). -/
inductive Acc where
  | read
  | write
  | fetch
  | atomic
  deriving DecidableEq, Repr

/-- A translation that a word's checks have found: the page of 64 KiB and the access they were for, where the page
stands, and its ATTR (R390). -/
structure Pin where
  page : Nat
  acc : Acc
  place : Place
  attr : Nat
  deriving DecidableEq, Repr

/-- What the rewind log restores: the Last's state just after it placed a word (R392), and the count that tells whether
a `SETVL` or `MTS` stands between two words (R257). -/
structure Mark where
  s : Vector Word 32
  o : Vector Word 16
  vl : BitVec 15
  rc : BitVec 5
  vtype : BitVec 16
  rkey : Word
  rpos : Word
  resoff : Word
  eseq : Word
  epoch : Nat
  spent : Bool
  deriving DecidableEq, Repr

/-- A copy or collective word that the engine has started: its ranges, chunk size, the bytes it has done, its mask
register, and for a collective word its match fields, operator and element type. -/
structure Job where
  src : Word
  dst : Word
  len : Nat
  chunk : Nat
  ssp : Bool
  dsp : Bool
  done : Nat
  mask : Option (BitVec 5)
  tag : BitVec 16
  grp : Nat
  peer : Nat
  op : BitVec 4
  et : EType
  deriving DecidableEq, Repr

/-- A queued word with what it carries (R14, R17), its history-buffer entry (R18, R392), the enable bits of its
placement (R202) and how far it has come (R390). -/
structure QEntry where
  word : BitVec 64
  prov : Word
  pc : Word
  rank : Nat
  vl : BitVec 15
  rc : BitVec 5
  vtype : BitVec 16
  slots : Vector Word 16
  rkey : Word
  rpos : Word
  ven : Bool
  men : Bool
  pen : Bool
  epoch : Nat
  mark : Mark
  /-- A block word that further words of its block follow (R393). -/
  more : Bool
  /-- Placed by `VQLOAD`: there is no placing S-word (R452); released by an `ERET` since. -/
  restored : Bool
  released : Bool
  /-- Left in its queue by a trap: it goes on when an `ERET` releases it (R387, R388). -/
  parked : Bool
  /-- The fault point is passed (R390); the translations found on the way there serve the word's accesses. -/
  passed : Bool
  pins : List Pin
  /-- The work that the descriptor named when the fault point was passed, and the work under way. -/
  aim : Option Job
  job : Option Job
  /-- Receivers that have taken a `csendm` (R292); for a `CPY`, 1 once a younger copy has written within its
  destination and completed (Table 23-1). -/
  joined : List Nat
  deriving DecidableEq, Repr

/-- An entry of a heap row: value and token id (R296). -/
structure HeapEntry where
  val : BitVec 32
  id : BitVec 32
  deriving DecidableEq, Repr

/-- A label slot (Table 11-1). -/
structure Label where
  id : BitVec 32
  val : BitVec 32
  valid : Bool
  deriving DecidableEq, Repr

/-- The Press (Table 11-1); *H* and THR stand in `pstat`. -/
structure Press where
  heap : List (List HeapEntry)
  norm : Vector (BitVec 32 × BitVec 32) 16
  label : Vector Label 16
  tau : Vector (BitVec 32) 16
  k : Nat
  pstat : Word
  deriving DecidableEq, Repr

/-- A stream register: its shape record when open, and its position (R62, R243). -/
structure Stream where
  shape : Option (Vector Word 10)
  pos : Word
  deriving DecidableEq, Repr

/-- A remap configuration and its table of 4,096 32-bit entries (Table 2-2, R299). -/
structure Remap where
  cfg : Word
  table : BitVec 131072
  deriving DecidableEq, Repr

/-- The window of a tile (R274). -/
structure Window where
  row0 : BitVec 4
  col0 : BitVec 11
  deriving DecidableEq, Repr

/-- A store held in the hamper (R264): `bits` is its width, and a nibble store names the half of its byte. -/
structure Held where
  rank : Nat
  lin : Nat
  addr : Word
  place : Place
  bits : Nat
  high : Bool
  val : Nat
  deriving DecidableEq, Repr

/-- An open speculative region (R262 to R269). -/
structure Region where
  vl : BitVec 15
  rc : BitVec 5
  words : Nat
  held : List Held
  pos : Vector Word 16
  brk : Word
  brkp : Word
  supp : Option (Nat × BitVec 3)
  annulled : Bool
  /-- The region's words that have retired, oldest first; they keep their history entries (R18). -/
  retired : List QEntry
  deriving DecidableEq, Repr

/-- A trim in force (R257): words of this epoch, placed after this rank, run with what `ffs` named. -/
structure Trim where
  epoch : Nat
  rank : Nat
  row : Nat
  elem : Nat
  deriving DecidableEq, Repr

/-- A publication that the core holds back until the words placed before it have finished (R142, R204). -/
inductive Pub where
  | raise (w : BitVec 3) (v : Word) (sc : Scope) (rank : Nat)
  | arrive (phase : Nat) (rank : Nat)
  deriving DecidableEq, Repr

/-- A page of a batch: VA[54:16], KIND, and whether the leaf is host resident (Table 22-1). -/
structure PageReq where
  page : Nat
  kind : Nat
  hp : Bool
  deriving DecidableEq, Repr

/-- Who makes a page request: the Last, or the word of a rank. -/
inductive Owner where
  | last
  | word (rank : Nat)
  deriving DecidableEq, Repr

/-- A page-request batch (R410): `seq` is the PROD index of its first record, absent while the ring has no room;
`refused` is set by the answer (R413); `lost` says that its records have been dropped, and are posted again (R411). -/
structure Batch where
  owner : Owner
  pages : List PageReq
  seq : Option Nat
  refused : Bool
  lost : Bool
  deriving DecidableEq, Repr

/-- How the sequencer runs the word in it: alone, retiring it; as one trial run whose end the step decides (a member of
a convoy, or a run that stops within the word); the same, with elements that wait left out (R106, R143); or through its
checks alone, up to the fault point (R390). -/
inductive RunMode where
  | whole
  | part
  | ready
  | check
  deriving DecidableEq, Repr

/-- Why a word stops before its end: cause, `tval`, the address involved, and the step (Table 21-1, R396). -/
structure StopInfo where
  cause : BitVec 8
  tval : Word
  addr : Word
  step : Nat
  deriving DecidableEq, Repr

/-- Why the machine stops. -/
inductive Fault where
  /-- An access to a physical address that the map does not use (Table 4-3). No step raises it, since a leaf that names such an
  address is malformed and the access takes its page fault instead (R95). Safe. -/
  | unmappedPhysical
  deriving DecidableEq, Repr

/-- Why work does not complete now: a refusal or fault found before the fault point; a deferred fault; a wait past
the fault point; or a wait short of it, with the page requests that it posts. -/
inductive Stop where
  | stop (i : StopInfo)
  | deferred (i : StopInfo)
  | hold
  | wait (post : Option (Owner × List PageReq))
  deriving DecidableEq, Repr

/-- A hart that the kernel holds (R402): the cause, whether NEST is set, the record's `tepc`, and whether the host serves the
stop, as TRD was when it was taken (R355). -/
structure KStop where
  cause : BitVec 8
  nest : Bool
  tepc : Word
  host : Bool
  deriving DecidableEq, Repr

/-- A 64-byte trap or trace record. -/
abbrev Record := Vector Word 8

/-- Trap entry that waits for room in the trap ring (R404): the record, and what follows it. -/
structure TrapWait where
  record : Record
  stop : Option KStop
  deriving DecidableEq, Repr

/-- An element group of a register or tile, a heap row, a bank row, a kept line of a fetch cache, or a held store, that an
uncorrectable error has spoiled (R418). -/
inductive Poison where
  | reg (v : BitVec 5) (row eg : Nat)
  | tile (t : BitVec 2) (row eg : Nat)
  | heap (row : Nat)
  | spad (row : Nat)
  | fetch (blk : Bool) (line : Nat)
  | held (rank lin : Nat)
  deriving DecidableEq, Repr

/-- The trap words (Table 2-3, 0x040 to 0x047). -/
structure TrapWords where
  tvec : Word
  tcause : Word
  tepc : Word
  tprov : Word
  tval : Word
  tscratch : Word
  tdbg : Word
  twatch : Word
  deriving DecidableEq, Repr

/-- The mask of a word that `CM` tracks, as far as it has been read: the word's rank and width, `v0` as it was read, and the
steps of each lane group that have begun (R139). -/
structure MaskRead where
  rank : Nat
  w : Nat
  mask : VReg
  begun : Vector Nat 4
  deriving DecidableEq, Repr

/-- A word that a `VQSAVE` has written out, until a `VQLOAD` brings it back: what names it (its provenance and the word),
what the image does not hold (its rank, its epoch, and the `rkey` and `rpos` that it carries, R325), the emit sequence number of
the image, and whether publications still wait for it. -/
structure SavedWord where
  prov : Word
  word : BitVec 64
  rank : Nat
  epoch : Nat
  rkey : Word
  rpos : Word
  eseq : Word
  live : Bool
  deriving DecidableEq, Repr

/-- One core and the hart on it. -/
structure Core where
  /-- Package core number (Table 1-1). -/
  num : Nat
  /-- A hart is placed here. -/
  placed : Bool
  pc : Word
  s : Vector Word 32
  o : Vector Word 16
  vl : BitVec 15
  rc : BitVec 5
  vtype : BitVec 16
  lgs : Vector (BitVec 10) 4
  cmv : Word
  /-- `lgs` and `cmv` describe the vector queue as it stands; a `VQSAVE` takes what they describe away until a `VQLOAD`
  brings it back (R46, R59). -/
  cntLive : Bool
  ffs : Word
  brk : Word
  brkp : Word
  vdirty : Word
  resoff : Word
  rkey : Word
  rpos : Word
  /-- The last draw index of the random position has been spent (R417). -/
  spent : Bool
  t : TrapWords
  hstat : Word
  gid : Word
  hid : Word
  tokbud : Word
  v : Vector VReg 32
  tiles : Vector Tile 4
  wins : Vector Window 4
  q : Vector Stream 16
  ix : Vector Remap 4
  cm : VReg
  press : Press
  spad : Memory
  /-- The next emit sequence number (R17) and the next placement rank. -/
  eseq : Word
  rank : Nat
  /-- Counts `SETVL` and `MTS` of `vl`, `rc`, `vtype`, which end a trim (R257). -/
  epoch : Nat
  vec : List QEntry
  mat : List QEntry
  cpy : List QEntry
  col : List QEntry
  /-- The restore list (R434). -/
  restore : List QEntry
  region : Option Region
  trim : Option Trim
  pubs : List Pub
  /-- The barrier phase in which the hart last arrived (R204). -/
  barLast : Option Nat
  /-- Addresses of `BAR_AW` words that have arrived and wait: the one at hand, and while a handler runs the one that it has
  interrupted (R204). -/
  barAw : List Word
  /-- Words in queue images, those of the last `VQSAVE` first. -/
  saved : List SavedWord
  /-- Scratchpad ranges that retired `VSTP` words wrote, youngest first: rank, first byte, bytes. They are kept while an
  older word of the copy queue is unfinished (R106). -/
  stps : List (Nat × Nat × Nat)
  /-- The address of the `VFETCH` that is under way: it goes on at `resoff`.OFF (R50). -/
  midFetch : Option Word
  /-- `WFE` waits (R190). -/
  wfe : Bool
  /-- Addresses of `LAUNCH` words that wait for admission, with the ring 1 entries that they have written (R205). -/
  launching : List (Word × Nat)
  batches : List Batch
  /-- A pre-emption request is pending (R36); its grace timer is stopped by a 0x17 trap (R423). -/
  preempt : Bool
  graceHeld : Bool
  /-- A single-step stop is due, with the provenance it reports (R407). -/
  stepDue : Option Word
  stopped : Option KStop
  trapWait : Option TrapWait
  frozenHart : Bool
  frozenCopy : Bool
  frozenColl : Bool
  poison : List Poison
  /-- Lines of the instruction cache and of the block cache: physical line number and its bytes (R198). -/
  icache : List (Nat × BitVec 512)
  bcache : List (Nat × BitVec 512)
  /-- A forced stop is due as soon as the hart is on its own again (R421, R357). -/
  forced : Bool
  /-- The core's record sequence number (R349). -/
  stampSeq : BitVec 20
  /-- Elements that the running turn has suppressed so far (event 0x0040, Table 13-5). -/
  supps : Nat
  /-- Elements that the head convoy's load has read ahead of their step: the word's rank, *lin*, and the value (R130). -/
  early : List (Nat × Nat × Nat)
  /-- The mask that the head word, one that `CM` tracks, has read so far (R139). -/
  maskRead : Option MaskRead
  /-- The word that has set `ffs`.V: what it suppresses at an earlier element takes its place (R47). -/
  ffsBy : Option Nat
  /-- The word in the sequencer or engine, how it runs, the step at which each lane group ends, and why this
  turn's work did not complete. -/
  run : QEntry
  mode : RunMode
  hi : Vector Nat 4
  why : Option Stop
  /-- Bytes the running word has written, kept while something is poisoned (R418). -/
  wrote : List (Place × Nat)
  deriving DecidableEq, Repr

/-- A launch descriptor as admission read it (Table 12-1). -/
structure Desc where
  entry : Word
  bud : BitVec 32
  bar : Bool
  dep : Bool
  nt : Bool
  prio : Nat
  harts : Nat
  wmap : Vector (BitVec 8) 8
  pv : Bool
  sw : BitVec 3
  pgid : BitVec 16
  start : Word
  coll : List (Nat × Nat)
  wins : Vector (Word × BitVec 32) 8
  deriving DecidableEq, Repr

/-- Where a gang stands in its life (R334 to R338). -/
inductive GangState where
  | admitted
  | placed
  | preempted
  | ended
  deriving DecidableEq, Repr

/-- A rise of a watermark: its new value, the scope and the hart (gid, hid) of the `WMPUB`, and the harts that have made
a report of it (R143, R437). -/
structure Raise where
  value : Word
  scope : Scope
  who : Word × Word
  seen : List (Word × Word)
  deriving DecidableEq, Repr

/-- A gang (R32, R33). -/
structure Gang where
  gid : BitVec 16
  ctx : Nat
  vf : Nat
  ring1 : Bool
  /-- Its entry's position in the ring, and the order of admission and of placement or stop. -/
  pos : Nat
  order : Nat
  desc : Desc
  st : GangState
  placedBefore : Bool
  /-- ROOT and KEY as they were at placement (R353). -/
  root : Nat
  key : Nat
  w : Vector Word 8
  /-- The rises of each watermark, newest first. -/
  raised : Vector (List Raise) 8
  phase : Nat
  arrived : List Nat
  halted : List Nat
  deriving DecidableEq, Repr

/-- A region that Yelnis reserved for a context (R412): first page, pages, and the leaf bits US, FX, WR, RD and
ATTR that it recorded. -/
structure Reserved where
  page : Nat
  pages : Nat
  us : Bool
  fx : Bool
  wr : Bool
  rd : Bool
  attr : BitVec 2
  deriving DecidableEq, Repr

/-- A context: its descriptor (Table 14-1), what Yelnis keeps for it, and its trap-ring and audit-ring
producers. -/
structure Ctx where
  id : Nat
  desc : Vector Word 8
  regions : List Reserved
  handler : Word
  /-- Bound collective groups: number, and chips in ascending order (R339). -/
  groups : List (Nat × List Nat)
  /-- Records dropped since the last type-6 record, whether the next record reads LOST, records of other
  producers that wait, and dropped records of stopped harts to post again (R404). -/
  dropped : Nat
  lostNext : Bool
  waiting : List Record
  repost : List Record
  /-- Records in the open audit block (R360). -/
  auditRecs : Nat
  /-- A sealed frame differs from its TAG: nothing is placed (R448). -/
  barred : Bool
  deriving DecidableEq, Repr

/-- A virtual function: its registers (Tables 12-3, 25-3) and its scheduling state (R336). -/
structure Func where
  num : Nat
  base : Vector Word 2
  ctl : Vector Word 2
  tail : Vector Word 2
  head : Vector Word 2
  fair : Word
  preGid : Word
  obs : Word
  /-- The next entry of each ring that admission has to decide. -/
  next : Vector Nat 2
  deficit : Nat
  frozen : Bool
  deriving DecidableEq, Repr

/-- A virtual function at the resets of Table 12-3. -/
def Func.reset (n : Nat) : Func :=
  { num := n, base := .replicate 2 0, ctl := .replicate 2 4, tail := .replicate 2 0, head := .replicate 2 0,
    fair := 0x1A7001, preGid := 0, obs := 0, next := .replicate 2 0, deficit := 0, frozen := false }

/-- A counter bank (Tables 13-3, 13-4), with what the guest sees and gets back after a reclaim (R442). -/
structure Bank where
  core : Nat
  ctl : Word
  ctr : Vector Word 8
  owner : Option ObsFunc
  guest : Option (ObsFunc × Word × Vector Word 8)
  deriving DecidableEq, Repr

/-- A guest's trace unit while the hypervisor holds it: its registers, its drops not yet reported, and the records that
wait for room in its ring (R443). -/
structure GuestTrace where
  owner : ObsFunc
  base : Word
  ctl : Word
  prod : Nat
  cons : Nat
  lost : Nat
  lostRun : Nat
  waiting : List (Option Nat × Record)
  deriving DecidableEq, Repr

/-- A trace unit (Table 13-6), its drops not yet reported, its holder, and the guest's settings during a reclaim
(R443). -/
structure Tracer where
  cluster : Nat
  base : Word
  ctl : Word
  prod : Nat
  cons : Nat
  lost : Nat
  lostRun : Nat
  /-- Records that wait for room: that of a core, which stalls (R348), or one of the unit's own. -/
  waiting : List (Option Nat × Record)
  owner : Option ObsFunc
  guest : Option GuestTrace
  /-- Records that the guest's settings would have produced during the hold. -/
  guestLost : Nat
  deriving DecidableEq, Repr

/-- A token bucket of a context in a cluster's L2, its loans of the current window, and whether a debit below zero still
keeps its requests back (R109 to R112). -/
structure Bucket where
  cluster : Nat
  ctx : Nat
  tokens : Int
  used : Nat
  loans : List (Nat × Nat)
  barred : Bool
  deriving DecidableEq, Repr

/-- One checkpointed frame: number, ownership entry, its cells, and whether each poisoned line number is in it
(R357, R447). -/
structure SavedFrame where
  frame : Nat
  entry : Word
  cells : Memory
  poison : List Nat
  key : Option (BitVec 512)
  deriving DecidableEq, Repr

/-- A checkpoint on the drives (R357). -/
structure Ckpt where
  id : Nat
  ctxs : List Nat
  frames : List SavedFrame
  harts : List Core
  gangs : List Gang
  /-- Functions that were frozen (R446). -/
  frozen : List Nat
  /-- The frames have been written (R357). -/
  taken : Bool
  /-- The host orchestrates it, and gets its completion code (R355). -/
  host : Bool
  deriving DecidableEq, Repr

/-- A request that the host serves while the split register says so (R355, Table 14-2): the device has posted it and waits
for the answer. -/
inductive Ask where
  | admission (vf : Nat) (ring1 : Bool)
  | checkpoint (id : Nat)
  /-- With the frames of the context that were sealed when the request arrived (R359). -/
  | attestation (ctx : Nat) (nonce : BitVec 256) (frames : List Nat)
  | observe (who : ObsFunc) (op unit ctx : Nat)
  deriving DecidableEq, Repr

/-- What of a context travels between packages beside its frames (R431, R444): its gangs and harts with the banks of their
context and its trace sessions, the unconsumed records of its trap ring from CONS to PROD, and of its audit ring the blocks that the chain and the
consumer still need, each with its signature, and the records of the open block. -/
structure Carried where
  ctx : Nat
  gangs : List Gang
  harts : List Core
  banks : List (Nat × Bank)
  traces : List Tracer
  /-- The leaves of its tables, each with the address it maps. -/
  maps : List (Nat × Nat)
  prod : Nat
  cons : Nat
  lost : Word
  records : List (List Byte)
  audProd : Nat
  audCons : Nat
  blocks : List (Nat × List Byte × List Byte)
  openBlock : List Byte
  auditRecs : Nat
  dropped : Nat
  lostNext : Bool
  waiting : List Record
  repost : List Record
  deriving DecidableEq, Repr

/-- A context that moves to another package: the key agreed for it, the frames received so far (the source's number and the
one here), and its state once that has arrived (R430). -/
structure Move where
  ctx : Nat
  key : Option (BitVec 512)
  frames : List (Nat × Nat)
  state : Option Carried
  deriving DecidableEq, Repr

/-- What the device posts to the kernel or the host. -/
inductive Notice where
  | gangEnded (gid : BitVec 16)
  | retired (u : ErrUnit)
  | batch (ctx seq : Nat)
  /-- A hart that the kernel holds is the host's to serve (TRD, R402). -/
  | trap (core : Nat)
  | pri (pasid page : Nat)
  | checkpoint (id code : Nat) (host : Bool)
  | restored (id : Nat) (ok : Bool)
  | report (bytes : List Byte)
  | noReport (ctx code : Nat)
  | dmaData (bytes : List Byte)
  | dmaAbort (vf : Nat)
  | migrationFailed (ctx : Nat)
  | frameSent (ctx frame : Nat) (entry : Word) (bytes : List Byte)
  | stateSent (c : Carried)
  | ask (a : Ask)
  | sent (core peer : Nat) (bytes : List Byte)
  | engineError (r : Record)
  deriving DecidableEq, Repr

/-- Everything outside the cores. -/
structure Device where
  dram : Memory
  /-- Frame ownership entries that differ from their reset value, by rising frame number (R115). -/
  frames : List (Nat × Word)
  /-- Host memory, the pages the host has made present (PASID, page of 64 KiB, host page), and those of them that the
  host-translation cache keeps (R100, R101). -/
  host : Memory
  hostPages : List (Nat × Nat × Nat)
  atc : List (Nat × Nat × Nat)
  /-- Pages in migration, whose writes wait (R102). -/
  migrating : List (Nat × Nat)
  ctxs : List Ctx
  gangs : List Gang
  /-- Admissions and placements so far: the order of gangs. -/
  order : Nat
  funcs : List Func
  lastServed : Nat
  /-- Gangs that hold the free cores in reserve, the first of them first (R336). -/
  reserved : List (BitVec 16)
  /-- Requests that the host serves (R355). -/
  asked : List Ask
  /-- Contexts on their way to another package, and what has arrived here from other packages (R430, R431). -/
  moves : List Move
  arrivals : List Carried
  retiredCores : List Nat
  /-- Harts off their cores: their saved state, in kernel frames (R453, R433). -/
  saved : List Core
  split : Word
  faultResp : Word
  retire : Word
  scopeCtl : Word
  pfObs : Word
  boot : Word
  banks : List Bank
  tracers : List Tracer
  buckets : List Bucket
  keys : List (Nat × BitVec 512)
  /-- Measurements entered under tags (R118, R359). -/
  tags : List (BitVec 32 × BitVec 256)
  /-- Poisoned lines of DRAM and of host memory, by line number (R418). -/
  poison : List Nat
  hostPoison : List Nat
  /-- Error counts of the current window, and retired units (R421). -/
  errors : List (ErrUnit × Nat)
  retiredUnits : List ErrUnit
  /-- The last atomic of each line that the scope checker keeps: line, scope, gid, hid (R438). -/
  atomics : List (Nat × Scope × Word × Word)
  /-- Stamps given to records that no core writes (log 8). -/
  stampNo : Nat
  ckpts : List Ckpt
  /-- Checkpoints that have not completed (R357). -/
  ckptOpen : List Nat
  /-- The arithmetic clock in MHz (R361). -/
  clock : Nat
  /-- Flash: slot B?, kernel?, bytes (R450); the measurements kept by boot (R352). -/
  flash : List (Bool × Bool × List Byte)
  measured : BitVec 256 × BitVec 256
  /-- The package's number in its fabric domain (R339). -/
  chip : BitVec 6
  posted : List Notice
  deriving DecidableEq, Repr

/-- A scheduling choice: which agent of the focused core moves, how far the lane groups get with the head convoy, which elements its
load reads ahead of their steps, whether it only goes through its checks, a change of focus, or a line that a cache drops. The manual fixes no order between the
agents; a plan is one (log 4). -/
inductive Turn where
  | event
  | last
  | vec
  | vecTo (ends : Vector Nat 4)
  | vecEarly (lins : List Nat)
  | vecPass
  | mat
  | copy
  | coll
  | pub
  | focus (core : Nat)
  | dropFetched (line : Nat)
  deriving DecidableEq, Repr

/-- The machine: the core in focus, the other placed cores, the device, the events that are due, the plan, and
the counter of free values (log 4, 6). -/
structure State where
  core : Core
  rest : List Core
  dev : Device
  inbox : List Instr
  plan : List Turn
  free : Nat
  deriving DecidableEq, Repr

/-- Why the machine gives an instruction no meaning. -/
inductive Refusal where
  /-- Not modelled yet: the arms of `exec` that name their mnemonic. Safe. -/
  | notModelled (mnemonic : String)
  deriving DecidableEq, Repr

/-! ## The state after reset -/

def Mark.reset : Mark :=
  { s := .replicate 32 0, o := .replicate 16 0, vl := 0, rc := 1, vtype := 9, rkey := 0, rpos := 0, resoff := 0,
    eseq := 0, epoch := 0, spent := false }

/-- No word: what the sequencer holds before it takes one. -/
def QEntry.empty : QEntry :=
  { word := 0, prov := 0, pc := 0, rank := 0, vl := 0, rc := 1, vtype := 9, slots := .replicate 16 0, rkey := 0,
    rpos := 0, ven := true, men := true, pen := true, epoch := 0, mark := .reset, more := false,
    restored := false, released := false, parked := false, passed := false, pins := [], aim := none, job := none, joined := [] }

/-- An empty heap place (R307). -/
def HeapEntry.empty : HeapEntry := ⟨0xFF800000, 0xFFFFFFFF⟩

/-- The clear Press (R304). -/
def Press.clear : Press :=
  { heap := [List.replicate 256 .empty], norm := .replicate 16 (0xFF800000, 0),
    label := .replicate 16 ⟨0xFFFFFFFF, 0, false⟩, tau := .replicate 16 0, k := 256, pstat := 0 }

/-- A core that no hart has been placed on: every register at its reset value (Tables 2-2 to 2-18), a register
without one at 0 (log 3). -/
def Core.reset : Core :=
  { num := 0, placed := false, pc := 0, s := .replicate 32 0, o := .replicate 16 0, vl := 0, rc := 1, vtype := 9,
    lgs := .replicate 4 0, cmv := 0, cntLive := true, ffs := 0, brk := 0, brkp := 0, vdirty := 0, resoff := 0, rkey := 0, rpos := 0,
    spent := false, t := ⟨0, 0, 0, 0, 0, 0, 0, 0⟩, hstat := 0x1C, gid := 0, hid := 0, tokbud := 0,
    v := .replicate 32 (.replicate 16 0), tiles := .replicate 4 (.replicate 16 0), wins := .replicate 4 ⟨0, 0⟩,
    q := .replicate 16 ⟨none, 0⟩, ix := .replicate 4 ⟨0, 0⟩, cm := .replicate 16 0, press := .clear, spad := [],
    eseq := 0, rank := 0, epoch := 0, vec := [], mat := [], cpy := [], col := [], restore := [], region := none,
    trim := none, pubs := [], barLast := none, barAw := [], saved := [], stps := [],
    midFetch := none, wfe := false, launching := [], batches := [], preempt := false,
    graceHeld := false, stepDue := none, stopped := none, trapWait := none, frozenHart := false,
    frozenCopy := false, frozenColl := false, poison := [], icache := [], bcache := [], forced := false, stampSeq := 0, supps := 0,
    early := [], maskRead := none, ffsBy := none, run := .empty, mode := .whole, hi := .replicate 4 512, why := none, wrote := [] }

/-- The device at power-on: registers at the resets of their tables, nothing bound, nothing stored. -/
def Device.reset : Device :=
  { dram := [], frames := [], host := [], hostPages := [], atc := [], migrating := [], ctxs := [], gangs := [], order := 0,
    funcs := [], lastServed := 0, reserved := [], asked := [], moves := [], arrivals := [], retiredCores := [], saved := [], split := 0, faultResp := 0,
    retire := 16, scopeCtl := 0, pfObs := 0, boot := 0, banks := [], tracers := [], buckets := [], keys := [],
    tags := [], poison := [], hostPoison := [], errors := [], retiredUnits := [], atomics := [], stampNo := 0,
    ckpts := [], ckptOpen := [], clock := 3300, flash := [], measured := (0, 0), chip := 0, posted := [] }

/-- The machine right after reset: no hart placed (R328), memory empty (log 2). -/
def State.reset : State :=
  { core := .reset, rest := [], dev := .reset, inbox := [], plan := [], free := 0 }

end Sys2Proof.Machine
end

