-- ==== Sys2Proof/Machine/Ops.lean ====
section
/-! DEFINITION. The named operations over registers, memory, queues and records; taking an exception and
returning from one (spec/02, spec/04, spec/07, spec/21, spec/22). -/

namespace Sys2Proof.Machine

/-- The outcome type of a step. -/
abbrev Result := Host.Outcome State Fault Refusal

/-! ## Registers of the focused hart -/

/-- A read of `s[r]`: `s0` gives zero (R40, R176). -/
def readS (s : State) (r : BitVec 5) : Word := if r = 0 then 0 else s.core.s[r.toNat]

/-- A change of the focused core. -/
def State.withCore (s : State) (f : Core → Core) : State := { s with core := f s.core }
/-- A change of the device. -/
def State.withDev (s : State) (f : Device → Device) : State := { s with dev := f s.dev }

/-- A write of `s[r]`: a write of `s0` is discarded (R148). -/
def writeS (s : State) (r : BitVec 5) (v : Word) : State :=
  if r = 0 then s else s.withCore fun c => { c with s := c.s.set r.toNat v }

/-- The Last goes on at the next S-word (R176). -/
def State.advance (s : State) : State := s.withCore fun c => { c with pc := c.pc + 4 }

/-- The Last goes on at an address. -/
def State.jump (s : State) (a : Word) : State := s.withCore fun c => { c with pc := a }

/-- Write `s[d]` and go on. -/
def writeNext (s : State) (d : BitVec 5) (v : Word) : State := (writeS s d v).advance

/-! ## `hstat`, `hid`, `gid` (Tables 2-17, 2-18) -/

def Core.kmode (c : Core) : Bool := c.hstat.getLsbD 0
def Core.pm (c : Core) : Bool := c.hstat.getLsbD 1
def Core.ven (c : Core) : Bool := c.hstat.getLsbD 2
def Core.men (c : Core) : Bool := c.hstat.getLsbD 3
def Core.pen (c : Core) : Bool := c.hstat.getLsbD 4
def Core.hte (c : Core) : Bool := c.hstat.getLsbD 6
def Core.hart (c : Core) : Nat := wfield c.hid 7 0
def Core.cluster (c : Core) : Nat := c.num / 8

/-- All harts that are placed, the focused one first. -/
def State.cores (s : State) : List Core := s.core :: s.rest

/-- A change of the placed core of this number, wherever it stands. -/
def State.updCore (s : State) (n : Nat) (f : Core → Core) : State :=
  if s.core.num = n then { s with core := f s.core }
  else { s with rest := s.rest.map fun c => if c.num = n then f c else c }

def State.findCore (s : State) (n : Nat) : Option Core := s.cores.find? fun c => c.num == n && c.placed

/-- The core of this number in focus, the one that was in focus last of the others. -/
def State.focus (s : State) (n : Nat) : State :=
  if s.core.num = n then s
  else
    match s.rest.find? fun c => c.num == n with
    | none => s
    | some c => { s with core := c, rest := (s.rest.filter fun c => c.num ≠ n) ++ [s.core] }

/-! ## Gangs and contexts -/

/-- A live gang of this id: one that has not ended. -/
def Device.liveGang (d : Device) (gid : BitVec 16) : Option Gang :=
  d.gangs.find? fun g => g.gid == gid && g.st != .ended

/-- The gang of a context with this id, ended or not: a live one first, then the one admitted last. -/
def Device.anyGang (d : Device) (ctx : Nat) (gid : BitVec 16) : Option Gang :=
  let here (g : Gang) : Bool := g.gid == gid && g.ctx == ctx
  match d.gangs.find? fun g => here g && g.st != .ended with
  | some g => some g
  | none => d.gangs.reverse.find? here

def Core.gang16 (c : Core) : BitVec 16 := c.gid.setWidth 16

def State.gang (s : State) : Option Gang := s.dev.liveGang s.core.gang16

def Device.updGang (d : Device) (gid : BitVec 16) (f : Gang → Gang) : Device :=
  { d with gangs := d.gangs.map fun g => if g.gid = gid ∧ g.st ≠ .ended then f g else g }

def Device.ctx (d : Device) (n : Nat) : Option Ctx := d.ctxs.find? fun c => c.id == n

def Device.updCtx (d : Device) (n : Nat) (f : Ctx → Ctx) : Device :=
  { d with ctxs := d.ctxs.map fun c => if c.id = n then f c else c }

/-- The context of the focused hart. -/
def State.ctxId (s : State) : Nat := (s.gang.map Gang.ctx).getD 0

def Ctx.root (c : Ctx) : Nat := (c.desc[0]).toNat
def Ctx.pasid (c : Ctx) : Nat := wfield (c.desc[1]) 63 44
def Ctx.key (c : Ctx) : Nat := wfield (c.desc[1]) 43 34
def Ctx.vf (c : Ctx) : Nat := wfield (c.desc[1]) 33 25
def Ctx.trap (c : Ctx) : Nat := (c.desc[4]).toNat
def Ctx.tlog (c : Ctx) : Nat := wfield (c.desc[5]) 4 0
def Ctx.aud (c : Ctx) : Nat := (c.desc[6]).toNat
def Ctx.alog (c : Ctx) : Nat := wfield (c.desc[7]) 3 0

/-- A virtual function: one that nothing has written holds its resets. There are 384 (R9); a number above names none,
and in recovery there is no virtual function at all (R450). -/
def Device.func (d : Device) (n : Nat) : Func := (d.funcs.find? fun f => f.num == n).getD (.reset n)

def Device.updFunc (d : Device) (n : Nat) (g : Func → Func) : Device :=
  if Config.functions ≤ n || d.boot.getLsbD 2 then d else { d with funcs := g (d.func n) :: d.funcs.filter fun f => f.num ≠ n }

/-! ## Memory as data -/

/-- A byte; an unlisted address reads as 0 (log 2). -/
def Memory.get : Memory → Nat → Byte
  | [], _ => 0
  | c :: m, a => if c.1 = a then c.2 else Memory.get m a

/-- A byte written, keeping the canonical form: addresses rising, no byte 0 listed. -/
def Memory.set : Memory → Nat → Byte → Memory
  | [], a, b => if b = 0 then [] else [(a, b)]
  | c :: m, a, b =>
    if a < c.1 then (if b = 0 then c :: m else (a, b) :: c :: m)
    else if a = c.1 then (if b = 0 then m else (a, b) :: m)
    else c :: Memory.set m a b

/-- The canonical form: addresses strictly rising from `lo` on, and no byte 0 listed. -/
def Memory.okFrom : Nat → Memory → Bool
  | _, [] => true
  | lo, c :: m => decide (lo ≤ c.1) && c.2 != 0 && Memory.okFrom (c.1 + 1) m

/-- The canonical form of a memory. -/
def Memory.wf (m : Memory) : Bool := Memory.okFrom 0 m

/-- `n` bytes from an address on, lowest first. -/
def Memory.read (m : Memory) : Nat → Nat → List Byte
  | 0, _ => []
  | n + 1, a => m.get a :: Memory.read m n (a + 1)

/-- Bytes written from an address on. -/
def Memory.write (m : Memory) : Nat → List Byte → Memory
  | _, [] => m
  | a, b :: bs => Memory.write (m.set a b) (a + 1) bs

/-- `n` bytes as a number, low byte first (R4). -/
def Memory.num (m : Memory) (n a : Nat) : Nat := ofBytes (m.read n a)

/-- A number written as `n` bytes. -/
def Memory.setNum (m : Memory) (n a v : Nat) : Memory := m.write a (bytesOf n v)

/-- A doubleword of memory. -/
def Memory.word (m : Memory) (a : Nat) : Word := BitVec.ofNat 64 (m.num 8 a)
def Memory.setWord (m : Memory) (a : Nat) (v : Word) : Memory := m.setNum 8 a v.toNat

/-- The bytes in a range replaced by nothing listed (zeros). -/
def Memory.clear (m : Memory) (a n : Nat) : Memory := m.filter fun c => decide (c.1 < a ∨ a + n ≤ c.1)

/-! ## Counter banks (R344 to R347, R442) -/

/-- A bank at the resets of Tables 13-3 and 13-4. -/
def Bank.fresh (core : Nat) : Bank := { core := core, ctl := 0, ctr := .replicate 8 0, owner := none, guest := none }

/-- The bank of a core: one that nothing has written holds its resets. -/
def Device.bankOf (d : Device) (core : Nat) : Bank := (d.banks.find? fun b => b.core == core).getD (.fresh core)

def Device.putBank (d : Device) (b : Bank) : Device :=
  { d with banks := b :: d.banks.filter fun x => x.core ≠ b.core }

/-- Event codes that this part counts (Table 13-5). -/
def knownEvent (e : Nat) : Bool :=
  [0x0001, 0x0002, 0x0003, 0x0004, 0x0005, 0x0006, 0x0010, 0x0011, 0x0012, 0x0013, 0x0014, 0x0020, 0x0021, 0x0030,
    0x0031, 0x0032, 0x0033, 0x0040, 0x0041, 0x0050].contains e

/-- A counter as a write leaves it: ABS follows EVT, and an absent event counts nothing (R347). -/
def counterWrite (v : Word) : Word :=
  if knownEvent (wfield v 59 44) then setBit v 60 false else setField (setBit v 60 true) 43 0 0

/-- A mapping of the guest from whom the hypervisor has reclaimed a bank: one of the context that the guest's bank counts. -/
def Bank.reclaimed (b : Bank) (ctx : Nat) : Bool := b.guest.any fun g => wfield g.2.1 10 0 == ctx

/-- A bank register as a mapping of a context sees it: register 0 is the control word, the counters follow. Through the
guest's mapping during a reclaim it is a frozen copy with FRZ, HV and RCL at 1 (R442). -/
def Bank.see (b : Bank) (ctx n : Nat) : Word :=
  match (if b.reclaimed ctx then b.guest else none) with
  | some g => if n = 0 then g.2.1 ||| 0xE0000000000 else g.2.2.toList.getD (n - 1) 0
  | none => if n = 0 then b.ctl else b.ctr.toList.getD (n - 1) 0

/-- Fields that software may write in the control word: FRZ, OWN, CTX; RCL clears by a 1 (Table 13-3). -/
def bankCtlWrite (old v : Word) : Word :=
  let keep := (old &&& ~~~0x20000000FFF#64) ||| (v &&& 0x20000000FFF#64)
  if v.getLsbD 43 then setBit keep 43 false else keep

/-- A write of a bank register through a mapping of a context: ignored through the guest's during a reclaim. -/
def Bank.accept (b : Bank) (ctx n : Nat) (v : Word) : Bank :=
  if b.reclaimed ctx then b
  else if n = 0 then { b with ctl := bankCtlWrite b.ctl v }
  else { b with ctr := b.ctr.setIfInBounds (n - 1) (counterWrite v) }

/-! ## Trace units (R348, R349, Tables 13-6, 13-7) -/

/-- A trace unit at the resets of Table 13-6. -/
def Tracer.fresh (cl : Nat) : Tracer :=
  { cluster := cl, base := 0, ctl := 0x600, prod := 0, cons := 0, lost := 0, lostRun := 0, waiting := [], owner := none,
    guest := none, guestLost := 0 }

/-- The trace unit of a cluster. -/
def Device.tracer (d : Device) (cl : Nat) : Option Tracer := d.tracers.find? fun t => t.cluster == cl

def Device.tracerOf (d : Device) (cl : Nat) : Tracer := (d.tracer cl).getD (.fresh cl)

def Device.putTracer (d : Device) (t : Tracer) : Device :=
  { d with tracers := t :: d.tracers.filter fun x => x.cluster ≠ t.cluster }

def Device.updTracer (d : Device) (cl : Nat) (f : Tracer → Tracer) : Device :=
  { d with tracers := d.tracers.map fun t => if t.cluster = cl then f t else t }

/-- Records of the ring: LOG2N below 6 acts as 6, above 16 as 16 (log 14). -/
def Tracer.size (t : Tracer) : Nat := 2 ^ min 16 (max 6 (wfield t.ctl 12 8))
def Tracer.full (t : Tracer) : Bool := (t.prod + 1) % t.size == t.cons % t.size

/-- The stamp of a record that no core writes (log 8). -/
def Device.stamp (d : Device) : Word × Device := (Config.deviceStamp d.stampNo, { d with stampNo := d.stampNo + 1 })

/-- Bytes that the device writes to DRAM; the lines that they cover lose their poison (R418). -/
def Device.putBytes (d : Device) (a : Nat) (bs : List Byte) : Device :=
  { d with dram := d.dram.write a bs
           poison := d.poison.filter fun l => !decide (a ≤ 64 * l ∧ 64 * l + 64 ≤ a + bs.length) }

/-- A record of 64 bytes written to DRAM. -/
def Device.putRecord (d : Device) (a : Nat) (r : Record) : Device := d.putBytes a (r.toList.flatMap wordBytes)

/-- A trace record at PROD (R348). -/
def Device.tracePush (d : Device) (cl : Nat) (r : Record) : Device :=
  match d.tracer cl with
  | none => d
  | some t =>
    (d.putRecord (t.base.toNat + 64 * (t.prod % t.size)) r).updTracer cl fun t => { t with prod := (t.prod + 1) % t.size }

/-- A lost record (type 5, R349); `mark` fills bytes 40 to 47 (R443). No word or S-word causes it: its PC is 0, and its
provenance null (log 78). -/
def traceLost (who stamp : Word) (n mark : Nat) : Record :=
  #v[(5 <<< 60) ||| who, 0, 0x6000000000000000, stamp, BitVec.ofNat 64 n, BitVec.ofNat 64 mark, 0, 0]

/-- The lost record that is owed, once there is room for it (R348). Table 13-7's CORE, HART and `gid` are 0 in it: the
unit writes it, no core (log 8). -/
def Device.traceOwed (d : Device) (cl : Nat) : Device :=
  match d.tracer cl with
  | none => d
  | some t =>
    if t.lostRun = 0 || t.full then d
    else
      let st := d.stamp
      (st.2.tracePush cl (traceLost (BitVec.ofNat 64 (d.chip.toNat <<< 50)) st.1 t.lostRun 0)).updTracer cl
        fun t => { t with lostRun := 0 }

/-- A record of a core, or of the unit itself: written, or while the ring is full kept waiting when STL = 1 or the unit made
it, else dropped (R348). -/
def Device.traceWrite (d : Device) (cl : Nat) (core : Option Nat) (r : Record) : Device :=
  let d := d.traceOwed cl
  match d.tracer cl with
  | none => d
  | some t =>
    if !t.full && t.waiting.isEmpty then d.tracePush cl r
    else if t.ctl.getLsbD 5 || core.isNone then d.updTracer cl fun t => { t with waiting := t.waiting ++ [(core, r)] }
    else d.updTracer cl fun t => { t with lost := (t.lost + 1) % 2 ^ 32, lostRun := t.lostRun + 1 }

/-- Records that wait are written in turn. -/
def Device.traceFlush (d : Device) (cl : Nat) : Device :=
  let d := d.traceOwed cl
  match d.tracer cl with
  | none => d
  | some t =>
    t.waiting.foldl (fun d r => d.traceWrite cl r.1 r.2) (d.updTracer cl fun t => { t with waiting := [] })

/-- The consumer's index, and what it makes room for. -/
def Device.traceCons (d : Device) (cl cons : Nat) : Device :=
  (d.putTracer { d.tracerOf cl with cons := cons }).traceFlush cl

/-- Registers of a trace unit by their place in Table 13-6. -/
def Tracer.reg (t : Tracer) : Nat → Word
  | 0 => t.base
  | 1 => t.ctl
  | 2 => BitVec.ofNat 64 (t.prod % 65536)
  | 3 => BitVec.ofNat 64 (t.cons % 65536)
  | 4 => BitVec.ofNat 64 t.lost
  | _ => 0

/-- A write to a register of a trace unit: BASE is kept as written, aligned or not. -/
def Device.traceReg (d : Device) (cl n : Nat) (v : Word) : Device :=
  let t := d.tracerOf cl
  match n with
  | 0 => d.putTracer { t with base := v }
  | 1 => d.putTracer { t with ctl := v &&& 0x7FFFF001F3F#64 }
  | 3 => d.traceCons cl (wfield v 15 0)
  | 4 => d.putTracer { t with lost := t.lost &&& (0xFFFFFFFF ^^^ wfield v 31 0) }
  | _ => d

/-! ## Device registers that a leaf with ATTR = 2 maps (R99, R345; log 10) -/

/-- What a physical address of the register space names: the manual gives no addresses. Each core's bank and each
cluster's trace unit has a page of 64 KiB; the manual names no register in the other pages. -/
inductive RegAt where
  | bank (core n : Nat)
  | trace (cl n : Nat)
  | other
  deriving DecidableEq, Repr

def regAt (pa : Nat) : RegAt :=
  let u := (pa - Config.regBase) / 65536
  let n := pa % 65536 / 8
  if u < Config.cores && n < 9 then .bank u n
  else if 256 ≤ u && u < 256 + Config.clusters && n < 5 then .trace (u - 256) n
  else .other

/-- The register at a physical address, as an access of a context reads it. -/
def State.regWord (s : State) (ctx pa : Nat) : Word :=
  match regAt pa with
  | .bank c n => (s.dev.bankOf c).see ctx n
  | .trace cl n => (s.dev.tracerOf cl).reg n
  | .other => BitVec.ofNat 64 (ofBytes ((upTo 8 (pa / 8 * 8)).map (Config.openRegister s.free)))

/-- The register at a physical address written by an access of a context: a bank takes it, a trace unit's registers are the
kernel's to write (R348). -/
def Device.putReg (d : Device) (ctx pa : Nat) (v : Word) : Device :=
  match regAt pa with
  | .bank c n => d.putBank ((d.bankOf c).accept ctx n v)
  | .trace _ _ | .other => d

/-- What the bytes of a register that a narrow write leaves out are written as: RW fields as they stand, and W1C bits, which a
written 1 clears, as 0 (R5). -/
def State.regKept (s : State) (ctx pa : Nat) : Word :=
  match regAt pa with
  | .bank _ 0 => s.regWord ctx pa &&& ~~~(0x80000000000#64)
  | _ => s.regWord ctx pa

/-- Bytes written to registers, one register at a time: those of a register that are not written keep their values. -/
def State.putRegs (ctx : Nat) : Nat → Nat → List Byte → State → State
  | 0, _, _, s => s
  | k + 1, pa, bs, s =>
    if bs.isEmpty then s
    else
      let m := min bs.length (8 - pa % 8)
      let old := wordBytes (s.regKept ctx pa)
      let new := old.take (pa % 8) ++ bs.take m ++ old.drop (pa % 8 + m)
      State.putRegs ctx k (pa + m) (bs.drop m) { s with dev := s.dev.putReg ctx pa (bytesWord new) }

/-! ## Places -/

/-- `n` bytes at a place. -/
def State.bytesAt (s : State) (n : Nat) : Place → List Byte
  | .dram a => s.dev.dram.read n a
  | .host a => s.dev.host.read n a
  | .spad a => s.core.spad.read n a
  | .reg a => (upTo n a).map fun x => (wordBytes (s.regWord s.ctxId x)).getD (x % 8) 0

/-- A line number of 64 bytes. -/
def lineOf (a : Nat) : Nat := a / 64

/-- Whether anything is poisoned that bytes could be in. -/
def State.anyPoison (s : State) : Bool := !s.dev.poison.isEmpty || !s.dev.hostPoison.isEmpty || !s.core.poison.isEmpty

/-- Bytes written at a place; while something is poisoned, the range is noted for R418. -/
def State.setBytes (s : State) (p : Place) (bs : List Byte) : State :=
  let s := if s.anyPoison then s.withCore fun c => { c with wrote := (p, bs.length) :: c.wrote } else s
  match p with
  | .dram a => s.withDev fun d => { d with dram := d.dram.write a bs }
  | .host a => s.withDev fun d => { d with host := d.host.write a bs }
  | .spad a => s.withCore fun c => { c with spad := c.spad.write a bs }
  | .reg a => s.putRegs s.ctxId bs.length a bs

/-- `n` bytes at a place as a number. -/
def State.readPlace (s : State) (p : Place) (n : Nat) : Nat := ofBytes (s.bytesAt n p)

/-- A number written as `n` bytes at a place. -/
def State.writePlace (s : State) (p : Place) (n v : Nat) : State := s.setBytes p (bytesOf n v)

/-- Whether a byte lies in a range that has been written. -/
def covered (w : List (Place × Nat)) (p : Place) : Bool :=
  w.any fun r =>
    match r.1, p with
    | .dram a, .dram b => a ≤ b && b < a + r.2
    | .host a, .host b => a ≤ b && b < a + r.2
    | .spad a, .spad b => a ≤ b && b < a + r.2
    | _, _ => false

/-- A write that covers every byte of a poisoned line or bank row clears its poison; a narrower one does not
(R418). -/
def State.settlePoison (s : State) : State :=
  let w := s.core.wrote
  if w.isEmpty then s
  else
    let all (mk : Nat → Place) (l : Nat) : Bool := (upTo 64 (64 * l)).all fun a => covered w (mk a)
    let d := s.dev
    { s with
      dev := { d with poison := d.poison.filter (fun l => !all .dram l),
                      hostPoison := d.hostPoison.filter (fun l => !all .host l) }
      core := { s.core with
        wrote := []
        poison := s.core.poison.filter fun p =>
          match p with
          | .spad r => !all .spad r
          | _ => true } }

/-- Whether a place lies in poisoned storage (R418). -/
def State.poisoned (s : State) : Place → Bool
  | .dram a => s.dev.poison.contains (lineOf a)
  | .host a => s.dev.hostPoison.contains (lineOf a)
  | .spad a => s.core.poison.contains (.spad (lineOf a))
  | .reg _ => false

/-- Storage spoiled at a place. -/
def State.spoil (s : State) : Place → State
  | .dram a => s.withDev fun d => { d with poison := (lineOf a :: d.poison).dedup }
  | .host a => s.withDev fun d => { d with hostPoison := (lineOf a :: d.hostPoison).dedup }
  | .spad a => s.withCore fun c => { c with poison := (.spad (lineOf a) :: c.poison).dedup }
  | .reg _ => s

/-- A region that closes holds no spoiled store any more. -/
def Core.unheld (c : Core) : Core :=
  { c with poison := c.poison.filter fun p =>
      match p with
      | .held _ _ => false
      | _ => true }

/-! ## Translation (R93 to R97) -/

/-- KIND of Table 22-1. -/
def Acc.code : Acc → Nat
  | .read => 0
  | .write => 1
  | .fetch => 2
  | .atomic => 3

def Acc.writes : Acc → Bool
  | .write | .atomic => true
  | _ => false
def Acc.reads : Acc → Bool
  | .read | .atomic => true
  | _ => false

/-- Fields of a translation-table entry (Table 4-1). -/
def eV (e : Nat) : Bool := e.testBit 0
def eL (e : Nat) : Bool := e.testBit 1
def eH (e : Nat) : Bool := e.testBit 63
def eAttr (e : Nat) : Nat := field e 11 10
/-- The physical address that FRAME names. -/
def eFrame (e : Nat) : Nat := field e 47 16 * 65536

/-- `Malformed`(e, level) (R95). -/
def malformed (e level : Nat) : Bool :=
  let reserved := field e 62 48 != 0 || field e 15 12 != 0 || field e 3 2 != 0
  let leafAt := (eL e && level == 1) || (!eL e && level == 3)
  let f := eFrame e
  let frameBits :=
    if eL e && eH e then false
    else
      field f 47 40 != 0 || (!eL e && f ≥ Config.dramBytes) || (eL e && level == 2 && field f 28 16 != 0) ||
        (eL e && eAttr e == 2 && f < Config.dramBytes) || (eL e && eAttr e < 2 && f ≥ Config.dramBytes)
  reserved || leafAt || frameBits || (eL e && eAttr e == 3)

/-- What the leaf permits (R94): RD, WR, FX, and US in U mode. -/
def permits (e : Nat) (k : Acc) (kmode : Bool) : Bool :=
  (!k.reads || e.testBit 4) && (!k.writes || e.testBit 5) && (k != .fetch || e.testBit 6) && (kmode || e.testBit 7)

/-- A leaf that a walk has found: its entry, the address it stands at, and the bytes its page holds. -/
structure Leaf where
  entry : Nat
  at_ : Nat
  big : Bool
  deriving DecidableEq, Repr

/-- The walk of R94 up to the leaf, or none (WHY 1). -/
def walk (m : Memory) (root va : Nat) : Option Leaf :=
  let e1 := m.num 8 (root + 8 * field va 54 42)
  if !eV e1 || malformed e1 1 then none
  else
    let a2 := eFrame e1 + 8 * field va 41 29
    let e2 := m.num 8 a2
    if !eV e2 || malformed e2 2 then none
    else if eL e2 then some ⟨e2, a2, true⟩
    else
      let a3 := eFrame e2 + 8 * field va 28 16
      let e3 := m.num 8 a3
      if !eV e3 || malformed e3 3 then none else some ⟨e3, a3, false⟩

/-- Why an access is not performed. -/
inductive Fail where
  /-- An address with bits [63:55] not zero (R90). -/
  | noAddr
  /-- WHY 1: no usable mapping, or a host page that is not present (`hp`). -/
  | page (hp : Bool)
  /-- WHY 2. -/
  | perm
  /-- WHY 3: not performed speculatively (R99), or a watched element of a suppressing load (R408). -/
  | device
  /-- WHY 4: the ownership check, of a sealed frame when `sealed` (R414). -/
  | owner (sealed : Bool)
  /-- WHY 5. -/
  | poison
  /-- Cause 0x21 (R408). -/
  | watch
  /-- A write to a page in migration waits (R102). -/
  | migrating
  deriving DecidableEq, Repr

/-- `ffs`.WHY of a failure (Table 2-9). -/
def Fail.why : Fail → Nat
  | .noAddr | .page _ => 1
  | .perm => 2
  | .owner _ => 4
  | .poison => 5
  | _ => 3

/-- The frame ownership entry of a frame; reset leaves KF = 1 and the rest 0 (Table 4-6). -/
def Device.frameEntry (d : Device) (f : Nat) : Word :=
  match d.frames.find? fun p => p.1 == f with
  | some p => p.2
  | none => 0x800000

/-- The check of R116 against one frame entry: none when the access is allowed. -/
def ownerCheck (e : Word) (ctx : Nat) (wr : Bool) : Option Fail :=
  let kf := e.getLsbD 23
  let owner := wfield e 10 0
  let sealed := e.getLsbD 21
  if kf then some (.owner (wr && sealed))
  else if wr then
    if sealed then some (.owner true) else if owner = ctx then none else some (.owner false)
  else if owner = ctx || e.getLsbD 22 then none
  else some (.owner false)

/-- Whether a data access meets the watch range (R406, R408). -/
def Core.watched (c : Core) (va n : Nat) (k : Acc) : Bool :=
  let on := !c.kmode && ((k.reads && c.t.tdbg.getLsbD 2) || (k.writes && c.t.tdbg.getLsbD 3))
  let lsz := max 3 (wfield c.t.twatch 60 55)
  let base := (wfield c.t.twatch 54 0) / 2 ^ lsz * 2 ^ lsz
  on && decide (va < base + 2 ^ lsz ∧ base < va + n)

/-- The host page of an address, through the host-translation cache or by a request to the host (R101). -/
def Device.hostTranslate (d : Device) (pasid page : Nat) : Option (Nat × Device) :=
  let here (p : Nat × Nat × Nat) : Bool := p.1 == pasid && p.2.1 == page
  match d.atc.find? here with
  | some p => some (p.2.2, d)
  | none => (d.hostPages.find? here).map fun p => (p.2.2, { d with atc := p :: d.atc })

/-- The translation that the checks of the running word have found for a page, once it has passed its fault point
(R390). -/
def State.pinned (s : State) (a : Nat) (k : Acc) : Option Pin :=
  if s.core.run.passed then s.core.run.pins.find? fun p => p.page == a / 65536 && p.acc == k else none

/-- A leaf's A bit set, and its D bit for a write (R96). -/
def State.mark (s : State) (l : Leaf) (k : Acc) : State :=
  let e := l.entry ||| 0x100 ||| (if k.writes then 0x200 else 0)
  if e = l.entry then s else s.withDev fun d => { d with dram := d.dram.setNum 8 l.at_ e }

/-- What is left to check of an access that its leaf permits: the page it reaches, ownership, and what R99 keeps from
device and uncached pages. What a well-formed leaf names is in device memory or a register (R95), so no access leaves the physical
map. A speculative access that R99 suppresses is found before the host is asked for its page, so that it has
WHY 3 and not WHY 1 where the page is absent too: DESIGN CHOICE, the spec gives no order of the two (log 77). -/
def reach (s : State) (g : Gang) (l : Leaf) (a : Nat) (k : Acc) (spec : Bool) : Except Fail (Place × Nat × State) :=
  if spec && eAttr l.entry != 0 then .error .device
  else if eH l.entry then
    match s.dev.hostTranslate (((s.dev.ctx g.ctx).map Ctx.pasid).getD 0) (a / 65536) with
    | none => .error (.page true)
    | some (h, d) =>
      if k.writes && s.dev.migrating.contains (g.ctx, a / 65536) then .error .migrating
      else .ok (.host (h * 65536 + a % 65536), eAttr l.entry, { s with dev := d })
  else
    let pa := eFrame l.entry + (if l.big then field a 28 0 else field a 15 0)
    if eAttr l.entry = 2 then
      if k == .atomic then .error .perm
      else .ok (.reg pa, 2, s)
    else if k.writes && s.dev.migrating.contains (g.ctx, a / 65536) then .error .migrating
    else
      match ownerCheck (s.dev.frameEntry (pa / 65536)) g.ctx k.writes with
      | some f => .error f
      | none => .ok (.dram pa, eAttr l.entry, s)

/-- A translation that the word's checks have found: ownership is checked again at every access (R116, R118). -/
def Pin.reach (p : Pin) (s : State) (g : Gang) (a : Nat) (k : Acc) : Except Fail (Place × Nat × State) :=
  let off := a % 65536
  match p.place with
  | .dram b =>
    match ownerCheck (s.dev.frameEntry ((b + off) / 65536)) g.ctx k.writes with
    | some f => .error f
    | none => .ok (.dram (b + off), p.attr, s)
  | .host b => .ok (.host (b + off), p.attr, s)
  | .spad b => .ok (.spad (b + off), p.attr, s)
  | .reg b => .ok (.reg (b + off), p.attr, s)

/-- The walk of an access outside the kernel's ranges: its leaf, once the leaf permits it (R94). -/
def State.leafOf (s : State) (g : Gang) (a : Nat) (k : Acc) : Except Fail Leaf :=
  match walk s.dev.dram g.root a with
  | none => .error (.page false)
  | some l => if permits l.entry k s.core.kmode then .ok l else .error .perm

/-- Where the bytes of an access stand once every check of R94, R99, R116 and R408 has passed: the place, ATTR, and
the state with the leaf's A and D bits set (R96). `spec` marks the accesses that R99 keeps from device and uncached
pages. A word past its fault point uses the translations that its checks have found. The poison of the place is left to
the reader. -/
def probe (s : State) (va : Word) (n : Nat) (k : Acc) (spec : Bool) : Except Fail (Place × Nat × State) :=
  let a := va.toNat
  if field a 63 55 != 0 then .error .noAddr
  else
    match s.gang with
    | none => .error (.page false)
    | some g =>
      match s.pinned a k with
      | some p => p.reach s g a k
      | none =>
        if k != .fetch && s.core.watched a n k then .error (if spec then .device else .watch)
        else
          match s.leafOf g a k with
          | .error f => .error f
          | .ok l => reach (s.mark l k) g l a k spec

/-- The state after an access whose checks have failed: `Translate` sets A and D as soon as the leaf permits the access,
before what comes after it is checked (R94). -/
def State.touched (s : State) (va : Word) (n : Nat) (k : Acc) : State :=
  let a := va.toNat
  if field a 63 55 != 0 || (k != .fetch && s.core.watched a n k) || (s.pinned a k).isSome then s
  else
    match s.gang with
    | none => s
    | some g =>
      match s.leafOf g a k with
      | .error _ => s
      | .ok l => s.mark l k

/-- The page of a place that an access has reached, for the accesses of its word that follow (R390). -/
def pinOf (va : Word) (k : Acc) (p : Place) (attr : Nat) : Pin :=
  let off := va.toNat % 65536
  let base : Place := match p with
    | .dram a => .dram (a - off)
    | .host a => .host (a - off)
    | .spad a => .spad (a - off)
    | .reg a => .reg (a - off)
  ⟨va.toNat / 65536, k, base, attr⟩

/-- The running word keeps a translation that its checks have found. -/
def State.pin (s : State) (va : Word) (k : Acc) (p : Place) (attr : Nat) : State :=
  if s.core.run.pins.any fun x => x.page == va.toNat / 65536 && x.acc == k then s
  else s.withCore fun c => { c with run := { c.run with pins := pinOf va k p attr :: c.run.pins } }

/-! ## Records (R349, R400, R404) -/

/-- The context trap ring's control words in memory (Table 21-5). -/
def Ctx.prodAt (c : Ctx) : Nat := c.trap
def Ctx.consAt (c : Ctx) : Nat := c.trap + 8
def Ctx.lostAt (c : Ctx) : Nat := c.trap + 16

def Device.ringProd (d : Device) (c : Ctx) : Nat := d.dram.num 4 c.prodAt
def Device.ringCons (d : Device) (c : Ctx) : Nat := d.dram.num 4 c.consAt

/-- Free places of the ring (R404). -/
def Device.ringRoom (d : Device) (c : Ctx) : Nat :=
  2 ^ c.tlog - (d.ringProd c + 2 ^ 32 - d.ringCons c) % 2 ^ 32

/-- A record written at PROD, which then advances. -/
def Device.pushRaw (d : Device) (c : Ctx) (r : Record) : Device :=
  let p := d.ringProd c
  let d := d.putRecord (c.trap + 64 + 64 * (p % 2 ^ c.tlog)) r
  { d with dram := d.dram.setNum 4 c.prodAt ((p + 1) % 2 ^ 32) }

/-- A type-6 record: the count of records dropped since the last one, and its stamp (R400). -/
def lostRecord (n : Nat) (st : Word) : Record := #v[6 <<< 60, 0, 0, 0, 0, 0, BitVec.ofNat 64 n, st]

/-- Write the type-6 record that is owed, when there is room for it. -/
def Device.payLost (d : Device) (id : Nat) : Device :=
  match d.ctx id with
  | none => d
  | some c =>
    if c.dropped = 0 || d.ringRoom c = 0 then d
    else
      let st := d.stamp
      (st.2.pushRaw c (lostRecord c.dropped st.1)).updCtx id fun c => { c with dropped := 0, lostNext := true }

/-- A record in the ring of a context: `none` when the ring has no room. The first write once room returns is the
type-6 record, and the record after it has LOST = 1. -/
def Device.tryPush (d : Device) (id : Nat) (r : Record) : Option Device :=
  let d := d.payLost id
  match d.ctx id with
  | none => some { d with posted := d.posted ++ [.engineError r] }
  | some c =>
    if d.ringRoom c = 0 then none
    else
      let r := if c.lostNext then r.set 0 (setBit r[0] 48 true) else r
      some ((d.pushRaw c r).updCtx id fun c => { c with lostNext := false })

/-- A record of a producer that waits alone while the ring is full. -/
def Device.pushOrWait (d : Device) (id : Nat) (r : Record) : Device :=
  match d.tryPush id r with
  | some d => d
  | none => d.updCtx id fun c => { c with waiting := c.waiting ++ [r] }

/-- The next stamp of the focused core: cycles are a free value, the sequence number counts (R349, log 8). -/
def State.stamp (s : State) : Word × State :=
  let w := Config.stampCycles s.free ++ s.core.stampSeq
  (w, { s with free := s.free + 1, core := { s.core with stampSeq := s.core.stampSeq + 1 } })

/-- Bytes 8 to 15 of a trap record: context, `gid`, CHIP, CORE and HART. -/
def State.whoWord (s : State) : Word :=
  BitVec.ofNat 64 (s.ctxId <<< 48) ||| BitVec.ofNat 64 (wfield s.core.gid 15 0 <<< 32) |||
    BitVec.ofNat 64 (wfield s.core.hid 29 0)

/-- LGS as Table 7-8 packs it. -/
def Core.lgsWord (c : Core) : Word :=
  BitVec.ofNat 64 ((c.lgs[3]).toNat <<< 30 + (c.lgs[2]).toNat <<< 20 + (c.lgs[1]).toNat <<< 10 + (c.lgs[0]).toNat)

/-- Bytes 0 to 7 of a trace record after TYPE: CHIP, CORE, HART and `gid` (Table 13-7). -/
def Core.traceWho (c : Core) : Word :=
  BitVec.ofNat 64 (wfield c.hid 29 24 <<< 50 + wfield c.hid 23 16 <<< 42 + wfield c.hid 7 0 <<< 34 + wfield c.gid 15 0)

/-- A trace record of the focused hart when its cluster's unit traces this context and core, is enabled, and has
the record's kind switched on (bit `en` of 0x08). A guest's record during a reclaim is counted (R443). -/
def State.trace (s : State) (ty en : Nat) (pc prov data extra : Word) : State :=
  match s.dev.tracer s.core.cluster with
  | none => s
  | some t =>
    let wants (ctl : Word) : Bool :=
      ctl.getLsbD 0 && ctl.getLsbD en && wfield ctl 42 32 == s.ctxId && ctl.getLsbD (24 + s.core.num % 8)
    let s :=
      match t.guest with
      | some g =>
        if wants g.ctl then s.withDev fun d => d.updTracer s.core.cluster fun t => { t with guestLost := t.guestLost + 1 }
        else s
      | none => s
    if wants t.ctl then
      let (st, s) := s.stamp
      let r : Record := #v[BitVec.ofNat 64 (ty <<< 60) ||| s.core.traceWho, pc, prov, st, data, extra, 0, 0]
      s.withDev fun d => d.traceWrite s.core.cluster (some s.core.num) r
    else s

/-! ## Queues (R14 to R19) -/

/-- The opcode of a V-word. -/
def opOf (w : BitVec 64) : Nat := field w.toNat 62 56

/-- The queue of an opcode (R15; R372 for the opcodes that are not instructions). -/
def queOf (w : BitVec 64) : Que :=
  let op := opOf w
  if 0x60 ≤ op ∧ op ≤ 0x6F then .mat
  else if 0x70 ≤ op ∧ op ≤ 0x77 then .cpy
  else if 0x78 ≤ op ∧ op ≤ 0x7B then .col
  else .vec

def Que.cap : Que → Nat
  | .vec => Config.vecCap
  | .mat => Config.matCap
  | .cpy => Config.cpyCap
  | .col => Config.colCap

/-- `tcause`.QUE (Table 2-16). -/
def Que.code : Que → Nat
  | .vec => 1
  | .mat => 2
  | .cpy => 3
  | .col => 4

def Core.queue (c : Core) : Que → List QEntry
  | .vec => c.vec
  | .mat => c.mat
  | .cpy => c.cpy
  | .col => c.col

def Core.setQueue (c : Core) (l : List QEntry) : Que → Core
  | .vec => { c with vec := l }
  | .mat => { c with mat := l }
  | .cpy => { c with cpy := l }
  | .col => { c with col := l }

/-- Every placed word that has not retired or completed. -/
def Core.words (c : Core) : List QEntry := c.vec ++ c.mat ++ c.cpy ++ c.col

/-- History-buffer entries in use (R18): placed words, and a region's retired words. -/
def Core.history (c : Core) : Nat :=
  c.words.length + ((c.region.map fun r => r.retired.length).getD 0) + c.restore.length

/-- Room for one word of this queue (R19). -/
def Core.room (c : Core) (q : Que) : Bool :=
  decide ((c.queue q).length < q.cap) && decide (c.history < Config.history)

/-- The commit gate for the Last (R391): every placed word has passed its fault point. A parked word, which does not
start before the handler has left (R388), does not hold the handler's own stores back (log 27). -/
def Core.gate (c : Core) : Bool := c.words.all fun e => e.passed || e.parked

/-- The core's hart is placed, and the kernel does not hold it: its queues may move (R387, R402). -/
def Core.going (c : Core) : Bool := c.placed && c.stopped.isNone && c.trapWait.isNone

/-- Every placed word has retired or completed. -/
def Core.drained (c : Core) : Bool := c.words.isEmpty && c.restore.isEmpty

/-- A convoy whose closing word has not entered the queue (R163). -/
def convoyLen : Nat → List QEntry → Nat
  | 0, _ => 0
  | _ + 1, [] => 0
  | n + 1, e :: es => if e.word.getLsbD 63 then 1 + convoyLen n es else 1

/-- The words of the head convoy: up to the first with C = 0, at most 4 (R25). -/
def Core.headConvoy (c : Core) : List QEntry := c.vec.take (convoyLen 4 c.vec)

/-- The first convoy of the queue is whole: closed, or 4 words long (R163). -/
def Core.convoyWhole (c : Core) : Bool :=
  match c.headConvoy.getLast? with
  | none => false
  | some e => !e.word.getLsbD 63 || c.headConvoy.length == 4

/-- The words of the vector queue that stand in an open convoy: what is left after the whole convoys, each closed by a
word with C = 0 or 4 words long (R163). `acc` holds the convoy being read, its last word first. -/
def openTail : List QEntry → List QEntry → List QEntry
  | acc, [] => acc.reverse
  | acc, e :: es => if e.word.getLsbD 63 && decide (acc.length < 3) then openTail (e :: acc) es else openTail [] es

def Core.openConvoy (c : Core) : List QEntry := openTail [] c.vec

/-- The Last's state as a history-buffer mark (R392). -/
def Core.mark (c : Core) : Mark :=
  { s := c.s, o := c.o, vl := c.vl, rc := c.rc, vtype := c.vtype, rkey := c.rkey, rpos := c.rpos,
    resoff := c.resoff, eseq := c.eseq, epoch := c.epoch, spent := c.spent }

/-- The rewind log applied back to a mark (R393). -/
def Core.rewind (c : Core) (m : Mark) : Core :=
  { c with s := m.s, o := m.o, vl := m.vl, rc := m.rc, vtype := m.vtype, rkey := m.rkey, rpos := m.rpos,
           eseq := m.eseq, epoch := m.epoch, spent := m.spent }

/-- Provenance of a block word (Table 2-15). -/
def blockProv (base : Word) (off : Nat) : Word :=
  BitVec.ofNat 64 (off <<< 52) ||| BitVec.ofNat 64 (wfield base 54 3)

/-- Provenance of an emitted word (Table 2-15). -/
def emitProv (pc eseq : Word) : Word :=
  BitVec.ofNat 64 (1 <<< 63) ||| BitVec.ofNat 64 (wfield eseq 9 0 <<< 53) ||| BitVec.ofNat 64 (wfield pc 54 2)

/-- The null provenance (R341). -/
abbrev nullProv : Word := 0x6000000000000000

/-- `vl` and `rc` of a word under a trim (R257). -/
def Trim.apply (t : Trim) (e : QEntry) : QEntry :=
  if e.epoch = t.epoch ∧ t.rank < e.rank then
    if t.row = 0 then { e with rc := 1, vl := if e.vl.toNat ≤ t.elem then e.vl else BitVec.ofNat 15 t.elem }
    else { e with rc := if e.rc.toNat ≤ t.row then e.rc else BitVec.ofNat 5 t.row }
  else e

/-- A stream-form `DRAW`: op 0x6F with fn[1:0] = 00 (R315). -/
def isStreamDraw (w : BitVec 64) : Bool := opOf w == 0x6F && field w.toNat 51 50 == 0

/-- `rpos` after `n` draw indices have been spent. Positions never wrap (R417): past the last index of its position the
stream is spent, and DRAW then reads 0 beside the same POS (log 62). -/
def Core.spendDraws (c : Core) (n : Nat) : Core :=
  let d := wfield c.rpos 23 0 + n
  { c with rpos := setField c.rpos 23 0 (d % 2 ^ 24), spent := decide (2 ^ 24 ≤ d) }

/-- Placement of a word: it carries what R14 and R17 name, takes a history entry, and a stream-form `DRAW` spends
`rc` draw indices (R316). -/
def Core.place (c : Core) (w : BitVec 64) (prov : Word) (more : Bool) : Core :=
  let c' := if isStreamDraw w then c.spendDraws c.rc.toNat else c
  let c' := { c' with rank := c.rank + 1 }
  let e : QEntry :=
    { word := w, prov := prov, pc := c.pc, rank := c.rank, vl := c.vl, rc := c.rc, vtype := c.vtype, slots := c.o,
      rkey := c.rkey, rpos := c.rpos, ven := c.ven, men := c.men, pen := c.pen, epoch := c.epoch, mark := c'.mark,
      more := more, restored := false, released := true, parked := false,
      passed := false, pins := [], aim := none, job := none, joined := [] }
  let q := queOf w
  let e := if q = .vec then (match c.trim with | some t => t.apply e | none => e) else e
  c'.setQueue (c'.queue q ++ [e]) q

/-- The next draw index: one past the last when the position is spent. -/
def Core.drawNext (c : Core) : Nat := if c.spent then 2 ^ 24 else wfield c.rpos 23 0

/-- Whether a stream-form `DRAW` would exhaust its position (R316, R382). -/
def Core.drawExhausts (c : Core) (w : BitVec 64) : Bool :=
  isStreamDraw w && decide (c.drawNext + c.rc.toNat - 1 > 2 ^ 24 - 1)

/-- The value that would have been passed (Table 20-1, cause 0x12). -/
def Core.drawPassed (c : Core) : Word :=
  BitVec.ofNat 64 (wfield c.rpos 63 24 * 2 ^ 24 + c.drawNext + c.rc.toNat - 1)

/-- A change of the queued word of this rank. -/
def Core.updEntry (c : Core) (rank : Nat) (f : QEntry → QEntry) : Core :=
  let g (e : QEntry) : QEntry := if e.rank = rank then f e else e
  { c with vec := c.vec.map g, mat := c.mat.map g, cpy := c.cpy.map g, col := c.col.map g }

/-- A word leaves its queue (it has retired or completed). -/
def Core.dropEntry (c : Core) (rank : Nat) : Core :=
  let keep (e : QEntry) : Bool := e.rank ≠ rank
  { c with vec := c.vec.filter keep, mat := c.mat.filter keep, cpy := c.cpy.filter keep, col := c.col.filter keep }

def Core.findEntry (c : Core) (rank : Nat) : Option (Que × QEntry) :=
  match c.vec.find? fun e => e.rank == rank, c.mat.find? fun e => e.rank == rank,
      c.cpy.find? fun e => e.rank == rank, c.col.find? fun e => e.rank == rank with
  | some e, _, _, _ => some (.vec, e)
  | _, some e, _, _ => some (.mat, e)
  | _, _, some e, _ => some (.cpy, e)
  | _, _, _, some e => some (.col, e)
  | _, _, _, _ => none

/-- The convoy that a vector-queue word stands in, as far as it has been placed: the queue is cut after each word with
C = 0 and after each fourth word (R163). -/
def convoyWith (rank : Nat) : List QEntry → List QEntry → List QEntry
  | acc, [] => acc.reverse
  | acc, e :: es =>
    if e.word.getLsbD 63 && decide (acc.length < 3) then convoyWith rank (e :: acc) es
    else if (e :: acc).any fun x => x.rank == rank then (e :: acc).reverse
    else convoyWith rank [] es

/-- The word in whose place R393 acts: the closing member of a vector word's convoy (R394). -/
def Core.closer (c : Core) (q : Que) (e : QEntry) : QEntry :=
  if q = .vec then ((convoyWith e.rank [] c.vec).getLast?).getD e else e

/-- A word's work is given up: it is unstarted again. -/
def QEntry.unstart (e : QEntry) : QEntry := { e with passed := false, pins := [], aim := none, job := none }

/-- The translations that a word's checks have found are gone: a word without work under way goes through its checks
again. -/
def QEntry.unpin (e : QEntry) : QEntry := if e.job.isNone then e.unstart else { e with pins := [] }

/-- Whether a word placed with these enable bits meets the first-use check (R39), and the cause. -/
def firstUse (e : QEntry) : Option (BitVec 8) :=
  let op := opOf e.word
  match queOf e.word with
  | .vec => if e.ven then none else some 0x14
  | .mat =>
    let tile := op < 0x6A
    let press := op == 0x68 || op == 0x69 || op == 0x6A || op == 0x6B || op == 0x6F
    if (tile && !e.men) || (press && !e.pen) then some 0x15 else none
  | _ => none

/-! ## Taking an exception (R386 to R404) -/

/-- Routes of Table 21-4. -/
inductive Route where
  | hart
  | kernel
  | both
  deriving DecidableEq, Repr

def routeOf (cause : BitVec 8) : Route :=
  if cause = 0x0A ∨ cause = 0x0B then .kernel
  else if cause = 0x09 ∨ cause = 0x16 ∨ cause = 0x18 ∨ cause = 0x19 ∨ cause = 0x1A then .both
  else .hart

/-- The record type of a cause (Table 21-4): 3 for a copy or collective word. -/
def recordType (cause : BitVec 8) (q : Option Que) : Nat :=
  if cause = 0x1A then 3
  else if (q = some .cpy ∨ q = some .col) ∧ (cause = 0x09 ∨ cause = 0x0A ∨ cause = 0x0B) then 3
  else 1

/-- Memory causes: bytes 48 to 55 of a record hold the provenance (Table 21-3). -/
def memoryCause (cause : BitVec 8) : Bool :=
  (8 ≤ cause.toNat && cause.toNat ≤ 0x0B) || (0x18 ≤ cause.toNat && cause.toNat ≤ 0x1A)

/-- Causes whose `tval` bytes Table 20-1 gives. -/
def tvalCause (cause : BitVec 8) : Bool :=
  cause.toNat ≤ 7 || cause.toNat == 0x0C || cause.toNat == 0x0D || cause.toNat == 0x0E || cause.toNat == 0x10 ||
    cause.toNat == 0x12 || cause.toNat == 0x21

/-- A word fault removes the words placed after it, applies the rewind log and sets `resoff` (R393, R394, R452). -/
def Core.unwind (c : Core) (rank : Nat) : Core :=
  match c.findEntry rank with
  | none => c
  | some (q, e) =>
    let last := c.closer q e
    let younger := (c.words.filter fun x => last.rank < x.rank && x.restored)
    let keep (x : QEntry) : Bool := decide (x.rank ≤ last.rank)
    let c := c.rewind last.mark
    let more := !last.restored && last.more
    let res : Word :=
      if last.restored then last.mark.resoff
      else if more then BitVec.ofNat 64 (2 ^ 9 + (wfield last.prov 60 52 + 1) % 512) else 0
    { c with vec := c.vec.filter keep, mat := c.mat.filter keep, cpy := c.cpy.filter keep,
             col := c.col.filter keep, restore := c.restore ++ younger, resoff := res }

/-- `tepc` of a report (Table 21-1, R394, R452). -/
def Core.tepcOf (c : Core) (k : TrapKind) : Word :=
  match k with
  | .word rank =>
    match c.findEntry rank with
    | none => c.pc
    | some (q, e) =>
      let last := c.closer q e
      if last.restored then (if last.mark.resoff.getLsbD 9 then last.pc else last.pc - 4) else last.pc
  | _ => c.pc

/-- The word that a report names, with its queue. -/
def Core.reported (c : Core) : TrapKind → Option (Que × QEntry)
  | .word rank => c.findEntry rank
  | .deferred rank => c.findEntry rank
  | _ => none

/-- `tcause` of a report: CAUSE, WF, QUE (Table 2-16, Table 21-1). -/
def tcauseOf (cause : BitVec 8) (k : TrapKind) (q : Option Que) : Word :=
  let wf : Nat := match k with
    | .word _ => 1
    | _ => 0
  BitVec.ofNat 64 (cause.toNat + wf * 256 + ((q.map Que.code).getD 0) * 512)

/-- `tprov` of a report. -/
def tprovOf (k : TrapKind) (e : Option QEntry) : Word :=
  match k with
  | .stop p => p
  | .generator => nullProv
  | _ => (e.map QEntry.prov).getD nullProv

/-- An open region is abandoned (R269): held stores are dropped, stream positions, `brk` and `brkp` return, and the
region's words stand in the queue again, unstarted. -/
def Core.abandon (c : Core) : Core :=
  match c.region with
  | none => c
  | some r =>
    let c := c.unheld
    { c with q := .ofFn fun i => { c.q[i] with pos := r.pos[i] }, brk := r.brk, brkp := r.brkp,
             vec := r.retired.map QEntry.unstart ++ c.vec, region := none, lgs := .replicate 4 0,
             cmv := setField (setBit c.cmv 0 false) 13 8 0 }

/-- Every placed word marked as parked, or released. -/
def Core.setParked (c : Core) (b : Bool) : Core :=
  let f (e : QEntry) : QEntry := { e with parked := b }
  { c with vec := c.vec.map f, mat := c.mat.map f, cpy := c.cpy.map f, col := c.col.map f }

/-- Trap entry has written its record: the Last goes on at `tvec`, or the kernel holds the hart. -/
def Core.enter (c : Core) (stop : Option KStop) : Core :=
  match stop with
  | none => { c with pc := BitVec.ofNat 64 (wfield c.t.tvec 54 2 * 4), trapWait := none }
  | some k => { c with stopped := some k, trapWait := none }

/-- The record of a trap, which entry waits to write (R404). -/
def State.postTrap (s : State) (r : Record) (stop : Option KStop) : State :=
  match s.dev.tryPush s.ctxId r with
  | some d => { s with dev := d, core := s.core.enter stop }
  | none => s.withCore fun c => { c with trapWait := some ⟨r, stop⟩ }

/-- What a report leaves of the work on a core: the hamper limit abandons the region before it is reported (R383), an open
convoy at a conflict of the Last leaves the queue (R376), a word fault removes the younger words (R393), the access of the
Last is given up with those of the words that are removed, an ownership failure freezes the hart (R415), a `WFE` ends, and what
the head convoy has read of steps that it has not retired is read again (R31, R59). -/
def Core.givenUp (c : Core) (t : TrapReq) : Core :=
  let c := if t.cause = 0x10 then c.abandon else c
  let c := if t.cause = 0x04 ∧ t.kind = .generator then
      { c with vec := c.vec.take (c.vec.length - c.openConvoy.length) } else c
  let c := match t.kind with
    | .word rank => c.unwind rank
    | _ => c
  { c with
    batches := c.batches.filter fun b =>
      match t.kind, b.owner with
      | _, .last => false
      | .word rank, .word r => decide (r < rank)
      | .stop _, _ => t.cause ≠ 0x16
      | _, _ => true
    frozenHart := c.frozenHart || t.cause == 0x0A || t.cause == 0x0B
    early := [], maskRead := none, wfe := false }

/-- The trap words, MODE and PM as entry writes them, with every placed word parked (R387). A `VFETCH` under way goes on only
when an `ERET` names it (R50); a trap 0x17 stops the grace timer (R423). -/
def Core.trapTaken (c : Core) (t : TrapReq) (tepc tcause prov : Word) : Core :=
  let c := { c with
    t := { c.t with tepc := tepc &&& 0x7FFFFFFFFFFFFC, tcause := tcause, tprov := prov, tval := t.tval }
    hstat := setBit (setBit c.hstat 1 c.kmode) 0 true
    graceHeld := c.graceHeld || (t.cause = 0x17) }
  { c.setParked true with midFetch := none }

/-- TAKING AN EXCEPTION (R387): the work that the report gives up is gone; the trap words are written, MODE becomes K and PM
the old mode; the stop record is traced; and the hart goes on at `tvec`, or the kernel holds it. In K mode, or with `tvec` 0,
a trap of the hart's own handler goes to the kernel alone and changes none of the trap words (R389). -/
def takeTrap (s : State) (t : TrapReq) : State :=
  let c := s.core
  let rep := c.reported t.kind
  let q := rep.map Prod.fst
  let prov := if t.cause = 0x04 ∧ t.kind = .generator then ((c.openConvoy.head?).map QEntry.prov).getD nullProv
    else tprovOf t.kind (rep.map Prod.snd)
  let tepc := c.tepcOf t.kind
  let tcause := tcauseOf t.cause t.kind q
  let route := routeOf t.cause
  let nest := route ≠ .kernel && (c.kmode || wfield c.t.tvec 54 2 == 0)
  let c := c.givenUp t
  let c := if nest then c else c.trapTaken t tepc tcause prov
  let s := { s with core := c }
  let s := s.trace 3 3 tepc prov tcause 0
  let krn := nest || route = .kernel
  let host := s.dev.split.getLsbD 1
  let stop : Option KStop := if krn then some ⟨t.cause, nest, tepc, host⟩ else none
  let s := if krn && !nest && host then s.withDev fun d => { d with posted := d.posted ++ [.trap s.core.num] } else s
  if route = .hart && !nest then { s with core := s.core.enter none }
  else
    let deff : Bool := match t.kind with
      | .deferred _ => true
      | _ => false
    let who := s.whoWord
    let (st, s) := s.stamp
    let w0 : Word := BitVec.ofNat 64 (recordType t.cause q <<< 60 + deff.toNat <<< 51 + nest.toNat <<< 50 +
      krn.toNat <<< 49) ||| (tcause &&& 0xFFF)
    let w6 : Word := if tvalCause t.cause || (nest && t.cause = 0x11) then t.tval else if memoryCause t.cause then prov else 0
    s.postTrap #v[w0, who, tepc, prov, t.addr, s.core.lgsWord, w6, st] stop

/-- A generator fault (R366): the S-word has no effect, and the trap is taken at it. -/
def genFault (s : State) (cause : BitVec 8) (tval : Word) (addr : Word) : State :=
  takeTrap s ⟨.generator, cause, tval, addr⟩

/-- RETURN FROM AN EXCEPTION (R189, R388, R395, R434, R452): MODE := PM; parked words are stamped anew with the
enable bits and may start in U mode; the restore list is placed back; the Last goes on where the report says. With
`resoff`.V = 1 a `VFETCH` there goes on at OFF (R50); an S-word there that is no `VFETCH` runs as ever and leaves `resoff`
(log 63). The grace timer of a pre-emption request runs on once the mode is U (R423). A word that `VQLOAD` placed takes
its mark and address from the `ERET` that releases it, and the oldest that fails the first-use check traps at once; the
next `ERET` then releases those that stay once more, and checks them again. Publications wait no longer for words that `VQSAVE` wrote
out and no `VQLOAD` has brought back (log 29). -/
def eret (s : State) : State :=
  let c := s.core
  let resume : Word := if c.t.tcause.getLsbD 8 && !c.resoff.getLsbD 9 then c.t.tepc + 4 else c.t.tepc
  let c : Core :=
    { c with
      hstat := setBit c.hstat 0 c.pm, pc := resume, graceHeld := c.graceHeld && c.pm,
      midFetch := if c.resoff.getLsbD 9 then some resume else none,
      saved := c.saved.map fun x => { x with live := false },
      barAw := c.barAw.filter fun a => a == resume, launching := c.launching.filter fun x => x.1 == resume }
  let fresh (e : QEntry) : Bool := e.restored && !e.released && !c.kmode
  let back : List QEntry := c.restore.map fun e => { e with released := false, parked := true }
  let add (q : Que) (l : List QEntry) : List QEntry := l ++ back.filter fun e => queOf e.word == q
  let c := { c with vec := add .vec c.vec, mat := add .mat c.mat, cpy := add .cpy c.cpy, col := add .col c.col,
                    restore := [] }
  let released := (c.words.filter fresh)
  let stampW (e : QEntry) : QEntry :=
    let e := if e.parked then { e with ven := c.ven, men := c.men, pen := c.pen, parked := c.kmode } else e
    if fresh e then { e with released := true, pc := resume, mark := c.mark } else e
  let c := { c with vec := c.vec.map stampW, mat := c.mat.map stampW, cpy := c.cpy.map stampW, col := c.col.map stampW }
  let s := { s with core := c }
  let failing := released.filterMap fun e => (firstUse (stampW e)).map fun cause => (e.rank, cause)
  match failing with
  | [] => s
  | f :: fs =>
    let oldest := fs.foldl (fun a b => if b.1 < a.1 then b else a) f
    (takeTrap s ⟨.word oldest.1, oldest.2, 0, 0⟩).withCore fun c =>
      released.foldl (fun c x => c.updEntry x.rank fun e => { e with released := false }) c

/-! ## Page requests (R409 to R413) -/

/-- One slot of a type-2 record (Table 22-1). -/
def batchSlot (p : Option PageReq) (idx nrec : Nat) : Word :=
  match p with
  | none => 0
  | some p => BitVec.ofNat 64 (1 <<< 63 + p.kind <<< 61 + p.hp.toNat <<< 60 + (p.page % 2 ^ 39) <<< 16 + idx <<< 4 + nrec)

/-- The records of a batch: three slots each, and a stamp of its own (R349). -/
def batchRecords (w0 who tepc tprov : Word) (pages : List PageReq) (sts : List Word) : List Record :=
  let n := (pages.length + 2) / 3
  sts.zipIdx.map fun x =>
    let g := pages.drop (3 * x.2)
    #v[w0, who, tepc, tprov, batchSlot g[0]? x.2 (n - 1), batchSlot g[1]? 0 0, batchSlot g[2]? 0 0, x.1]

/-- Stamps of several records of the focused core, in turn. -/
def State.stamps : Nat → State → List Word × State
  | 0, s => ([], s)
  | n + 1, s =>
    let r := s.stamp
    let t := r.2.stamps n
    (r.1 :: t.1, t.2)

/-- Records written together, or none of them. -/
def Device.pushAll (d : Device) (id : Nat) : List Record → Option Device
  | [] => some d
  | r :: rs =>
    match d.tryPush id r with
    | none => none
    | some d => d.pushAll id rs

/-- Post the batch of an owner: its records go to the trap ring (or the batch waits without a number), and with
PFS = 1 to the host (R411, R412). -/
def State.postBatch (s : State) (o : Owner) (pages : List PageReq) : State :=
  let rep := match o with
    | .last => none
    | .word r => s.core.findEntry r
  let (wf, que, pc, prov) : Nat × Nat × Word × Word := match rep with
    | none => (0, 0, s.core.pc, nullProv)
    | some (q, e) => (1, q.code, e.pc, e.prov)
  let rest := s.core.batches.filter fun b => b.owner ≠ o
  let lost := s.core.batches.any fun b => b.owner == o && b.lost
  let put (seq : Option Nat) (s : State) : State :=
    s.withCore fun c => { c with batches := rest ++ [⟨o, pages, seq, false, seq.isNone && lost⟩] }
  let d := s.dev.payLost s.ctxId
  match d.ctx s.ctxId with
  | none => put none s
  | some c =>
    if d.ringRoom c < (pages.length + 2) / 3 then put none { s with dev := d }
    else
      let (sts, s') := s.stamps ((pages.length + 2) / 3)
      let recs := batchRecords (BitVec.ofNat 64 (2 <<< 60 + que * 512 + wf * 256 + 8)) s.whoWord pc prov pages sts
      let seq := d.ringProd c
      match d.pushAll s.ctxId recs with
      | none => put none { s with dev := d }
      | some d =>
        let d := if s.dev.split.getLsbD 0 then { d with posted := d.posted ++ [.batch s.ctxId seq] } else d
        put (some seq) { s' with dev := d }

/-- What the pages that failed with WHY 1 come to (R410, R413): `none` when the page the access needs has been
refused, otherwise a wait, with the batch posted if none is out. -/
def State.pageWait (s : State) (o : Owner) (pages : List PageReq) : Option Stop :=
  match s.core.batches.find? fun b => b.owner == o with
  | some b =>
    if b.refused then
      if pages.any fun p => b.pages.any fun p' => p'.page == p.page then none
      else some (.wait (some (o, pages.take 16)))
    else if b.seq.isSome then some (.wait none)
    else some (.wait (some (o, b.pages)))
  | none => some (.wait (some (o, pages.take 16)))

/-- The state that a wait leaves: nothing has happened but the posting of its page requests. -/
def State.waiting (s : State) (post : Option (Owner × List PageReq)) : State :=
  match post with
  | none => s
  | some (o, pages) => s.postBatch o pages

/-- The host has refused the page of an access of this owner: the access fails, whatever the tables say by now (R413). -/
def State.refusedPage (s : State) (o : Owner) (va : Word) : Bool :=
  s.core.batches.any fun b => b.owner == o && b.refused && b.pages.any fun p => p.page == wfield va 54 16

/-- An access of the Last or of a word: the checks of `probe`, after the answer to its page request. -/
def probeFor (s : State) (o : Owner) (va : Word) (n : Nat) (k : Acc) (spec : Bool) : Except Fail (Place × Nat × State) :=
  if !spec && s.refusedPage o va then .error (.page false) else probe s va n k spec

/-- The page request of an access that failed. -/
def pageReq (va : Word) (k : Acc) (hp : Bool) : PageReq := ⟨wfield va 54 16, k.code, hp⟩

/-- Cause of a failure that a plain access reports (R90, R409, R414, R419, R408). -/
def Fail.cause : Fail → BitVec 8
  | .noAddr | .page _ => 0x08
  | .owner sealed => if sealed then 0x0B else 0x0A
  | .poison => 0x19
  | .watch => 0x21
  | _ => 0x09

/-- What a failed access of the Last or of a word becomes. -/
def State.failStop (s : State) (o : Owner) (va : Word) (k : Acc) (step : Nat) (f : Fail) : Stop :=
  match f with
  | .page hp =>
    match s.pageWait o [pageReq va k hp] with
    | some w => w
    | none => .stop ⟨0x08, va, va, step⟩
  | .migrating => .wait none
  | .poison => .deferred ⟨0x19, va, va, step⟩
  | f => .stop ⟨f.cause, va, va, step⟩

/-! ## Scalar and element accesses -/

/-- A load of the Last or of a word at a virtual address (R65 `Mem`): value and state. -/
def load (s : State) (o : Owner) (va : Word) (n step : Nat) : Except Stop (Nat × State) :=
  match probeFor s o va n .read false with
  | .error f => .error (s.failStop o va .read step f)
  | .ok (p, _, s') =>
    if s.poisoned p then .error (.deferred ⟨0x19, va, va, step⟩) else .ok (s'.readPlace p n, s')

/-- A store at a virtual address. -/
def store (s : State) (o : Owner) (va : Word) (n v step : Nat) : Except Stop State :=
  match probeFor s o va n .write false with
  | .error f => .error (s.failStop o va .write step f)
  | .ok (p, _, s') => .ok (s'.writePlace p n v)

/-! ## Fetching (R197, R198) -/

/-- The line number that a fetch cache keeps for a place: host memory lies above device memory. -/
def fetchLine : Place → Nat
  | .dram a => lineOf a
  | .host a => 2 ^ 58 + lineOf a
  | _ => 2 ^ 60

/-- `n` bytes fetched through the instruction cache, or the block cache when `blk`: a kept copy is used, and a line
that is not kept is read and kept (R198); a full cache drops the line that it has kept longest (R10, log 4). -/
def fetchBytes (s : State) (blk : Bool) (va : Word) (n : Nat) : Except Fail (Nat × State) :=
  match probeFor s .last va n .fetch false with
  | .error f => .error f
  | .ok (p, _, s) =>
    let line := fetchLine p
    let kept := if blk then s.core.bcache else s.core.icache
    let pick (x : BitVec 512) : Nat := (x.toNat >>> (8 * (va.toNat % 64))) % 2 ^ (8 * n)
    match kept.find? fun l => l.1 == line with
    | some l => if s.core.poison.contains (.fetch blk line) then .error .poison else .ok (pick l.2, s)
    | none =>
      let base : Option Place := match p with
        | .dram a => some (.dram (a / 64 * 64))
        | .host a => some (.host (a / 64 * 64))
        | _ => none
      match base with
      | none => .error .device
      | some b =>
        if s.poisoned p then .error .poison
        else
          let x := BitVec.ofNat 512 (ofBytes (s.bytesAt 64 b))
          let c := { s.core with poison := s.core.poison.filter fun p => p != Poison.fetch blk line }
          .ok (pick x, { s with core :=
            if blk then { c with bcache := ((line, x) :: c.bcache).take Config.bcacheLines }
            else { c with icache := ((line, x) :: c.icache).take Config.icacheLines } })

/-- An acquire or full fence at cluster scope or wider discards the kept lines (R198, Table 4-4). -/
def State.discardFetched (s : State) (sc : Scope) : State :=
  match sc with
  | .hart | .core => s
  | _ => s.withCore fun c => { c with icache := [], bcache := [] }

/-- The S-word has not completed: the Last tries it again (R34). -/
def State.stall (s : State) : State := s.withCore fun c => { c with why := some (.wait none) }

/-- What a stopped access of an S-word does: a generator fault, a deferred fault of the Last, or a wait. -/
def lastStop (s : State) : Stop → Result
  | .stop i => .next (genFault s i.cause i.tval i.addr)
  | .deferred i => .next (takeTrap s ⟨.deferred s.core.rank, i.cause, i.tval, i.addr⟩)
  | .hold => .next s.stall
  | .wait post => .next ((s.waiting post).withCore fun c => { c with why := some (.wait post) })

end Sys2Proof.Machine
end

