-- ==== Sys2Proof/Machine/Integer.lean ====
section
/-! DEFINITION. Integer arithmetic, immediates and bit fields of the Last (spec/07_generator_instructions.md R178 to
R181, Tables 7-1 and 7-2; spec/20 Table 20-4 code 15). -/

namespace Sys2Proof.Machine

/-- The S-word writes `s[d]` and the Last goes on. -/
def yields (d : BitVec 5) (v : Word) (s : State) : Result := .next (writeNext s d v)

/-- A condition as a word. -/
def boolWord (b : Bool) : Word := if b then 1 else 0

/-- Leading zero bits (Table 7-1). -/
def clz (x : Word) : Word := if x = 0 then 64 else BitVec.ofNat 64 (63 - x.toNat.log2)

/-- Trailing zero bits (Table 7-1): the lowest set bit's number, or 64. -/
def ctz (x : Word) : Word := BitVec.ofNat 64 (((List.range 64).find? fun i => x.getLsbD i).getD 64)

/-- One bits (Table 7-1). -/
def popc (x : Word) : Word := BitVec.ofNat 64 ((List.range 64).countP fun i => x.getLsbD i)

/-- The signed quotient, rounded toward zero; R179 at a zero divisor and at overflow. -/
def divS (a b : Word) : Word := if b = 0 then -1 else BitVec.ofInt 64 (a.toInt.tdiv b.toInt)
/-- The unsigned quotient (R179). -/
def divU (a b : Word) : Word := if b = 0 then -1 else a / b
/-- The signed remainder, with the sign of a (R179). -/
def remS (a b : Word) : Word := if b = 0 then a else BitVec.ofInt 64 (a.toInt.tmod b.toInt)
/-- The unsigned remainder (R179). -/
def remU (a b : Word) : Word := if b = 0 then a else a % b

/-- Bits [127:64] of a product of two integers. -/
def mulHigh (a b : Int) : Word := BitVec.ofInt 64 ((a * b) / ((2 ^ 64 : Nat) : Int))

/-- A word over two registers. -/
def alu2 (f : Word → Word → Word) (d a b : BitVec 5) (s : State) : Result := yields d (f (readS s a) (readS s b)) s

def execAdd (d a b : BitVec 5) (s : State) : Result := alu2 (· + ·) d a b s
def execSub (d a b : BitVec 5) (s : State) : Result := alu2 (· - ·) d a b s
def execAnd (d a b : BitVec 5) (s : State) : Result := alu2 (· &&& ·) d a b s
def execOr (d a b : BitVec 5) (s : State) : Result := alu2 (· ||| ·) d a b s
def execXor (d a b : BitVec 5) (s : State) : Result := alu2 (· ^^^ ·) d a b s
def execShl (d a b : BitVec 5) (s : State) : Result := alu2 (fun x y => x <<< (y.toNat % 64)) d a b s
def execShr (d a b : BitVec 5) (s : State) : Result := alu2 (fun x y => x >>> (y.toNat % 64)) d a b s
def execSar (d a b : BitVec 5) (s : State) : Result := alu2 (fun x y => x.sshiftRight (y.toNat % 64)) d a b s
def execSlt (d a b : BitVec 5) (s : State) : Result := alu2 (fun x y => boolWord (x.slt y)) d a b s
def execSltn (d a b : BitVec 5) (s : State) : Result := alu2 (fun x y => boolWord (x.ult y)) d a b s
def execMin (d a b : BitVec 5) (s : State) : Result := alu2 (fun x y => if x.slt y then x else y) d a b s
def execMax (d a b : BitVec 5) (s : State) : Result := alu2 (fun x y => if x.slt y then y else x) d a b s
def execMinn (d a b : BitVec 5) (s : State) : Result := alu2 (fun x y => if x.ult y then x else y) d a b s
def execMaxn (d a b : BitVec 5) (s : State) : Result := alu2 (fun x y => if x.ult y then y else x) d a b s
def execClz (d a : BitVec 5) (s : State) : Result := yields d (clz (readS s a)) s
def execCtz (d a : BitVec 5) (s : State) : Result := yields d (ctz (readS s a)) s
def execPopc (d a : BitVec 5) (s : State) : Result := yields d (popc (readS s a)) s
def execMul (d a b : BitVec 5) (s : State) : Result := alu2 (· * ·) d a b s
def execMulh (d a b : BitVec 5) (s : State) : Result := alu2 (fun x y => mulHigh x.toInt y.toInt) d a b s
def execMulhn (d a b : BitVec 5) (s : State) : Result := alu2 (fun x y => mulHigh x.toNat y.toNat) d a b s
def execDiv (d a b : BitVec 5) (s : State) : Result := alu2 divS d a b s
def execDivn (d a b : BitVec 5) (s : State) : Result := alu2 divU d a b s
def execRem (d a b : BitVec 5) (s : State) : Result := alu2 remS d a b s
def execRemn (d a b : BitVec 5) (s : State) : Result := alu2 remU d a b s

def execAddi (d a : BitVec 5) (imm : BitVec 16) (s : State) : Result := yields d (readS s a + sextImm imm) s
def execAndi (d a : BitVec 5) (imm : BitVec 16) (s : State) : Result := yields d (readS s a &&& zextImm imm) s
def execOri (d a : BitVec 5) (imm : BitVec 16) (s : State) : Result := yields d (readS s a ||| zextImm imm) s
def execXori (d a : BitVec 5) (imm : BitVec 16) (s : State) : Result := yields d (readS s a ^^^ zextImm imm) s
def execShli (d a : BitVec 5) (amt : BitVec 6) (s : State) : Result := yields d (readS s a <<< amt.toNat) s
def execShri (d a : BitVec 5) (amt : BitVec 6) (s : State) : Result := yields d (readS s a >>> amt.toNat) s
def execSari (d a : BitVec 5) (amt : BitVec 6) (s : State) : Result := yields d ((readS s a).sshiftRight amt.toNat) s
def execSlti (d a : BitVec 5) (imm : BitVec 16) (s : State) : Result :=
  yields d (boolWord ((readS s a).slt (sextImm imm))) s
def execLih (d : BitVec 5) (imm : BitVec 16) (s : State) : Result := yields d (sextImm imm <<< 16) s
def execAddpc (d : BitVec 5) (imm : BitVec 16) (s : State) : Result := yields d (s.core.pc + (sextImm imm <<< 16)) s

/-- An operand limit of an S-word (code 15, R378), with the value beyond the limit, or 0 where the condition is no
single value (Table 20-1; log 12). -/
def operandStop (s : State) (v : Nat) : State := genFault s 0x05 (BitVec.ofNat 64 (15 + (v % 2 ^ 32) <<< 32)) 0

/-- A bit field of *n* = `len` + 1 bits at *p* = `pos`, when it fits (R181). -/
def onField (pos len : BitVec 6) (s : State) (k : Nat → Nat → Result) : Result :=
  if pos.toNat + (len.toNat + 1) ≤ 64 then k pos.toNat (len.toNat + 1) 
  else .next (operandStop s (pos.toNat + (len.toNat + 1)))

def execIns (d a : BitVec 5) (pos len : BitVec 6) (s : State) : Result :=
  onField pos len s fun p n => yields d (setField (readS s d) (p + n - 1) p (wfield (readS s a) (n - 1) 0)) s
def execExt (d a : BitVec 5) (pos len : BitVec 6) (s : State) : Result :=
  onField pos len s fun p n => yields d (BitVec.ofNat 64 (wfield (readS s a) (p + n - 1) p)) s
def execExts (d a : BitVec 5) (pos len : BitVec 6) (s : State) : Result :=
  onField pos len s fun p n => yields d (sext n (wfield (readS s a) (p + n - 1) p)) s

end Sys2Proof.Machine
end

