-- ==== Sys2Proof/Machine/ScalarMemory.lean ====
section
/-! DEFINITION. Scalar loads, stores, parameter windows and atomics of the Last (spec/07 R182 to R186), and the scope
checker that atomics report to (spec/25 R437 to R439). -/

namespace Sys2Proof.Machine

/-! ## Waits of the Last -/

/-- What a release by the Last waits for (R134, notes 5 and 6): earlier vector-queue words, the stores that an open region
holds (R146), and at core scope and wider earlier copy and collective words. -/
def Core.released (c : Core) (sc : Scope) : Bool :=
  c.vec.isEmpty && (c.region.all fun r => r.held.isEmpty) && (sc == .hart || (c.cpy.isEmpty && c.col.isEmpty))

/-- The convoy conflict of R376, with its KIND. -/
def openStop (s : State) (kind : Nat) : State :=
  genFault s 0x04 (BitVec.ofNat 64 (s.core.openConvoy.length <<< 16 + kind <<< 8)) 0

/-- A vector-queue word that reads memory: a load, an atomic, a translation, or `SOPEN` with the record in memory. -/
def readsMemory (w : BitVec 64) : Bool :=
  [0x48, 0x4A, 0x4B, 0x4C, 0x4D, 0x53, 0x54].contains (opOf w) || (opOf w == 0x55 && field w.toNat 51 50 == 1)

/-- What an acquire fence waits for (R135): the earlier loads of the scope. The stores that a region holds are none. -/
def Core.loaded (c : Core) (sc : Scope) : Bool :=
  c.vec.all (fun e => !readsMemory e.word) && (sc == .hart || (c.cpy.isEmpty && c.col.isEmpty))

/-- An S-word that orders earlier accesses: an open convoy is a conflict (R163), and the Last waits until they are done. -/
def ordering (done : Bool) (kind : Nat) (s : State) (k : Result) : Result :=
  if !s.core.openConvoy.isEmpty then .next (openStop s kind)
  else if done then k
  else .next s.stall

/-- A release-like S-word. -/
def releasing (sc : Scope) (kind : Nat) (s : State) (k : Result) : Result := ordering (s.core.released sc) kind s k

/-- A data access of the Last to a page with ATTR = 2 is committing (R391). -/
def heldDevice (s : State) (va : Word) (n : Nat) (k : Acc) : Bool :=
  match probe s va n k false with
  | .ok (_, attr, _) => attr == 2 && !s.core.gate
  | .error _ => false

/-! ## Loads and stores (R182) -/

/-- The address of a scalar access. -/
def ea (s : State) (a : BitVec 5) (off : BitVec 16) : Word := readS s a + sextImm off

/-- A misaligned address (cause 0x06, Table 20-1). -/
def misaligned (s : State) (va : Word) : State := genFault s 0x06 va va

/-- A scalar load of `n` bytes; `conv` extends the value. -/
def loadReg (n : Nat) (conv : Nat → Word) (d a : BitVec 5) (off : BitVec 16) (s : State) : Result :=
  let va := ea s a off
  if va.toNat % n ≠ 0 then .next (misaligned s va)
  else if heldDevice s va n .read then .next s.stall
  else
    match load s .last va n 0 with
    | .error e => lastStop (s.touched va n .read) e
    | .ok (v, s') => .next (writeNext s' d (conv v))

/-- A scalar store of the low `n` bytes of `s[b]`, past the commit gate (R391). -/
def storeReg (n : Nat) (b a : BitVec 5) (off : BitVec 16) (s : State) : Result :=
  let va := ea s a off
  if va.toNat % n ≠ 0 then .next (misaligned s va)
  else
    match store s .last va n (readS s b).toNat 0 with
    | .error e => lastStop (s.touched va n .write) e
    | .ok s' => if s.core.gate then .next s'.advance else .next s.stall

def execLd8 (d a : BitVec 5) (imm : BitVec 16) (s : State) : Result := loadReg 1 (sext 8) d a imm s
def execLd16 (d a : BitVec 5) (imm : BitVec 16) (s : State) : Result := loadReg 2 (sext 16) d a imm s
def execLd32 (d a : BitVec 5) (imm : BitVec 16) (s : State) : Result := loadReg 4 (sext 32) d a imm s
def execLd64 (d a : BitVec 5) (imm : BitVec 16) (s : State) : Result := loadReg 8 (BitVec.ofNat 64) d a imm s
def execLdn8 (d a : BitVec 5) (imm : BitVec 16) (s : State) : Result := loadReg 1 (BitVec.ofNat 64) d a imm s
def execLdn16 (d a : BitVec 5) (imm : BitVec 16) (s : State) : Result := loadReg 2 (BitVec.ofNat 64) d a imm s
def execLdn32 (d a : BitVec 5) (imm : BitVec 16) (s : State) : Result := loadReg 4 (BitVec.ofNat 64) d a imm s
def execSt8 (b a : BitVec 5) (off : BitVec 16) (s : State) : Result := storeReg 1 b a off s
def execSt16 (b a : BitVec 5) (off : BitVec 16) (s : State) : Result := storeReg 2 b a off s
def execSt32 (b a : BitVec 5) (off : BitVec 16) (s : State) : Result := storeReg 4 b a off s
def execSt64 (b a : BitVec 5) (off : BitVec 16) (s : State) : Result := storeReg 8 b a off s

/-- The parameter window *N* of the hart's gang: base and bytes, when the descriptor bound it (R184, Table 12-1). -/
def State.window (s : State) (n : BitVec 3) : Option (Word × Nat) :=
  match s.gang with
  | none => none
  | some g =>
    let w := g.desc.wins[n.toNat]
    if w.2 = 0 then none else some (w.1, w.2.toNat)

/-- `LDW` (R184): 0x06 for the offset or the base, then 0x0D unbound, then 0x0C beyond the bound (R368). -/
def execLdw (d : BitVec 5) (n : BitVec 3) (off : BitVec 16) (s : State) : Result :=
  let tv : Word := BitVec.ofNat 64 (n.toNat + off.toNat <<< 16)
  let win := s.window n
  let base : Word := (win.map Prod.fst).getD 0
  let va := base + zextImm off
  if off.toNat % 8 ≠ 0 || (win.isSome && base.toNat % 8 != 0) then .next (misaligned s va)
  else
    match win with
    | none => .next (genFault s 0x0D tv 0)
    | some (_, bound) =>
      if off.toNat + 8 > bound then .next (genFault s 0x0C tv 0)
      else if heldDevice s va 8 .read then .next s.stall
      else
        match load s .last va 8 0 with
        | .error e => lastStop (s.touched va 8 .read) e
        | .ok (v, s') => .next (writeNext s' d (BitVec.ofNat 64 v))

/-! ## The scope checker (R436 to R439) -/

/-- The same hart, on whatever core it stands. -/
def sameHart (x y : Word × Word) : Bool := wfield x.1 15 0 == wfield y.1 15 0 && wfield x.2 7 0 == wfield y.2 7 0

/-- Whether a scope of the hart `x` holds the hart `y`; each is (`gid`, `hid`) (Table 5-1). -/
def scopeHolds (sc : Scope) (x y : Word × Word) : Bool :=
  let core (h : Word) : Nat := wfield h 29 16
  sameHart x y ||
    match sc with
    | .hart => false
    | .core => core x.2 == core y.2
    | .clus => core x.2 / 8 == core y.2 / 8
    | .dev => wfield x.2 29 24 == wfield y.2 29 24
    | .sys => true

def scopeCode : Scope → Nat
  | .hart => 0
  | .core => 1
  | .clus => 2
  | .dev => 3
  | .sys => 4

/-- The smallest scope that holds both harts. -/
def scopeNeeded (x y : Word × Word) : Scope :=
  ([Scope.hart, .core, .clus, .dev].find? fun sc => scopeHolds sc x y).getD .sys

def Core.who (c : Core) : Word × Word := (c.gid, c.hid)

/-- The scope checker checks this kind (bit 1 watermark, bit 2 atomic) in the hart's context (Table 25-1). -/
def State.checksScope (s : State) (bit : Nat) : Bool :=
  s.dev.scopeCtl.getLsbD 0 && s.dev.scopeCtl.getLsbD bit && wfield s.dev.scopeCtl 23 13 == s.ctxId

/-- A type-4 record about the focused hart as the later party (R439, Table 25-2). -/
def State.scopeReport (s : State) (kind : Nat) (pc prov addr : Word) (earlier : Word × Word) (used : Scope) (wm : Nat) :
    State :=
  let who := s.whoWord
  let (st, s) := s.stamp
  let need := scopeNeeded earlier s.core.who
  let w5 : Word := BitVec.ofNat 64 (wfield earlier.1 15 0 <<< 32 + wfield earlier.2 29 0)
  let w6 : Word := BitVec.ofNat 64 (kind <<< 61 + scopeCode used <<< 56 + scopeCode need <<< 53 + wm)
  s.withDev fun d => d.pushOrWait s.ctxId #v[BitVec.ofNat 64 (4 <<< 60), who, pc, prov, addr, w5, w6, st]

/-- The line that an atomic reaches, as the checker keeps it: host lines lie above device lines. -/
def atomicLine (p : Place) : Nat := fetchLine p

/-- An atomic at a place, seen by the scope checker (R438): the pair kept for the line is compared and replaced. Cycles are
free: whether the pair is still within its 65,536 is a free choice (log 11). -/
def State.checkAtomic (s : State) (p : Place) (sc : Scope) (pc prov : Word) : State :=
  if !s.checksScope 2 then s
  else
    let line := atomicLine p
    let me := s.core.who
    let kept := s.dev.atomics.find? fun e => e.1 == line
    let s := match kept with
      | some (_, sc', g, h) =>
        let here := Config.withinWindow s.free
        let s := { s with free := s.free + 1 }
        if !here || scopeHolds sc me (g, h) && scopeHolds sc' (g, h) me then s
        else s.scopeReport 2 pc prov (BitVec.ofNat 64 (line * 64)) (g, h) sc' 0
      | none => s
    s.withDev fun d => { d with atomics := (line, sc, me.1, me.2) :: d.atomics.filter fun e => e.1 ≠ line }

/-! ## Atomics (R185, R186) -/

/-- The operations of Table 6-5 on `w`-bit values; `AMO_CAS` stands beside them. -/
inductive AmoOp where
  | add | swp | min | max | minn | maxn | and | or | xor
  deriving DecidableEq, Repr

def AmoOp.apply (op : AmoOp) (w old x : Nat) : Nat :=
  match op with
  | .add => (old + x) % 2 ^ w
  | .swp => x
  | .min => if toSigned w x < toSigned w old then x else old
  | .max => if toSigned w old < toSigned w x then x else old
  | .minn => if x < old then x else old
  | .maxn => if old < x then x else old
  | .and => old &&& x
  | .or => old ||| x
  | .xor => old ^^^ x

/-- An access that reads and writes at once: the old value, and the state with the new value stored when there is
one (R137, R185). The scope checker sees those of `AMO` words, which give their scope (R438). -/
def amoAt (s : State) (o : Owner) (va : Word) (n step : Nat) (sc : Option Scope) (f : Nat → Option Nat) :
    Except Stop (Nat × State) :=
  match probeFor s o va n .atomic false with
  | .error e => .error (s.failStop o va .atomic step e)
  | .ok (p, _, s') =>
    if s.poisoned p then .error (.deferred ⟨0x19, va, va, step⟩)
    else
      let old := s'.readPlace p n
      let s' := match sc with
        | some sc => s'.checkAtomic p sc s.core.pc nullProv
        | none => s'
      .ok (old, match f old with
        | none => s'
        | some new => s'.writePlace p n new)

/-- `AMO` (R185): alignment, then the waits of a release (R134) and of the commit gate (R391), then the access; an
acquire discards fetched copies (R133). A misaligned address comes before an open convoy (log 65). -/
def amo (d a : BitVec 5) (size ord : BitVec 2) (sc : Scope) (s : State) (f : Nat → Nat → Option Nat) : Result :=
  let n := 2 ^ size.toNat
  let va := readS s a
  let go : Result :=
    match amoAt s .last va n 0 (some sc) (f (8 * n)) with
    | .error e => lastStop (s.touched va n .atomic) e
    | .ok (old, s') =>
      if s.core.gate then
        let s' := if ord.getLsbD 0 then s'.discardFetched sc else s'
        .next (writeNext s' d (BitVec.ofNat 64 old))
      else .next s.stall
  if va.toNat % n ≠ 0 then .next (misaligned s va)
  else if ord.getLsbD 1 then releasing sc 5 s go
  else go

/-- The low bits of `s[b]` as the operand. -/
def amoOp (op : AmoOp) (d a b : BitVec 5) (size ord : BitVec 2) (sc : Scope) (s : State) : Result :=
  amo d a size ord sc s fun w old => some (op.apply w old ((readS s b).toNat % 2 ^ w))

def execAmoAdd (d a b : BitVec 5) (size ord : BitVec 2) (sc : Scope) (s : State) : Result :=
  amoOp .add d a b size ord sc s
def execAmoSwp (d a b : BitVec 5) (size ord : BitVec 2) (sc : Scope) (s : State) : Result :=
  amoOp .swp d a b size ord sc s
/-- Compare and swap: `s[d]` is the comparand, and nothing is written when it differs. -/
def execAmoCas (d a b : BitVec 5) (size ord : BitVec 2) (sc : Scope) (s : State) : Result :=
  amo d a size ord sc s fun w old =>
    if old = (readS s d).toNat % 2 ^ w then some ((readS s b).toNat % 2 ^ w) else none
def execAmoMin (d a b : BitVec 5) (size ord : BitVec 2) (sc : Scope) (s : State) : Result :=
  amoOp .min d a b size ord sc s
def execAmoMax (d a b : BitVec 5) (size ord : BitVec 2) (sc : Scope) (s : State) : Result :=
  amoOp .max d a b size ord sc s
def execAmoMinn (d a b : BitVec 5) (size ord : BitVec 2) (sc : Scope) (s : State) : Result :=
  amoOp .minn d a b size ord sc s
def execAmoMaxn (d a b : BitVec 5) (size ord : BitVec 2) (sc : Scope) (s : State) : Result :=
  amoOp .maxn d a b size ord sc s
def execAmoAnd (d a b : BitVec 5) (size ord : BitVec 2) (sc : Scope) (s : State) : Result :=
  amoOp .and d a b size ord sc s
def execAmoOr (d a b : BitVec 5) (size ord : BitVec 2) (sc : Scope) (s : State) : Result :=
  amoOp .or d a b size ord sc s
def execAmoXor (d a b : BitVec 5) (size ord : BitVec 2) (sc : Scope) (s : State) : Result :=
  amoOp .xor d a b size ord sc s

end Sys2Proof.Machine
end

