-- ==== Sys2Proof/Machine/Control.lean ====
section
/-! DEFINITION. Control transfer, system words and fences of the Last (spec/07 R187 to R191, spec/05 R135). -/

namespace Sys2Proof.Machine

/-- A branch (R187): `pc` + sext(off16) × 4 when the condition holds. -/
def branch (cond : Word → Word → Bool) (a b : BitVec 5) (off : BitVec 16) (s : State) : Result :=
  .next (if cond (readS s a) (readS s b) then s.jump (s.core.pc + sextImm off * 4) else s.advance)

def execBeq (a b : BitVec 5) (off : BitVec 16) (s : State) : Result := branch (fun x y => x == y) a b off s
def execBne (a b : BitVec 5) (off : BitVec 16) (s : State) : Result := branch (fun x y => x != y) a b off s
def execBlt (a b : BitVec 5) (off : BitVec 16) (s : State) : Result := branch (fun x y => x.slt y) a b off s
def execBge (a b : BitVec 5) (off : BitVec 16) (s : State) : Result := branch (fun x y => !x.slt y) a b off s
def execBltn (a b : BitVec 5) (off : BitVec 16) (s : State) : Result := branch (fun x y => x.ult y) a b off s
def execBgen (a b : BitVec 5) (off : BitVec 16) (s : State) : Result := branch (fun x y => !x.ult y) a b off s

/-- `JAL` (R188). -/
def execJal (d : BitVec 5) (off : BitVec 21) (s : State) : Result :=
  .next ((writeS s d (s.core.pc + 4)).jump (s.core.pc + off.signExtend 64 * 4))

/-- `JALR` (R188): a target that is not a multiple of 4 is cause 0x06, with `s[d]` unchanged. -/
def execJalr (d a : BitVec 5) (imm : BitVec 16) (s : State) : Result :=
  let t := readS s a + sextImm imm
  if t.toNat % 4 ≠ 0 then .next (misaligned s t) else .next ((writeS s d (s.core.pc + 4)).jump t)

/-- A privileged S-word in U mode (R377), with the bits that `tval` reports (Table 20-1). -/
def privStop (r : SRaw) (s : State) : State := genFault s 0x03 (r.pack.setWidth 64) 0

/-- A K-only S-word. -/
def privileged (r : SRaw) (s : State) (k : Result) : Result := if s.core.kmode then k else .next (privStop r s)

def execNop (s : State) : Result := .next s.advance

/-- `ECALL` (R189): a committing S-word (R391) that traps with cause 0x1F. -/
def execEcall (s : State) : Result := if s.core.gate then .next (genFault s 0x1F 0 0) else .next s.stall

/-- `BRK` (R189). -/
def execBrk (s : State) : Result := .next (genFault s 0x20 0 0)

/-- `ERET` (R189, R395). -/
def execEret (s : State) : Result := privileged .eret s (.next (Machine.eret s))

/-- `WFE` (R190): the Last stalls; the wait may end with no event. -/
def execWfe (s : State) : Result := .next (s.withCore fun c => { c with wfe := true }).advance

/-- `FENCE` (R135): the Last waits for the earlier accesses of the scope that it orders; memory is read and written by one
agent at a time, so nothing else is left to order. -/
def fence (done acquires : Bool) (sc : Scope) (s : State) : Result :=
  ordering done 5 s (.next (if acquires then s.discardFetched sc else s).advance)

def execFenceAcq (sc : Scope) (s : State) : Result := fence (s.core.loaded sc) true sc s
def execFenceRel (sc : Scope) (s : State) : Result := fence (s.core.released sc) false sc s
def execFenceFull (sc : Scope) (s : State) : Result := fence (s.core.released sc) true sc s

end Sys2Proof.Machine
end

