-- ==== Sys2Proof/Machine/Operands.lean ====
section
/-! DEFINITION. The operand forms of V-words: elements of rows, the mask, slots and immediates, the steps that a
sequencer performs, and the limits a word is held to before any step (spec/02 R52 to R60, spec/06 R155 and R156,
spec/08 R213 to R217, spec/20 R378 and R379). -/

namespace Sys2Proof.Machine

/-! ## Elements (R52, R65) -/

/-- A row of a register; there are 16. -/
def VReg.row (v : VReg) (r : Nat) : Row := v[r]?.getD 0
/-- A row of a register replaced. -/
def VReg.setRow (v : VReg) (r : Nat) (x : Row) : VReg := v.setIfInBounds r x

/-- A vector register of the focused hart. -/
def Core.vreg (c : Core) (v : BitVec 5) : VReg := c.v[v.toNat]

/-- `ReadElem` for an unsliced type of width `w` (R65). -/
def Core.elem (c : Core) (v : BitVec 5) (w row e : Nat) : Nat := rowGet ((c.vreg v).row row) (e * w) w

/-- A bit of a mask register (R56). -/
def Core.maskBit (c : Core) (v : BitVec 5) (row e : Nat) : Bool := (VReg.row (c.vreg v) row).getLsbD e

/-- An i64 element of row 0. -/
def Core.i64 (c : Core) (v : BitVec 5) (e : Nat) : Word := BitVec.ofNat 64 (c.elem v 64 0 e)

/-- A register replaced; a write of it marks it dirty (R49). -/
def Core.setV (c : Core) (v : BitVec 5) (x : VReg) : Core :=
  { c with v := c.v.set v.toNat x, vdirty := setBit c.vdirty v.toNat true }

/-- Elements of a row: 16,384 bits of them, f4 4,096, sl 16,384 (R11). -/
def rowMax (et : EType) : Nat := 16384 / et.width

/-- The strip element type in `vtype` (Table 2-6). -/
def stripType (vtype : BitVec 16) : EType := EType.ofCode (vtype.setWidth 4)

/-- The row maximum of a `vtype` (R11). -/
def vtypeMax (vtype : BitVec 16) : Nat := rowMax (stripType vtype)

/-! ## Steps (R53) and what a run performs -/

def stepOf (w row e : Nat) : Nat := row * 32 + e * w / 512
def laneGroup (w e : Nat) : Nat := (e * w / 64) % 8 / 2

/-- How a stop finds a word: between steps; between rows; before or after it; or by its `CM` bits (R217, R252). -/
inductive Gran where
  | step
  | row
  | whole
  | mask
  deriving DecidableEq, Repr

/-- The position of the running word counted from the head of the vector queue (Table 2-8). -/
def Core.ownPos (c : Core) : Nat := (c.vec.takeWhile fun e => e.rank ≠ c.run.rank).length

/-- Steps of a lane group that the head convoy has retired: what `lgs` says, while it describes this queue (R46). -/
def Core.lgNow (c : Core) (lg : Nat) : Nat := if c.cntLive then (c.lgs.getD lg 0).toNat else 0

/-- `CM` holds the progress of a word of this queue (R59). -/
def Core.cmNow (c : Core) : Bool := c.cntLive && c.cmv.getLsbD 0

/-- `CM` holds the progress of the running word (R59). -/
def Core.ownsCM (c : Core) : Bool := c.cmNow && wfield c.cmv 13 8 == c.ownPos

/-- The mask bit of an element: of a step that its word has begun, the bit that it read then (R139). -/
def Core.maskNow (c : Core) (row e : Nat) : Bool :=
  match c.maskRead with
  | none => c.maskBit 0 row e
  | some x =>
    if x.rank = c.run.rank ∧ stepOf x.w row e < x.begun.getD (laneGroup x.w e) 0 then (VReg.row x.mask row).getLsbD e
    else c.maskBit 0 row e

/-- The mask alone: m = 0, or the bit of `v0` (R56). -/
def Core.active (c : Core) (m : Bool) (row e : Nat) : Bool := !m || c.maskNow row e

/-- Whether the run performs an element, beside its mask: the steps from `lgs` up to the step where its lane group
ends, or for a word that owns `CM` the elements it has not taken yet (R31, R59). -/
def Core.inRun (c : Core) (gran : Gran) (w row e : Nat) : Bool :=
  let st := stepOf w row e
  let lg := laneGroup w e
  decide (st < c.hi.getD lg 0) &&
    (if gran = .mask && c.ownsCM then !(c.cm.row row).getLsbD e else decide (c.lgNow lg ≤ st))

/-- An element that the run performs. -/
def Core.performs (c : Core) (gran : Gran) (m : Bool) (w row e : Nat) : Bool :=
  c.active m row e && c.inRun gran w row e

/-- The run goes to the end of the word in every lane group. -/
def Core.fullRun (c : Core) : Bool := c.hi.all fun h => decide (512 ≤ h)

/-- Rows and elements of the running word. -/
def Core.rows (c : Core) : Nat := c.run.rc.toNat
def Core.vlen (c : Core) : Nat := c.run.vl.toNat

/-- A row with new values in the elements that `on` selects. -/
def putRow (w n : Nat) (on : Nat → Bool) (f : Nat → Nat) (x : Row) : Row :=
  foldN n (fun e acc => if on e then rowSet acc (e * w) w (f e) else acc) x

/-- New values of width `w` written to the elements of vd that `on` selects among `n` of each of `rows` rows; a
register that is written is marked dirty (R49). -/
def Core.putWhere (c : Core) (rows n w : Nat) (on : Nat → Nat → Bool) (vd : BitVec 5) (f : Nat → Nat → Nat) : Core :=
  if (List.range rows).any fun r => (List.range n).any fun e => on r e then
    c.setV vd (foldN rows (fun r v => v.setRow r (putRow w n (on r) (f r) (v.row r))) (c.vreg vd))
  else c

/-- Element groups of vd that a run overwrites whole hold no spoiled data any more (log 15). -/
def Core.freshGroups (c : Core) (w : Nat) (on : Nat → Nat → Bool) (vd : BitVec 5) : Core :=
  if c.poison.isEmpty then c
  else
    { c with poison := c.poison.filter fun p =>
        match p with
        | .reg v row eg =>
          !(v == vd && row < c.rows &&
            (upTo (512 / w) (eg * (512 / w))).all fun e => decide (e < c.vlen) && on row e)
        | _ => true }

/-- The elements of vd that the run performs (R213): element (r, e) becomes `f r e`. The sweep is counted at width
`sw`, the destination has width `w`. -/
def Core.putElems (c : Core) (gran : Gran) (m : Bool) (sw w : Nat) (vd : BitVec 5) (f : Nat → Nat → Nat) : Core :=
  let on := c.performs gran m sw
  (c.putWhere c.rows c.vlen w on vd f).freshGroups w on vd

/-- Bits of a mask register that the run performs. -/
def Core.putBits (c : Core) (gran : Gran) (m : Bool) (sw : Nat) (vd : BitVec 5) (f : Nat → Nat → Bool) : Core :=
  c.putWhere c.rows c.vlen 1 (c.performs gran m sw) vd fun r e => (f r e).toNat

/-- Whether the run performs a row of a word that retires row by row (R217). -/
def Core.rowRuns (c : Core) (r : Nat) : Bool :=
  decide (c.lgNow 0 / 32 ≤ r) && decide (32 * r < c.hi.getD 0 0)

/-- Whether the run performs a word that retires as a whole (R217). -/
def Core.wholeRuns (c : Core) : Bool := decide (512 ≤ c.hi.getD 0 0)

/-- An active element of a row that the run performs. -/
def Core.rowOn (c : Core) (m : Bool) (r e : Nat) : Bool := c.rowRuns r && c.active m r e

/-- One element written, marked dirty. -/
def Core.putElem (c : Core) (vd : BitVec 5) (w row e x : Nat) : Core :=
  c.setV vd ((c.vreg vd).setRow row (rowSet ((c.vreg vd).row row) (e * w) w x))

/-- A bit ORed or written in a mask register. -/
def Core.putBit (c : Core) (vd : BitVec 5) (row e : Nat) (b : Bool) : Core :=
  c.setV vd ((c.vreg vd).setRow row (rowBit ((c.vreg vd).row row) e b))

/-- Overflow-mask bits set at the elements that saturated, the others left alone (R57). -/
def Core.orBits (c : Core) (ove : Option (BitVec 5)) (rows n : Nat) (f : Nat → Nat → Bool) : Core :=
  match ove with
  | none => c
  | some vm => c.putWhere rows n 1 f vm fun _ _ => 1

/-! ## Slots and immediates (R60, R156) -/

/-- Width of the carried `vtype`.ET, which words without an element type sweep at (R214). -/
def Core.stripW (c : Core) : Nat := (stripType c.run.vtype).width

/-- The carried width and signedness of the first or second sliced operand (Table 2-6, R55). -/
def Core.slWidth (c : Core) (second : Bool) : Nat :=
  (if second then (c.run.vtype.toNat >>> 8) % 16 else (c.run.vtype.toNat >>> 4) % 16) + 1
def Core.slSigned (c : Core) (second : Bool) : Bool := c.run.vtype.getLsbD (if second then 13 else 12)
/-- The carried `vtype`.SCE. -/
def Core.sce (c : Core) : Bool := c.run.vtype.getLsbD 15

/-- The carried value of an operand slot. -/
def Core.slot (c : Core) (n : BitVec 4) : Word := c.run.slots[n.toNat]

/-- A vi immediate as an element of type et, or none when the type cannot hold it (R156). -/
def immVal (et : EType) (imm : BitVec 16) : Option Nat :=
  if et.isSigned then some (wrap et.width imm.toInt)
  else if et.isInt then some (imm.toNat % 2 ^ et.width)
  else
    match et with
    | .sl => some imm.toNat
    | _ =>
      match fval .bf16 imm.toNat with
      | .nan => if (fmtOf et).hasNan then some (fmtOf et).nan else none
      | .inf neg => if (fmtOf et).hasInf then some ((fmtOf et).withSign neg (fmtOf et).inf) else none
      | v =>
        let r := (fmtOf et).narrow .rne v
        if (fmtOf et).decode r.1 = v then some r.1
        else if (fval et r.1).cmp v = some .eq then some r.1 else none

/-- The second source at an element (R213). -/
def Core.src (c : Core) (et : EType) (b : Src) (row e : Nat) : Nat :=
  match b with
  | .vv v => c.elem v et.width row e
  | .vo n => (c.slot n).toNat % 2 ^ et.width
  | .vi i => (immVal et i).getD 0

/-! ## Limits (Table 20-4) -/

/-- An operand limit with its code and the offending value (Table 20-1). -/
def limitStop (code : Nat) (v : Nat) : Stop :=
  .stop ⟨0x05, BitVec.ofNat 64 (code + (v % 2 ^ 32) <<< 32), 0, 0⟩

/-- A limit that must hold. -/
def need (b : Bool) (code v : Nat) : Except Stop Unit := if b then .ok () else .error (limitStop code v)

/-- Several limits, the first broken one reported. -/
def needAll : List (Except Stop Unit) → Except Stop Unit
  | [] => .ok ()
  | c :: cs =>
    match c with
    | .error e => .error e
    | .ok _ => needAll cs

/-- et is one that the word's table accepts (code 1). -/
def needEt (ok : EType → Bool) (et : EType) : Except Stop Unit := need (ok et) 1 et.code.toNat

/-- The carried `vl` does not exceed a bound (code 2). -/
def needVl (c : Core) (bound : Nat) : Except Stop Unit := need (decide (c.vlen ≤ bound)) 2 c.vlen

/-- A vi immediate that the type represents (code 7). -/
def needImm (et : EType) (b : Src) : Except Stop Unit :=
  match b with
  | .vi i => need (immVal et i).isSome 7 i.toNat
  | _ => .ok ()

/-- The registers of one operand. -/
structure RegSet where
  base : Nat
  size : Nat
  deriving DecidableEq, Repr

/-- Single registers as sets overlap only when they are equal, so the partial overlap of R379 (code 5) arises for no
element-wise word. -/
def RegSet.meets (a b : RegSet) : Bool := decide (a.base < b.base + b.size ∧ b.base < a.base + a.size)

def regSet (v : BitVec 5) (n : Nat := 1) : RegSet := ⟨v.toNat, n⟩

/-- The mask register a word reads. -/
def maskSet (m : Bool) : List RegSet := if m then [regSet 0] else []

/-- The registers that a second source reads. -/
def srcSets : Src → List RegSet
  | .vv v => [regSet v]
  | _ => []

/-- No register written is among those read (R216, R253, code 6). -/
def needApart (wr : List RegSet) (rd : List RegSet) : Except Stop Unit :=
  need (wr.all fun a => rd.all fun b => !a.meets b) 6 0

/-- A register named is a multiple of its group (code 4). -/
def needAligned (v : BitVec 5) (g : Nat) : Except Stop Unit :=
  need (decide (v.toNat % g = 0 ∧ v.toNat + g ≤ 32)) 4 v.toNat

end Sys2Proof.Machine
end

