-- ==== Sys2Proof/Machine/Flags.lean ====
section
/-! DEFINITION. The status words that words leave behind: `ffs`, `cmv`, `brk`, `vdirty`, `pstat` (spec/02 Tables 2-8
to 2-14) and the comparisons of spec/08 Table 8-5. -/

namespace Sys2Proof.Machine

/-- `ffs` with a first suppressed element (Table 2-9): V, WHY, ROW, ELEM. -/
def ffsWord (why row e : Nat) : Word := BitVec.ofNat 64 (1 <<< 23 + why <<< 20 + row <<< 15 + e)

/-- A suppression outside a region: `ffs` takes it while V is 0, and in place of one of the same word at a later element
(R47). -/
def Core.suppress (c : Core) (why row e : Nat) : Core :=
  let later : Bool := decide (row < wfield c.ffs 18 15 ∨ (row = wfield c.ffs 18 15 ∧ e < wfield c.ffs 14 0))
  if c.ffs.getLsbD 23 && !(c.ffsBy == some c.run.rank && later) then c
  else { c with ffs := ffsWord why row e, ffsBy := some c.run.rank }

/-- A suppression inside a region: the hamper keeps the lowest *lin* and its WHY (R265). -/
def Region.suppress (r : Region) (lin why : Nat) : Region :=
  match r.supp with
  | some (q, _) => if q ≤ lin then r else { r with supp := some (lin, BitVec.ofNat 3 why) }
  | none => { r with supp := some (lin, BitVec.ofNat 3 why) }

/-- The counters describe the queue as it stands from now on: what they kept of words that a `VQSAVE` has taken away is
gone (R46, R59). -/
def Core.claim (c : Core) : Core :=
  if c.cntLive then c
  else { c with cntLive := true, lgs := .replicate 4 0, cmv := setField (setBit c.cmv 0 false) 13 8 0 }

/-- `cmv` while the word at this position owns `CM`; HOVF is kept (Table 2-8). -/
def Core.ownCM (c : Core) (pos : Nat) : Core :=
  if c.cmv.getLsbD 0 then c
  else { c with cmv := setField (setBit c.cmv 0 true) 13 8 pos, cm := .replicate 16 0 }

/-- The owner of `CM` has retired: V is cleared (R59). -/
def Core.freeCM (c : Core) : Core := { c with cmv := setField (setBit c.cmv 0 false) 13 8 0 }

/-- The `CM` bit of an element that has taken its full effect (R59). -/
def Core.setCM (c : Core) (row e : Nat) : Core := { c with cm := c.cm.setRow row (rowBit (c.cm.row row) e true) }

/-- A key found no slot (R260). -/
def Core.setHovf (c : Core) : Core := { c with cmv := setBit c.cmv 1 true }

/-- `brk` (Table 2-10). -/
def brkWord (e row : Nat) (exv opn : Bool) : Word :=
  BitVec.ofNat 64 (e <<< 6 + row <<< 2 + exv.toNat <<< 1 + opn.toNat)

/-- `vdirty` bits of tiles, the Press and streams (Table 2-11, R49). -/
def Core.dirtyTile (c : Core) (t : BitVec 2) : Core := { c with vdirty := setBit c.vdirty (32 + t.toNat) true }
def Core.dirtyPress (c : Core) : Core := { c with vdirty := setBit c.vdirty 36 true }
def Core.dirtyStream (c : Core) (q : BitVec 4) : Core := { c with vdirty := setBit c.vdirty (37 + q.toNat) true }

/-- The position of a stream moved (R246, R248), which marks it dirty (R49). -/
def Core.moveStream (c : Core) (q : BitVec 4) (by_ : Word) : Core :=
  ({ c with q := c.q.set q.toNat { c.q[q.toNat] with pos := c.q[q.toNat].pos + by_ } }).dirtyStream q

/-- Conditions of Table 8-5. -/
inductive Cond where
  | eq | ne | lt | ge | le | gt | un | ord
  deriving DecidableEq, Repr

/-- An integer comparison (R225). -/
def Cond.int (k : Cond) (a b : Int) : Bool :=
  match k with
  | .eq => decide (a = b)
  | .ne => decide (a ≠ b)
  | .lt => decide (a < b)
  | .ge => decide (b ≤ a)
  | .le => decide (a ≤ b)
  | .gt => decide (b < a)
  | .un => false
  | .ord => true

/-- A floating-point comparison: a NaN makes every condition false but `ne` and `un` (R225). -/
def Cond.fp (k : Cond) (o : Option Ordering) : Bool :=
  match k, o with
  | .eq, some .eq => true
  | .ne, some .eq => false
  | .ne, _ => true
  | .lt, some .lt => true
  | .ge, some .gt => true
  | .ge, some .eq => true
  | .le, some .lt => true
  | .le, some .eq => true
  | .gt, some .gt => true
  | .un, none => true
  | .ord, some _ => true
  | _, _ => false

/-- `pstat` after a Press word (R309): SROW = H − 1 and THR stand as latched; HFILL and NV are counted. -/
def Press.settle (p : Press) : Press :=
  let fill := p.heap.foldl (fun n row => n + row.countP fun e => e.id != 0xFFFFFFFF) 0
  let nv := p.norm.any fun m => m.1.toNat != f32NegInf
  { p with pstat := setField (setBit p.pstat 31 nv) 24 16 fill }

/-- *H*, the rows of the heap (Table 11-1). -/
def Press.H (p : Press) : Nat := wfield p.pstat 28 25 + 1
/-- THR (R307). -/
def Press.thr (p : Press) : Bool := p.pstat.getLsbD 29

end Sys2Proof.Machine
end

