-- ==== Sys2Proof/Machine/Sequencer.lean ====
section
/-! DEFINITION. How the four lane-group sequencers and the engines run one word: the checks at the head of the
queue, the run, retirement, and a stop within the word (spec/01 R25 to R31, spec/09 R252, R262 to R269, spec/20 R368,
spec/21 R386 to R399). A word's meaning gives its checks and its body; everything around them is here. -/

namespace Sys2Proof.Machine

/-- The words of a region keep their history entries until its `VEXIT` (R18); they are counted (R263). -/
def Core.keepInRegion (c : Core) (e : QEntry) : Core :=
  match c.region with
  | none => c
  | some r => { c with region := some { r with words := r.words + 1, retired := r.retired ++ [e] } }

/-- A vector-queue word retires: it leaves the queue, `CM` is freed if it owned it. -/
def Core.retire (c : Core) (e : QEntry) : Core :=
  let own := c.cmNow && wfield c.cmv 13 8 == (c.vec.takeWhile fun x => x.rank ≠ e.rank).length
  let c := if own then c.freeCM
    else if c.cmNow then { c with cmv := setField c.cmv 13 8 (wfield c.cmv 13 8 - 1) } else c
  (c.dropEntry e.rank).keepInRegion e

/-- The step counters are clear, as after a convoy has retired (R46). -/
def Core.clearSteps (c : Core) : Core := { c with lgs := .replicate 4 0 }

/-- With SSM = 2 a finished convoy or engine word makes a step stop due, in U mode (R407). -/
def Core.wordDone (c : Core) (prov : Word) : Core :=
  if wfield c.t.tdbg 1 0 = 2 ∧ c.kmode = false then { c with stepDue := some prov } else c

/-- The streams as `c` has them, in a core whose run has ended part-way: they move only when the word has retired (R248). -/
def Core.keepStreams (c d : Core) : Core :=
  { d with q := c.q, vdirty := (d.vdirty &&& ~~~0x1FFFE000000000#64) ||| (c.vdirty &&& 0x1FFFE000000000#64) }

/-- A convoy of one has retired: the counters are cleared (R46). -/
def State.finishVec (s : State) : State :=
  (s.withCore fun c => c.clearSteps.retire c.run |>.wordDone c.run.prov).settlePoison

/-- An engine or matrix word completes. -/
def State.finishWord (s : State) : State :=
  (s.withCore fun c => (c.dropEntry c.run.rank).wordDone c.run.prov).settlePoison

/-- The limits of a region on a word that is allowed in it or not (R263, code 9). -/
def regionOk (c : Core) (allowed : Bool) : Except Stop Unit :=
  match c.region with
  | none => .ok ()
  | some r => need (allowed && decide (r.words + c.ownPos < Config.regionWords) && c.run.vl == r.vl && c.run.rc == r.rc) 9 0

/-- The run is in an annulled region: the word acts as one with `vl` = 0 (R268). -/
def Core.annulled (c : Core) : Bool := ((c.region.map Region.annulled).getD false)

/-- Units of a lane group and step, in ascending element order, that come before these ends when they form a prefix of that
order: steps first, then lane groups (R53, R131). -/
def unitsBefore (h : Nat → Nat) : Nat := h 0 + h 1 + h 2 + h 3
/-- The ends of a prefix of `u` units. -/
def prefixEnds (u : Nat) : Vector Nat 4 := .ofFn fun lg => (u + 3 - lg.val) / 4

/-- The steps where the four lane groups end when the word stops at step `st`: free values, at or beyond what has
retired and at most 511 (R30, R398, Table 2-7, log 6). A word in ascending order ends at a prefix of its elements
(R131). -/
def freeEnds (s : State) (gran : Gran) (ao : Bool) (st : Nat) : Vector Nat 4 :=
  let lo (lg : Nat) : Nat := min 511 (s.core.lgNow lg)
  match gran with
  | .whole => .ofFn fun lg => lo lg
  | .row =>
    let r := lo 0 / 32 + Config.stopStep s.free 0 % (st / 32 + 1 - lo 0 / 32)
    .replicate 4 (32 * min r 15)
  | _ =>
    if ao then prefixEnds (unitsBefore lo + Config.stopStep s.free 0 % (2044 + 1 - unitsBefore lo))
    else .ofFn fun lg => lo lg + Config.stopStep s.free lg % (511 + 1 - lo lg)

/-- The same, at or below the step of the stop, and not below what has retired: every step below the stop is free
of faults (R396). -/
def clipEnds (c : Core) (hi : Vector Nat 4) (st : Nat) : Vector Nat 4 :=
  .ofFn fun lg => max (c.lgNow lg) (min (hi.getD lg 0) st)

/-- A run of the body that ends at these steps, or the state unchanged where it meets the fault. -/
def runTo (body : State → Except Stop State) (s : State) (hi : Vector Nat 4) : Option State :=
  match body { s with core := { s.core with hi := hi, mode := .part } } with
  | .ok s' => some s'
  | .error _ => none

/-- The progress of a run that ended at these steps: a word that `CM` tracks has it there (R252), any other in `lgs`. -/
def Core.endsAt (c : Core) (gran : Gran) (hi : Vector Nat 4) : Core :=
  if gran = .mask then c else { c.claim with lgs := hi.map fun x => BitVec.ofNat 10 x }

/-- How a stop finds a word that overwrites the mask it reads: never inside a row, or for a word on planes not at all (R31,
R217, R379). -/
def overMask (gran : Gran) (w : BitVec 64) : Gran :=
  if gran = .step ∧ w.getLsbD 29 = true ∧ field w.toNat 49 45 = 0 then
    (if field w.toNat 28 25 = 15 then .whole else .row)
  else gran

/-- The state in which a word has stopped at a step (R30, R252): the run ends at free steps of its lane groups
short of every fault, `lgs` name them, or for a word that owns `CM` its bits do. -/
def partial_ (gran : Gran) (ao : Bool) (body : State → Except Stop State) (s : State) (st : Nat) : State :=
  let gran := overMask gran s.core.run.word
  let h := freeEnds s gran ao st
  let s := { s with free := s.free + 1 }
  let done (s' : State) (hi : Vector Nat 4) : State :=
    { s' with core := s.core.keepStreams (({ s'.core with hi := .replicate 4 512, mode := .whole } : Core).endsAt gran hi) }
  match runTo body s h with
  | some s' => done s' h
  | none =>
    match runTo body s (clipEnds s.core h st) with
    | some s' => done s' (clipEnds s.core h st)
    | none => s

/-- What a word that stops comes to: in a trial run the step decides (R394); alone, the trap is taken at it in the
state that `part` gives for the step of the stop, or it waits. -/
def stopWith (part : Nat → State) (s : State) (e : Stop) : Result :=
  if s.core.mode ≠ .whole then .next (s.withCore fun c => { c with why := some e })
  else
    match e with
    | .stop i => .next (takeTrap (part i.step) ⟨.word s.core.run.rank, i.cause, i.tval, i.addr⟩)
    | .deferred i => .next (takeTrap (part i.step) ⟨.deferred s.core.run.rank, i.cause, i.tval, i.addr⟩)
    | .hold => .next (s.withCore fun c => { c with why := some .hold })
    | .wait post => .next ((s.waiting post).withCore fun c => { c with why := some (.wait post) })

/-- A stop within a word, after the part of it that has retired. -/
def stopWord (gran : Gran) (ao : Bool) (body : State → Except Stop State) (s : State) (e : Stop) : Result :=
  stopWith (partial_ gran ao body s) s e

/-- A refusal at the head of the queue: nothing of the word takes effect (R366). -/
def refuseWord (s : State) (e : Stop) : Result := stopWith (fun _ => s) s e

/-- The first-use check of the running word (R39), which comes before its limits (R368). -/
def firstUseOk (c : Core) : Except Stop Unit :=
  match firstUse c.run with
  | some cause => .error (.stop ⟨cause, 0, 0, 0⟩)
  | none => .ok ()

/-- A whole run completed, or the effects of a trial run. -/
def endVec (s : State) : Result := if s.core.mode ≠ .whole then .next s else .next s.finishVec

/-- Accesses that a word makes: address, bytes, kind. -/
abbrev Uses := List (Word × Nat × Acc)

/-- The A and D bits that these accesses set, whatever comes of them (R94). -/
def State.touchAll (s : State) (l : Uses) : State := l.foldl (fun s u => s.touched u.1 u.2.1 u.2.2) s

/-- The limits of a word, with `vl` = 0 in an annulled region (R268), and then its body. -/
def withinLimits (limits : Core → Except Stop Unit) (body : State → Except Stop State) (s : State) : Except Stop State :=
  match limits s.core with
  | .error e => .error e
  | .ok _ => body s

/-- A vector-queue word: first use, region, the word's own limits, its body; then it retires. `inRegion` says
whether a region may hold it (R263). In an annulled region it is a word with `vl` = 0 and has no effect (R268). A spoiled
operand stops it at its step, a broken limit before all (R368, R419). `uses` are the accesses that its body checks, `ao`
its ascending-order bit; in a trial of its checks the body stops at the fault point. -/
def memWord (gran : Gran) (inRegion ao : Bool) (limits : Core → Except Stop Unit) (body : State → Except Stop State)
    (uses : Core → Uses) (s : State) : Result :=
  match firstUseOk s.core with
  | .error e => refuseWord s e
  | .ok _ =>
    match regionOk s.core inRegion with
    | .error e => refuseWord s e
    | .ok _ =>
      match limits (if s.core.annulled then { s.core with run := { s.core.run with vl := 0 } } else s.core) with
      | .error (.deferred i) => stopWord gran ao (withinLimits limits body) s (.deferred i)
      | .error e => refuseWord s e
      | .ok _ =>
        if s.core.annulled then endVec s
        else
          match body s with
          | .error e => stopWord gran ao (withinLimits limits body) (s.touchAll (uses s.core)) e
          | .ok s' => endVec s'

/-- A vector-queue word that makes no access: its limits are all there is before its fault point. -/
def vecWord (gran : Gran) (inRegion : Bool) (limits : Core → Except Stop Unit) (body : State → Except Stop State)
    (s : State) : Result :=
  memWord gran inRegion false limits (fun s => if s.core.mode = .check then .ok s else body s) (fun _ => []) s

/-- A compute word: its body changes registers only. -/
def computeWord (gran : Gran) (limits : Core → Except Stop Unit) (f : Core → Core) (s : State) : Result :=
  vecWord gran true limits (fun s => .ok { s with core := f s.core }) s

/-- A matrix-queue word: first use, limits, effect, completion; a trial of its checks stops short of the effect. -/
def matWord (limits : Core → Except Stop Unit) (f : Core → Core) (s : State) : Result :=
  match firstUseOk s.core with
  | .error e => refuseWord s e
  | .ok _ =>
    match limits s.core with
    | .error e => refuseWord s e
    | .ok _ => if s.core.mode = .check then .next s else .next ({ s with core := f s.core }).finishWord

/-! ## Spoiled operands (R418, R419) -/

def RegSet.holds (r : RegSet) (v : BitVec 5) : Bool := decide (r.base ≤ v.toNat ∧ v.toNat < r.base + r.size)

/-- What an element consumes: registers, rows and bits of them, one bit of each element group. -/
abbrev Reads := List (BitVec 5 × Nat × Nat)

/-- The step of the first element of the run over `rows` rows that consumes an element group. -/
def Core.consumedAt (c : Core) (rows : Nat) (run : Nat → Nat → Bool) (w : Nat) (reads : Nat → Nat → Reads) (v : BitVec 5)
    (row eg : Nat) : Option Nat :=
  (List.range rows).findSome? fun r =>
    ((List.range c.vlen).find? fun e =>
      run r e && (reads r e).any fun x => x.1 == v && x.2.1 == row && x.2.2 / 512 == eg).map (stepOf w r)

/-- A deferred fault 0x19 on the word that consumes a spoiled operand (R419), at the step given for an element group. -/
def unspoilt (c : Core) (used : BitVec 5 → Nat → Nat → Option Nat) : Except Stop Unit :=
  match (c.poison.filterMap fun p =>
    match p with
    | .reg v row eg => used v row eg
    | _ => none).min? with
  | none => .ok ()
  | some st => .error (.deferred ⟨0x19, 0, 0, st⟩)

/-- Operands that the elements of a run over `rows` rows consume; a word sweeps at width `w`, and `at_` says in which row of
`v0` the mask bit of an element stands. An element that is not performed consumes nothing but its mask bit (R56). A trial of
the checks consumes nothing: the fault is a deferred one (R390). -/
def soundOver (c : Core) (rows : Nat) (at_ : Nat → Nat) (run : Nat → Nat → Bool) (m : Bool) (w : Nat)
    (reads : Nat → Nat → Reads) : Except Stop Unit :=
  if c.poison.isEmpty || c.mode == .check then .ok ()
  else
    unspoilt c (c.consumedAt rows run w fun r e =>
      (if m then [(0, at_ r, e)] else []) ++ (if c.active m (at_ r) e then reads r e else []))

/-- The same for a vector-queue word, whose elements have their own mask bits. -/
def sound (c : Core) (gran : Gran) (m : Bool) (w : Nat) (reads : Nat → Nat → Reads) : Except Stop Unit :=
  soundOver c c.rows id (c.inRun gran w) m w reads

/-- The same for a word of the matrix queue, which runs as a whole. -/
def soundWord (c : Core) (m : Bool) (reads : Nat → Nat → Reads) : Except Stop Unit :=
  soundOver c c.rows id (fun _ _ => true) m 64 reads

/-- The same element of registers of width `w`. -/
def elemReads (vs : List (BitVec 5)) (w : Nat) (r e : Nat) : Reads := vs.map fun v => (v, r, e * w)

/-- Operands of which a word consumes `n` bits of each of its rows, whatever its mask. -/
def soundRows (c : Core) (rows n : Nat) (rd : List RegSet) : Except Stop Unit :=
  unspoilt c fun v row eg =>
    if rd.any (fun r => r.holds v) && decide (row < rows ∧ eg * 512 < n) then some (row * 32) else none

end Sys2Proof.Machine
end

