-- ==== Sys2Proof/Machine/VectorInt.lean ====
section
/-! DEFINITION. Integer compute words (spec/08_vector_compute.md R213 to R222, Tables 8-3 and 8-5). -/

namespace Sys2Proof.Machine

/-- The registers that a word over va and a second source reads, with its mask. -/
def arithReads (o : Arith) : List RegSet := regSet o.va :: srcSets o.src ++ maskSet o.m

/-- The register of a second source. -/
def srcNums : Src → List (BitVec 5)
  | .vv v => [v]
  | _ => []

/-- The limits of an element-wise word over va and a second source, with further registers read. -/
def arithLimits (o : Arith) (ok : EType → Bool) (more : List (BitVec 5)) (c : Core) : Except Stop Unit :=
  needAll [needEt ok o.et, needVl c (rowMax o.et), needImm o.et o.src,
    sound c .step o.m o.et.width (elemReads (o.va :: srcNums o.src ++ more) o.et.width)]

/-- An element-wise word: element (r, e) of vd becomes `f c a b r e` (R213). -/
def elementwise (o : Arith) (ok : EType → Bool) (more : List (BitVec 5)) (f : Core → Nat → Nat → Nat → Nat → Nat)
    (s : State) : Result :=
  computeWord .step (arithLimits o ok more)
    (fun c => c.putElems .step o.m o.et.width o.et.width o.vd fun r e =>
      f c (c.elem o.va o.et.width r e) (c.src o.et o.src r e) r e) s

/-- A word with one source (R213): the second is not read. -/
def unaryWord (o : Arith) (ok : EType → Bool) (f : Nat → Nat) (s : State) : Result :=
  computeWord .step (fun c => needAll [needEt ok o.et, needVl c (rowMax o.et),
      sound c .step o.m o.et.width (elemReads [o.va] o.et.width)])
    (fun c => c.putElems .step o.m o.et.width o.et.width o.vd fun r e => f (c.elem o.va o.et.width r e)) s

/-- An integer word of two operands, its result taken modulo 2^w (R221). -/
def intWord (o : Arith) (f : Int → Int → Int) (s : State) : Result :=
  elementwise o EType.isInt [] (fun _ a b _ _ => wrap o.et.width (f (intVal o.et a) (intVal o.et b))) s

/-- An integer word over bit patterns of `w` bits. -/
def bitWord (o : Arith) (f : Nat → Nat → Nat → Nat) (s : State) : Result :=
  elementwise o EType.isInt [] (fun _ a b _ _ => f o.et.width a b) s

def execVadd (o : Arith) (s : State) : Result := intWord o (· + ·) s
def execVsub (o : Arith) (s : State) : Result := intWord o (· - ·) s
def execVmul (o : Arith) (s : State) : Result := intWord o (· * ·) s
/-- The high *w* bits of the exact product. -/
def execVmulh (o : Arith) (s : State) : Result := intWord o (fun a b => (a * b) / ((2 ^ o.et.width : Nat) : Int)) s
/-- The old vd element is a third source. -/
def execVmacc (o : Arith) (s : State) : Result :=
  elementwise o EType.isInt [o.vd] (fun c a b r e =>
    wrap o.et.width (intVal o.et (c.elem o.vd o.et.width r e) + intVal o.et a * intVal o.et b)) s
def execVmin (o : Arith) (s : State) : Result := intWord o (fun a b => if a ≤ b then a else b) s
def execVmax (o : Arith) (s : State) : Result := intWord o (fun a b => if a ≤ b then b else a) s
def execVshl (o : Arith) (s : State) : Result := bitWord o (fun w a b => (a <<< (b % w)) % 2 ^ w) s
def execVshr (o : Arith) (s : State) : Result := bitWord o (fun w a b => a >>> (b % w)) s
def execVsar (o : Arith) (s : State) : Result := bitWord o (fun w a b => wrap w (toSigned w a / ((2 ^ (b % w) : Nat) : Int))) s
def execVabs (o : Arith) (s : State) : Result :=
  unaryWord o EType.isInt (fun a => wrap o.et.width ((intVal o.et a).natAbs : Int)) s
/-- Saturating words set no overflow-mask bit. -/
def execVsadd (o : Arith) (s : State) : Result := intWord o (fun a b => (saturate (intMin o.et) (intMax o.et) (a + b)).1) s
def execVssub (o : Arith) (s : State) : Result := intWord o (fun a b => (saturate (intMin o.et) (intMax o.et) (a - b)).1) s

/-! ## Bitwise words (R222) -/

/-- A bit of the second source for sliced element `e` of plane `j`: a slot or immediate gives plane *j* its bit *j*. -/
def Core.slBit (c : Core) (b : Src) (j e : Nat) : Nat :=
  match b with
  | .vv v => c.elem v 1 j e
  | .vo n => ((c.slot n).toNat >>> j) % 2
  | .vi i => (i.toNat >>> j) % 2

/-- Limits of a bitwise word on planes: what it consumes are planes 0 to *k* − 1 and row 0 of the mask, whatever `rc` is. -/
def planeLimits (o : Arith) (c : Core) : Except Stop Unit :=
  needAll [needVl c (rowMax .sl), needImm .sl o.src,
    soundOver c (c.slWidth false) (fun _ => 0) (c.inRun .step 1) o.m 1 (elemReads (o.va :: srcNums o.src) 1)]

/-- A bitwise word: on elements of integer types, or on the planes of `sl`, where `rc` is ignored and the mask is
row 0 of `v0`. -/
def bitwise (o : Arith) (f : Nat → Nat → Nat) (s : State) : Result :=
  if o.et = .sl then
    computeWord .step (planeLimits o)
      (fun c =>
        let on (j e : Nat) : Bool := c.active o.m 0 e && c.inRun .step 1 j e
        c.putWhere (c.slWidth false) c.vlen 1 on o.vd fun j e => f (c.elem o.va 1 j e) (c.slBit o.src j e)) s
  else bitWord o (fun _ a b => f a b) s

def execVand (o : Arith) (s : State) : Result := bitwise o (· &&& ·) s
def execVor (o : Arith) (s : State) : Result := bitwise o (· ||| ·) s
def execVxor (o : Arith) (s : State) : Result := bitwise o (· ^^^ ·) s

/-! ## Comparisons (R225) -/

/-- A compare word: bits of vd; the destination differs from the data sources (R216). -/
def compareWord (o : Arith) (ok : EType → Bool) (f : Nat → Nat → Bool) (s : State) : Result :=
  computeWord .step
    (fun c => needAll [needEt ok o.et, needVl c (rowMax o.et), needApart [regSet o.vd] (regSet o.va :: srcSets o.src),
      needImm o.et o.src, sound c .step o.m o.et.width (elemReads (o.va :: srcNums o.src) o.et.width)])
    (fun c => c.putBits .step o.m o.et.width o.vd fun r e =>
      f (c.elem o.va o.et.width r e) (c.src o.et o.src r e)) s

def intCompare (k : Cond) (o : Arith) (s : State) : Result :=
  compareWord o EType.isInt (fun a b => k.int (intVal o.et a) (intVal o.et b)) s

def execVcmpeq (o : Arith) (s : State) : Result := intCompare .eq o s
def execVcmpne (o : Arith) (s : State) : Result := intCompare .ne o s
def execVcmplt (o : Arith) (s : State) : Result := intCompare .lt o s
def execVcmpge (o : Arith) (s : State) : Result := intCompare .ge o s
def execVcmple (o : Arith) (s : State) : Result := intCompare .le o s
def execVcmpgt (o : Arith) (s : State) : Result := intCompare .gt o s

end Sys2Proof.Machine
end

