-- ==== Sys2Proof/Machine/Mask.lean ====
section
/-! DEFINITION. Mask logic, row-wise mask words and element indices (spec/08 R214, R226, R227). -/

namespace Sys2Proof.Machine

/-- The limits of a word over masks alone: `vl` fits a row of the strip type. -/
def maskLimits (m : Bool) (rd : List (BitVec 5)) (c : Core) : Except Stop Unit :=
  needAll [needVl c (vtypeMax c.run.vtype), sound c .step m c.stripW (elemReads rd 1)]

/-- A mask-logic word (R226). -/
def maskLogic (o : MaskArgs) (rd : List (BitVec 5)) (f : Bool → Bool → Bool) (s : State) : Result :=
  computeWord .step (maskLimits o.m rd)
    (fun c => c.putBits .step o.m c.stripW o.vd fun r e => f (c.maskBit o.va r e) (c.maskBit o.vb r e)) s

def execVmand (o : MaskArgs) (s : State) : Result := maskLogic o [o.va, o.vb] (fun a b => a && b) s
def execVmor (o : MaskArgs) (s : State) : Result := maskLogic o [o.va, o.vb] (fun a b => a || b) s
def execVmxor (o : MaskArgs) (s : State) : Result := maskLogic o [o.va, o.vb] (fun a b => a != b) s
def execVmnot (o : MaskArgs) (s : State) : Result := maskLogic o [o.va] (fun a _ => !a) s
def execVmandn (o : MaskArgs) (s : State) : Result := maskLogic o [o.va, o.vb] (fun a b => a && !b) s

/-- A word that moves data between lane groups and writes elements of vd row by row (R217): `f c r` gives the row's
new elements, at those that `on` selects beside the running rows. -/
def rowWord (limits : Core → Except Stop Unit) (vd : BitVec 5) (w : Nat) (on : Core → Nat → Nat → Bool)
    (f : Core → Nat → Nat → Nat) (s : State) : Result :=
  computeWord .row limits
    (fun c => c.putWhere c.rows c.vlen w (fun r e => c.rowRuns r && on c r e) vd (f c)) s

/-- Active elements of a row, ascending. -/
def Core.actives (c : Core) (m : Bool) (r : Nat) : List Nat := (List.range c.vlen).filter fun e => c.active m r e

/-- Limits of a cross-lane word with one source, of elements of `w` bits (R216). -/
def crossLimits (o : Arith) (ok : EType → Bool) (w : Nat) (c : Core) : Except Stop Unit :=
  needAll [needEt ok o.et, needVl c (rowMax o.et), needApart [regSet o.vd] (regSet o.va :: maskSet o.m),
    sound c .row o.m o.et.width (elemReads [o.va] w)]

/-- Active elements of row r of va whose mask bit is set. -/
def Core.marked (c : Core) (o : Arith) (r : Nat) : List Nat := (c.actives o.m r).filter fun e => c.maskBit o.va r e

/-- Every active element of a row gets one value (R227). -/
def rowValue (o : Arith) (f : Core → Nat → Nat) (s : State) : Result :=
  rowWord (crossLimits o EType.isInt 1) o.vd o.et.width (fun c r e => c.active o.m r e)
    (fun c r _ => f c r % 2 ^ o.et.width) s

def execVmpop (o : Arith) (s : State) : Result := rowValue o (fun c r => (c.marked o r).length) s
def execVmfirst (o : Arith) (s : State) : Result :=
  rowValue o (fun c r => (c.marked o r).head?.getD (2 ^ o.et.width - 1)) s

/-- The running AND over active elements. -/
def execVmscanand (o : MaskArgs) (s : State) : Result :=
  rowWord (fun c => needAll [needVl c (vtypeMax c.run.vtype), needApart [regSet o.vd] (regSet o.va :: maskSet o.m),
      sound c .row o.m c.stripW (elemReads [o.va] 1)])
    o.vd 1 (fun c r e => c.active o.m r e)
    (fun c r e => ((c.actives o.m r).all fun i => e < i || c.maskBit o.va r i).toNat) s

/-- The exclusive prefix count. -/
def execViota (o : Arith) (s : State) : Result :=
  rowWord (crossLimits o EType.isInt 1) o.vd o.et.width (fun c r e => c.active o.m r e)
    (fun c r e => ((c.marked o r).countP fun i => i < e) % 2 ^ o.et.width) s

/-- A word that reads no register (R227). -/
def indexWord (o : Arith) (f : Nat → Nat → Nat) (s : State) : Result :=
  computeWord .step (fun c => needAll [needEt EType.isInt o.et, needVl c (rowMax o.et), sound c .step o.m o.et.width fun _ _ => []])
    (fun c => c.putElems .step o.m o.et.width o.et.width o.vd fun r e => f r e % 2 ^ o.et.width) s

def execVidx (o : Arith) (s : State) : Result := indexWord o (fun _ e => e) s
def execVidxr (o : Arith) (s : State) : Result := indexWord o (fun r _ => r) s

end Sys2Proof.Machine
end

