-- ==== Sys2Proof/Machine/Permute.lean ====
section
/-! DEFINITION. Permutation words (spec/08 R231 to R235). -/

namespace Sys2Proof.Machine

/-- et codes 0 to 14. -/
def anyType (et : EType) : Bool := et != .sl

/-- `VRGATHER` with indices of `iw` bits (R231). -/
def gatherWord (iw : Nat) (o : Gather) (s : State) : Result :=
  let w := o.et.width
  let g := 2 ^ o.g.toNat
  let rd := regSet o.va g :: regSet o.vb :: maskSet o.m
  rowWord (fun c => needAll [needEt anyType o.et, needVl c (min (rowMax o.et) (16384 / iw)), needAligned o.va g,
      needApart [regSet o.vd] rd,
      sound c .row o.m w fun r e =>
        let i := c.elem o.vb iw r e
        (o.vb, r, e * iw) ::
          (if i / rowMax o.et < g ∧ i % rowMax o.et < c.vlen then
            [(o.va + BitVec.ofNat 5 (i / rowMax o.et), r, i % rowMax o.et * w)] else [])])
    o.vd w (fun c r e => c.active o.m r e)
    (fun c r e =>
      let i := c.elem o.vb iw r e
      let j := i / rowMax o.et
      let k := i % rowMax o.et
      if j < g ∧ k < c.vlen then c.elem (o.va + BitVec.ofNat 5 j) w r k else 0) s

def execVrgather (o : Gather) (s : State) : Result := gatherWord 16 o s
def execVrgatherw (o : Gather) (s : State) : Result := gatherWord 32 o s

/-- The distance of a slide in a row (R232). -/
def slideBy (c : Core) (b : Src) (r : Nat) : Nat :=
  match b with
  | .vo n => (c.slot n).toNat
  | .vi i => i.toNat
  | .vv v => c.elem v 64 r 0

/-- Limits of a slide or a packing word; `reads` says what an element consumes. -/
def slideLimits (o : Arith) (reads : Core → Nat → Nat → Reads) (c : Core) : Except Stop Unit :=
  needAll [needEt anyType o.et, needVl c (rowMax o.et), needApart [regSet o.vd] (arithReads o),
    sound c .row o.m o.et.width (reads c)]

/-- The distance of a row's slide, as it is consumed. -/
def distReads (b : Src) (r : Nat) : Reads := (srcNums b).map fun v => (v, r, 0)

def execVslideup (o : Arith) (s : State) : Result :=
  rowWord
    (slideLimits o fun c r e => distReads o.src r ++
      (if slideBy c o.src r ≤ e then [(o.va, r, (e - slideBy c o.src r) * o.et.width)] else []))
    o.vd o.et.width (fun c r e => c.active o.m r e && decide (slideBy c o.src r ≤ e))
    (fun c r e => c.elem o.va o.et.width r (e - slideBy c o.src r)) s
def execVslidedn (o : Arith) (s : State) : Result :=
  rowWord
    (slideLimits o fun c r e => distReads o.src r ++
      (if e + slideBy c o.src r < c.vlen then [(o.va, r, (e + slideBy c o.src r) * o.et.width)] else []))
    o.vd o.et.width (fun c r e => c.active o.m r e)
    (fun c r e =>
      let n := slideBy c o.src r
      if e + n < c.vlen then c.elem o.va o.et.width r (e + n) else 0) s

/-- The mask operand of `VCOMPRESS` and `VEXPAND`. -/
def selReg (o : Arith) : BitVec 5 :=
  match o.src with
  | .vv v => v
  | _ => 0

/-- Elements of a row that the mask operand selects, ascending. -/
def Core.selected (c : Core) (o : Arith) (r : Nat) : List Nat := (List.range c.vlen).filter fun e => c.maskBit (selReg o) r e

/-- Packed to the front (R233). -/
def execVcompress (o : Arith) (s : State) : Result :=
  rowWord
    (slideLimits o fun c r e => (selReg o, r, e) :: (if c.maskBit (selReg o) r e then [(o.va, r, e * o.et.width)] else []))
    o.vd o.et.width (fun c r e => decide (e < (c.selected o r).length))
    (fun c r e => c.elem o.va o.et.width r ((c.selected o r).getD e 0)) s
/-- Spread to the selected positions (R233). -/
def execVexpand (o : Arith) (s : State) : Result :=
  rowWord
    (slideLimits o fun c r e => (selReg o, r, e) ::
      (if c.maskBit (selReg o) r e then [(o.va, r, ((c.selected o r).countP fun i => i < e) * o.et.width)] else []))
    o.vd o.et.width (fun c r e => c.maskBit (selReg o) r e)
    (fun c r e => c.elem o.va o.et.width r ((c.selected o r).countP fun i => i < e)) s

/-- `VBCAST` (R234): one value in every active element; the vv form reads one element of va for the whole row. -/
def execVbcast (o : Bcast) (s : State) : Result :=
  let w := o.et.width
  match o.src with
  | .elem va e =>
    rowWord (fun c => needAll [needEt anyType o.et, needVl c (rowMax o.et),
        need (decide (e.toNat < rowMax o.et)) 3 e.toNat, needApart [regSet o.vd] (regSet va :: maskSet o.m),
        sound c .row o.m w fun r _ => if e.toNat < c.vlen then [(va, r, e.toNat * w)] else []])
      o.vd w (fun c r x => c.active o.m r x)
      (fun c r _ => if e.toNat < c.vlen then c.elem va w r e.toNat else 0) s
  | .slot n =>
    computeWord .step (fun c => needAll [needEt anyType o.et, needVl c (rowMax o.et),
        sound c .step o.m w fun _ _ => []])
      (fun c => c.putElems .step o.m w w o.vd fun r e => c.src o.et (.vo n) r e) s
  | .imm i =>
    computeWord .step (fun c => needAll [needEt anyType o.et, needVl c (rowMax o.et), needImm o.et (.vi i),
        sound c .step o.m w fun _ _ => []])
      (fun c => c.putElems .step o.m w w o.vd fun r e => c.src o.et (.vi i) r e) s

def execVmv (o : Arith) (s : State) : Result := unaryWord o anyType (fun a => a) s

/-- `VROWMV` and `VROWBC` (R235): destination row d + i comes from source row s + i, or from row s. -/
def rowMoveWord (o : RowMove) (srcRow : Nat → Nat) (srcRows : Nat → Nat) (s : State) : Result :=
  let w := o.et.width
  let d := o.dst.toNat
  let b := o.src.toNat
  computeWord .row
    (fun c =>
      let n := c.rows
      let rowsApart := decide (b + srcRows n ≤ d ∨ d + n ≤ b)
      needAll [needEt anyType o.et, needVl c (rowMax o.et), need (decide (d + n ≤ 16)) 3 (d + n - 1),
        need (decide (b + srcRows n ≤ 16)) 3 (b + srcRows n - 1),
        need (o.vd != o.va || rowsApart) 6 o.vd.toNat, needApart [regSet o.vd] (maskSet o.m),
        unspoilt c (c.consumedAt c.rows (c.inRun .row w) w fun i e => (if o.m then [(0, d + i, e)] else []) ++
          (if c.active o.m (d + i) e then [(o.va, srcRow i, e * w)] else []))])
    (fun c => c.putWhere 16 c.vlen w
      (fun r e => decide (d ≤ r ∧ r < d + c.rows) && c.rowRuns (r - d) && c.active o.m r e) o.vd
      fun r e => c.elem o.va w (srcRow (r - d)) e) s

def execVrowmv (o : RowMove) (s : State) : Result := rowMoveWord o (fun i => o.src.toNat + i) (fun n => n) s
def execVrowbc (o : RowMove) (s : State) : Result := rowMoveWord o (fun _ => o.src.toNat) (fun _ => 1) s

end Sys2Proof.Machine
end

