-- ==== Sys2Proof/Machine/Convert.lean ====
section
/-! DEFINITION. Conversion words (spec/08 R236 to R242; spec/03 R72 to R75). -/

namespace Sys2Proof.Machine

/-- The overflow-mask register as a set. -/
def oveSet (ove : Option (BitVec 5)) : List RegSet := ove.toList.map fun v => regSet v

/-- vc differs from every other register that the word names (R236). -/
def needOve (ove : Option (BitVec 5)) (named : List RegSet) : Except Stop Unit := needApart (oveSet ove) named

/-- `VCVT` (R237): step by step between equal widths, row by row otherwise. Under m = 1 the mask `v0` is a register that the
word names (R236, log 37). -/
def execVcvt (o : Conv) (s : State) : Result :=
  let sw := o.sty.width
  let dw := o.et.width
  let rd := regSet o.va :: maskSet o.m
  let gran : Gran := if sw = dw then .step else .row
  computeWord gran
    (fun c => needAll [needEt anyType o.et, needEt anyType o.sty, needVl c (min (rowMax o.et) (rowMax o.sty)),
      (if sw = dw then .ok () else needApart [regSet o.vd] rd), needOve o.ove (regSet o.vd :: rd),
      sound c gran o.m sw (elemReads [o.va] sw)])
    (fun c =>
      let conv (r e : Nat) : Nat × Bool := convert o.sty o.et o.rnd (c.elem o.va sw r e)
      let on (r e : Nat) : Bool := if sw = dw then c.performs .step o.m sw r e else c.rowOn o.m r e
      (c.putWhere c.rows c.vlen dw on o.vd fun r e => (conv r e).1).orBits o.ove c.rows c.vlen
        fun r e => on r e && (conv r e).2) s

/-- `VPACK2` and `VPACK4` (R238): element P·e + j of vd comes from element e of va + j. -/
def packWord (p : Nat) (o : Conv) (s : State) : Result :=
  let sw := o.sty.width
  let rd := regSet o.va p :: maskSet o.m
  computeWord .row
    (fun c => needAll [needEt anyType o.et, needEt (fun t => anyType t && t.width == p * o.et.width) o.sty,
      needVl c (rowMax o.sty), needAligned o.va p, needApart [regSet o.vd] rd,
      needOve o.ove (regSet o.vd :: rd),
      sound c .row o.m sw (elemReads ((List.range p).map fun j => o.va + BitVec.ofNat 5 j) sw)])
    (fun c =>
      let conv (r x : Nat) : Nat × Bool :=
        convert o.sty o.et o.rnd (c.elem (o.va + BitVec.ofNat 5 (x % p)) sw r (x / p))
      let on (r x : Nat) : Bool := c.rowOn o.m r (x / p)
      (c.putWhere c.rows (p * c.vlen) o.et.width on o.vd fun r x => (conv r x).1).orBits o.ove c.rows (p * c.vlen)
        fun r x => on r x && (conv r x).2) s

def execVpack2 (o : Conv) (s : State) : Result := packWord 2 o s
def execVpack4 (o : Conv) (s : State) : Result := packWord 4 o s

/-- `VUNPK2` and `VUNPK4` (R239): element e of vd + j comes from element P·e + j of va, exactly. -/
def unpackWord (p : Nat) (o : Conv) (s : State) : Result :=
  let sw := o.sty.width
  let dw := o.et.width
  let rd := regSet o.va :: maskSet o.m
  computeWord .row
    (fun c => needAll [needEt anyType o.et, needEt (fun t => anyType t && dw == p * t.width) o.sty,
      needVl c (rowMax o.et), needAligned o.vd p, needApart [regSet o.vd p] rd,
      need (exactConv o.sty o.et) 7 o.et.code.toNat, sound c .row o.m dw (elemReads [o.va] dw)])
    (fun c => foldN p (fun j c' =>
      c'.putWhere c.rows c.vlen dw (fun r e => c.rowOn o.m r e) (o.vd + BitVec.ofNat 5 j)
        fun r e => (convert o.sty o.et .rne (c.elem o.va sw r (p * e + j))).1) c) s

def execVunpk2 (o : Conv) (s : State) : Result := unpackWord 2 o s
def execVunpk4 (o : Conv) (s : State) : Result := unpackWord 4 o s

/-- Targets of `VQNT` (R240). -/
def quantType : EType → Bool
  | .i8 | .i16 | .f16 | .bf16 | .f8e4 | .f8e5 | .f4 => true
  | _ => false

/-- `VQNT` (R240, R75): the exact quotient by the scale of the element's group of 32, converted once. -/
def execVqnt (o : Conv) (s : State) : Result :=
  let sw := o.sty.width
  let rd (c : Core) : List RegSet := regSet o.va :: (if c.sce then [regSet 31] else []) ++ maskSet o.m
  computeWord .row
    (fun c => needAll [needEt (fun t => quantType t && decide (t.width < sw)) o.et,
      needEt (fun t => t == .f32 || t == .bf16 || t == .f16) o.sty, needVl c (min (rowMax o.et) (rowMax o.sty)),
      needApart [regSet o.vd] (rd c), needOve o.ove (regSet o.vd :: rd c),
      sound c .row o.m sw fun r e => (o.va, r, e * sw) :: (if c.sce then [(31, r, e / 32 * 16)] else [])])
    (fun c =>
      let conv (r e : Nat) : Nat × Bool :=
        let x := fval o.sty (c.elem o.va sw r e)
        let q := if c.sce then x.div (fval .bf16 (c.elem 31 16 r (e / 32))) else x
        convVal o.et o.rnd q
      let on (r e : Nat) : Bool := c.rowOn o.m r e
      (c.putWhere c.rows c.vlen o.et.width on o.vd fun r e => (conv r e).1).orBits o.ove c.rows c.vlen
        fun r e => on r e && (conv r e).2) s

/-- `VSLICE` (R241): bit *j* of each saturated source value into sliced element row × `vl` + elem of plane *j*. -/
def sliceWord (second : Bool) (o : Conv) (s : State) : Result :=
  let sw := o.sty.width
  let rd := regSet o.va :: maskSet o.m
  computeWord .whole
    (fun c => needAll [needEt (fun t => t == .sl) o.et, needEt EType.isInt o.sty, needVl c (rowMax o.sty),
      need (decide (c.rows * c.vlen ≤ 16384)) 3 (c.rows * c.vlen), needApart [regSet o.vd] rd,
      needOve o.ove (regSet o.vd :: rd), sound c .whole o.m sw (elemReads [o.va] sw)])
    (fun c =>
      let k := c.slWidth second
      let lo : Int := if c.slSigned second then -((2 ^ (k - 1) : Nat) : Int) else 0
      let hi : Int := if c.slSigned second then ((2 ^ (k - 1) : Nat) : Int) - 1 else ((2 ^ k : Nat) : Int) - 1
      let val (r e : Nat) : Int × Bool := saturate lo hi (intVal o.sty (c.elem o.va sw r e))
      let on (r e : Nat) : Bool := c.wholeRuns && c.active o.m r e
      (c.putWhere k (c.rows * c.vlen) 1 (fun _ E => on (E / c.vlen) (E % c.vlen)) o.vd
        fun j E => (wrap k (val (E / c.vlen) (E % c.vlen)).1 >>> j) % 2).orBits o.ove c.rows c.vlen
        fun r e => on r e && (val r e).2) s

def execVslicea (o : Conv) (s : State) : Result := sliceWord false o s
def execVsliceb (o : Conv) (s : State) : Result := sliceWord true o s

/-- The value that planes 0 to k − 1 hold for a sliced element (R55). -/
def Core.slicedVal (c : Core) (v : BitVec 5) (k : Nat) (signed : Bool) (E : Nat) : Int :=
  let x := foldN k (fun j acc => acc + (c.elem v 1 j E) <<< j) 0
  if signed then toSigned k x else (x : Int)

/-- `VUNSLICE` (R241). -/
def unsliceWord (second : Bool) (o : Conv) (s : State) : Result :=
  let dw := o.et.width
  let rd := regSet o.va :: maskSet o.m
  computeWord .whole
    (fun c =>
      let k := c.slWidth second
      let holds : Bool := if c.slSigned second then o.et.isSigned && decide (k ≤ dw)
        else if o.et.isSigned then decide (k < dw) else decide (k ≤ dw)
      needAll [needEt EType.isInt o.et, needEt (fun t => t == .sl) o.sty, needVl c (rowMax o.et),
        need (decide (c.rows * c.vlen ≤ 16384)) 3 (c.rows * c.vlen), needApart [regSet o.vd] rd,
        need holds 7 o.et.code.toNat,
        sound c .whole o.m dw fun r e => (List.range k).map fun j => (o.va, j, r * c.vlen + e)])
    (fun c => c.putWhere c.rows c.vlen dw (fun r e => c.wholeRuns && c.active o.m r e) o.vd
      fun r e => wrap dw (c.slicedVal o.va (c.slWidth second) (c.slSigned second) (r * c.vlen + e))) s

def execVunslicea (o : Conv) (s : State) : Result := unsliceWord false o s
def execVunsliceb (o : Conv) (s : State) : Result := unsliceWord true o s

/-! ## 2:4 compression (R242) -/

/-- Types of `VCPRS4`. -/
def cprsType : EType → Bool
  | .i8 | .i16 | .bf16 | .f16 | .f8e4 | .f8e5 | .f4 => true
  | _ => false

/-- Whether x has a smaller magnitude than y, exactly; a NaN ranks above every number. -/
def magLess (et : EType) (x y : Nat) : Bool :=
  let mag (v : FVal) : FVal := match v with
    | .nan => .nan
    | .inf _ => .inf false
    | .fin _ m e => .fin false m e
  let a := mag (valOf et x)
  let b := mag (valOf et y)
  if a.isNan then false else if b.isNan then true else a.cmp b == some .lt

/-- The indices 0 to 3 of the two elements that a group keeps, in ascending order: those with fewest others ahead of
them, a tie going to the lower index. -/
def keptPair (et : EType) (x : Nat → Nat) : Nat × Nat :=
  let ahead (i j : Nat) : Bool := magLess et (x i) (x j) || (!magLess et (x j) (x i) && decide (j < i))
  let kept := (List.range 4).filter fun i => ((List.range 4).countP fun j => j ≠ i && ahead i j) < 2
  (kept.getD 0 0, kept.getD 1 0)

/-- `VCPRS4`: kept values to vd, kept indices to vc. -/
def execVcprs4 (o : Cprs) (s : State) : Result :=
  let w := o.et.width
  computeWord .row
    (fun c => needAll [needEt cprsType o.et, needVl c (rowMax o.et), need (c.vlen % 4 == 0) 2 c.vlen,
      needApart [regSet o.vd, regSet o.vc] [regSet o.va], sound c .row false w (elemReads [o.va] w)])
    (fun c =>
      let pair (r g : Nat) : Nat × Nat := keptPair o.et fun i => c.elem o.va w r (4 * g + i)
      let pick (r x : Nat) : Nat := if x % 2 = 0 then (pair r (x / 2)).1 else (pair r (x / 2)).2
      (c.putWhere c.rows (c.vlen / 2) w (fun r _ => c.rowRuns r) o.vd
          fun r x => c.elem o.va w r (4 * (x / 2) + pick r x)).putWhere c.rows (c.vlen / 4) 4
        (fun r _ => c.rowRuns r) o.vc fun r g => (pair r g).1 + 4 * (pair r g).2) s

end Sys2Proof.Machine
end

