-- ==== Sys2Proof/Machine/Darner.lean ====
section
/-! DEFINITION. The Darner: composition of automaton maps, constant prefixes, masks of legal tokens (spec/11 R318 to
R322). -/

namespace Sys2Proof.Machine

/-- `vtype`.DW as carried (R318). -/
def Core.wide (c : Core) : Bool := c.run.vtype.getLsbD 14

/-- Entry *x* of the map in row *r* of a register or group (R318). -/
def Core.mapEntry (c : Core) (v : BitVec 5) (r x : Nat) : Nat :=
  if c.wide then c.elem (v + BitVec.ofNat 5 (x / 1024)) 16 r (x % 1024) else c.elem v 8 r x

/-- A map as the list of its *S* entries. -/
def Core.mapRow (c : Core) (v : BitVec 5) (r : Nat) : List Nat := (List.range c.vlen).map (c.mapEntry v r)

/-- The composition *f* then *g* (R319): a sentinel stays. -/
def composeMaps (f g : List Nat) : List Nat := f.map fun y => if y < f.length then g.getD y 0 else y

/-- A map written to row *r* of a register or group. -/
def Core.putMap (c : Core) (vd : BitVec 5) (r : Nat) (f : List Nat) : Core :=
  if f.isEmpty then c
  else if c.wide then
    foldN ((f.length + 1023) / 1024) (fun j c =>
      let v := vd + BitVec.ofNat 5 j
      let part := (f.drop (1024 * j)).take 1024
      c.setV v ((c.vreg v).setRow r (putRow 16 part.length (fun _ => true) (fun e => part.getD e 0) ((c.vreg v).row r)))) c
  else c.setV vd ((c.vreg vd).setRow r (putRow 8 f.length (fun _ => true) (fun e => f.getD e 0) ((c.vreg vd).row r)))

/-- Registers of a group in each field. -/
def darnSets (o : Darn) (vs : List (BitVec 5)) : List RegSet := vs.map fun v => regSet v (2 ^ o.g.toNat)

/-- Entry *e* of the map in row *r* of a register or group, as it is consumed. -/
def mapReads (c : Core) (v : BitVec 5) (r e : Nat) : Reads :=
  if c.wide then [(v + BitVec.ofNat 5 (e / 1024), r, e % 1024 * 16)] else [(v, r, e * 8)]

/-- Limits of the map words (R318, R322); `maps` are the registers whose maps are read, each with the row for row *r*. -/
def darnLimits (o : Darn) (groups : List (BitVec 5)) (wr rd : List RegSet) (maps : List (BitVec 5 × (Nat → Nat))) (c : Core) : Except Stop Unit :=
  let g := 2 ^ o.g.toNat
  needAll ([need (c.wide || g == 1) 12 0,
    need (decide (c.vlen ≤ (if c.wide then min (g * 1024) 4096 else 256))) 12 c.vlen] ++
    groups.map (fun v => needAligned v g) ++ [needApart wr rd,
    sound c .whole false (if c.wide then 16 else 8) fun r e => maps.flatMap fun x => mapReads c x.1 (x.2 r) e])

/-- A word of the Darner retires as a whole (R322). -/
def darnWord (limits : Core → Except Stop Unit) (f : Core → Core) (s : State) : Result :=
  vecWord .whole false limits (fun s => .ok { s with core := if s.core.wholeRuns then f s.core else s.core }) s

/-- `mcomp` (R320). -/
def execMcomp (o : Darn) (s : State) : Result :=
  darnWord (darnLimits o [o.vd, o.va, o.vb] (darnSets o [o.vd]) (darnSets o [o.va, o.vb])
    [(o.va, id), (o.vb, id)])
    (fun c => foldN c.rows (fun r d => d.putMap o.vd r (composeMaps (c.mapRow o.va r) (c.mapRow o.vb r))) c) s

/-- Prefix compositions of the rows of va, from a first map when there is one. -/
def prefixMaps (c : Core) (va : BitVec 5) (first : Option (List Nat)) : List (List Nat) :=
  ((List.range c.rows).foldl (fun (acc : List (List Nat) × Option (List Nat)) r =>
    let f := c.mapRow va r
    let p := match acc.2 with
      | some q => composeMaps q f
      | none => f
    (acc.1 ++ [p], some p)) ([], first)).1

/-- All entries of a map are equal. -/
def constantMap (f : List Nat) : Bool := f.all fun y => y == f.headD 0

/-- Prefix maps written, and bit *r* of row 0 of vc for each constant one; a word with `vl` = 0 writes nothing (R13). -/
def Core.putPrefixes (c : Core) (vd vc : BitVec 5) (ps : List (List Nat)) : Core :=
  if c.vlen = 0 then c else
  let c := foldN ps.length (fun r c => c.putMap vd r (ps.getD r [])) c
  foldN ps.length (fun r c => c.putBit vc 0 r (constantMap (ps.getD r []))) c

/-- `mcscan` (R320). -/
def execMcscan (o : Darn) (s : State) : Result :=
  darnWord (darnLimits o [o.vd, o.va, o.vc] (darnSets o [o.vd] ++ [regSet o.vc]) (darnSets o [o.va]) [(o.va, id)])
    (fun c => c.putPrefixes o.vd o.vc (prefixMaps c o.va none)) s

/-- `mcscanc` (R320): row 0 of vb comes first. -/
def execMcscanc (o : Darn) (s : State) : Result :=
  darnWord (darnLimits o [o.vd, o.va, o.vb, o.vc] (darnSets o [o.vd] ++ [regSet o.vc]) (darnSets o [o.va, o.vb])
    [(o.va, id), (o.vb, fun _ => 0)])
    (fun c => c.putPrefixes o.vd o.vc (prefixMaps c o.va (some (c.mapRow o.vb 0)))) s

/-- Flat bit *F* of a register (R321). -/
def Core.flatBit (c : Core) (v : BitVec 5) (f : Nat) : Bool := c.maskBit v (f / 16384) (f % 16384)

def legalLimits (o : Darn) (bound : Core → Nat) (w : Core → Nat) (reads : Core → Nat → Nat → Reads) (c : Core) :
    Except Stop Unit :=
  let rd := [regSet o.va, regSet o.vb] ++ maskSet o.m
  needAll [needVl c (bound c), needApart [regSet o.vd] rd, sound c .whole o.m (w c) (reads c)]

/-- `mclegal` (R321): the liveness of the state that each token leads to. -/
def execMclegal (o : Darn) (s : State) : Result :=
  darnWord (legalLimits o (fun c => if c.wide then 1024 else 2048) (fun c => if c.wide then 16 else 8)
      fun c r e =>
        let w := if c.wide then 16 else 8
        let y := c.elem o.va w r e
        [(o.va, r, e * w), (o.vb, y / 16384, y % 16384)])
    (fun c => foldN c.rows (fun r d => (c.actives o.m r).foldl (fun d e =>
      let f := r * c.vlen + e
      d.putBit o.vd (f / 16384) (f % 16384) (c.flatBit o.vb (c.elem o.va (if c.wide then 16 else 8) r e))) d) c) s

/-- `mclegalx` (R321): a token mask mapped onto candidates. -/
def execMclegalx (o : Darn) (s : State) : Result :=
  darnWord (legalLimits o (fun _ => 512) (fun _ => 32) fun c r e =>
      let t := c.elem o.vb 32 r e
      (o.vb, r, e * 32) :: (if t < 262144 then [(o.va, t / 16384, t % 16384)] else []))
    (fun c => foldN c.rows (fun r d => (c.actives o.m r).foldl (fun d e =>
      let t := c.elem o.vb 32 r e
      d.putBit o.vd r e (decide (t < 262144) && c.flatBit o.va t)) d) c) s

end Sys2Proof.Machine
end

