-- ==== Sys2Proof/Machine/Feeding.lean ====
section
/-! DEFINITION. Lengths, slots and the S-words that feed the queues (spec/01 R12 to R19, spec/07 R193 to R200,
spec/20 R372, R373, R382). -/

namespace Sys2Proof.Machine

/-- A request of rows clipped to 1 to 16 (R12). -/
def clipRows (b : Nat) : BitVec 5 := BitVec.ofNat 5 (min (max b 1) 16)

/-- A change of length, rows or type ends a trim (R257). -/
def Core.newEpoch (c : Core) : Core := { c with epoch := c.epoch + 1 }

/-- `SETVL` (R12, R193): with a pre-emption request pending it traps before it grants (R36). -/
def execSetvl (d a b : BitVec 5) (s : State) : Result :=
  if s.core.preempt then .next (genFault s 0x17 0 0)
  else
    let vl := min (readS s a).toNat (vtypeMax s.core.vtype)
    let s' := s.withCore fun c =>
      ({ c with vl := BitVec.ofNat 15 vl, rc := clipRows (readS s b).toNat } : Core).newEpoch
    .next (writeNext s' d (BitVec.ofNat 64 vl))

/-- `SPUT` (R194). -/
def execSput (slot : BitVec 4) (a : BitVec 5) (s : State) : Result :=
  .next (s.withCore fun c => { c with o := c.o.set slot.toNat (readS s a) }).advance

/-- Whether placing is refused because parked words remain in K mode (R388). -/
def Core.parkedInK (c : Core) : Bool := c.kmode && (c.words.any QEntry.parked || !c.restore.isEmpty)

/-- The refusals of a word that `EMIT` or `EMITQ` would place, in the order of R368. -/
def emitStop (s : State) (w : Word) : Option State :=
  if s.core.parkedInK then some (operandStop s 0)
  else
    match decodeV w with
    | .error _ => some (genFault s 0x02 w 0)
    | .ok _ => if s.core.drawExhausts w then some (genFault s 0x12 s.core.drawPassed 0) else none

/-- An emitted word is placed, with its provenance, and the sequence number advances (R17). -/
def Core.emit (c : Core) (w : Word) : Core :=
  ({ c with eseq := c.eseq + 1 } : Core).place w (emitProv c.pc c.eseq) false

/-- `EMIT` (R195). -/
def execEmit (a : BitVec 5) (s : State) : Result :=
  let w := readS s a
  match emitStop s w with
  | some s' => .next s'
  | none => if s.core.room (queOf w) then .next (s.withCore fun c => c.emit w).advance else .next s.stall

/-- `EMITQ` (R196): it never waits, and `s[d]` says whether the word was placed. -/
def execEmitq (d a : BitVec 5) (s : State) : Result :=
  let w := readS s a
  match emitStop s w with
  | some s' => .next s'
  | none =>
    if s.core.room (queOf w) then
      -- the mark keeps the Last as it stands after the S-word, `s[d]` written (R392)
      .next ((writeS s d 1).withCore fun c => c.emit w).advance
    else .next (writeNext s d 0)

/-! ## `VFETCH` (R16, R197, R50, R372, R373, R382) -/

/-- `resoff` with V and OFF (Table 2-12). -/
def resoffAt (off : Nat) : Word := BitVec.ofNat 64 (2 ^ 9 + off % 512)

/-- The block word at an offset, through the block cache. -/
def blockWord (s : State) (base : Word) (off : Nat) : Except Fail (Word × State) :=
  match fetchBytes s true (base + BitVec.ofNat 64 (8 * off)) 8 with
  | .error f => .error f
  | .ok (w, s) => .ok (BitVec.ofNat 64 w, s)

/-- A `VFETCH` that stops at an offset, leaving the earlier words placed. -/
def State.stoppedAt (s : State) (off : Nat) : State :=
  s.withCore fun c => { c with resoff := resoffAt off, midFetch := some c.pc }

/-- Placement from an offset on; V is cleared with OFF (R50, log 28). The Last stays at the `VFETCH` while a word of it waits
for room (R16 lets it run S-words that enter no queue, log 66). -/
def placeBlock (base : Word) : Nat → Nat → State → Result
  | 0, _, s => .next (genFault s 0x07 base base)
  | n + 1, off, s =>
    let va := base + BitVec.ofNat 64 (8 * off)
    match blockWord s base off with
    | .error f =>
      let s := (s.touched va 8 .fetch).stoppedAt off
      lastStop s (s.failStop .last va .fetch 0 f)
    | .ok (w, s) =>
      if w = vstop then
        .next (s.withCore fun c => { c with resoff := 0, midFetch := none }).advance
      else if off = 511 then
        .next (genFault (s.withCore fun c => { c with resoff := 0 }) 0x07 base base)
      else if opOf w = 0x7F then .next (genFault (s.stoppedAt off) 0x02 w 0)
      else if s.core.drawExhausts w then .next (genFault (s.stoppedAt off) 0x12 s.core.drawPassed 0)
      else if !s.core.room (queOf w) then .next (s.stoppedAt off).stall
      else
        -- whether a further block word follows (R393)
        let more := match blockWord s base (off + 1) with
          | .ok (w', _) => w' != vstop
          | .error _ => true
        placeBlock base n (off + 1) (s.withCore fun c => c.place w (blockProv base off) more)

/-- `VFETCH` (R197): the block from its first word, or from `resoff`.OFF when this `VFETCH` is under way (R50). -/
def execVfetch (a : BitVec 5) (off : BitVec 16) (s : State) : Result :=
  let base := readS s a + sextImm off * 8
  if s.core.parkedInK then .next (operandStop s 0)
  else if base.toNat % 8 ≠ 0 then .next (misaligned s base)
  else
    let start := if s.core.midFetch = some s.core.pc ∧ s.core.resoff.getLsbD 9 then wfield s.core.resoff 8 0 else 0
    match fetchBytes s true base 8 with
    | .error f => lastStop (s.touched base 8 .fetch) (s.failStop .last base .fetch 0 f)
    | .ok _ => placeBlock base (512 - start) start s

/-! ## `VDRAIN` and `QWAIT` (R199, R200) -/

/-- The queues that a mask names, with their lowest bit first (Table 6-5). -/
def maskedQueues (mask : BitVec 4) : List Que :=
  (if mask.getLsbD 0 then [Que.vec] else []) ++ (if mask.getLsbD 1 then [Que.mat] else []) ++
    (if mask.getLsbD 2 then [Que.cpy] else []) ++ (if mask.getLsbD 3 then [Que.col] else [])

/-- `VDRAIN` (R199). -/
def execVdrain (mask : BitVec 4) (s : State) : Result :=
  if mask.getLsbD 0 && !s.core.openConvoy.isEmpty then .next (openStop s 4)
  else if (maskedQueues mask).all fun q => (s.core.queue q).isEmpty then .next s.advance
  else .next s.stall

/-- `QWAIT` (R200): a count above the smallest capacity named is an operand limit. -/
def execQwait (mask : BitVec 4) (a : BitVec 5) (s : State) : Result :=
  let n := (readS s a).toNat
  let qs := maskedQueues mask
  if qs.any fun q => q.cap < n then .next (operandStop s n)
  else if n = 0 || ((qs.all fun q => (s.core.queue q).length + n ≤ q.cap) && s.core.history + n ≤ Config.history) then
    .next s.advance
  else .next s.stall

end Sys2Proof.Machine
end

