-- ==== Sys2Proof/Machine/Streams.lean ====
section
/-! DEFINITION. Shape records, stream words and index remapping (spec/02 R61, R62, spec/04 R119, spec/09 R243 to R248),
and the checks that the element accesses of a word go through before its fault point (spec/21 R390, R396, spec/22
R409 to R413, R419). -/

namespace Sys2Proof.Machine

/-- A shape record: ten i64 elements (Table 2-20). -/
abbrev Shape := Vector Word 10

def shapeSp (r : Shape) : Bool := (r[1]).getLsbD 8
def shapeEt (r : Shape) : EType := EType.ofCode (BitVec.ofNat 4 (wfield (r[1]) 7 4))
def shapeRank (r : Shape) : Nat := wfield (r[1]) 2 0
def shapeExt (r : Shape) (k : Nat) : Nat := (r.toList.getD (2 + k) 0).toNat
def shapeStr (r : Shape) (k : Nat) : Word := r.toList.getD (6 + k) 0

/-- A valid record (R244); the record with element 1 zero is the closed one. -/
def shapeValid (r : Shape) : Bool :=
  r[1] == 0 ||
    (wfield (r[1]) 63 9 == 0 && !(r[1]).getLsbD 3 && decide (1 ≤ shapeRank r ∧ shapeRank r ≤ 4) &&
      shapeEt r != .sl && (shapeEt r != .f4 || shapeRank r == 1) &&
      (List.range (shapeRank r - 1)).all fun k => shapeExt r k != 0)

/-- The walk of `StreamAddr` over the dimensions from `k` on (R243). -/
def walkDims (r : Shape) : Nat → Nat → Nat → Word → Word
  | 0, k, l, a => a + BitVec.ofNat 64 l * shapeStr r k
  | n + 1, k, l, a =>
    walkDims r n (k + 1) (l / shapeExt r k) (a + BitVec.ofNat 64 (l % shapeExt r k) * shapeStr r k)

/-- `StreamAddr` (R243): the address of element *L*, and for `f4` whether it is the high nibble. -/
def streamAddr (r : Shape) (l : Nat) : Word × Bool :=
  if shapeEt r = .f4 then (r[0] + BitVec.ofNat 64 (l / 2), l % 2 == 1)
  else (walkDims r (shapeRank r - 1) 0 l r[0], false)

/-! ## Remap (R42, R119) -/

def Remap.mode (x : Remap) : Nat := wfield x.cfg 1 0
def Remap.sh (x : Remap) : Nat := wfield x.cfg 7 2
def Remap.modn (x : Remap) : Nat := wfield x.cfg 31 8
def Remap.mul (x : Remap) : Nat := wfield x.cfg 63 32

/-- A configuration that `Remap` may use. -/
def Remap.ok (x : Remap) : Bool :=
  match x.mode with
  | 0 => x.modn != 0
  | 1 => x.mul % 2 == 1 && decide (1 ≤ x.sh ∧ x.sh ≤ 32)
  | 2 => true
  | _ => false

def Remap.apply (x : Remap) (i : Nat) : Nat :=
  match x.mode with
  | 0 => i % x.modn
  | 1 => (i * x.mul % 2 ^ 32) >>> (32 - x.sh)
  | _ => rowGet x.table (i % 4096 * 32) 32

/-! ## Elements that a word accesses -/

/-- An active element: its place in the tile, its *lin*, its address, for `f4` its nibble, its link index (R143),
and whether this run performs it. -/
structure Elem where
  row : Nat
  e : Nat
  lin : Nat
  addr : Word
  high : Bool
  link : Nat
  on : Bool
  deriving DecidableEq, Repr

/-- Accesses that have failed before the fault point: the failure of lowest *lin*, whether the host has refused a
page, the pages to request with the *lin* of the first, and whether a page is in migration. -/
structure Fails where
  hard : Option (Nat × Stop)
  refused : Bool
  pages : List PageReq
  first : Nat
  held : Bool
  deriving DecidableEq, Repr

def Fails.none : Fails := ⟨.none, false, [], 0, false⟩

/-- One more failure, in ascending *lin*. -/
def Fails.note (fs : Fails) (b : Option Batch) (va : Word) (k : Acc) (lin step : Nat) (f : Fail) : Fails :=
  let hard (st : Stop) (refused : Bool) : Fails :=
    { fs with hard := if fs.hard.isSome then fs.hard else some (lin, st), refused := fs.refused || refused }
  match f with
  | .page hp =>
    let p := pageReq va k hp
    if (b.map fun b => b.refused && b.pages.any fun x => x.page == p.page).getD false then
      hard (.stop ⟨0x08, va, va, step⟩) true
    else if fs.pages.any fun x => x.page == p.page then fs
    else { fs with pages := fs.pages ++ [p], first := if fs.pages.isEmpty then lin else fs.first }
  | .migrating => { fs with held := true }
  | f => hard (.stop ⟨f.cause, va, va, step⟩) false

/-- What the failures come to: the failure of lowest *lin*, unless an earlier element waits for its page (R396, R410,
R413, log 16); then the batch, or the wait for a migration. -/
def Fails.stop (fs : Fails) (s : State) (o : Owner) : Option Stop :=
  let wait : Option Stop :=
    if fs.pages.isEmpty then (if fs.held then some (.wait .none) else .none)
    else some ((s.pageWait o fs.pages).getD (.wait .none))
  match fs.hard with
  | some (lin, st) => if fs.refused || fs.pages.isEmpty || lin < fs.first then some st else wait
  | .none => wait

/-- The batch that an owner has out. -/
def State.batchOf (s : State) (o : Owner) : Option Batch := s.core.batches.find? fun b => b.owner == o

/-- Translation and checks of plain accesses of `n` bytes (R390): the places, or the stop. `step` says at which step
an element stands. A trial of the checks keeps the translations that it finds. -/
def checkPlain (o : Owner) (k : Acc) (n : Nat) (step : Elem → Nat) (els : List Elem) (s : State) :
    Except Stop (List (Elem × Place) × State) :=
  let b := s.batchOf o
  let r := els.foldl (fun (acc : List (Elem × Place) × Fails × State) el =>
    match probeFor acc.2.2 o el.addr n k false with
    | .ok (p, attr, s') =>
      (acc.1 ++ [(el, p)], acc.2.1, if s.core.mode == .check then s'.pin el.addr k p attr else s')
    | .error f => (acc.1, acc.2.1.note b el.addr k el.lin (step el) f, acc.2.2)) ([], Fails.none, s)
  match r.2.1.stop s o with
  | some st => .error st
  | none => .ok (r.1, r.2.2)

/-- Doublewords at consecutive addresses, read after all of them have been checked. -/
def readDoubles (o : Owner) (va : Word) (n step : Nat) (s : State) : Except Stop (List Word × State) :=
  let els := (List.range n).map fun i => (⟨0, i, 0, va + BitVec.ofNat 64 (8 * i), false, 0, true⟩ : Elem)
  match checkPlain o .read 8 (fun _ => step) els s with
  | .error e => .error e
  | .ok (ps, s) =>
    ps.foldl (fun acc x =>
      match acc with
      | .error e => .error e
      | .ok (ws, s) =>
        if s.poisoned x.2 then .error (.deferred ⟨0x19, x.1.addr, x.1.addr, step⟩)
        else .ok (ws ++ [BitVec.ofNat 64 (s.readPlace x.2 8)], s)) (.ok ([], s))

/-- The accesses of `readDoubles`. -/
def doubleUses (va : Word) (n : Nat) : Uses := (List.range n).map fun i => (va + BitVec.ofNat 64 (8 * i), 8, .read)

/-! ## Stream words -/

/-- Row 0 of a register must be sound in its first `n` bits (R419). -/
def soundRow0 (c : Core) (v : BitVec 5) (n : Nat) : Except Stop Unit := soundRows c 1 n [regSet v]

/-- A word whose effect is not made of elements and is confined to the core. -/
def plainWord (inRegion : Bool) (limits : Core → Except Stop Unit) (f : Core → Core) (s : State) : Result :=
  vecWord .whole inRegion limits (fun s => .ok { s with core := if s.core.wholeRuns then f s.core else s.core }) s

/-- The i64 elements 0 to 9 of row 0. -/
def Core.shapeAt (c : Core) (v : BitVec 5) : Shape := .ofFn fun i => c.i64 v i.val

/-- A stream opened (R245); the closed record leaves it closed at position 0 (R247). -/
def Core.openStream (c : Core) (q : BitVec 4) (r : Shape) (pos : Word) : Core :=
  let x : Stream := if r[1] = 0 then ⟨none, 0⟩ else ⟨some r, pos⟩
  ({ c with q := c.q.set q.toNat x } : Core).dirtyStream q

def needShape (r : Shape) (q : BitVec 4) : Except Stop Unit := need (shapeValid r) 8 q.toNat

/-- `SOPEN` (R245): its form 01 reads the record from memory. -/
def execSopen (_c : Bool) (src : RecSrc) (q : BitVec 4) (s : State) : Result :=
  match src with
  | .reg va =>
    plainWord false (fun c => needAll [needShape (c.shapeAt va) q, soundRow0 c va 640])
      (fun c => c.openStream q (c.shapeAt va) 0) s
  | .slot n =>
    memWord .whole false false (fun _ => .ok ())
      (fun s =>
        if !s.core.wholeRuns then .ok s
        else
          let va := s.core.slot n
          if va.toNat % 8 ≠ 0 then .error (.stop ⟨0x06, va, va, 0⟩)
          else
            match readDoubles (.word s.core.run.rank) va 10 0 s with
            | .error e => .error e
            | .ok (ws, s) =>
              let r : Shape := .ofFn fun i => ws.getD i.val 0
              match needShape r q with
              | .error e => .error e
              | .ok _ => if s.core.mode = .check then .ok s else .ok { s with core := s.core.openStream q r 0 })
      (fun c => if (c.slot n).toNat % 8 = 0 then doubleUses (c.slot n) 10 else []) s

/-- `sopenp`: the position comes from element 10. -/
def execSopenp (_c : Bool) (va : BitVec 5) (q : BitVec 4) (s : State) : Result :=
  plainWord false (fun c => needAll [needShape (c.shapeAt va) q, soundRow0 c va 704])
    (fun c => c.openStream q (c.shapeAt va) (c.i64 va 10)) s

/-- The signed amount of `SADV` (R246). -/
def sadvBy (c : Core) : Src → Word
  | .vv v => c.i64 v 0
  | .vo n => c.slot n
  | .vi i => sextImm i

/-- `SADV` (R246): a closed stream is an operand limit. -/
def execSadv (_c : Bool) (q : BitVec 4) (src : Src) (s : State) : Result :=
  plainWord true
    (fun c => needAll [need (c.q[q.toNat]).shape.isSome 8 q.toNat,
      match src with
      | .vv v => soundRow0 c v 64
      | _ => .ok ()])
    (fun c => c.moveStream q (sadvBy c src)) s

/-- `SCLOSE` (R247). -/
def execSclose (_c : Bool) (q : BitVec 4) (s : State) : Result :=
  plainWord false (fun _ => .ok ()) (fun c => { c with q := c.q.set q.toNat ⟨none, 0⟩ }) s

/-- `ssave` (R247): record and position, or zeros for a closed stream, in elements 0 to 10 of row 0. -/
def execSsave (_c : Bool) (vd : BitVec 5) (q : BitVec 4) (s : State) : Result :=
  plainWord false (fun _ => .ok ())
    (fun c =>
      let x := c.q[q.toNat]
      let ws : List Word := match x.shape with
        | some r => r.toList ++ [x.pos]
        | none => List.replicate 11 0
      c.setV vd ((c.vreg vd).setRow 0 (foldN 11 (fun i row => rowSet row (64 * i) 64 (ws.getD i 0).toNat)
        ((c.vreg vd).row 0)))) s

end Sys2Proof.Machine
end

