-- ==== Sys2Proof/Machine/Matrix.lean ====
section
/-! DEFINITION. Tile words of the matrix queue (spec/03 R80, R81, spec/10 R273 to R282). -/

namespace Sys2Proof.Machine

/-! ## Tiles and windows (R274) -/

/-- An element of a tile, as `f32` bits. -/
def Tile.get (t : Tile) (row col : Nat) : Nat := rowGet (t.getD row 0) (32 * col) 32
def Tile.put (t : Tile) (row col x : Nat) : Tile :=
  t.setIfInBounds row (rowSet (t.getD row 0) (32 * col) 32 x)

def Core.tile (c : Core) (t : BitVec 2) : Tile := c.tiles[t.toNat]
def Core.win (c : Core) (t : BitVec 2) : Window := c.wins[t.toNat]

/-- An element of the window of a tile. -/
def Core.tileElem (c : Core) (t : BitVec 2) (i n : Nat) : Nat :=
  (c.tile t).get ((c.win t).row0.toNat + i) ((c.win t).col0.toNat + n)

/-- The window holds the word's rows and columns (code 10). -/
def needWindow (c : Core) (t : BitVec 2) : Except Stop Unit :=
  need (decide ((c.win t).row0.toNat + c.rows ≤ 16 ∧ (c.win t).col0.toNat + c.vlen ≤ 2048)) 10 0

/-- Spoiled element groups of the window that hold an element which the word performs (R56, R419). -/
def soundTile (c : Core) (m : Bool) (t : BitVec 2) : Except Stop Unit :=
  let w := c.win t
  if c.poison.any fun p =>
      match p with
      | .tile t' row eg => t' == t && decide (w.row0.toNat ≤ row ∧ row < w.row0.toNat + c.rows) &&
          (List.range c.vlen).any fun n => (w.col0.toNat + n) / 16 == eg && c.active m (row - w.row0.toNat) n
      | _ => false then .error (.deferred ⟨0x19, 0, 0, 0⟩)
  else .ok ()

/-- New values for the window elements that `on` selects; a tile that changes is marked dirty (R275). -/
def Core.putTile (c : Core) (t : BitVec 2) (on : Nat → Nat → Bool) (f : Nat → Nat → Nat) : Core :=
  if (List.range c.rows).any fun i => (List.range c.vlen).any fun n => on i n then
    let w := c.win t
    let tile := foldN c.rows (fun i x => foldN c.vlen (fun n x =>
      if on i n then x.put (w.row0.toNat + i) (w.col0.toNat + n) (f i n) else x) x) (c.tile t)
    ({ c with tiles := c.tiles.set t.toNat tile } : Core).dirtyTile t
  else c

/-- Spoiled element groups that a word overwrites whole are sound again (log 15). -/
def Core.freshTile (c : Core) (t : BitVec 2) (on : Nat → Nat → Bool) : Core :=
  if c.poison.isEmpty then c
  else
    let w := c.win t
    { c with poison := c.poison.filter fun p =>
        match p with
        | .tile t' row eg =>
          !(t' == t && decide (w.row0.toNat ≤ row ∧ row < w.row0.toNat + c.rows) &&
            (upTo 16 (16 * eg)).all fun col =>
              decide (w.col0.toNat ≤ col ∧ col < w.col0.toNat + c.vlen) && on (row - w.row0.toNat) (col - w.col0.toNat))
        | _ => true }

def execMshape (t : BitVec 2) (row0 : BitVec 4) (col0 : BitVec 11) (s : State) : Result :=
  matWord (fun _ => .ok ())
    (fun c => ({ c with wins := c.wins.set t.toNat ⟨row0, col0⟩ } : Core).dirtyTile t) s

/-- `mshapeg` (R275): i64 element 0 of row 0. -/
def execMshapeg (vd : BitVec 5) (t : BitVec 2) (s : State) : Result :=
  matWord (fun _ => .ok ())
    (fun c => c.putElem vd 64 0 0 ((c.win t).row0.toNat + (c.win t).col0.toNat <<< 16)) s

/-- `MZERO` (R275): the whole tile, whatever its window. -/
def execMzero (t : BitVec 2) (s : State) : Result :=
  matWord (fun _ => .ok ())
    (fun c =>
      let c : Core := { c with tiles := c.tiles.set t.toNat (.replicate 16 0) }
      let c : Core := { c with poison := c.poison.filter fun p =>
        match p with
        | .tile t' _ _ => t' != t
        | _ => true }
      c.dirtyTile t) s

/-! ## Products (R276 to R279) -/

/-- The exact sum of a block of products (R80, R81). -/
def blockSum (ps : List FVal) : FVal := (orderedFold (FVal.add .rne) ps).getD (.fin false 0 0)

/-- The dot product of one output element: blocks of 32 in ascending order, each added to `acc` with one rounding;
`scale j` multiplies block *j*. -/
def dot (k : Nat) (prod : Nat → FVal) (scale : Nat → FVal → FVal) (acc : Nat) : Nat :=
  foldN ((k + 31) / 32) (fun j acc =>
    let sum := scale j (blockSum ((upTo (min 32 (k - 32 * j)) (32 * j)).map prod))
    roundF32 ((f32 acc).add .rne sum)) acc

/-- Element types of `MMA` (R277). -/
def mmaType : EType → Bool
  | .f32 | .bf16 | .f16 | .f8e4 | .f8e5 | .f4 => true
  | _ => false

/-- A word that takes scales: SCL and the carried `vtype`.SCE (R276). -/
def Core.scaled (c : Core) (o : MatMul) : Bool := o.scl && c.sce

/-- Limits of `MMA` and `MMAS`, with further limits, before what their operands hold is looked at (R368). -/
def mmaLimits (o : MatMul) (ok : EType → Bool) (more : Except Stop Unit) (c : Core) : Except Stop Unit :=
  needAll [needEt ok o.et, needVl c (if c.scaled o then min (rowMax o.et) 1024 else rowMax o.et), more,
    needAligned o.vb (2 ^ o.g.toNat), needWindow c o.t]

/-- Operands of `MMA` and `MMAS` without spoiled data: A with `n` values a row, B, the scales, the tile. -/
def mmaSound (o : MatMul) (n : Nat) (c : Core) : Except Stop Unit :=
  let k := 2 ^ o.g.toNat * c.rows
  needAll [soundRows c c.rows (n * o.et.width) [regSet o.va],
    soundRows c c.rows (c.vlen * o.et.width) [regSet o.vb (2 ^ o.g.toNat)],
    (if c.scaled o then soundRows c ((k + 31) / 32) (16 * c.vlen) [regSet 31] else .ok ()), soundTile c false o.t]

/-- The tile with a product added: `a i k` are the values of A. -/
def Core.mulAdd (c : Core) (o : MatMul) (a : Nat → Nat → FVal) : Core :=
  let k := 2 ^ o.g.toNat * c.rows
  let w := o.et.width
  let scale (n j : Nat) (x : FVal) : FVal := if c.scaled o then x.mul (fval .bf16 (c.elem 31 16 j n)) else x
  c.putTile o.t (fun _ _ => true) fun i n =>
    dot k (fun kk => (a i kk).mul (fval o.et (c.elem (o.vb + BitVec.ofNat 5 (kk / c.rows)) w (kk % c.rows) n)))
      (scale n) (c.tileElem o.t i n)

/-- `MMA` (R276). -/
def execMma (o : MatMul) (s : State) : Result :=
  matWord (fun c => needAll [mmaLimits o mmaType (.ok ()) c, mmaSound o (2 ^ o.g.toNat * c.rows) c])
    (fun c => c.mulAdd o fun i k => fval o.et (c.elem o.va o.et.width i k)) s

/-- The value of the rebuilt A at index *k* (R278): `md` is the metadata row. Where both indices of a group are the same,
value 2*g* + 1 stays (log 75). -/
def rebuilt (et : EType) (val : Nat → Nat) (md k : Nat) : FVal :=
  let g := k / 4
  let i0 := (md >>> (4 * g)) % 4
  let i1 := (md >>> (4 * g + 2)) % 4
  if k % 4 = i1 then fval et (val (2 * g + 1))
  else if k % 4 = i0 then fval et (val (2 * g))
  else .fin false 0 0

/-- `MMAS` (R278). -/
def execMmas (o : MatMul) (s : State) : Result :=
  matWord
    (fun c =>
      let k := 2 ^ o.g.toNat * c.rows
      needAll [mmaLimits o (fun et => mmaType et && et != .f32) (need (decide (k % 4 = 0)) 3 k) c,
        mmaSound o (k / 2) c, soundRows c c.rows k [regSet o.vc]])
    (fun c => c.mulAdd o fun i k =>
      rebuilt o.et (c.elem o.va o.et.width i) ((c.vreg o.vc).row i).toNat k) s

/-- `MSMMA` (R279): exact integer products, summed as `MMA` sums. -/
def execMsmma (o : SliceMul) (s : State) : Result :=
  let k := 32 * (o.k4.toNat + 1)
  let g := 2 ^ o.g.toNat
  matWord
    (fun c => needAll ([needEt (fun et => et == .sl) o.et,
      need (decide (c.rows * k ≤ 16384)) 3 (c.rows * k), need (decide (k * c.vlen ≤ g * 16384)) 3 (k * c.vlen),
      needAligned o.vb g, needWindow c o.t, soundRows c (c.slWidth false) (c.rows * k) [regSet o.va]] ++
      ((List.range g).map fun q =>
        soundRows c (c.slWidth true) (min 16384 (k * c.vlen - 16384 * q)) [regSet (o.vb + BitVec.ofNat 5 q)]) ++
      [soundTile c false o.t]))
    (fun c =>
      let int (x : Int) : FVal := .fin (decide (x < 0)) x.natAbs 0
      c.putTile o.t (fun _ _ => true) fun i n =>
        dot k
          (fun kk =>
            let e := kk * c.vlen + n
            let a := c.slicedVal o.va (c.slWidth false) (c.slSigned false) (i * k + kk)
            let b := c.slicedVal (o.vb + BitVec.ofNat 5 (e / 16384)) (c.slWidth true) (c.slSigned true) (e % 16384)
            int (a * b))
          (fun _ x => x) (c.tileElem o.t i n)) s

/-! ## Reading and writing tiles (R280, R281) -/

/-- `MRD`, `mrdz` (R280). -/
def tileReadWord (o : TileRead) (zero : Bool) (s : State) : Result :=
  let w := o.et.width
  matWord
    (fun c => needAll [needEt anyType o.et, needVl c (rowMax o.et), needWindow c o.t,
      needOve o.ove (regSet o.vd :: maskSet o.m), soundWord c o.m fun _ _ => [], soundTile c o.m o.t])
    (fun c =>
      let on (i n : Nat) : Bool := c.active o.m i n
      let conv (i n : Nat) : Nat × Bool := convert .f32 o.et o.rnd (c.tileElem o.t i n)
      let c' := ((c.putWhere c.rows c.vlen w on o.vd fun i n => (conv i n).1).freshGroups w on o.vd).orBits o.ove
        c.rows c.vlen fun i n => on i n && (conv i n).2
      if zero then c'.putTile o.t on fun _ _ => 0 else c') s

def execMrd (o : TileRead) (s : State) : Result := tileReadWord o false s
def execMrdz (o : TileRead) (s : State) : Result := tileReadWord o true s

/-- `MWR`, `mwra` (R281): one rounding to `f32`, which saturates and raises no flag. -/
def tileWriteWord (o : TileWrite) (add : Bool) (s : State) : Result :=
  matWord
    (fun c => needAll [needEt anyType o.et, needVl c (rowMax o.et), needWindow c o.t,
      soundWord c o.m (elemReads [o.va] o.et.width),
      (if add then soundTile c o.m o.t else .ok ())])
    (fun c =>
      let on (i n : Nat) : Bool := c.active o.m i n
      (c.putTile o.t on fun i n =>
        let x := valOf o.et (c.elem o.va o.et.width i n)
        let y := if add then x.add o.rnd (f32 (c.tileElem o.t i n)) else x
        ((fmtOf .f32).narrow o.rnd y).1).freshTile o.t on) s

def execMwr (o : TileWrite) (s : State) : Result := tileWriteWord o false s
def execMwra (o : TileWrite) (s : State) : Result := tileWriteWord o true s

/-- Bit *p* of a mask register set (R139). -/
def Core.setMaskBit (c : Core) (vd : BitVec 5) (p : Nat) : Core := c.putBit vd (p / 16384) (p % 16384) true

/-- `MSYNC` (R282): every older matrix word has completed when it runs. -/
def execMsync (vd : BitVec 5) (p : BitVec 18) (s : State) : Result :=
  matWord (fun _ => .ok ()) (fun c => c.setMaskBit vd p.toNat) s

end Sys2Proof.Machine
end

