-- ==== Sys2Proof/Machine/Press.lean ====
section
/-! DEFINITION. The Press and the draw unit (spec/10 R296, spec/11 R304 to R317, R324, R325, spec/22 R416). -/

namespace Sys2Proof.Machine

/-! ## Ranking (R296, R307) -/

/-- The id that marks an empty place. -/
abbrev noId : BitVec 32 := 0xFFFFFFFF

/-- One entry ranks above another: a greater value, then a lower id; an empty id ranks lowest. Two empty
ids are alike, whatever their values, and keep their places (log 75). -/
def HeapEntry.above (a b : HeapEntry) : Bool :=
  if a.id = noId then false
  else if b.id = noId then true
  else
    match (f32 a.val.toNat).cmp (f32 b.val.toNat) with
    | some .gt => true
    | some .eq => a.id.ult b.id
    | _ => false

def insertRank (e : HeapEntry) : List HeapEntry → List HeapEntry
  | [] => [e]
  | x :: xs => if e.above x then e :: x :: xs else x :: insertRank e xs

/-- Entries in descending rank; a NaN value is never kept. -/
def ranked (l : List HeapEntry) : List HeapEntry :=
  (l.filter fun e => !(f32 e.val.toNat).isNan).foldl (fun acc e => insertRank e acc) []

/-- The `k` entries of highest rank, missing places filled. -/
def topK (k : Nat) (l : List HeapEntry) : List HeapEntry :=
  let r := (ranked l).take k
  r ++ List.replicate (k - r.length) .empty

/-! ## The Press -/

def Press.row (p : Press) (i : Nat) : List HeapEntry := p.heap.getD i []
def Press.norm_ (p : Press) (i : Nat) : Nat × Nat := ((p.norm.getD i (0, 0)).1.toNat, (p.norm.getD i (0, 0)).2.toNat)
def Press.setNorm (p : Press) (i : Nat) (m s : Nat) : Press :=
  { p with norm := p.norm.setIfInBounds i (BitVec.ofNat 32 m, BitVec.ofNat 32 s) }

/-- `Rescale` of two pairs. -/
def rescalePair (a b : Nat × Nat) : Nat × Nat :=
  let r := rescale (a.1, a.2, []) (b.1, b.2, [])
  (r.1, r.2.1)

/-- The heap holds no spoiled row (R418, R419). -/
def soundHeap (c : Core) : Except Stop Unit :=
  if c.poison.any fun p =>
      match p with
      | .heap _ => true
      | _ => false then .error (.deferred ⟨0x19, 0, 0, 0⟩)
  else .ok ()

/-- Heap rows written anew are sound. -/
def Core.freshHeap (c : Core) : Core :=
  { c with poison := c.poison.filter fun p =>
      match p with
      | .heap _ => false
      | _ => true }

/-- A matrix-queue word with an effect beyond the core. -/
def matWordS (limits : Core → Except Stop Unit) (f : State → State) (s : State) : Result :=
  match firstUseOk s.core with
  | .error e => refuseWord s e
  | .ok _ =>
    match limits s.core with
    | .error e => refuseWord s e
    | .ok _ => if s.core.mode = .check then .next s else .next (f s).finishWord

/-! ## Projection (R306 to R310, R416) -/

/-- BASE and λ of a strip. -/
def stripBase (w : Word) : Nat := wfield w 31 0
def stripScale (w : Word) : Nat := wfield w 63 32

/-- The Press that a starting word begins with: clear, then latched (R308); label slots from *H* on are latched too, and not
used. -/
def Press.start (c : Core) (vc : BitVec 5) (k : Nat) (thr : Bool) : Press :=
  let h := c.rows
  { heap := List.replicate h (List.replicate k .empty)
    norm := .replicate 16 (0xFF800000, 0)
    label := .ofFn fun i => ⟨BitVec.ofNat 32 (c.elem vc 32 0 i.val), 0, false⟩
    tau := .ofFn fun i => BitVec.ofNat 32 (c.elem vc 32 1 i.val)
    k := k
    pstat := BitVec.ofNat 64 ((h - 1) <<< 25 + thr.toNat <<< 29) }

/-- The logit of a window element. -/
def Core.logit (c : Core) (t : BitVec 2) (scale i n : Nat) : Nat := f32Mul (c.tileElem t i n) scale

/-- Admission (R307): in threshold mode the value must reach τ. -/
def Press.admits (p : Press) (i l : Nat) : Bool :=
  !p.thr ||
    (match (f32 l).cmp (f32 (p.tau.getD i 0).toNat) with
     | some .gt | some .eq => true
     | _ => false)

/-- One row projected: the Press after it, and in threshold mode a spill with its count (R307, R416): an entry that the row
held before the strip, and that reaches τ, has no place in it any more (log 18). -/
def projectRow (c : Core) (m : Bool) (t : BitVec 2) (w : Word) (i : Nat) (p : Press) : Press × Option Nat :=
  let base := stripBase w
  let logits : List (Option (Nat × Nat)) := (List.range c.vlen).map fun n =>
    if c.active m i n then some (c.logit t (stripScale w) i n, base + n) else none
  let present := logits.filterMap id
  let p := present.foldl (fun p x =>
    if (p.label.getD i ⟨noId, 0, false⟩).id.toNat = x.2 then
      { p with label := p.label.setIfInBounds i ⟨BitVec.ofNat 32 x.2, BitVec.ofNat 32 x.1, true⟩ }
    else p) p
  let nans := present.countP fun x => (f32 x.1).isNan
  let p := { p with pstat := setField p.pstat 15 0 (min (wfield p.pstat 15 0 + nans) 0xFFFF) }
  let vals : List (Option Nat) := logits.map fun x =>
    match x with
    | some (l, _) => if (f32 l).isNan then none else some l
    | none => none
  let strip := vals.filterMap id
  let p :=
    if strip.any fun l => l != f32NegInf then
      let ms := (orderedFold (fmax .f32) strip).getD f32NegInf
      let sigma := treeSum .f32 (vals.map fun v => v.map fun l => exp2Exact (f32Sub l ms))
      let r := rescalePair (p.norm_ i) (ms, sigma)
      p.setNorm i r.1 r.2
    else p
  let cand : List HeapEntry := (present.filter fun x => !(f32 x.1).isNan && p.admits i x.1).map fun x =>
    ⟨BitVec.ofNat 32 x.1, BitVec.ofNat 32 x.2⟩
  let all := ranked ((p.row i).filter (fun e => e.id != noId) ++ cand)
  let above := all.countP fun e => p.admits i e.val.toNat
  let new := topK p.k (p.row i ++ cand)
  let lost := ((p.row i).filter fun e => e.id != noId).diff new
  let spill := p.thr && lost.any fun e => p.admits i e.val.toNat
  ({ p with heap := p.heap.set i new }, if spill then some above else none)

/-- All rows of a strip, and the first row that spills with its count. -/
def projectRows (c : Core) (m : Bool) (t : BitVec 2) (w : Word) (p : Press) : Press × Option (Nat × Nat) :=
  foldN c.rows (fun i acc =>
    let r := projectRow c m t w i acc.1
    (r.1, match acc.2 with
      | some x => some x
      | none => r.2.map fun n => (i, n))) (p, none)

/-- Every element of the window becomes +0 (R306). -/
def Core.clearWindow (c : Core) (t : BitVec 2) : Core :=
  (c.putTile t (fun _ _ => true) fun _ _ => 0).freshTile t fun _ _ => true

/-- `VPROJ`: the Press it starts from, its limits, what it must find unspoiled after them (R368), and its effect. A
spill changes nothing but SPL and is a word fault with cause 0x11 (R416). `done` is the core once the heap is new. -/
def projectWord (m : Bool) (slot : BitVec 4) (t : BitVec 2) (from_ : Core → Press) (limits whole_ : Core → Except Stop Unit)
    (done : Core → Core) (s : State) : Result :=
  let c := s.core
  let w := c.slot slot
  match firstUseOk c with
  | .error e => refuseWord s e
  | .ok _ =>
    match needAll [limits c, need (decide (stripBase w + c.vlen ≤ 0xFFFFFFFF)) 11 (stripBase w), needWindow c t,
        soundWord c m fun _ _ => [], soundTile c m t, whole_ c] with
    | .error e => refuseWord s e
    | .ok _ =>
      let r := projectRows c m t w (from_ c)
      match r.2 with
      | some (i, n) =>
        let s := s.withCore fun c => { c with press := { c.press with pstat := setBit c.press.pstat 30 true } }
        refuseWord s (.stop ⟨0x11, BitVec.ofNat 64 (i + (n % 2 ^ 32) <<< 32), 0, 0⟩)
      | none =>
        let c := { c with press := r.1.settle }
        if s.core.mode = .check then .next s
        else .next ({ s with core := done (c.clearWindow t).dirtyPress }).finishWord

def execVproj (m : Bool) (slot : BitVec 4) (t : BitVec 2) (s : State) : Result :=
  projectWord m slot t Core.press
    (fun c => need (decide (c.rows = c.press.H)) 11 c.rows) soundHeap id s

/-- A starting projection (R308): it reads rows 0 and 1 of vc, and its heap holds nothing spoiled. -/
def startProject (m : Bool) (vc : BitVec 5) (slot : BitVec 4) (k1 : BitVec 9) (t : BitVec 2) (thr : Bool) (s : State) :
    Result :=
  let k := k1.toNat + 1
  projectWord m slot t (fun c => Press.start c vc k thr)
    (fun c => need (decide (k * c.rows ≤ 256)) 11 (k * c.rows)) (fun c => soundRows c 2 512 [regSet vc]) Core.freshHeap s

def execVprojs (m : Bool) (vc : BitVec 5) (slot : BitVec 4) (k1 : BitVec 9) (t : BitVec 2) (s : State) : Result :=
  startProject m vc slot k1 t false s
def execVprojt (m : Bool) (vc : BitVec 5) (slot : BitVec 4) (k1 : BitVec 9) (t : BitVec 2) (s : State) : Result :=
  startProject m vc slot k1 t true s

/-! ## Backward regeneration (R311) -/

/-- The gradient at one window element. -/
def gradient (c : Core) (t : BitVec 2) (w : Word) (i n : Nat) : Nat :=
  let p := c.press
  let l := c.logit t (stripScale w) i n
  let g := fdiv .f32 .rne (exp2Exact (f32Sub l (p.norm_ i).1)) (p.norm_ i).2
  let lab := p.label.getD i ⟨noId, 0, false⟩
  if decide (i < p.H) && lab.valid && lab.id.toNat == stripBase w + n then f32Sub g 0x3F800000 else g

def execVprojb (m : Bool) (vd : BitVec 5) (slot : BitVec 4) (t : BitVec 2) (s : State) : Result :=
  matWord
    (fun c => needAll [needVl c 512, needWindow c t, soundWord c m fun _ _ => [], soundTile c m t])
    (fun c =>
      let w := c.slot slot
      let on (i n : Nat) : Bool := c.active m i n
      ((c.putWhere c.rows c.vlen 32 on vd (gradient c t w)).freshGroups 32 on vd).clearWindow t) s

/-! ## Reading, merging, restoring (R312, R313) -/

/-- 32-bit elements of one row written from a list. -/
def putRow32 (x : Row) (l : List Nat) : Row := foldN l.length (fun e x => rowSet x (32 * e) 32 (l.getD e 0)) x

/-- 32-bit elements of rows written from lists, one a row. -/
def Core.putRows32 (c : Core) (vd : BitVec 5) (rows : List (List Nat)) : Core :=
  c.setV vd (foldN rows.length (fun i v => v.setRow i (putRow32 (v.row i) (rows.getD i []))) (c.vreg vd))

/-- `vheaprd` (R312): values, then ids; where vd and vc are one register it ends with the ids (log 43). -/
def execVheaprd (vd vc : BitVec 5) (s : State) : Result :=
  matWord soundHeap
    (fun c =>
      let c := c.putRows32 vd (c.press.heap.map fun r => r.map fun e => e.val.toNat)
      c.putRows32 vc (c.press.heap.map fun r => r.map fun e => e.id.toNat)) s

/-- The Press image (Table 11-3). -/
def Press.image (p : Press) : List (List Nat) :=
  (List.range 16).map fun i =>
    let lab := p.label.getD i ⟨noId, 0, false⟩
    [(p.norm_ i).1, (p.norm_ i).2, lab.val.toNat, (p.tau.getD i 0).toNat, lab.id.toNat, lab.valid.toNat,
      if i = 0 then p.k else 0, if i = 0 then wfield p.pstat 31 0 else 0]

def execVpstrd (vd : BitVec 5) (s : State) : Result :=
  matWord (fun _ => .ok ()) (fun c => c.putRows32 vd c.press.image) s

/-- Entries of a row as `vheaprd` lays them out. -/
def Core.heapIn (c : Core) (va vb : BitVec 5) (i k : Nat) : List HeapEntry :=
  (List.range k).map fun e => ⟨BitVec.ofNat 32 (c.elem va 32 i e), BitVec.ofNat 32 (c.elem vb 32 i e)⟩

/-- The heap registers hold nothing spoiled where `h` rows of `k` entries are read. -/
def soundHeapIn (c : Core) (va vb : BitVec 5) (h k : Nat) : Except Stop Unit :=
  soundRows c h (32 * k) [regSet va, regSet vb]

/-- Incoming rows merged into the heap. -/
def Core.mergeHeap (c : Core) (va vb : BitVec 5) : Press :=
  let p := c.press
  { p with heap := p.heap.mapIdx fun i r => topK p.k (r ++ (c.heapIn va vb i p.k).filter fun e => e.id != noId) }

def execVhmerge (va vb : BitVec 5) (s : State) : Result :=
  matWord (fun c => needAll [soundHeap c, soundHeapIn c va vb c.press.H c.press.k])
    (fun c => ({ c with press := (c.mergeHeap va vb).settle } : Core).dirtyPress) s

/-- Normalisers and labels of a Press image merged in; a label is valid when its element is not 0 (log 75). -/
def Core.mergeImage (c : Core) (vc : BitVec 5) (p : Press) : Press :=
  foldN 16 (fun i p =>
    let r := rescalePair (p.norm_ i) (c.elem vc 32 i 0, c.elem vc 32 i 1)
    let p := p.setNorm i r.1 r.2
    let lab := p.label.getD i ⟨noId, 0, false⟩
    if c.elem vc 32 i 5 != 0 && !lab.valid then
      let e : Label := ⟨BitVec.ofNat 32 (c.elem vc 32 i 4), BitVec.ofNat 32 (c.elem vc 32 i 2), true⟩
      { p with label := p.label.setIfInBounds i e }
    else p) p

def execVhmergen (va vb vc : BitVec 5) (s : State) : Result :=
  matWord
    (fun c => needAll [soundHeap c, soundHeapIn c va vb c.press.H c.press.k, soundRows c 16 192 [regSet vc]])
    (fun c => ({ c with press := (c.mergeImage vc (c.mergeHeap va vb)).settle } : Core).dirtyPress) s

/-- The Press that an image and heap registers describe; a label is valid when its element is not 0 (log 75). -/
def Core.pressFrom (c : Core) (va vb vc : BitVec 5) : Press :=
  let k := c.elem vc 32 0 6
  let ps := BitVec.ofNat 64 (c.elem vc 32 0 7)
  { heap := (List.range (wfield ps 28 25 + 1)).map fun i => topK k (c.heapIn va vb i k)
    norm := .ofFn fun i => (BitVec.ofNat 32 (c.elem vc 32 i.val 0), BitVec.ofNat 32 (c.elem vc 32 i.val 1))
    label := .ofFn fun i => ⟨BitVec.ofNat 32 (c.elem vc 32 i.val 4), BitVec.ofNat 32 (c.elem vc 32 i.val 2),
      c.elem vc 32 i.val 5 != 0⟩
    tau := .ofFn fun i => BitVec.ofNat 32 (c.elem vc 32 i.val 3)
    k := k
    pstat := ps }

def execVpstwr (va vb vc : BitVec 5) (s : State) : Result :=
  matWord
    (fun c =>
      let k := c.elem vc 32 0 6
      let h := wfield (BitVec.ofNat 64 (c.elem vc 32 0 7)) 28 25 + 1
      needAll [need (decide (1 ≤ k ∧ k ≤ 256 ∧ h * k ≤ 256)) 11 k,
        soundHeapIn c va vb h k, soundRows c 16 256 [regSet vc]])
    (fun c => (({ c with press := c.pressFrom va vb vc } : Core).freshHeap).dirtyPress) s

/-! ## The draw (R315 to R317) -/

/-- The choice in one row: `act` are the active candidates as (index, value), `norm` the Press normaliser of the NRM
forms; none when nothing is chosen. -/
def choose (act : List (Nat × Nat)) (norm : Option (Nat × Nat)) (u : Nat) : Option Nat :=
  let ref := match norm with
    | some n => n.1
    | none => (orderedFold (fmax .f32) (act.map Prod.snd)).getD f32NegInf
  match act.find? fun x => x.2 == f32PosInf with
  | some x => some x.1
  | none =>
    if ref = f32NegInf || (f32 ref).isNan then none
    else
      let weight (l : Nat) : Nat := if (f32 l).isNan then 0 else exp2Exact (f32Sub l ref)
      let sums := act.foldl (fun (acc : List (Nat × Nat) × Nat) x =>
        let cum := f32Add acc.2 (weight x.2)
        (acc.1 ++ [(x.1, cum)], cum)) ([], 0)
      let total := match norm with
        | some n => n.2
        | none => sums.2
      let x := roundF32 ((FVal.fin false u (-24)).mul (f32 total))
      match sums.1.find? fun c => (f32 x).cmp (f32 c.2) == some .lt with
      | some c => some c.1
      | none =>
        if norm.isSome then none
        else ((act.filter fun x => weight x.2 % 2 ^ 31 != 0).getLast?).map Prod.fst

/-- The uniform of row *i*: from the stream that the word carries, or from a carried slot. -/
def drawUniform (c : Core) (slot : Option (BitVec 4)) (i : Nat) : Nat :=
  match slot with
  | some n => wfield (c.run.slots.getD (n.toNat + i) 0) 23 0
  | none => drawHash c.run.rkey (c.run.rpos + BitVec.ofNat 64 i)

/-- One row of a `DRAW`: three elements of vd, and its record (R349); with `vl` = 0 nothing is written (R13). -/
def drawRow (m : Bool) (vd va vb : BitVec 5) (slot : Option (BitVec 4)) (nrm : Bool) (before : Core) (i : Nat)
    (s : State) : State :=
  let act := (before.actives m i).map fun e => (e, before.elem va 32 i e)
  let u := drawUniform before slot i
  let pick := choose act (if nrm then some (before.press.norm_ i) else none) u
  let ident := match pick with
    | some e => before.elem vb 32 i e
    | none => 0xFFFFFFFF
  let idx := pick.getD before.vlen
  let s := if before.vlen = 0 then s else
    s.withCore fun c => c.setV vd ((c.vreg vd).setRow i (putRow32 ((c.vreg vd).row i) [ident, idx, u]))
  s.trace 4 4 s.core.run.pc s.core.run.prov (BitVec.ofNat 64 (u <<< 40 + i <<< 36 + ident)) (BitVec.ofNat 64 idx)

def drawWord (m : Bool) (vd va vb : BitVec 5) (et : EType) (slot : Option (BitVec 4)) (nrm : Bool) (s : State) : Result :=
  matWordS
    (fun c => needAll [needEt (fun t => t == .f32) et, needVl c 512,
      (match slot with
       | some n => need (decide (n.toNat + c.rows ≤ 16)) 11 (n.toNat + c.rows)
       | none => .ok ()), soundWord c m (elemReads [va, vb] 32)])
    (fun s => foldN s.core.rows (fun i t => drawRow m vd va vb slot nrm s.core i t) s) s

def execDraw (m : Bool) (vd va vb : BitVec 5) (et : EType) (s : State) : Result := drawWord m vd va vb et none false s
def execDrawn (m : Bool) (vd va vb : BitVec 5) (et : EType) (s : State) : Result := drawWord m vd va vb et none true s
def execDrawr (m : Bool) (vd va vb : BitVec 5) (et : EType) (slot : BitVec 4) (s : State) : Result :=
  drawWord m vd va vb et (some slot) false s
def execDrawrn (m : Bool) (vd va vb : BitVec 5) (et : EType) (slot : BitVec 4) (s : State) : Result :=
  drawWord m vd va vb et (some slot) true s

end Sys2Proof.Machine
end

