-- ==== Sys2Proof/Machine/VectorFloat.lean ====
section
/-! DEFINITION. Floating-point compute words (spec/08 R223 to R225, Tables 8-4 and 8-5; spec/03 R70 to R84). -/

namespace Sys2Proof.Machine

/-- et codes 8 to 11. -/
def arithFloat : EType → Bool
  | .f64 | .f32 | .bf16 | .f16 => true
  | _ => false

/-- A floating-point word of two operands. -/
def floatWord (o : Arith) (f : Nat → Nat → Nat) (s : State) : Result :=
  elementwise o arithFloat [] (fun _ a b _ _ => f a b) s

/-- A word whose third operand is register vc. -/
def float3 (o : Arith) (f : Nat → Nat → Nat → Nat) (s : State) : Result :=
  elementwise o arithFloat [o.vc] (fun c a b r e => f a b (c.elem o.vc o.et.width r e)) s

def execVfadd (o : Arith) (s : State) : Result := floatWord o (fadd o.et o.rnd) s
def execVfsub (o : Arith) (s : State) : Result := floatWord o (fsub o.et o.rnd) s
def execVfmul (o : Arith) (s : State) : Result := floatWord o (fmul o.et o.rnd) s
def execVfma (o : Arith) (s : State) : Result := float3 o (ffma o.et o.rnd) s
def execVfnma (o : Arith) (s : State) : Result := float3 o (ffnma o.et o.rnd) s
def execVfdiv (o : Arith) (s : State) : Result := floatWord o (fdiv o.et o.rnd) s
def execVfsqrt (o : Arith) (s : State) : Result := unaryWord o arithFloat (fsqrt o.et o.rnd) s
def execVfrsqe (o : Arith) (s : State) : Result := unaryWord o arithFloat (rsqrtEst o.et) s
def execVfexp2 (o : Arith) (s : State) : Result := unaryWord o (fun t => t == .f32) exp2Exact s
def execVfmin (o : Arith) (s : State) : Result := floatWord o (fmin o.et) s
def execVfmax (o : Arith) (s : State) : Result := floatWord o (fmax o.et) s
/-- min(max(*a*, *lo*), *hi*): *lo* is the second source, *hi* is vc (R224). -/
def execVfclamp (o : Arith) (s : State) : Result := float3 o (fun a lo hi => fmin o.et (fmax o.et a lo) hi) s
/-- The sign bit alone changes (R70). -/
def execVfabs (o : Arith) (s : State) : Result := unaryWord o arithFloat (fun a => a % 2 ^ (o.et.width - 1)) s
def execVfneg (o : Arith) (s : State) : Result := unaryWord o arithFloat (fun a => a ^^^ 2 ^ (o.et.width - 1)) s

def floatCompare (k : Cond) (o : Arith) (s : State) : Result :=
  compareWord o arithFloat (fun a b => k.fp ((fval o.et a).cmp (fval o.et b))) s

def execVfcmpeq (o : Arith) (s : State) : Result := floatCompare .eq o s
def execVfcmpne (o : Arith) (s : State) : Result := floatCompare .ne o s
def execVfcmplt (o : Arith) (s : State) : Result := floatCompare .lt o s
def execVfcmple (o : Arith) (s : State) : Result := floatCompare .le o s
def execVfcmpgt (o : Arith) (s : State) : Result := floatCompare .gt o s
def execVfcmpge (o : Arith) (s : State) : Result := floatCompare .ge o s
def execVfcmpun (o : Arith) (s : State) : Result := floatCompare .un o s
def execVfcmpord (o : Arith) (s : State) : Result := floatCompare .ord o s

end Sys2Proof.Machine
end

