-- ==== Sys2Proof/Machine/Reduce.lean ====
section
/-! DEFINITION. Reductions, scans and column reductions (spec/08 R228 to R230, Table 8-8; spec/03 R76 to R79). -/

namespace Sys2Proof.Machine

/-- The active elements of a row of va, ascending. -/
def Core.activeVals (c : Core) (o : Arith) (r : Nat) : List Nat :=
  (c.actives o.m r).map fun e => c.elem o.va o.et.width r e

/-- A reduction of each row into element 0 of that row of vd (R228); a word with `vl` = 0 writes nothing (R13). -/
def reduceWord (o : Arith) (ok : EType → Bool) (f : Core → Nat → Nat) (s : State) : Result :=
  computeWord .row (crossLimits o ok o.et.width)
    (fun c => c.putWhere c.rows 1 o.et.width (fun r _ => c.rowRuns r && c.vlen != 0) o.vd fun r _ => f c r) s

/-- A combination of all active elements, with the value of a row that has none. -/
def foldReduce (o : Arith) (ok : EType → Bool) (op : Nat → Nat → Nat) (empty : Nat) (s : State) : Result :=
  reduceWord o ok (fun c r => match orderedFold op (c.activeVals o r) with
    | none => empty
    | some x => if o.et.isFloat then fcanon o.et x else x) s

/-- Integer operations on patterns of a type. -/
def iadd (et : EType) (a b : Nat) : Nat := (a + b) % 2 ^ et.width
def imin (et : EType) (a b : Nat) : Nat := if intVal et a ≤ intVal et b then a else b
def imax (et : EType) (a b : Nat) : Nat := if intVal et a ≤ intVal et b then b else a

def execVredsum (o : Arith) (s : State) : Result := foldReduce o EType.isInt (iadd o.et) 0 s
def execVredmin (o : Arith) (s : State) : Result :=
  foldReduce o EType.isInt (imin o.et) (wrap o.et.width (intMax o.et)) s
def execVredmax (o : Arith) (s : State) : Result :=
  foldReduce o EType.isInt (imax o.et) (wrap o.et.width (intMin o.et)) s
def execVredand (o : Arith) (s : State) : Result := foldReduce o EType.isInt (· &&& ·) (2 ^ o.et.width - 1) s
def execVredor (o : Arith) (s : State) : Result := foldReduce o EType.isInt (· ||| ·) 0 s
def execVredxor (o : Arith) (s : State) : Result := foldReduce o EType.isInt (· ^^^ ·) 0 s

/-- The tree sum over positions 0 to `vl` − 1, inactive ones absent (R77). -/
def execVfredt (o : Arith) (s : State) : Result :=
  reduceWord o arithFloat (fun c r => treeSum o.et ((List.range c.vlen).map fun e =>
    if c.active o.m r e then some (c.elem o.va o.et.width r e) else none)) s
def execVfredo (o : Arith) (s : State) : Result := foldReduce o arithFloat (fadd o.et o.rnd) 0 s
def execVfredmax (o : Arith) (s : State) : Result :=
  foldReduce o arithFloat (fmax o.et) ((fmtOf o.et).withSign true (fmtOf o.et).inf) s
def execVfredmin (o : Arith) (s : State) : Result := foldReduce o arithFloat (fmin o.et) (fmtOf o.et).inf s

/-- et codes 0 to 11. -/
def scanType (et : EType) : Bool := et.isInt || arithFloat et

/-- The add, maximum or minimum of a type. -/
def typeAdd (et : EType) (rnd : Rnd) (a b : Nat) : Nat := if et.isInt then iadd et a b else fadd et rnd a b
def typeMax (et : EType) (a b : Nat) : Nat := if et.isInt then imax et a b else fmax et a b
def typeMin (et : EType) (a b : Nat) : Nat := if et.isInt then imin et a b else fmin et a b

/-- The running values of a list, NaNs canonical. -/
def runningFrom (et : EType) (op : Nat → Nat → Nat) : Nat → List Nat → List Nat
  | x, [] => [if et.isFloat then fcanon et x else x]
  | x, y :: ys => (if et.isFloat then fcanon et x else x) :: runningFrom et op (op x y) ys

def running (et : EType) (op : Nat → Nat → Nat) : List Nat → List Nat
  | [] => []
  | x :: xs => runningFrom et op x xs

/-- A scan (R229): the inclusive running value in each active element. -/
def scanWord (o : Arith) (op : Nat → Nat → Nat) (s : State) : Result :=
  rowWord (crossLimits o scanType o.et.width) o.vd o.et.width (fun c r e => c.active o.m r e)
    (fun c r e =>
      let vals := running o.et op (c.activeVals o r)
      vals.getD ((c.actives o.m r).countP fun i => i < e) 0) s

def execVscansum (o : Arith) (s : State) : Result := scanWord o (typeAdd o.et o.rnd) s
def execVscanmax (o : Arith) (s : State) : Result := scanWord o (typeMax o.et) s
def execVscanmin (o : Arith) (s : State) : Result := scanWord o (typeMin o.et) s

/-- A column reduction (R230) into row 0 of vd; it retires as a whole (R217). -/
def columnWord (o : Arith) (op : Nat → Nat → Nat) (empty : Nat) (s : State) : Result :=
  computeWord .whole (crossLimits o scanType o.et.width)
    (fun c => c.putWhere 1 c.vlen o.et.width (fun _ _ => c.wholeRuns) o.vd fun _ e =>
      let col := ((List.range c.rows).filter fun r => c.active o.m r e).map fun r => c.elem o.va o.et.width r e
      match orderedFold op col with
      | none => empty
      | some x => if o.et.isFloat then fcanon o.et x else x) s

def execVcolsum (o : Arith) (s : State) : Result := columnWord o (typeAdd o.et o.rnd) 0 s
def execVcolmax (o : Arith) (s : State) : Result :=
  columnWord o (typeMax o.et)
    (if o.et.isInt then wrap o.et.width (intMin o.et) else (fmtOf o.et).withSign true (fmtOf o.et).inf) s
def execVcolmin (o : Arith) (s : State) : Result :=
  columnWord o (typeMin o.et) (if o.et.isInt then wrap o.et.width (intMax o.et) else (fmtOf o.et).inf) s

end Sys2Proof.Machine
end

