-- ==== Sys2Proof/Machine/StateWords.lean ====
section
/-! DEFINITION. State words: `MFS` and `MTS` (spec/02 R43 to R49, Tables 2-3 to 2-18; spec/07 R201, R202; spec/20
R376, R377; spec/21 R406). -/

namespace Sys2Proof.Machine

/-- The state words of Table 2-3, by number; slots carry theirs. -/
inductive SWord where
  | vl | rc | vtype
  | lgs (i : Nat)
  | cmv | ffs | brk | vdirty | resoff | brkp
  | slot (i : Nat)
  | rkey | rpos | pstat
  | tvec | tcause | tepc | tprov | tval | tscratch | tdbg | twatch
  | hstat | gid | hid | tokbud
  deriving DecidableEq, Repr

/-- A state number, or none when Table 2-3 does not list it. -/
def SWord.ofNum (n : Nat) : Option SWord :=
  if 0x004 ≤ n ∧ n ≤ 0x007 then some (.lgs (n - 4))
  else if 0x010 ≤ n ∧ n ≤ 0x01F then some (.slot (n - 16))
  else
    match n with
    | 0x000 => some .vl
    | 0x001 => some .rc
    | 0x002 => some .vtype
    | 0x008 => some .cmv
    | 0x009 => some .ffs
    | 0x00A => some .brk
    | 0x00B => some .vdirty
    | 0x00C => some .resoff
    | 0x00D => some .brkp
    | 0x020 => some .rkey
    | 0x021 => some .rpos
    | 0x030 => some .pstat
    | 0x040 => some .tvec
    | 0x041 => some .tcause
    | 0x042 => some .tepc
    | 0x043 => some .tprov
    | 0x044 => some .tval
    | 0x045 => some .tscratch
    | 0x046 => some .tdbg
    | 0x047 => some .twatch
    | 0x050 => some .hstat
    | 0x051 => some .gid
    | 0x052 => some .hid
    | 0x060 => some .tokbud
    | _ => none

/-- The trap words, which U mode neither reads nor writes. -/
def SWord.kernel : SWord → Bool
  | .tvec | .tcause | .tepc | .tprov | .tval | .tscratch | .tdbg | .twatch => true
  | _ => false

/-- Words that `MTS` may name in U mode (Table 2-3). -/
def SWord.userWritable : SWord → Bool
  | .vl | .rc | .vtype | .ffs | .slot _ | .rkey | .rpos => true
  | _ => false

/-- Words whose `MFS` and `MTS` wait until every older queued word has retired (R44). -/
def SWord.waits : SWord → Bool
  | .lgs _ | .cmv | .ffs | .brk | .brkp | .vdirty | .resoff | .pstat => true
  | _ => false

/-- The value of a state word. -/
def Core.stateWord (c : Core) : SWord → Word
  | .vl => c.vl.setWidth 64
  | .rc => c.rc.setWidth 64
  | .vtype => c.vtype.setWidth 64
  | .lgs i => (c.lgs.getD i 0).setWidth 64
  | .cmv => c.cmv
  | .ffs => c.ffs
  | .brk => c.brk
  | .vdirty => c.vdirty
  | .resoff => c.resoff
  | .brkp => c.brkp
  | .slot i => c.o.getD i 0
  | .rkey => c.rkey
  | .rpos => c.rpos
  | .pstat => c.press.pstat
  | .tvec => c.t.tvec
  | .tcause => c.t.tcause
  | .tepc => c.t.tepc
  | .tprov => c.t.tprov
  | .tval => c.t.tval
  | .tscratch => c.t.tscratch
  | .tdbg => c.t.tdbg
  | .twatch => c.t.twatch
  | .hstat => c.hstat
  | .gid => c.gid
  | .hid => c.hid
  | .tokbud => c.tokbud

/-- A value with the reserved bits of a field map cleared: bits [hi:lo] stay. -/
def keep (v : Word) (hi lo : Nat) : Word := setField 0 hi lo (wfield v hi lo)

/-- `vl` reduced to the row maximum of the type in `vtype` (R45). -/
def Core.clipVl (c : Core) (v : Nat) : Core := { c with vl := BitVec.ofNat 15 (min v (vtypeMax c.vtype)) }

/-- A state word written (R5, R45, R202): RO fields stay, W1C bits written as 1 are cleared; `cmv`.HOVF is one (Table 2-8,
log 13). `tprov` keeps every bit, those too that a block form reserves (log 68). -/
def Core.writeState (c : Core) (w : SWord) (v : Word) : Core :=
  match w with
  | .vl => (c.clipVl v.toNat).newEpoch
  | .rc => ({ c with rc := clipRows v.toNat } : Core).newEpoch
  | .vtype => (({ c with vtype := v.setWidth 16 } : Core).clipVl c.vl.toNat).newEpoch
  | .cmv => if v.getLsbD 1 then { c with cmv := setBit c.cmv 1 false } else c
  | .ffs => if v.getLsbD 23 then { c with ffs := setBit c.ffs 23 false } else c
  | .vdirty => { c with vdirty := c.vdirty &&& ~~~v }
  | .slot i => { c with o := c.o.setIfInBounds i v }
  | .rkey => { c with rkey := v }
  | .rpos => { c with rpos := v, spent := false }
  | .tvec => { c with t := { c.t with tvec := keep v 54 2 } }
  | .tcause => { c with t := { c.t with tcause := keep v 11 0 } }
  | .tepc => { c with t := { c.t with tepc := keep v 54 2 } }
  | .tprov => { c with t := { c.t with tprov := v } }
  | .tval => { c with t := { c.t with tval := v } }
  | .tscratch => { c with t := { c.t with tscratch := v } }
  | .tdbg =>
    let w := keep v 3 0
    { c with t := { c.t with tdbg := if wfield w 1 0 = 3 then setField w 1 0 0 else w } }
  | .twatch => { c with t := { c.t with twatch := keep v 60 0 } }
  | .hstat => { c with hstat := setBit (setField c.hstat 4 2 (wfield v 4 2)) 6 (v.getLsbD 6) }
  | .lgs _ | .brk | .resoff | .brkp | .pstat | .gid | .hid | .tokbud => c

/-- `MFS` (R201): privilege, then the number, then the wait of R44. -/
def execMfs (d : BitVec 5) (n : BitVec 12) (s : State) : Result :=
  match SWord.ofNum n.toNat with
  | none => .next (operandStop s n.toNat)
  | some w =>
    if w.kernel && !s.core.kmode then .next (privStop (.mfs d n) s)
    else if w.waits && !s.core.openConvoy.isEmpty then .next (openStop s 6)
    else if w.waits && !s.core.drained then .next s.stall
    else .next (writeNext s d (s.core.stateWord w))

/-- `MTS` (R201, R202). -/
def execMts (n : BitVec 12) (a : BitVec 5) (s : State) : Result :=
  match SWord.ofNum n.toNat with
  | none => .next (operandStop s n.toNat)
  | some w =>
    if !w.userWritable && !s.core.kmode then .next (privStop (.mts n a) s)
    else if w.waits && !s.core.drained then .next s.stall
    else .next (s.withCore fun c => c.writeState w (readS s a)).advance

end Sys2Proof.Machine
end

