-- ==== Sys2Proof/Machine/Gang.lean ====
section
/-! DEFINITION. The gang: watermarks, the barrier, the random stream, launch rings, `LAUNCH`, and the end of a hart and
of its gang (spec/05 R142 to R144, spec/07 R189, R203 to R206, spec/12 R330 to R337, spec/14 R360, R454). -/

namespace Sys2Proof.Machine

/-! ## Watermarks -/

/-- `w`*n* is linked to the predecessor (Table 12-1, MODE 01). -/
def Gang.linked (g : Gang) (n : Nat) : Bool := (g.desc.wmap.getD n 0).toNat % 4 == 1
def Gang.linkSrc (g : Gang) (n : Nat) : Nat := field (g.desc.wmap.getD n 0).toNat 4 2

/-- The gang and the number that hold a watermark: a link is followed to the predecessor, which may link again. An ended gang
holds the final values of its own (R335, `Device.finalMarks`). What a link reads from a predecessor's watermark that is an
unbound link is open: the predecessor's PGID is followed, whatever its PV (log 76). -/
def Device.wmHome (d : Device) : Nat → Gang → Nat → Gang × Nat
  | 0, g, n => (g, n)
  | k + 1, g, n =>
    if g.linked n && g.st != .ended then
      match d.anyGang g.ctx g.desc.pgid with
      | some p => d.wmHome k p (g.linkSrc n)
      | none => (g, n)
    else (g, n)

/-- The value of a gang's watermark. -/
def Device.watermark (d : Device) (g : Gang) (n : Nat) : Word :=
  let h := d.wmHome d.gangs.length g n
  h.1.w.getD h.2 0

/-- A gang as it ends: its linked watermarks hold their final values, and the rises that gave them (R335). -/
def Device.finalMarks (d : Device) (g : Gang) : Gang :=
  let home (n : Nat) : Gang × Nat := d.wmHome d.gangs.length g n
  { g with st := .ended, w := .ofFn fun n => d.watermark g n.val
           raised := .ofFn fun n => (home n.val).1.raised.getD (home n.val).2 [] }

/-- A watermark that no word may name (R335): any link in `WMPUB`, a link without a predecessor in every word. -/
def Gang.unbound (g : Gang) (n : Nat) (publish : Bool) : Bool := g.linked n && (publish || !g.desc.pv)

/-- Harts that `WFE` stalls go on (R190). -/
def State.wake (s : State) (p : Core → Bool) : State :=
  let go (c : Core) : Core := if p c then { c with wfe := false } else c
  { s with core := go s.core, rest := s.rest.map go }

/-- The harts of a gang go on. -/
def State.wakeGang (s : State) (gid : BitVec 16) : State := s.wake fun c => c.gang16 == gid

/-- A watermark of this gang is the one that another gang holds, itself or by a link (R335). -/
def Device.shares (d : Device) (g home : Gang) (n : Nat) : Bool :=
  (List.range 8).any fun k =>
    let h := d.wmHome d.gangs.length g k
    h.1.gid == home.gid && h.1.st != .ended && h.2 == n

/-- The harts in whose gangs a watermark rises go on: the publisher's own and those that link to it (R190, R335). -/
def State.wakeRise (s : State) (home : Gang) (n : Nat) : State :=
  s.wake fun c =>
    match s.dev.liveGang c.gang16 with
    | some g => s.dev.shares g home n
    | none => false

/-- `WMPUB` (R142, R203): committing; the update is held back in `pubs`. -/
def execWmpub (w : BitVec 3) (a : BitVec 5) (sc : Scope) (s : State) : Result :=
  if (s.gang.map fun g => g.unbound w.toNat true).getD false then .next (genFault s 0x0E (w.setWidth 64) 0)
  else if s.core.gate then
    .next (s.withCore fun c => { c with pubs := c.pubs ++ [.raise w (readS s a) sc c.rank] }).advance
  else .next s.stall

/-- The rise that took a watermark past a value: the first above it (R143). -/
def Gang.raiseOver (g : Gang) (n v : Nat) : Option Raise :=
  (g.raised.getD n []).reverse.find? fun r => decide (v < r.value.toNat)

/-- The focused hart goes on because a watermark has passed a value: an acquire at the scope of the `WMPUB` that raised it
past the value (R143, R335). The scope checker compares the scope of the `WMPUB` that last raised it with where that one's hart
and this one are (R437). -/
def State.pastMark (s : State) (n v : Nat) (pc prov : Word) : State :=
  match s.gang with
  | none => s
  | some g =>
    let h := s.dev.wmHome s.dev.gangs.length g n
    match h.1.raiseOver h.2 v, h.1.raised.getD h.2 [] with
    | some first, r :: _ =>
      let s := s.discardFetched first.scope
      let me := s.core.who
      if !s.checksScope 1 || scopeHolds r.scope r.who me || r.seen.contains me then s
      else
        let s := s.scopeReport 1 pc prov 0 r.who r.scope n
        let note (x : Raise) : Raise := if x.value = r.value then { x with seen := me :: x.seen } else x
        s.withDev fun d =>
          { d with gangs := d.gangs.map fun x =>
            if x = h.1 then { x with raised := x.raised.setIfInBounds h.2 ((x.raised.getD h.2 []).map note) } else x }
    | _, _ => s

/-- `WMWAIT` (R144): then an acquire at its scope, and at that of the `WMPUB` it has waited for (R335). -/
def execWmwait (w : BitVec 3) (a : BitVec 5) (sc : Scope) (s : State) : Result :=
  match s.gang with
  | none => .next s.stall
  | some g =>
    if g.unbound w.toNat false then .next (genFault s 0x0E (w.setWidth 64) 0)
    else if (readS s a).toNat ≤ (s.dev.watermark g w.toNat).toNat then
      let v := (readS s a).toNat
      let s := if v = 0 then s else s.pastMark w.toNat (v - 1) s.core.pc nullProv
      .next (s.discardFetched sc).advance
    else .next s.stall

/-- The rank that a publication waits for. -/
def Pub.rank : Pub → Nat
  | .raise _ _ _ r => r
  | .arrive _ r => r

/-- Every access earlier than a publication is visible: the words placed before it have finished, those of a region
have been resolved, and none stands in a queue image (R142, R204). -/
def Core.pubReady (c : Core) (p : Pub) : Bool :=
  (c.words.all fun e => decide (p.rank ≤ e.rank)) && (c.restore.all fun e => decide (p.rank ≤ e.rank)) &&
    (c.saved.all fun x => !x.live || decide (p.rank ≤ x.rank)) &&
    ((c.region.map fun r => r.retired.all fun e => decide (p.rank ≤ e.rank)).getD true)

/-- A publication of the focused core takes effect: a watermark rises to the maximum, or an arrival counts. -/
def State.publish (s : State) (p : Pub) : State :=
  let gid := s.core.gang16
  let me := s.core.who
  let s := s.withCore fun c => { c with pubs := c.pubs.drop 1 }
  match p with
  | .raise w v sc _ =>
    let up (g : Gang) : Gang :=
      if g.w[w.toNat].toNat < v.toNat then
        { g with w := g.w.set w.toNat v, raised := g.raised.set w.toNat (⟨v, sc, me, []⟩ :: g.raised[w.toNat]) }
      else g
    let s' := s.withDev fun d => d.updGang gid up
    match s.gang with
    | some g => if g.w[w.toNat].toNat < v.toNat then s'.wakeRise g w.toNat else s'
    | none => s'
  | .arrive ph _ =>
    s.withDev fun d => d.updGang gid fun g =>
      if g.phase = ph then { g with arrived := s.core.hart :: g.arrived } else g

/-- WATERMARK_UPDATE: the oldest publication of a core that is due takes effect. -/
def execWatermarkUpdate (core : Nat) (s : State) : Result :=
  let s' := s.focus core
  match s'.core.pubs with
  | p :: _ => if s'.core.num = core ∧ s'.core.pubReady p then .next ((s'.publish p).focus s.core.num) else .next s
  | [] => .next s

/-! ## The barrier (R204) -/

/-- The hart has arrived in the current phase, or its arrival is held back. -/
def State.hasArrived (s : State) : Bool :=
  match s.core.barLast, s.gang with
  | some p, some g => decide (g.phase ≤ p)
  | _, _ => false

/-- Record the arrival in the current phase. -/
def State.arrive (s : State) : State :=
  let ph := (s.gang.map Gang.phase).getD 0
  s.withCore fun c => { c with barLast := some ph, pubs := c.pubs ++ [.arrive ph c.rank] }

def execBarArrive (s : State) : Result :=
  if s.hasArrived || !s.core.gate then .next s.stall else .next s.arrive.advance

/-- The wait is over, as a device-scope acquire; `BAR` is committing in every form (R391). -/
def execBarWait (s : State) : Result :=
  if s.hasArrived || !s.core.gate then .next s.stall else .next (s.discardFetched .dev).advance

/-- `bar.aw`: it arrives, and the wait is tied to its address. One that a stop has interrupted in its wait goes on waiting when
it is executed again, with no second arrival (log 74). -/
def execBarAw (s : State) : Result :=
  if s.core.barAw.contains s.core.pc then
    if s.hasArrived then .next s.stall
    else .next ((s.withCore fun c => { c with barAw := c.barAw.filter fun a => a != c.pc }).discardFetched .dev).advance
  else if s.hasArrived || !s.core.gate then .next s.stall
  else .next (s.arrive.withCore fun c => { c with barAw := c.pc :: c.barAw }).stall

/-- Every hart has arrived or halted, and one is left to go on. -/
def Gang.phaseDue (g : Gang) : Bool :=
  g.st != .ended && (List.range g.desc.harts).all fun h => g.arrived.contains h || g.halted.contains h

/-- BARRIER_PHASE_COMPLETE: the phase completes when it is due. -/
def execBarrierPhaseComplete (gid : BitVec 16) (s : State) : Result :=
  match s.dev.liveGang gid with
  | some g =>
    if g.phaseDue then
      .next ((s.withDev fun d => d.updGang gid fun g => { g with phase := g.phase + 1, arrived := [] }).wakeGang gid)
    else .next s
  | none => .next s

/-! ## The random stream (R206) -/

def execRseed (a : BitVec 5) (s : State) : Result :=
  .next (s.withCore fun c => { c with rkey := readS s a, rpos := 0, spent := false }).advance

def execRseek (a : BitVec 5) (s : State) : Result :=
  let v := readS s a
  if v.toNat < 2 ^ 40 then .next (s.withCore fun c => { c with rpos := v <<< 24, spent := false }).advance
  else .next (genFault s 0x12 v 0)

/-! ## Launch rings (Tables 12-2, 12-3) -/

/-- Entries of a ring: LOG2N below 4 acts as 4, above 12 as 12 (log 14). -/
def Func.entries (f : Func) (r : Fin 2) : Nat := 2 ^ (min 12 (max 4 (wfield (f.ctl[r]) 3 0)))
def Func.enabled (f : Func) (r : Fin 2) : Bool := (f.ctl[r]).getLsbD 8
def Func.tailN (f : Func) (r : Fin 2) : Nat := wfield (f.tail[r]) 11 0
def Func.headN (f : Func) (r : Fin 2) : Nat := wfield (f.head[r]) 11 0
/-- Address of an entry. -/
def Func.entryAt (f : Func) (r : Fin 2) (i : Nat) : Nat := (f.base[r]).toNat + 16 * (i % f.entries r)
def Func.full (f : Func) (r : Fin 2) : Bool := (f.tailN r + 1) % f.entries r == f.headN r

/-- The second word of an entry. -/
def entryWord (st why gid ctx : Nat) : Word := BitVec.ofNat 64 (st <<< 62 + why <<< 56 + gid <<< 32 + ctx)

def Device.ringEntry (d : Device) (f : Func) (r : Fin 2) (i : Nat) : Word × Word :=
  (d.dram.word (f.entryAt r i), d.dram.word (f.entryAt r i + 8))

/-- HEAD moved past the entries that have ended or been refused (Table 12-3). -/
def Device.headFrom (d : Device) (f : Func) (r : Fin 2) : Nat → Nat → Nat
  | 0, i => i
  | k + 1, i =>
    if i = (f.next[r]) then i
    else if 2 ≤ wfield (d.ringEntry f r i).2 63 62 then d.headFrom f r k ((i + 1) % f.entries r)
    else i

def Device.moveHead (d : Device) (vf : Nat) (r : Fin 2) : Device :=
  let f := d.func vf
  d.updFunc vf fun f' =>
    { f' with head := f'.head.set r (BitVec.ofNat 64 (d.headFrom f r (f.entries r) (f.headN r))) }

/-- The device writes an entry's second word, and HEAD follows. -/
def Device.setEntry (d : Device) (vf : Nat) (r : Fin 2) (i : Nat) (w : Word) : Device :=
  let f := d.func vf
  ({ d with dram := d.dram.setWord (f.entryAt r i + 8) w }).moveHead vf r

/-- The ring 1 entry that the `LAUNCH` at the pc has written and waits for. -/
def Core.launched (c : Core) : Option Nat := (c.launching.find? fun x => x.1 == c.pc).map Prod.snd

/-- That `LAUNCH` has its answer. -/
def Core.decided (c : Core) : Core := { c with launching := c.launching.filter fun x => x.1 != c.pc }

/-- `LAUNCH` (R205): the release, the entry of ring 1 (−1 when it is full; a ring that is not enabled takes
nothing either, log 14), then admission's decision. -/
def execLaunch (d a : BitVec 5) (s : State) : Result :=
  let cx := (s.dev.ctx s.ctxId).getD ⟨0, .replicate 8 0, [], 0, [], 0, false, [], [], 0, false⟩
  let f := s.dev.func cx.vf
  match s.core.launched with
  | some i =>
    let w := (s.dev.ringEntry f 1 i).2
    let go (v : Word) : Result := .next (writeNext (s.withCore Core.decided) d v)
    match wfield w 63 62 with
    | 0 => .next s.stall
    | 2 => go (-2)
    | _ => go (BitVec.ofNat 64 (wfield w 47 32))
  | none =>
    if !s.core.drained || !s.core.released .dev || !s.core.pubs.isEmpty then .next s.stall
    else if f.full 1 || !f.enabled 1 then .next (writeNext s d (-1))
    else
      let i := f.tailN 1
      let at_ := f.entryAt 1 i
      let m := (s.dev.dram.setWord at_ (readS s a)).setWord (at_ + 8) (entryWord 0 0 0 s.ctxId)
      let dev := ({ s.dev with dram := m }).updFunc cx.vf fun f =>
        { f with tail := f.tail.set 1 (BitVec.ofNat 64 ((i + 1) % f.entries 1)) }
      .next ({ s with dev := dev, core := { s.core with launching := (s.core.pc, i) :: s.core.launching } }).stall

/-! ## The audit ring (R360, R454) -/

def Ctx.audCtl (c : Ctx) : Nat := c.aud + 2 ^ (c.alog + 1) * 4096
def Ctx.audBlock (c : Ctx) (b : Nat) : Nat := c.aud + 4096 * (b % 2 ^ c.alog)
def Device.audProd (d : Device) (c : Ctx) : Nat := d.dram.num 4 c.audCtl
def Device.audCons (d : Device) (c : Ctx) : Nat := d.dram.num 4 (c.audCtl + 8)

/-- Room for a record: the block being filled is not full, and is free (R454). -/
def Device.audRoom (d : Device) (c : Ctx) : Bool :=
  decide (c.auditRecs < 63) && decide ((d.audProd c + 2 ^ 32 - d.audCons c) % 2 ^ 32 < 2 ^ c.alog)

/-- The block being filled gets its trailer and its signature, and PROD advances (R360). -/
def Device.signBlock (d : Device) (id : Nat) : Device :=
  match d.ctx id with
  | none => d
  | some c =>
    let b := d.audProd c
    let prev := if b = 0 then List.replicate 32 0 else sha3 (d.dram.read 4096 (c.audBlock (b - 1)))
    let records := d.dram.read (64 * c.auditRecs) (c.audBlock b)
    let block := records ++ List.replicate (4032 - 64 * c.auditRecs) 0 ++ prev ++ bytesOf 8 b ++ List.replicate 24 0
    let sig := (Config.mlDsaSign 0 block).take 4096
    let d := (d.putBytes (c.audBlock b + 64 * c.auditRecs) (block.drop (64 * c.auditRecs))).putBytes (c.aud + 2 ^ c.alog * 4096 + 4096 * (b % 2 ^ c.alog)) sig
    ({ d with dram := d.dram.setNum 4 c.audCtl ((b + 1) % 2 ^ 32) }).updCtx id fun c => { c with auditRecs := 0 }

/-! ## The end of a hart and of a gang (R189, R334, R337) -/

/-- The partial audit block of a context without live gangs is signed (R360). -/
def Device.closeAudit (d : Device) (ctx : Nat) : Device :=
  let live := d.gangs.any fun x => x.ctx == ctx && x.st != .ended
  if !live && (d.ctx ctx).any fun c => c.auditRecs != 0 then d.signBlock ctx else d

/-- A gang ends: ST reads 11, the host is told when NT = 1, and the context's partial audit block is signed when it
was its last gang (R360). -/
def Device.endGang (d : Device) (gid : BitVec 16) : Device :=
  match d.liveGang gid with
  | none => d
  | some g =>
    let d := d.updGang gid d.finalMarks
    let r : Fin 2 := if g.ring1 then 1 else 0
    let w := (d.ringEntry (d.func g.vf) r g.pos).2
    let d := d.setEntry g.vf r g.pos (setField w 63 62 3)
    let d := if g.desc.nt then { d with posted := d.posted ++ [.gangEnded gid] } else d
    ({ d with reserved := d.reserved.filter fun x => x != gid }).closeAudit g.ctx

/-- A core without a hart: nothing of the hart is left on it (R433). -/
def Core.vacated (c : Core) : Core :=
  { Core.reset with num := c.num, stampSeq := c.stampSeq, poison := c.poison.filter fun p =>
      match p with
      | .spad _ => true
      | _ => false }

/-- Every hart of a gang has halted or is off its core. -/
def Device.allStopped (d : Device) (g : Gang) : Bool :=
  (List.range g.desc.harts).all fun h =>
    g.halted.contains h || d.saved.any fun c => c.gang16 == g.gid && c.hart == h

/-- A gang of which no hart is on a core: it has ended with its last hart, or it is a candidate again (R338, R433). -/
def Device.settleGang (d : Device) (gid : BitVec 16) : Device :=
  match d.liveGang gid with
  | none => d
  | some g =>
    if (List.range g.desc.harts).all fun i => g.halted.contains i then d.endGang gid
    else if d.allStopped g then
      { d.updGang gid (fun g => { g with st := .preempted, order := d.order }) with order := d.order + 1 }
    else d

/-- The focused hart ends: its core is free. -/
def State.endHart (s : State) : State :=
  let gid := s.core.gang16
  let h := s.core.hart
  let d := s.dev.updGang gid fun g => { g with halted := h :: g.halted }
  { s with core := s.core.vacated, dev := d.settleGang gid }

/-- `HALT` (R189, R192): an open convoy is a conflict; it waits until every word has retired or completed and what
the hart published is out. -/
def execHalt (s : State) : Result :=
  if !s.core.openConvoy.isEmpty then .next (openStop s 3)
  else if s.core.drained && s.core.pubs.isEmpty then .next s.endHart
  else .next s.stall

end Sys2Proof.Machine
end

