-- ==== Sys2Proof/Machine/VectorMemory.lean ====
section
/-! DEFINITION. Vector loads and stores, atomics, hash accumulation and key-value translation (spec/04 R103 to R106,
R119 to R123, spec/05 R128 to R134, R143, R146, spec/09 R249 to R261, R264, R265, spec/20 R381, R384, spec/22 R409,
R419). -/

namespace Sys2Proof.Machine

/-! ## Elements of a memory word -/

def idxWidth : IdxTy → Nat
  | .n32 => 32
  | .n64 => 64
  | .n16 => 16

/-- Bytes of an element; an `f4` element reaches one byte. -/
def elemBytes (et : EType) : Nat := Nat.max 1 (et.width / 8)

/-- Active (row, element) pairs in ascending *lin*. -/
def Core.activePairs (c : Core) (m : Bool) : List (Nat × Nat) :=
  (List.range c.rows).flatMap fun r => (c.actives m r).map fun e => (r, e)

/-- The remapped index of an element (R119, R251). -/
def Core.linkOf (c : Core) (o : MemArgs) (r e : Nat) : Nat :=
  let i := c.elem o.vb (idxWidth o.iw) r e
  if o.re then (c.ix[o.rx.toNat]).apply i else i

/-- Every active element with its address (R250, R251); `run` says whether the run performs it. -/
def Core.targets (c : Core) (o : MemArgs) (indexed : Bool) (r : Shape) (run : Nat → Nat → Bool) : List Elem :=
  let pos := (c.q[o.str.toNat]).pos
  (c.activePairs o.m).map fun p =>
    let lin := p.1 * c.vlen + p.2
    if indexed then
      let i := c.linkOf o p.1 p.2
      if shapeEt r = .f4 then ⟨p.1, p.2, lin, r[0] + BitVec.ofNat 64 (i / 2), i % 2 == 1, i, run p.1 p.2⟩
      else ⟨p.1, p.2, lin, r[0] + BitVec.ofNat 64 i * shapeStr r 0, false, i, run p.1 p.2⟩
    else
      let l := (pos.toNat + lin) % 2 ^ 64
      let a := streamAddr r l
      ⟨p.1, p.2, lin, a.1, a.2, l, run p.1 p.2⟩

/-- The record of the named stream; a closed one gives zeros. -/
def Core.shapeOf (c : Core) (o : MemArgs) : Shape := ((c.q[o.str.toNat]).shape).getD (.replicate 10 0)

/-- Every scratchpad address of the word lies below 0x20_0000 (R250). -/
def needInSpad (els : List Elem) (n : Nat) : Except Stop Unit :=
  match els.find? fun el => !decide (el.addr.toNat + n ≤ Config.spadBytes) with
  | none => .ok ()
  | some el => .error (limitStop 8 el.addr.toNat)

/-- The watermark a load is marked with is bound (R335, cause 0x0E). -/
def needBound (g : Option Gang) (o : MemArgs) : Except Stop Unit :=
  if o.we && (g.map fun g => g.unbound o.wm.toNat false).getD false then
    .error (.stop ⟨0x0E, o.wm.setWidth 64, 0, 0⟩)
  else .ok ()

/-- Registers that a memory word reads: mask, index, data. -/
def memReads (o : MemArgs) (indexed data : Bool) : List RegSet :=
  maskSet o.m ++ (if indexed then [regSet o.vb] else []) ++ (if data then [regSet o.va] else [])

/-- The limits that memory words share, in the class order of R368: type, length, remap, registers, stream, and what
`extra` adds about the record; then scratchpad addresses. -/
def memLimits (o : MemArgs) (indexed data : Bool) (ok : EType → Bool) (wr : List RegSet) (extra : Shape → Bool)
    (c : Core) : Except Stop Unit :=
  let r := c.shapeOf o
  needAll [needEt ok o.et, needVl c (rowMax o.et),
    (if indexed then needVl c (16384 / idxWidth o.iw) else .ok ()),
    need (!(indexed && o.re) || (c.ix[o.rx.toNat]).ok) 16 0,
    needApart wr (memReads o indexed data),
    need ((c.q[o.str.toNat]).shape.isSome && shapeEt r == o.et) 8 o.str.toNat,
    need (extra r) 8 0,
    (if shapeSp r then needInSpad (c.targets o indexed r fun _ _ => true) (elemBytes o.et) else .ok ())]

/-- The sweep of a memory word is recorded in `lgs`, by rows, or in `CM` (R252). -/
def Core.memRun (c : Core) (gran : Gran) (w : Nat) (r e : Nat) : Bool :=
  if gran = .row then c.rowRuns r else c.inRun gran w r e

/-- An element address that is not a multiple of the element's size, at the lowest *lin* (cause 0x06). -/
def misalignedElem (et : EType) (els : List Elem) : Option Stop :=
  (els.find? fun el => el.on && el.addr.toNat % elemBytes et != 0).map fun el =>
    .stop ⟨0x06, el.addr, el.addr, stepOf et.width el.row el.e⟩

/-- The accesses that a memory word makes; none when an element is misaligned. -/
def Core.memUses (c : Core) (o : MemArgs) (gran : Gran) (indexed : Bool) (k : Acc) : Uses :=
  let r := c.shapeOf o
  let els := (c.targets o indexed r (c.memRun gran o.et.width)).filter Elem.on
  if shapeSp r || (misalignedElem o.et els).isSome then [] else els.map fun el => (el.addr, elemBytes o.et, k)

/-- Data and index elements that an element of the word consumes. -/
def memData (o : MemArgs) (indexed data : Bool) (r e : Nat) : Reads :=
  (if indexed then [(o.vb, r, e * idxWidth o.iw)] else []) ++ (if data then [(o.va, r, e * o.et.width)] else [])

/-- What a word meets at its elements before they are translated: misalignment, and then spoiled operands (R368,
R419). -/
def elemsReady (c : Core) (o : MemArgs) (gran : Gran) (els : List Elem) (reads : Nat → Nat → Reads) :
    Except Stop Unit :=
  match misalignedElem o.et els with
  | some e => .error e
  | none => sound c gran o.m o.et.width reads

/-! ## Bytes of an element -/

/-- A byte as held stores of the region leave it (R146). -/
def heldByte (hs : List Held) (p : Place) (b : Byte) : Byte :=
  hs.foldl (fun b h =>
    let put (base at_ : Nat) : Byte :=
      if base ≤ at_ ∧ at_ < base + Nat.max 1 (h.bits / 8) then
        (if h.bits = 4 then
          (if h.high then BitVec.ofNat 8 (b.toNat % 16 + h.val % 16 * 16)
           else BitVec.ofNat 8 (b.toNat / 16 * 16 + h.val % 16))
         else BitVec.ofNat 8 (h.val >>> (8 * (at_ - base))))
      else b
    match h.place, p with
    | .dram x, .dram y => put x y
    | .host x, .host y => put x y
    | .spad x, .spad y => put x y
    | _, _ => b) b

/-- A place a number of bytes further on. -/
def Place.plus : Place → Nat → Place
  | .dram a, i => .dram (a + i)
  | .host a, i => .host (a + i)
  | .spad a, i => .spad (a + i)
  | .reg a, i => .reg (a + i)

/-- The value of an element at its place, held bytes of the hart's own region included. -/
def elemRead (s : State) (et : EType) (el : Elem) (p : Place) : Nat :=
  let n := elemBytes et
  let v := s.readPlace p n
  let v := match s.core.region with
    | none => v
    | some r =>
      if r.held.isEmpty then v else ofBytes ((bytesOf n v).mapIdx fun i b => heldByte r.held (p.plus i) b)
  if et.width = 4 then (if el.high then v / 16 else v % 16) else v

/-- The value of `w` bits written at an element's place; an `f4` element is merged into its byte (R128). -/
def elemWrite (s : State) (w : Nat) (high : Bool) (p : Place) (v : Nat) : State :=
  if w = 4 then
    let b := s.readPlace p 1
    s.writePlace p 1 (if high then b % 16 + v % 16 * 16 else b / 16 * 16 + v % 16)
  else s.writePlace p (w / 8) (v % 2 ^ w)

/-- An element's bytes lie in spoiled storage, or come from a held store that is spoiled (R418). -/
def State.spoiledAt (s : State) (p : Place) (n : Nat) : Bool :=
  s.poisoned p ||
    s.core.region.any fun r => r.held.any fun h =>
      s.core.poison.contains (.held h.rank h.lin) &&
        (List.range n).any fun i => covered [(h.place, Nat.max 1 (h.bits / 8))] (p.plus i)

/-- New elements written one after another; a register that is written is marked dirty. -/
def Core.putList (c : Core) (v : BitVec 5) (w : Nat) (l : List (Nat × Nat × Nat)) : Core :=
  if l.isEmpty then c
  else
    (c.setV v (l.foldl (fun x p => x.setRow p.1 (rowSet (x.row p.1) (p.2.1 * w) w p.2.2)) (c.vreg v))).freshGroups w
      (fun r e => l.any fun p => p.1 == r && p.2.1 == e) v

/-- Elements in the order in which they are performed: ascending unless two name the same bytes and the word is not
in ascending order, when a free order decides (R130, R131, log 7). -/
def inOrder (free : Nat) (ao : Bool) (ps : List (Elem × Place)) : List (Elem × Place) :=
  let keys := ps.map fun p => (p.2, p.1.high)
  if ao || decide keys.Nodup then ps
  else
    let ix := List.range ps.length
    let perm := Config.elemOrder free ix
    if perm.isPerm ix then perm.filterMap fun i => ps[i]? else ps

/-! ## Suppression (R255, R256, R264, R265) -/

/-- Which failures a word suppresses: none; those after its first active element; all. -/
inductive Suppress where
  | plain
  | later
  | all
  deriving DecidableEq, Repr

/-- What the checks of the elements leave: places, elements that read as zero, suppressions with their WHY, failures,
whether the rest of the word is cut off. -/
structure Checked where
  go : List (Elem × Place)
  zero : List Elem
  supp : List (Elem × Nat)
  fails : Fails
  cut : Bool
  /-- Suppressed for poison: each writes a record. -/
  spoiled : List Elem
  deriving DecidableEq, Repr

/-- An operand element that lies in a spoiled element group (R419). -/
def Core.spoiltElem (c : Core) (v : BitVec 5) (w row e : Nat) : Bool :=
  c.poison.contains (.reg v row (e * w / 512))

/-- One element's check. `bad` says that its index or data are spoiled. In a trial of the checks the word keeps the
translations that it finds (R390). -/
def checkElem (o : Owner) (k : Acc) (n w : Nat) (sp : Bool) (mode : Suppress) (bad : Elem → Bool) (firstLin : Nat)
    (acc : Checked × State) (el : Elem) : Checked × State :=
  let (r, s) := acc
  let supp : Bool := match mode with
    | .plain => false
    | .later => el.lin != firstLin
    | .all => true
  if r.cut then (if el.on then { r with zero := r.zero ++ [el] } else r, s)
  else if !el.on && !(mode == .later && supp) then (r, s)
  else
    let got : Except Fail (Place × Nat × State) :=
      if sp then .ok (.spad el.addr.toNat, 0, s) else probeFor s o el.addr n k supp
    let got : Except Fail (Place × Nat × State) := match got with
      | .ok x => if supp && (bad el || (k.reads && s.spoiledAt x.1 n)) then .error .poison else .ok x
      | .error f => .error f
    match got with
    | .ok (p, attr, s') =>
      if !el.on then (r, s)
      else ({ r with go := r.go ++ [(el, p)] }, if !sp && s.core.mode == .check then s'.pin el.addr k p attr else s')
    | .error f =>
      let s := if sp || !el.on then s else s.touched el.addr n k
      if supp && f != .migrating then
        ({ r with cut := mode == .later,
                  zero := if el.on then r.zero ++ [el] else r.zero,
                  supp := r.supp ++ [(el, f.why)],
                  spoiled := if el.on && f == .poison then r.spoiled ++ [el] else r.spoiled }, s)
      else ({ r with fails := r.fails.note (s.batchOf o) el.addr k el.lin (stepOf w el.row el.e) f }, s)

/-- The checks of every element, ascending. -/
def checkElems (o : Owner) (k : Acc) (n w : Nat) (sp : Bool) (mode : Suppress) (bad : Elem → Bool) (els : List Elem)
    (s : State) : Except Stop (Checked × State) :=
  let first := (els.head?.map Elem.lin).getD 0
  let r := els.foldl (checkElem o k n w sp mode bad first) (⟨[], [], [], Fails.none, false, []⟩, s)
  match r.1.fails.stop s o with
  | some st => .error st
  | none => .ok r

/-- The type-3 record of an element suppressed for poison (R419). -/
def State.poisonNote (s : State) (el : Elem) : State :=
  let who := s.whoWord
  let (st, s) := s.stamp
  s.withDev fun d => d.pushOrWait s.ctxId
    #v[BitVec.ofNat 64 (3 <<< 60 + 512 + 0x19), who, s.core.pc, s.core.run.prov, el.addr, s.core.lgsWord,
      s.core.run.prov, st]

/-- Suppressions recorded: in the region's hamper, or in `ffs` (R47, R265). -/
def Core.noteSupp (c : Core) (l : List (Elem × Nat)) : Core :=
  l.foldl (fun c x =>
    match c.region with
    | some r => { c with region := some (r.suppress x.1.lin x.2) }
    | none => if x.1.on then c.suppress x.2 x.1.row x.1.e else c) c

/-- Elements that the turn has suppressed (event 0x0040, Table 13-5). -/
def Core.countSupp (c : Core) (n : Nat) : Core := { c with supps := c.supps + n }

/-! ## Ordering of a word with others -/

/-- Copy and collective words that a release at a scope waits for (R134, note 6). -/
def Core.enginesQuiet (c : Core) (sc : Scope) : Bool :=
  sc == .hart || (c.cpy ++ c.col).all fun e => decide (c.run.rank < e.rank)

/-- An element of a marked load is performed once its watermark has passed its link index (R143). -/
def State.coversElem (s : State) (o : MemArgs) (el : Elem) : Bool :=
  !o.we ||
    (match s.gang with
     | none => true
     | some g => decide (el.link < (s.dev.watermark g o.wm.toNat).toNat))

/-- What a load acquires: at its own scope, and each element through its watermark, at the scope of the `WMPUB` that
raised it past the element's link index (R133, R143). -/
def State.acquired (s : State) (o : MemArgs) (els : List Elem) : State :=
  let s := if o.ord.getLsbD 0 then s.discardFetched o.sc else s
  if o.we then els.foldl (fun s el => s.pastMark o.wm.toNat el.link s.core.run.pc s.core.run.prov) s else s

/-- The stream moves on for the words that follow (R248); a run that ends part-way gives the positions back
(`Core.keepStreams`). -/
def Core.advanceBy (c : Core) (o : MemArgs) (n : Nat) : Core :=
  if o.adv then c.moveStream o.str (BitVec.ofNat 64 n) else c

/-- The fields of a vector memory word. -/
def memArgsOf (i : Instr) : Option MemArgs :=
  match i with
  | .vld o | .vldx o | .vldff o | .vldsp o | .vldspx o | .vldp o | .vst o | .vstx o | .vsth o | .vstp o | .vamoAdd o
  | .vamoSwp o | .vamoMin o | .vamoMax o | .vamoAnd o | .vamoOr o | .vamoXor o | .vamoFadd o | .vhacc o | .vxlt o
  | .vxltff o => some o
  | _ => none

/-- The run of a word that `CM` tracks takes `CM` (R59). A word that runs whole while `CM` describes the words of a queue
image leaves it to them. -/
def Core.takeCM (c : Core) (gran : Gran) : Core :=
  if gran = .mask ∧ (c.cntLive ∨ c.mode ≠ .whole) then c.claim.ownCM c.ownPos else c

/-- A hash word counts its elements in `CM`, whatever another word of its convoy did there before it (R59, R384). -/
def Core.takeHash (c : Core) : Core :=
  if c.ownsCM then c else ({ c.claim with cmv := setBit c.claim.cmv 0 false } : Core).ownCM c.ownPos

/-- Elements that have taken their full effect. -/
def Core.doneElems (c : Core) (gran : Gran) (els : List Elem) : Core :=
  if gran = .mask && c.ownsCM then els.foldl (fun c el => c.setCM el.row el.e) c else c

/-! ## Loads -/

/-- The value of an element that the running load has read ahead of its step (R130). -/
def Core.earlyOf (c : Core) (el : Elem) : Option Nat :=
  (c.early.find? fun x => x.1 == c.run.rank && x.2.1 == el.lin).map fun x => x.2.2

/-- The values of the checked elements, in turn; a spoiled line is a deferred fault (R419). -/
def readElems (et : EType) (ps : List (Elem × Place)) (s : State) : Except Stop (List (Nat × Nat × Nat)) :=
  match ps with
  | [] => .ok []
  | (el, p) :: ps =>
    let early := s.core.earlyOf el
    if early.isNone && s.spoiledAt p (elemBytes et) then
      .error (.deferred ⟨0x19, el.addr, el.addr, stepOf et.width el.row el.e⟩)
    else
      match readElems et ps s with
      | .error e => .error e
      | .ok vs => .ok ((el.row, el.e, early.getD (elemRead s et el p)) :: vs)

/-- Doublewords of a descriptor: from row 0 of a register, or from memory at the address in a slot. -/
def engineDesc (src : RecSrc) (n : Nat) (s : State) : Except Stop (List Word × State) :=
  match src with
  | .reg va =>
    match soundRow0 s.core va (64 * n) with
    | .error e => .error e
    | .ok _ => .ok ((List.range n).map fun i => s.core.i64 va i, s)
  | .slot k =>
    let va := s.core.slot k
    if va.toNat % 8 ≠ 0 then .error (.stop ⟨0x06, va, va, 0⟩) else readDoubles (.word s.core.run.rank) va n 0 s

/-- A copy descriptor (Table 10-1). -/
def copyJob (mask : Option (BitVec 5)) (l : List Word) : Job :=
  let d := l.getD 2 0
  { src := l.getD 0 0, dst := l.getD 1 0, len := wfield d 39 0, chunk := 2 ^ (wfield d 47 45 + 8), ssp := d.getLsbD 43,
    dsp := d.getLsbD 44, done := 0, mask := mask, tag := 0, grp := 0, peer := 0, op := 0, et := .i8 }

/-- Bytes of the scratchpad. -/
structure Fill where
  rank : Nat
  base : Nat
  len : Nat
  /-- How many have arrived, from the first on (R105). -/
  done : Nat
  deriving DecidableEq, Repr

def Fill.meets (f : Fill) (x n : Nat) : Bool := decide (f.base < x + n ∧ x < f.base + f.len)

/-- The scratchpad range that a word of the copy queue fills, started or not. One whose descriptor cannot be read yet may
fill all of it (log 45). -/
def State.fillOf (s : State) (e : QEntry) : Option Fill :=
  match e.job.or e.aim with
  | some j => if j.dsp then some ⟨e.rank, j.dst.toNat, j.len, j.done⟩ else none
  | none =>
    match decodeV e.word with
    | .ok (.cpy o) =>
      match engineDesc o.src 3 { s with core := { s.core with run := e } } with
      | .ok (l, _) =>
        let j := copyJob o.mreg l
        if j.dsp then some ⟨e.rank, j.dst.toNat, j.len, 0⟩ else none
      | .error _ => some ⟨e.rank, 0, Config.spadBytes, 0⟩
    | _ => none

/-- Bytes of a scratchpad element that wait for an older copy (R106): the youngest older word of the copy queue whose
destination meets them has not delivered them, and no younger `VSTP` has written there since. Every older `VSTP` has
retired. -/
def State.awaitsCopy (s : State) (x n : Nat) : Bool :=
  let me := s.core.run.rank
  match (((s.core.cpy.filter fun e => decide (e.rank < me)).filterMap s.fillOf).filter fun f => f.meets x n).getLast? with
  | none => false
  | some f =>
    decide (f.base + f.done < x + n) && decide (f.done < f.len) &&
      !s.core.stps.any fun v => decide (f.rank < v.1 ∧ v.1 < me) && (Fill.mk v.1 v.2.1 v.2.2 0).meets x n

/-- The ends of a run that stops short of the elements that wait (R106, R143): step by step in each lane group, row by
row, or at the first of them for a word in ascending order. -/
def cutEnds (gran : Gran) (ao : Bool) (w : Nat) (hi : Vector Nat 4) (late : List Elem) : Vector Nat 4 :=
  let least (l : List Nat) (n : Nat) : Nat := l.foldl min n
  match gran with
  | .row => .ofFn fun lg => least (late.map fun el => 32 * el.row) (hi.getD lg 0)
  | _ =>
    if ao then
      let u := prefixEnds (least (late.map fun el => 4 * stepOf w el.row el.e + laneGroup w el.e) 2048)
      .ofFn fun lg => min (hi.getD lg 0) (u.getD lg 0)
    else
      .ofFn fun lg => least ((late.filter fun el => laneGroup w el.e == lg.val).map fun el => stepOf w el.row el.e)
        (hi.getD lg 0)

/-- The effects of a load on the elements that it performs. -/
def loadEnd (o : MemArgs) (gran : Gran) (mode : Suppress) (els : List Elem) (k : Checked) (s : State) :
    Except Stop State :=
  match readElems o.et k.go s with
  | .error e => .error e
  | .ok vs =>
    let s := k.spoiled.foldl State.poisonNote s
    let s := s.acquired o ((k.go.map Prod.fst).filter fun el => (s.core.earlyOf el).isNone)
    let c := s.core.takeCM gran
    let c := c.putList o.vd o.et.width (vs ++ k.zero.map fun el => (el.row, el.e, 0))
    let c := ((c.doneElems gran (els.filter Elem.on)).noteSupp k.supp).countSupp k.zero.length
    let count := match mode, k.supp with
      | .later, x :: _ => x.1.lin
      | _, _ => c.rows * c.vlen
    .ok { s with core := c.advanceBy o count }

/-- The body of a load. Elements that wait for a watermark or for a copy hold back no others (R106, R143): a run that may
leave them out ends short of them, and a word that `CM` tracks, alone in its convoy, leaves just them out. -/
def loadBody (o : MemArgs) (gran : Gran) (indexed : Bool) (mode : Suppress) (pointers : Bool) (s : State) :
    Except Stop State :=
  let c := s.core
  let r := c.shapeOf o
  let w := o.et.width
  let n := elemBytes o.et
  let els := c.targets o indexed r (c.memRun gran w)
  match elemsReady c o gran els (memData o (indexed && mode == .plain) false) with
  | .error e => .error e
  | .ok _ =>
    let bad (el : Elem) : Bool := indexed && c.spoiltElem o.vb (idxWidth o.iw) el.row el.e
    match checkElems (.word c.run.rank) .read n w (shapeSp r) mode bad els s with
    | .error e => .error e
    | .ok (k, s) =>
      let waits (el : Elem) : Bool :=
        (s.core.earlyOf el).isNone && (!s.coversElem o el || (pointers && s.awaitsCopy el.addr.toNat n))
      let late := (k.go.map Prod.fst).filter waits
      if c.mode = .check then .ok s
      else if late.isEmpty then loadEnd o gran mode els k s
      else if c.mode ≠ .ready then .error .hold
      else if gran = .mask ∧ !o.ao ∧ c.headConvoy.length ≤ 1 then
        let on (el : Elem) : Bool := !late.contains el
        loadEnd o gran mode (els.filter on) { k with go := k.go.filter fun x => on x.1 } s
      else .ok (s.withCore fun c => { c with hi := cutEnds gran o.ao w c.hi late })

/-- A load reads elements ahead of their steps (R130), those that `pick` names: they have been checked, and wait for nothing.
A covered element of a marked load is not held back by another (R143), nor one of `VLDP` that waits for no copy (R106). -/
def loadEarly (o : MemArgs) (gran : Gran) (indexed pointers : Bool) (pick : Elem → Bool) (s : State) : State :=
  let c := s.core
  let r := c.shapeOf o
  let n := elemBytes o.et
  let els := (c.targets o indexed r (c.memRun gran o.et.width)).filter fun el => el.on && (c.earlyOf el).isNone && pick el
  if (misalignedElem o.et els).isSome then s
  else
    els.foldl (fun s el =>
      let got : Except Fail (Place × Nat × State) :=
        if shapeSp r then .ok (.spad el.addr.toNat, 0, s) else probeFor s (.word c.run.rank) el.addr n .read false
      match got with
      | .error _ => s
      | .ok (p, _, t) =>
        if s.spoiledAt p n || !s.coversElem o el || (pointers && s.awaitsCopy el.addr.toNat n) then s
        else (t.acquired o [el]).withCore fun c =>
          { c with early := (c.run.rank, el.lin, elemRead s o.et el p) :: c.early }) s

/-- Limits of a load. -/
def loadLimits (o : MemArgs) (indexed : Bool) (extra : Shape → Bool) (g : Option Gang) (c : Core) : Except Stop Unit :=
  needAll [memLimits o indexed false anyType [regSet o.vd] extra c, needBound g o]

/-- A load word. -/
def loadVec (o : MemArgs) (gran : Gran) (inRegion indexed : Bool) (mode : Suppress) (pointers : Bool)
    (extra : Shape → Bool) (s : State) : Result :=
  memWord gran inRegion o.ao (loadLimits o indexed extra s.gang) (loadBody o gran indexed mode pointers)
    (fun c => c.memUses o gran indexed .read) s

def execVld (o : MemArgs) (s : State) : Result := loadVec o .step false false .plain false (fun _ => true) s
def execVldx (o : MemArgs) (s : State) : Result := loadVec o .mask false true .plain false (fun _ => true) s
/-- `VLDFF` (R255): rows retire as a whole. Every active element is checked for alignment, those that come to be
suppressed too (log 64). -/
def execVldff (o : MemArgs) (s : State) : Result := loadVec o .row false false .later false (fun _ => true) s
def execVldsp (o : MemArgs) (s : State) : Result := loadVec o .step true false .all false (fun _ => true) s
def execVldspx (o : MemArgs) (s : State) : Result := loadVec o .mask true true .all false (fun _ => true) s
/-- `VLDP` (R254): a scratchpad stream, behind the arrival pointers (R106). -/
def execVldp (o : MemArgs) (s : State) : Result := loadVec o .step false false .plain true shapeSp s

/-! ## Stores -/

/-- Element values written in turn. -/
def writeElems (et : EType) (val : Elem → Nat) (ps : List (Elem × Place)) (s : State) : State :=
  ps.foldl (fun s x => elemWrite s et.width x.1.high x.2 (val x.1)) s

/-- The body of a store. -/
def storeBody (o : MemArgs) (gran : Gran) (indexed : Bool) (s : State) : Except Stop State :=
  let c := s.core
  let r := c.shapeOf o
  let w := o.et.width
  let els := c.targets o indexed r (c.memRun gran w)
  match elemsReady c o gran els (memData o indexed true) with
  | .error e => .error e
  | .ok _ =>
    match checkElems (.word c.run.rank) .write (elemBytes o.et) w (shapeSp r) .plain (fun _ => false) els s with
    | .error e => .error e
    | .ok (k, s) =>
      if c.mode = .check then .ok s
      else if o.ord.getLsbD 1 && !c.enginesQuiet o.sc then .error .hold
      else
        let s := writeElems o.et (fun el => c.elem o.va w el.row el.e) (inOrder s.free o.ao k.go) s
        let c := (s.core.takeCM gran).doneElems gran (els.filter Elem.on)
        .ok { s with free := s.free + 1, core := c.advanceBy o (c.rows * c.vlen) }

/-- A store word. -/
def storeVec (o : MemArgs) (gran : Gran) (indexed : Bool) (extra : Shape → Bool)
    (body : State → Except Stop State) (s : State) : Result :=
  memWord gran false o.ao (memLimits o indexed true anyType [] extra) body
    (fun c => c.memUses o gran indexed .write) s

def execVst (o : MemArgs) (s : State) : Result := storeVec o .step false (fun _ => true) (storeBody o .step false) s
def execVstx (o : MemArgs) (s : State) : Result := storeVec o .mask true (fun _ => true) (storeBody o .mask true) s

/-- The scratchpad range that a `VSTP` writes is kept while an older word of the copy queue is unfinished (R106). -/
def Core.noteStp (c : Core) (o : MemArgs) : Core :=
  if c.cpy.any fun e => decide (e.rank < c.run.rank) then
    let a := (streamAddr (c.shapeOf o) (c.q[o.str.toNat]).pos.toNat).1.toNat
    { c with stps := (c.run.rank, a, (c.rows * c.vlen * o.et.width + 7) / 8) :: c.stps }
  else c

/-- `VSTP` (R254): rank 1 with elements side by side in the scratchpad. -/
def execVstp (o : MemArgs) (s : State) : Result :=
  storeVec o .step false
    (fun r => shapeSp r && shapeRank r == 1 && (o.et == .f4 || shapeStr r 0 == BitVec.ofNat 64 (elemBytes o.et)))
    (fun s =>
      match storeBody o .step false s with
      | .error e => .error e
      | .ok t => .ok (if s.core.mode = .check then t else { t with core := { t.core with stps := (s.core.noteStp o).stps } })) s

/-- `VSTH` words that the region has retired (R264). -/
def Region.stores (r : Region) : Nat := r.retired.countP fun e => opOf e.word == 0x51

/-- The hamper limit (R264, R383): a fifth `VSTH`. -/
def needHamper (c : Core) : Except Stop Unit :=
  match c.region with
  | none => .ok ()
  | some r => if r.stores < Config.regionStores then .ok ()
    else .error (.stop ⟨0x10, BitVec.ofNat 64 (r.stores + 1), 0, 0⟩)

/-- Elements held in the hamper instead of written (R264). -/
def holdBody (o : MemArgs) (s : State) : Except Stop State :=
  let c := s.core
  let r := c.shapeOf o
  let w := o.et.width
  let els := c.targets o false r (c.memRun .step w)
  match elemsReady c o .step els fun _ _ => [] with
  | .error e => .error e
  | .ok _ =>
    let bad (el : Elem) : Bool := c.spoiltElem o.va w el.row el.e
    match checkElems (.word c.run.rank) .write (elemBytes o.et) w (shapeSp r) .all bad els s with
    | .error e => .error e
    | .ok (k, s) =>
      if c.mode = .check then .ok s
      else
        let s := k.spoiled.foldl State.poisonNote s
        let held := (inOrder s.free false k.go).map fun x =>
          (⟨c.run.rank, x.1.lin, x.1.addr, x.2, w, x.1.high, c.elem o.va w x.1.row x.1.e⟩ : Held)
        let c : Core := { s.core with region := s.core.region.map fun (g : Region) => { g with held := g.held ++ held } }
        let c := (c.noteSupp k.supp).countSupp (k.supp.filter fun x => x.1.on).length
        .ok { s with free := s.free + 1, core := c.advanceBy o (c.rows * c.vlen) }

/-- `VSTH` (R264): outside a region a plain store. -/
def execVsth (o : MemArgs) (s : State) : Result :=
  memWord .step true false
    (fun c => needAll [memLimits o false true anyType [] (fun _ => true) c, needHamper c])
    (fun s => if s.core.region.isSome then holdBody o s else storeBody o .step false s)
    (fun c => c.memUses o .step false .write) s

/-! ## Atomics (R258) -/

/-- The atomic accesses of the elements in turn: old values, and memory with the new ones. -/
def amoElems (o : MemArgs) (f : Nat → Nat → Nat) (ps : List (Elem × Place)) (s : State) :
    Except Stop (List (Nat × Nat × Nat) × State) :=
  match ps with
  | [] => .ok ([], s)
  | (el, p) :: ps =>
    if s.poisoned p then .error (.deferred ⟨0x19, el.addr, el.addr, stepOf o.et.width el.row el.e⟩)
    else
      let old := elemRead s o.et el p
      let s := match p with
        | .spad _ => s
        | p => s.checkAtomic p o.sc s.core.run.pc s.core.run.prov
      let s := elemWrite s o.et.width el.high p (f old (s.core.elem o.va o.et.width el.row el.e))
      match amoElems o f ps s with
      | .error e => .error e
      | .ok (vs, s) => .ok ((el.row, el.e, old) :: vs, s)

def amoBody (o : MemArgs) (f : Nat → Nat → Nat) (s : State) : Except Stop State :=
  let c := s.core
  let r := c.shapeOf o
  let w := o.et.width
  let els := c.targets o true r (c.memRun .mask w)
  match elemsReady c o .mask els (memData o true true) with
  | .error e => .error e
  | .ok _ =>
    match checkElems (.word c.run.rank) .atomic (elemBytes o.et) w (shapeSp r) .plain (fun _ => false) els s with
    | .error e => .error e
    | .ok (k, s) =>
      if c.mode = .check then .ok s
      else if o.ord.getLsbD 1 && !c.enginesQuiet o.sc then .error .hold
      else
        match amoElems o f (inOrder s.free o.ao k.go) s with
        | .error e => .error e
        | .ok (vs, s) =>
          let s := if o.ord.getLsbD 0 then s.discardFetched o.sc else s
          let c := (s.core.takeCM .mask).putList o.vd w vs
          .ok { s with free := s.free + 1, core := c.doneElems .mask (els.filter Elem.on) }

def vamo (o : MemArgs) (ok : EType → Bool) (f : Nat → Nat → Nat) (s : State) : Result :=
  memWord .mask false o.ao (memLimits o true true ok [regSet o.vd] fun _ => true) (amoBody o f)
    (fun c => c.memUses o .mask true .atomic) s

/-- An integer operation of Table 9-4; MIN and MAX are signed for the `i` types. -/
def vamoInt (o : MemArgs) (op : AmoOp) (s : State) : Result := vamo o EType.isInt (op.apply o.et.width) s

def execVamoAdd (o : MemArgs) (s : State) : Result := vamoInt o .add s
def execVamoSwp (o : MemArgs) (s : State) : Result := vamoInt o .swp s
def execVamoMin (o : MemArgs) (s : State) : Result := vamoInt o (if o.et.isSigned then .min else .minn) s
def execVamoMax (o : MemArgs) (s : State) : Result := vamoInt o (if o.et.isSigned then .max else .maxn) s
def execVamoAnd (o : MemArgs) (s : State) : Result := vamoInt o .and s
def execVamoOr (o : MemArgs) (s : State) : Result := vamoInt o .or s
def execVamoXor (o : MemArgs) (s : State) : Result := vamoInt o .xor s
def execVamoFadd (o : MemArgs) (s : State) : Result :=
  vamo o (fun et => et == .f64 || et == .f32) (fadd o.et .rne) s

/-! ## Hash accumulation (R259, R260, R384) -/

/-- The table of a `VHACC`: its record (R259). -/
def hashShape (r : Shape) : Bool :=
  shapeSp r && shapeRank r == 1 && shapeStr r 0 == 8 && decide (16 ≤ shapeExt r 0 ∧ shapeExt r 0 ≤ 262144) &&
    shapeExt r 0 == 2 ^ (shapeExt r 0).log2

/-- What a key's probes find: a slot, which holds the key or is empty; none; or a slot in a spoiled bank row (R419). -/
inductive Probe where
  | slot (a : Nat) (found : Bool)
  | full
  | spoilt
  deriving DecidableEq, Repr

/-- The first of the 16 probes from slot `h` on that holds the key or is empty. `bad` says which slots are spoiled. -/
def probeSlot (bad : Nat → Bool) (m : Memory) (base ext key : Nat) : Nat → Nat → Probe
  | 0, _ => .full
  | n + 1, h =>
    let a := base + 8 * (h % ext)
    let k := m.num 4 a
    if bad a then .spoilt
    else if k = key then .slot a true
    else if k = 0xFFFFFFFF then .slot a false
    else probeSlot bad m base ext key n (h + 1)

/-- One key handled (R260): its slot, or no slot. The key that is skipped writes nothing, and has taken its full effect all
the same: it marks vd dirty (R435). -/
def hashElem (o : MemArgs) (r : Shape) (s : State) (el : Elem) : Except Stop State :=
  let c := s.core
  let key := c.elem o.vb 32 el.row el.e
  if key = 0xFFFFFFFF then .ok { s with core := (c.setV o.vd (c.vreg o.vd)).setCM el.row el.e }
  else
    let base := (r[0]).toNat
    let x := c.elem o.va 32 el.row el.e
    let h := if o.re then (c.ix[o.rx.toNat]).apply key else key
    let bad (a : Nat) : Bool := !c.poison.isEmpty && (s.poisoned (.spad a) || s.poisoned (.spad (a + 7)))
    match probeSlot bad c.spad base (shapeExt r 0) key 16 (h % shapeExt r 0) with
    | .spoilt => .error (.deferred ⟨0x19, 0, 0, stepOf 32 el.row el.e⟩)
    | .slot a found =>
      let v := if found then
          (if o.et = .f32 then fadd .f32 .rne (c.spad.num 4 (a + 4)) x else (c.spad.num 4 (a + 4) + x) % 2 ^ 32)
        else x
      let s := s.setBytes (.spad a) (bytesOf 8 (key + v * 2 ^ 32))
      .ok { s with core := (s.core.putBit o.vd el.row el.e false).setCM el.row el.e }
    | .full => .ok { s with core := (c.putBit o.vd el.row el.e true).setHovf }

/-- The keys in turn, until one meets a spoiled slot. -/
def hashElems (o : MemArgs) (r : Shape) : List Elem → State → Except Stop State
  | [], s => .ok s
  | el :: els, s =>
    match hashElem o r s el with
    | .error e => .error e
    | .ok t => hashElems o r els t

/-- `CM` is the word's own while it runs. -/
def hashBody (o : MemArgs) (s : State) : Except Stop State :=
  let c := s.core
  let r := c.shapeOf o
  match sound c .mask o.m 32 fun r e => [(o.vb, r, e * 32), (o.va, r, e * 32)] with
  | .error e => .error e
  | .ok _ =>
    let els := (c.targets o true r (c.memRun .mask 32)).filter Elem.on
    if c.mode = .check then .ok s else hashElems o r els { s with core := c.takeHash }

def hashLimits (o : MemArgs) (c : Core) : Except Stop Unit :=
  let r := c.shapeOf o
  let rd := regSet o.vb :: regSet o.va :: maskSet o.m
  needAll [needEt (fun et => et == .i32 || et == .n32 || et == .f32) o.et, needVl c 512,
    need (!o.re || (c.ix[o.rx.toNat]).ok) 16 0, needApart [regSet o.vd] rd,
    need ((c.q[o.str.toNat]).shape.isSome && shapeEt r == o.et) 8 o.str.toNat, need (hashShape r) 8 0,
    need (decide ((r[0]).toNat + 8 * shapeExt r 0 ≤ Config.spadBytes)) 8 ((r[0]).toNat + 8 * shapeExt r 0 - 1)]

/-- Some active element of the word has found no slot yet. -/
def Core.unplaced (c : Core) (m : Bool) : Bool :=
  (c.activePairs m).any fun p => !(VReg.row c.cm p.1).getLsbD p.2

/-- `VHACC` (R260). With HTE set, a key without a slot stops the word after every other key has been tried: it does
not retire, and `CM` holds what has been done (R384). -/
def execVhacc (o : MemArgs) (s : State) : Result :=
  let tried : Option State :=
    match firstUseOk s.core, regionOk s.core false, hashLimits o s.core, hashBody o s with
    | .ok _, .ok _, .ok _, .ok s' =>
      if s.core.hte && s.core.mode != .check && s'.core.fullRun && s'.core.unplaced o.m then some s' else none
    | _, _, _, _ => none
  match tried with
  | some s' => stopWith (fun _ => s') s' (.stop ⟨0x13, 0, 0, 512⟩)
  | none => memWord .mask false false (hashLimits o) (hashBody o) (fun _ => []) s

/-! ## Key-value translation (R261) -/

/-- The pool record in row 0 of va (Table 4-7). -/
structure Pool where
  tbase : Word
  pbase : Word
  e2 : Word
  nblk : Nat
  deriving DecidableEq, Repr

def Core.poolAt (c : Core) (v : BitVec 5) : Pool := ⟨c.i64 v 0, c.i64 v 1, c.i64 v 2, wfield (c.i64 v 4) 31 0⟩
def Pool.le (p : Pool) : Nat := wfield p.e2 12 8
def Pool.lt (p : Pool) : Nat := wfield p.e2 4 0
def Pool.ok (p : Pool) : Bool :=
  decide (4 ≤ p.le ∧ p.le ≤ 16 ∧ p.lt ≤ 12 ∧ p.lt + p.le ≤ 24) && p.e2 &&& ~~~0x1F1F#64 == 0 &&
    decide (p.tbase.toNat % 8 = 0 ∧ p.pbase.toNat % 65536 = 0)

/-- The pool address of a token in a mapped block (R123). -/
def Pool.token (p : Pool) (entry tok : Nat) : Word :=
  p.pbase + BitVec.ofNat 64 (entry % 2 ^ 32 * 2 ^ (p.lt + p.le) + tok % 2 ^ p.lt * 2 ^ p.le)

/-- Progress of a translation: addresses found (or none), where `vxltff` stopped and why, failures, a deferred
fault, and elements that poison stopped. -/
structure Xlt where
  out : List (Nat × Nat × Option Word)
  stop : Option (Nat × Nat × Nat)
  fails : Fails
  defer : Option Stop
  spoiled : List Elem
  deriving DecidableEq, Repr

/-- One active element of `VXLT`. -/
def xltElem (o : Owner) (ff : Bool) (pool : Pool) (tok : Nat → Nat → Nat) (bad : Elem → Bool) (firstLin : Nat)
    (acc : Xlt × State) (el : Elem) : Xlt × State :=
  let (x, s) := acc
  let put (x : Xlt) (a : Option Word) : Xlt := if el.on then { x with out := x.out ++ [(el.row, el.e, a)] } else x
  if x.stop.isSome then (put x none, s)
  else if !el.on && !ff then (x, s)
  else if ff && el.lin != firstLin && bad el then
    (put { x with stop := some (el.row, el.e, 5), spoiled := if el.on then x.spoiled ++ [el] else x.spoiled } none, s)
  else
    let p := tok el.row el.e
    let j := p >>> pool.lt
    let supp := ff && el.lin != firstLin
    let va := pool.tbase + BitVec.ofNat 64 (8 * j)
    let use (e : Nat) (s : State) : Xlt × State :=
      if e.testBit 63 then (put x (some (pool.token e p)), s)
      else (put (if ff then { x with stop := some (el.row, el.e, 1) } else x) none, s)
    if pool.nblk ≤ j then use 0 s
    else
      match probeFor s o va 8 .read supp with
      | .error f =>
        let s := s.touched va 8 .read
        if supp && f != .migrating then (put { x with stop := some (el.row, el.e, f.why) } none, s)
        else ({ x with fails := x.fails.note (s.batchOf o) va .read el.lin (stepOf 64 el.row el.e) f }, s)
      | .ok (pl, attr, s') =>
        if s.poisoned pl then
          (if supp then
            (put { x with stop := some (el.row, el.e, 5),
                          spoiled := if el.on then x.spoiled ++ [{ el with addr := va }] else x.spoiled } none, s)
           else if x.defer.isSome then (x, s)
           else ({ x with defer := some (.deferred ⟨0x19, va, va, stepOf 64 el.row el.e⟩) }, s))
        else
          use (s'.readPlace pl 8) (if s.core.mode == .check then s'.pin va .read pl attr else s')

/-- Younger words trimmed to what `ffs` names (R257). -/
def Core.trimYounger (c : Core) : Core :=
  let t : Trim := ⟨c.run.epoch, c.run.rank, wfield c.ffs 18 15, wfield c.ffs 14 0⟩
  { c with trim := some t, vec := c.vec.map t.apply }

/-- The effects of a translation on the rows of the run. -/
def xltEnd (o : MemArgs) (x : Xlt) (s : State) : State :=
  let s := x.spoiled.foldl State.poisonNote s
  let s := if o.ord.getLsbD 0 then s.discardFetched o.sc else s
  let c := s.core.putList o.vd 64 (x.out.filterMap fun x => x.2.2.map fun a => (x.1, x.2.1, a.toNat))
  let c := c.putList o.vc 1 (x.out.map fun x => (x.1, x.2.1, x.2.2.isNone.toNat))
  match x.stop with
  | some (row, e, why) => { s with core := if c.rowRuns row then (c.suppress why row e).trimYounger else c }
  | none => { s with core := c }

/-- The running `vxltff` has recorded its stop in rows that have retired: it has trimmed the younger words (R261). -/
def Core.xltStopped (c : Core) : Option (Nat × Nat × Nat) :=
  if (c.trim.any fun t => t.rank == c.run.rank) && decide (0 < c.lgNow 0) then
    some (wfield c.ffs 18 15, wfield c.ffs 14 0, wfield c.ffs 22 20) else none

/-- The table entries that the word reads. -/
def Core.xltUses (c : Core) (o : MemArgs) : Uses :=
  let pool := c.poolAt o.va
  ((c.activePairs o.m).filter fun p => c.rowRuns p.1).filterMap fun p =>
    let j := c.elem o.vb 64 p.1 p.2 >>> pool.lt
    if j < pool.nblk then some (pool.tbase + BitVec.ofNat 64 (8 * j), 8, .read) else none

def xltBody (o : MemArgs) (ff : Bool) (s : State) : Except Stop State :=
  let c := s.core
  let own := Owner.word c.run.rank
  let els := (c.activePairs o.m).map fun p =>
    (⟨p.1, p.2, p.1 * c.vlen + p.2, 0, false, 0, c.rowRuns p.1⟩ : Elem)
  let first := (els.head?.map Elem.lin).getD 0
  let bad (el : Elem) : Bool := c.spoiltElem o.vb 64 el.row el.e
  let r := els.foldl (xltElem own ff (c.poolAt o.va) (fun r e => c.elem o.vb 64 r e) bad first)
    (⟨[], c.xltStopped, Fails.none, none, []⟩, s)
  match r.1.fails.stop s own, r.1.defer with
  | some st, _ => .error st
  | none, some st => .error st
  | none, none =>
    .ok (if c.mode = .check then r.2 else xltEnd o r.1 r.2)

/-- Tokens that a translation consumes. In `vxltff` a spoiled one stops it at its element, but for the first (R255, R419). -/
def xltReads (o : MemArgs) (ff : Bool) (c : Core) (r e : Nat) : Reads :=
  if ff && (c.activePairs o.m).head? != some (r, e) then [] else elemReads [o.vb] 64 r e

/-- Limits of `VXLT` (R253, R261). -/
def xltLimits (o : MemArgs) (ff : Bool) (c : Core) : Except Stop Unit :=
  let rd := regSet o.vb :: maskSet o.m
  needAll [needEt (fun et => et == .n64) o.et, needVl c 256, need (o.vd != o.vc) 6 o.vd.toNat,
    needApart [regSet o.vd, regSet o.vc] (regSet o.va :: rd), need (c.poolAt o.va).ok 13 0,
    sound c .row o.m 64 (xltReads o ff c), soundRow0 c o.va 320]

def xltWord (o : MemArgs) (ff : Bool) (s : State) : Result :=
  memWord .row false false (xltLimits o ff) (xltBody o ff) (fun c => c.xltUses o) s

def execVxlt (o : MemArgs) (s : State) : Result := xltWord o false s
def execVxltff (o : MemArgs) (s : State) : Result := xltWord o true s

end Sys2Proof.Machine
end

