-- ==== Sys2Proof/Machine/Engines.lean ====
section
/-! DEFINITION. The copy engine and the collective port: descriptors, copies and their chunks, appends to a key-value
cache, transfers and reductions between packages (spec/04 R104, R105, R124, R125, spec/10 R283 to R297, spec/12 R339,
R340, spec/22 R414, R415, R419, spec/23 R424). -/

namespace Sys2Proof.Machine

/-! ## Byte ranges -/

/-- A range of bytes: in the scratchpad of the core, or at virtual addresses. -/
structure Span where
  sp : Bool
  va : Word
  len : Nat
  deriving DecidableEq, Repr

/-- A range cut at page boundaries: first byte and length of each piece. -/
def pageRuns : Nat → Nat → Nat → List (Nat × Nat)
  | 0, _, _ => []
  | k + 1, a, n =>
    if n = 0 then []
    else
      let m := min n (65536 - a % 65536)
      (a, m) :: pageRuns k (a + m) (n - m)

def Span.runs (r : Span) : List (Nat × Nat) :=
  if r.len = 0 then []
  else if r.sp then [(r.va.toNat, r.len)]
  else pageRuns (r.len / 65536 + 2) r.va.toNat r.len

/-- The lowest byte of a range that the watch range holds (R408). -/
def Core.watchedByte (c : Core) (a : Nat) : Word :=
  let lsz := max 3 (wfield c.t.twatch 60 55)
  BitVec.ofNat 64 (max a (wfield c.t.twatch 54 0 / 2 ^ lsz * 2 ^ lsz))

/-- One page of a range, translated and checked; the word keeps the translation (R390). -/
def checkRun (o : Owner) (k : Acc) (sp : Bool) (acc : Fails × State) (r : Nat × Nat) : Fails × State :=
  let va : Word := BitVec.ofNat 64 r.1
  if sp then acc
  else
    match probeFor acc.2 o va r.2 k false with
    | .ok (p, attr, s) => (acc.1, if o == .last then s else s.pin va k p attr)
    | .error f => (acc.1.note (acc.2.batchOf o) va k 0 0 f, acc.2)

/-- The accesses that ranges need, page by page. -/
def spanUses (l : List (Acc × Span)) : Uses :=
  l.flatMap fun x => if x.2.sp then [] else x.2.runs.map fun r => (BitVec.ofNat 64 r.1, r.2, x.1)

/-- The lowest byte of the ranges that a watchpoint matches (R408). -/
def Core.watchedIn (c : Core) (l : List (Acc × Span)) : Option Nat :=
  ((spanUses l).filterMap fun u =>
    if c.watched u.1.toNat u.2.1 u.2.2 then some (c.watchedByte u.1.toNat).toNat else none).min?

/-- Every page of the ranges of a word, translated and checked before its fault point. A byte that is watched is found
first (R408, log 17). -/
def checkSpans (o : Owner) (l : List (Acc × Span)) (s : State) : Except Stop State :=
  match s.core.watchedIn l with
  | some a => .error (.stop ⟨0x21, BitVec.ofNat 64 a, BitVec.ofNat 64 a, 0⟩)
  | none =>
    let r := l.foldl (fun acc x => x.2.runs.foldl (checkRun o x.1 x.2.sp) acc) (Fails.none, s)
    match r.1.stop s o with
    | some e => .error e
    | none => .ok r.2

/-- A later access of a word that has passed its fault point: the mode and the watch range were checked there, and the
translations found there serve; what may still arise is a change of ownership, or poison. An access for which none is kept
waits while it has no translation (log 17). -/
def enginePlace (s : State) (sp : Bool) (a n : Nat) (k : Acc) : Except Stop (Place × State) :=
  if sp then .ok (.spad a, s)
  else
    let va : Word := BitVec.ofNat 64 a
    match probe (s.withCore fun c => { c with hstat := setBit c.hstat 0 true }) va n k false with
    | .ok (p, _, s') => .ok (p, { s' with core := s.core })
    | .error (.owner sealed_) => .error (.stop ⟨if sealed_ then 0x0B else 0x0A, va, va, 0⟩)
    | .error _ => .error (.wait none)

/-- The first poisoned byte of a piece. -/
def State.poisonIn (s : State) (p : Place) (n : Nat) : Option Nat :=
  if !s.anyPoison then none else (List.range n).find? fun i => s.poisoned (p.plus i)

/-- The bytes of a range, the low address first. -/
def readSpan (r : Span) (s : State) : Except Stop (List Byte × State) :=
  r.runs.foldl (fun acc x =>
    match acc with
    | .error e => .error e
    | .ok (bs, s) =>
      match enginePlace s r.sp x.1 x.2 .read with
      | .error e => .error e
      | .ok (p, s) =>
        match s.poisonIn p x.2 with
        | some i => .error (.deferred ⟨0x19, BitVec.ofNat 64 (x.1 + i), BitVec.ofNat 64 (x.1 + i), 0⟩)
        | none => .ok (bs ++ s.bytesAt x.2 p, s)) (.ok ([], s))

/-- Bytes written to pieces of a range in turn. -/
def writeRuns (sp : Bool) : List (Nat × Nat) → List Byte → State → Except Stop State
  | [], _, s => .ok s
  | x :: xs, bs, s =>
    match enginePlace s sp x.1 x.2 .write with
    | .error e => .error e
    | .ok (p, s) => writeRuns sp xs (bs.drop x.2) (s.setBytes p (bs.take x.2))

/-- Bytes written to a range. -/
def writeSpan (r : Span) (bs : List Byte) (s : State) : Except Stop State := writeRuns r.sp r.runs bs s

/-- The machine at work on a queued word. -/
def State.withRun (s : State) (e : QEntry) : State := s.withCore fun c => { c with run := e }

/-- The pieces of a range of a queued word as they stand in memory; a page without a translation has none. -/
def State.pieces (s : State) (e : QEntry) (r : Span) (k : Acc) : List (Place × Nat) :=
  let s := s.withRun e
  r.runs.filterMap fun x =>
    match enginePlace s r.sp x.1 x.2 k with
    | .ok (p, _) => some (p, x.2)
    | .error _ => none

/-- Two pieces share a byte. -/
def pieceMeets (x y : Place × Nat) : Bool :=
  match x.1, y.1 with
  | .dram a, .dram b => decide (a < b + y.2 ∧ b < a + x.2)
  | .host a, .host b => decide (a < b + y.2 ∧ b < a + x.2)
  | .spad a, .spad b => decide (a < b + y.2 ∧ b < a + x.2)
  | _, _ => false

def piecesMeet (l m : List (Place × Nat)) : Bool := l.any fun x => m.any fun y => pieceMeets x y

/-! ## Moving bytes -/

/-- Pieces of a copy that no page boundary of either side cuts: source, destination, length. -/
def copyRuns (ssp dsp : Bool) : Nat → Nat → Nat → Nat → List (Nat × Nat × Nat)
  | 0, _, _, _ => []
  | k + 1, a, b, n =>
    if n = 0 then []
    else
      let left (sp : Bool) (x : Nat) : Nat := if sp then n else 65536 - x % 65536
      let m := min n (min (left ssp a) (left dsp b))
      (a, b, m) :: copyRuns ssp dsp k (a + m) (b + m) (n - m)

/-- How far a destination lies above its source in one memory. -/
def placeAhead : Place → Place → Option Nat
  | .dram a, .dram b => if a < b then some (b - a) else none
  | .host a, .host b => if a < b then some (b - a) else none
  | .spad a, .spad b => if a < b then some (b - a) else none
  | _, _ => none

/-- Bytes moved one at a time in ascending order: within reach of its own destination, a source repeats (R285). -/
def moveBytes (s : State) (p q : Place) (n : Nat) : State :=
  let old := s.bytesAt n p
  match placeAhead p q with
  | some d => if d < n then s.setBytes q ((List.range n).map fun i => old.getD (i % d) 0) else s.setBytes q old
  | none => s.setBytes q old

/-- Bytes moved together with their poison (R418, R420). -/
def carryBytes (s : State) (p q : Place) (n : Nat) : State :=
  if !s.anyPoison then moveBytes s p q n
  else
    let bad := (List.range n).filter fun i => s.poisoned (p.plus i)
    bad.foldl (fun s i => s.spoil (q.plus i)) (moveBytes s p q n).settlePoison

/-- A copy of bytes; `carry` marks the clone of a block, which takes the poison along (R420). -/
def moveSpan (carry ssp dsp : Bool) (src dst n : Nat) (s : State) : Except Stop State :=
  (copyRuns ssp dsp (2 * (n / 65536) + 4) src dst n).foldl (fun acc x =>
    match acc with
    | .error e => .error e
    | .ok s =>
      match enginePlace s ssp x.1 x.2.2 .read with
      | .error e => .error e
      | .ok (p, s) =>
        match enginePlace s dsp x.2.1 x.2.2 .write with
        | .error e => .error e
        | .ok (q, s) =>
          match (if carry then none else s.poisonIn p x.2.2) with
          | some i => .error (.deferred ⟨0x19, BitVec.ofNat 64 (x.1 + i), BitVec.ofNat 64 (x.1 + i), 0⟩)
          | none => .ok (carryBytes s p q x.2.2)) (.ok s)

/-! ## Stops of an engine word -/

/-- A violating access of an engine (R415): the engine is frozen with the words of its queue parked, and a type-3
record is written; the hart runs on. -/
def freezeEngine (q : Que) (rank : Nat) (i : StopInfo) (s : State) : State :=
  let e := ((s.core.findEntry rank).map Prod.snd).getD s.core.run
  let who := s.whoWord
  let (st, s) := s.stamp
  let r : Record := #v[BitVec.ofNat 64 (3 <<< 60 + q.code * 512 + i.cause.toNat), who, e.pc, e.prov, i.addr,
    s.core.lgsWord, e.prov, st]
  let s := s.withCore fun c =>
    if q = .cpy then { c with frozenCopy := true } else { c with frozenColl := true }
  s.withDev fun d => d.pushOrWait s.ctxId r

/-- A word of an engine that does not start. -/
def engineRefuse (q : Que) (s : State) (e : Stop) : Result :=
  match e with
  | .stop i =>
    if s.core.mode = .whole ∧ (i.cause = 0x0A ∨ i.cause = 0x0B) then .next (freezeEngine q s.core.run.rank i s)
    else refuseWord s e
  | e => refuseWord s e

/-- A started word of an engine that meets what only a deferred fault reports: it stays, parked at the chunk that fails
(R399), in its place among the words of its queue (R285, R292, R294). -/
def engineDefer (rank : Nat) (i : StopInfo) (s : State) : State :=
  takeTrap s ⟨.deferred rank, i.cause, i.tval, i.addr⟩

/-- What becomes of a started word that an access stops. -/
def engineFail (q : Que) (rank : Nat) (s : State) (e : Stop) : Result :=
  match e with
  | .stop i => .next (freezeEngine q rank i s)
  | .deferred i => .next (engineDefer rank i s)
  | .hold | .wait _ => .next s

/-- A word has done its work. -/
def Core.finish (c : Core) (e : QEntry) : Core := (c.dropEntry e.rank).wordDone e.prov

/-- The running word has passed its fault point, with the translations and the work that its checks have found. -/
def Core.passWord (c : Core) (j : Option Job) : Core :=
  c.updEntry c.run.rank fun e => { e with passed := true, pins := c.run.pins, aim := j }

/-- The running word has started: its fault point is passed. -/
def Core.startJob (c : Core) (j : Job) : Core := (c.passWord (some j)).updEntry c.run.rank fun e => { e with job := some j }

/-- How far a started word has come. -/
def Core.setJob (c : Core) (rank : Nat) (j : Job) : Core := c.updEntry rank fun e => { e with job := some j }

/-- Chunks of a transfer. -/
def Job.chunks (j : Job) : Nat := (j.len + j.chunk - 1) / j.chunk

/-- Every chunk's bit (R293). -/
def Core.setChunks (c : Core) (mask : Option (BitVec 5)) (n : Nat) : Core :=
  match mask with
  | none => c
  | some v => foldN n (fun p c => c.setMaskBit v p) c

/-! ## Descriptors (R283, R291) -/

/-- A mask register has a bit for every chunk (R284). -/
def needChunks (j : Job) : Except Stop Unit := need (j.mask.isNone || decide (j.chunks ≤ 262144)) 13 j.chunks

/-- A scratchpad range lies in the scratchpad. -/
def needScratch (sp : Bool) (a : Word) (n : Nat) : Except Stop Unit :=
  need (!sp || decide (a.toNat + n ≤ Config.spadBytes)) 13 (a.toNat + n - 1)

def needCopy (d : Word) (j : Job) : Except Stop Unit :=
  needAll [need (wfield d 63 48 == 0 && wfield d 42 40 == 0) 13 (wfield d 63 32), needChunks j,
    needScratch j.ssp j.src j.len, needScratch j.dsp j.dst j.len]

/-- The ranges of a `CPY`. -/
def copySpans (j : Job) : List (Acc × Span) := [(.read, ⟨j.ssp, j.src, j.len⟩), (.write, ⟨j.dsp, j.dst, j.len⟩)]

/-- The checks of a `CPY` up to its fault point. -/
def copyStart (o : EngArgs) (s : State) : Except Stop (Job × State) :=
  match engineDesc o.src 3 s with
  | .error e => .error e
  | .ok (l, s) =>
    let j := copyJob o.mreg l
    match needCopy (l.getD 2 0) j with
    | .error e => .error e
    | .ok _ =>
      match checkSpans (.word s.core.run.rank) (copySpans j) s with
      | .error e => .error e
      | .ok s => .ok (j, s)

/-- The work of an engine word: what it found when it passed its fault point, or what its checks find now. -/
def aimed (check : State → Except Stop (Job × State)) (s : State) : Except Stop (Job × State) :=
  match s.core.run.aim with
  | some j => .ok (j, s)
  | none => check s

/-- A `CPY` that starts, or in a trial passes its fault point (R390); without bytes to copy it is done at once. -/
def copyRun (o : EngArgs) (s : State) : Except Stop State :=
  match aimed (copyStart o) s with
  | .error e => .error e
  | .ok (j, s) =>
    .ok (s.withCore fun c =>
      if c.mode = .check then c.passWord (some j) else if j.len = 0 then c.finish c.run else c.startJob j)

/-- The outcome of an engine word's start. `uses` are the accesses that its checks make (R94). -/
def engineWord (q : Que) (f : State → Except Stop State) (uses : State → Uses) (s : State) : Result :=
  match f s with
  | .error e => engineRefuse q (s.touchAll (uses s)) e
  | .ok s => .next s

/-- The accesses that the checks of an engine word make: `n` doublewords of its descriptor, then the ranges, once the limits
are kept. -/
def engineUses (src : RecSrc) (n : Nat) (limits : List Word → Except Stop Unit) (spans : List Word → List (Acc × Span))
    (s : State) : Uses :=
  (match src with
   | .reg _ => []
   | .slot k => if (s.core.slot k).toNat % 8 = 0 then doubleUses (s.core.slot k) n else []) ++
    (match engineDesc src n s with
     | .ok (l, _) =>
       (match limits l with
        | .ok _ => spanUses (spans l)
        | .error _ => [])
     | .error _ => [])

/-- `CPY` (R284): the word starts; its chunks follow one by one. -/
def execCpy (o : EngArgs) (s : State) : Result :=
  engineWord .cpy (copyRun o)
    (engineUses o.src 3 (fun l => needCopy (l.getD 2 0) (copyJob o.mreg l)) fun l => copySpans (copyJob o.mreg l)) s

/-! ## Chunks of a copy (R284 to R286) -/

def Job.srcLeft (j : Job) : Span := ⟨j.ssp, j.src + BitVec.ofNat 64 j.done, j.len - j.done⟩
def Job.dstLeft (j : Job) : Span := ⟨j.dsp, j.dst + BitVec.ofNat 64 j.done, j.len - j.done⟩
/-- All of the destination. -/
def Job.dstAll (j : Job) : Span := ⟨j.dsp, j.dst, j.len⟩
/-- Bytes of the next chunk. -/
def Job.next (j : Job) : Nat := min j.chunk (j.len - j.done)

/-- An older copy has still to read or write bytes of these ranges of a copy. -/
def State.behind (s : State) (e x : QEntry) (src dst : Span) : Bool :=
  decide (x.rank < e.rank) &&
    (match x.job with
     | some i =>
       let r := s.pieces e src .read
       let w := s.pieces e dst .write
       piecesMeet (s.pieces x i.dstLeft .write) (r ++ w) || piecesMeet (s.pieces x i.srcLeft .read) w
     | none => false)

/-- The next chunk of a copy waits for an older copy, or for a store to the scratchpad that is not done (R285, R286). -/
def State.chunkWaits (s : State) (e : QEntry) (j : Job) : Bool :=
  let part (sp : Bool) (a : Word) : Span := ⟨sp, a + BitVec.ofNat 64 j.done, j.next⟩
  (s.core.cpy.any fun x => s.behind e x (part j.ssp j.src) (part j.dsp j.dst)) ||
    (j.ssp && s.core.vec.any fun x => decide (x.rank < e.rank) && opOf x.word == 0x52)

/-- Older copies, the youngest first, that may not begin anew: one whose destination meets bytes that a younger copy has
written for good, and then one whose destination meets that one's (R285, R425). -/
def State.markRun (s : State) (e : QEntry) : List (Place × Nat) → List QEntry → List QEntry
  | _, [] => []
  | mine, x :: xs =>
    match x.job with
    | some i =>
      let his := s.pieces x i.dstAll .write
      if x.rank < e.rank ∧ piecesMeet mine his then { x with joined := [1] } :: State.markRun s e (mine ++ his) xs
      else x :: State.markRun s e mine xs
    | none => x :: State.markRun s e mine xs

/-- A copy is done: the older ones whose destinations it has written into are marked, and those that these have written over
(Table 23-1). -/
def State.markOlder (s : State) (e : QEntry) (j : Job) : State :=
  s.withCore fun c => { c with cpy := (s.markRun e (s.pieces e j.dstAll .write) c.cpy.reverse).reverse }

/-- Work on a queued word, with the translations that it has found (R390). -/
def State.onWord (s : State) (e : QEntry) (f : State → Except Stop State) : Except Stop State :=
  match f (s.withRun e) with
  | .error x => .error x
  | .ok t => .ok (t.withRun s.core.run)

/-- The next chunk of a started copy of the focused core arrives. -/
def State.copyChunk (s : State) (e : QEntry) (j : Job) : Except Stop State :=
  s.onWord e fun s =>
    match moveSpan false j.ssp j.dsp (j.src.toNat + j.done) (j.dst.toNat + j.done) j.next s with
    | .error x => .error x
    | .ok s =>
      let p := j.done / j.chunk
      let j' := { j with done := j.done + j.next }
      let s := s.withCore fun c =>
        match j.mask with
        | some v => c.setMaskBit v p
        | none => c
      let s := if j'.len ≤ j'.done then (s.markOlder e j).withCore fun c => c.finish e
        else s.withCore fun c => c.setJob e.rank j'
      .ok s.settlePoison

/-- COPY_CHUNK_ARRIVAL: the next chunk of the copy at this place of a core's copy queue. -/
def execCopyChunkArrival (core idx : Nat) (s : State) : Result :=
  let f := s.focus core
  match f.core.cpy[idx]? with
  | none => .next s
  | some e =>
    match e.job with
    | none => .next s
    | some j =>
      if f.core.num ≠ core || !f.core.going || f.core.frozenCopy || e.parked || f.chunkWaits e j then .next s
      else
        match f.copyChunk e j with
        | .ok f' => .next (f'.focus s.core.num)
        | .error x =>
          match engineFail .cpy e.rank f x with
          | .next f' => .next (f'.focus s.core.num)
          | r => r

/-! ## `CPYC` (R288, R289) -/

/-- An address that a device-scope atomic needs aligned (log 19). -/
def needAtomic (a : Word) (n : Nat) : Except Stop Unit :=
  if a.toNat % n = 0 then .ok () else .error (.stop ⟨0x06, a, a, 0⟩)

/-- One device-scope atomic of the word. The scope checker does not see it (R438). -/
def engineAmo (a : Word) (n : Nat) (f : Nat → Nat) (s : State) : Except Stop (Nat × State) :=
  match needAtomic a n with
  | .error e => .error e
  | .ok _ => amoAt s (.word s.core.run.rank) a n 0 none fun x => some (f x)

/-- Bytes copied between two ranges, both checked before. -/
def engineMove (carry : Bool) (src dst : Word) (n : Nat) (s : State) : Except Stop State :=
  match checkSpans (.word s.core.run.rank) [(.read, ⟨false, src, n⟩), (.write, ⟨false, dst, n⟩)] s with
  | .error e => .error e
  | .ok s => moveSpan carry false false src.toNat dst.toNat n s

/-- The addresses of a pool record with FREE and ENTRY. -/
structure Append where
  pool : Pool
  ref : Word
  freeList : Word
  entry : Word
  pos : Nat
  deriving DecidableEq, Repr

def Append.block (a : Append) (b : Nat) : Word := a.pool.pbase + BitVec.ofNat 64 (b * 2 ^ (a.pool.lt + a.pool.le))
def Append.count (a : Append) (b : Nat) : Word := a.ref + BitVec.ofNat 64 (2 * b)
def Append.slotAt (a : Append) (b : Nat) : Word :=
  a.block b + BitVec.ofNat 64 (a.pos % 2 ^ a.pool.lt * 2 ^ a.pool.le)
def Append.tableAt (a : Append) : Word := a.pool.tbase + BitVec.ofNat 64 (8 * (a.pos >>> a.pool.lt))

/-- The bytes appended to a block. -/
def Append.put (a : Append) (b : Nat) (s : State) : Except Stop State :=
  engineMove false a.entry (a.slotAt b) (2 ^ a.pool.le) s

/-- The free list popped: a block, or none when it is empty. -/
def Append.pop (a : Append) (s : State) : Except Stop (Option Nat × State) :=
  let own := Owner.word s.core.run.rank
  match engineAmo a.freeList 8 (fun f => if f = 0 then 0 else f - 1) s with
  | .error e => .error e
  | .ok (f, s) =>
    if f = 0 then .ok (none, s)
    else
      match load s own (a.freeList + BitVec.ofNat 64 (8 + 4 * (f - 1))) 4 0 with
      | .error e => .error e
      | .ok (b, s) => .ok (some b, s)

/-- A fresh block takes the place of an entry: cloned from the shared one when there was one; bit 2 when that lost
its last referrer. -/
def Append.fresh (a : Append) (e b : Nat) (s : State) : Except Stop (List Nat × State) := do
  let own := Owner.word s.core.run.rank
  let old := e % 2 ^ 32
  let bv := e.testBit 63
  let s ← if bv then engineMove true (a.block old) (a.block b) (2 ^ (a.pool.lt + a.pool.le)) s else .ok s
  let (_, s) ← engineAmo (a.count b) 2 (fun _ => 1) s
  let (n, s) ← if bv then engineAmo (a.count old) 2 (fun n => (n + 65535) % 65536) s else .ok (0, s)
  let s ← a.put b s
  let s ← store s own a.tableAt 8 (2 ^ 63 + b) 0
  .ok (if bv && n == 1 then [2, 0] else [0], s)

/-- The append: the bits of the mask register that it sets, and the state. -/
def Append.run (a : Append) (s : State) : Except Stop (List Nat × State) := do
  let own := Owner.word s.core.run.rank
  if a.pool.nblk ≤ a.pos >>> a.pool.lt then .ok ([1], s)
  else
    let (e, s) ← load s own a.tableAt 8 0
    let old := e % 2 ^ 32
    let (n, s) ← if e.testBit 63 && e.testBit 62 then engineAmo (a.count old) 2 id s else .ok (0, s)
    if !e.testBit 63 || (e.testBit 62 && decide (1 < n)) then
      let (b, s) ← a.pop s
      match b with
      | none => .ok ([1], s)
      | some b => a.fresh e b s
    else
      let s ← if e.testBit 62 then store s own a.tableAt 8 (e - 2 ^ 62) 0 else .ok s
      let s ← a.put old s
      .ok ([0], s)

/-- The mask bits of an append: exactly one of bits 0 and 1 ends set (log 19). -/
def Core.setAppend (c : Core) (vd : BitVec 5) (bits : List Nat) : Core :=
  let c := bits.foldl (fun c p => c.setMaskBit vd p) c
  c.putBit vd 0 (if bits.contains 1 then 0 else 1) false

/-- The byte ranges of an append, in the order in which it comes to them, as far as it gets (Table 10-2). -/
def Append.spans (a : Append) (s : State) : List (Acc × Span) :=
  let get (at_ : Word) (n : Nat) : Option Nat :=
    match load s (.word s.core.run.rank) at_ n 0 with
    | .ok (x, _) => some x
    | .error _ => none
  let amo (at_ : Word) (n : Nat) : Acc × Span := (.atomic, ⟨false, at_, n⟩)
  let rd (at_ : Word) (n : Nat) : Acc × Span := (.read, ⟨false, at_, n⟩)
  let wr (at_ : Word) (n : Nat) : Acc × Span := (.write, ⟨false, at_, n⟩)
  let put (b : Nat) : List (Acc × Span) := [rd a.entry (2 ^ a.pool.le), wr (a.slotAt b) (2 ^ a.pool.le)]
  let size := 2 ^ (a.pool.lt + a.pool.le)
  if a.pool.nblk ≤ a.pos >>> a.pool.lt then []
  else
    rd a.tableAt 8 ::
      (match get a.tableAt 8 with
       | none => []
       | some e =>
         let old := e % 2 ^ 32
         let bv := e.testBit 63
         let counted := bv && e.testBit 62
         let first := if counted then [amo (a.count old) 2] else []
         if !bv || (counted && decide (1 < (get (a.count old) 2).getD 0)) then
           first ++ amo a.freeList 8 ::
             (match get a.freeList 8 with
              | none | some 0 => []
              | some (f + 1) =>
                let top := a.freeList + BitVec.ofNat 64 (8 + 4 * f)
                rd top 4 ::
                  (match get top 4 with
                   | none => []
                   | some b =>
                     (if bv then [rd (a.block old) size, wr (a.block b) size] else []) ++ amo (a.count b) 2 ::
                       ((if bv then [amo (a.count old) 2] else []) ++ put b ++ [wr a.tableAt 8])))
         else first ++ (if e.testBit 62 then [wr a.tableAt 8] else []) ++ put old)

/-- Accesses made one after another, up to the first that fails. -/
def untilFails (s : State) : Uses → Uses
  | [] => []
  | u :: us =>
    if u.2.2 == .atomic && u.1.toNat % u.2.1 != 0 then []
    else
      u :: (match probeFor s (.word s.core.run.rank) u.1 u.2.1 u.2.2 false with
        | .ok _ => untilFails s us
        | .error _ => [])

/-- The pool record of an append. -/
def appendOf (va : BitVec 5) (slot : BitVec 4) (c : Core) : Append :=
  ⟨c.poolAt va, c.i64 va 3, c.i64 va 5, c.i64 va 6, (c.slot slot).toNat⟩

/-- The machine without a watchpoint. -/
def State.unwatched (s : State) : State := s.withCore fun c => { c with t := { c.t with tdbg := 0 } }

/-- `CPYC`: its whole effect in one step, once the older copies are done (R285); only then is its fault point passed. A watched
byte of its ranges is found first (R408). -/
def appendRun (vd va : BitVec 5) (slot : BitVec 4) (s : State) : Except Stop State :=
  let c := s.core
  let a := appendOf va slot c
  match needAll [need a.pool.ok 13 0, soundRow0 c va 448] with
  | .error e => .error e
  | .ok _ =>
    if c.mode = .check || c.cpy.any fun e => decide (e.rank < c.run.rank) then .error (.wait none)
    else
      match c.watchedIn (a.spans s.unwatched) with
      | some w => .error (.stop ⟨0x21, BitVec.ofNat 64 w, BitVec.ofNat 64 w, 0⟩)
      | none =>
        match a.run s with
        | .error e => .error e
        | .ok (bits, s) => .ok (s.withCore fun c => (c.setAppend vd bits).finish c.run).settlePoison

/-- The accesses that an append has made when it stops. -/
def appendUses (va : BitVec 5) (slot : BitVec 4) (s : State) : Uses :=
  let c := s.core
  let a := appendOf va slot c
  if a.pool.ok && c.mode != .check && c.cpy.all fun e => decide (c.run.rank ≤ e.rank) then untilFails s (spanUses (a.spans s)) else []

def execCpyc (vd va : BitVec 5) (slot : BitVec 4) (s : State) : Result :=
  engineWord .cpy (appendRun vd va slot) (appendUses va slot) s

/-! ## `CPYWAIT` and `CWAIT` (R290, R297) -/

/-- The word completes when every older word of its queue has, and with `vec` when the older vector-queue words have
retired. -/
def waitRun (q : Que) (vec : Bool) (mreg : Option (BitVec 5)) (p : BitVec 18) (s : State) : Except Stop State :=
  let c := s.core
  let older (l : List QEntry) : Bool := l.any fun e => decide (e.rank < c.run.rank)
  if c.mode = .check then .ok (s.withCore fun c => c.passWord none)
  else if older (c.queue q) || (vec && older c.vec) then .error .hold
  else
    .ok (s.withCore fun c =>
      (match mreg with
       | some v => c.setMaskBit v p.toNat
       | none => c).finish c.run)

def execCpywait (mreg : Option (BitVec 5)) (p : BitVec 18) (s : State) : Result :=
  engineWord .cpy (waitRun .cpy false mreg p) (fun _ => []) s
def execCpywaitv (mreg : Option (BitVec 5)) (p : BitVec 18) (s : State) : Result :=
  engineWord .cpy (waitRun .cpy true mreg p) (fun _ => []) s
def execCwait (mreg : Option (BitVec 5)) (p : BitVec 18) (s : State) : Result :=
  engineWord .col (waitRun .col false mreg p) (fun _ => []) s
def execCwaitv (mreg : Option (BitVec 5)) (p : BitVec 18) (s : State) : Result :=
  engineWord .col (waitRun .col true mreg p) (fun _ => []) s

/-! ## Collective descriptors (Table 10-2) -/

/-- The chips of a group that the focused hart has joined (R339). -/
def State.members (s : State) (grp : Nat) : Option (List Nat) :=
  match s.gang with
  | none => none
  | some g =>
    if g.desc.coll.any fun x => x.1 == grp && x.2 == s.core.hart then
      (s.dev.ctx g.ctx).bind fun c => (c.groups.find? fun x => x.1 == grp).map Prod.snd
    else none

/-- The rank of this package among a group's chips (R291). -/
def State.rankIn (s : State) (chips : List Nat) : Nat := chips.findIdx fun x => x == s.dev.chip.toNat

def collJob (mask : Option (BitVec 5)) (op : BitVec 4) (et : EType) (l : List Word) : Job :=
  let d := l.getD 2 0
  let e := l.getD 3 0
  { src := l.getD 0 0, dst := l.getD 1 0, len := wfield d 39 0, chunk := 2 ^ (wfield d 42 40 + 8), ssp := false,
    dsp := false, done := 0, mask := mask, tag := BitVec.ofNat 16 (wfield e 63 48), grp := wfield e 47 40,
    peer := wfield e 37 32, op := op, et := et }

/-- `credrs` and `credheap` are one chunk (R293). -/
def Job.oneChunk (j : Job) : Bool := j.op == 3 || j.op == 4

/-- LEN of a `CRED` is a whole number of elements (R295). -/
def credLenOk (op : BitVec 4) (et : EType) (n : Nat) : Bool :=
  match op.toNat with
  | 3 => decide (8 ≤ n) && n % 4 == 0
  | 4 => n != 0 && n % 8 == 0
  | _ => n % (et.width / 8) == 0

/-- What a collective word is: a send to one rank, to all others, a receipt, a reduction. -/
inductive CollKind where
  | send
  | sendAll
  | recv
  | reduce
  deriving DecidableEq, Repr

/-- Limits of a collective word: the record's zeros, its chunks, a group that the hart has joined, a rank of it. -/
def needColl (k : CollKind) (l : List Word) (j : Job) (chips : Option (List Nat)) : Except Stop Unit :=
  let n := (chips.map List.length).getD 0
  needAll [
    need (wfield (l.getD 2 0) 63 43 == 0 && wfield (l.getD 3 0) 39 38 == 0 && wfield (l.getD 3 0) 31 0 == 0) 13 0,
    need (k == .reduce || j.dst == 0) 13 0, need (k != .sendAll || j.peer == 0) 13 j.peer,
    (if j.oneChunk then .ok () else needChunks j), need (k != .reduce || credLenOk j.op j.et j.len) 13 j.len,
    need chips.isSome 14 j.grp, need ((k != .send && k != .recv) || decide (j.peer < n)) 14 j.peer]

/-- The ranges of a collective word: BUF read or written, and the DST of a reduction. -/
def collSpans (k : CollKind) (j : Job) : List (Acc × Span) :=
  match k with
  | .send | .sendAll => [(.read, ⟨false, j.src, j.len⟩)]
  | .recv => [(.write, ⟨false, j.src, j.len⟩)]
  | .reduce => [(.read, ⟨false, j.src, j.len⟩), (.write, ⟨false, j.dst, j.len⟩)]

def collStart (o : EngArgs) (k : CollKind) (op : BitVec 4) (et : EType) (s : State) : Except Stop (Job × State) :=
  match engineDesc o.src 4 s with
  | .error e => .error e
  | .ok (l, s) =>
    let j := collJob o.mreg op et l
    let chips := s.members j.grp
    match needColl k l j chips with
    | .error e => .error e
    | .ok _ =>
      match checkSpans (.word s.core.run.rank) (collSpans k j) s with
      | .error e => .error e
      | .ok s => .ok (j, s)

/-- The bits of a finished collective word (R293). -/
def Core.collDone (c : Core) (e : QEntry) (j : Job) : Core :=
  (c.setChunks j.mask (if j.oneChunk then 1 else j.chunks)).finish e

/-! ## Reductions (R294 to R296) -/

def chunkBytes (n : Nat) : Nat → List Byte → List (List Byte)
  | 0, _ => []
  | k + 1, l => if l.isEmpty then [] else l.take n :: chunkBytes n k (l.drop n)

/-- Bytes as numbers of `n` bytes. -/
def numsOf (n : Nat) (l : List Byte) : List Nat := (chunkBytes n l.length l).map ofBytes

/-- A buffer as a heap (R296). -/
def heapOf (l : List Byte) : List HeapEntry :=
  (numsOf 8 l).map fun x => ⟨BitVec.ofNat 32 (x / 2 ^ 32), BitVec.ofNat 32 x⟩
def heapBytes (l : List HeapEntry) : List Byte :=
  l.flatMap fun e => bytesOf 8 (e.val.toNat * 2 ^ 32 + e.id.toNat)

/-- The combination of two contributions (Table 10-3). -/
def credCombine (op : BitVec 4) (et : EType) (a b : List Byte) : List Byte :=
  let each (f : Nat → Nat → Nat) : List Byte :=
    (List.zipWith f (numsOf (et.width / 8) a) (numsOf (et.width / 8) b)).flatMap (bytesOf (et.width / 8))
  match op.toNat with
  | 0 => each (typeAdd et .rne)
  | 1 => each (typeMax et)
  | 2 => each (typeMin et)
  | 3 =>
    let x := numsOf 4 a
    let y := numsOf 4 b
    let r := rescale (x.getD 0 0, x.getD 1 0, x.drop 2) (y.getD 0 0, y.getD 1 0, y.drop 2)
    (r.1 :: r.2.1 :: r.2.2).flatMap (bytesOf 4)
  | _ => heapBytes (topK (a.length / 8) (heapOf a ++ heapOf b))

/-- What is written: every `f32` NaN canonical; a heap without NaN entries (R294). -/
def credFinal (op : BitVec 4) (et : EType) (a : List Byte) : List Byte :=
  if op = 4 then heapBytes (topK (a.length / 8) (heapOf a))
  else if et = .f32 then (numsOf 4 a).flatMap fun x => bytesOf 4 (fcanon .f32 x)
  else a

/-- The tree over the ranks (R77, R294). -/
def credTree (op : BitVec 4) (et : EType) (parts : List (List Byte)) : List Byte :=
  credFinal op et ((tree (credCombine op et) 7 (parts.map some)).getD [])

/-- The result reaches DST, and the word is done. -/
def credWrite (e : QEntry) (j : Job) (parts : List (List Byte)) (s : State) : Except Stop State :=
  match writeSpan ⟨false, j.dst, j.len⟩ (credTree j.op j.et parts) s with
  | .error x => .error x
  | .ok s => .ok (s.withCore fun c => c.collDone e j).settlePoison

/-- et that an operator accepts (Table 10-3). -/
def credType (op : BitVec 4) (et : EType) : Bool :=
  et == .f32 || (decide (op.toNat < 3) && (et == .i32 || et == .i64 || et == .n32 || et == .n64))

/-- A `CRED` joins, or in a trial passes its fault point; a group of one member copies. -/
def credRun (op : BitVec 4) (o : EngArgs) (et : EType) (s : State) : Except Stop State :=
  match need (credType op et) 1 et.code.toNat with
  | .error e => .error e
  | .ok _ =>
    match aimed (collStart o .reduce op et) s with
    | .error e => .error e
    | .ok (j, s) =>
      if s.core.mode = .check then .ok (s.withCore fun c => c.passWord (some j))
      else if ((s.members j.grp).map List.length).getD 0 = 1 then
        match readSpan ⟨false, j.src, j.len⟩ s with
        | .error e => .error e
        | .ok (bs, s) => credWrite s.core.run j [bs] s
      else .ok (s.withCore fun c => c.startJob j)

/-- The accesses that the checks of a collective word make. -/
def collUses (o : EngArgs) (k : CollKind) (op : BitVec 4) (et : EType) (s : State) : Uses :=
  let job (l : List Word) : Job := collJob o.mreg op et l
  engineUses o.src 4 (fun l => needColl k l (job l) (s.members (job l).grp)) (fun l => collSpans k (job l)) s

def credWord (op : BitVec 4) (o : EngArgs) (et : EType) (s : State) : Result :=
  engineWord .col (credRun op o et) (fun s => if credType op et then collUses o .reduce op et s else []) s

def execCredsum (o : EngArgs) (et : EType) (s : State) : Result := credWord 0 o et s
def execCredmax (o : EngArgs) (et : EType) (s : State) : Result := credWord 1 o et s
def execCredmin (o : EngArgs) (et : EType) (s : State) : Result := credWord 2 o et s
def execCredrs (o : EngArgs) (et : EType) (s : State) : Result := credWord 3 o et s
def execCredheap (o : EngArgs) (et : EType) (s : State) : Result := credWord 4 o et s

/-! ## Transfers (R292, R293) -/

/-- A transfer word starts, and waits for its peer, or in a trial passes its fault point; a multicast in a group of one has
nobody to send to. -/
def transferRun (k : CollKind) (o : EngArgs) (s : State) : Except Stop State :=
  match aimed (collStart o k 0 .i8) s with
  | .error e => .error e
  | .ok (j, s) =>
    .ok (s.withCore fun c =>
      if c.mode = .check then c.passWord (some j)
      else if k = .sendAll ∧ ((s.members j.grp).map List.length).getD 0 = 1 then c.collDone c.run j
      else c.startJob j)

def collWord (k : CollKind) (o : EngArgs) (s : State) : Result :=
  engineWord .col (transferRun k o) (collUses o k 0 .i8) s

def execCsend (o : EngArgs) (s : State) : Result := collWord .send o s
def execCsendm (o : EngArgs) (s : State) : Result := collWord .sendAll o s
def execCrecv (o : EngArgs) (s : State) : Result := collWord .recv o s

/-- `csendm` has fn[2] = 1. -/
def isSendAll (w : BitVec 64) : Bool := opOf w == 0x78 && w.getLsbD 52

/-- The oldest started word of the collective queue that a message matches; a parked one keeps its place, and is not
matched (R292). -/
def Core.matching (c : Core) (m : CollMsg) : Option (QEntry × Job) :=
  (c.col.filterMap fun e => e.job.map fun j => (e, j)).find? fun x =>
    opOf x.1.word == (if m.send then 0x78 else 0x79) && x.2.grp == m.grp && x.2.tag == m.tag &&
      (if isSendAll x.1.word then !x.1.joined.contains m.peer else x.2.peer == m.peer)

/-- The data of a send leave for a receiver. -/
def sendTo (e : QEntry) (j : Job) (m : CollMsg) (s : State) : Except Stop State :=
  match readSpan ⟨false, j.src, j.len⟩ s with
  | .error x => .error x
  | .ok (bs, s) =>
    let s := s.withDev fun d => { d with posted := d.posted ++ [.sent m.core m.peer bs] }
    let n := ((s.members j.grp).map List.length).getD 1
    let joined := m.peer :: e.joined
    .ok (s.withCore fun c =>
      if isSendAll e.word && decide (joined.length + 1 < n) then c.updEntry e.rank fun e => { e with joined := joined }
      else c.collDone e j)

/-- The data of a receipt arrive. -/
def receive (e : QEntry) (j : Job) (m : CollMsg) (s : State) : Except Stop State :=
  match writeSpan ⟨false, j.src, j.len⟩ m.data s with
  | .error x => .error x
  | .ok s => .ok (s.withCore fun c => c.collDone e j).settlePoison

/-- A message meets its word: lengths must agree (R378), and delivery may have failed (cause 0x1A). -/
def State.meet (s : State) (e : QEntry) (j : Job) (m : CollMsg) : Except Stop State :=
  if m.len ≠ j.len || (!m.send && m.data.length != m.len) then
    .error (.deferred ⟨0x05, BitVec.ofNat 64 (14 + (j.len % 2 ^ 32) <<< 32), 0, 0⟩)
  else if m.failed then .error (.deferred ⟨0x1A, 0, 0, 0⟩)
  else if m.send then sendTo e j m s
  else receive e j m s

/-- COLLECTIVE_MATCH: a message and the word that it matches. -/
def execCollectiveMatch (m : CollMsg) (s : State) : Result :=
  let f := s.focus m.core
  match f.core.matching m with
  | none => .next s
  | some (e, j) =>
    if f.core.num ≠ m.core || !f.core.going || f.core.frozenColl || e.parked then .next s
    else
      match f.onWord e (fun s => s.meet e j m) with
      | .ok f' => .next (f'.focus s.core.num)
      | .error x =>
        match engineFail .col e.rank f x with
        | .next f' => .next (f'.focus s.core.num)
        | r => r

/-- The oldest started `CRED` of the focused core under a group and tag; a parked one keeps its place (R294). -/
def Core.credAt (c : Core) (grp : Nat) (tag : BitVec 16) : Option (QEntry × Job) :=
  (c.col.filterMap fun e => e.job.map fun j => (e, j)).find? fun x =>
    opOf x.1.word == 0x7A && x.2.grp == grp && x.2.tag == tag

/-- Every member has joined: contributions in the order of the ranks, this member's own among them; `none` while one
is missing. -/
def credParts (n own : Nat) (mine : List Byte) (parts : List CredPart) : Option (List (List Byte)) :=
  (List.range n).mapM fun r => if r = own then some mine else (parts.find? fun p => p.rank == r).map CredPart.data

/-- The members agree on fn, et and LEN (R294, R378). -/
def credAgree (j : Job) (parts : List CredPart) : Bool :=
  parts.all fun p => p.op == j.op && p.et == j.et && p.data.length == j.len

/-- The reduction of a joined word, once every member has joined; members that disagree are refused before a byte moves
(R378). -/
def State.reduce (s : State) (e : QEntry) (j : Job) (chips : List Nat) (parts : List CredPart) : Except Stop State :=
  if (credParts chips.length (s.rankIn chips) [] parts).isNone then .error .hold
  else if !credAgree j parts then .error (.deferred ⟨0x05, BitVec.ofNat 64 (14 + (j.len % 2 ^ 32) <<< 32), 0, 0⟩)
  else
    match readSpan ⟨false, j.src, j.len⟩ s with
    | .error x => .error x
    | .ok (bs, s) =>
      match credParts chips.length (s.rankIn chips) bs parts with
      | none => .error .hold
      | some l => credWrite e j l s

/-- CRED_JOIN: every member of the group has joined. -/
def execCredJoin (ctx grp : Nat) (tag : BitVec 16) (parts : List CredPart) (s : State) : Result :=
  match s.cores.find? fun c =>
      c.going && (c.credAt grp tag).isSome && !c.frozenColl && ((s.focus c.num).ctxId == ctx) with
  | none => .next s
  | some c =>
    let f := s.focus c.num
    match f.core.credAt grp tag, f.members grp with
    | some (e, j), some chips =>
      if e.parked then .next s
      else
        match f.onWord e (fun s => s.reduce e j chips parts) with
        | .ok f' => .next (f'.focus s.core.num)
        | .error x =>
          match engineFail .col e.rank f x with
          | .next f' => .next (f'.focus s.core.num)
          | r => r
    | _, _ => .next s

/-! ## The engines at a stop (R424, Table 23-1) -/

/-- Chunks of a started copy until it is done or cannot go on, and what stops it. -/
def State.runCopy : Nat → Nat → State → State × Option Stop
  | 0, _, s => (s, none)
  | k + 1, rank, s =>
    match s.core.cpy.find? fun e => e.rank == rank with
    | none => (s, none)
    | some e =>
      match e.job with
      | none => (s, none)
      | some j =>
        if s.chunkWaits e j then (s, none)
        else
          match s.copyChunk e j with
          | .ok s' => State.runCopy k rank s'
          | .error x => (s, some x)

def State.finishCopy (s : State) (e : QEntry) : State × Option Stop :=
  match e.job with
  | some j => s.runCopy (j.chunks + 1) e.rank
  | none => (s, none)

/-- Whether a started copy completes at a stop: into the scratchpad, or because a younger copy has written, or is
writing, within its destination. -/
def State.mustComplete (s : State) (e : QEntry) (j : Job) : Bool :=
  j.dsp || !e.joined.isEmpty ||
    s.core.cpy.any fun x =>
      decide (e.rank < x.rank) &&
        (match x.job with
         | some i => piecesMeet (s.pieces x i.dstAll .write) (s.pieces e j.dstAll .write)
         | none => false)

/-- The started copies that complete at a stop, oldest first: those that must, and older ones that they wait for. The copies
are taken youngest first. -/
def State.toComplete (s : State) : List QEntry → List QEntry → List QEntry
  | acc, [] => acc
  | acc, e :: es =>
    match e.job with
    | some j =>
      let awaited := acc.any fun y =>
        match y.job with
        | some i => s.behind y e i.srcLeft i.dstLeft
        | none => false
      if s.mustComplete e j || awaited then State.toComplete s (e :: acc) es else State.toComplete s acc es
    | none => State.toComplete s acc es

/-- The streams where the words before a word of the vector queue leave them (R248). -/
def Core.streamsBefore (c : Core) (v : QEntry) : Core :=
  (c.vec.filter fun x => decide (x.rank < v.rank)).foldl (fun c x =>
    match decodeV x.word with
    | .ok i => ((memArgsOf i).map fun o => c.advanceBy o (x.rc.toNat * x.vl.toNat)).getD c
    | .error _ => c) c

/-- Scratchpad bytes that a parked `VLDP` has still to read, whatever its mask will be. -/
def State.stillToRead (s : State) (v : QEntry) : List (Place × Nat) :=
  match decodeV v.word with
  | .ok (.vldp o) =>
    let head := s.core.headConvoy.any fun x => x.rank == v.rank
    let c := { s.core.streamsBefore v with run := v, hi := .replicate 4 512, cntLive := s.core.cntLive && head }
    (c.targets { o with m := false } false (c.shapeOf o) (c.memRun .step o.et.width)).map fun el =>
      (.spad el.addr.toNat, elemBytes o.et)
  | _ => []

/-- An unstarted copy into scratchpad bytes that a younger parked `VLDP` has still to read. -/
def State.feeds (s : State) (e : QEntry) : Bool :=
  match decodeV e.word with
  | .ok (.cpy o) =>
    e.job.isNone &&
      (match copyStart o { s with core := { s.core with run := e } } with
       | .ok (j, _) =>
         j.dsp && s.core.vec.any fun v =>
           decide (e.rank < v.rank) && piecesMeet (s.stillToRead v) [(.spad j.dst.toNat, j.len)]
       | .error _ => false)
  | _ => false

/-- An older word of the copy queue that has not completed keeps a copy from going ahead of it: it may move the same bytes,
or no younger word may start before it is done (R285, R290). -/
def State.blocks (s : State) (e : QEntry) (j : Job) (x : QEntry) : Bool :=
  decide (x.rank < e.rank) &&
    (match decodeV x.word with
     | .ok (.cpy o) =>
       (match copyStart o (s.withRun x) with
        | .ok (i, _) => s.behind e { x with job := some i } ⟨j.ssp, j.src, j.len⟩ j.dstAll
        | .error _ => true)
     | _ => true)

/-- An unstarted copy that feeds a parked `VLDP` starts and completes, if it can (Table 23-1). -/
def State.feedCopy (s : State) (e : QEntry) : State :=
  match decodeV e.word with
  | .ok (.cpy o) =>
    match copyStart o (s.withRun e) with
    | .error _ => s
    | .ok (j, t) =>
      if !s.feeds e || !((s.core.vec ++ s.core.mat ++ s.core.col).all fun x => decide (e.rank < x.rank)) ||
          s.core.cpy.any (s.blocks e j) then s
      else
        let t := (t.withCore fun c => c.startJob j).withRun s.core.run
        let u := (t.finishCopy { e with job := some j }).1
        if u.core.cpy.any fun x => x.rank == e.rank then s else u
  | _ => s

/-- The copies that must complete, until one meets what only a report can end: its rank and what stops it. -/
def State.finishAll : List QEntry → State → State × Option (Nat × Stop)
  | [], s => (s, none)
  | e :: es, s =>
    match s.finishCopy e with
    | (s, none) => State.finishAll es s
    | (s, some .hold) => State.finishAll es s
    | (s, some (.wait _)) => State.finishAll es s
    | (s, some x) => (s, some (e.rank, x))

/-- The copies of the focused core that Table 23-1 lets no stop interrupt. -/
def State.finishCopies (s : State) : State × Option (Nat × Stop) :=
  if s.core.frozenCopy then (s, none) else State.finishAll (s.toComplete [] s.core.cpy.reverse) s

/-- The copies of the focused core finish or give up: a copy that does neither stops at the end of its chunk, parked as
unstarted (R424, R425). -/
def State.settleCopies (s : State) : State :=
  if s.core.frozenCopy then s
  else
    let s := s.finishCopies.1
    let s := s.withCore fun c => { c with cpy := c.cpy.map QEntry.unstart }
    s.core.cpy.foldl State.feedCopy s

/-- Every unit of the focused hart finishes or gives up its work (Table 23-1): unmatched transfers hold nothing, a
`CRED` is withdrawn, an open region is abandoned, waiting words keep no batch. -/
def State.settleEngines (s : State) : State :=
  let run := s.core.run
  let s := s.settleCopies
  let park := QEntry.unstart
  s.withCore fun c =>
    let c := { c.abandon with run := run, batches := c.batches.filter fun b => b.owner == Owner.last }
    { c with vec := c.vec.map park, mat := c.mat.map park, cpy := c.cpy.map park, col := c.col.map park }

/-- A forced stop of the focused hart (R38, R424): every unit settles, and the stop with cause 0x16 is taken. A copy that must
complete and cannot is reported as any that fails; the stop then comes when it is asked for again (log 40). -/
def State.stopByForce (s : State) : State :=
  match s.finishCopies with
  | (t, some (rank, .deferred i)) => engineDefer rank i t
  | (t, some (rank, .stop i)) => freezeEngine .cpy rank i t
  | (t, _) => takeTrap t.settleEngines ⟨.stop nullProv, 0x16, 0, 0⟩

end Sys2Proof.Machine
end

