-- ==== Sys2Proof/Machine/Marks.lean ====
section
/-! DEFINITION. Remap tables, fences and markers of the vector queue, and the audit log (spec/10 R299 to R303, spec/14
R360, spec/25 R454). -/

namespace Sys2Proof.Machine

/-! ## Remap configurations (R299) -/

/-- The 4,096 entries in rows 1 to 8 of a register: 512 a row. -/
def Core.tableAt (c : Core) (va : BitVec 5) : BitVec 131072 :=
  foldN 8 (fun i t => rowSet t (16384 * i) 16384 ((c.vreg va).row (i + 1)).toNat) 0

def execVsett (_c : Bool) (va : BitVec 5) (ix : BitVec 2) (s : State) : Result :=
  plainWord false
    (fun c =>
      let x : Remap := ⟨c.i64 va 0, 0⟩
      needAll [need x.ok 16 0, soundRow0 c va 64,
        (if x.mode = 2 then soundRows c 9 16384 [regSet va] else .ok ())])
    (fun c =>
      let cfg := c.i64 va 0
      let old := c.ix[ix.toNat]
      { c with ix := c.ix.set ix.toNat ⟨cfg, if wfield cfg 1 0 = 2 then c.tableAt va else old.table⟩ }) s

def execVgett (_c : Bool) (vd : BitVec 5) (ix : BitVec 2) (s : State) : Result :=
  plainWord false (fun _ => .ok ())
    (fun c =>
      let x := c.ix[ix.toNat]
      let c := c.putElem vd 64 0 0 x.cfg.toNat
      if x.mode = 2 then
        c.setV vd (foldN 8 (fun i v => v.setRow (i + 1) (BitVec.ofNat 16384 (rowGet x.table (16384 * i) 16384)))
          (c.vreg vd))
      else c) s

/-! ## Fences (R300) and markers (R301) -/

/-- A fence of the vector queue: earlier words of the queue have retired when it runs; an acquire discards kept
copies. -/
def vfence (acquires : Bool) (sc : Scope) (s : State) : Result :=
  vecWord .whole false (fun _ => .ok ())
    (fun s => .ok (if acquires && s.core.wholeRuns then s.discardFetched sc else s)) s

def execVfenceAcq (_c : Bool) (sc : Scope) (s : State) : Result := vfence true sc s
def execVfenceRel (_c : Bool) (sc : Scope) (s : State) : Result := vfence false sc s
def execVfenceFull (_c : Bool) (sc : Scope) (s : State) : Result := vfence true sc s

/-- `VMARK` (R301): a marker in the hart's trace. -/
def execVmark (_c : Bool) (src : MarkSrc) (s : State) : Result :=
  vecWord .whole false (fun _ => .ok ())
    (fun s =>
      let v : Word := match src with
        | .slot n => s.core.slot n
        | .imm i => zextImm i
      .ok (if s.core.wholeRuns then s.trace 1 1 s.core.run.pc s.core.run.prov v 0 else s)) s

/-! ## The audit log (R302, R303, R454) -/

/-- The message M (Table 10-8). -/
def auditMessage (c : Core) (o : AudArgs) : List Byte :=
  let els := (List.range c.rows).flatMap fun r => (c.actives o.m r).map fun e => (r, e)
  bytesOf 8 (c.slot o.slot).toNat ++ bytesOf 8 c.run.prov.toNat ++ bytesOf 2 c.vlen ++ bytesOf 1 c.rows ++
    bytesOf 1 o.et.code.toNat ++ bytesOf 4 els.length ++
    els.flatMap fun p => bytesOf 4 (p.1 * c.vlen + p.2) ++ bytesOf 8 (c.elem o.va 64 p.1 p.2) ++
      bytesOf 8 (c.elem o.vb o.et.width p.1 p.2)

/-- Bytes 48 to 55 of an audit record (Table 10-9). -/
def auditWho (c : Core) (n : Nat) : Word :=
  BitVec.ofNat 64 (n <<< 40 + wfield c.hid 29 24 <<< 32 + wfield c.hid 23 16 <<< 24 + wfield c.hid 7 0 <<< 16 +
    wfield c.gid 15 0)

/-- A record appended to the block being filled. -/
def Device.auditPush (d : Device) (id : Nat) (r : List Byte) : Device :=
  match d.ctx id with
  | none => d
  | some c =>
    (d.putBytes (c.audBlock (d.audProd c) + 64 * c.auditRecs) r).updCtx id
      fun c => { c with auditRecs := c.auditRecs + 1 }

/-- The context's audit log has room. -/
def State.auditRoom (s : State) : Bool :=
  match s.dev.ctx s.ctxId with
  | some c => s.dev.audRoom c
  | none => false

def execAudlog (o : AudArgs) (s : State) : Result :=
  vecWord .whole false
    (fun c => needAll [needEt anyType o.et, needVl c (min 256 (rowMax o.et)), 
      sound c .whole o.m 64 fun r e => [(o.va, r, e * 64), (o.vb, r, e * o.et.width)]])
    (fun s =>
      if !s.core.wholeRuns then .ok s
      else if !s.auditRoom then .error .hold
      else
        let c := s.core
        let m := auditMessage c o
        let n := ((List.range c.rows).map fun r => (c.actives o.m r).length).sum
        -- the sequence number counts trap and trace records only (R349)
        let st : Word := Config.stampCycles s.free ++ s.core.stampSeq
        let s := { s with free := s.free + 1 }
        let r := sha3 m ++ wordBytes (c.slot o.slot) ++ wordBytes c.run.prov ++ wordBytes (auditWho c n) ++ wordBytes st
        .ok (s.withDev fun d => d.auditPush s.ctxId r)) s

end Sys2Proof.Machine
end

