-- ==== Sys2Proof/Machine/QueueImage.lean ====
section
/-! DEFINITION. The queue image and the completion mask in memory: `VQSAVE`, `VQLOAD`, `VCMST`, `VCMLD` (spec/07 R207
to R211, R455, spec/23 R424, R426). -/

namespace Sys2Proof.Machine

/-! ## Byte ranges of the Last -/

/-- Bytes read by the Last, every page checked first. -/
def loadBytes (va : Word) (n : Nat) (s : State) : Except Stop (List Byte × State) :=
  match checkSpans .last [(.read, ⟨false, va, n⟩)] s with
  | .error e => .error e
  | .ok s => readSpan ⟨false, va, n⟩ s

/-- Bytes written by the Last, every page checked first. -/
def storeBytes (va : Word) (bs : List Byte) (s : State) : Except Stop State :=
  match checkSpans .last [(.write, ⟨false, va, bs.length⟩)] s with
  | .error e => .error e
  | .ok s => (writeSpan ⟨false, va, bs.length⟩ bs s).map State.settlePoison

/-- What the Last does when such a range stops it; the A and D bits that the range's translations set stand (R94). -/
def spanStop (k : Acc) (va : Word) (n : Nat) (s : State) (e : Stop) : Result :=
  lastStop (s.touchAll (spanUses [(k, ⟨false, va, n⟩)])) e

/-- A doubleword at an offset of an image. -/
def imageWord (bs : List Byte) (off : Nat) : Word := bytesWord ((bs.drop off).take 8)

/-! ## Entries (Table 7-9, R455) -/

/-- A word of op 0x46 or 0x48 to 0x54 has other fields where the form stands. -/
def formless (op : Nat) : Bool := op == 0x46 || (decide (0x48 ≤ op) && decide (op ≤ 0x54))

/-- The slot that a word names in form 01. -/
def namedSlot (w : BitVec 64) : Option Nat :=
  if field w.toNat 51 50 = 1 ∧ formless (opOf w) = false then some (field w.toNat 19 16) else none

/-- Values that a replay-form `DRAW` has in the appendix (R455). -/
def appendixLen (w : BitVec 64) (rc : Nat) : Nat := if opOf w = 0x6F ∧ field w.toNat 51 50 = 1 then rc - 1 else 0

/-- An entry: 32 bytes. -/
def imageEntry (po que : Nat) (e : QEntry) : List Byte :=
  let w2 : Nat := po <<< 38 + que <<< 36 + e.vtype.toNat <<< 20 + e.rc.toNat <<< 15 + e.vl.toNat
  let slot : Word := match namedSlot e.word with
    | some n => e.slots.toList.getD n 0
    | none => 0
  bytesOf 8 e.word.toNat ++ wordBytes e.prov ++ bytesOf 8 w2 ++ wordBytes slot

/-- The values of slots *n* + 1 on. -/
def appendixBytes (e : QEntry) : List Byte :=
  (List.range (appendixLen e.word e.rc.toNat)).flatMap fun i =>
    wordBytes (e.slots.toList.getD (field e.word.toNat 19 16 + 1 + i) 0)

/-- QUE of an entry. -/
def Que.imageCode : Que → Nat
  | .vec => 0
  | .mat => 1
  | .cpy => 2
  | .col => 3

def Que.ofImage : Nat → Que
  | 0 => .vec
  | 1 => .mat
  | 2 => .cpy
  | _ => .col

/-- The words of a queue in image order: the parked words, then the restore list's (R434). -/
def Core.imageQueue (c : Core) (q : Que) : List QEntry := c.queue q ++ c.restore.filter fun e => queOf e.word == q

/-- The words of an image in image order, with their queues. -/
def Core.imageWords (c : Core) : List (Que × QEntry) :=
  [Que.vec, .mat, .cpy, .col].flatMap fun q => (c.imageQueue q).map fun e => (q, e)

/-- Position in the order of placement. -/
def placedAt (l : List (Que × QEntry)) (e : QEntry) : Nat := l.countP fun x => decide (x.2.rank < e.rank)

/-- `lgs` and `cmv` of a header: they describe words of the image, or are clear but for HOVF (R46, R59). -/
def Core.progressWords (c : Core) : Word × Word := if c.cntLive then (c.lgsWord, c.cmv) else (0, c.cmv &&& 2)

/-- The header (Table 7-8). -/
def Core.imageHeader (c : Core) : List Byte :=
  let n (q : Que) : Nat := (c.imageQueue q).length
  bytesOf 8 (n .col <<< 24 + n .cpy <<< 16 + n .mat <<< 8 + n .vec) ++ wordBytes c.progressWords.1 ++ wordBytes c.brk ++
    wordBytes c.brkp ++ wordBytes c.resoff ++ wordBytes c.progressWords.2 ++ wordBytes c.eseq ++ bytesOf 8 0

/-- The whole image. -/
def Core.image (c : Core) : List Byte :=
  let l := c.imageWords
  c.imageHeader ++ (l.flatMap fun x => imageEntry (placedAt l x.2) x.1.imageCode x.2) ++
    l.flatMap fun x => appendixBytes x.2

/-- What stays known of a word that has gone to an image (log 29). -/
def QEntry.savedIn (eseq : Word) (e : QEntry) : SavedWord :=
  { prov := e.prov, word := e.word, rank := e.rank, epoch := e.epoch, rkey := e.rkey, rpos := e.rpos, eseq := eseq, live := true }

/-- The queues empty, with what has left them kept; the counters and `CM` describe words of the image from now on (R46,
R59). -/
def Core.emptied (c : Core) : Core :=
  let sorted := (c.imageWords.map Prod.snd).insertionSort fun a b => a.rank ≤ b.rank
  { c with vec := [], mat := [], cpy := [], col := [], restore := [], early := [], maskRead := none,
           saved := sorted.map (QEntry.savedIn c.eseq) ++ c.saved, cntLive := false }

/-- `VQSAVE` (R207): the engines settle as at a forced stop, then every word goes to the image. -/
def execVqsave (d a : BitVec 5) (s : State) : Result :=
  let va := readS s a
  privileged (.vqsave d a) s
    (if va.toNat % 64 ≠ 0 then .next (misaligned s va)
     else
       let q := s.settleEngines
       match storeBytes va q.core.image q with
       | .error e => spanStop .write va q.core.image.length s e
       | .ok q' => .next (writeNext (q'.withCore Core.emptied) d (BitVec.ofNat 64 q.core.imageWords.length)))

/-! ## `VQLOAD` (R209) -/

/-- An entry as the image gives it: PO, queue, and the word with its carried values. -/
structure Loaded where
  po : Nat
  que : Que
  word : BitVec 64
  prov : Word
  vl : BitVec 15
  rc : BitVec 5
  vtype : BitVec 16
  slot : Word
  deriving DecidableEq, Repr

def loadedAt (bs : List Byte) (i : Nat) : Loaded :=
  let w2 := imageWord bs (32 * i + 16)
  { po := wfield w2 43 38, que := .ofImage (wfield w2 37 36), word := imageWord bs (32 * i),
    prov := imageWord bs (32 * i + 8), vl := BitVec.ofNat 15 (wfield w2 14 0), rc := BitVec.ofNat 5 (wfield w2 19 15),
    vtype := BitVec.ofNat 16 (wfield w2 35 20), slot := imageWord bs (32 * i + 24) }

/-- The slots that a reloaded word carries: the one it names, and a replay-form `DRAW`'s appendix values. -/
def Loaded.slots (l : Loaded) (app : List Word) : Vector Word 16 :=
  let base : Vector Word 16 := .replicate 16 0
  match namedSlot l.word with
  | none => base
  | some n => app.zipIdx.foldl (fun v x => v.setIfInBounds (n + 1 + x.2) x.1) (base.setIfInBounds n l.slot)

/-- The header's counts. -/
def headerCount (bs : List Byte) (q : Que) : Nat :=
  let w := imageWord bs 0
  match q with
  | .vec => wfield w 7 0
  | .mat => wfield w 15 8
  | .cpy => wfield w 23 16
  | .col => wfield w 31 24

/-- Header counts that add up to the count given and fit the queues. -/
def headerOk (bs : List Byte) (n : Nat) : Bool :=
  let k := headerCount bs
  decide (k .vec + k .mat + k .cpy + k .col = n) &&
    [Que.vec, .mat, .cpy, .col].all fun q => decide (k q ≤ q.cap)

/-- The appendix values of each entry, in image order. -/
def splitAppendix : List Loaded → List Byte → List (Loaded × List Word)
  | [], _ => []
  | l :: ls, bs =>
    let k := appendixLen l.word l.rc.toNat
    (l, (List.range k).map fun i => imageWord bs (8 * i)) :: splitAppendix ls (bs.drop (8 * k))

/-- A reloaded word, parked until an `ERET` releases it (R209, R452). It has the rank given, and keeps its epoch and draw
position when it is known; until it is released, a sample names the `VQLOAD` (log 78). -/
def Core.reloaded (c : Core) (rank : Nat) (known : Option SavedWord) (l : Loaded × List Word) : QEntry :=
  let k := known.getD ⟨l.1.prov, l.1.word, rank, c.epoch, c.rkey, c.rpos, c.eseq, false⟩
  { word := l.1.word, prov := l.1.prov, pc := c.pc, rank := rank, vl := l.1.vl, rc := l.1.rc, vtype := l.1.vtype,
    slots := l.1.slots l.2, rkey := k.rkey, rpos := k.rpos, ven := c.ven, men := c.men, pen := c.pen, epoch := k.epoch,
    mark := c.mark, more := false, restored := true, released := false, parked := true, passed := false,
    pins := [], aim := none, job := none, joined := [] }

/-- A provenance as its layout has it: bits that a block form reserves are zero (R51). -/
def layoutProv (v : Word) : Word := if v.getLsbD 63 ∨ v = nullProv then v else v &&& ~~~0x6000000000000000#64

/-- The state words of the header restored, their reserved bits zero (R5). -/
def Core.withHeader (c : Core) (bs : List Byte) : Core :=
  let g := imageWord bs 8
  { c with
    lgs := .ofFn fun i => BitVec.ofNat 10 (wfield g (10 * i.val + 9) (10 * i.val))
    brk := imageWord bs 16 &&& 0x1FFFFF, brkp := layoutProv (imageWord bs 24), resoff := imageWord bs 32 &&& 0x3FF,
    cmv := imageWord bs 40 &&& 0x3F03, eseq := imageWord bs 48, cntLive := true }

/-- The words of an image in the order of placement, each with what is known of it: the first of the saved words that has its
provenance and its bits, and that no word before it has taken. -/
def recognise : List SavedWord → List (Loaded × List Word) → List ((Loaded × List Word) × Option SavedWord)
  | _, [] => []
  | k, x :: xs =>
    let y := k.find? fun y => y.prov == x.1.prov && y.word == x.1.word
    (x, y) :: recognise (match y with
      | some y => k.erase y
      | none => k) xs

/-- Ranks that rise from word to word. -/
def rising : List Nat → Bool
  | a :: b :: l => decide (a < b) && rising (b :: l)
  | _ => true

/-- Words placed in ascending PO. Those that are all known, in the order that they had, take their places again; others take
places after all that came before, and publications that wait go on waiting behind them (R14, R325). Words saved under the
image's emit sequence number, which `eseq` now holds, are looked for first, the youngest image before older ones (log 29). -/
def Core.placeImage (c : Core) (l : List (Loaded × List Word)) : Core :=
  let of (own : Bool) : List SavedWord := c.saved.filter fun y => (y.eseq == c.eseq) == own
  let known := recognise (of true ++ of false) (l.insertionSort fun a b => a.1.po ≤ b.1.po)
  let ranks := known.filterMap fun x => x.2.map SavedWord.rank
  let same : Bool := decide (ranks.length = l.length) && rising ranks
  let base := c.rank
  let c := if same then c else
    { c with rank := c.rank + l.length, pubs := c.pubs.map fun p =>
        match p with
        | .raise w v sc _ => .raise w v sc (base + l.length)
        | .arrive ph _ => .arrive ph (base + l.length) }
  let placed := known.zipIdx.foldl (fun (c : Core) x =>
    let rank := if same then ranks.getD x.2 0 else base + x.2
    c.setQueue (c.queue x.1.1.1.que ++ [c.reloaded rank x.1.2 x.1.1]) x.1.1.1.que) c
  { placed with saved := ((known.filterMap Prod.snd).foldl List.erase c.saved).map fun y => { y with live := false } }

/-- An operand limit of an S-word with the count as the offending value. -/
def loadStop (s : State) (n : Nat) : State := operandStop s n

/-- `VQLOAD` (R209). -/
def execVqload (a b : BitVec 5) (s : State) : Result :=
  let va := readS s a
  let n := (readS s b).toNat
  privileged (.vqload a b) s
    (if n > 64 || !s.core.drained || s.core.history != 0 then .next (loadStop s n)
     else
       match loadBytes va 64 s with
       | .error e => spanStop .read va 64 s e
       | .ok (hd, s1) =>
         if !headerOk hd n then .next (loadStop s n)
         else
           match loadBytes (va + 64) (32 * n) s1 with
           | .error e => spanStop .read (va + 64) (32 * n) s1 e
           | .ok (bs, s2) =>
             let l := (List.range n).map (loadedAt bs)
             if !(List.range n).all fun p => l.any fun x => x.po == p then .next (loadStop s n)
             else
               let k := (l.map fun x => appendixLen x.word x.rc.toNat).sum
               let at_ := va + BitVec.ofNat 64 (64 + 32 * n)
               match loadBytes at_ (8 * k) s2 with
               | .error e => spanStop .read at_ (8 * k) s2 e
               | .ok (app, s3) =>
                 .next (s3.withCore fun c => (c.withHeader hd).placeImage (splitAppendix l app)).advance)

/-! ## `VCMST` and `VCMLD` (R210) -/

/-- The bytes of `CM` and `cmv`. -/
def Core.cmBytes (c : Core) : List Byte :=
  (List.range 16).flatMap (fun r => bytesOf 2048 (c.cm.row r).toNat) ++ wordBytes c.cmv

/-- `VCMST`: it waits as an `MFS` of `cmv` does (R44). -/
def execVcmst (a : BitVec 5) (s : State) : Result :=
  let va := readS s a
  privileged (.vcmst a) s
    (if va.toNat % 64 ≠ 0 then .next (misaligned s va)
     else if !s.core.drained then .next s.stall
     else
       match storeBytes va s.core.cmBytes s with
       | .error e => spanStop .write va s.core.cmBytes.length s e
       | .ok s' => .next s'.advance)

/-- `VCMLD`. With the queues empty, it restores the `CM` of words that a `VQLOAD` has yet to bring back (R428). -/
def execVcmld (a : BitVec 5) (s : State) : Result :=
  let va := readS s a
  privileged (.vcmld a) s
    (if va.toNat % 64 ≠ 0 then .next (misaligned s va)
     else
       match loadBytes va 32776 s with
       | .error e => spanStop .read va 32776 s e
       | .ok (bs, s') =>
         .next (s'.withCore fun c =>
           { c with cm := .ofFn fun r => BitVec.ofNat 16384 (ofBytes ((bs.drop (2048 * r.val)).take 2048))
                    cmv := imageWord bs 32768 &&& 0x3F03
                    cntLive := c.cntLive && !c.drained }).advance)

end Sys2Proof.Machine
end

