-- ==== Sys2Proof/Machine/Traps.lean ====
section
/-! DEFINITION. Trap entry as a step, illegal words, the trap ring under pressure, single step, and what the kernel does
with a hart it holds (spec/20 R370, R372, spec/21 R387 to R407, R453, spec/23 R433, spec/25 R445). -/

namespace Sys2Proof.Machine

/-! ## Trap entry and the words that are no instructions -/

/-- TRAP_ENTRY (R387): the shared operation, on a hart that runs. -/
def execTrapEntry (t : TrapReq) (s : State) : Result :=
  if s.core.placed && s.core.stopped.isNone && s.core.trapWait.isNone then .next (takeTrap s t) else .next s

/-- ILLEGAL_S_WORD (R370): cause 0x01, with the word in `tval`. -/
def execIllegalSWord (w : BitVec 32) (s : State) : Result := .next (genFault s 0x01 (w.setWidth 64) 0)

/-- ILLEGAL_V_WORD (R372): the word in the sequencer or engine is no instruction. -/
def execIllegalVWord (w : BitVec 64) (s : State) : Result := refuseWord s (.stop ⟨0x02, w, 0, 0⟩)

/-- S_WORD_FETCH_FAULT (R188): the fetch at the pc fails. -/
def execSWordFetchFault (s : State) : Result :=
  match fetchBytes s false s.core.pc 4 with
  | .error f =>
    let s := s.touched s.core.pc 4 .fetch
    lastStop s (s.failStop .last s.core.pc .fetch 0 f)
  | .ok _ => .next s

/-- SINGLE_STEP_STOP (R407): a stop that is due, in U mode. -/
def execSingleStepStop (core : Nat) (s : State) : Result :=
  let f := s.focus core
  match f.core.stepDue with
  | none => .next s
  | some p =>
    if f.core.num ≠ core then .next s
    else
      let f := f.withCore fun c => { c with stepDue := none }
      .next ((if f.core.kmode then f else takeTrap f ⟨.stop p, 0x22, 0, 0⟩).focus s.core.num)

/-- WFE_WAKE (R190): an event ends the wait. -/
def execWfeWake (core : Nat) (s : State) : Result := .next (s.updCore core fun c => { c with wfe := false })

/-! ## The trap ring (R404) -/

/-- LOST counts dropped records, saturating, and LF is set (Table 21-5). -/
def Device.countLost (d : Device) (c : Ctx) (n : Nat) : Device :=
  let w := d.dram.word c.lostAt
  let m := min (wfield w 31 0 + n) 0xFFFFFFFF
  { d with dram := d.dram.setWord c.lostAt (setBit (setField w 31 0 m) 63 true) }

/-- Records are dropped: the next write once room returns is the type-6 record. -/
def Device.dropRecords (d : Device) (id n : Nat) : Device :=
  match d.ctx id with
  | none => d
  | some c => (d.countLost c n).updCtx id fun c => { c with dropped := c.dropped + n }

/-- The context of a core. -/
def State.ctxOf (s : State) (c : Core) : Nat := ((s.dev.liveGang c.gang16).map Gang.ctx).getD 0

/-- The first batch of a core whose records wait and have not been dropped yet: the ring has no room for all of them. -/
def Core.batchToDrop (c : Core) (room : Nat) : Option Batch :=
  c.batches.find? fun b => b.seq.isNone && !b.lost && decide (room < (b.pages.length + 2) / 3)

/-- TRAP_RECORD_DROP: a producer has faced the full ring for 65,536 cycles. A trap entry goes on without its record,
and a hart that the kernel is to hold posts it again later; otherwise the oldest record that waits alone is dropped, or
the records of a batch together (R411), once: they are posted again when there is room. -/
def execTrapRecordDrop (ctx : Nat) (s : State) : Result :=
  match s.dev.ctx ctx with
  | none => .next s
  | some c =>
    let room := s.dev.ringRoom c
    let waits (x : Core) : Bool := s.ctxOf x == ctx && (x.batchToDrop room).isSome
    let dropBatch : Result :=
      match s.cores.find? waits with
      | none => .next s
      | some x =>
        match x.batchToDrop room with
        | none => .next s
        | some b =>
          let s := s.updCore x.num fun x =>
            { x with batches := x.batches.map fun y => if y.owner = b.owner then { y with lost := true } else y }
          .next (s.withDev fun d => d.dropRecords ctx ((b.pages.length + 2) / 3))
    if room ≠ 0 then dropBatch
    else
      match s.cores.find? fun x => x.trapWait.isSome && s.ctxOf x == ctx with
      | some x =>
        match x.trapWait with
        | none => .next s
        | some w =>
          let s := s.updCore x.num fun c => c.enter w.stop
          .next (s.withDev fun d => (d.dropRecords ctx 1).updCtx ctx fun c =>
            if w.stop.isSome then { c with repost := c.repost ++ [w.record] } else c)
      | none =>
        match c.waiting with
        | _ :: rs => .next (s.withDev fun d => (d.dropRecords ctx 1).updCtx ctx fun c => { c with waiting := rs })
        | [] => dropBatch

/-- Records written in turn while there is room: those that remain, and the device. -/
def Device.pushSome (d : Device) (id : Nat) : List Record → List Record × Device
  | [] => ([], d)
  | r :: rs =>
    match d.tryPush id r with
    | some d => d.pushSome id rs
    | none => (r :: rs, d)

/-- A hart whose trap entry waits goes on when its record can be written. -/
def State.finishEntry (ctx : Nat) (s : State) (n : Nat) : State :=
  match s.findCore n with
  | none => s
  | some c =>
    match c.trapWait with
    | none => s
    | some w =>
      if s.ctxOf c ≠ ctx then s
      else
        match s.dev.tryPush ctx w.record with
        | some d => ({ s with dev := d }).updCore n fun c => c.enter w.stop
        | none => s

/-- Room has returned: the type-6 record, the records of stopped harts, then what waits. -/
def State.flushRing (s : State) (ctx : Nat) : State :=
  let d := s.dev.payLost ctx
  match d.ctx ctx with
  | none => s
  | some c =>
    let r := d.pushSome ctx c.repost
    let d := r.2.updCtx ctx fun c => { c with repost := r.1 }
    let s := (s.cores.map Core.num).foldl (State.finishEntry ctx) { s with dev := d }
    match s.dev.ctx ctx with
    | none => s
    | some c =>
      let w := s.dev.pushSome ctx c.waiting
      { s with dev := w.2.updCtx ctx fun c => { c with waiting := w.1 } }

/-- TRAP_RING_CONS_WRITE: the consumer writes CONS, or the word of LF (cleared by a 1) and LOST; the other words of the
control block are read-only to it (Table 21-5). -/
def execTrapRingConsWrite (ctx : Nat) (cons : RingWrite) (s : State) : Result :=
  match s.dev.ctx ctx with
  | none => .next s
  | some c =>
    if cons.off = 0x08 then
      .next ((s.withDev fun d => { d with dram := d.dram.setNum 4 c.consAt (wfield cons.v 31 0) }).flushRing ctx)
    else if cons.off = 0x10 then
      let w := setField (s.dev.dram.word c.lostAt) 31 0 (wfield cons.v 31 0)
      .next (s.withDev fun d =>
        { d with dram := d.dram.setWord c.lostAt (if cons.v.getLsbD 63 then setBit w 63 false else w) })
    else .next s

/-! ## A hart leaves its core; a gang ends -/

/-- A hart off its core: nothing of it runs, and its request for pre-emption is over (R36). -/
def Core.atRest (c : Core) : Core :=
  { c with placed := false, stopped := none, trapWait := none, preempt := false, graceHeld := false, wfe := false,
           stepDue := none, batches := [], icache := [], bcache := [], vec := c.vec.map QEntry.unpin, mat := c.mat.map QEntry.unpin,
           cpy := c.cpy.map QEntry.unpin, col := c.col.map QEntry.unpin, forced := false, run := .empty, mode := .whole, why := none,
           early := [], maskRead := none, wrote := [] }

/-- What a hart that yields keeps (R433); the rest is as at launch (log 20). -/
def Core.yielded (c : Core) : Core :=
  { Core.reset with
    num := c.num, pc := c.pc, s := c.s, o := c.o, vl := c.vl, rc := c.rc, vtype := c.vtype, ffs := c.ffs,
    rkey := c.rkey, rpos := c.rpos, ix := c.ix, t := { c.t with tvec := 0, tdbg := 0, twatch := 0 },
    hstat := c.hstat, gid := c.gid, hid := c.hid, tokbud := c.tokbud, eseq := c.eseq, rank := c.rank,
    epoch := c.epoch, pubs := c.pubs, barLast := c.barLast, barAw := c.barAw, saved := c.saved, spent := c.spent, launching := c.launching,
    frozenCopy := c.frozenCopy, frozenColl := c.frozenColl }

/-- The focused hart leaves its core; the gang is a candidate once all of its harts have (R338, R433). -/
def State.leave (s : State) (c : Core) : State :=
  { s with core := s.core.vacated
           dev := ({ s.dev with saved := s.dev.saved ++ [c.atRest] }).settleGang s.core.gang16 }

/-- A gang ends by force: every hart's core is freed (R445, R453). -/
def State.destroy (s : State) (gid : BitVec 16) : State :=
  let free (c : Core) : Core := if c.placed ∧ c.gang16 = gid then c.vacated else c
  { s with
    core := free s.core
    rest := s.rest.map free
    dev := ({ s.dev with saved := s.dev.saved.filter fun c => c.gang16 != gid }).endGang gid }

/-- DESTROY_GANG. -/
def execDestroyGang (gid : BitVec 16) (s : State) : Result := .next (s.destroy gid)

/-! ## The kernel and a hart that it holds (R402, R433, R453) -/

/-- The scratchpad of a hart with its spoiled rows, which travel with it (R418). -/
def Core.withSpadOf (d c : Core) : Core :=
  { d with spad := c.spad, poison := c.poison.filter fun p =>
      match p with
      | .spad _ => true
      | _ => false }

/-- Service code 1, yield, in K mode with empty queues: the hart leaves, to go on after its `ECALL`; of a core that has
retired the kernel saves the scratchpad too (R421). Any other call ends the gang (R433). -/
def State.serveCall (s : State) (k : KStop) : State :=
  let c := s.core
  if c.kmode ∧ c.s[31] = 1 ∧ c.drained then
    let d := { c.yielded with pc := k.tepc + 4 }
    s.leave (if s.dev.retiredCores.contains c.num then d.withSpadOf c else d)
  else s.destroy c.gang16

/-- The end of a stop that carries NEST: for 0x16 and 0x17 the hart leaves its core as by a forced stop. -/
def State.serveNest (s : State) (k : KStop) : State :=
  if k.cause = 0x1F then s.serveCall k
  else if k.cause = 0x16 ∨ k.cause = 0x17 then
    let s := s.settleEngines
    s.leave { s.core with pc := k.tepc }
  else s.destroy s.core.gang16

/-- The focused hart goes on as by `ERET`. -/
def State.resume (s : State) : State := eret (s.withCore fun c => { c with stopped := none })

/-- The kernel's service of the hart it holds. -/
def State.kernelServe (s : State) : State :=
  match s.core.stopped with
  | none => s
  | some k => if k.nest then s.serveNest k else if s.core.frozenHart then s else s.resume

/-- A step on the core of this number; the focus then returns. -/
def State.onCore (s : State) (n : Nat) (f : State → State) : State :=
  let t := s.focus n
  if t.core.num = n then (f t).focus s.core.num else s

/-- KERNEL_RESUME_HART: the kernel ends a stop: by NEST's rule, or as `ERET` would; a frozen hart waits for its
thaw. -/
def execKernelResumeHart (core : Nat) (s : State) : Result := .next (s.onCore core State.kernelServe)

/-- The hart's handler entered as route H would. -/
def State.enterHandler (s : State) : State :=
  match s.core.stopped with
  | none => s
  | some k =>
    if k.nest || s.core.frozenHart || wfield s.core.t.tvec 54 2 == 0 then s
    else s.withCore fun c => { c with stopped := none, pc := BitVec.ofNat 64 (wfield c.t.tvec 54 2 * 4) }

/-- KERNEL_ENTER_HANDLER. -/
def execKernelEnterHandler (core : Nat) (s : State) : Result := .next (s.onCore core State.enterHandler)

/-- Copies restart from their first chunks, but for those that a younger copy has written within (R425). -/
def Core.restartCopies (c : Core) : Core :=
  { c with cpy := c.cpy.map fun e => if e.joined.isEmpty then e.unstart else e.unpin }

/-- Transfers restart, but for a multicast that has reached receivers and the words before it, whose order stays (R292). -/
def Core.restartTransfers (c : Core) : Core :=
  let later := (c.col.reverse.takeWhile fun e => e.joined.isEmpty).length
  let n := c.col.length - later
  { c with col := (c.col.take n).map QEntry.unpin ++ (c.col.drop n).map QEntry.unstart }

/-- A change of the hart in a seat: on its core, or off it with its gang (R446). -/
def State.updSeat (s : State) (w : Seat) (f : Core → Core) : State :=
  match w with
  | .core n => s.updCore n f
  | .off gid h =>
    s.withDev fun d => { d with saved := d.saved.map fun c => if c.gang16 = gid ∧ c.hart = h then f c else c }

def Core.thawCopy (c : Core) : Core := if c.frozenCopy then { c.restartCopies with frozenCopy := false } else c
def Core.thawColl (c : Core) : Core := if c.frozenColl then { c.restartTransfers with frozenColl := false } else c

/-- THAW_MASTER (R445): one master. A thawed hart that the kernel holds then goes on by one of R402's three ways. -/
def execThawMaster (m : Master) (s : State) : Result :=
  match m with
  | .hart w => .next (s.updSeat w fun c => { c with frozenHart := false })
  | .copyEngine w => .next (s.updSeat w Core.thawCopy)
  | .collPort w => .next (s.updSeat w Core.thawColl)
  | .func vf => .next (s.withDev fun d => d.updFunc vf fun f => { f with frozen := false })

end Sys2Proof.Machine
end

