-- ==== Sys2Proof/Machine/Counters.lean ====
section
/-! DEFINITION. Counting events in a core's bank, and what the overflow of a counter writes (spec/13 R342 to R347). -/

namespace Sys2Proof.Machine

/-- A bank counts events of its owner context's hart on its core. -/
def State.bankCounts (s : State) (b : Bank) : Bool :=
  !b.ctl.getLsbD 41 && b.ctl.getLsbD 11 &&
    (s.findCore b.core).any fun c => s.ctxOf c == wfield b.ctl 10 0

/-- A counter that counts an event: enabled, and not absent. -/
def counts (w : Word) (ev : Nat) : Bool := w.getLsbD 63 && !w.getLsbD 60 && wfield w 59 44 == ev && knownEvent ev

/-- The pointer pair of a sample (R342). -/
def Core.samplePair (c : Core) : Word × Word :=
  match c.vec ++ c.mat ++ c.cpy ++ c.col with
  | e :: _ => (e.pc, e.prov)
  | [] => (c.pc, nullProv)

/-- A type-5 record with the pointer pair `p`; the manual gives no contents for bytes 32 to 55 (log 8). -/
def State.overflowRecord (s : State) (p : Word × Word) : State :=
  let who := s.whoWord
  let w (i : Nat) : Word := Config.openWord (s.free + i)
  let (st, s) := ({ s with free := s.free + 3 }).stamp
  s.withDev fun d => d.pushOrWait s.ctxId #v[5 <<< 60, who, p.1, p.2, w 0, w 1, w 2, st]

/-- What the Last of a hart waits for, as Table 13-2 sees it. -/
inductive LastWait where
  | no
  /-- A watermark, a barrier, or `WFE`. -/
  | condition
  /-- The queues, whose words may wait for a collective peer or a chunk completion mask. -/
  | queues
  deriving DecidableEq, Repr

/-- The wait of the Last (test 2 of Table 13-2): at `WMWAIT`, `bar.wait` or `bar.aw`, `VDRAIN`, or after `WFE`. -/
def State.lastWait (s : State) : LastWait :=
  if s.core.wfe then .condition
  else
    match fetchBytes s false s.core.pc 4 with
    | .error _ => .no
    | .ok (w, _) =>
      let r := SRaw.unpack (BitVec.ofNat 32 w)
      match r.op.toNat with
      | 0x33 =>
        let n := (r.fn.extractLsb' 4 3).toNat
        if s.gang.any fun g => decide ((s.dev.watermark g n).toNat < (readS s r.a).toNat) then .condition else .no
      | 0x34 => if (r.fn == 1 || r.fn == 2) && s.hasArrived then .condition else .no
      | 0x2D => if (maskedQueues (r.fn.extractLsb' 0 4)).any fun q => !(s.core.queue q).isEmpty then .queues else .no
      | _ => .no

/-- Categories of Table 13-2 that the state of a placed hart admits for a cycle, the tests taken in order: busy while a word may
advance; waiting, when the Last waits and no word may wait for anything else; scalar-bound with an empty vector queue;
memory-bound or vector-bound. Which of those left holds is timing (log 8). -/
def State.categories (s : State) : List Nat :=
  let c := s.core
  let idle : List Nat := if c.vec.isEmpty then [3] else [4, 5]
  let rest : List Nat :=
    match s.lastWait with
    | .no => idle
    | .condition => if c.words.isEmpty then [2] else 2 :: idle
    | .queues => 2 :: idle
  if c.words.any fun e => !e.parked then 1 :: rest else rest

/-- The category of a cycle. -/
def State.category (s : State) : Nat :=
  let l := s.categories
  l.getD ((Config.openWord s.free).toNat % l.length) 5

/-- A sample: the pointer pair, the category of its cycle, and the next steps, which show the slip (R343). -/
def State.sampleRecord (s : State) (p : Word × Word) : State :=
  ({ s with free := s.free + 1 }).trace 2 2 p.1 p.2 (BitVec.ofNat 64 s.category) s.core.lgsWord

/-- What the overflow of one counter writes. -/
def State.counterWraps (s : State) (w : Word) (p : Word × Word) : State :=
  let s := if w.getLsbD 62 then s.overflowRecord p else s
  if w.getLsbD 61 then s.sampleRecord p else s

/-- `n` events added to one counter of the focused core's bank, in a cycle whose sample has the pointer pair `p`. -/
def State.addCounter (core ev n : Nat) (p : Word × Word) (s : State) (i : Nat) : State :=
  let b := s.dev.bankOf core
  let w := b.ctr.toList.getD i 0
  if !counts w ev then s
  else
    let v := wfield w 43 0 + n
    let s := s.withDev fun d => d.putBank { b with ctr := b.ctr.setIfInBounds i (setField w 43 0 (v % 2 ^ 44)) }
    if 2 ^ 44 ≤ v then s.counterWraps w p else s

/-- Events of the focused core, each code with its number: the counters take them in ascending order (R346). -/
def State.countEvents (s : State) (p : Word × Word) (evs : List (Nat × Nat)) : State :=
  let core := s.core.num
  if !s.bankCounts (s.dev.bankOf core) then s
  else
    (List.range 8).foldl (fun s i =>
      let code := wfield ((s.dev.bankOf core).ctr.toList.getD i 0) 59 44
      match evs.find? fun e => e.1 == code && e.2 != 0 with
      | none => s
      | some e => s.addCounter core code e.2 p i) s

/-- A cycle of a placed hart is charged to one category, which the state admits: the counts of the five always sum to the placed
cycles (R343). -/
def State.cycleEvents (s : State) (ev n : Nat) : List (Nat × Nat) :=
  if ev = 1 ∨ 2 ≤ ev ∧ ev ≤ 6 then
    if !s.core.placed then []
    else
      let cat := if s.categories.contains (ev - 1) then ev - 1 else s.category
      [(1, n), (cat + 1, n)]
  else [(ev, n)]

end Sys2Proof.Machine
end

