-- ==== Sys2Proof/Machine/Launching.lean ====
section
/-! DEFINITION. Admission, the dispatcher, pre-emption and collective groups (spec/12 R327 to R340, spec/14 R353,
spec/22 R422, spec/23 R423, R424, R432, spec/25 R445 to R448). -/

namespace Sys2Proof.Machine

/-! ## Addresses of a context, as the device reads them -/

/-- A readable place in a context's address space; none when the page is not mapped, not readable, or another context's. The A
bit of its leaf is set as soon as the leaf permits the read (R94, R96). The device reads with K rights, so US does not matter
(log 76). -/
def Device.ctxPlace (d : Device) (c : Ctx) (va : Nat) : Option Place × Device :=
  match if field va 63 55 != 0 then none else walk d.dram c.root va with
  | none => (none, d)
  | some l =>
    if !permits l.entry .read true then (none, d)
    else
      let d := { d with dram := d.dram.setNum 8 l.at_ (l.entry ||| 0x100) }
      if eH l.entry then
        match d.hostTranslate c.pasid (va / 65536) with
        | some p => (some (.host (p.1 * 65536 + va % 65536)), p.2)
        | none => (none, d)
      else
        let pa := eFrame l.entry + (if l.big then field va 28 0 else field va 15 0)
        if pa ≥ Config.dramBytes || (ownerCheck (d.frameEntry (pa / 65536)) c.id false).isSome then (none, d)
        else (some (.dram pa), d)

/-- The bytes of a line of device or host memory, unless they are poisoned. -/
def Device.lineAt (d : Device) : Place → Option (List Byte)
  | .dram a => if d.poison.contains (lineOf a) then none else some (d.dram.read 64 a)
  | .host a => if d.hostPoison.contains (lineOf a) then none else some (d.host.read 64 a)
  | _ => none

/-- `n` lines of 64 bytes at a 64-byte aligned address. -/
def Device.ctxLines (d : Device) (c : Ctx) : Nat → Nat → Option (List Byte) × Device
  | 0, _ => (some [], d)
  | n + 1, va =>
    match d.ctxPlace c va with
    | (none, d) => (none, d)
    | (some p, d) =>
      match d.lineAt p with
      | none => (none, d)
      | some bs =>
        let r := Device.ctxLines d c n (va + 64)
        (r.1.map fun l => bs ++ l, r.2)

/-- A hart of the context may fetch at an address in U mode. -/
def Device.fetchable (d : Device) (c : Ctx) (va : Word) : Bool :=
  wfield va 63 55 == 0 && (walk d.dram c.root va.toNat).any fun l => permits l.entry .fetch false

/-! ## The launch descriptor (Table 12-1) -/

/-- The groups that a gang joins: a word of zeros names none (R329), nor does hart 0xFF. -/
def collEntries (w : Word) : List (Nat × Nat) :=
  if w = 0 then []
  else
    ((List.range 4).map fun j => (wfield w (16 * j + 15) (16 * j + 8), wfield w (16 * j + 7) (16 * j))).filter
      fun x => x.2 != 0xFF

/-- The descriptor in its 192 bytes. -/
def descOf (bs : List Byte) : Desc :=
  let w (i : Nat) : Word := imageWord bs (8 * i)
  { entry := w 0, bud := BitVec.ofNat 32 (wfield (w 1) 63 32), bar := (w 1).getLsbD 23, dep := (w 1).getLsbD 22,
    nt := (w 1).getLsbD 21, prio := wfield (w 1) 15 12, harts := wfield (w 1) 7 0,
    wmap := .ofFn fun i => BitVec.ofNat 8 (wfield (w 2) (8 * i.val + 7) (8 * i.val)), pv := (w 3).getLsbD 19,
    sw := BitVec.ofNat 3 (wfield (w 3) 18 16), pgid := BitVec.ofNat 16 (wfield (w 3) 15 0), start := w 4,
    coll := collEntries (w 5),
    wins := .ofFn fun n => (w (8 + 2 * n.val), BitVec.ofNat 32 (wfield (w (9 + 2 * n.val)) 31 0)) }

/-- A zero field that is not zero, or a WMAP entry that is refused (reason 3). -/
def descZeros (bs : List Byte) (d : Desc) : Bool :=
  let w (i : Nat) : Word := imageWord bs (8 * i)
  w 1 &&& 0xFF1F0F00#64 == 0 && wfield (w 3) 63 20 == 0 && w 6 == 0 && w 7 == 0 &&
    ((List.range 8).all fun n => wfield (w (9 + 2 * n)) 63 32 == 0) &&
    d.wmap.all (fun m => decide (m.toNat % 4 < 2 ∧ m.toNat < 32)) && (!d.dep || d.pv)

/-! ## Admission (R333, Table 12-4) -/

/-- Cores in service (R422). -/
def Device.inService (d : Device) : Nat := Config.cores - d.retiredCores.length

/-- The lowest reason from 1 to 6 that applies; 0 when none does. -/
def Device.refusal (d : Device) (f : Func) (c : Ctx) (bs : List Byte) (x : Desc) : Nat :=
  if x.harts = 0 ∨ d.inService < x.harts then 1
  else if wfield f.fair 15 12 < x.prio then 2
  else if !descZeros bs x then 3
  else if x.entry.toNat % 4 ≠ 0 || !d.fetchable c x.entry then 4
  else if x.pv && !(d.gangs.any fun g => g.gid == x.pgid && g.ctx == c.id) then 5
  else if x.coll.any fun e => !(c.groups.any fun g => g.1 == e.1) || decide (x.harts ≤ e.2) then 6
  else 0

/-- The lowest number from `n` on that `taken` leaves. -/
def firstFree (taken : Nat → Bool) : Nat → Nat → Nat
  | 0, n => n
  | k + 1, n => if taken n then firstFree taken k (n + 1) else n

/-- A new gang id for a descriptor: one that no gang has had while there is one, else one that no gang holds; never one
that an admitted descriptor, this one among them, names (R333, log 21). None is left when every id is held or named. -/
def Device.newGid (d : Device) (x : Desc) : Option (BitVec 16) :=
  let held (n : Nat) : Bool := (x.pv && x.pgid.toNat == n) || d.gangs.any fun g =>
    g.st != .ended && (g.gid.toNat == n || (g.desc.pv && g.desc.pgid.toNat == n))
  let had (n : Nat) : Bool := held n || d.gangs.any fun g => g.gid.toNat == n
  let pick (n : Nat) : Option (BitVec 16) := if n < 65536 then some (BitVec.ofNat 16 n) else none
  (pick (firstFree had 65536 0)).or (pick (firstFree held 65536 0))

/-- The decision on an entry: the gang to admit, or the reason it is refused for; reason 0 says that no gang id is left, so that
the entry waits. The device is as reading the descriptor leaves it. -/
def Device.decide_ (d : Device) (vf : Nat) (r : Fin 2) (i : Nat) : Except Nat Gang × Device :=
  let f := d.func vf
  let e := d.ringEntry f r i
  match d.ctx (wfield e.2 10 0) with
  | none => (.error 8, d)
  | some c =>
    if c.vf ≠ vf then (.error 8, d)
    else if e.1.toNat % 64 ≠ 0 then (.error 7, d)
    else
      match d.ctxLines c 3 e.1.toNat with
      | (none, d) => (.error 7, d)
      | (some bs, d) =>
        let x := descOf bs
        (match d.refusal f c bs x with
         | 0 =>
           match d.newGid x with
           | none => .error 0
           | some gid =>
             .ok { gid := gid, ctx := c.id, vf := vf, ring1 := (r == 1), pos := i, order := d.order, desc := x,
                   st := .admitted, placedBefore := false, root := 0, key := 0, w := (.replicate 8 0),
                   raised := (.replicate 8 []), phase := 0, arrived := [], halted := [] }
         | n + 1 => .error (n + 1), d)

/-- A duty that runs host-assisted (R355): the first event posts the request to the host and notes it, and the next one is
the answer. True when the duty is due now. -/
def Device.asks (d : Device) (bit : Nat) (a : Ask) : Bool := d.split.getLsbD bit && !d.asked.contains a
def Device.post (d : Device) (a : Ask) : Device := { d with asked := d.asked ++ [a], posted := d.posted ++ [.ask a] }
def Device.answered (d : Device) (a : Ask) : Device := { d with asked := d.asked.filter fun x => x != a }

/-- ADMISSION: the next entry of a ring that admission has to decide; host-assisted while ADM = 1 (R355). -/
def execAdmission (vf : Nat) (ring1 : Bool) (s : State) : Result :=
  let r : Fin 2 := if ring1 then 1 else 0
  let f := s.dev.func vf
  let i := f.next[r]
  let ask := Ask.admission vf ring1
  if f.frozen || !f.enabled r || i == f.tailN r then .next s
  else if s.dev.asks 2 ask then .next (s.withDev fun d => d.post ask)
  else
    let s := s.withDev fun d => d.answered ask
    let past (d : Device) : Device := d.updFunc vf fun f => { f with next := f.next.set r ((i + 1) % f.entries r) }
    let ctx := wfield (s.dev.ringEntry f r i).2 10 0
    match s.dev.decide_ vf r i with
    | (.error 0, d) => .next { s with dev := d }
    | (.error why, d) => .next { s with dev := (past d).setEntry vf r i (entryWord 2 why 0 ctx) }
    | (.ok g, d) =>
      let d := past { d with gangs := d.gangs ++ [g], order := d.order + 1 }
      .next { s with dev := d.setEntry vf r i (entryWord 1 0 g.gid.toNat ctx) }

/-- RING0_TAIL_WRITE (R332). TAIL0 keeps the number as written: at or above 2^LOG2N, admission, whose position wraps, does not
meet it (log 76). -/
def execRing0TailWrite (vf : Nat) (tail : BitVec 12) (s : State) : Result :=
  .next (s.withDev fun d => d.updFunc vf fun f => { f with tail := f.tail.set 0 (tail.setWidth 64) })

/-! ## Candidates (R334, R336) -/

/-- Harts of a gang that want a core: those that have not halted. -/
def Gang.need (g : Gang) : Nat := ((List.range g.desc.harts).filter fun h => !g.halted.contains h).length

/-- A hart or an engine of the gang is frozen (R446). -/
def State.gangFrozen (s : State) (g : Gang) : Bool :=
  (s.cores.filter Core.placed ++ s.dev.saved).any fun c =>
    c.gang16 == g.gid && (c.frozenHart || c.frozenCopy || c.frozenColl)

/-- A context whose gangs are not placed: a checkpoint of it is under way, it is on its way to another package, or a
sealed frame is at fault (R357, R430, R448). -/
def Device.ctxHeld (d : Device) (ctx : Nat) : Bool :=
  (d.moves.any fun m => m.ctx == ctx) || (d.ckpts.any fun k => d.ckptOpen.contains k.id && k.ctxs.contains ctx) || ((d.ctx ctx).map Ctx.barred).getD true

/-- BAR and DEP of an admitted gang (R334). -/
def Device.startable (d : Device) (g : Gang) : Bool :=
  (!g.desc.bar || d.gangs.all fun x => !(x.vf == g.vf && x.ring1 == g.ring1 && x.placedBefore && x.st != .ended)) &&
    (!g.desc.dep ||
      (match d.anyGang g.ctx g.desc.pgid with
       | none => true
       | some p => p.st == .ended || decide (g.desc.start.toNat ≤ (d.watermark p g.desc.sw.toNat).toNat)))

/-- The gang of least order among some. -/
def oldestGang (l : List Gang) : Option Gang :=
  l.foldl (fun a g =>
    match a with
    | none => some g
    | some x => if g.order < x.order then some g else some x) none

/-- The head of a ring: its oldest unplaced gang, when it is eligible. -/
def Device.ringHead (d : Device) (vf : Nat) (ring1 : Bool) : Option Gang :=
  match oldestGang (d.gangs.filter fun g => g.vf == vf && g.ring1 == ring1 && g.st == .admitted) with
  | some g => if d.startable g && !d.ctxHeld g.ctx then some g else none
  | none => none

/-- Gangs in their order. -/
def inOrderOf (l : List Gang) : List Gang := l.insertionSort fun a b => a.order ≤ b.order

/-- A function's candidates of a priority: its pre-empted gangs, the one stopped earliest first, then its ring heads. -/
def State.candidates (s : State) (vf prio : Nat) : List Gang :=
  let back := s.dev.gangs.filter fun g =>
    g.vf == vf && g.st == .preempted && g.desc.prio == prio && !s.gangFrozen g && !s.dev.ctxHeld g.ctx
  let heads := ([s.dev.ringHead vf false, s.dev.ringHead vf true].filterMap id).filter fun g => g.desc.prio == prio
  inOrderOf back ++ inOrderOf heads

/-- The first of them. -/
def State.candidate (s : State) (vf prio : Nat) : Option Gang := (s.candidates vf prio).head?

/-- Functions that have gangs, in ascending order. -/
def Device.vfs (d : Device) : List Nat := ((d.gangs.map Gang.vf).dedup).insertionSort fun a b => a ≤ b

/-! ## Placement (R328, R337, R353, R432) -/

/-- Numbers of the cores that no hart stands on and that are in service. -/
def State.freeCores (s : State) : List Nat :=
  (List.range Config.cores).filter fun n =>
    !s.dev.retiredCores.contains n && !(s.cores.any fun c => c.placed && c.num == n)

/-- A core replaced, wherever it stands. -/
def State.putCore (s : State) (c : Core) : State :=
  if s.core.num = c.num then { s with core := c }
  else { s with rest := c :: s.rest.filter fun x => x.num ≠ c.num }

/-- `hid` on a chip and core (Table 2-18). -/
def hidWord (chip core hart : Nat) : Word := BitVec.ofNat 64 (chip <<< 24 + core <<< 16 + hart)

/-- A hart at its gang's first placement: launch values, and zeros (R328). -/
def launchHart (d : Device) (g : Gang) (h : Nat) : Core :=
  { Core.reset with
    pc := g.desc.entry, gid := g.gid.setWidth 64, hid := hidWord d.chip.toNat 0 h, tokbud := g.desc.bud.setWidth 64 }

/-- The hart that a gang puts on a core: its saved state, or that of a launch. -/
def Device.hartFor (d : Device) (g : Gang) (h : Nat) : Core :=
  (d.saved.find? fun c => c.gang16 == g.gid && c.hart == h).getD (launchHart d g h)

/-- A hart stands on a core: it reports the new place, and `tvec` is the context's handler entry. -/
def State.seat (s : State) (g : Gang) (h n : Nat) : State :=
  let d := s.dev
  let c := d.hartFor g h
  let handler := ((d.ctx g.ctx).map Ctx.handler).getD 0
  let seq := ((s.cores.find? fun x => x.num == n).map Core.stampSeq).getD 0
  s.putCore { c with num := n, placed := true, hid := hidWord d.chip.toNat n h, stampSeq := seq,
                     t := { c.t with tvec := keep handler 54 2 } }

/-- The banks of harts that resume on other cores go with them, where their context owns them: `moves` pairs a hart's last
core with its new one. A bank that stands where one arrives takes a core that one has left (R344). -/
def Device.carryBanks (d : Device) (ctx : Nat) (moves : List (Nat × Nat)) : Device :=
  let owned (n : Nat) : Bool := (d.bankOf n).ctl.getLsbD 11 && wfield (d.bankOf n).ctl 10 0 == ctx
  let go := moves.filter fun m => owned m.1
  let src := go.map Prod.fst
  let dst := go.map Prod.snd
  let left := (src.filter fun n => !dst.contains n).zip (dst.filter fun n => !src.contains n)
  (go ++ left.map Prod.swap).foldl (fun e m => e.putBank { d.bankOf m.1 with core := m.2 }) d

/-- Every hart of the gang gets a core at one instant (R32, R337). -/
def State.placeGang (s : State) (g : Gang) (free : List Nat) : State :=
  let harts := ((List.range g.desc.harts).filter fun h => !g.halted.contains h).zip free
  let moves := harts.filterMap fun x =>
    (s.dev.saved.find? fun c => c.gang16 == g.gid && c.hart == x.1).map fun c => (c.num, x.2)
  let s := harts.foldl (fun s x => s.seat g x.1 x.2) s
  let root := ((s.dev.ctx g.ctx).map Ctx.root).getD 0
  let key := ((s.dev.ctx g.ctx).map Ctx.key).getD 0
  s.withDev fun d =>
    { (d.carryBanks g.ctx moves).updGang g.gid (fun g =>
        { g with st := .placed, placedBefore := true, root := root, key := key, order := d.order }) with
      order := d.order + 1
      saved := d.saved.filter fun c => c.gang16 != g.gid
      reserved := d.reserved.filter fun x => x != g.gid }

/-- A waiting gang that no longer fits is refused for reason 1, which ends a reservation that it holds (R422). -/
def Device.refuseUnfit (d : Device) : Device :=
  let waits (g : Gang) : Bool := g.st == .admitted || g.st == .preempted
  (d.gangs.filter fun g => waits g && decide (d.inService < g.desc.harts)).foldl
    (fun d g =>
      let r : Fin 2 := if g.ring1 then 1 else 0
      let w := (d.ringEntry (d.func g.vf) r g.pos).2
      let d := (d.updGang g.gid d.finalMarks).setEntry g.vf r g.pos
        (setField (setField w 63 62 2) 61 56 1)
      ({ d with saved := d.saved.filter fun c => c.gang16 != g.gid
                reserved := d.reserved.filter fun x => x != g.gid }).closeAudit g.ctx) d

/-! ## Pre-emption requests (R338) -/

/-- A request reaches every hart of a placed gang; requests for a hart already leaving merge. -/
def State.requestPreempt (s : State) (gid : BitVec 16) : State :=
  if (s.dev.liveGang gid).any fun g => g.st == .placed then
    let ask (c : Core) : Core := if c.placed ∧ c.gang16 = gid then { c with preempt := true } else c
    { s with core := ask s.core, rest := s.rest.map ask }
  else s

/-- Placed gangs that a candidate outranks: lowest priority first, most recently placed first. -/
def Device.outranked (d : Device) (g : Gang) : List Gang :=
  (d.gangs.filter fun x => x.st == .placed && decide (x.desc.prio < g.desc.prio)).insertionSort fun a b =>
    a.desc.prio < b.desc.prio ∨ a.desc.prio = b.desc.prio ∧ b.order ≤ a.order

/-- Cores on which the harts of a gang stand. -/
def State.coresOf (s : State) (gid : BitVec 16) : Nat := (s.cores.filter fun c => c.placed && c.gang16 == gid).length

/-- Gangs asked to leave until the cores that they free are enough. -/
def State.makeRoom (s : State) (want : Nat) : List Gang → Nat → State
  | [], _ => s
  | x :: xs, have_ => if want ≤ have_ then s else (s.requestPreempt x.gid).makeRoom want xs (have_ + s.coresOf x.gid)

/-- Gangs that hold a reservation, the first of them first. -/
def State.reservedGangs (s : State) : List Gang := s.dev.reserved.filterMap s.dev.liveGang

/-- A candidate reserves the free cores, after those that have reserved before it. -/
def State.reserveFor (s : State) (g : Gang) : State :=
  let s := s.withDev fun d => { d with reserved := d.reserved ++ [g.gid] }
  s.makeRoom ((s.reservedGangs.map fun x => x.desc.harts).sum) (s.dev.outranked g) s.freeCores.length

/-- PREEMPTION_REQUEST. -/
def execPreemptionRequest (gid : BitVec 16) (s : State) : Result := .next (s.requestPreempt gid)

/-- PREEMPT_GANG_WRITE: a function names one of its gangs at offset 0x048; V reads 0. -/
def execPreemptGangWrite (vf : Nat) (gid : BitVec 16) (s : State) : Result :=
  let s := s.withDev fun d => d.updFunc vf fun f => { f with preGid := gid.setWidth 64 }
  .next (if (s.dev.liveGang gid).any fun g => g.vf == vf then s.requestPreempt gid else s)

/-- TIME_SLICE_EXPIRY: a candidate of equal priority from another function has waited with D at least its HARTS. -/
def execTimeSliceExpiry (gid : BitVec 16) (s : State) : Result :=
  match s.dev.liveGang gid with
  | none => .next s
  | some g =>
    let waits (vf : Nat) : Bool := vf != g.vf &&
      (s.candidates vf g.desc.prio).any fun c => decide (c.desc.harts ≤ (s.dev.func vf).deficit)
    .next (if s.dev.vfs.any waits then s.requestPreempt gid else s)

/-- GRACE_EXPIRY (R38, R423, R424): the request is pending and its timer runs; every unit settles, then the stop with
cause 0x16 is taken. -/
def execGraceExpiry (core : Nat) (s : State) : Result :=
  .next (s.onCore core fun t =>
    let c := t.core
    let frozen := (t.gang.map t.gangFrozen).getD false
    if c.placed && c.preempt && !(c.graceHeld && c.kmode) && !frozen && c.stopped.isNone && c.trapWait.isNone then
      t.stopByForce
    else t)

/-! ## The dispatcher (R336) -/

/-- Free cores that no reservation holds. -/
def State.openCores (s : State) : List Nat := if s.dev.reserved.isEmpty then s.freeCores else []

/-- A candidate is placed, and its function pays. -/
def State.placeFor (s : State) (g : Gang) : State :=
  (s.placeGang g s.freeCores).withDev fun d =>
    d.updFunc g.vf fun f => { f with deficit := f.deficit - g.desc.harts }

/-- Cores given to one function's candidates of a priority: the state, whether a gang was placed, and whether a
reservation stops the round. -/
def State.serveFunction (vf prio : Nat) : Nat → State → Bool → State × Bool × Bool
  | 0, s, p => (s, p, false)
  | k + 1, s, p =>
    match s.candidate vf prio with
    | none => (s, p, false)
    | some g =>
      if (s.dev.func vf).deficit < g.desc.harts then (s, p, false)
      else if s.openCores.length < g.desc.harts then (s.reserveFor g, p, true)
      else State.serveFunction vf prio k (s.placeFor g) true

/-- The functions with a candidate of a priority, in turn. -/
def State.servePriority (prio : Nat) : List Nat → State → Bool → State × Bool × Bool
  | [], s, p => (s, p, false)
  | f :: fs, s, p =>
    let s := s.withDev fun d =>
      { d.updFunc f (fun x => { x with deficit := x.deficit + wfield x.fair 7 0 * 8 }) with lastServed := f }
    let r := s.serveFunction f prio (s.dev.gangs.length + 1) p
    if r.2.2 then r else State.servePriority prio fs r.1 r.2.1

/-- Functions after the one last served come first. -/
def State.servingOrder (s : State) (prio : Nat) : List Nat :=
  let l := s.dev.vfs.filter fun f => (s.candidate f prio).isSome
  l.filter (fun f => decide (s.dev.lastServed < f)) ++ l.filter fun f => decide (f ≤ s.dev.lastServed)

/-- A priority is repeated while it placed a gang and cores remain free. -/
def State.repeatPriority (prio : Nat) : Nat → State → State × Bool
  | 0, s => (s, false)
  | k + 1, s =>
    let r := s.servePriority prio (s.servingOrder prio) false
    if r.2.2 then (r.1, true)
    else if r.2.1 && !r.1.openCores.isEmpty then State.repeatPriority prio k r.1
    else (r.1, false)

/-- Priorities from the highest down. -/
def State.priorities : List Nat → State → State
  | [], s => s
  | p :: ps, s =>
    let r := s.repeatPriority p (s.dev.gangs.length + 1)
    if r.2 then r.1 else State.priorities ps r.1

/-- A function that holds no candidate at any priority has no deficit. -/
def State.clearDeficits (s : State) : State :=
  let holds (f : Nat) : Bool := (List.range 16).any fun p => (s.candidate f p).isSome
  s.withDev fun d => { d with funcs := d.funcs.map fun f => if holds f.num then f else { f with deficit := 0 } }

def roundPriorities : List Nat := [15, 14, 13, 12, 11, 10, 9, 8, 7, 6, 5, 4, 3, 2, 1, 0]

/-- A gang that holds a reservation may be placed now: it is still a candidate, and the free cores are enough. -/
def State.mayPlace (s : State) (g : Gang) : Bool :=
  (g.st == .admitted || (g.st == .preempted && !s.gangFrozen g)) && !s.dev.ctxHeld g.ctx &&
    decide (g.desc.harts ≤ s.freeCores.length)

/-- Gangs that hold reservations are placed with no further credit, the first of them first, while each fits. -/
def State.serveReserved : Nat → State → State
  | 0, s => s
  | k + 1, s =>
    match s.reservedGangs with
    | [] => s
    | g :: _ => if s.mayPlace g then State.serveReserved k (s.placeFor g) else s

/-- DISPATCH_ROUND: reservations that fit now, then the priorities from the highest down; while a reservation waits, those
above it are still served, and find no free core, so that their candidates can only reserve in turn. Functions at its own priority
are not served while it waits: DESIGN CHOICE, the pseudocode leaves open whether its stop ends that priority's own turn (log 76). -/
def execDispatchRound (s : State) : Result :=
  let waits (g : Gang) : Bool := g.st == .admitted || g.st == .preempted
  let s := s.withDev fun d =>
    ({ d with reserved := d.reserved.filter fun gid => (d.liveGang gid).any waits }).refuseUnfit
  let s := State.serveReserved s.dev.reserved.length s
  let over_ := roundPriorities.filter fun p => s.reservedGangs.all fun g => decide (g.desc.prio < p)
  .next (s.priorities over_).clearDeficits

/-! ## Groups and function resets -/

/-- COLLECTIVE_GROUP_BIND (R339): the set holds this package, each chip once. -/
def execCollectiveGroupBind (ctx grp : Nat) (chips : List Nat) (s : State) : Result :=
  let set_ := (chips.dedup).insertionSort fun a b => a ≤ b
  if set_.contains s.dev.chip.toNat then
    .next (s.withDev fun d => d.updCtx ctx fun c => { c with groups := (grp, set_) :: c.groups.filter fun g => g.1 ≠ grp })
  else .next s

/-- FUNCTION_LEVEL_RESET (Table 25-4): every gang of the function's contexts ends, and its rings read empty. -/
def execFunctionLevelReset (vf : Nat) (s : State) : Result :=
  let gids := (s.dev.gangs.filter fun g => g.vf == vf && g.st != .ended).map Gang.gid
  let s := gids.foldl State.destroy s
  .next (s.withDev fun d => d.updFunc vf fun f =>
    { f with head := f.tail, next := .ofFn fun r => f.tailN r, frozen := false })

end Sys2Proof.Machine
end

