-- ==== Sys2Proof/Machine/Pages.lean ====
section
/-! DEFINITION. Page service, translation and migration of pages, the frame ownership table, host DMA, and memory errors
with the retirement of units (spec/04 R93 to R102, R115 to R118, spec/22 R409 to R422). -/

namespace Sys2Proof.Machine

/-- An event that cannot complete yet stays due. -/
def State.stayDue (s : State) : Result := .next s.stall

/-- The stamp of a record that no core writes (log 8). -/
def State.deviceStamp (s : State) : Word × State := (s.dev.stamp.1, { s with dev := s.dev.stamp.2 })

/-- A notice for the kernel or the host. -/
def State.post (s : State) (n : Notice) : State := s.withDev fun d => { d with posted := d.posted ++ [n] }

/-! ## Frames (R115, R118) -/

/-- An ownership entry written; the reset value is not listed. -/
def setFrameEntry : List (Nat × Word) → Nat → Word → List (Nat × Word)
  | [], f, e => if e = 0x800000 then [] else [(f, e)]
  | p :: l, f, e =>
    if f < p.1 then (if e = 0x800000 then p :: l else (f, e) :: p :: l)
    else if f = p.1 then (if e = 0x800000 then l else (f, e) :: l)
    else p :: setFrameEntry l f e

def Device.putFrame (d : Device) (f : Nat) (e : Word) : Device := { d with frames := setFrameEntry d.frames f e }

/-- Whether a line number lies in a frame. -/
def lineInFrame (f l : Nat) : Bool := l / 1024 == f

/-- A frame zeroed, every line of it whole. -/
def Device.zeroFrame (d : Device) (f : Nat) : Device :=
  { d with dram := d.dram.clear (f * 65536) 65536, poison := d.poison.filter fun l => !lineInFrame f l }

/-- The entry of a frame that a context owns under a key. -/
def ownedEntry (ctx key : Nat) : Word := BitVec.ofNat 64 (key <<< 11 + ctx)

/-- A running gang keeps the ROOT and KEY that it was placed with; otherwise the descriptor gives them (R353). -/
def Device.placedIn (d : Device) (ctx : Nat) : Option Gang := d.gangs.find? fun g => g.ctx == ctx && g.st == .placed
def Device.rootOf (d : Device) (c : Ctx) : Nat := ((d.placedIn c.id).map Gang.root).getD c.root
def Device.keyOf (d : Device) (c : Ctx) : Nat := ((d.placedIn c.id).map Gang.key).getD c.key

/-! ## Tables and leaves of a context -/

/-- Indices of the entries of a table that any byte is listed for. -/
def Memory.listed (m : Memory) (base : Nat) : List Nat :=
  ((m.filter fun c => decide (base ≤ c.1 ∧ c.1 < base + 65536)).map fun c => (c.1 - base) / 8).dedup

/-- The leaves below a root, each with the address it maps. -/
def Device.leaves (d : Device) (root : Nat) : List (Nat × Leaf) :=
  let m := d.dram
  (m.listed root).flatMap fun i =>
    let e1 := m.num 8 (root + 8 * i)
    if !eV e1 || malformed e1 1 then []
    else
      (m.listed (eFrame e1)).flatMap fun j =>
        let a2 := eFrame e1 + 8 * j
        let e2 := m.num 8 a2
        let va2 := i <<< 42 + j <<< 29
        if !eV e2 || malformed e2 2 then []
        else if eL e2 then [(va2, ⟨e2, a2, true⟩)]
        else
          (m.listed (eFrame e2)).filterMap fun k =>
            let a3 := eFrame e2 + 8 * k
            let e3 := m.num 8 a3
            if !eV e3 || malformed e3 3 then none else some (va2 + k <<< 16, ⟨e3, a3, false⟩)

/-- The entries below a root that name a table, each with its address. -/
def Device.tableSlots (d : Device) (root : Nat) : List (Nat × Nat) :=
  let m := d.dram
  let named (base level : Nat) : List (Nat × Nat) :=
    ((m.listed base).map fun i => (base + 8 * i, m.num 8 (base + 8 * i))).filter fun x =>
      eV x.2 && !malformed x.2 level && !eL x.2
  (named root 1).flatMap fun x => x :: named (eFrame x.2) 2

/-- The roots in use. -/
def Device.roots (d : Device) : List Nat := (d.ctxs.map Ctx.root ++ d.gangs.map Gang.root).dedup

/-- A table entry written. -/
def Device.putEntry (d : Device) (a e : Nat) : Device := { d with dram := d.dram.setNum 8 a e }

/-- A leaf's entry with another frame. -/
def reframe (e f : Nat) : Nat := e - field e 47 16 <<< 16 + f <<< 16

/-! ## Frames that the kernel takes and moves -/

/-- The rings in device memory: base and bytes (Tables 12-3, 13-6, 14-1). A register that holds 0 gives no ring until it is
enabled. -/
def Device.rings (d : Device) : List (Nat × Nat) :=
  (d.ctxs.flatMap fun c => [(c.aud, 2 ^ (c.alog + 1) * 4096 + 64), (c.trap, 64 + 64 * 2 ^ c.tlog)]) ++
  (d.funcs.flatMap fun f =>
    ([0, 1] : List (Fin 2)).filterMap fun r =>
      if f.base[r] = 0 && !f.enabled r then none else some ((f.base[r]).toNat, 16 * f.entries r)) ++
  (d.tracers.flatMap fun t =>
    (if t.base = 0 && !t.ctl.getLsbD 0 then [] else [(t.base.toNat, 64 * t.size)]) ++
      (t.guest.map fun g => (g.base.toNat, 64 * ({ t with ctl := g.ctl } : Tracer).size)).toList)

/-- Physical ranges that rings and tables occupy. -/
def Device.claimed (d : Device) : List (Nat × Nat) :=
  d.rings ++ (d.roots.map fun r => (r, 65536)) ++ ((d.roots.flatMap d.tableSlots).map fun x => (eFrame x.2, 65536))

/-- A range meets a frame. -/
def meetsFrame (f : Nat) (r : Nat × Nat) : Bool := decide (r.1 < (f + 1) * 65536 ∧ f * 65536 < r.1 + r.2)

/-- A frame that the kernel may take: in service, owned by no context. -/
def Device.mayTake (d : Device) (f : Nat) : Bool :=
  decide (f < Config.frames) && d.frameEntry f == 0x800000 && !d.retiredUnits.contains (.frame f)

/-- A frame that holds something: a byte that is not zero, a ring or a table. -/
def Device.holds (d : Device) (f : Nat) : Bool :=
  (d.dram.any fun c => c.1 / 65536 == f) || d.claimed.any (meetsFrame f)

/-- A frame that is free to take and holds nothing. -/
def Device.unused (d : Device) (f : Nat) : Bool := d.mayTake f && !d.holds f

/-- The highest unused frame below `n` that is none of some: the kernel's choice (log 22). -/
def Device.freshBelow (d : Device) (but : List Nat) : Nat → Option Nat
  | 0 => none
  | n + 1 => if d.unused n && !but.contains n then some n else d.freshBelow but n

/-- A fresh frame. -/
def Device.fresh (d : Device) : Option Nat := d.freshBelow [] Config.frames

/-- Bytes of a range that stand elsewhere, after a copy. -/
def Memory.copyRange (src : Memory) (a : Nat) (dst : Memory) (b n : Nat) : Memory :=
  (src.filter fun c => decide (a ≤ c.1 ∧ c.1 < a + n)).foldl (fun m c => m.set (b + (c.1 - a)) c.2) (dst.clear b n)

/-- A leaf of 512 MiB becomes a table of leaves of 64 KiB in frame `t`. -/
def Device.splitLeaf (d : Device) (l : Leaf) (t : Nat) : Device :=
  let f := field l.entry 47 16
  (foldN 8192 (fun i d => d.putEntry (t * 65536 + 8 * i) (reframe l.entry (f + i))) (d.zeroFrame t)).putEntry l.at_
    (1 + t <<< 16)

/-- Whether a leaf maps a frame of device memory. -/
def Leaf.maps (l : Leaf) (f : Nat) : Bool :=
  let b := field l.entry 47 16
  !eH l.entry && decide (eAttr l.entry < 2) && decide (b ≤ f ∧ f < b + (if l.big then 8192 else 1))

/-- One leaf that maps frame `f` now maps frame `g` (R421); one of 512 MiB is split into a table in a frame of those given. -/
def Device.moveLeaf (f g : Nat) (x : Device × List Nat) (l : Leaf) : Device × List Nat :=
  if !l.maps f then x
  else if !l.big then (x.1.putEntry l.at_ (reframe l.entry g), x.2)
  else
    match x.2 with
    | [] => x
    | t :: ts => ((x.1.splitLeaf l t).putEntry (t * 65536 + 8 * (f - field l.entry 47 16)) (reframe l.entry g), ts)

/-- Leaves of 512 MiB that map a frame. -/
def Device.bigLeaves (d : Device) (f : Nat) : Nat :=
  ((d.roots.flatMap fun r => (d.leaves r).map Prod.snd).filter fun l => l.big && l.maps f).length

/-- An address in frame `f` as it is in frame `g`. -/
def rebase (f g a : Nat) : Nat := if a / 65536 = f then g * 65536 + a % 65536 else a

def Place.rebase (f g : Nat) : Place → Place
  | .dram a => .dram (Machine.rebase f g a)
  | p => p

/-- The rings' bases follow a frame that moves. -/
def Device.followRings (d : Device) (f g : Nat) : Device :=
  let word (w : Word) : Word := BitVec.ofNat 64 (rebase f g w.toNat)
  { d with
    ctxs := d.ctxs.map fun (c : Ctx) =>
      { c with desc := ((c.desc.set 0 (word c.desc[0])).set 4 (word c.desc[4])).set 6 (word c.desc[6]) }
    funcs := d.funcs.map fun (x : Func) => { x with base := x.base.map word }
    tracers := d.tracers.map fun (t : Tracer) =>
      { t with base := word t.base, guest := t.guest.map fun (x : GuestTrace) => { x with base := word x.base } } }

/-- A frame's bytes, poison and entry go to another frame; its leaves follow, with `ts` for the tables of those that split, and
for a frame of the kernel the entries, roots and rings that name it (R421, R447). -/
def Device.moveFrame (d : Device) (f g : Nat) (ts : List Nat) : Device :=
  let e := d.frameEntry f
  let slots := d.roots.flatMap d.tableSlots
  let lvs := (d.roots.flatMap fun r => (d.leaves r).map Prod.snd).map fun l => { l with at_ := rebase f g l.at_ }
  let spoilt := (d.poison.filter (lineInFrame f)).map fun l => l - 1024 * f + 1024 * g
  let d := ({ d with
    dram := d.dram.copyRange (f * 65536) d.dram (g * 65536) 65536
    poison := spoilt ++ d.poison.filter fun l => !lineInFrame g l
    gangs := d.gangs.map fun (x : Gang) => { x with root := rebase f g x.root } }).followRings f g
  let d := ((d.putFrame g e).putFrame f 0x800000).zeroFrame f
  let d := slots.foldl (fun d x =>
    if field x.2 47 16 = f then d.putEntry (rebase f g x.1) (reframe x.2 g) else d) d
  (lvs.foldl (Device.moveLeaf f g) (d, ts)).1

/-- What a core keeps of a frame that has moved: translations and held stores follow, fetched lines go. -/
def Core.follow (f g : Nat) (c : Core) : Core :=
  let pin (e : QEntry) : QEntry := { e with pins := e.pins.map fun p => { p with place := p.place.rebase f g } }
  let here (l : Nat × BitVec 512) : Bool := !lineInFrame f l.1 && !lineInFrame g l.1
  { c with
    vec := c.vec.map pin, mat := c.mat.map pin, cpy := c.cpy.map pin, col := c.col.map pin
    region := c.region.map fun r =>
      { r with held := r.held.map fun h => { h with place := h.place.rebase f g }, retired := r.retired.map pin }
    icache := c.icache.filter here, bcache := c.bcache.filter here }

/-- A frame moves to another. -/
def State.moveFrame (s : State) (f g : Nat) (ts : List Nat) : State :=
  { s with core := s.core.follow f g, rest := s.rest.map (Core.follow f g), dev := s.dev.moveFrame f g ts }

/-- The frames from `lo` to `hi` and those that must stay beside them: a ring that meets one of them is one piece. -/
def Device.runOf (d : Device) : Nat → Nat → Nat → Nat × Nat
  | 0, lo, hi => (lo, hi)
  | k + 1, lo, hi =>
    let l := d.rings.filter fun r => decide (r.1 < (hi + 1) * 65536 ∧ lo * 65536 < r.1 + r.2)
    d.runOf k (l.foldl (fun a r => min a (r.1 / 65536)) lo) (l.foldl (fun a r => max a ((r.1 + r.2 - 1) / 65536)) hi)

/-- The highest run of `k` unused frames side by side below `n`, none of some: the kernel's choice (log 22). -/
def Device.freshRun (d : Device) (but : List Nat) (k : Nat) : Nat → Option Nat
  | 0 => none
  | n + 1 =>
    if decide (n + k ≤ Config.frames) && (upTo (n + k) n).all fun f => d.unused f && !but.contains f then some n
    else d.freshRun but k n

/-- Unused frames, none of some. -/
def Device.freshList (d : Device) : Nat → List Nat → Option (List Nat)
  | 0, _ => some []
  | k + 1, but => (d.freshBelow but Config.frames).bind fun t => (d.freshList k (t :: but)).map fun l => t :: l

/-- The measurement of a frame (R359). -/
def Device.measure (d : Device) (f : Nat) : BitVec 256 := BitVec.ofNat 256 (ofBytes (sha3 (d.dram.read 65536 (f * 65536))))

def Device.enterTag (d : Device) (t : BitVec 32) (m : BitVec 256) : Device :=
  { d with tags := (t, m) :: d.tags.filter fun p => p.1 != t }

def entryTag (e : Word) : BitVec 32 := BitVec.ofNat 32 (wfield e 63 32)
def entryKey (e : Word) : Nat := wfield e 20 11
def entrySealed (e : Word) : Bool := e.getLsbD 21

/-- A sealed frame measures as its TAG says (R421). -/
def Device.sealSame (d : Device) (f : Nat) : Bool :=
  let e := d.frameEntry f
  !entrySealed e || (d.tags.find? fun p => p.1 == entryTag e).any fun p => p.2 == d.measure f

/-- A frame is copied to a fresh one that is none of some, with the rest of a ring that stands in it, and everything that names it
follows; none when a sealed frame does not measure as its TAG says, or the room is not there (R421, R447). -/
def State.relocate (s : State) (but : List Nat) (f : Nat) : Option State :=
  let d := s.dev
  let r := d.runOf (d.rings.length + 1) f f
  let old := upTo (r.2 + 1) r.1
  if !old.all d.sealSame then none
  else
    match d.freshRun but old.length Config.frames with
    | none => none
    | some g =>
      let need (f : Nat) : Nat := d.bigLeaves f
      (d.freshList ((old.map need).sum) (but ++ upTo (g + old.length) g)).map fun ts =>
        (old.foldl (fun (x : State × List Nat) f =>
          (x.1.moveFrame f (f - r.1 + g) (x.2.take (need f)), x.2.drop (need f))) (s, ts)).1

/-! ## Page service (R412) -/

/-- The table that an entry names: an entry that is not valid, or malformed, first gets a fresh table (R95). -/
def Device.tableAt (d : Device) (slot level : Nat) (frames : List Nat) : Option (Nat × Device × List Nat) :=
  let e := d.dram.num 8 slot
  if eV e && !malformed e level then (if eL e then none else some (eFrame e, d, frames))
  else
    match frames with
    | [] => none
    | t :: fs => if d.mayTake t then some (t * 65536, (d.zeroFrame t).putEntry slot (1 + t <<< 16), fs) else none

/-- A leaf of 64 KiB written at an address, with the tables above it. -/
def Device.putLeaf (d : Device) (root va leaf : Nat) (frames : List Nat) : Option (Device × List Nat) :=
  match d.tableAt (root + 8 * field va 54 42) 1 frames with
  | none => none
  | some (t2, d, frames) =>
    match d.tableAt (t2 + 8 * field va 41 29) 2 frames with
    | none => none
    | some (t3, d, frames) => some (d.putEntry (t3 + 8 * field va 28 16) leaf, frames)

/-- The leaf of a region: the bits that Yelnis recorded, A and D clear. -/
def Reserved.leaf (r : Reserved) (f : Nat) : Nat :=
  3 + r.rd.toNat <<< 4 + r.wr.toNat <<< 5 + r.fx.toNat <<< 6 + r.us.toNat <<< 7 + r.attr.toNat <<< 10 + f <<< 16

/-- A fresh frame, under the key that the gang was placed with, mapped at a page of a reserved region. -/
def Device.mapPage (d : Device) (g : Gang) (page : Nat) (r : Reserved) (frames : List Nat) :
    Option (Device × List Nat) :=
  match frames with
  | [] => none
  | f :: fs =>
    if !d.mayTake f then none
    else ((d.zeroFrame f).putFrame f (ownedEntry g.ctx g.key)).putLeaf g.root (page * 65536) (r.leaf f) fs

/-- What the service of one page comes to. -/
inductive Served where
  | done
  | pending
  | refused
  deriving DecidableEq, Repr

/-- One page of a batch. -/
def Device.servePage (c : Ctx) (g : Gang) (d : Device) (frames : List Nat) (p : PageReq) :
    Served × Device × List Nat :=
  match walk d.dram g.root (p.page * 65536) with
  | some l =>
    if eH l.entry && !(d.hostPages.any fun h => h.1 == c.pasid && h.2.1 == p.page) then
      (.pending, { d with posted := d.posted ++ [.pri c.pasid p.page] }, frames)
    else (.done, d, frames)
  | none =>
    match c.regions.find? fun r => decide (r.page ≤ p.page ∧ p.page < r.page + r.pages) with
    | none => (.refused, d, frames)
    | some r =>
      match d.mapPage g p.page r frames with
      | some (d, fs) => (.done, d, fs)
      | none => (.pending, d, frames)

/-- The pages of a batch in turn: whether one is refused, whether one is pending. -/
def Device.servePages (c : Ctx) (g : Gang) : List PageReq → List Nat → Bool → Bool → Device → Bool × Bool × Device
  | [], _, r, w, d => (r, w, d)
  | p :: ps, fs, r, w, d =>
    let x := d.servePage c g fs p
    Device.servePages c g ps x.2.2 (r || x.1 == .refused) (w || x.1 == .pending) x.2.1

/-- The batch with this number, answered (R413): one that has been refused waits no more. -/
def Core.answer (c : Core) (seq : Nat) (refused : Bool) : Core :=
  let here (b : Batch) : Bool := b.seq == some seq && !b.refused
  if refused then { c with batches := c.batches.map fun b => if here b then { b with refused := true } else b }
  else { c with batches := c.batches.filter fun b => !here b }

def State.answerBatch (s : State) (ctx seq : Nat) (refused : Bool) : State :=
  let f (c : Core) : Core := if s.ctxOf c = ctx then c.answer seq refused else c
  { s with core := f s.core, rest := s.rest.map f }

/-- PAGE_SERVICE: the management cores serve the oldest unanswered batch of a hart that the host is not to answer,
with frames of the kernel's choice. -/
def execPageService (core : Nat) (frames : List Nat) (s : State) : Result :=
  match s.findCore core with
  | none => .next s
  | some c =>
    match s.dev.liveGang c.gang16 with
    | none => .next s
    | some g =>
      match s.dev.ctx g.ctx with
      | none => .next s
      | some x =>
        let mine (b : Batch) : Bool := !b.refused &&
          (match b.seq with
           | none => false
           | some n => !s.dev.posted.contains (.batch g.ctx n))
        match c.batches.find? mine with
        | none => .next s
        | some b =>
          let r := s.dev.servePages x g b.pages frames false false
          let s := { s with dev := r.2.2 }
          .next (if r.1 then s.answerBatch g.ctx (b.seq.getD 0) true
            else if r.2.1 then s
            else s.answerBatch g.ctx (b.seq.getD 0) false)

/-- FAULT_RESPONSE_WRITE (Table 22-2): the host's answer to a batch that was posted to it. -/
def execFaultResponseWrite (v : BitVec 64) (s : State) : Result :=
  let ctx := wfield v 58 48
  let seq := wfield v 31 0
  let s := s.withDev fun d => { d with faultResp := v &&& 0x7FF0000FFFFFFFF#64 }
  .next (if s.dev.posted.contains (.batch ctx seq) then
      (match wfield v 63 62 with
       | 1 => s.answerBatch ctx seq false
       | 2 => s.answerBatch ctx seq true
       | _ => s)
    else s)

/-! ## Host pages, invalidation, migration (R97, R100 to R102) -/

/-- The host's page for an address of a PASID; a translation of the address that was kept is dropped. -/
def Device.bindHost (d : Device) (pasid page : Nat) (host : Option Nat) : Device :=
  let other (p : Nat × Nat × Nat) : Bool := !(p.1 == pasid && p.2.1 == page)
  let l := d.hostPages.filter other
  { d with
    atc := d.atc.filter other
    hostPages := match host with
      | some h => (pasid, page, h) :: l
      | none => l }

/-- A batch that waits for a host page which the host will not make present is refused. -/
def State.priDenied (s : State) (pasid page : Nat) : State :=
  let f (c : Core) : Core :=
    if ((s.dev.ctx (s.ctxOf c)).map Ctx.pasid) = some pasid then
      { c with batches := c.batches.map fun b =>
          if b.seq.isSome && b.pages.any fun p => p.hp && p.page == page then { b with refused := true } else b }
    else c
  { s with core := f s.core, rest := s.rest.map f }

/-- PRI_PAGE_RESPONSE. -/
def execPriPageResponse (pasid vpage : Nat) (present : Bool) (hostPage : Nat) (s : State) : Result :=
  let t := s.withDev fun d => d.bindHost pasid vpage (if present then some hostPage else none)
  .next (if present then t else t.priDenied pasid vpage)

/-- A hart of the context holds a store that was translated in a range (R264). -/
def State.heldIn (s : State) (ctx va bytes : Nat) : Bool :=
  s.cores.any fun c => c.placed && s.ctxOf c == ctx &&
    (c.region.any fun r => r.held.any fun h =>
      (match h.place with
       | .spad _ => false
       | _ => decide (va ≤ h.addr.toNat ∧ h.addr.toNat < va + bytes)))

/-- A translation of a page in a range. -/
def Pin.within (p : Pin) (va bytes : Nat) : Bool :=
  decide (p.page * 65536 < va + bytes ∧ va < (p.page + 1) * 65536) &&
    (match p.place with
     | .spad _ => false
     | _ => true)

/-- Translations in a range that are in use: by a store that a hamper holds, or by a word past its fault point (R390). A
parked word is no user: it may translate again. -/
def State.inUse (s : State) (ctx va bytes : Nat) : Bool :=
  s.heldIn ctx va bytes || s.cores.any fun c => c.placed && s.ctxOf c == ctx &&
    c.words.any fun e => !e.parked && e.pins.any fun p => p.within va bytes

/-- Parked words give up the translations in a range. -/
def State.unpinIn (s : State) (ctx va bytes : Nat) : State :=
  let drop (e : QEntry) : QEntry := if e.parked && e.pins.any (fun p => p.within va bytes) then e.unpin else e
  let f (c : Core) : Core :=
    if s.ctxOf c = ctx then
      { c with vec := c.vec.map drop, mat := c.mat.map drop, cpy := c.cpy.map drop, col := c.col.map drop }
    else c
  { s with core := f s.core, rest := s.rest.map f }

/-- Contexts of a PASID. -/
def Device.ofPasid (d : Device) (pasid : Nat) : List Nat := (d.ctxs.filter fun c => c.pasid == pasid).map Ctx.id

/-- ATS_INVALIDATION: kept translations of host pages are dropped once none of them is in use; the next access asks the host
again (R100, R101). -/
def execAtsInvalidation (pasid vpage npages : Nat) (s : State) : Result :=
  let va := vpage * 65536
  let n := npages * 65536
  let l := s.dev.ofPasid pasid
  if l.any fun c => s.inUse c va n then s.stayDue
  else
    .next ((l.foldl (fun s c => s.unpinIn c va n) s).withDev fun d =>
      { d with atc := d.atc.filter fun p => !(p.1 == pasid && decide (vpage ≤ p.2.1 ∧ p.2.1 < vpage + npages)) })

/-- TRANSLATION_INVALIDATION: walks read the tables as they stand; the invalidation completes when no translation found in
the range is still in use (R97). -/
def execTranslationInvalidation (ctx : Nat) (va : BitVec 64) (bytes : Nat) (s : State) : Result :=
  if s.inUse ctx va.toNat bytes then s.stayDue else .next (s.unpinIn ctx va.toNat bytes)

/-- Bytes, poison and leaf of a page moved to host memory. -/
def Device.pageToHost (d : Device) (c : Ctx) (l : Leaf) (page host n : Nat) : Device :=
  let a := eFrame l.entry
  let spoilt := (d.poison.filter fun x => decide (a / 64 ≤ x ∧ x < (a + n) / 64)).map fun x => x - a / 64 + host * 1024
  let d := { d with
    host := d.dram.copyRange a d.host (host * 65536) n
    hostPoison := spoilt ++ d.hostPoison.filter fun x => decide (x < host * 1024 ∨ host * 1024 + n / 64 ≤ x) }
  (foldN (n / 65536) (fun i d => d.bindHost c.pasid (page + i) (some (host + i))) d).putEntry l.at_
    (reframe l.entry 0 + 1 <<< 63)

/-- A page of host memory moved into frames of the context. -/
def Device.pageToDevice (d : Device) (c : Ctx) (l : Leaf) (page f n : Nat) : Device :=
  foldN (n / 65536) (fun i d =>
    match d.hostPages.find? fun p => p.1 == c.pasid && p.2.1 == page + i with
    | none => (d.zeroFrame (f + i)).putFrame (f + i) (ownedEntry c.id (d.keyOf c))
    | some p =>
      let spoilt := (d.hostPoison.filter (lineInFrame p.2.2)).map fun x => x - p.2.2 * 1024 + (f + i) * 1024
      { (d.zeroFrame (f + i)).putFrame (f + i) (ownedEntry c.id (d.keyOf c)) with
        dram := d.host.copyRange (p.2.2 * 65536) d.dram ((f + i) * 65536) 65536
        poison := spoilt ++ d.poison.filter fun x => !lineInFrame (f + i) x })
    (d.putEntry l.at_ (reframe l.entry f - 1 <<< 63))

/-- PAGE_MIGRATION: the first step holds back writes to the page, the second copies it and rewrites its leaf. -/
def execPageMigration (ctx : Nat) (va : BitVec 64) (toHost : Bool) (page : Nat) (s : State) : Result :=
  match s.dev.ctx ctx with
  | none => .next s
  | some c =>
    match walk s.dev.dram (s.dev.rootOf c) va.toNat with
    | none => .next s
    | some l =>
      let n := if l.big then 2 ^ 29 else 65536
      let base := va.toNat / n * n
      let pages := (List.range (n / 65536)).map fun i => (ctx, base / 65536 + i)
      let here := base / 65536
      let room := (List.range (n / 65536)).all fun i => s.dev.mayTake (page + i)
      if eH l.entry == toHost || (!eH l.entry && eAttr l.entry == 2) then .next s
      else if !toHost && (!room || page % (n / 65536) ≠ 0) then .next s
      else if s.inUse ctx base n then s.stayDue
      else if !s.dev.migrating.contains (ctx, here) then
        .next (s.withDev fun d => { d with migrating := pages ++ d.migrating })
      else
        let d := if toHost then s.dev.pageToHost c l here page n else s.dev.pageToDevice c l here page n
        .next { s.unpinIn ctx base n with dev := { d with migrating := d.migrating.filter fun p => !pages.contains p } }

/-! ## The frame ownership table (R118) and host DMA (R116, R415) -/

/-- Kept lines of a frame leave the fetch caches. -/
def Core.purgeFrame (c : Core) (f : Nat) : Core :=
  { c with icache := c.icache.filter fun l => !lineInFrame f l.1, bcache := c.bcache.filter fun l => !lineInFrame f l.1 }

/-- A place in a frame. -/
def Place.inFrame (f : Nat) : Place → Bool
  | .dram a => a / 65536 == f
  | _ => false

/-- A frame that a word past its fault point, or a store that a hamper holds, has still to reach: the check that it has
passed stands until then (R390, R414). -/
def State.frameInUse (s : State) (f : Nat) : Bool :=
  s.cores.any fun c =>
    (c.words.any fun e => !e.parked && e.pins.any fun p => p.place.inFrame f) ||
      c.region.any fun r => r.held.any fun h => h.place.inFrame f

/-- Parked words give up translations to a frame. -/
def Core.unpinFrame (f : Nat) (c : Core) : Core :=
  let drop (e : QEntry) : QEntry := if e.pins.any (fun p => p.place.inFrame f) then e.unpin else e
  { c with vec := c.vec.map drop, mat := c.mat.map drop, cpy := c.cpy.map drop, col := c.col.map drop }

/-- FRAME_TABLE_UPDATE: a seal is set once the measurement stands under TAG, and cleared on a zeroed frame. The update
completes once no access that has passed the old entry's check is still to come (log 70). -/
def execFrameTableUpdate (frame : Nat) (entry : BitVec 64) (s : State) : Result :=
  if Config.frames ≤ frame then .next s
  else if s.frameInUse frame then s.stayDue
  else
    let old := s.dev.frameEntry frame
    let e := entry &&& ~~~0xFF000000#64
    let d := s.dev
    let d := if entrySealed old && !entrySealed e then d.zeroFrame frame else d
    let d := if entrySealed e && (!entrySealed old || entryTag e != entryTag old) then
        d.enterTag (entryTag e) (d.measure frame) else d
    let f (c : Core) : Core := (c.unpinFrame frame).purgeFrame frame
    .next { s with dev := d.putFrame frame e, core := f s.core, rest := s.rest.map f }

/-- Frames that an access touches. -/
def framesOf (pa n : Nat) : List Nat := (List.range ((pa + n - 1) / 65536 - pa / 65536 + 1)).map fun i => pa / 65536 + i

/-- The first check of R116 that an access of a context fails, with the address it fails at. -/
def Device.dmaFault (d : Device) (ctx pa n : Nat) (wr : Bool) : Option (Bool × Nat) :=
  (framesOf pa n).findSome? fun f =>
    match ownerCheck (d.frameEntry f) ctx wr with
    | some (.owner sealed) => some (sealed, max pa (f * 65536))
    | some _ => some (false, max pa (f * 65536))
    | none => none

/-- A type-3 record of a master that is no core. -/
def masterRecord (cause ctx : Nat) (addr stamp : Word) : Record :=
  #v[BitVec.ofNat 64 (3 <<< 60 + cause), BitVec.ofNat 64 (ctx <<< 48), 0, 0, addr, 0, 0, stamp]

/-- A DMA that fails the check: nothing is written or read, the function is frozen, and the kernel's ring gets a record
(R415). -/
def State.dmaViolation (s : State) (vf ctx : Nat) (sealed : Bool) (addr : Nat) : State :=
  let (st, s) := s.deviceStamp
  let s := (s.post (.dmaAbort vf)).post
    (.engineError (masterRecord (if sealed then 0x0B else 0x0A) ctx (BitVec.ofNat 64 addr) st))
  s.withDev fun d => d.updFunc vf fun f => { f with frozen := true }

/-- Bytes that host DMA reads; those of a poisoned line are free values. -/
def State.dmaRead (s : State) (pa n : Nat) : List Byte :=
  (List.range n).map fun i =>
    if s.dev.poison.contains (lineOf (pa + i)) then (Config.openWord (s.free + i)).setWidth 8
    else s.dev.dram.get (pa + i)

/-- HOST_DMA: a write into a frame of a context that is being checkpointed waits (R357); in recovery there is no virtual
function that could make one (R450). -/
def execHostDma (vf ctx : Nat) (pa : Nat) (dma : Dma) (s : State) : Result :=
  let n := (dma.data.map List.length).getD dma.len
  let owner (f : Nat) : Nat := wfield (s.dev.frameEntry f) 10 0
  let held := s.dev.ckpts.any fun k =>
    s.dev.ckptOpen.contains k.id && (framesOf pa n).any fun f => k.ctxs.contains (owner f)
  if n = 0 then .next s
  else if s.dev.boot.getLsbD 2 || decide (Config.functions ≤ vf) || (s.dev.func vf).frozen ||
      decide (Config.dramBytes < pa + n) || (s.dev.ctx ctx).all fun c => c.vf != vf then
    .next (s.post (.dmaAbort vf))
  else
    match s.dev.dmaFault ctx pa n dma.data.isSome with
    | some (sealed, a) => .next (s.dmaViolation vf ctx sealed a)
    | none =>
      match dma.data with
      | none => .next { s.post (.dmaData (s.dmaRead pa n)) with free := s.free + n }
      | some bs =>
        if held then s.stayDue else .next (s.setBytes (.dram pa) bs).settlePoison

/-! ## Errors and retirement (R418 to R422) -/

/-- Every unit of the hart settles, and the stop with cause 0x16 is taken (R38): now, or as soon as the hart is on its own
again. -/
def State.forceStop (s : State) (n : Nat) : State :=
  s.onCore n fun t =>
    let c := t.core
    if !c.placed then t
    else if c.stopped.isNone && c.trapWait.isNone && !c.frozenHart then
      t.stopByForce.withCore fun c => { c with forced := t.finishCopies.2.isSome }
    else t.withCore fun c => { c with forced := true }

/-- Cores leave the dispatcher's pool, and their harts are pre-empted by force. -/
def State.retireCores (s : State) (l : List Nat) : State :=
  let s := s.withDev fun d => { d with retiredCores := d.retiredCores ++ l.filter fun n => !d.retiredCores.contains n }
  (l.foldl State.forceStop s).withDev Device.refuseUnfit

/-- A frame that retires is copied to a fresh one (log 22). -/
def State.retireFrame (s : State) (f : Nat) : State :=
  if s.dev.frameEntry f = 0x800000 && !s.dev.holds f then s else (s.relocate [] f).getD s

/-- The management cores retire a unit (Table 22-3). -/
def State.retireUnit (s : State) (u : ErrUnit) : State :=
  let (st, s) := s.deviceStamp
  let s := (s.post (.retired u)).post (.engineError (masterRecord 0 0 0 st))
  let s := s.withDev fun d => { d with retiredUnits := d.retiredUnits ++ [u] }
  match u with
  | .core n => s.retireCores [n]
  | .l2 cl => s.retireCores ((List.range 8).map fun i => 8 * cl + i)
  | .frame f => s.retireFrame f
  | .llc _ _ | .seam _ | .mgmt _ => s

/-- An error counted; the unit retires when its count reaches THR (R421). -/
def State.countError (s : State) (u : ErrUnit) : State :=
  let n := ((s.dev.errors.find? fun p => p.1 == u).map Prod.snd).getD 0 + 1
  let s := s.withDev fun d => { d with errors := (u, n) :: d.errors.filter fun p => p.1 != u }
  let thr := wfield s.dev.retire 7 0
  if thr ≠ 0 ∧ thr ≤ n ∧ !s.dev.retiredUnits.contains u then s.retireUnit u else s

/-- CORRECTABLE_ERROR: one in a core's units is event 0x0050 of its bank. -/
def execCorrectableError (unit : ErrUnit) (s : State) : Result :=
  let s := match unit with
    | .core n => s.onCore n fun t => t.countEvents t.core.samplePair [(0x50, 1)]
    | _ => s
  .next (s.countError unit)

def Device.spoilLine (d : Device) (l : Nat) : Device :=
  if d.poison.contains l then d else { d with poison := l :: d.poison }

def State.spoilCore (s : State) (n : Nat) (p : Poison) : State :=
  s.updCore n fun c => if c.poison.contains p then c else { c with poison := p :: c.poison }

/-- A hart that the kernel holds, or whose trap entry waits, takes no trap now. -/
def State.trapBusy (s : State) (n : Nat) : Bool :=
  (s.findCore n).any fun c => c.stopped.isSome || c.trapWait.isSome

def Device.spoilHost (d : Device) (l : Nat) : Device :=
  if d.hostPoison.contains l then d else { d with hostPoison := l :: d.hostPoison }

/-- The hart whose data cache held dirty bytes takes deferred fault 0x18 (R420). -/
def State.loseDirty (s : State) (n va : Nat) : State :=
  s.onCore n fun t =>
    let a : Word := BitVec.ofNat 64 (va / 64 * 64)
    if t.core.placed then takeTrap t ⟨.deferred t.core.rank, 0x18, a, a⟩ else t

/-- The context whose fill brought a line in learns that an L2 or a slice lost its dirty bytes (R420). -/
def State.reportDirty (s : State) (pa ctx : Nat) : State :=
  let (st, s) := s.deviceStamp
  s.withDev fun d => d.pushOrWait ctx (masterRecord 0x18 ctx (BitVec.ofNat 64 (pa / 64 * 64)) st)

/-- What an uncorrectable error spoils, and the loss of dirty bytes (R418, R420). -/
def State.strike (s : State) (loc : ErrLoc) : State :=
  match loc with
  | .line pa => s.withDev fun d => d.spoilLine (lineOf pa)
  | .dataCacheLine n va pa => (s.withDev fun d => d.spoilLine (lineOf pa)).loseDirty n va
  | .l2Line pa ctx => (s.withDev fun d => d.spoilLine (lineOf pa)).reportDirty pa ctx
  | .hostLine pa => s.withDev fun d => d.spoilHost (lineOf pa)
  | .hostDataLine n va pa => (s.withDev fun d => d.spoilHost (lineOf pa)).loseDirty n va
  | .hostL2Line pa ctx => (s.withDev fun d => d.spoilHost (lineOf pa)).reportDirty pa ctx
  | .fetchLine n blk line => s.spoilCore n (.fetch blk line)
  | .hamper n i =>
    match ((s.findCore n).bind Core.region).bind fun r => r.held[i]? with
    | some h => s.spoilCore n (.held h.rank h.lin)
    | none => s
  | .reg n v row eg => s.spoilCore n (.reg v row eg)
  | .tile n t row eg => s.spoilCore n (.tile t row eg)
  | .heap n row => s.spoilCore n (.heap row)
  | .spad n row => s.spoilCore n (.spad row)

/-- UNCORRECTABLE_ERROR. -/
def execUncorrectableError (unit : ErrUnit) (loc : ErrLoc) (s : State) : Result :=
  match loc with
  | .dataCacheLine n _ _ | .hostDataLine n _ _ => if s.trapBusy n then s.stayDue else .next ((s.strike loc).countError unit)
  | _ => .next ((s.strike loc).countError unit)

/-- ERROR_COUNT_WINDOW. -/
def execErrorCountWindow (unit : ErrUnit) (s : State) : Result :=
  .next (s.withDev fun d => { d with errors := d.errors.filter fun p => p.1 != unit })

end Sys2Proof.Machine
end

