-- ==== Sys2Proof/Machine/Observe.lean ====
section
/-! DEFINITION. Counter banks, trace units and bandwidth tokens (spec/13 R341 to R350, spec/25 R440 to R443, spec/04 R109
to R112). -/

namespace Sys2Proof.Machine

/-! ## Counter banks (R344 to R346) -/

/-- COUNTER_COUNT: events of cycles. The turns of a core count the events that a step shows (log 8); this is how the
others reach a bank: cycles, misses and conflicts, which are timing. Cycles come with their category (R343). -/
def execCounterCount (core : Nat) (ev : BitVec 16) (n : Nat) (s : State) : Result :=
  .next (s.onCore core fun t =>
    { t with free := t.free + 1 }.countEvents t.core.samplePair (t.cycleEvents ev.toNat n))

/-- COUNTER_OVERFLOW: the event that wraps a counter at 2^44 − 1. -/
def execCounterOverflow (core idx : Nat) (s : State) : Result :=
  let b := s.dev.bankOf core
  let w := b.ctr.toList.getD idx 0
  if s.bankCounts b && counts w (wfield w 59 44) && wfield w 43 0 == 2 ^ 44 - 1 then
    .next (s.onCore core fun t => t.addCounter core (wfield w 59 44) 1 t.core.samplePair idx)
  else .next s

/-- COUNTER_WRITE: the bank's holder writes a counter. -/
def execCounterWrite (core idx : Nat) (v : BitVec 64) (s : State) : Result :=
  .next (s.withDev fun d =>
    let b := d.bankOf core
    if idx < 8 then d.putBank { b with ctr := b.ctr.setIfInBounds idx (counterWrite v) } else d)

/-! ## Trace units (R348) -/

/-- The first record of a core that waits, taken out of those that wait. -/
def dropFirst : List (Option Nat × Record) → Option (List (Option Nat × Record))
  | [] => none
  | (some _, _) :: l => some l
  | x :: l => (dropFirst l).map fun l => x :: l

/-- TRACE_RECORD_DROP: the oldest record of a core that waits for room is dropped, and the core goes on. -/
def execTraceRecordDrop (cluster : Nat) (s : State) : Result :=
  .next (s.withDev fun d => d.updTracer cluster fun t =>
    match dropFirst t.waiting with
    | some l => if t.full then { t with waiting := l, lost := (t.lost + 1) % 2 ^ 32, lostRun := t.lostRun + 1 } else t
    | none => t)

/-- TRACE_RING_CONS_WRITE. -/
def execTraceRingConsWrite (cluster : Nat) (cons : BitVec 16) (s : State) : Result :=
  .next (s.withDev fun d => d.traceCons cluster cons.toNat)

/-! ## Requests for banks and trace units (R440 to R443) -/

/-- The register of Table 25-3. -/
def Device.obs (d : Device) : ObsFunc → Word
  | .pf => d.pfObs
  | .vf n => (d.func n).obs

def Device.putObs (d : Device) (who : ObsFunc) (w : Word) : Device :=
  match who with
  | .pf => { d with pfObs := w }
  | .vf n => d.updFunc n fun f => { f with obs := w }

/-- A context of the asking function: for the hypervisor, any context. -/
def Device.askerHas (d : Device) (who : ObsFunc) (ctx : Nat) : Bool :=
  match d.ctx ctx, who with
  | none, _ => false
  | some _, .pf => true
  | some c, .vf n => c.vf == n

/-- The register after a request: UNIT and CTX as written, OP reads 0, ST the answer (2 granted, 3 busy, 4 refused). -/
def obsWord (st unit ctx : Nat) : Word := BitVec.ofNat 64 (st <<< 61 + (unit % 256) <<< 24 + (ctx % 2048) <<< 13)

/-- A request is refused on a foreign context or a unit out of range; else the unit answers. With CBA = 1 the host serves
it: the register reads pending until the event comes again, as the host's answer (R355, R440). -/
def State.observe (s : State) (who : ObsFunc) (op unit ctx limit : Nat) (f : State → Nat × State) : Result :=
  let ask := Ask.observe who op unit ctx
  let mine : Bool := s.dev.asked.contains ask
  if wfield (s.dev.obs who) 63 61 = 1 && !mine then .next s
  else if s.dev.asks 5 ask then .next (s.withDev fun d => (d.post ask).putObs who (obsWord 1 unit ctx))
  else
    let r := if limit ≤ unit || !s.dev.askerHas who ctx then (4, s) else f s
    .next (r.2.withDev fun d => (d.answered ask).putObs who (obsWord r.1 unit ctx))

/-- A bank given to an asker: its counters at their resets, OWN and CTX set, and HV for the hypervisor. -/
def Bank.give (b : Bank) (who : ObsFunc) (ctx : Nat) : Bank :=
  let hv : Nat := if who = .pf then 2 ^ 42 else 0
  { Bank.fresh b.core with owner := some who, ctl := BitVec.ofNat 64 (hv + 2048 + ctx % 2048), guest := b.guest }

/-- A request for a bank (R441, R442). -/
def State.askBank (who : ObsFunc) (unit ctx : Nat) (s : State) : Nat × State :=
  let b := s.dev.bankOf unit
  let put (b : Bank) : State := s.withDev fun d => d.putBank b
  match b.owner, who with
  | none, _ => (2, put (b.give who ctx))
  | some (.vf n), .pf => (2, put ({ b with guest := some (.vf n, b.ctl, b.ctr) }.give who ctx))
  | some .pf, .pf => (2, put { b with ctl := setField b.ctl 10 0 (ctx % 2048) })
  | some _, .vf _ => (3, s)

/-- ALLOCATE_BANK. -/
def execAllocateBank (who : ObsFunc) (unit ctx : Nat) (s : State) : Result :=
  s.observe who 1 unit ctx Config.cores (State.askBank who unit ctx)

/-- A bank released: a reclaimed guest gets its counters back, RCL staying 1 (R442). -/
def State.freeBank (who : ObsFunc) (unit : Nat) (s : State) : Nat × State :=
  let b := s.dev.bankOf unit
  let put (b : Bank) : State := s.withDev fun d => d.putBank b
  if b.owner != some who then (if b.owner.isSome then 3 else 2, s)
  else
    match b.guest with
    | some (o, ctl, ctr) => (2, put { b with ctl := setBit ctl 43 true, ctr := ctr, owner := some o, guest := none })
    | none => (2, put (.fresh unit))

/-- RELEASE_BANK. -/
def execReleaseBank (who : ObsFunc) (unit ctx : Nat) (s : State) : Result :=
  s.observe who 2 unit ctx Config.cores (State.freeBank who unit)

/-- A lost record that the unit itself writes: for a reclaim (1) or a migration (2) (R443, R444). -/
def State.unitLost (s : State) (cl n mark : Nat) : State :=
  let (st, s) := s.deviceStamp
  let who : Word := BitVec.ofNat 64 (s.dev.chip.toNat <<< 50)
  s.withDev fun d => d.traceWrite cl none (traceLost who st n mark)

/-- A trace unit given to an asker: registers at their resets, the context traced set. -/
def Tracer.give (t : Tracer) (who : ObsFunc) (ctx : Nat) : Tracer :=
  { Tracer.fresh t.cluster with owner := some who, ctl := BitVec.ofNat 64 (0x600 + (ctx % 2048) <<< 32), guest := t.guest }

/-- What a guest's unit holds, kept while the hypervisor has it. -/
def Tracer.keep (t : Tracer) (o : ObsFunc) : GuestTrace :=
  ⟨o, t.base, t.ctl, t.prod, t.cons, t.lost, t.lostRun, t.waiting⟩

/-- The guest's unit again. -/
def GuestTrace.back (g : GuestTrace) (cl : Nat) : Tracer :=
  { Tracer.fresh cl with base := g.base, ctl := g.ctl, prod := g.prod, cons := g.cons, lost := g.lost, lostRun := g.lostRun,
                         waiting := g.waiting, owner := some g.owner }

/-- A request for a trace unit: a guest's ring gets a lost record at the reclaim, after what it is owed; with a full ring
these wait for room in it, until the guest has its unit again (R443). -/
def State.askTracer (who : ObsFunc) (unit ctx : Nat) (s : State) : Nat × State :=
  let t := s.dev.tracerOf unit
  let put (s : State) (t : Tracer) : State := s.withDev fun d => d.putTracer t
  match t.owner, who with
  | none, _ => (2, put s (t.give who ctx))
  | some (.vf n), .pf =>
    let s := s.unitLost unit 0 1
    let t := s.dev.tracerOf unit
    (2, put s ({ t with guest := some (t.keep (.vf n)) }.give who ctx))
  | some .pf, .pf => (2, put s { t with ctl := setField t.ctl 42 32 (ctx % 2048) })
  | some _, .vf _ => (3, s)

/-- ALLOCATE_TRACE_UNIT. -/
def execAllocateTraceUnit (who : ObsFunc) (unit ctx : Nat) (s : State) : Result :=
  s.observe who 3 unit ctx Config.clusters (State.askTracer who unit ctx)

/-- A trace unit released: a reclaimed guest gets its settings back, and a lost record with what they would have
produced. -/
def State.freeTracer (who : ObsFunc) (unit : Nat) (s : State) : Nat × State :=
  let t := s.dev.tracerOf unit
  let put (t : Tracer) : State := s.withDev fun d => d.putTracer t
  if t.owner != some who then (if t.owner.isSome then 3 else 2, s)
  else
    match t.guest with
    | some g =>
      let s := (put (g.back unit)).withDev fun d => d.traceFlush unit
      (2, s.unitLost unit t.guestLost 1)
    | none => (2, put (.fresh unit))

/-- RELEASE_TRACE_UNIT. -/
def execReleaseTraceUnit (who : ObsFunc) (unit ctx : Nat) (s : State) : Result :=
  s.observe who 4 unit ctx Config.clusters (State.freeTracer who unit)

/-! ## Bandwidth tokens (R109 to R112) -/

/-- The bandwidth word of a context: one that the kernel has not written holds its resets (Table 4-5). -/
def Device.bw (d : Device) (ctx : Nat) : Word :=
  let w := ((d.ctx ctx).map fun c => c.desc[2]).getD 0
  if w = 0 then 0x110000040 else w
def Device.rate (d : Device) (ctx : Nat) : Nat := wfield (d.bw ctx) 6 0
def Device.depth (d : Device) (ctx : Nat) : Nat := wfield (d.bw ctx) 28 16
def Device.borrows (d : Device) (ctx : Nat) : Bool := (d.bw ctx).getLsbD 32

/-- Contexts with a hart placed in a cluster. -/
def State.present (s : State) (cl : Nat) : List Nat :=
  ((s.cores.filter fun c => c.placed && c.cluster == cl).map fun c => s.ctxOf c).dedup

/-- A context's bucket: a new one is empty (log 24). -/
def Device.bucketOf (d : Device) (cl ctx : Nat) : Bucket :=
  (d.buckets.find? fun b => b.cluster == cl && b.ctx == ctx).getD ⟨cl, ctx, 0, 0, [], false⟩

def Device.putBucket (d : Device) (b : Bucket) : Device :=
  { d with buckets := b :: d.buckets.filter fun x => !(x.cluster == b.cluster && x.ctx == b.ctx) }

/-- BUCKET_REFILL: a window starts; RATE tokens, up to DEPTH, and the loans of the last window are final. -/
def execBucketRefill (cluster : Nat) (s : State) : Result :=
  let refill (ctx : Nat) : Bucket :=
    let b := s.dev.bucketOf cluster ctx
    let n := min (b.tokens + s.dev.rate ctx) (s.dev.depth ctx)
    { b with tokens := n, used := 0, loans := [], barred := b.barred && decide (n ≤ 0) }
  .next (s.withDev fun d =>
    { d with buckets := (s.present cluster).map refill ++ d.buckets.filter fun b => b.cluster != cluster })

/-- A lender's open loans return: each borrower is debited by what it took; one debited below zero presents nothing until
refills bring it above zero (R112). -/
def Device.callLoans (d : Device) (cl ctx : Nat) : Device :=
  let b := d.bucketOf cl ctx
  let d := b.loans.foldl (fun d l =>
    let x := d.bucketOf cl l.1
    let n : Int := x.tokens - l.2
    d.putBucket { x with tokens := n, barred := x.barred || decide (n < 0) }) d
  let total := (b.loans.map Prod.snd).sum
  d.putBucket { b with tokens := b.tokens + total, loans := [] }

/-- One more token lent to a context. -/
def addLoan (ctx : Nat) : List (Nat × Nat) → List (Nat × Nat)
  | [] => [(ctx, 1)]
  | l :: ls => if l.1 = ctx then (ctx, l.2 + 1) :: ls else l :: addLoan ctx ls

/-- A request that a cluster's L2 takes for a context counts in the bank of the core that makes it: one of the context's cores
there, which one being timing (R347, log 24). -/
def State.l2Counted (s : State) (cluster ctx : Nat) (evs : List (Nat × Nat)) : State :=
  let l := s.cores.filter fun c => c.placed && c.cluster == cluster && s.ctxOf c == ctx
  let n := (l.map Core.num).getD ((Config.openWord s.free).toNat % l.length) 0
  { s with free := s.free + 1 }.onCore n fun t => t.countEvents t.core.samplePair evs

/-- L2_REQUEST: the request spends a token of its own, or borrows one from the first context that holds tokens
(log 24), or is not presented. -/
def execL2Request (cluster ctx : Nat) (s : State) : Result :=
  if !(s.present cluster).contains ctx then .next s
  else
    let d := if (s.dev.bucketOf cluster ctx).loans.isEmpty then s.dev else s.dev.callLoans cluster ctx
    let b := d.bucketOf cluster ctx
    if 1 ≤ b.tokens then
      .next (({ s with dev := d.putBucket { b with tokens := b.tokens - 1, used := b.used + 1 } }).l2Counted cluster ctx
        [(0x31, 1)])
    else if b.tokens = 0 ∧ !b.barred ∧ d.borrows ctx ∧ b.used < 2 * d.rate ctx then
      match (s.present cluster).find? fun x => x != ctx && decide (1 ≤ (d.bucketOf cluster x).tokens) with
      | none => .next { s with dev := d }
      | some x =>
        let l := d.bucketOf cluster x
        let d := d.putBucket { l with tokens := l.tokens - 1, loans := addLoan ctx l.loans }
        .next (({ s with dev := d.putBucket { b with used := b.used + 1 } }).l2Counted cluster ctx [(0x31, 1), (0x32, 1)])
    else .next { s with dev := d }

end Sys2Proof.Machine
end

