-- ==== Sys2Proof/Machine/Duties.lean ====
section
/-! DEFINITION. What the management cores do for the device: the audit log, boot, keys, the model store, the clock, and
register writes (spec/05, spec/12, spec/13, spec/14, spec/25). -/

namespace Sys2Proof.Machine

/-! ## The audit log (R360, R454) -/

/-- AUDIT_BLOCK_SIGN: a full block is signed and PROD advances. -/
def execAuditBlockSign (ctx : Nat) (s : State) : Result :=
  .next (s.withDev fun d => if (d.ctx ctx).any fun c => c.auditRecs == 63 then d.signBlock ctx else d)

/-- AUDIT_CONS_WRITE. -/
def execAuditConsWrite (ctx : Nat) (cons : BitVec 32) (s : State) : Result :=
  .next (s.withDev fun d =>
    match d.ctx ctx with
    | none => d
    | some c => { d with dram := d.dram.setNum 4 (c.audCtl + 8) cons.toNat })

/-! ## Boot (R352, R449, R450) -/

/-- An image in flash (R450). -/
def Device.imageOf (d : Device) (slotB kernel : Bool) : Option (List Byte) :=
  (d.flash.find? fun f => f.1 == slotB && f.2.1 == kernel).map fun f => f.2.2

/-- The SHA3-256 measurement of an image; of none, 0. -/
def measureImage (bs : Option (List Byte)) : BitVec 256 := (bs.map fun b => BitVec.ofNat 256 (ofBytes (sha3 b))).getD 0

/-- ERR of an image: 0 good, 1 signature or version, 2 unreadable: its storage fails, or flash holds none. -/
def imageErr (i : BootImage) (bs : Option (List Byte)) : Nat :=
  match bs with
  | none => 2
  | some b =>
    if !i.readable then 2 else if !Config.mlDsaGood b || Config.imageVersion b < Config.minVersion then 1 else 0

/-- ERR and STAGE of a slot: the firmware before the kernel image; an image that cannot be read fails at the flash. -/
def slotErr (fw kn : Nat) : Nat × Nat :=
  if fw = 2 ∨ kn = 2 then (2, 0) else if fw ≠ 0 then (fw, 1) else (kn, 2)

/-- The boot status register (Table 25-5). -/
def bootWord (detail err stage : Nat) (slotB rec_ deg rdy : Bool) : Word :=
  BitVec.ofNat 64 (detail <<< 24 + err <<< 16 + stage <<< 8 + slotB.toNat <<< 3 + rec_.toNat <<< 2 + deg.toNat <<< 1 +
    rdy.toNat)

/-- Seams that a boot has retired. -/
def lostSeams (b : BootReport) : List Nat := (List.range Config.seams).filter fun i => b.seams.getLsbD i

/-- What boot reports once it is over. An error of slot A stays reported when slot B starts, until a later error; DETAIL of
ERR 4 is the number of seams retired (log 25). -/
def bootStatus (d : Device) (b : BootReport) : Word :=
  let err (i : BootImage) (slotB kernel : Bool) : Nat := imageErr i (d.imageOf slotB kernel)
  let a := slotErr (err b.firmwareA false false) (err b.kernelA false true)
  let x := slotErr (err b.firmwareB true false) (err b.kernelB true true)
  let slotB := a.1 != 0
  if slotB && x.1 != 0 then bootWord 0 x.1 x.2 true true false false
  else if !b.starts then bootWord 0 6 3 slotB true false false
  else if b.dies ≠ 0 then bootWord b.dies.toNat 3 4 slotB true false false
  else
    let deg := b.seams ≠ 0 || b.ports ≠ 0
    let e : Nat × Nat :=
      if b.ports ≠ 0 then (b.ports.toNat, 5) else if b.seams ≠ 0 then ((lostSeams b).length, 4) else (0, a.1)
    bootWord e.1 e.2 9 slotB false deg true

/-- POWER_ON_BOOT: the device at its resets; what is not on it stays (host memory, the drives, the flash), and the
measurements of the images in use are kept. -/
def execPowerOnBoot (b : BootReport) (s : State) : Result :=
  let d := s.dev
  let w := bootStatus d b
  let slotB := w.getLsbD 3
  let seams := (lostSeams b).map ErrUnit.seam
  let m := (measureImage (d.imageOf slotB false), measureImage (d.imageOf slotB true))
  .next { State.reset with
    inbox := s.inbox, plan := s.plan, free := s.free
    dev := { Device.reset with
      host := d.host, hostPoison := d.hostPoison, ckpts := d.ckpts.filter fun k => k.taken
      flash := d.flash, chip := d.chip, posted := d.posted, boot := w, measured := m
      retiredUnits := if w.getLsbD 0 then seams else [] } }

/-- RECOVERY_IMAGE_WRITE: only in recovery. -/
def execRecoveryImageWrite (slotB kernel : Bool) (image : List (BitVec 8)) (s : State) : Result :=
  .next (s.withDev fun d =>
    if d.boot.getLsbD 2 then
      { d with flash := (slotB, kernel, image) :: d.flash.filter fun f => !(f.1 == slotB && f.2.1 == kernel) }
    else d)

/-! ## Keys and the model store (R354, R356) -/

/-- Frames that an entry names under a key slot and that are not zeroed. -/
def Device.keyInUse (d : Device) (slot : Nat) : Bool :=
  d.frames.any fun p => entryKey p.2 == slot && d.dram.any fun c => c.1 / 65536 == p.1

/-- KEY_SLOT_LOAD: a slot is loaded once no frame with data names it; slot 0, the kernel's, once only. -/
def execKeySlotLoad (slot : Nat) (key : BitVec 512) (s : State) : Result :=
  .next (s.withDev fun d =>
    let loaded := d.keys.any fun k => k.1 == slot
    if 1024 ≤ slot || (slot == 0 && loaded) || (slot != 0 && d.keyInUse slot) then d
    else { d with keys := (slot, key) :: d.keys.filter fun k => k.1 != slot })

/-- A sealed frame is sound: not poisoned, and as its TAG says. -/
def Device.sealSound (d : Device) (f : Nat) : Bool :=
  !(d.poison.any (lineInFrame f)) &&
    (d.tags.find? fun p => p.1 == entryTag (d.frameEntry f)).any fun p => p.2 == d.measure f

/-- Sealed frames of a context. -/
def Device.sealedOf (d : Device) (ctx : Nat) : List Nat :=
  (d.frames.filter fun p => entrySealed p.2 && !p.2.getLsbD 23 && wfield p.2 10 0 == ctx).map Prod.fst

/-- The pieces of an image in frames of the context: written, mapped for reading, measured under a tag, sealed
(log 26). The frames left over serve as tables. -/
def Device.loadPieces (c : Ctx) : Nat → Nat → List Byte → List Nat → Device → Option Device
  | 0, _, _, _, d => some d
  | n + 1, va, bs, frames, d =>
    match frames with
    | [] => none
    | f :: fs =>
      if !d.mayTake f then none
      else
        let d := d.zeroFrame f
        let d := { d with dram := d.dram.write (f * 65536) (bs.take 65536) }
        let leaf : Reserved := ⟨0, 0, true, false, false, true, 0⟩
        let leaf := (c.regions.find? fun r => decide (r.page ≤ va / 65536 ∧ va / 65536 < r.page + r.pages)).getD leaf
        let d := d.enterTag (BitVec.ofNat 32 f) (d.measure f)
        let d := d.putFrame f (ownedEntry c.id (d.keyOf c) ||| BitVec.ofNat 64 (f <<< 32 + 1 <<< 21))
        match d.putLeaf (d.rootOf c) va ({ leaf with wr := false }.leaf f) fs with
        | none => none
        | some (d, fs) => Device.loadPieces c n (va + 65536) (bs.drop 65536) fs d

/-- MODEL_STORE_LOAD: a context whose sealed frames are sound again may be placed (R448). -/
def execModelStoreLoad (ctx : Nat) (va : BitVec 64) (image : List (BitVec 8)) (frames : List Nat) (s : State) : Result :=
  match s.dev.ctx ctx with
  | none => .next s
  | some c =>
    match s.dev.loadPieces c ((image.length + 65535) / 65536) va.toNat image frames with
    | none => .next s
    | some d =>
      let sound := (d.sealedOf ctx).all d.sealSound
      .next { s with dev := d.updCtx ctx fun c => if sound then { c with barred := false } else c }

/-! ## The clock (R361) -/

/-- THERMAL_LIMIT: one step of 100 MHz down, to 1.6 GHz at the lowest. -/
def execThermalLimit (s : State) : Result := .next (s.withDev fun d => { d with clock := max 1600 (d.clock - 100) })

/-- THERMAL_LIMIT_CLEAR: back to the full clock. -/
def execThermalLimitClear (s : State) : Result := .next (s.withDev fun d => { d with clock := Device.reset.clock })

/-! ## Register writes (R5, R331, R355, Tables 12-3, 13-6, 14-2, 22-4, 25-1, 25-3) -/

/-- A write to the register of Table 25-3: OP 1 to 4 starts a request when none is pending; any other write is ignored (R440). -/
def obsWrite (who : ObsFunc) (v : Word) (s : State) : Result :=
  let unit := wfield v 31 24
  let ctx := wfield v 23 13
  match if wfield (s.dev.obs who) 63 61 = 1 then 0 else wfield v 2 0 with
  | 1 => execAllocateBank who unit ctx s
  | 2 => execReleaseBank who unit ctx s
  | 3 => execAllocateTraceUnit who unit ctx s
  | 4 => execReleaseTraceUnit who unit ctx s
  | _ => .next s

/-- A write to a register of a virtual function (Table 12-3; the observation request at 0x050). -/
def funcWrite (vf off : Nat) (v : Word) (s : State) : Result :=
  let upd (g : Func → Func) : Result := .next (s.withDev fun d => d.updFunc vf g)
  match off with
  | 0x000 => upd fun f => { f with base := f.base.set 0 v }
  | 0x020 => upd fun f => { f with base := f.base.set 1 v }
  | 0x008 => upd fun f => { f with ctl := f.ctl.set 0 (v &&& 0x10F) }
  | 0x028 => upd fun f => { f with ctl := f.ctl.set 1 (v &&& 0x10F) }
  | 0x010 => execRing0TailWrite vf (v.setWidth 12) s
  | 0x048 =>
    if v.getLsbD 16 then execPreemptGangWrite vf (v.setWidth 16) s
    else upd fun f => { f with preGid := v &&& 0xFFFF }
  | 0x050 => obsWrite (.vf vf) v s
  | _ => .next s

/-- A write to a register of a trace unit (Table 13-6). -/
def traceRegWrite (cl off : Nat) (v : Word) (s : State) : Result :=
  .next (if cl < Config.clusters ∧ off % 8 = 0 then s.withDev fun d => d.traceReg cl (off / 8) v else s)

/-- REGISTER_WRITE: RW fields are stored, RO fields keep their values. -/
def execRegisterWrite (r : DevReg) (v : BitVec 64) (s : State) : Result :=
  match r with
  | .split => .next (s.withDev fun d => { d with split := v &&& 0x3F })
  | .faultResponse => execFaultResponseWrite v s
  | .retirement => .next (s.withDev fun d => { d with retire := v &&& 0xFF })
  | .scopeChecker => .next (s.withDev fun d => { d with scopeCtl := v &&& 0xFFE007 })
  | .pfObservation => obsWrite .pf v s
  | .bootStatus => .next s
  | .fairness vf => .next (s.withDev fun d => d.updFunc vf fun f => { f with fair := v &&& 0x1FF0FF })
  | .func vf off => funcWrite vf off v s
  | .trace cl off => traceRegWrite cl off v s

end Sys2Proof.Machine
end

