-- ==== Sys2Proof/Machine/Migration.lean ====
section
/-! DEFINITION. Checkpoints, attestation, and the migration of a context between packages (spec/14 R357, R359, spec/23 R430,
R431, spec/25 R444 to R448). -/

namespace Sys2Proof.Machine

/-! ## Checkpoints (R357, R446, R447) -/

/-- A hart of a frozen master leaves its core frozen, as it stands (R446). -/
def Core.frozen (c : Core) : Bool := c.frozenHart || c.frozenCopy || c.frozenColl

def State.leaveFrozen (s : State) : State :=
  let k := s.core.stopped
  let gid := s.core.gang16
  let h := s.core.hart
  let s := s.leave s.core
  s.withDev fun d => { d with saved := d.saved.map fun c => if c.gang16 = gid ∧ c.hart = h then { c with stopped := k } else c }

/-- Every hart of some contexts is stopped by force; a hart that a frozen master holds is saved as it stands. -/
def State.forceContexts (s : State) (ctxs : List Nat) : State :=
  let nums := (s.cores.filter fun c => c.placed && ctxs.contains (s.ctxOf c)).map Core.num
  nums.foldl (fun s n =>
    if (s.findCore n).any Core.frozen then s.onCore n State.leaveFrozen else s.forceStop n) s

/-- A hart of some contexts is still placed. -/
def State.anyPlaced (s : State) (ctxs : List Nat) : Bool :=
  s.cores.any fun c => c.placed && ctxs.contains (s.ctxOf c)

/-- Frames of some contexts, as they stand in DRAM. -/
def Device.saveFrames (d : Device) (ctxs : List Nat) : List SavedFrame :=
  (d.frames.filter fun p => !p.2.getLsbD 23 && ctxs.contains (wfield p.2 10 0)).map fun p =>
    { frame := p.1, entry := p.2, cells := d.dram.filter fun c => c.1 / 65536 == p.1,
      poison := d.poison.filter (lineInFrame p.1), key := (d.keys.find? fun k => k.1 == entryKey p.2).map Prod.snd }

/-- What a checkpoint writes to the drives. -/
def Device.takeCkpt (d : Device) (id : Nat) (ctxs : List Nat) (host : Bool) : Ckpt :=
  let gangs := d.gangs.filter fun g => ctxs.contains g.ctx && g.st != .ended
  { id := id, ctxs := ctxs, frames := d.saveFrames ctxs
    harts := d.saved.filter fun c => gangs.any fun g => g.gid == c.gang16
    gangs := gangs
    frozen := (d.funcs.filter fun f => f.frozen && d.ctxs.any fun c => ctxs.contains c.id && c.vf == f.num).map Func.num
    taken := true, host := host }

/-- The host orchestrates a checkpoint that is under way. -/
def Device.ckptHost (d : Device) (id : Nat) : Bool := (d.ckpts.find? fun k => k.id == id).any Ckpt.host

/-- CHECKPOINT: the gangs are stopped by force; once their harts have left, the frames are written. Until its
completion the contexts' gangs are not placed. Host-assisted while CKP = 1 (R355). -/
def execCheckpoint (id : Nat) (ctxs : List Nat) (s : State) : Result :=
  let d := s.dev
  let ask := Ask.checkpoint id
  if d.ckpts.any fun k => k.id == id && k.taken then .next s
  else if !d.ckptOpen.contains id then
    if d.asks 3 ask then .next (s.withDev fun d => d.post ask)
    else
      let k : Ckpt := { id := id, ctxs := ctxs, frames := [], harts := [], gangs := [], frozen := [], taken := false
                        host := d.asked.contains ask }
      ((s.withDev fun d => { d.answered ask with ckptOpen := id :: d.ckptOpen, ckpts := k :: d.ckpts }).forceContexts
        ctxs).stayDue
  else if s.anyPlaced ctxs then s.stayDue
  else
    .next (s.withDev fun d =>
      { d with ckpts := d.takeCkpt id ctxs (d.ckptHost id) :: d.ckpts.filter fun k => k.id != id })

/-- CHECKPOINT_COMPLETE: its code (0 to 2) is delivered to the kernel, or to the host that orchestrated it; a failed one
leaves nothing on the drives. -/
def execCheckpointComplete (id code : Nat) (s : State) : Result :=
  let d := s.dev
  if !d.ckptOpen.contains id || decide (2 < code) then .next s
  else if code < 2 ∧ !(d.ckpts.any fun k => k.id == id && k.taken) then s.stayDue
  else
    .next ((s.withDev fun d =>
      { d with ckptOpen := d.ckptOpen.filter fun x => x != id
               ckpts := if code < 2 then d.ckpts else d.ckpts.filter fun k => k.id != id }).post
        (.checkpoint id code (d.ckptHost id)))

/-- The keys still stand, and no frame has been retired. -/
def Device.mayRestore (d : Device) (k : Ckpt) : Bool :=
  k.taken && !d.ckptOpen.contains k.id && k.frames.all fun f =>
    !d.retiredUnits.contains (.frame f.frame) && ((d.keys.find? fun x => x.1 == entryKey f.entry).map Prod.snd) == f.key

/-- What stands at a frame and is none of the checkpoint's contexts' must move before the frame is restored. -/
def Device.inTheWay (d : Device) (k : Ckpt) (f : Nat) : Bool :=
  let e := d.frameEntry f
  if e.getLsbD 23 then e != 0x800000 || d.holds f else !k.ctxs.contains (wfield e 10 0)

/-- One frame written back to where it stood; what is in the way moves first, if it can. -/
def State.restoreFrame (k : Ckpt) (s : State) (f : SavedFrame) : Option State :=
  let put (s : State) : State := s.withDev fun d =>
    let d := (d.zeroFrame f.frame).putFrame f.frame f.entry
    { d with dram := f.cells.foldl (fun m c => m.set c.1 c.2) d.dram, poison := f.poison ++ d.poison }
  if !s.dev.inTheWay k f.frame then some (put s) else (s.relocate (k.frames.map SavedFrame.frame) f.frame).map put

/-- All of them. -/
def State.restoreFrames (k : Ckpt) : List SavedFrame → State → Option State
  | [], s => some s
  | f :: fs, s => (s.restoreFrame k f).bind (State.restoreFrames k fs)

/-- CHECKPOINT_RESTORE: the contexts go on from the checkpoint; gangs of theirs that still live end first (log 30). -/
def execCheckpointRestore (id : Nat) (s : State) : Result :=
  match s.dev.ckpts.find? fun k => k.id == id with
  | none => .next (s.post (.restored id false))
  | some k =>
    let live := (s.dev.gangs.filter fun g => k.ctxs.contains g.ctx && g.st != .ended).map Gang.gid
    match (if s.dev.mayRestore k then (live.foldl State.destroy s).restoreFrames k k.frames else none) with
    | none => .next (s.post (.restored id false))
    | some t =>
      let old (g : Gang) : Bool := k.gangs.any fun x => x.gid == g.gid
      .next ((t.withDev fun d =>
        let d := k.frozen.foldl (fun d f => d.updFunc f fun f => { f with frozen := true }) d
        { d with gangs := d.gangs.filter (fun g => !old g) ++ k.gangs, saved := d.saved ++ k.harts }).post
          (.restored id true))

/-! ## Attestation (R359, R448) -/

/-- Frames of a context's sealed image, in ascending order of the addresses that map them. -/
def Device.imageFrames (d : Device) (c : Ctx) : List Nat :=
  let ls := (d.leaves (d.rootOf c)).insertionSort fun a b => a.1 ≤ b.1
  let own := d.sealedOf c.id
  (ls.flatMap fun l => own.insertionSort (fun a b => a ≤ b) |>.filter l.2.maps).dedup

/-- The report of Table 14-3 over the frames given, signed. -/
def Device.attestation (d : Device) (c : Ctx) (nonce : BitVec 256) (frames : List Nat) : List Byte :=
  let image := sha3 (((d.imageFrames c).filter frames.contains).flatMap fun f => bytesOf 32 (d.measure f).toNat)
  let body := bytesOf 32 nonce.toNat ++ bytesOf 32 d.measured.1.toNat ++ bytesOf 32 d.measured.2.toNat ++ image ++
    bytesOf 8 c.id ++ bytesOf 8 (d.audProd c)
  body ++ (Config.mlDsaSign 0 body).take 2420

/-- A report for a context over the frames given, or the code that says why there is none; with code 2 the context's gangs are
barred. -/
def State.attest (s : State) (ctx : Nat) (nonce : BitVec 256) (frames : List Nat) : State :=
  let d := s.dev
  if d.boot.getLsbD 2 then s.post (.noReport ctx 3)
  else
    match d.ctx ctx with
    | none => s.post (.noReport ctx 1)
    | some c =>
      if ((d.sealedOf ctx).filter frames.contains).all d.sealSound then s.post (.report (d.attestation c nonce frames))
      else (s.withDev fun d => d.updCtx ctx fun c => { c with barred := true }).post (.noReport ctx 2)

/-- The attestation requests that wait for their answer, in the order of arrival. -/
def Device.attestAsks (d : Device) : List (Nat × BitVec 256 × List Nat) :=
  d.asked.filterMap fun a =>
    match a with
    | .attestation ctx nonce frames => some (ctx, nonce, frames)
    | _ => none

/-- ATTESTATION_REQUEST: host-assisted while ATT = 1 (R355): the event comes again as the host's answer. A report covers the
frames that were sealed when its request arrived, and requests are answered in their order of arrival (R359). -/
def execAttestationRequest (ctx : Nat) (nonce : BitVec 256) (s : State) : Result :=
  let d := s.dev
  let now := d.sealedOf ctx
  match d.attestAsks with
  | [] =>
    if d.split.getLsbD 4 then .next (s.withDev fun d => d.post (.attestation ctx nonce now)) else .next (s.attest ctx nonce now)
  | a :: as =>
    if a.1 = ctx ∧ a.2.1 = nonce then
      .next ((s.withDev fun d => d.answered (.attestation ctx nonce a.2.2)).attest ctx nonce a.2.2)
    else if as.any fun b => b.1 == ctx && b.2.1 == nonce then s.stayDue
    else if d.split.getLsbD 4 then .next (s.withDev fun d => d.post (.attestation ctx nonce now))
    else (s.withDev fun d => { d with asked := d.asked ++ [.attestation ctx nonce now] }).stayDue

/-! ## Migration between packages (R430, R431, R444) -/

def Device.moveOf (d : Device) (ctx : Nat) : Option Move := d.moves.find? fun m => m.ctx == ctx

def Device.putMove (d : Device) (m : Move) : Device := { d with moves := m :: d.moves.filter fun x => x.ctx != m.ctx }

/-- The move of a context is over. -/
def Device.endMove (d : Device) (ctx : Nat) : Device := { d with moves := d.moves.filter fun x => x.ctx != ctx }

/-- A migration fails: the context stays on the source, and the destination gives back the frames that it has received. -/
def State.failMove (s : State) (ctx : Nat) : State :=
  let got := ((s.dev.moveOf ctx).map Move.frames).getD []
  (s.withDev fun d => (got.foldl (fun d x => (d.zeroFrame x.2).putFrame x.2 0x800000) d).endMove ctx).post (.migrationFailed ctx)

/-- A bank as its owner context has it: counting, or reclaimed from it (R442). -/
def Bank.ofCtx (b : Bank) (ctx : Nat) : Option Bank :=
  match b.guest with
  | some g =>
    if wfield g.2.1 10 0 = ctx then some { b with ctl := setBit g.2.1 43 true, ctr := g.2.2, owner := some g.1, guest := none }
    else none
  | none => if b.ctl.getLsbD 11 && wfield b.ctl 10 0 == ctx then some b else none

/-- A trace session of a context: running, or reclaimed from it (R443). -/
def Tracer.ofCtx (t : Tracer) (ctx : Nat) : Option Tracer :=
  let mine (t : Tracer) : Bool := t.ctl.getLsbD 0 && wfield t.ctl 42 32 == ctx
  match t.guest with
  | some g => if mine (g.back t.cluster) then some (g.back t.cluster) else none
  | none => if mine t then some t else none

/-- What travels beside the frames, at the source. The trap ring's records are those from CONS to PROD; of the audit ring
the blocks that the consumer has still to read, and the last one signed, which the chain goes on from. -/
def Device.carry (d : Device) (c : Ctx) : Carried :=
  let gangs := d.gangs.filter fun g => g.ctx == c.id
  let harts := d.saved.filter fun h => gangs.any fun g => g.gid == h.gang16
  let prod := d.ringProd c
  let cons := d.ringCons c
  let ap := d.audProd c
  let ac := d.audCons c
  let blocks := if ap = 0 then 0 else max 1 ((ap + 2 ^ 32 - ac) % 2 ^ 32)
  { ctx := c.id, gangs := gangs, harts := harts
    banks := d.banks.filterMap fun b => (b.ofCtx c.id).map fun x => (b.core, x)
    traces := d.tracers.filterMap fun t => t.ofCtx c.id
    maps := (d.leaves (d.rootOf c)).map fun l => (l.1, l.2.entry)
    prod := prod, cons := cons, lost := d.dram.word c.lostAt
    records := (List.range ((prod + 2 ^ 32 - cons) % 2 ^ 32)).map fun i =>
      d.dram.read 64 (c.trap + 64 + 64 * ((cons + i) % 2 ^ c.tlog))
    audProd := ap, audCons := ac
    blocks := (List.range blocks).map fun i =>
      let b := (ap + 2 ^ 32 - 1 - i) % 2 ^ 32
      (b, d.dram.read 4096 (c.audBlock b), d.dram.read 4096 (c.audBlock b + 2 ^ c.alog * 4096))
    openBlock := d.dram.read (64 * c.auditRecs) (c.audBlock ap)
    auditRecs := c.auditRecs, dropped := c.dropped, lostNext := c.lostNext, waiting := c.waiting, repost := c.repost }

/-- The rings of a context as they were at the source. -/
def Device.putRings (d : Device) (c : Ctx) (x : Carried) : Device :=
  let d := x.records.zipIdx.foldl (fun d r =>
    d.putBytes (c.trap + 64 + 64 * ((x.cons + r.2) % 2 ^ c.tlog)) r.1) d
  let d := x.blocks.foldl (fun d b =>
    (d.putBytes (c.audBlock b.1) b.2.1).putBytes (c.audBlock b.1 + 2 ^ c.alog * 4096) b.2.2) d
  let d := d.putBytes (c.audBlock x.audProd) x.openBlock
  let m := (((d.dram.setNum 4 c.prodAt x.prod).setNum 4 c.consAt x.cons).setWord c.lostAt x.lost).setNum 4 c.audCtl x.audProd
  ({ d with dram := m.setNum 4 (c.audCtl + 8) x.audCons }).updCtx c.id fun c =>
    { c with auditRecs := x.auditRecs, dropped := x.dropped, lostNext := x.lostNext, waiting := x.waiting, repost := x.repost }

/-- One leaf of the source's tables, with the frame that its page has here; host pages keep their entry. -/
def putMapped (root : Nat) (frames : List (Nat × Nat)) (d : Device) (x : Nat × Nat) : Device :=
  let tables := match d.fresh with
    | none => []
    | some t => t :: (d.freshBelow [t] Config.frames).toList
  let put (d : Device) (va e : Nat) : Device := ((d.putLeaf root va e tables).map Prod.fst).getD d
  if eH x.2 then put d x.1 x.2
  else
    match frames.find? fun f => f.1 == field x.2 47 16 with
    | none => d
    | some f => put d x.1 (reframe x.2 f.2)

/-- Leaves of 512 MiB as leaves of 64 KiB. -/
def smallLeaves (frames : List (Nat × Nat)) (x : Nat × Nat) : List (Nat × Nat) :=
  let b := field x.2 47 16
  if eH x.2 then [x]
  else (frames.filter fun f => decide (b ≤ f.1 ∧ f.1 < b + 8192)).map fun f =>
    (x.1 + (f.1 - b) * 65536, reframe x.2 f.1)

/-- Cores here whose banks no one holds. -/
def Device.freeBanks (d : Device) : List Nat :=
  (List.range Config.cores).filter fun n => (d.bankOf n).owner.isNone && !(d.bankOf n).ctl.getLsbD 11

/-- A function that holds a unit for a context, as the context's function here. -/
def ObsFunc.here (c : Ctx) : ObsFunc → ObsFunc
  | .pf => .pf
  | .vf _ => .vf c.vf

/-- The banks of a context in free banks here; what is not counted here reads absent (R444). A hart follows the bank that its core
had. -/
def arriveBanks (c : Ctx) (x : Carried) (d : Device) : Device :=
  let places := x.banks.zip d.freeBanks
  let d := places.foldl (fun d p =>
    d.putBank { p.1.2 with core := p.2, owner := p.1.2.owner.map (ObsFunc.here c), ctr := p.1.2.ctr.map counterWrite }) d
  { d with saved := d.saved ++ x.harts.map fun h =>
      { h with num := ((places.find? fun p => p.1.1 == h.num).map Prod.snd).getD Config.cores } }

/-- Trace units here that no one holds. -/
def Device.freeTracers (d : Device) : List Nat :=
  (List.range Config.clusters).filter fun n => (d.tracerOf n).owner.isNone && !(d.tracerOf n).ctl.getLsbD 0

/-- A trace session goes on in a unit here, in the frame to which its ring has come; its first record is a lost record (R444). -/
def arriveTrace (c : Ctx) (frames : List (Nat × Nat)) (s : State) (p : Tracer × Nat) : State :=
  let base := p.1.base.toNat
  let at_ := ((frames.find? fun f => f.1 == base / 65536).map fun f => f.2 * 65536 + base % 65536).getD base
  (s.withDev fun d => d.putTracer { p.1 with
    cluster := p.2, base := BitVec.ofNat 64 at_, waiting := [], owner := p.1.owner.map (ObsFunc.here c), guest := none
    guestLost := 0 }).unitLost p.2 0 2

/-- The state of a context as it arrives. -/
def Device.arrive (d : Device) (c : Ctx) (x : Carried) (frames : List (Nat × Nat)) : Device :=
  let d := (d.putRings c x).updCtx c.id fun c => { c with groups := [] }
  let leaves := x.maps.flatMap fun l =>
    if (x.maps.any fun y => y.1 / 2 ^ 29 == l.1 / 2 ^ 29 && y.1 != l.1) || l.1 % 2 ^ 29 != 0 then [l]
    else smallLeaves frames l
  let d := leaves.foldl (putMapped (d.rootOf c) frames) d
  arriveBanks c x { d with gangs := d.gangs ++ x.gangs.map fun g => { g with vf := c.vf } }

/-- New ids for the gangs of a context: the kernel's choice where it is free, else one that no gang holds (R431). -/
def renumber (held : Nat → Bool) (gids : List (Nat × Nat)) : List Gang → List (Nat × Nat) → List (Nat × Nat)
  | [], l => l
  | g :: gs, l =>
    let used (n : Nat) : Bool := held n || l.any fun p => p.2 == n
    let n := match gids.find? fun p => p.1 == g.gid.toNat with
      | some p => if p.2 < 65536 && !used p.2 then p.2 else firstFree used 65536 0
      | none => firstFree used 65536 0
    renumber held gids gs (l ++ [(g.gid.toNat, n)])

/-- A gang id under the destination's numbering. -/
def newGidOf (gids : List (Nat × Nat)) (g : BitVec 16) : BitVec 16 :=
  match gids.find? fun p => p.1 == g.toNat with
  | some p => BitVec.ofNat 16 p.2
  | none => g

/-- The context's gangs and harts under new numbers, and on this package (R431). -/
def Carried.renamed (x : Carried) (d : Device) (gids : List (Nat × Nat)) : Carried :=
  let held (n : Nat) : Bool := d.gangs.any fun g => g.gid.toNat == n && g.st != .ended
  let l := renumber held gids x.gangs []
  { x with
    gangs := x.gangs.map fun g => { g with gid := newGidOf l g.gid, desc := { g.desc with pgid := newGidOf l g.desc.pgid } }
    harts := x.harts.map fun c =>
      { c with gid := (newGidOf l c.gang16).setWidth 64, hid := setField c.hid 29 24 d.chip.toNat } }

/-- Banks and trace units for what a context carries are free here. -/
def Device.roomFor (d : Device) (x : Carried) : Bool :=
  decide (x.banks.length ≤ d.freeBanks.length ∧ x.traces.length ≤ d.freeTracers.length)

/-- A context that has moved goes on here. -/
def State.settle (s : State) (c : Ctx) (x : Carried) (frames : List (Nat × Nat)) : State :=
  let units := x.traces.zip s.dev.freeTracers
  units.foldl (arriveTrace c frames) (s.withDev fun d => (d.arrive c x frames).endMove c.id)

/-- A frame of the context received by the destination, under a key of its own; a sealed one must measure as it
did. -/
def State.receive_ (s : State) (c : Ctx) (m : Move) (src f : Nat) (entry : Word) (plain : List Byte) (h : BitVec 256) : State :=
  let d := s.dev.zeroFrame f
  let d := { d with dram := d.dram.write (f * 65536) (plain.take 65536) }
  if entrySealed entry && d.measure f != h then s.failMove c.id
  else
    let e := setField (setField entry 20 11 (d.keyOf c)) 10 0 c.id &&& ~~~0xFF000000#64
    let d := if entrySealed entry then d.enterTag (entryTag entry) h else d
    { s with dev := (d.putFrame f e).putMove { m with frames := (src, f) :: m.frames } }

/-- Nothing of a context that has left stands on the source. -/
def Device.forget (d : Device) (ctx : Nat) : Device :=
  let gids := (d.gangs.filter fun g => g.ctx == ctx).map Gang.gid
  let own := (d.frames.filter fun p => !p.2.getLsbD 23 && wfield p.2 10 0 == ctx).map Prod.fst
  let d := own.foldl (fun d f => (d.zeroFrame f).putFrame f 0x800000) d
  let d := (d.banks.filter fun b => (b.ofCtx ctx).isSome).foldl (fun d b =>
    d.putBank (if b.guest.isSome then { b with guest := none } else .fresh b.core)) d
  let d := (d.tracers.filter fun t => (t.ofCtx ctx).isSome).foldl (fun d t =>
    d.putTracer (if t.guest.isSome then { t with guest := none } else .fresh t.cluster)) d
  { d with gangs := d.gangs.filter fun g => g.ctx != ctx
           saved := d.saved.filter fun c => !gids.contains c.gang16
           reserved := d.reserved.filter fun g => !gids.contains g
           ctxs := d.ctxs.filter fun c => c.id != ctx }

/-- CONTEXT_MIGRATION, one step at a time, at the source or at the destination. A move that has failed goes no further. -/
def execContextMigration (ctx : Nat) (step : MigrStep) (s : State) : Result :=
  match s.dev.ctx ctx with
  | none => .next s
  | some c =>
    let agreed := (s.dev.moveOf ctx).filter fun m => m.key.isSome
    match step with
    | .stopGangs =>
      if (s.dev.moveOf ctx).isNone then ((s.withDev fun d => d.putMove ⟨ctx, none, [], none⟩).forceContexts [ctx]).stayDue
      else if s.anyPlaced [ctx] then s.stayDue
      else .next s
    | .agree nonce key peer =>
      let now := s.dev.sealedOf ctx
      if s.anyPlaced [ctx] then s.stayDue
      else if s.dev.boot.getLsbD 2 || !now.all s.dev.sealSound || !Config.mlDsaPeerGood peer key then
        .next ((s.attest ctx nonce now).failMove ctx)
      else
        let m := (s.dev.moveOf ctx).getD ⟨ctx, none, [], none⟩
        .next ((s.attest ctx nonce now).withDev fun d => d.putMove { m with key := some key })
    | .sendFrame f =>
      let e := s.dev.frameEntry f
      match agreed.bind Move.key with
      | none => .next s
      | some k =>
        if !e.getLsbD 23 && wfield e 10 0 == ctx then
          .next (s.post (.frameSent ctx f e (Config.migrationCipher k (s.dev.dram.read 65536 (f * 65536)))))
        else .next s
    | .sendState => if agreed.isSome then .next (s.post (.stateSent (s.dev.carry c))) else .next s
    | .receiveFrame src f entry plain h =>
      match agreed with
      | none => .next s
      | some m => if s.dev.mayTake f && !s.dev.holds f then .next (s.receive_ c m src f entry plain h) else .next s
    | .receiveState =>
      match agreed, s.dev.arrivals.find? fun x => x.ctx == ctx with
      | some m, some x =>
        if m.state.isSome then .next s
        else
          .next (s.withDev fun d =>
            { d.putMove { m with state := some x } with arrivals := d.arrivals.filter fun x => x.ctx != ctx })
      | _, _ => .next s
    | .fail => if (s.dev.moveOf ctx).isSome then .next (s.failMove ctx) else .next s
    | .left => if agreed.isSome then .next (s.withDev fun d => (d.forget ctx).endMove ctx) else .next s
    | .resume gids =>
      match agreed, agreed.bind Move.state with
      | some m, some x => if s.dev.roomFor x then .next (s.settle c (x.renamed s.dev gids) m.frames) else s.stayDue
      | _, _ => .next s

end Sys2Proof.Machine
end

