-- ==== Sys2Proof/Machine/Regions.lean ====
section
/-! DEFINITION. Speculative regions and the hamper, break predicates, partition, trimming and path folding (spec/09
R257, R262 to R272, spec/03 R87). -/

namespace Sys2Proof.Machine

/-! ## Opening a region (R262) -/

/-- A region opened by the running word: streams' positions, `brk` and `brkp` are recorded as they stood before it;
an exit that has already resolved annuls it. -/
def Core.openRegion (c : Core) (fresh : Bool) : Core :=
  let b := if fresh then c.brk &&& 1 else c.brk
  let r : Region :=
    { vl := c.run.vl, rc := c.run.rc, words := 0, held := [], pos := c.q.map Stream.pos, brk := c.brk, brkp := c.brkp,
      supp := none, annulled := b.getLsbD 1, retired := [] }
  { c with brk := setBit b 0 true, brkp := c.run.prov, region := some r }

def execVspec (_c : Bool) (s : State) : Result := plainWord false (fun _ => .ok ()) (fun c => c.openRegion false) s
def execVspecf (_c : Bool) (s : State) : Result := plainWord false (fun _ => .ok ()) (fun c => c.openRegion true) s

/-! ## The exit (R266, R268) -/

/-- The lowest *lin* of an active element whose bit in va is 1, or *T*. -/
def Core.firstLin (c : Core) (m : Bool) (va : BitVec 5) : Nat :=
  match (c.activePairs m).find? fun p => c.maskBit va p.1 p.2 with
  | some p => p.1 * c.vlen + p.2
  | none => c.rows * c.vlen

/-- A held element performed in its word's place (R146): the frame is checked once more before the write (R414), and a
spoiled one spoils the line that it reaches (R418). -/
def Held.perform (h : Held) (s : State) : Except Stop State :=
  let bad : Option Fail := match h.place with
    | .dram a => ownerCheck (s.dev.frameEntry (a / 65536)) s.ctxId true
    | _ => none
  match bad with
  | some f => .error (.stop ⟨f.cause, h.addr, h.addr, 0⟩)
  | none =>
    let t := elemWrite s h.bits h.high h.place h.val
    .ok (if s.core.poison.contains (.held h.rank h.lin) then t.settlePoison.spoil h.place else t)

def performHeld : List Held → State → Except Stop State
  | [], s => .ok s
  | h :: hs, s =>
    match h.perform s with
    | .error e => .error e
    | .ok s => performHeld hs s

/-- The state words after an exit: `p` is the exit bit's *lin*, `b` the first element not completed, `q` the lowest
suppressed element. -/
def Core.resolved (c : Core) (p b : Nat) (q : Option (Nat × BitVec 3)) : Core :=
  let t := c.rows * c.vlen
  let at_ := (q.map fun x => Nat.min p x.1).getD p
  let base := setBit c.brk 0 false
  let brk' : Word :=
    if b < t then setField (setField (setBit base 1 true) 5 2 (at_ / c.vlen)) 20 6 (at_ % c.vlen)
    else setField (setField base 5 2 0) 20 6 0
  { c.unheld with brk := brk', brkp := 0, region := none }

/-- The body of `VEXIT`: `inc` is fn[2]. -/
def exitBody (o : MaskArgs) (inc : Nat) (s : State) : Except Stop State :=
  match s.core.region with
  | none => .ok s
  | some r =>
    if !s.core.wholeRuns then .ok s
    else
      let c := s.core
      let t := c.rows * c.vlen
      let p := c.firstLin o.m o.va
      let b := if p < t then p + inc else t
      let (b, c) := match r.supp with
        | some (q, why) =>
          if q < b then (q, { c with ffs := ffsWord why.toNat (q / c.vlen) (q % c.vlen) }) else (b, c)
        | none => (b, c)
      match performHeld (r.held.filter fun h => decide (h.lin < b)) { s with core := c } with
      | .error e => .error e
      | .ok s => .ok { s with core := s.core.resolved p b r.supp }

/-- `VEXIT` (R266): without an open region an operand limit; in an annulled one it only closes it (R268). -/
def exitWord (o : MaskArgs) (inc : Nat) (s : State) : Result :=
  if s.core.annulled then
    match firstUseOk s.core, regionOk s.core true with
    | .error e, _ => refuseWord s e
    | .ok _, .error e => refuseWord s e
    | .ok _, .ok _ =>
      endVec (s.withCore fun c =>
        if c.wholeRuns then { c.unheld with brk := setBit c.brk 0 false, brkp := 0, region := none } else c)
  else
    vecWord .whole true
      (fun c => needAll [need c.region.isSome 9 0, maskLimits o.m [o.va] c])
      (exitBody o inc) s

def execVexitb (o : MaskArgs) (s : State) : Result := exitWord o 0 s
def execVexiti (o : MaskArgs) (s : State) : Result := exitWord o 1 s

/-! ## Break predicates and partition (R270, R271) -/

/-- `VBRK` (R270): bits below *p*, or up to it. -/
def breakWord (o : MaskArgs) (inc : Nat) (s : State) : Result :=
  rowWord (fun c => needAll [needVl c (vtypeMax c.run.vtype), needApart [regSet o.vd] (regSet o.va :: maskSet o.m),
      sound c .row o.m c.stripW (elemReads [o.va] 1)])
    o.vd 1 (fun c r e => c.active o.m r e)
    (fun c r e => (decide (r * c.vlen + e < c.firstLin o.m o.va + inc)).toNat) s

def execVbrkb (o : MaskArgs) (s : State) : Result := breakWord o 0 s
def execVbrki (o : MaskArgs) (s : State) : Result := breakWord o 1 s

/-- `VPART` (R271): the elements that go on; `brk`.EXV when none does. -/
def execVpart (o : MaskArgs) (s : State) : Result :=
  vecWord .step false (maskLimits false [o.va, 0])
    (fun s =>
      let c := s.core.putBits .step false s.core.stripW o.vd fun r e => s.core.maskBit 0 r e && !s.core.maskBit o.va r e
      let none_ := (List.range c.rows).all fun r => (List.range c.vlen).all fun e => !c.maskBit o.vd r e
      .ok { s with core :=
        if c.fullRun then { c with brk := setField (setField (setBit c.brk 1 none_) 5 2 0) 20 6 0 } else c }) s

/-! ## Trimming (R257) and path folding (R272) -/

def execVfftrim (_c : Bool) (s : State) : Result :=
  plainWord false (fun _ => .ok ()) (fun c => if c.ffs.getLsbD 23 then c.trimYounger else c) s

/-- `VPFOLD` (R272): digests of vd take the nodes of va in. -/
def execVpfold (o : Arith) (s : State) : Result :=
  let rd := regSet o.va :: maskSet o.m
  computeWord .step
    (fun c => needAll [needEt (fun et => et == .n16 || et == .n32 || et == .n64) o.et, needVl c 256,
      needApart [regSet o.vd] rd, sound c .step o.m 64 fun r e => [(o.vd, r, e * 64), (o.va, r, e * o.et.width)]])
    (fun c => c.putElems .step o.m 64 64 o.vd fun r e =>
      (fold64 (BitVec.ofNat 64 (c.elem o.vd 64 r e)) (BitVec.ofNat 64 (c.elem o.va o.et.width r e))).toNat) s

end Sys2Proof.Machine
end

