-- ==== Sys2Proof/Machine/Dispatch.lean ====
section
/-! DEFINITION. One arm for every constructor of `Instr`. -/

namespace Sys2Proof.Machine

/-- The meaning of an instruction. -/
def exec (i : Instr) (s : State) : Host.Outcome State Fault Refusal :=
  match i with
  | .vadd o => Sys2Proof.Machine.execVadd o s
  | .vsub o => Sys2Proof.Machine.execVsub o s
  | .vmul o => Sys2Proof.Machine.execVmul o s
  | .vmulh o => Sys2Proof.Machine.execVmulh o s
  | .vmacc o => Sys2Proof.Machine.execVmacc o s
  | .vmin o => Sys2Proof.Machine.execVmin o s
  | .vmax o => Sys2Proof.Machine.execVmax o s
  | .vand o => Sys2Proof.Machine.execVand o s
  | .vor o => Sys2Proof.Machine.execVor o s
  | .vxor o => Sys2Proof.Machine.execVxor o s
  | .vshl o => Sys2Proof.Machine.execVshl o s
  | .vshr o => Sys2Proof.Machine.execVshr o s
  | .vsar o => Sys2Proof.Machine.execVsar o s
  | .vabs o => Sys2Proof.Machine.execVabs o s
  | .vsadd o => Sys2Proof.Machine.execVsadd o s
  | .vssub o => Sys2Proof.Machine.execVssub o s
  | .vfadd o => Sys2Proof.Machine.execVfadd o s
  | .vfsub o => Sys2Proof.Machine.execVfsub o s
  | .vfmul o => Sys2Proof.Machine.execVfmul o s
  | .vfma o => Sys2Proof.Machine.execVfma o s
  | .vfnma o => Sys2Proof.Machine.execVfnma o s
  | .vfdiv o => Sys2Proof.Machine.execVfdiv o s
  | .vfsqrt o => Sys2Proof.Machine.execVfsqrt o s
  | .vfrsqe o => Sys2Proof.Machine.execVfrsqe o s
  | .vfexp2 o => Sys2Proof.Machine.execVfexp2 o s
  | .vfmin o => Sys2Proof.Machine.execVfmin o s
  | .vfmax o => Sys2Proof.Machine.execVfmax o s
  | .vfclamp o => Sys2Proof.Machine.execVfclamp o s
  | .vfabs o => Sys2Proof.Machine.execVfabs o s
  | .vfneg o => Sys2Proof.Machine.execVfneg o s
  | .vcmpeq o => Sys2Proof.Machine.execVcmpeq o s
  | .vcmpne o => Sys2Proof.Machine.execVcmpne o s
  | .vcmplt o => Sys2Proof.Machine.execVcmplt o s
  | .vcmpge o => Sys2Proof.Machine.execVcmpge o s
  | .vcmple o => Sys2Proof.Machine.execVcmple o s
  | .vcmpgt o => Sys2Proof.Machine.execVcmpgt o s
  | .vfcmpeq o => Sys2Proof.Machine.execVfcmpeq o s
  | .vfcmpne o => Sys2Proof.Machine.execVfcmpne o s
  | .vfcmplt o => Sys2Proof.Machine.execVfcmplt o s
  | .vfcmple o => Sys2Proof.Machine.execVfcmple o s
  | .vfcmpgt o => Sys2Proof.Machine.execVfcmpgt o s
  | .vfcmpge o => Sys2Proof.Machine.execVfcmpge o s
  | .vfcmpun o => Sys2Proof.Machine.execVfcmpun o s
  | .vfcmpord o => Sys2Proof.Machine.execVfcmpord o s
  | .vmand o => Sys2Proof.Machine.execVmand o s
  | .vmor o => Sys2Proof.Machine.execVmor o s
  | .vmxor o => Sys2Proof.Machine.execVmxor o s
  | .vmnot o => Sys2Proof.Machine.execVmnot o s
  | .vmandn o => Sys2Proof.Machine.execVmandn o s
  | .vmpop o => Sys2Proof.Machine.execVmpop o s
  | .vmfirst o => Sys2Proof.Machine.execVmfirst o s
  | .vmscanand o => Sys2Proof.Machine.execVmscanand o s
  | .viota o => Sys2Proof.Machine.execViota o s
  | .vidx o => Sys2Proof.Machine.execVidx o s
  | .vidxr o => Sys2Proof.Machine.execVidxr o s
  | .vredsum o => Sys2Proof.Machine.execVredsum o s
  | .vredmin o => Sys2Proof.Machine.execVredmin o s
  | .vredmax o => Sys2Proof.Machine.execVredmax o s
  | .vredand o => Sys2Proof.Machine.execVredand o s
  | .vredor o => Sys2Proof.Machine.execVredor o s
  | .vredxor o => Sys2Proof.Machine.execVredxor o s
  | .vfredt o => Sys2Proof.Machine.execVfredt o s
  | .vfredo o => Sys2Proof.Machine.execVfredo o s
  | .vfredmax o => Sys2Proof.Machine.execVfredmax o s
  | .vfredmin o => Sys2Proof.Machine.execVfredmin o s
  | .vscansum o => Sys2Proof.Machine.execVscansum o s
  | .vscanmax o => Sys2Proof.Machine.execVscanmax o s
  | .vscanmin o => Sys2Proof.Machine.execVscanmin o s
  | .vcolsum o => Sys2Proof.Machine.execVcolsum o s
  | .vcolmax o => Sys2Proof.Machine.execVcolmax o s
  | .vcolmin o => Sys2Proof.Machine.execVcolmin o s
  | .vrgather o => Sys2Proof.Machine.execVrgather o s
  | .vrgatherw o => Sys2Proof.Machine.execVrgatherw o s
  | .vslideup o => Sys2Proof.Machine.execVslideup o s
  | .vslidedn o => Sys2Proof.Machine.execVslidedn o s
  | .vcompress o => Sys2Proof.Machine.execVcompress o s
  | .vexpand o => Sys2Proof.Machine.execVexpand o s
  | .vbcast o => Sys2Proof.Machine.execVbcast o s
  | .vmv o => Sys2Proof.Machine.execVmv o s
  | .vrowmv o => Sys2Proof.Machine.execVrowmv o s
  | .vrowbc o => Sys2Proof.Machine.execVrowbc o s
  | .vcvt o => Sys2Proof.Machine.execVcvt o s
  | .vpack2 o => Sys2Proof.Machine.execVpack2 o s
  | .vpack4 o => Sys2Proof.Machine.execVpack4 o s
  | .vunpk2 o => Sys2Proof.Machine.execVunpk2 o s
  | .vunpk4 o => Sys2Proof.Machine.execVunpk4 o s
  | .vqnt o => Sys2Proof.Machine.execVqnt o s
  | .vslicea o => Sys2Proof.Machine.execVslicea o s
  | .vsliceb o => Sys2Proof.Machine.execVsliceb o s
  | .vunslicea o => Sys2Proof.Machine.execVunslicea o s
  | .vunsliceb o => Sys2Proof.Machine.execVunsliceb o s
  | .vcprs4 o => Sys2Proof.Machine.execVcprs4 o s
  | .vspec c => Sys2Proof.Machine.execVspec c s
  | .vspecf c => Sys2Proof.Machine.execVspecf c s
  | .vbrkb o => Sys2Proof.Machine.execVbrkb o s
  | .vbrki o => Sys2Proof.Machine.execVbrki o s
  | .vexitb o => Sys2Proof.Machine.execVexitb o s
  | .vexiti o => Sys2Proof.Machine.execVexiti o s
  | .vpart o => Sys2Proof.Machine.execVpart o s
  | .vfftrim c => Sys2Proof.Machine.execVfftrim c s
  | .vpfold o => Sys2Proof.Machine.execVpfold o s
  | .vhacc o => Sys2Proof.Machine.execVhacc o s
  | .vld o => Sys2Proof.Machine.execVld o s
  | .vldx o => Sys2Proof.Machine.execVldx o s
  | .vldff o => Sys2Proof.Machine.execVldff o s
  | .vldsp o => Sys2Proof.Machine.execVldsp o s
  | .vldspx o => Sys2Proof.Machine.execVldspx o s
  | .vldp o => Sys2Proof.Machine.execVldp o s
  | .vst o => Sys2Proof.Machine.execVst o s
  | .vstx o => Sys2Proof.Machine.execVstx o s
  | .vsth o => Sys2Proof.Machine.execVsth o s
  | .vstp o => Sys2Proof.Machine.execVstp o s
  | .vamoAdd o => Sys2Proof.Machine.execVamoAdd o s
  | .vamoSwp o => Sys2Proof.Machine.execVamoSwp o s
  | .vamoMin o => Sys2Proof.Machine.execVamoMin o s
  | .vamoMax o => Sys2Proof.Machine.execVamoMax o s
  | .vamoAnd o => Sys2Proof.Machine.execVamoAnd o s
  | .vamoOr o => Sys2Proof.Machine.execVamoOr o s
  | .vamoXor o => Sys2Proof.Machine.execVamoXor o s
  | .vamoFadd o => Sys2Proof.Machine.execVamoFadd o s
  | .vxlt o => Sys2Proof.Machine.execVxlt o s
  | .vxltff o => Sys2Proof.Machine.execVxltff o s
  | .sopen c src q => Sys2Proof.Machine.execSopen c src q s
  | .sopenp c va q => Sys2Proof.Machine.execSopenp c va q s
  | .sadv c q src => Sys2Proof.Machine.execSadv c q src s
  | .sclose c q => Sys2Proof.Machine.execSclose c q s
  | .ssave c vd q => Sys2Proof.Machine.execSsave c vd q s
  | .mcomp o => Sys2Proof.Machine.execMcomp o s
  | .mcscan o => Sys2Proof.Machine.execMcscan o s
  | .mcscanc o => Sys2Proof.Machine.execMcscanc o s
  | .mclegal o => Sys2Proof.Machine.execMclegal o s
  | .mclegalx o => Sys2Proof.Machine.execMclegalx o s
  | .vsett c va ix => Sys2Proof.Machine.execVsett c va ix s
  | .vgett c vd ix => Sys2Proof.Machine.execVgett c vd ix s
  | .vfenceAcq c sc => Sys2Proof.Machine.execVfenceAcq c sc s
  | .vfenceRel c sc => Sys2Proof.Machine.execVfenceRel c sc s
  | .vfenceFull c sc => Sys2Proof.Machine.execVfenceFull c sc s
  | .vmark c src => Sys2Proof.Machine.execVmark c src s
  | .mshape t row0 col0 => Sys2Proof.Machine.execMshape t row0 col0 s
  | .mshapeg vd t => Sys2Proof.Machine.execMshapeg vd t s
  | .mzero t => Sys2Proof.Machine.execMzero t s
  | .mma o => Sys2Proof.Machine.execMma o s
  | .mmas o => Sys2Proof.Machine.execMmas o s
  | .msmma o => Sys2Proof.Machine.execMsmma o s
  | .mrd o => Sys2Proof.Machine.execMrd o s
  | .mrdz o => Sys2Proof.Machine.execMrdz o s
  | .mwr o => Sys2Proof.Machine.execMwr o s
  | .mwra o => Sys2Proof.Machine.execMwra o s
  | .msync vd p => Sys2Proof.Machine.execMsync vd p s
  | .vproj m slot t => Sys2Proof.Machine.execVproj m slot t s
  | .vprojs m vc slot k1 t => Sys2Proof.Machine.execVprojs m vc slot k1 t s
  | .vprojt m vc slot k1 t => Sys2Proof.Machine.execVprojt m vc slot k1 t s
  | .vprojb m vd slot t => Sys2Proof.Machine.execVprojb m vd slot t s
  | .vheaprd vd vc => Sys2Proof.Machine.execVheaprd vd vc s
  | .vpstrd vd => Sys2Proof.Machine.execVpstrd vd s
  | .vhmerge va vb => Sys2Proof.Machine.execVhmerge va vb s
  | .vhmergen va vb vc => Sys2Proof.Machine.execVhmergen va vb vc s
  | .vpstwr va vb vc => Sys2Proof.Machine.execVpstwr va vb vc s
  | .draw m vd va vb et => Sys2Proof.Machine.execDraw m vd va vb et s
  | .drawn m vd va vb et => Sys2Proof.Machine.execDrawn m vd va vb et s
  | .drawr m vd va vb et slot => Sys2Proof.Machine.execDrawr m vd va vb et slot s
  | .drawrn m vd va vb et slot => Sys2Proof.Machine.execDrawrn m vd va vb et slot s
  | .cpy o => Sys2Proof.Machine.execCpy o s
  | .cpyc vd va slot => Sys2Proof.Machine.execCpyc vd va slot s
  | .cpywait mreg p => Sys2Proof.Machine.execCpywait mreg p s
  | .cpywaitv mreg p => Sys2Proof.Machine.execCpywaitv mreg p s
  | .csend o => Sys2Proof.Machine.execCsend o s
  | .csendm o => Sys2Proof.Machine.execCsendm o s
  | .crecv o => Sys2Proof.Machine.execCrecv o s
  | .credsum o et => Sys2Proof.Machine.execCredsum o et s
  | .credmax o et => Sys2Proof.Machine.execCredmax o et s
  | .credmin o et => Sys2Proof.Machine.execCredmin o et s
  | .credrs o et => Sys2Proof.Machine.execCredrs o et s
  | .credheap o et => Sys2Proof.Machine.execCredheap o et s
  | .cwait mreg p => Sys2Proof.Machine.execCwait mreg p s
  | .cwaitv mreg p => Sys2Proof.Machine.execCwaitv mreg p s
  | .audlog o => Sys2Proof.Machine.execAudlog o s
  | .nop => Sys2Proof.Machine.execNop s
  | .halt => Sys2Proof.Machine.execHalt s
  | .ecall => Sys2Proof.Machine.execEcall s
  | .eret => Sys2Proof.Machine.execEret s
  | .wfe => Sys2Proof.Machine.execWfe s
  | .brk => Sys2Proof.Machine.execBrk s
  | .fenceAcq sc => Sys2Proof.Machine.execFenceAcq sc s
  | .fenceRel sc => Sys2Proof.Machine.execFenceRel sc s
  | .fenceFull sc => Sys2Proof.Machine.execFenceFull sc s
  | .add d a b => Sys2Proof.Machine.execAdd d a b s
  | .sub d a b => Sys2Proof.Machine.execSub d a b s
  | .and d a b => Sys2Proof.Machine.execAnd d a b s
  | .or d a b => Sys2Proof.Machine.execOr d a b s
  | .xor d a b => Sys2Proof.Machine.execXor d a b s
  | .shl d a b => Sys2Proof.Machine.execShl d a b s
  | .shr d a b => Sys2Proof.Machine.execShr d a b s
  | .sar d a b => Sys2Proof.Machine.execSar d a b s
  | .slt d a b => Sys2Proof.Machine.execSlt d a b s
  | .sltn d a b => Sys2Proof.Machine.execSltn d a b s
  | .min d a b => Sys2Proof.Machine.execMin d a b s
  | .max d a b => Sys2Proof.Machine.execMax d a b s
  | .minn d a b => Sys2Proof.Machine.execMinn d a b s
  | .maxn d a b => Sys2Proof.Machine.execMaxn d a b s
  | .clz d a => Sys2Proof.Machine.execClz d a s
  | .ctz d a => Sys2Proof.Machine.execCtz d a s
  | .popc d a => Sys2Proof.Machine.execPopc d a s
  | .mul d a b => Sys2Proof.Machine.execMul d a b s
  | .mulh d a b => Sys2Proof.Machine.execMulh d a b s
  | .mulhn d a b => Sys2Proof.Machine.execMulhn d a b s
  | .div d a b => Sys2Proof.Machine.execDiv d a b s
  | .divn d a b => Sys2Proof.Machine.execDivn d a b s
  | .rem d a b => Sys2Proof.Machine.execRem d a b s
  | .remn d a b => Sys2Proof.Machine.execRemn d a b s
  | .addi d a imm => Sys2Proof.Machine.execAddi d a imm s
  | .andi d a imm => Sys2Proof.Machine.execAndi d a imm s
  | .ori d a imm => Sys2Proof.Machine.execOri d a imm s
  | .xori d a imm => Sys2Proof.Machine.execXori d a imm s
  | .shli d a amt => Sys2Proof.Machine.execShli d a amt s
  | .shri d a amt => Sys2Proof.Machine.execShri d a amt s
  | .sari d a amt => Sys2Proof.Machine.execSari d a amt s
  | .slti d a imm => Sys2Proof.Machine.execSlti d a imm s
  | .lih d imm => Sys2Proof.Machine.execLih d imm s
  | .addpc d imm => Sys2Proof.Machine.execAddpc d imm s
  | .ins d a pos len => Sys2Proof.Machine.execIns d a pos len s
  | .ext d a pos len => Sys2Proof.Machine.execExt d a pos len s
  | .exts d a pos len => Sys2Proof.Machine.execExts d a pos len s
  | .ld8 d a imm => Sys2Proof.Machine.execLd8 d a imm s
  | .ld16 d a imm => Sys2Proof.Machine.execLd16 d a imm s
  | .ld32 d a imm => Sys2Proof.Machine.execLd32 d a imm s
  | .ld64 d a imm => Sys2Proof.Machine.execLd64 d a imm s
  | .ldn8 d a imm => Sys2Proof.Machine.execLdn8 d a imm s
  | .ldn16 d a imm => Sys2Proof.Machine.execLdn16 d a imm s
  | .ldn32 d a imm => Sys2Proof.Machine.execLdn32 d a imm s
  | .ldw d n off => Sys2Proof.Machine.execLdw d n off s
  | .st8 b a off => Sys2Proof.Machine.execSt8 b a off s
  | .st16 b a off => Sys2Proof.Machine.execSt16 b a off s
  | .st32 b a off => Sys2Proof.Machine.execSt32 b a off s
  | .st64 b a off => Sys2Proof.Machine.execSt64 b a off s
  | .amoAdd d a b size ord sc => Sys2Proof.Machine.execAmoAdd d a b size ord sc s
  | .amoSwp d a b size ord sc => Sys2Proof.Machine.execAmoSwp d a b size ord sc s
  | .amoCas d a b size ord sc => Sys2Proof.Machine.execAmoCas d a b size ord sc s
  | .amoMin d a b size ord sc => Sys2Proof.Machine.execAmoMin d a b size ord sc s
  | .amoMax d a b size ord sc => Sys2Proof.Machine.execAmoMax d a b size ord sc s
  | .amoMinn d a b size ord sc => Sys2Proof.Machine.execAmoMinn d a b size ord sc s
  | .amoMaxn d a b size ord sc => Sys2Proof.Machine.execAmoMaxn d a b size ord sc s
  | .amoAnd d a b size ord sc => Sys2Proof.Machine.execAmoAnd d a b size ord sc s
  | .amoOr d a b size ord sc => Sys2Proof.Machine.execAmoOr d a b size ord sc s
  | .amoXor d a b size ord sc => Sys2Proof.Machine.execAmoXor d a b size ord sc s
  | .beq a b off => Sys2Proof.Machine.execBeq a b off s
  | .bne a b off => Sys2Proof.Machine.execBne a b off s
  | .blt a b off => Sys2Proof.Machine.execBlt a b off s
  | .bge a b off => Sys2Proof.Machine.execBge a b off s
  | .bltn a b off => Sys2Proof.Machine.execBltn a b off s
  | .bgen a b off => Sys2Proof.Machine.execBgen a b off s
  | .jal d off => Sys2Proof.Machine.execJal d off s
  | .jalr d a imm => Sys2Proof.Machine.execJalr d a imm s
  | .setvl d a b => Sys2Proof.Machine.execSetvl d a b s
  | .sput slot a => Sys2Proof.Machine.execSput slot a s
  | .emit a => Sys2Proof.Machine.execEmit a s
  | .emitq d a => Sys2Proof.Machine.execEmitq d a s
  | .vfetch a off => Sys2Proof.Machine.execVfetch a off s
  | .vdrain mask => Sys2Proof.Machine.execVdrain mask s
  | .qwait mask a => Sys2Proof.Machine.execQwait mask a s
  | .mfs d n => Sys2Proof.Machine.execMfs d n s
  | .mts n a => Sys2Proof.Machine.execMts n a s
  | .wmpub w a sc => Sys2Proof.Machine.execWmpub w a sc s
  | .wmwait w a sc => Sys2Proof.Machine.execWmwait w a sc s
  | .barArrive => Sys2Proof.Machine.execBarArrive s
  | .barWait => Sys2Proof.Machine.execBarWait s
  | .barAw => Sys2Proof.Machine.execBarAw s
  | .launch d a => Sys2Proof.Machine.execLaunch d a s
  | .rseed a => Sys2Proof.Machine.execRseed a s
  | .rseek a => Sys2Proof.Machine.execRseek a s
  | .vqsave d a => Sys2Proof.Machine.execVqsave d a s
  | .vqload a b => Sys2Proof.Machine.execVqload a b s
  | .vcmst a => Sys2Proof.Machine.execVcmst a s
  | .vcmld a => Sys2Proof.Machine.execVcmld a s
  | .trapEntry t => Sys2Proof.Machine.execTrapEntry t s
  | .trapRecordDrop ctx => Sys2Proof.Machine.execTrapRecordDrop ctx s
  | .trapRingConsWrite ctx cons => Sys2Proof.Machine.execTrapRingConsWrite ctx cons s
  | .preemptionRequest gid => Sys2Proof.Machine.execPreemptionRequest gid s
  | .preemptGangWrite vf gid => Sys2Proof.Machine.execPreemptGangWrite vf gid s
  | .timeSliceExpiry gid => Sys2Proof.Machine.execTimeSliceExpiry gid s
  | .graceExpiry core => Sys2Proof.Machine.execGraceExpiry core s
  | .dispatchRound => Sys2Proof.Machine.execDispatchRound s
  | .ring0TailWrite vf tail => Sys2Proof.Machine.execRing0TailWrite vf tail s
  | .admission vf ring1 => Sys2Proof.Machine.execAdmission vf ring1 s
  | .barrierPhaseComplete gid => Sys2Proof.Machine.execBarrierPhaseComplete gid s
  | .watermarkUpdate core => Sys2Proof.Machine.execWatermarkUpdate core s
  | .wfeWake core => Sys2Proof.Machine.execWfeWake core s
  | .bucketRefill cluster => Sys2Proof.Machine.execBucketRefill cluster s
  | .l2Request cluster ctx => Sys2Proof.Machine.execL2Request cluster ctx s
  | .pageService core frames => Sys2Proof.Machine.execPageService core frames s
  | .faultResponseWrite v => Sys2Proof.Machine.execFaultResponseWrite v s
  | .priPageResponse pasid vpage present hostPage => Sys2Proof.Machine.execPriPageResponse pasid vpage present hostPage s
  | .atsInvalidation pasid vpage npages => Sys2Proof.Machine.execAtsInvalidation pasid vpage npages s
  | .translationInvalidation ctx va bytes => Sys2Proof.Machine.execTranslationInvalidation ctx va bytes s
  | .pageMigration ctx va toHost page => Sys2Proof.Machine.execPageMigration ctx va toHost page s
  | .frameTableUpdate frame entry => Sys2Proof.Machine.execFrameTableUpdate frame entry s
  | .hostDma vf ctx pa dma => Sys2Proof.Machine.execHostDma vf ctx pa dma s
  | .correctableError unit => Sys2Proof.Machine.execCorrectableError unit s
  | .uncorrectableError unit loc => Sys2Proof.Machine.execUncorrectableError unit loc s
  | .errorCountWindow unit => Sys2Proof.Machine.execErrorCountWindow unit s
  | .counterCount core ev n => Sys2Proof.Machine.execCounterCount core ev n s
  | .counterOverflow core idx => Sys2Proof.Machine.execCounterOverflow core idx s
  | .counterWrite core idx v => Sys2Proof.Machine.execCounterWrite core idx v s
  | .traceRecordDrop cluster => Sys2Proof.Machine.execTraceRecordDrop cluster s
  | .singleStepStop core => Sys2Proof.Machine.execSingleStepStop core s
  | .allocateBank who unit ctx => Sys2Proof.Machine.execAllocateBank who unit ctx s
  | .releaseBank who unit ctx => Sys2Proof.Machine.execReleaseBank who unit ctx s
  | .allocateTraceUnit who unit ctx => Sys2Proof.Machine.execAllocateTraceUnit who unit ctx s
  | .releaseTraceUnit who unit ctx => Sys2Proof.Machine.execReleaseTraceUnit who unit ctx s
  | .collectiveMatch msg => Sys2Proof.Machine.execCollectiveMatch msg s
  | .credJoin ctx grp tag parts => Sys2Proof.Machine.execCredJoin ctx grp tag parts s
  | .copyChunkArrival core idx => Sys2Proof.Machine.execCopyChunkArrival core idx s
  | .auditBlockSign ctx => Sys2Proof.Machine.execAuditBlockSign ctx s
  | .auditConsWrite ctx cons => Sys2Proof.Machine.execAuditConsWrite ctx cons s
  | .kernelResumeHart core => Sys2Proof.Machine.execKernelResumeHart core s
  | .kernelEnterHandler core => Sys2Proof.Machine.execKernelEnterHandler core s
  | .destroyGang gid => Sys2Proof.Machine.execDestroyGang gid s
  | .thawMaster m => Sys2Proof.Machine.execThawMaster m s
  | .functionLevelReset vf => Sys2Proof.Machine.execFunctionLevelReset vf s
  | .powerOnBoot b => Sys2Proof.Machine.execPowerOnBoot b s
  | .keySlotLoad slot key => Sys2Proof.Machine.execKeySlotLoad slot key s
  | .modelStoreLoad ctx va image frames => Sys2Proof.Machine.execModelStoreLoad ctx va image frames s
  | .checkpoint id ctxs => Sys2Proof.Machine.execCheckpoint id ctxs s
  | .checkpointRestore id => Sys2Proof.Machine.execCheckpointRestore id s
  | .attestationRequest ctx nonce => Sys2Proof.Machine.execAttestationRequest ctx nonce s
  | .contextMigration ctx step => Sys2Proof.Machine.execContextMigration ctx step s
  | .thermalLimit => Sys2Proof.Machine.execThermalLimit s
  | .thermalLimitClear => Sys2Proof.Machine.execThermalLimitClear s
  | .registerWrite r v => Sys2Proof.Machine.execRegisterWrite r v s
  | .illegalSWord w => Sys2Proof.Machine.execIllegalSWord w s
  | .illegalVWord w => Sys2Proof.Machine.execIllegalVWord w s
  | .sWordFetchFault => Sys2Proof.Machine.execSWordFetchFault s
  | .traceRingConsWrite cluster cons => Sys2Proof.Machine.execTraceRingConsWrite cluster cons s
  | .collectiveGroupBind ctx grp chips => Sys2Proof.Machine.execCollectiveGroupBind ctx grp chips s
  | .checkpointComplete id code => Sys2Proof.Machine.execCheckpointComplete id code s
  | .recoveryImageWrite slotB kernel image => Sys2Proof.Machine.execRecoveryImageWrite slotB kernel image s

end Sys2Proof.Machine
end

