-- ==== Sys2Proof/Machine/Convoy.lean ====
section
/-! DEFINITION. Convoys: their classes and conflicts, and how the members of one issue and retire together (spec/01 R25 to
R31, spec/08 R220, spec/20 R375). -/

namespace Sys2Proof.Machine

/-! ## Classes (Table 1-5, R220) -/

/-- Convoy classes of Table 1-5. -/
inductive Class where
  | arith
  | cross
  | load
  | store
  | solitary
  deriving DecidableEq, Repr

/-- The class of a vector-queue word. -/
def classOf (i : Instr) : Class :=
  match i with
  | .vadd _ | .vsub _ | .vmul _ | .vmulh _ | .vmacc _ | .vmin _ | .vmax _ | .vand _ | .vor _ | .vxor _ | .vshl _
  | .vshr _ | .vsar _ | .vabs _ | .vsadd _ | .vssub _ => .arith
  | .vfadd _ | .vfsub _ | .vfmul _ | .vfma _ | .vfnma _ | .vfdiv _ | .vfsqrt _ | .vfrsqe _ | .vfexp2 _ | .vfmin _
  | .vfmax _ | .vfclamp _ | .vfabs _ | .vfneg _ => .arith
  | .vcmpeq _ | .vcmpne _ | .vcmplt _ | .vcmpge _ | .vcmple _ | .vcmpgt _ | .vfcmpeq _ | .vfcmpne _ | .vfcmplt _
  | .vfcmple _ | .vfcmpgt _ | .vfcmpge _ | .vfcmpun _ | .vfcmpord _ => .arith
  | .vmand _ | .vmor _ | .vmxor _ | .vmnot _ | .vmandn _ | .vidx _ | .vidxr _ | .vmv _ => .arith
  | .vbcast o =>
    match o.src with
    | .elem _ _ => .cross
    | _ => .arith
  | .vcvt o => if o.et.width = o.sty.width then .arith else .cross
  | .vmpop _ | .vmfirst _ | .vmscanand _ | .viota _ | .vredsum _ | .vredmin _ | .vredmax _ | .vredand _ | .vredor _
  | .vredxor _ | .vfredt _ | .vfredo _ | .vfredmax _ | .vfredmin _ | .vscansum _ | .vscanmax _ | .vscanmin _
  | .vcolsum _ | .vcolmax _ | .vcolmin _ => .cross
  | .vrgather _ | .vrgatherw _ | .vslideup _ | .vslidedn _ | .vcompress _ | .vexpand _ | .vrowmv _ | .vrowbc _ => .cross
  | .vpack2 _ | .vpack4 _ | .vunpk2 _ | .vunpk4 _ | .vqnt _ | .vslicea _ | .vsliceb _ | .vunslicea _ | .vunsliceb _
  | .vcprs4 _ => .cross
  | .mcomp _ | .mcscan _ | .mcscanc _ | .mclegal _ | .mclegalx _ | .vpfold _ => .cross
  | .vld _ | .vldx _ | .vldff _ | .vldsp _ | .vldspx _ | .vldp _ | .vxlt _ | .vxltff _ | .vamoAdd _ | .vamoSwp _
  | .vamoMin _ | .vamoMax _ | .vamoAnd _ | .vamoOr _ | .vamoXor _ | .vamoFadd _ => .load
  | .vst _ | .vstx _ | .vsth _ | .vstp _ | .vhacc _ => .store
  | _ => .solitary

/-- Registers that a member of a convoy writes. -/
def writesOf (i : Instr) : List RegSet :=
  match i with
  | .vadd o | .vsub o | .vmul o | .vmulh o | .vmacc o | .vmin o | .vmax o | .vand o | .vor o | .vxor o | .vshl o
  | .vshr o | .vsar o | .vabs o | .vsadd o | .vssub o | .vfadd o | .vfsub o | .vfmul o | .vfma o | .vfnma o | .vfdiv o
  | .vfsqrt o | .vfrsqe o | .vfexp2 o | .vfmin o | .vfmax o | .vfclamp o | .vfabs o | .vfneg o | .vcmpeq o | .vcmpne o
  | .vcmplt o | .vcmpge o | .vcmple o | .vcmpgt o | .vfcmpeq o | .vfcmpne o | .vfcmplt o | .vfcmple o | .vfcmpgt o
  | .vfcmpge o | .vfcmpun o | .vfcmpord o | .vmpop o | .vmfirst o | .vmscanand o | .viota o | .vidx o | .vidxr o
  | .vredsum o | .vredmin o | .vredmax o | .vredand o | .vredor o | .vredxor o | .vfredt o | .vfredo o | .vfredmax o
  | .vfredmin o | .vscansum o | .vscanmax o | .vscanmin o | .vcolsum o | .vcolmax o | .vcolmin o | .vslideup o
  | .vslidedn o | .vcompress o | .vexpand o | .vmv o | .vpfold o => [regSet o.vd]
  | .vmand o | .vmor o | .vmxor o | .vmnot o | .vmandn o | .vbrkb o | .vbrki o | .vpart o => [regSet o.vd]
  | .vrgather o | .vrgatherw o => [regSet o.vd]
  | .vbcast o => [regSet o.vd]
  | .vrowmv o | .vrowbc o => [regSet o.vd]
  | .vcvt o | .vpack2 o | .vpack4 o | .vqnt o | .vslicea o | .vsliceb o | .vunslicea o | .vunsliceb o =>
    regSet o.vd :: oveSet o.ove
  | .vunpk2 o => [regSet o.vd 2]
  | .vunpk4 o => [regSet o.vd 4]
  | .vcprs4 o => [regSet o.vd, regSet o.vc]
  | .mcomp o => darnSets o [o.vd]
  | .mcscan o | .mcscanc o => darnSets o [o.vd] ++ [regSet o.vc]
  | .mclegal o | .mclegalx o => [regSet o.vd]
  | .vld o | .vldx o | .vldff o | .vldsp o | .vldspx o | .vldp o | .vamoAdd o | .vamoSwp o | .vamoMin o | .vamoMax o
  | .vamoAnd o | .vamoOr o | .vamoXor o | .vamoFadd o | .vhacc o => [regSet o.vd]
  | .vxlt o | .vxltff o => [regSet o.vd, regSet o.vc]
  | _ => []

/-- Registers that a cross-lane member reads; `sce` is the `vtype`.SCE that it carries. -/
def crossReads (sce : Bool) (i : Instr) : List RegSet :=
  match i with
  | .vmpop o | .vmfirst o | .vmscanand o | .viota o | .vredsum o | .vredmin o | .vredmax o | .vredand o | .vredor o
  | .vredxor o | .vfredt o | .vfredo o | .vfredmax o | .vfredmin o | .vscansum o | .vscanmax o | .vscanmin o | .vcolsum o
  | .vcolmax o | .vcolmin o => regSet o.va :: maskSet o.m
  | .vslideup o | .vslidedn o | .vcompress o | .vexpand o => arithReads o
  | .vpfold o => regSet o.vd :: regSet o.va :: maskSet o.m
  | .vrgather o | .vrgatherw o => regSet o.va (2 ^ o.g.toNat) :: regSet o.vb :: maskSet o.m
  | .vbcast o =>
    match o.src with
    | .elem va _ => regSet va :: maskSet o.m
    | _ => maskSet o.m
  | .vrowmv o | .vrowbc o => regSet o.va :: maskSet o.m
  | .vcvt o | .vunpk2 o | .vunpk4 o | .vslicea o | .vsliceb o | .vunslicea o | .vunsliceb o => regSet o.va :: maskSet o.m
  | .vpack2 o => regSet o.va 2 :: maskSet o.m
  | .vpack4 o => regSet o.va 4 :: maskSet o.m
  | .vqnt o => regSet o.va :: (if sce then [regSet 31] else []) ++ maskSet o.m
  | .vcprs4 o => [regSet o.va]
  | .mcomp o => darnSets o [o.va, o.vb]
  | .mcscan o => darnSets o [o.va]
  | .mcscanc o => darnSets o [o.va, o.vb]
  | .mclegal o | .mclegalx o => [regSet o.va, regSet o.vb] ++ maskSet o.m
  | _ => []

/-- How a stop finds a member (R217, R252). -/
def granOf (i : Instr) : Gran :=
  match i with
  | .vcolsum _ | .vcolmax _ | .vcolmin _ | .vslicea _ | .vsliceb _ | .vunslicea _ | .vunsliceb _ | .mcomp _ | .mcscan _
  | .mcscanc _ | .mclegal _ | .mclegalx _ => .whole
  | .vldff _ | .vxlt _ | .vxltff _ | .vbrkb _ | .vbrki _ => .row
  | .vpart _ => .step
  | i =>
    match classOf i with
    | .cross => .row
    | .solitary => .whole
    | _ => .step

/-! ## Conflicts (R375) -/

/-- A member of a convoy that decodes. -/
structure Member where
  e : QEntry
  i : Instr
  deriving DecidableEq, Repr

def Member.sce (m : Member) : Bool := m.e.vtype.getLsbD 15

/-- How many members of a class stand before a place. -/
def countClass (l : List Member) (k : Class) : Nat := (l.filter fun m => classOf m.i == k).length

/-- A member breaks a limit of Table 1-5 when it is counted with the members before it. -/
def breaks (before : List Member) (m : Member) : Bool :=
  match classOf m.i with
  | .arith => decide (2 ≤ countClass before .arith + countClass before .cross)
  | .cross =>
    decide (2 ≤ countClass before .arith + countClass before .cross) || decide (1 ≤ countClass before .cross) ||
      before.any fun b => (writesOf b.i).any fun w => (crossReads m.sce m.i).any fun r => w.meets r
  | .load => decide (1 ≤ countClass before .load)
  | .store => decide (1 ≤ countClass before .store)
  | .solitary => true

/-- The position of the first member whose counting breaks a limit; a solitary first member names the second. -/
def breakAt : List Member → List Member → Nat → Option Nat
  | _, [], _ => none
  | before, m :: ms, n =>
    if n = 0 then (if classOf m.i = .solitary then some 1 else breakAt [m] ms 1)
    else if breaks before m then some n
    else breakAt (before ++ [m]) ms (n + 1)

/-- `tval` of a conflict (Table 20-1): KIND 1 a class limit, KIND 2 a fourth word with C = 1. -/
def conflictOf (l : List Member) : Option Word :=
  if l.length < 2 then none
  else
    match breakAt [] l 0 with
    | some p => some (BitVec.ofNat 64 (p + 1 <<< 8 + l.length <<< 16))
    | none =>
      if l.length = 4 ∧ (l.getLast?.any fun m => m.e.word.getLsbD 63) then some (BitVec.ofNat 64 (3 + 2 <<< 8 + 4 <<< 16))
      else none

/-! ## Running a convoy -/

/-- A step that has started nothing yet: it runs whole, in every lane group. -/
def Core.fresh (c : Core) (e : QEntry) (m : RunMode) (hi : Vector Nat 4) : Core :=
  { c with run := e, mode := m, hi := hi, why := none }

/-- The sequencer holds nothing of a finished turn. -/
def State.clean (s : State) : State :=
  s.withCore fun c => { c with run := .empty, mode := .whole, hi := .replicate 4 512 }

/-- A word as it stands in the queue now: an earlier member of its convoy may have trimmed it (R257, R261). -/
def Core.nowEntry (c : Core) (e : QEntry) : QEntry := (c.vec.find? fun x => x.rank == e.rank).getD e

/-- The accesses that the checks of a vector memory word make. -/
def usesOf (i : Instr) (c : Core) : Uses :=
  match i with
  | .vld o | .vldsp o | .vldp o => c.memUses o .step false .read
  | .vldff o => c.memUses o .row false .read
  | .vldx o | .vldspx o => c.memUses o .mask true .read
  | .vst o | .vsth o | .vstp o => c.memUses o .step false .write
  | .vstx o => c.memUses o .mask true .write
  | .vamoAdd o | .vamoSwp o | .vamoMin o | .vamoMax o | .vamoAnd o | .vamoOr o | .vamoXor o | .vamoFadd o =>
    c.memUses o .mask true .atomic
  | .vxlt o | .vxltff o => c.xltUses o
  | _ => []

/-- What keeps a convoy from its end: the member that stops, why, and the accesses that the members up to it have made. -/
structure Halt where
  e : QEntry
  why : Stop
  uses : Uses
  deriving DecidableEq, Repr

/-- The members one after another up to `hi`, each over the results of those before it: the state, and the member that
a full hash table stops; or what keeps them from their end. A member that narrows the run narrows it for those after it. -/
def runMembers (mode : RunMode) (hi : Vector Nat 4) : List Member → State →
    Except Halt (State × Option (QEntry × StopInfo))
  | [], s => .ok ({ s with core := { s.core with hi := hi } }, none)
  | m :: ms, s =>
    let e := s.core.nowEntry m.e
    let c := s.core.fresh e mode hi
    let uses := usesOf m.i c
    let older (h : Halt) : Halt := { h with uses := uses ++ h.uses }
    match exec m.i { s with core := c } with
    | .fault _ | .refused _ => .error ⟨e, .hold, uses⟩
    | .next s' =>
      match s'.core.why with
      | none => (runMembers mode s'.core.hi ms s').mapError older
      | some (.stop i) =>
        if i.step = 512 then
          match (runMembers mode hi ms s').mapError older with
          | .ok (t, none) => .ok (t, some (e, i))
          | r => r
        else .error ⟨e, .stop i, uses⟩
      | some x => .error ⟨e, x, uses⟩

/-- Every member has retired: the counters are cleared, `CM` is freed if one of them owned it. -/
def State.retireConvoy (s : State) (l : List Member) : State :=
  let last := ((l.getLast?).map Member.e).getD .empty
  (s.withCore fun c =>
    ((l.map fun m => c.nowEntry m.e).foldl Core.retire c.clearSteps).wordDone last.prov).settlePoison

/-- A word whose progress `CM` holds (R252). -/
def usesCM (i : Instr) : Bool :=
  match i with
  | .vldx _ | .vldspx _ | .vstx _ | .vamoAdd _ | .vamoSwp _ | .vamoMin _ | .vamoMax _ | .vamoAnd _ | .vamoOr _
  | .vamoXor _ | .vamoFadd _ | .vhacc _ => true
  | _ => false

/-- A word of indexed form: its elements take their index from vb (R251). -/
def indexedOf (i : Instr) : Bool :=
  match i with
  | .vldx _ | .vldspx _ | .vstx _ | .vamoAdd _ | .vamoSwp _ | .vamoMin _ | .vamoMax _ | .vamoAnd _ | .vamoOr _
  | .vamoXor _ | .vamoFadd _ | .vhacc _ | .vxlt _ | .vxltff _ => true
  | _ => false

/-- Mask registers that an arithmetic or memory member reads: `v0` under m = 1, and the operands of a mask word. -/
def Member.masks (m : Member) : List RegSet :=
  maskSet (VRaw.unpack m.e.word).m ++
    (match m.i with
     | .vmand o | .vmor o | .vmxor o | .vmnot o | .vmandn o => [regSet o.va, regSet o.vb]
     | _ => [])

/-- The width at which a member sweeps: its et, and without one the carried `vtype`.ET (R214). -/
def Member.sweep (m : Member) : Nat :=
  match m.i with
  | .vmand _ | .vmor _ | .vmxor _ | .vmnot _ | .vmandn _ | .vmscanand _ | .vbrkb _ | .vbrki _ | .vexitb _ | .vexiti _
  | .vpart _ =>
    (stripType m.e.vtype).width
  | _ => (EType.ofCode (VRaw.unpack m.e.word).et).width

/-- A member sweeps a step (R13, R53, R214). -/
def Member.sweeps (m : Member) (st : Nat) : Bool :=
  match m.i with
  | .vspec _ | .vfftrim _ => st == 0
  | _ => decide (st / 32 < m.e.rc.toNat ∧ st % 32 * 512 < m.e.vl.toNat * m.sweep)

/-- Steps from 0 to the last that a member sweeps (Table 1-4). -/
def Member.span (m : Member) : Nat := (((List.range 512).reverse.find? m.sweeps).map Nat.succ).getD 0

/-- A member that writes bits of a mask, each in the step of its element. -/
def writesBits (i : Instr) : Bool :=
  match i with
  | .vcmpeq _ | .vcmpne _ | .vcmplt _ | .vcmpge _ | .vcmple _ | .vcmpgt _ | .vfcmpeq _ | .vfcmpne _ | .vfcmplt _
  | .vfcmple _ | .vfcmpgt _ | .vfcmpge _ | .vfcmpun _ | .vfcmpord _ | .vmand _ | .vmor _ | .vmxor _ | .vmnot _ | .vmandn _
  | .vhacc _ | .vpart _ => true
  | _ => false

/-- A member reads as a mask what an earlier one, or it itself, writes at another sweep width or as data: it waits for whole
rows of it (R219), and a stop inside the row would find bits of the mask overwritten (R31, R217, R379). -/
def crossWidth : List Member → List Member → Bool
  | _, [] => false
  | before, m :: ms =>
    (before ++ [m]).any (fun b =>
        (b.sweep != m.sweep || !writesBits b.i) && (writesOf b.i).any fun w => m.masks.any fun r => w.meets r) ||
      crossWidth (before ++ [m]) ms

/-- A bitwise word on planes that overwrites its own mask: row 0 of `v0` serves every plane (R222). -/
def planesOverMask (m : Member) : Bool :=
  (VRaw.unpack m.e.word).et == EType.sl.code && (writesOf m.i).any fun w => m.masks.any fun r => w.meets r

/-- How a stop finds a convoy: as the coarsest of its members; by rows where mask bits cross widths; whole where two members
would need `CM`, or planes overwrite their mask. -/
def convoyGran (l : List Member) : Gran :=
  if l.any (fun m => granOf m.i == .whole || planesOverMask m) || decide (2 ≤ (l.filter fun m => usesCM m.i).length) then
    .whole
  else if l.any (fun m => granOf m.i == .row) || crossWidth [] l then .row
  else .step

/-- A member performs its elements in ascending order (R131). -/
def convoyAo (l : List Member) : Bool := l.any fun m => (memArgsOf m.i).any MemArgs.ao

/-- Steps of each lane group that the convoy has retired. -/
def State.endedAt (t : State) (hi : Vector Nat 4) : State :=
  { t with core := { t.core with lgs := hi.map fun x => BitVec.ofNat 10 x } }

/-- A convoy of one word whose progress `CM` holds. -/
def loneCM (l : List Member) : Bool := l.length == 1 && l.any fun m => usesCM m.i

/-- The ends that a plan asks for, as the head convoy can end (R30, R131, R217): not before what has retired, and short of
its last step, which `CM` alone can hold. -/
def legalEnds (c : Core) (l : List Member) (ends : Vector Nat 4) : Vector Nat 4 :=
  let top := if loneCM l then 512 else 511
  let lo (lg : Nat) : Nat := min top (c.lgNow lg)
  let want (lg : Nat) : Nat := min top (ends.getD lg 0)
  match convoyGran l with
  | .whole => .ofFn fun lg => lo lg
  | .row => .replicate 4 (max (lo 0) (32 * (min (min (want 0) (want 1)) (min (want 2) (want 3)) / 32)))
  | _ =>
    if convoyAo l then prefixEnds (max (unitsBefore lo) (unitsBefore want))
    else .ofFn fun lg => max (lo lg) (want lg)

/-! ## The order of two memory members (R138) -/

/-- Bytes that a memory member touches at a step of a lane group. -/
structure Touch where
  step : Nat
  lg : Nat
  place : Place
  n : Nat
  deriving DecidableEq, Repr

/-- The bytes that a member touches; `t` is the state in which it starts. A `VHACC` may touch all of its table, and a `VSTP`
counts the elements too that its mask leaves out (R106). -/
def Member.touches (m : Member) (t : State) : List Touch :=
  match memArgsOf m.i with
  | none => []
  | some o =>
    let c := t.core
    let r := c.shapeOf o
    let w := o.et.width
    let at_ (k : Acc) (a : Word) (n : Nat) : Option Place :=
      match probeFor t (.word m.e.rank) a n k false with
      | .ok (p, _, _) => some p
      | .error _ => none
    let all (o : MemArgs) (indexed : Bool) (k : Acc) : List Touch :=
      (c.targets o indexed r fun _ _ => true).filterMap fun el =>
        (if shapeSp r then some (.spad el.addr.toNat) else at_ k el.addr (elemBytes o.et)).map fun p =>
          ⟨stepOf w el.row el.e, laneGroup w el.e, p, elemBytes o.et⟩
    match m.i with
    | .vhacc _ => (c.activePairs o.m).map fun p =>
        ⟨stepOf 32 p.1 p.2, laneGroup 32 p.2, .spad (r[0]).toNat, 8 * shapeExt r 0⟩
    | .vxlt _ | .vxltff _ => (c.activePairs o.m).filterMap fun p =>
        let a := (c.poolAt o.va).tbase + BitVec.ofNat 64 (8 * (c.elem o.vb 64 p.1 p.2 >>> (c.poolAt o.va).lt))
        (at_ .read a 8).map fun q => ⟨stepOf 64 p.1 p.2, laneGroup 64 p.2, q, 8⟩
    | .vstp _ => all { o with m := false } false .write
    | .vst _ | .vsth _ => all o false .write
    | .vstx _ => all o true .write
    | i => all o (indexedOf i) .read

/-- The states in which the members start when they run up to `hi`, as far as they get. -/
def startsOf (hi : Vector Nat 4) : List Member → State → List (Member × State)
  | [], _ => []
  | m :: ms, s =>
    let e := s.core.nowEntry m.e
    let t := { s with core := s.core.fresh e .ready hi }
    (⟨e, m.i⟩, t) ::
      match exec m.i t with
      | .next u => if u.core.why.isNone then startsOf hi ms u else []
      | _ => []

/-- Every access of the older member comes before every access of the younger: an acquire, or a release (R133, R134). A marked
load acquires for the bytes of its elements alone (R143). -/
def orderedAfter (a b : Member) : Bool :=
  ((memArgsOf a.i).any fun o => o.ord.getLsbD 0) || (memArgsOf b.i).any fun o => o.ord.getLsbD 1

/-- Steps of the younger of two memory members that a run ending at `h` would perform too early: the older has still to touch
their bytes, or all of its accesses come first (Table 5-3). -/
def tooEarly (c : Core) (h : Vector Nat 4) (a b : Member × State) (ran : State) : List Touch :=
  let left := (a.1.touches a.2).filter fun x => decide (h.getD x.lg 0 ≤ x.step)
  let done := (b.1.touches ran).filter fun x => decide (c.lgNow x.lg ≤ x.step ∧ x.step < h.getD x.lg 0)
  done.filter fun y => left.any fun x => orderedAfter a.1 b.1 || pieceMeets (x.place, x.n) (y.place, y.n)

/-- The ends lowered until no access of a convoy's members overtakes another that comes before it; ends that come in rows or in
one order fall back to what has retired. -/
def State.inStep (s : State) (l : List Member) : Nat → Vector Nat 4 → Vector Nat 4
  | 0, _ => .ofFn fun lg => min 511 (s.core.lgNow lg)
  | k + 1, h =>
    let mem := l.filter fun m => (memArgsOf m.i).isSome
    match mem with
    | a :: b :: _ =>
      let find (l : List (Member × State)) (m : Member) : Option (Member × State) :=
        l.find? fun x => x.1.e.rank == m.e.rank
      match find (startsOf (.replicate 4 512) l s) a, find (startsOf h l s) b with
      | some a, some b =>
        (match tooEarly s.core h a b b.2 with
         | [] => h
         | bad =>
           if convoyGran l != .step || convoyAo l then .ofFn fun lg => min 511 (s.core.lgNow lg)
           else
             s.inStep l k (.ofFn fun lg =>
               ((bad.filter fun x => x.lg == lg.val).map Touch.step).foldl min (h.getD lg 0)))
      | _, _ => h
    | _ => h

/-- The state in which a run has ended part-way: the steps retired, and the streams where they stood (R248). -/
def State.partOf (s t : State) (hi : Vector Nat 4) : State :=
  { t.endedAt hi with core := s.core.keepStreams (t.endedAt hi).core }

/-- The state in which a convoy has stopped (R30): every member has retired the same steps of each lane group, free
among those short of every fault (log 6). -/
def State.convoyPart (s : State) (l : List Member) (st : Nat) : State :=
  let h := freeEnds s (convoyGran l) (convoyAo l) st
  let s := { s with free := s.free + 1, core := s.core.claim }
  let h := s.inStep l 2048 h
  match runMembers .part h l s with
  | .ok (t, none) => s.partOf t h
  | _ =>
    let h := s.inStep l 2048 (clipEnds s.core h st)
    match runMembers .part h l s with
    | .ok (t, none) => s.partOf t h
    | _ => s

/-- A full hash table stops a convoy (R248, R260): its hash word, here in `t`, has tried every key; the other members have
retired short of the last step (log 54). -/
def State.hashStop (s t : State) (l : List Member) (e : QEntry) : State :=
  let s := s.withCore Core.claim
  let h := s.inStep l 2048 (legalEnds s.core l (.replicate 4 511))
  match runMembers .part h l s with
  | .ok (u, none) =>
    let vd := (VRaw.unpack e.word).vd
    let c := { u.core with spad := t.core.spad, cm := t.core.cm, cmv := t.core.cmv, cntLive := t.core.cntLive
                           wrote := t.core.wrote }
    s.partOf { u with core := c.setV vd (t.core.vreg vd) } h
  | _ => s

/-- A convoy of several members. -/
def State.runConvoy (s : State) (l : List Member) : Result :=
  match runMembers .part (.replicate 4 512) l s with
  | .ok (t, none) => .next (t.retireConvoy l).clean
  | .ok (t, some (e, i)) => .next (takeTrap (s.hashStop t l e).clean ⟨.word e.rank, i.cause, i.tval, i.addr⟩)
  | .error ⟨e, .stop i, uses⟩ =>
    .next (takeTrap ((s.touchAll uses).convoyPart l i.step).clean ⟨.word e.rank, i.cause, i.tval, i.addr⟩)
  | .error ⟨e, .deferred i, uses⟩ =>
    .next (takeTrap ((s.touchAll uses).convoyPart l i.step).clean ⟨.deferred e.rank, i.cause, i.tval, i.addr⟩)
  | .error ⟨_, .hold, uses⟩ => .next ((s.touchAll uses).withCore fun c => { c with why := some .hold })
  | .error ⟨e, .wait post, uses⟩ =>
    let s := s.touchAll uses
    .next ((({ s with core := { s.core with run := e } }).waiting post).withCore fun c => { c with why := some (.wait post) })

/-- The members of the head convoy, or the first that is no instruction (R371). -/
def membersOf : List QEntry → Except QEntry (List Member)
  | [] => .ok []
  | e :: es =>
    match decodeV e.word with
    | .error _ => .error e
    | .ok i =>
      match membersOf es with
      | .error x => .error x
      | .ok l => .ok (⟨e, i⟩ :: l)

/-- The head convoy of the vector queue runs (R26): an illegal member is reported first, then a conflict. -/
def State.vecTurn (s : State) : Result :=
  match membersOf s.core.headConvoy with
  | .error e => execIllegalVWord e.word { s with core := s.core.fresh e .whole (.replicate 4 512) }
  | .ok l =>
    match conflictOf l, l with
    | some t, m :: _ => .next (takeTrap s ⟨.word m.e.rank, 0x04, t, 0⟩)
    | _, [m] => exec m.i { s with core := s.core.fresh m.e .whole (.replicate 4 512) }
    | _, _ => s.runConvoy l

/-- Registers whose values a member's checks read. -/
def checkReads (m : Member) : List RegSet :=
  match memArgsOf m.i with
  | none => []
  | some o =>
    (if o.m then [regSet 0] else []) ++ (if indexedOf m.i then [regSet o.vb] else []) ++
      (match m.i with
       | .vxlt _ | .vxltff _ => [regSet o.va]
       | _ => [])

/-- The vector register that a word of the matrix queue writes, if any (Table 10-6). -/
def matWrites (w : BitVec 64) : Option (BitVec 5) :=
  match decodeV w with
  | .ok (.mshapeg vd _) => some vd
  | .ok (.mrd o) | .ok (.mrdz o) => some o.vd
  | .ok (.vprojb _ vd _ _) => some vd
  | .ok (.vheaprd vd _) => some vd
  | .ok (.vpstrd vd) => some vd
  | _ => none

/-- Step `st` of a lane group has completed in a member of the head convoy: it has retired, or the word owns `CM` and every
active element has its bit there (R397), or the member sweeps no such step (R22). -/
def Core.stepDone (c : Core) (m : Member) (lg st : Nat) : Bool :=
  let w := (EType.ofCode (VRaw.unpack m.e.word).et).width
  let c := { c with run := m.e }
  decide (st < c.lgNow lg) || !m.sweeps st ||
    (usesCM m.i && c.ownsCM && (c.activePairs (VRaw.unpack m.e.word).m).all fun p =>
      stepOf w p.1 p.2 != st || laneGroup w p.2 != lg || (c.cm.row p.1).getLsbD p.2)

/-- Progress index P(v, lg) (R22): of the youngest placed word that writes v, its steps from step 0 on that have completed, those
that it skips among them, and 512 while no placed word writes it. Only a member of the head convoy can have come past step 0
(log 5). -/
def Core.progress (c : Core) (v : BitVec 5) (lg : Nat) : Nat :=
  let writes (x : QEntry) : Bool :=
    match decodeV x.word with
    | .ok i => (writesOf i).any fun w => w.holds v
    | .error _ => false
  match ((c.vec.filter writes) ++ (c.mat.filter fun x => matWrites x.word == some v)).foldl
      (fun (y : Option QEntry) x => if (y.map QEntry.rank).all fun r => decide (r < x.rank) then some x else y) none with
  | none => 512
  | some x =>
    match membersOf c.headConvoy with
    | .error _ => 0
    | .ok l =>
      match l.find? fun m => m.e.rank == x.rank with
      | none => 0
      | some m => ((List.range m.span).takeWhile (c.stepDone m lg)).length

/-! ## A run that goes part of the way -/

/-- The mask as a word that `CM` tracks has read it, once it has begun the steps before `h` (R139). -/
def Core.readMask (c d : Core) (m : Member) (h : Vector Nat 4) : Core :=
  if (VRaw.unpack m.e.word).m then
    let c := { c with run := m.e }
    let begun : Vector Nat 4 := match c.maskRead with
      | some x => if x.rank = m.e.rank then .ofFn fun lg => max (x.begun.getD lg 0) (h.getD lg 0) else h
      | none => h
    { d with maskRead := some ⟨m.e.rank, (EType.ofCode (VRaw.unpack m.e.word).et).width,
      .ofFn fun r => foldN c.vlen (fun e x => rowBit x e (c.maskNow r e)) 0, begun⟩ }
  else d

/-- The head convoy goes as far as these ends, or to where elements that wait hold it back (R106, R143). A lone word that
`CM` tracks has its progress there. -/
def State.runPart (s : State) (l : List Member) (ends : Vector Nat 4) : Option State :=
  let s := s.withCore Core.claim
  let done (t : State) (h : Vector Nat 4) : State :=
    match loneCM l, l with
    | true, m :: _ => (t.withCore fun c => s.core.readMask c m h).clean
    | _, _ => (s.partOf t h).clean
  let h := s.inStep l 2048 (legalEnds s.core l ends)
  match runMembers .ready h l s with
  | .ok (t, none) =>
    if t.core.hi = h then some (done t h)
    else
      let h := s.inStep l 2048 (legalEnds s.core l t.core.hi)
      match runMembers .part h l s with
      | .ok (t, none) => some (done t h)
      | _ => none
  | _ => none

/-- The load of the head convoy reads elements ahead of their steps (R130), when its addresses stand and no older member
stores: the state with what it has read. -/
def State.readAhead (s : State) (l : List Member) (pick : Elem → Bool) : State :=
  let older := l.takeWhile fun m => classOf m.i != .load
  match l.find? fun m => classOf m.i == .load with
  | none => s
  | some m =>
    if older.any (fun x => classOf x.i == .store || (writesOf x.i).any fun w => (checkReads m).any fun r => w.meets r) then s
    else
      let t := { s with core := s.core.fresh (s.core.nowEntry m.e) .part (.replicate 4 512) }
      let go (o : MemArgs) (gran : Gran) (indexed pointers : Bool) : State :=
        if o.ao then s else (loadEarly o gran indexed pointers pick t).clean
      match m.i with
      | .vld o | .vldsp o => go o .step false false
      | .vldff o => go o .row false false
      | .vldx o | .vldspx o => go o .mask true false
      | .vldp o => go o .step false true
      | _ => s

/-- A convoy has come further. -/
def Core.further (c d : Core) : Bool := c.lgs != d.lgs || c.cm != d.cm || c.early != d.early

/-- The members of the head convoy, when they are instructions that may stand together. -/
def Core.headMembers (c : Core) : Option (List Member) :=
  match membersOf c.headConvoy with
  | .error _ => none
  | .ok l => if (conflictOf l).isSome then none else some l

/-! ## Going through the checks (R390) -/

/-- Registers that a word may name, with their groups. -/
def namedBy (w : BitVec 64) : List RegSet :=
  let r := VRaw.unpack w
  [regSet 0, regSet 31, regSet r.vd 8, regSet r.va 8, regSet r.vb 8, regSet r.vc 2]

/-- An older word whose results are open, one that waits or reads such results: only the position of its stream is known.
A word that no other may join, or one that trims, leaves nothing known. -/
def leftOpen (m : Member) (s : State) : Option State :=
  match m.i, memArgsOf m.i with
  | .vxltff _, _ => none
  | .vldff _, some o => if o.adv then none else some s
  | i, some o =>
    some (if classOf i != .store || o.adv then s.withCore fun c => { c with run := m.e }.advanceBy o (m.e.rc.toNat * m.e.vl.toNat)
      else s)
  | i, none => if classOf i = .solitary then none else some s

/-- The vector and matrix words before a word, run one after another as a trial: the state that they will have left, and the
registers whose values are open. The checks of the word read that state (R390). -/
def State.aheadOf : List QEntry → State → List RegSet → Option (State × List RegSet)
  | [], s, open_ => some (s, open_)
  | e :: es, s, open_ =>
    match decodeV e.word with
    | .error _ => none
    | .ok i =>
      let hazy : Bool := (namedBy e.word).any fun r => open_.any fun x => x.meets r
      if queOf e.word = .vec then
        let m : Member := ⟨s.core.nowEntry e, i⟩
        let gone (t : State) : State := (t.withCore fun c => c.retire m.e).clean
        let skip : Option (State × List RegSet) :=
          (leftOpen m s).bind fun t => State.aheadOf es (gone t) (writesOf i ++ open_)
        if hazy then skip
        else
          match exec i { s with core := s.core.fresh m.e .part (.replicate 4 512) } with
          | .next t => if t.core.why.isNone then State.aheadOf es (gone t) open_ else skip
          | _ => none
      else if hazy then none
      else
        match exec i { s with core := s.core.fresh e .whole (.replicate 4 512) } with
        | .next t => if t.core.mat.any fun x => x.rank == e.rank then none else State.aheadOf es t.clean open_
        | _ => none

/-- The unfinished vector and matrix words before a rank, in the order of placement. -/
def Core.before (c : Core) (rank : Nat) : List QEntry :=
  ((c.vec ++ c.mat).filter fun x => decide (x.rank < rank)).insertionSort fun a b => a.rank ≤ b.rank

/-- A word has passed its fault point with the translations found: the A and D bits of their leaves are set. -/
def State.passedWith (s : State) (rank : Nat) (pins : List Pin) (aim : Option Job) : State :=
  (s.touchAll (pins.map fun p => (BitVec.ofNat 64 (p.page * 65536), 1, p.acc))).withCore fun c =>
    c.updEntry rank fun e => { e with passed := true, pins := pins, aim := aim }

/-- A member passes its fault point before the words ahead of it have retired: its checks read what they will have left.
`VHACC` with HTE set passes only with its last element (R384). -/
def State.passMember (s : State) (m : Member) : Option State :=
  let hash : Bool := match m.i with
    | .vhacc _ => s.core.hte
    | _ => false
  match (if hash then none else State.aheadOf (s.core.before m.e.rank) s []) with
  | none => none
  | some (u, open_) =>
    if open_.any fun w => (checkReads m).any fun r => w.meets r then none
    else
      match exec m.i { u with core := u.core.fresh (u.core.nowEntry m.e) .check (.replicate 4 512) } with
      | .next t =>
        if t.core.why.isSome then none
        else some ({ s with dev := { s.dev with atc := t.dev.atc } }.passedWith m.e.rank t.core.run.pins none)
      | _ => none

/-- The members of a convoy pass in turn, as far as they can; `none` when none does. -/
def State.passMembers : List Member → State → Bool → Option State
  | [], s, moved => if moved then some s else none
  | m :: ms, s, moved =>
    if m.e.passed then State.passMembers ms s moved
    else
      match s.passMember m with
      | some t => State.passMembers ms t true
      | none => if moved then some s else none

/-- The whole convoys of a queue. -/
def convoysOf : List QEntry → List QEntry → List (List QEntry)
  | _, [] => []
  | acc, e :: es =>
    if e.word.getLsbD 63 && decide (acc.length < 3) then convoysOf (e :: acc) es
    else (e :: acc).reverse :: convoysOf [] es

/-- The first convoy with a member short of its fault point: its members pass. -/
def State.passFrom (s : State) : List (List QEntry) → Option State
  | [] => none
  | g :: gs =>
    match membersOf g with
    | .error _ => none
    | .ok l =>
      if (conflictOf l).isSome || g.any QEntry.parked then none
      else if g.all QEntry.passed then State.passFrom s gs
      else State.passMembers l s false

def State.passVec (s : State) : Option State := s.passFrom (convoysOf [] s.core.vec)

/-- The head word of the matrix queue, or a word of an engine, runs or starts. -/
def State.wordTurn (s : State) (e : QEntry) : Result :=
  let s := { s with core := s.core.fresh e .whole (.replicate 4 512) }
  match decodeV e.word with
  | .error _ => execIllegalVWord e.word s
  | .ok i => exec i s

end Sys2Proof.Machine
end

