-- ==== Sys2Proof/Machine/Turns.lean ====
section
/-! DEFINITION. Who moves next: when each agent of a core may act, what its turn does, and the order in which the agents
are tried when no plan says otherwise (spec/01 R15, R25, R34, spec/21 R388 to R391, R407; log 4). -/

namespace Sys2Proof.Machine

/-- What a younger word of another queue needs to know of retired `VSTP` words (R106): those that a word of the copy queue is
older than. -/
def Core.keepStps (c : Core) : Core := { c with stps := c.stps.filter fun v => c.cpy.any fun e => decide (e.rank < v.1) }

/-- What was read ahead serves the words that are still in the queue, and a mask read in parts its word while it is the head
(R130, R139). -/
def Core.keepReads (c : Core) : Core :=
  { c with early := c.early.filter fun x => c.vec.any fun e => e.rank == x.1
           maskRead := c.maskRead.filter fun x => (c.vec.head?).any fun e => e.rank == x.rank }

/-- A turn is over: the sequencer holds nothing, and what was written has cleared its poison (R418). -/
def State.tidy (s : State) : State :=
  ((s.withCore fun c => { c.keepStps.keepReads with why := none, supps := 0 }).clean).settlePoison

/-! ## Events that a turn counts (Table 13-5; the others come by COUNTER_COUNT, log 8) -/

/-- The S-word at the pc is one whose effect is to take a trap: `ECALL`, which is 3, or `BRK`, which is 6 (R189, R191). -/
def State.atTrapWord (s : State) : Bool :=
  match fetchBytes s false s.core.pc 4 with
  | .error _ => false
  | .ok (w, _) => w == 3 || w == 6

/-- An S-word that the Last of `s` has executed is complete in `t`: it does not wait, and no trap was taken at it but its own. -/
def completes (s t : State) : Bool :=
  !s.core.wfe && t.core.why.isNone &&
    (s.atTrapWord || t.core.stopped.isNone && t.core.trapWait.isNone && (s.core.kmode || !t.core.kmode))

/-- S-words executed, words placed, and those of them that were emitted. -/
def lastEvents (s t : State) : List (Nat × Nat) :=
  let emitted := t.core.words.filter fun e => decide (s.core.rank ≤ e.rank) && !e.restored && e.prov.getLsbD 63
  [(0x0010, (completes s t).toNat), (0x0011, t.core.rank - s.core.rank), (0x0012, emitted.length)]

/-- The pointer pair of a sample in a turn of the Last: the oldest word, which it may have placed itself, or its S-word. -/
def lastPair (s t : State) : Word × Word := if t.core.words.isEmpty then s.core.samplePair else t.core.samplePair

/-- The pair in a turn of a queue, whose words are unretired in the cycle of the event. -/
def queuePair (s _t : State) : Word × Word := s.core.samplePair

/-- Stores that the hamper holds. -/
def Core.heldCount (c : Core) : Nat := (c.region.map fun r => r.held.length).getD 0

/-- Nothing of the head convoy has been run yet. -/
def Core.unbegun (c : Core) : Bool := c.lgNow 0 + c.lgNow 1 + c.lgNow 2 + c.lgNow 3 == 0 && !c.cmNow

/-- Steps of the head convoy of `s` that have retired on the way to `t`, in the four lane groups: all that were left, or as `lgs`
show. -/
def stepsRetired (s t : State) : Nat :=
  let l := s.core.headMembers.getD []
  let gone := (t.core.vec.head?).map QEntry.rank != (s.core.vec.head?).map QEntry.rank
  ((List.range 4).map fun lg =>
    ((upTo (if gone then 512 else t.core.lgNow lg) (s.core.lgNow lg)).filter fun st => l.any fun m => m.sweeps st).length).sum

/-- Convoys started, steps retired, elements suppressed, `VSTH` elements held. -/
def vecEvents (s t : State) : List (Nat × Nat) :=
  let head (c : Core) : Option Nat := (c.vec.head?).map QEntry.rank
  let starts := s.core.unbegun && (head t.core != head s.core || s.core.further t.core)
  [(0x0013, starts.toNat), (0x0014, stepsRetired s t), (0x0040, t.core.supps), (0x0041, t.core.heldCount - s.core.heldCount)]

/-- The `VPROJ` word at the head has completed. -/
def matEvents (s t : State) : List (Nat × Nat) :=
  let done := (s.core.mat.head?).any fun e => opOf e.word == 0x68 && t.core.mat.all fun x => x.rank != e.rank
  [(0x0021, done.toNat)]

/-- A turn of a core: its bank counts the events as they happen, so what an overflow writes stands before the records of the stop
that the turn may end in (R346, R350). `ev` tells the events of a turn from its ends. -/
def tally (ev : State → State → List (Nat × Nat)) (pair : State → State → Word × Word) (turn : State → Result) (s : State) :
    Result :=
  match turn s with
  | .next t =>
    if s.bankCounts (s.dev.bankOf s.core.num) then
      let c := ({ s with free := t.free }).countEvents (pair s t) (ev s t)
      match turn { c with free := s.free } with
      | .next u => .next { u with free := max u.free c.free }
      | r => r
    else .next t
  | r => r

/-! ## When an agent may act -/

/-- The hart's Last and queues may move: it is placed, and neither the kernel nor a full trap ring holds it. -/
def Core.alive (c : Core) : Bool := c.going && !c.frozenHart

/-- A record of the core waits for room in its cluster's trace ring: the hart stalls (R348). -/
def State.stalls (s : State) : Bool :=
  (s.dev.tracer s.core.cluster).any fun t => t.waiting.any fun r => r.1 == some s.core.num

/-- The hart runs: nothing holds it, and no stop is due first. -/
def State.runs (s : State) : Bool := s.core.alive && s.core.stepDue.isNone && !s.core.forced && !s.stalls

/-- Words are stepped one at a time (R407). -/
def Core.oneByOne (c : Core) : Bool := wfield c.t.tdbg 1 0 == 2 && !c.kmode

/-- No word of another queue, or of another convoy, is unfinished before this one, when words are stepped. -/
def Core.alone (c : Core) (rank : Nat) : Bool :=
  !c.oneByOne || c.words.all fun x => decide (rank ≤ x.rank) && (x.job.isNone || x.rank == rank)

/-- The commit gate (R391): every older word of these queues has passed its fault point. -/
def gateOpen (l : List QEntry) (rank : Nat) : Bool := l.all fun x => decide (rank ≤ x.rank) || x.passed

/-- Every older word of a queue has left it. -/
def goneBefore (l : List QEntry) (rank : Nat) : Bool := l.all fun x => decide (rank ≤ x.rank)

/-- The register from which an engine word reads its descriptor. -/
def descRegs : RecSrc → List (BitVec 5)
  | .reg va => [va]
  | .slot _ => []

/-- Registers that the checks of a matrix or engine word read, before its fault point. -/
def checkRegs (w : BitVec 64) : List (BitVec 5) :=
  let r := VRaw.unpack w
  match decodeV w with
  | .ok (.cpy o) | .ok (.csend o) | .ok (.csendm o) | .ok (.crecv o) => descRegs o.src
  | .ok (.credsum o _) | .ok (.credmax o _) | .ok (.credmin o _) | .ok (.credrs o _) | .ok (.credheap o _) => descRegs o.src
  | .ok (.cpyc _ va _) => [va]
  | .ok (.vproj m _ _) => if m then [0] else []
  | .ok (.vprojs m vc _ _ _) | .ok (.vprojt m vc _ _ _) => if m then [vc, 0] else [vc]
  | .ok (.vpstwr _ _ vc) => [vc]
  | .ok _ => []
  | .error _ => [r.va, r.vc]

/-- An older one of these vector words writes what the checks of a word read. -/
def needsOlder (l : List Member) (e : QEntry) : Bool :=
  l.any fun m => decide (m.e.rank < e.rank) && (writesOf m.i).any fun w => (checkRegs e.word).any w.holds

/-- The head word of the matrix queue may run: the vector words before it have retired. -/
def Core.matReady (c : Core) : Option QEntry :=
  match c.mat with
  | [] => none
  | e :: _ =>
    if !e.parked && goneBefore c.vec e.rank && gateOpen (c.cpy ++ c.col) e.rank && c.alone e.rank then some e else none

/-- A vector word with acquire order at core scope or wider, or marked by a watermark, whose `WMPUB` gives the scope (R133,
note 6 of Table 5-4). -/
def acquires (m : Member) : Bool :=
  (memArgsOf m.i).any fun o => (o.ord.getLsbD 0 && o.sc != .hart) || o.we

/-- An engine word may start beside the older vector words (R287): they have passed their fault points, none writes its
descriptor, and none that acquires is unfinished. The mask register orders nothing (R139). -/
def Core.pastVec (c : Core) (e : QEntry) : Bool :=
  let older := c.vec.filter fun x => decide (x.rank < e.rank)
  older.isEmpty ||
    (match membersOf older with
     | .error _ => false
     | .ok l => older.all QEntry.passed && !needsOlder l e && !l.any acquires)

/-- The same for the matrix words, which acquire nothing. -/
def Core.pastMat (c : Core) (e : QEntry) : Bool :=
  c.mat.all fun x => decide (e.rank ≤ x.rank) ||
    (x.passed &&
      (let r := VRaw.unpack x.word
       !(checkRegs e.word).any fun v => [r.vd, r.va, r.vb, r.vc].contains v))

/-- The first word of an engine's queue that has not started. -/
def firstUnstarted (l : List QEntry) : Option QEntry := l.find? fun e => e.job.isNone

/-- A word of an engine may start, its own queue apart. -/
def Core.engineReady (c : Core) (others : List QEntry) (e : QEntry) : Bool :=
  !e.parked && c.pastVec e && c.pastMat e && gateOpen others e.rank && c.alone e.rank

/-- A word of the copy queue may start: in order, at most four at once (R285). -/
def Core.copyReady (c : Core) : Option QEntry :=
  if c.frozenCopy || decide (Config.copiesAtOnce ≤ (c.cpy.filter fun x => x.job.isSome).length) then none
  else (firstUnstarted c.cpy).filter (c.engineReady c.col)

/-- A word of the collective queue may start. -/
def Core.collReady (c : Core) : Option QEntry :=
  if c.frozenColl then none else (firstUnstarted c.col).filter (c.engineReady c.cpy)

/-- A running copy whose next chunk can move. -/
def State.nextChunk (s : State) : Option Nat :=
  if s.core.frozenCopy then none
  else
    s.core.cpy.findIdx? fun e => !e.parked &&
      (match e.job with
       | some j => !s.chunkWaits e j
       | none => false)

/-! ## Passing the fault point (R390) -/

/-- A word that reaches its fault point only as it starts: its descriptor is in memory (R283, R291), or it has its effect in
one step (`CPYC`). -/
def startsOnly (w : BitVec 64) : Bool :=
  let inSlot (src : RecSrc) : Bool :=
    match src with
    | .reg _ => false
    | .slot _ => true
  match decodeV w with
  | .ok (.cpy o) | .ok (.csend o) | .ok (.csendm o) | .ok (.crecv o) => inSlot o.src
  | .ok (.credsum o _) | .ok (.credmax o _) | .ok (.credmin o _) | .ok (.credrs o _) | .ok (.credheap o _) => inSlot o.src
  | .ok (.cpyc _ _ _) => true
  | _ => false

/-- `CPYWAIT` or `CWAIT`: no younger word of its queue starts before it completes (R290, R297). -/
def waitsFor (w : BitVec 64) : Bool := opOf w == 0x72 || opOf w == 0x7B

/-- A word of an engine's queue goes through its checks, the words of its queue before it apart: it has not started, may
before its start, and stands behind no wait. -/
def mayAim (q : List QEntry) (e : QEntry) : Bool :=
  e.job.isNone && !startsOnly e.word && !q.any fun y => waitsFor y.word && decide (y.rank < e.rank)

/-- A word of the other queues that may go through its checks before it can start: the first of its queue that has not, when
every older word has. -/
def Core.passNext (c : Core) : Option QEntry :=
  let first (q : List QEntry) : Option QEntry := q.find? fun e => !e.passed
  ((first c.mat).toList ++ ((first c.cpy).filter fun e => mayAim c.cpy e && !c.frozenCopy).toList ++
    ((first c.col).filter fun e => mayAim c.col e && !c.frozenColl).toList).find? fun e =>
      !e.parked && gateOpen c.words e.rank && c.alone e.rank

/-- What the checks of a word come to in a state. -/
def State.checked (s : State) (i : Instr) (e : QEntry) : Option State :=
  match exec i { s with core := s.core.fresh e .check (.replicate 4 512) } with
  | .next t => some t
  | _ => none

/-- An unfinished older word writes what the checks of a word read. -/
def Core.writesAhead (c : Core) (e : QEntry) : Bool :=
  (c.before e.rank).any fun x =>
    (match decodeV x.word with
     | .ok i => writesOf i
     | .error _ => []).any (fun w => (checkRegs e.word).any w.holds) ||
      (matWrites x.word).any fun v => (checkRegs e.word).contains v

/-- Such a word passes its fault point: its checks read what the words before it will have left. What they find against it is
reported, or requested (R366, R410), once no older word changes it. -/
def State.passWordTurn (s : State) (e : QEntry) : Option Result :=
  match decodeV e.word with
  | .error _ => some (s.wordTurn e)
  | .ok i =>
    match State.aheadOf (s.core.before e.rank) s [] with
    | none => none
    | some (u, open_) =>
      if (checkRegs e.word).any fun v => open_.any fun x => x.holds v then none
      else
        match u.checked i e with
        | none => none
        | some t =>
          let x := ((t.core.findEntry e.rank).map Prod.snd).getD e
          match t.core.why with
          | none | some (.deferred _) =>
            some (.next ({ s with dev := { s.dev with atc := t.dev.atc } }.passedWith e.rank x.pins x.aim))
          | some (.stop _) | some (.wait (some _)) =>
            if s.core.writesAhead e || (s.checked i e).all fun y => y.core.why != t.core.why then none
            else some (s.wordTurn e)
          | _ => none

/-! ## The gate for the head convoy (R391) -/

/-- A word between the members of the head convoy, whose first has the rank `first`, cannot pass before the convoy has come
further: an older word of it that has not passed is in the way, or its start waits for one that has, or its checks read results
that are still open (log 4). -/
def State.heldUp (s : State) (first : Nat) (x : QEntry) : Bool :=
  let c := s.core
  let q := c.queue (queOf x.word)
  let between (y : QEntry) : Bool := decide (first ≤ y.rank ∧ y.rank < x.rank)
  (c.words.any fun y => between y && !y.passed) ||
    (q.any fun y => between y && waitsFor y.word) ||
    (if startsOnly x.word then
      q.any fun y => (between y || y.rank == x.rank) && y.job.isNone && !(c.pastVec y && c.pastMat y)
     else (s.passWordTurn x).isNone)

/-- The gate for the head convoy: the words of the other queues older than its last member have passed. One between its members
holds it back as long as it can pass. -/
def State.convoyGate (s : State) (first last : Nat) : Bool :=
  (s.core.cpy ++ s.core.col ++ s.core.mat).all fun x =>
    decide (last ≤ x.rank) || x.passed || (decide (first < x.rank) && s.passVec.isNone && s.heldUp first x)

/-- The head convoy may issue: it is whole, none of it is parked, the matrix words before it are done, and the gate is
open. -/
def State.vecReady (s : State) : Bool :=
  let c := s.core
  match c.headConvoy with
  | [] => false
  | e :: es =>
    c.convoyWhole && (e :: es).all (fun x => !x.parked) && goneBefore c.mat e.rank && c.alone e.rank &&
      (match membersOf (e :: es) with
       | .ok _ => s.convoyGate e.rank (((e :: es).getLast?.map QEntry.rank).getD e.rank)
       | .error x => gateOpen (c.cpy ++ c.col) x.rank)

/-! ## Turns that come before the hart's own -/

/-- The stop of a single step that is due. -/
def State.stopTurn (s : State) : Option Result :=
  if s.core.alive && s.core.stepDue.isSome then some (execSingleStepStop s.core.num s) else none

/-- A forced stop that waited until the hart was on its own (R38, R421). -/
def State.forcedTurn (s : State) : Option Result :=
  if s.core.alive && s.core.forced then
    some (.next ((s.withCore fun c => { c with forced := false }).forceStop s.core.num))
  else none

/-- The management cores' service of the hart that the kernel holds; a stop taken
while TRD = 1 is the host's (R355). -/
def State.kernelTurn (s : State) : Option Result :=
  match s.core.stopped with
  | none => none
  | some k =>
    if s.core.placed && (k.nest || (!s.core.frozenHart && !k.host)) then some (.next s.kernelServe) else none

/-- A barrier phase that is due. -/
def State.barrierTurn (s : State) : Option Result :=
  match s.gang with
  | some g => if s.core.placed && g.phaseDue then some (execBarrierPhaseComplete g.gid s) else none
  | none => none

/-- A publication that is due. -/
def State.pubTurn (s : State) : Option Result :=
  match s.core.pubs with
  | p :: _ => if s.core.placed && s.core.pubReady p then some (execWatermarkUpdate s.core.num s) else none
  | [] => none

/-- A full audit block of the hart's context. -/
def State.auditTurn (s : State) : Option Result :=
  if s.core.placed && (s.dev.ctx s.ctxId).any (fun c => c.auditRecs == 63) then some (execAuditBlockSign s.ctxId s)
  else none

/-- Every seam is retired: the oldest transfer in progress has no path to its peer, and gets cause 0x1A (Table 22-3). -/
def State.seamTurn (s : State) : Option Result :=
  if s.core.alive && (List.range Config.seams).all (fun n => s.dev.retiredUnits.contains (.seam n)) then
    (s.core.col.find? fun e => e.job.isSome && !e.parked).map fun e => .next (engineDefer e.rank ⟨0x1A, 0, 0, 0⟩ s)
  else none

/-! ## Turns of the queues -/

/-- The head convoy waits: its words go through their checks, it goes as far as it can, and its load reads what waits for
nothing; without any of these, it waits. -/
def State.vecHeld (s held : State) : State :=
  let p := s.passVec.getD s
  let q := match p.core.headMembers with
    | none => p
    | some l => ((p.runPart l (.replicate 4 511)).getD p).readAhead l fun _ => true
  if s.passVec.isSome || s.core.further q.core then q else held

/-- The head convoy runs, whole or as far as it can. -/
def State.vecMoves (s : State) : Result :=
  match s.vecTurn with
  | .next t => .next (if t.core.why = some .hold then s.vecHeld t else t)
  | r => r

def State.vecAgent (s : State) : Option Result :=
  if s.runs && s.vecReady then some (tally vecEvents queuePair State.vecMoves s) else none

/-- The head convoy goes as far as a plan says, which may be less than it could. -/
def State.vecGoes (ends : Vector Nat 4) (s : State) : Option State :=
  let p := s.passVec.getD s
  (p.core.headMembers).bind fun l => p.runPart l ends

def State.vecToAgent (ends : Vector Nat 4) (s : State) : Option Result :=
  if s.runs && s.vecReady && (s.vecGoes ends).isSome then
    some (tally vecEvents queuePair (fun s => .next ((s.vecGoes ends).getD s)) s)
  else none

/-- The load of the head convoy reads elements ahead of their steps (R130). -/
def State.earlyAgent (lins : List Nat) (s : State) : Option Result :=
  if s.runs && s.vecReady then
    s.core.headMembers.map fun l => .next (s.readAhead l fun el => lins.contains el.lin)
  else none

/-- Words of the vector queue go through their checks (R390). -/
def State.passAgent (s : State) : Option Result := if s.runs then s.passVec.map Host.Outcome.next else none

def State.matAgent (s : State) : Option Result :=
  if s.runs then s.core.matReady.map fun e => tally matEvents queuePair (fun s => s.wordTurn e) s else none

def State.copyAgent (s : State) : Option Result :=
  if s.runs then s.core.copyReady.map s.wordTurn else none

def State.chunkAgent (s : State) : Option Result :=
  if s.core.going then s.nextChunk.map fun i => execCopyChunkArrival s.core.num i s else none

def State.collAgent (s : State) : Option Result :=
  if s.runs then s.core.collReady.map s.wordTurn else none

def State.passWordAgent (s : State) : Option Result :=
  if s.runs then s.core.passNext.bind s.passWordTurn else none

/-! ## The Last's turn -/

/-- With SSM = 1, an S-word that has completed in U mode makes a stop due (R407). -/
def State.stepped (s : State) (r : Result) : Result :=
  match r with
  | .next t =>
    if wfield s.core.t.tdbg 1 0 = 1 ∧ !s.core.kmode ∧ !t.core.kmode ∧ t.core.alive ∧ t.core.why.isNone then
      .next (t.withCore fun c => { c with stepDue := some nullProv })
    else r
  | r => r

/-- An S-word read at the pc: decoded and executed; a pattern that is not an S-word is cause 0x01 (R370). -/
noncomputable def State.runSWord (s : State) (w : BitVec 32) : Result :=
  match decodeS w with
  | .ok i => exec i s
  | .error _ => execIllegalSWord w s

/-- The Last: the S-word at the pc is fetched, decoded and executed. A `WFE` ends with its next turn (R190). -/
noncomputable def State.lastTurn (s : State) : Result :=
  if s.core.wfe then .next (s.withCore fun c => { c with wfe := false })
  else
    match fetchBytes s false s.core.pc 4 with
    | .error _ => execSWordFetchFault s
    | .ok (w, t) => s.stepped (t.runSWord (BitVec.ofNat 32 w))

noncomputable def State.lastAgent (s : State) : Option Result :=
  if s.runs then some (tally lastEvents lastPair State.lastTurn s) else none

/-! ## The order of the agents -/

/-- A turn that ends in a wait does not use the step up. -/
def tryTurn (a : State → Option Result) (s : State) : Bool × Result :=
  match a s with
  | none => (false, .next s)
  | some (.next t) => (t.core.why.isNone, .next t.tidy)
  | some r => (true, r)

/-- The agents in turn, until one has moved. -/
def runAgents : List (State → Option Result) → State → Bool × Result
  | [], s => (false, .next s)
  | a :: l, s =>
    match tryTurn a s with
    | (true, r) => (true, r)
    | (false, .next t) => runAgents l t
    | (false, r) => (true, r)

/-- Agents of a core, in the order in which they are tried. -/
noncomputable def agentsOfCore : List (State → Option Result) :=
  [State.stopTurn, State.forcedTurn, State.kernelTurn, State.barrierTurn, State.pubTurn, State.auditTurn, State.seamTurn,
    State.vecAgent, State.matAgent, State.copyAgent, State.chunkAgent, State.collAgent, State.passAgent,
    State.passWordAgent, State.lastAgent]

/-- The cores in turn, until an agent of one has moved. -/
noncomputable def runCores : List Nat → State → Bool × Result
  | [], s => (false, .next s)
  | n :: ns, s =>
    match runAgents agentsOfCore (s.focus n) with
    | (true, r) => (true, r)
    | (false, .next t) => runCores ns t
    | (false, r) => (true, r)

/-- An event that is due takes place; one that waits goes behind the others. -/
def State.eventTurn (s : State) : Option Result :=
  match s.inbox with
  | [] => none
  | i :: is =>
    match exec i { s with inbox := is } with
    | .next t => if t.core.why.isNone then some (.next t) else some (.next { t with inbox := t.inbox ++ [i] })
    | r => some r

/-- The turn of one agent of the focused core. -/
noncomputable def State.planned (s : State) (t : Turn) : Result :=
  let go (l : List (State → Option Result)) : Result := (runAgents l s).2
  match t with
  | .event => go [State.eventTurn]
  | .last => go [State.lastAgent]
  | .vec => go [State.vecAgent]
  | .vecTo ends => go [State.vecToAgent ends]
  | .vecEarly lins => go [State.earlyAgent lins]
  | .vecPass => go [State.passAgent]
  | .mat => go [State.matAgent]
  | .copy => go [State.copyAgent, State.chunkAgent, State.passWordAgent]
  | .coll => go [State.collAgent, State.passWordAgent]
  | .pub => go [State.pubTurn]
  | .focus n => .next (s.focus n)
  | .dropFetched l => .next (s.withCore fun c =>
      { c with icache := c.icache.filter fun x => x.1 != l, bcache := c.bcache.filter fun x => x.1 != l })

/-- Without a plan: an event that is due, then the cores in turn, the one that moved last after the others, so that none
waits for ever (R34); when nothing can move, nothing does. -/
noncomputable def State.unplanned (s : State) : Result :=
  match tryTurn State.eventTurn s with
  | (true, r) => r
  | (false, .next t) =>
    match runCores (t.rest.map Core.num ++ [t.core.num]) t with
    | (true, r) => r
    | (false, .next u) => .next (u.focus t.core.num)
    | (false, r) => r
  | (false, r) => r

/-- One step of the machine. -/
noncomputable def State.advanceMachine (s : State) : Result :=
  match s.plan with
  | t :: ts => { s with plan := ts }.planned t
  | [] => s.unplanned

end Sys2Proof.Machine
end

