-- ==== Sys2Proof/Machine/Placing.lean ====
section
/-! DEFINITION. A hart placed so that a given word is the next thing that runs (log 1): what a launch and a dispatcher's
round would have set up, made in one go. -/

namespace Sys2Proof.Machine

/-- The context, gang and page tables of the placed hart: root, level 2, level 3 and the page of code stand in frames
1 to 4, and the page at address 0x10000 is mapped for reading and fetching in U mode. -/
def Device.withProgram (d : Device) : Device :=
  let m := ((d.dram.setNum 8 0x10000 0x20001).setNum 8 0x20000 0x30001).setNum 8 0x30008 0x400D3
  let c : Ctx :=
    { id := 1, desc := #v[0x10000, 0, 0, 0, 0x50000, 6, 0x60000, 4], regions := [], handler := 0, groups := [],
      dropped := 0, lostNext := false, waiting := [], repost := [], auditRecs := 0, barred := false }
  let x : Desc :=
    { entry := 0x10000, bud := 0, bar := false, dep := false, nt := false, prio := 0, harts := 1,
      wmap := (.replicate 8 0), pv := false, sw := 0, pgid := 0, start := 0, coll := [], wins := (.replicate 8 (0, 0)) }
  let g : Gang :=
    { gid := 1, ctx := 1, vf := 0, ring1 := false, pos := 0, order := 0, desc := x, st := .placed, placedBefore := true,
      root := 0x10000, key := 0, w := (.replicate 8 0), raised := (.replicate 8 []), phase := 0, arrived := [], halted := [] }
  { d with
    dram := m
    frames := setFrameEntry d.frames 4 1
    ctxs := c :: d.ctxs.filter fun y => y.id != 1
    gangs := g :: d.gangs.filter fun y => y.gid != 1 }

/-- The focused core with a hart of that gang at the page's first word, nothing queued and nothing due. -/
def Core.withProgram (c : Core) : Core :=
  { c with
    placed := true, pc := 0x10000, gid := 1, vec := [], mat := [], cpy := [], col := [], restore := [], region := none,
    midFetch := none, wfe := false, barAw := [], launching := [], batches := [], stepDue := none, stopped := none,
    trapWait := none, frozenHart := false, frozenCopy := false, frozenColl := false, icache := [], bcache := [],
    forced := false }

/-- The machine with that hart, and one planned turn. -/
def State.placedWith (s : State) (t : Turn) : State :=
  { s with core := s.core.withProgram, dev := s.dev.withProgram, inbox := [], plan := [t] }

/-- The S-word `w` is the next that the Last fetches. -/
def State.withSWord (s : State) (w : Nat) : State :=
  let s := s.placedWith .last
  s.withDev fun d => { d with dram := d.dram.setNum 4 0x40000 w }

/-- The turn of a queue. -/
def Que.turn : Que → Turn
  | .vec => .vec
  | .mat => .mat
  | .cpy => .copy
  | .col => .coll

/-- The V-word `w` stands at the head of its queue, placed as by a block's `VFETCH`; a vector word with C = 1 is closed
by a `VMV` that moves nothing. -/
def State.withVWord (s : State) (w : BitVec 64) : State :=
  let s := s.placedWith (queOf w).turn
  s.withCore fun c =>
    let c' := c.place w (blockProv 0x10000 0) false
    if queOf w = .vec ∧ w.getLsbD 63 then
      { ({ c' with vl := 0 } : Core).place 0x3600000000000000 (blockProv 0x10000 1) false with vl := c.vl }
    else c'

/-- The instruction whose bits are `w` placed where the next step takes its instruction. -/
def State.placeWord (s : State) (nbits w : Nat) : State :=
  if nbits ≤ 32 then s.withSWord (w % 2 ^ 32) else s.withVWord (BitVec.ofNat 64 w)

end Sys2Proof.Machine
end

