-- ==== Sys2Proof/Safety.lean ====
section
/-! DEFINITION. What a well-kept state is, in the terms that claims use. -/

namespace Sys2Proof.Machine

/-- A core's scratchpad is in canonical form. -/
def Core.memOk (c : Core) : Bool := c.spad.wf

/-- Contexts on their way to this package: those that arrive, and those whose state has been received (R431). -/
def Device.onTheWay (d : Device) : List Carried := d.arrivals ++ d.moves.filterMap Move.state

/-- Every memory of the machine is in canonical form: the device's, the host's, and each scratchpad, those of saved harts,
of checkpoints and of contexts that arrive among them. -/
def State.memOk (s : State) : Bool :=
  s.dev.dram.wf && s.dev.host.wf && s.core.memOk && s.rest.all Core.memOk && s.dev.saved.all Core.memOk &&
    (s.dev.ckpts.all fun k => k.harts.all Core.memOk) && s.dev.onTheWay.all fun x => x.harts.all Core.memOk

/-- A core's status and trap words are legal: reserved bits read zero, the handler's address is aligned and in the address
space, and the single-step mode is one that R406 gives. -/
def Core.legal (c : Core) : Bool :=
  c.hstat &&& ~~~0x5F#64 == 0 && c.t.tvec &&& ~~~0x7FFFFFFFFFFFFC#64 == 0 && c.t.tdbg &&& ~~~0xF#64 == 0 &&
    c.t.tdbg &&& 3 != 3

/-- Every hart is legal: on its core, saved, in a checkpoint, or in a context that arrives. -/
def State.legal (s : State) : Bool :=
  s.core.legal && s.rest.all Core.legal && s.dev.saved.all Core.legal &&
    (s.dev.ckpts.all fun k => k.harts.all Core.legal) && s.dev.onTheWay.all fun x => x.harts.all Core.legal

/-- `c` is the machine `s` once the focused core's bank has counted the events of a turn (R346): only what counters and their
overflows write differs. A bank that counts nothing leaves `s`. `k` is how far the free values have gone. -/
def State.Counted (s c : State) (k : Nat) : Prop :=
  (s.bankCounts (s.dev.bankOf s.core.num) = false → c = s ∧ k = 0) ∧
    ∃ (n : Nat) (p : Word × Word) (evs : List (Nat × Nat)),
      c = { ({ s with free := n } : State).countEvents p evs with free := s.free }

/-- The free values have gone at least to `k`. -/
def State.past (s : State) (k : Nat) : State := { s with free := max s.free k }

end Sys2Proof.Machine
end

