-- ==== Sys2Proof/Safety/Scalar.lean ====
section
/-! DEFINITION. What the S-words of the Last leave, as spec/07_generator_instructions.md states it: the value that each
arithmetic word writes, and the state in which nothing else has changed. -/

namespace Sys2Proof.Machine

/-- `s[d]` holds `v` (a write of `s0` is discarded), the Last stands at the next word, and nothing else has changed
(R148, R176). -/
def State.wrote (s : State) (d : BitVec 5) (v : Word) : State :=
  { s with core := { s.core with
      s := if d = 0 then s.core.s else s.core.s.set d.toNat v
      pc := s.core.pc + 4 } }

/-- The Last stands at `a`, and nothing else has changed. -/
def State.movedTo (s : State) (a : Word) : State := { s with core := { s.core with pc := a } }

/-- The value of a source register: `s0` gives zero (R176). -/
def State.operand (s : State) (r : BitVec 5) : Word := if r = 0 then 0 else s.core.s[r.toNat]

/-- Set bits among bits 0 to n − 1. -/
def onesBelow (x : Word) : Nat → Nat
  | 0 => 0
  | n + 1 => onesBelow x n + (x.getLsbD n).toNat

/-- The lowest bit from `i` on that is set, looking at `n` bits. -/
def firstSet (x : Word) : Nat → Nat → Nat
  | 0, i => i
  | n + 1, i => if x.getLsbD i then i else firstSet x n (i + 1)

/-- Zero bits above the highest set bit, looking at bits n − 1 and below. -/
def zerosAbove (x : Word) : Nat → Nat
  | 0 => 0
  | n + 1 => if x.getLsbD n then 0 else 1 + zerosAbove x n

/-- `n` one bits, `n` from 1 to 64. -/
def lowOnes (n : Nat) : Word := BitVec.allOnes 64 >>> (64 - n)

/-- What an arithmetic S-word at `pc` writes, and where (R178 to R180, Tables 7-1 and 7-2). -/
def scalarValue (s : State) : Instr → Option (BitVec 5 × Word)
  | .add d a b => some (d, s.operand a + s.operand b)
  | .sub d a b => some (d, s.operand a - s.operand b)
  | .and d a b => some (d, s.operand a &&& s.operand b)
  | .or d a b => some (d, s.operand a ||| s.operand b)
  | .xor d a b => some (d, s.operand a ^^^ s.operand b)
  | .shl d a b => some (d, s.operand a <<< ((s.operand b).extractLsb' 0 6).toNat)
  | .shr d a b => some (d, s.operand a >>> ((s.operand b).extractLsb' 0 6).toNat)
  | .sar d a b => some (d, (s.operand a).sshiftRight ((s.operand b).extractLsb' 0 6).toNat)
  | .slt d a b => some (d, if (s.operand a).toInt < (s.operand b).toInt then 1 else 0)
  | .sltn d a b => some (d, if (s.operand a).toNat < (s.operand b).toNat then 1 else 0)
  | .min d a b => some (d, BitVec.ofInt 64 (Min.min (s.operand a).toInt (s.operand b).toInt))
  | .max d a b => some (d, BitVec.ofInt 64 (Max.max (s.operand a).toInt (s.operand b).toInt))
  | .minn d a b => some (d, BitVec.ofNat 64 (Min.min (s.operand a).toNat (s.operand b).toNat))
  | .maxn d a b => some (d, BitVec.ofNat 64 (Max.max (s.operand a).toNat (s.operand b).toNat))
  | .clz d a => some (d, BitVec.ofNat 64 (zerosAbove (s.operand a) 64))
  | .ctz d a => some (d, BitVec.ofNat 64 (firstSet (s.operand a) 64 0))
  | .popc d a => some (d, BitVec.ofNat 64 (onesBelow (s.operand a) 64))
  | .mul d a b => some (d, s.operand a * s.operand b)
  | .mulh d a b => some (d, ((s.operand a).signExtend 128 * (s.operand b).signExtend 128).extractLsb' 64 64)
  | .mulhn d a b => some (d, ((s.operand a).setWidth 128 * (s.operand b).setWidth 128).extractLsb' 64 64)
  | .div d a b => some (d, if s.operand b = 0 then 0xFFFFFFFFFFFFFFFF else (s.operand a).sdiv (s.operand b))
  | .divn d a b => some (d, if s.operand b = 0 then 0xFFFFFFFFFFFFFFFF else (s.operand a).udiv (s.operand b))
  | .rem d a b => some (d, if s.operand b = 0 then s.operand a else (s.operand a).srem (s.operand b))
  | .remn d a b => some (d, if s.operand b = 0 then s.operand a else (s.operand a).umod (s.operand b))
  | .addi d a i => some (d, s.operand a + i.signExtend 64)
  | .andi d a i => some (d, s.operand a &&& i.setWidth 64)
  | .ori d a i => some (d, s.operand a ||| i.setWidth 64)
  | .xori d a i => some (d, s.operand a ^^^ i.setWidth 64)
  | .shli d a n => some (d, s.operand a <<< n.toNat)
  | .shri d a n => some (d, s.operand a >>> n.toNat)
  | .sari d a n => some (d, (s.operand a).sshiftRight n.toNat)
  | .slti d a i => some (d, if (s.operand a).toInt < i.toInt then 1 else 0)
  | .lih d i => some (d, i.signExtend 64 * 65536)
  | .addpc d i => some (d, s.core.pc + i.signExtend 64 * 65536)
  | _ => none

/-- What a bit-field word writes, with the end p + n of its field (R181). -/
def fieldValue (s : State) : Instr → Option (BitVec 5 × Word × Nat)
  | .ins d a p l =>
    let m : Word := lowOnes (l.toNat + 1)
    some (d, (s.operand d &&& ~~~(m <<< p.toNat)) ||| ((s.operand a &&& m) <<< p.toNat), p.toNat + l.toNat + 1)
  | .ext d a p l => some (d, (s.operand a >>> p.toNat) &&& lowOnes (l.toNat + 1), p.toNat + l.toNat + 1)
  | .exts d a p l =>
    some (d, (s.operand a <<< (64 - (p.toNat + l.toNat + 1))).sshiftRight (63 - l.toNat), p.toNat + l.toNat + 1)
  | _ => none

/-- An S-word that moves the Last nowhere but to the next word (R176): none of R187 and R188, no `ERET`, no `HALT`. -/
def movesOn (i : Instr) : Bool :=
  match i with
  | .beq _ _ _ | .bne _ _ _ | .blt _ _ _ | .bge _ _ _ | .bltn _ _ _ | .bgen _ _ _ | .jal _ _ | .jalr _ _ _ | .eret | .halt => false
  | i => (encodeS i).isSome

/-- The condition of a branch and its offset in words (R187). -/
def branchOf (s : State) : Instr → Option (Bool × BitVec 16)
  | .beq a b o => some (s.operand a == s.operand b, o)
  | .bne a b o => some (s.operand a != s.operand b, o)
  | .blt a b o => some (decide ((s.operand a).toInt < (s.operand b).toInt), o)
  | .bge a b o => some (decide ((s.operand b).toInt ≤ (s.operand a).toInt), o)
  | .bltn a b o => some (decide ((s.operand a).toNat < (s.operand b).toNat), o)
  | .bgen a b o => some (decide ((s.operand b).toNat ≤ (s.operand a).toNat), o)
  | _ => none

end Sys2Proof.Machine
end

