-- ==== Sys2Proof/Safety/Access.lean ====
section
/-! DEFINITION. The memory words of the Last as spec/07 R182 to R186 tables them: what each names, and what it stores. -/

namespace Sys2Proof.Machine

/-- A scalar load: d, a, the immediate, its bytes, and whether it sign-extends (Table 7-4). -/
def loadOf : Instr → Option (BitVec 5 × BitVec 5 × BitVec 16 × Nat × Bool)
  | .ld8 d a i => some (d, a, i, 1, true)
  | .ld16 d a i => some (d, a, i, 2, true)
  | .ld32 d a i => some (d, a, i, 4, true)
  | .ld64 d a i => some (d, a, i, 8, true)
  | .ldn8 d a i => some (d, a, i, 1, false)
  | .ldn16 d a i => some (d, a, i, 2, false)
  | .ldn32 d a i => some (d, a, i, 4, false)
  | _ => none

/-- A scalar store: b, a, the offset, its bytes (Table 7-4). -/
def storeOf : Instr → Option (BitVec 5 × BitVec 5 × BitVec 16 × Nat)
  | .st8 b a o => some (b, a, o, 1)
  | .st16 b a o => some (b, a, o, 2)
  | .st32 b a o => some (b, a, o, 4)
  | .st64 b a o => some (b, a, o, 8)
  | _ => none

/-- An atomic: d, a, bytes, order field, scope (R185). -/
def amoOf : Instr → Option (BitVec 5 × BitVec 5 × Nat × BitVec 2 × Scope)
  | .amoAdd d a _ z o c | .amoSwp d a _ z o c | .amoCas d a _ z o c | .amoMin d a _ z o c | .amoMax d a _ z o c
  | .amoMinn d a _ z o c | .amoMaxn d a _ z o c | .amoAnd d a _ z o c | .amoOr d a _ z o c | .amoXor d a _ z o c =>
    some (d, a, 2 ^ z.toNat, o, c)
  | _ => none

/-- A value of `n` bytes read as a signed number. -/
def signedOf (n x : Nat) : Int := (BitVec.ofNat (8 * n) x).toInt

/-- What an atomic writes for the old value, or none when nothing is written (R185). -/
def amoNew (s : State) (old : Nat) : Instr → Option Nat
  | .amoAdd _ _ b z _ _ => some ((old + (s.operand b).toNat) % 2 ^ (8 * 2 ^ z.toNat))
  | .amoSwp _ _ b z _ _ => some ((s.operand b).toNat % 2 ^ (8 * 2 ^ z.toNat))
  | .amoCas d _ b z _ _ =>
    if old = (s.operand d).toNat % 2 ^ (8 * 2 ^ z.toNat) then some ((s.operand b).toNat % 2 ^ (8 * 2 ^ z.toNat)) else none
  | .amoMin _ _ b z _ _ =>
    let x := (s.operand b).toNat % 2 ^ (8 * 2 ^ z.toNat)
    some (if signedOf (2 ^ z.toNat) x < signedOf (2 ^ z.toNat) old then x else old)
  | .amoMax _ _ b z _ _ =>
    let x := (s.operand b).toNat % 2 ^ (8 * 2 ^ z.toNat)
    some (if signedOf (2 ^ z.toNat) old < signedOf (2 ^ z.toNat) x then x else old)
  | .amoMinn _ _ b z _ _ => some (Min.min old ((s.operand b).toNat % 2 ^ (8 * 2 ^ z.toNat)))
  | .amoMaxn _ _ b z _ _ => some (Max.max old ((s.operand b).toNat % 2 ^ (8 * 2 ^ z.toNat)))
  | .amoAnd _ _ b z _ _ => some (old &&& (s.operand b).toNat % 2 ^ (8 * 2 ^ z.toNat))
  | .amoOr _ _ b z _ _ => some (old ||| (s.operand b).toNat % 2 ^ (8 * 2 ^ z.toNat))
  | .amoXor _ _ b z _ _ => some (old ^^^ (s.operand b).toNat % 2 ^ (8 * 2 ^ z.toNat))
  | _ => none

/-- Bytes `lo` to `lo + n − 1` of `m'` hold the number `v`, low byte first, and every other byte is that of `m`
(R4). -/
def StoredAs (m m' : Memory) (lo n v : Nat) : Prop :=
  ∀ x, m'.get x = if lo ≤ x ∧ x < lo + n then BitVec.ofNat 8 (v / 256 ^ (x - lo)) else m.get x

/-- The device with other DRAM contents. -/
def State.withDram (s : State) (m : Memory) : State := { s with dev := { s.dev with dram := m } }
/-- The machine with other host memory contents. -/
def State.withHost (s : State) (m : Memory) : State := { s with dev := { s.dev with host := m } }

/-- The state notes which bytes have been written while something is poisoned (R418). -/
def State.noted (s : State) (p : Place) (n : Nat) : State :=
  if s.anyPoison then { s with core := { s.core with wrote := (p, n) :: s.core.wrote } } else s

end Sys2Proof.Machine
end

