-- ==== Sys2Proof/Safety/Words.lean ====
section
/-! DEFINITION. State words by their numbers (spec/02 Table 2-3), and what a queued word carries (spec/01 R14 to R17,
Table 2-15). -/

namespace Sys2Proof.Machine

/-- Elements of a row of the strip type that `vtype` names: 16,384 bits (R11, Table 2-6). -/
def rowLimit (vtype : BitVec 16) : Nat :=
  match (vtype.extractLsb' 0 4).toNat with
  | 0 | 4 | 12 | 13 => 2048
  | 1 | 5 | 10 | 11 => 1024
  | 2 | 6 | 9 => 512
  | 3 | 7 | 8 => 256
  | 14 => 4096
  | _ => 16384

/-- The value of a state word (Table 2-3), none for a number that the table does not list. -/
def stateValue (c : Core) (n : Nat) : Option Word :=
  match n with
  | 0x000 => some (c.vl.setWidth 64)
  | 0x001 => some (c.rc.setWidth 64)
  | 0x002 => some (c.vtype.setWidth 64)
  | 0x004 => some ((c.lgs[0]).setWidth 64)
  | 0x005 => some ((c.lgs[1]).setWidth 64)
  | 0x006 => some ((c.lgs[2]).setWidth 64)
  | 0x007 => some ((c.lgs[3]).setWidth 64)
  | 0x008 => some c.cmv
  | 0x009 => some c.ffs
  | 0x00A => some c.brk
  | 0x00B => some c.vdirty
  | 0x00C => some c.resoff
  | 0x00D => some c.brkp
  | 0x020 => some c.rkey
  | 0x021 => some c.rpos
  | 0x030 => some c.press.pstat
  | 0x040 => some c.t.tvec
  | 0x041 => some c.t.tcause
  | 0x042 => some c.t.tepc
  | 0x043 => some c.t.tprov
  | 0x044 => some c.t.tval
  | 0x045 => some c.t.tscratch
  | 0x046 => some c.t.tdbg
  | 0x047 => some c.t.twatch
  | 0x050 => some c.hstat
  | 0x051 => some c.gid
  | 0x052 => some c.hid
  | 0x060 => some c.tokbud
  | n => if 0x010 ≤ n ∧ n ≤ 0x01F then some (c.o.toList.getD (n - 0x010) 0) else none

/-- The trap words, which K mode alone reads and writes (Table 2-3). -/
def kernelNumber (n : Nat) : Prop := 0x040 ≤ n ∧ n ≤ 0x047

/-- Numbers that `MTS` may name in U mode (Table 2-3). -/
def userNumber (n : Nat) : Prop :=
  n = 0x000 ∨ n = 0x001 ∨ n = 0x002 ∨ n = 0x009 ∨ (0x010 ≤ n ∧ n ≤ 0x01F) ∨ n = 0x020 ∨ n = 0x021

/-- Numbers whose words wait until every older queued word has retired (R44). -/
def waitingNumber (n : Nat) : Prop := (0x004 ≤ n ∧ n ≤ 0x00D) ∨ n = 0x030

/-- The numbers that Table 2-3 lists. -/
def listedNumber (n : Nat) : Prop :=
  n ≤ 0x002 ∨ (0x004 ≤ n ∧ n ≤ 0x00D) ∨ (0x010 ≤ n ∧ n ≤ 0x021) ∨ n = 0x030 ∨ kernelNumber n ∨
    (0x050 ≤ n ∧ n ≤ 0x052) ∨ n = 0x060

/-- The bits of a value that a mask of a field map keeps. -/
def fieldsOf (v mask : Word) : Word := v &&& mask

/-- A core after an `MTS` of `v` to a state number (R5, R45, R202, Tables 2-4 to 2-18): RW fields take their bits, W1C bits
written as 1 are cleared, RO words stay. -/
def mtsLeaves (c : Core) (n : Nat) (v : Word) : Core :=
  match n with
  | 0x000 => { c with vl := BitVec.ofNat 15 (Min.min v.toNat (rowLimit c.vtype)), epoch := c.epoch + 1 }
  | 0x001 => { c with rc := BitVec.ofNat 5 (Min.min (Max.max v.toNat 1) 16), epoch := c.epoch + 1 }
  | 0x002 =>
    { c with vtype := v.setWidth 16, vl := BitVec.ofNat 15 (Min.min c.vl.toNat (rowLimit (v.setWidth 16))),
             epoch := c.epoch + 1 }
  | 0x008 => { c with cmv := c.cmv &&& ~~~(v &&& 2) }
  | 0x009 => { c with ffs := c.ffs &&& ~~~(v &&& 0x800000) }
  | 0x00B => { c with vdirty := c.vdirty &&& ~~~v }
  | 0x020 => { c with rkey := v }
  | 0x021 => { c with rpos := v, spent := false }
  | 0x040 => { c with t := { c.t with tvec := fieldsOf v 0x7FFFFFFFFFFFFC } }
  | 0x041 => { c with t := { c.t with tcause := fieldsOf v 0xFFF } }
  | 0x042 => { c with t := { c.t with tepc := fieldsOf v 0x7FFFFFFFFFFFFC } }
  | 0x043 => { c with t := { c.t with tprov := v } }
  | 0x044 => { c with t := { c.t with tval := v } }
  | 0x045 => { c with t := { c.t with tscratch := v } }
  | 0x046 => { c with t := { c.t with tdbg := if v.extractLsb' 0 2 = 3 then fieldsOf v 0xC else fieldsOf v 0xF } }
  | 0x047 => { c with t := { c.t with twatch := fieldsOf v 0x1FFFFFFFFFFFFFFF } }
  | 0x050 => { c with hstat := (c.hstat &&& ~~~0x5C#64) ||| (v &&& 0x5C) }
  | n => if 0x010 ≤ n ∧ n ≤ 0x01F then { c with o := c.o.setIfInBounds (n - 0x010) v } else c

/-- Provenance of an emitted word: bit 63, its sequence number, the address of its `EMIT` (Table 2-15). -/
def emittedFrom (pc eseq : Word) : Word := 1#1 ++ eseq.extractLsb' 0 10 ++ pc.extractLsb' 2 53

/-- Provenance of a block word: its offset and the block's address (Table 2-15). -/
def fetchedFrom (base : Word) (off : Nat) : Word := 0#3 ++ BitVec.ofNat 9 off ++ base.extractLsb' 3 52

/-- `e` carries what R14, R17 and R202 say a word placed by a hart carries. -/
structure Carries (c : Core) (w : BitVec 64) (prov : Word) (e : QEntry) : Prop where
  word : e.word = w
  prov : e.prov = prov
  pc : e.pc = c.pc
  vtype : e.vtype = c.vtype
  slots : e.slots = c.o
  random : e.rkey = c.rkey ∧ e.rpos = c.rpos
  enables : e.ven = c.ven ∧ e.men = c.men ∧ e.pen = c.pen
  length : c.trim = none → e.vl = c.vl ∧ e.rc = c.rc
  unstarted : e.passed = false ∧ e.parked = false ∧ e.job = none

end Sys2Proof.Machine
end

