-- ==== Sys2Proof/Safety/Traps.lean ====
section
/-! DEFINITION. What taking an exception and returning from one leave (spec/21 R386 to R404). -/

namespace Sys2Proof.Machine

/-- `t` stands at the in-hart handler after a trap of `s` with this report (R387): the trap words, MODE and PM, the program
counter and the parked words are as entry leaves them. `c` is what the report point left: the core itself, or the core after a word
fault's rewind. Everything else is as in `c`, but for the access that the Last gives up with its page requests, what the head convoy
had read ahead (R31), the end of a `WFE`, the grace timer that 0x17 stops (R423), and the number of the trace record. -/
structure EnteredHandler (s : State) (c : Core) (tcause tepc tprov tval : Word) (t : State) : Prop where
  core : let park (e : QEntry) : QEntry := { e with parked := true }
    t.core = { c with
      pc := c.t.tvec &&& 0x7FFFFFFFFFFFFC
      t := { c.t with tcause := tcause, tepc := tepc &&& 0x7FFFFFFFFFFFFC, tprov := tprov, tval := tval }
      hstat := (c.hstat &&& ~~~3#64) ||| 1
      vec := c.vec.map park, mat := c.mat.map park, cpy := c.cpy.map park, col := c.col.map park
      graceHeld := c.graceHeld || tcause.extractLsb' 0 8 == 0x17
      wfe := false, midFetch := none, early := [], maskRead := none, trapWait := none
      batches := t.core.batches, stampSeq := t.core.stampSeq }
  batches : ∀ b ∈ t.core.batches, b ∈ c.batches ∧ b.owner ≠ .last
  rest : t.rest = s.rest

/-- A hart that runs: neither the kernel nor a full trap ring holds it. -/
def Core.running (c : Core) : Prop := c.placed = true ∧ c.stopped = none ∧ c.trapWait = none

/-- Route H (Table 21-4): neither the kernel alone nor both. -/
def handlerAlone (cause : BitVec 8) : Prop :=
  cause ≠ 0x09 ∧ cause ≠ 0x0A ∧ cause ≠ 0x0B ∧ cause ≠ 0x16 ∧ cause ≠ 0x18 ∧ cause ≠ 0x19 ∧ cause ≠ 0x1A

/-- A trap goes to the kernel with NEST set (R389). -/
def nested (c : Core) : Prop := c.hstat.getLsbD 0 = true ∨ c.t.tvec.extractLsb' 2 53 = 0

/-- No trace unit serves the hart's cluster. -/
def untraced (s : State) : Prop := s.dev.tracer s.core.cluster = none

end Sys2Proof.Machine
end

