-- ==== Sys2Proof/Safety/Engines.lean ====
section
/-! DEFINITION. Copy and collective words as spec/10 R283 to R297 states them: descriptors by their bits, and a word that
starts, waits or completes. -/

namespace Sys2Proof.Machine

/-- A copy descriptor: SRC, DST and word 2 (Table 10-1). -/
def copyOf (mask : Option (BitVec 5)) (src dst d : Word) : Job :=
  { src := src, dst := dst, len := (d.extractLsb' 0 40).toNat, chunk := 2 ^ ((d.extractLsb' 45 3).toNat + 8)
    ssp := d.getLsbD 43, dsp := d.getLsbD 44, done := 0, mask := mask, tag := 0, grp := 0, peer := 0, op := 0, et := .i8 }

/-- A collective descriptor: BUF, DST, word 2 and word 3 (Table 10-2). -/
def transferOf (mask : Option (BitVec 5)) (op : BitVec 4) (et : EType) (buf dst d e : Word) : Job :=
  { src := buf, dst := dst, len := (d.extractLsb' 0 40).toNat, chunk := 2 ^ ((d.extractLsb' 40 3).toNat + 8)
    ssp := false, dsp := false, done := 0, mask := mask, tag := e.extractLsb' 48 16, grp := (e.extractLsb' 40 8).toNat
    peer := (e.extractLsb' 32 6).toNat, op := op, et := et }

/-- A started word: it has passed its fault point, and its job stands in its queue entry, with the translations that its
checks have found (R390). -/
def Core.started (c : Core) (j : Job) : Core :=
  let f (e : QEntry) : QEntry := if e.rank = c.run.rank then { e with passed := true, pins := c.run.pins, aim := some j, job := some j } else e
  { c with vec := c.vec.map f, mat := c.mat.map f, cpy := c.cpy.map f, col := c.col.map f }

/-- A word of rank `r` has left its queue; with SSM = 2 in U mode its end makes a step stop due (R407). -/
def Core.without (c : Core) (r : Nat) (prov : Word) : Core :=
  let keep (e : QEntry) : Bool := e.rank != r
  { c with
    vec := c.vec.filter keep, mat := c.mat.filter keep, cpy := c.cpy.filter keep, col := c.col.filter keep
    stepDue := if c.t.tdbg.extractLsb' 0 2 = 2 ∧ c.hstat.getLsbD 0 = false then some prov else c.stepDue }

/-- The collective words with what they do: kind, operator and element type. -/
def collOf : Instr → Option (EngArgs × CollKind × BitVec 4 × EType)
  | .csend o => some (o, .send, 0, .i8)
  | .csendm o => some (o, .sendAll, 0, .i8)
  | .crecv o => some (o, .recv, 0, .i8)
  | .credsum o et => some (o, .reduce, 0, et)
  | .credmax o et => some (o, .reduce, 1, et)
  | .credmin o et => some (o, .reduce, 2, et)
  | .credrs o et => some (o, .reduce, 3, et)
  | .credheap o et => some (o, .reduce, 4, et)
  | _ => none

/-- The wait words: queue, whether the vector queue counts too, mask register and bit. -/
def engineWaitOf : Instr → Option (Que × Bool × Option (BitVec 5) × BitVec 18)
  | .cpywait m p => some (.cpy, false, m, p)
  | .cpywaitv m p => some (.cpy, true, m, p)
  | .cwait m p => some (.col, false, m, p)
  | .cwaitv m p => some (.col, true, m, p)
  | _ => none

end Sys2Proof.Machine
end

