-- ==== Sys2Proof/Safety/Vector.lean ====
section
/-! DEFINITION. What the words of the vector queue leave in the registers, as spec/08 and spec/09 table them: for each word
the registers it writes, the elements, the value of each, and the limits that it is held to first (Table 20-4). -/

namespace Sys2Proof.Machine

/-! ## Elements, masks and runs -/

/-- Element *e* of width `w` in a row of a register (R52). -/
def elemAt (c : Core) (v : BitVec 5) (w row e : Nat) : Nat := (((c.v[v.toNat]).row row).extractLsb' (e * w) w).toNat

/-- A bit of a mask register (R56). -/
def bitAt (c : Core) (v : BitVec 5) (row e : Nat) : Bool := ((c.v[v.toNat]).row row).getLsbD e

/-- The mask bit of an element: of a step that its word has begun before, the bit that was read then (R56, R139). -/
def maskAt (c : Core) (row e : Nat) : Bool :=
  match c.maskRead with
  | some x =>
    if x.rank = c.run.rank ∧ row * 32 + e * x.w / 512 < x.begun.getD (e * x.w / 64 % 8 / 2) 0 then (x.mask.row row).getLsbD e
    else bitAt c 0 row e
  | none => bitAt c 0 row e

/-- m = 0, or the element's mask bit (R56). -/
def activeAt (c : Core) (m : Bool) (row e : Nat) : Bool := !m || maskAt c row e

/-- Active elements of a row, ascending. -/
def activesOf (c : Core) (m : Bool) (row : Nat) : List Nat :=
  (List.range c.run.vl.toNat).filter fun e => activeAt c m row e

/-- Steps of a lane group that the head convoy has retired; counters of a queue image that has been saved count for no
word of the queue as it stands now (R30, R46). -/
def countNow (c : Core) (g : Nat) : Nat := if c.cntLive then (c.lgs.getD g 0).toNat else 0

/-- An element that has not retired yet: its lane group has steps left (R30, R31, R53). -/
def stepLeft (c : Core) (w row e : Nat) : Bool :=
  decide (countNow c (e * w / 64 % 8 / 2) ≤ row * 32 + e * w / 512)

/-- A row that has not retired yet (R217). -/
def rowLeft (c : Core) (row : Nat) : Bool := decide (countNow c 0 / 32 ≤ row)

/-- A value of a type as an integer (R66). -/
def intOf (et : EType) (x : Nat) : Int := if et.isSigned then (BitVec.ofNat et.width x).toInt else x

/-- An integer modulo 2^w, as a pattern (R67). -/
def patOf (w : Nat) (x : Int) : Nat := (BitVec.ofInt w x).toNat

/-- The second source at an element (R155, R156, R213). -/
def srcAt (c : Core) (et : EType) (b : Src) (row e : Nat) : Nat :=
  match b with
  | .vv v => elemAt c v et.width row e
  | .vo n => ((c.run.slots[n.toNat]).setWidth et.width).toNat
  | .vi i => (immVal et i).getD 0

/-! ## Writes -/

/-- A group of elements that a word writes in one register: width, rows, elements of a row, which of them, and values. -/
structure VWrite where
  reg : Nat
  w : Nat
  rows : Nat
  n : Nat
  on : Nat → Nat → Bool
  val : Nat → Nat → Nat

/-- A write reaches a bit of a row of a register. -/
def VWrite.covers (x : VWrite) (reg row bit : Nat) : Bool :=
  decide (reg = x.reg ∧ row < x.rows ∧ bit / x.w < x.n) && x.on row (bit / x.w)

/-- Some element is written. -/
def VWrite.any (x : VWrite) : Prop := ∃ row e, row < x.rows ∧ e < x.n ∧ x.on row e = true

/-- The registers `v` are those of `c` after these writes, the later over the earlier: an element that none of them names
keeps every bit (R213). -/
def BitsAfter (c : Core) (l : List VWrite) (v : Vector VReg 32) : Prop :=
  ∀ (r : BitVec 5) row bit, row < 16 → bit < 16384 → ((v[r.toNat]).row row).getLsbD bit =
    match l.reverse.find? fun x => x.covers r.toNat row bit with
    | some x => (x.val row (bit / x.w)).testBit (bit % x.w)
    | none => ((c.v[r.toNat]).row row).getLsbD bit

/-- The registers and their dirty bits `d` after these writes (R49). -/
structure Leaves (c : Core) (l : List VWrite) (v : Vector VReg 32) (d : Word) : Prop where
  bits : BitsAfter c l v
  dirty : ∀ i, d.getLsbD i = true ↔ c.vdirty.getLsbD i = true ∨ ∃ x ∈ l, i = x.reg ∧ x.any

/-- An element-wise word (R213): sweep width `sw`, destination width `w`. -/
def laneElems (c : Core) (m : Bool) (sw w : Nat) (vd : BitVec 5) (f : Nat → Nat → Nat) : VWrite :=
  { reg := vd.toNat, w := w, rows := c.run.rc.toNat, n := c.run.vl.toNat
    on := fun r e => activeAt c m r e && stepLeft c sw r e, val := f }

/-- A word that retires row by row (R217). -/
def rowsOf (c : Core) (w : Nat) (vd : BitVec 5) (on : Nat → Nat → Bool) (f : Nat → Nat → Nat) : VWrite :=
  { reg := vd.toNat, w := w, rows := c.run.rc.toNat, n := c.run.vl.toNat
    on := fun r e => rowLeft c r && on r e, val := f }

/-- The overflow mask of a conversion (R57): bits are set at elements that saturated, and none is cleared. -/
def flagged (ove : Option (BitVec 5)) (x : VWrite) (f : Nat → Nat → Bool) : List VWrite :=
  match ove with
  | none => []
  | some v => [{ x with reg := v.toNat, w := 1, on := fun r e => x.on r e && f r e, val := fun _ _ => 1 }]

/-! ## Integer words (Tables 8-3 and 8-5) -/

/-- Clamped to the range of a type (R221). -/
def clampTo (et : EType) (x : Int) : Int :=
  if et.isSigned then Max.max (-(2 ^ (et.width - 1))) (Min.min x (2 ^ (et.width - 1) - 1))
  else Max.max 0 (Min.min x (2 ^ et.width - 1))

/-- The integer words: what element (r, e) becomes for the sources a and b and the old element d. -/
def integerValue (i : Instr) : Option (Arith × (Nat → Nat → Nat → Nat)) :=
  match i with
  | .vadd o => some (o, fun a b _ => (a + b) % 2 ^ o.et.width)
  | .vsub o => some (o, fun a b _ => (a + (2 ^ o.et.width - b)) % 2 ^ o.et.width)
  | .vmul o => some (o, fun a b _ => a * b % 2 ^ o.et.width)
  | .vmulh o => some (o, fun a b _ => patOf o.et.width (intOf o.et a * intOf o.et b / 2 ^ o.et.width))
  | .vmacc o => some (o, fun a b d => (d + a * b) % 2 ^ o.et.width)
  | .vmin o => some (o, fun a b _ => if intOf o.et b < intOf o.et a then b else a)
  | .vmax o => some (o, fun a b _ => if intOf o.et a < intOf o.et b then b else a)
  | .vshl o => some (o, fun a b _ => a * 2 ^ (b % o.et.width) % 2 ^ o.et.width)
  | .vshr o => some (o, fun a b _ => a / 2 ^ (b % o.et.width))
  | .vsar o => some (o, fun a b _ => ((BitVec.ofNat o.et.width a).sshiftRight (b % o.et.width)).toNat)
  | .vsadd o => some (o, fun a b _ => patOf o.et.width (clampTo o.et (intOf o.et a + intOf o.et b)))
  | .vssub o => some (o, fun a b _ => patOf o.et.width (clampTo o.et (intOf o.et a - intOf o.et b)))
  | .vand o => if o.et = .sl then none else some (o, fun a b _ => a &&& b)
  | .vor o => if o.et = .sl then none else some (o, fun a b _ => a ||| b)
  | .vxor o => if o.et = .sl then none else some (o, fun a b _ => a ^^^ b)
  | _ => none

/-- The bitwise words on the planes of `sl` (R222). -/
def planeBit (i : Instr) : Option (Arith × (Bool → Bool → Bool)) :=
  match i with
  | .vand o => if o.et = .sl then some (o, and) else none
  | .vor o => if o.et = .sl then some (o, or) else none
  | .vxor o => if o.et = .sl then some (o, xor) else none
  | _ => none

/-- The floating-point words of Table 8-4: et codes 8 to 11, the third operand c, and R70 to R75 for the arithmetic. -/
def floatValue (i : Instr) : Option (Arith × (Nat → Nat → Nat → Nat)) :=
  match i with
  | .vfadd o => some (o, fun a b _ => fadd o.et o.rnd a b)
  | .vfsub o => some (o, fun a b _ => fsub o.et o.rnd a b)
  | .vfmul o => some (o, fun a b _ => fmul o.et o.rnd a b)
  | .vfma o => some (o, fun a b c => ffma o.et o.rnd a b c)
  | .vfnma o => some (o, fun a b c => ffnma o.et o.rnd a b c)
  | .vfdiv o => some (o, fun a b _ => fdiv o.et o.rnd a b)
  | .vfmin o => some (o, fun a b _ => fmin o.et a b)
  | .vfmax o => some (o, fun a b _ => fmax o.et a b)
  | .vfclamp o => some (o, fun a b c => fmin o.et (fmax o.et a b) c)
  | _ => none

/-- The words of one source; `k` says which types they take: 0 integers, 1 floats of codes 8 to 11, 2 `f32` alone, 3 all
but `sl`. -/
def unaryValue (i : Instr) : Option (Arith × Nat × (Nat → Nat)) :=
  match i with
  | .vabs o => some (o, 0, fun a => patOf o.et.width |intOf o.et a|)
  | .vfsqrt o => some (o, 1, fsqrt o.et o.rnd)
  | .vfrsqe o => some (o, 1, rsqrtEst o.et)
  | .vfexp2 o => some (o, 2, exp2Exact)
  | .vfabs o => some (o, 1, fun a => a % 2 ^ (o.et.width - 1))
  | .vfneg o => some (o, 1, fun a => (a + 2 ^ (o.et.width - 1)) % 2 ^ o.et.width)
  | .vmv o => some (o, 3, fun a => a)
  | _ => none

/-- Types of a class. -/
def typeIn (k : Nat) (et : EType) : Bool :=
  let code := et.code.toNat
  match k with
  | 0 => decide (code ≤ 7)
  | 1 => decide (8 ≤ code ∧ code ≤ 11)
  | 2 => decide (code = 9)
  | 3 => decide (code ≤ 14)
  | 4 => decide (code ≤ 11)
  | _ => decide (code = 15)

/-- The comparisons: integers. -/
def compareInt (i : Instr) : Option (Arith × (Int → Int → Bool)) :=
  match i with
  | .vcmpeq o => some (o, fun a b => decide (a = b))
  | .vcmpne o => some (o, fun a b => decide (a ≠ b))
  | .vcmplt o => some (o, fun a b => decide (a < b))
  | .vcmpge o => some (o, fun a b => decide (b ≤ a))
  | .vcmple o => some (o, fun a b => decide (a ≤ b))
  | .vcmpgt o => some (o, fun a b => decide (b < a))
  | _ => none

/-- The comparisons: numbers, by how the two compare; a NaN compares as none (R225). -/
def compareFloat (i : Instr) : Option (Arith × (Option Ordering → Bool)) :=
  match i with
  | .vfcmpeq o => some (o, fun x => x == some .eq)
  | .vfcmpne o => some (o, fun x => x != some .eq)
  | .vfcmplt o => some (o, fun x => x == some .lt)
  | .vfcmple o => some (o, fun x => x == some .lt || x == some .eq)
  | .vfcmpgt o => some (o, fun x => x == some .gt)
  | .vfcmpge o => some (o, fun x => x == some .gt || x == some .eq)
  | .vfcmpun o => some (o, fun x => x == none)
  | .vfcmpord o => some (o, fun x => x != none)
  | _ => none

/-- Mask logic (R226). -/
def maskValue (i : Instr) : Option (MaskArgs × (Bool → Bool → Bool)) :=
  match i with
  | .vmand o => some (o, and)
  | .vmor o => some (o, or)
  | .vmxor o => some (o, xor)
  | .vmnot o => some (o, fun a _ => !a)
  | .vmandn o => some (o, fun a b => a && !b)
  | _ => none

/-- Words that read no register but the mask (R227). -/
def indexValue (i : Instr) : Option (Arith × (Nat → Nat → Nat)) :=
  match i with
  | .vidx o => some (o, fun _ e => e)
  | .vidxr o => some (o, fun r _ => r)
  | _ => none

/-- Width of the carried strip type (R214). -/
def stripWidth (c : Core) : Nat := 16384 / rowLimit c.run.vtype

/-- What an element-wise word writes. -/
def laneWrite (c : Core) (i : Instr) : Option VWrite :=
  if let some (o, f) := integerValue i then
    let w := o.et.width
    some (laneElems c o.m w w o.vd fun r e => f (elemAt c o.va w r e) (srcAt c o.et o.src r e) (elemAt c o.vd w r e))
  else if let some (o, f) := floatValue i then
    let w := o.et.width
    some (laneElems c o.m w w o.vd fun r e => f (elemAt c o.va w r e) (srcAt c o.et o.src r e) (elemAt c o.vc w r e))
  else if let some (o, _, f) := unaryValue i then
    let w := o.et.width
    some (laneElems c o.m w w o.vd fun r e => f (elemAt c o.va w r e))
  else if let some (o, f) := compareInt i then
    let w := o.et.width
    some (laneElems c o.m w 1 o.vd fun r e =>
      (f (intOf o.et (elemAt c o.va w r e)) (intOf o.et (srcAt c o.et o.src r e))).toNat)
  else if let some (o, f) := compareFloat i then
    let w := o.et.width
    some (laneElems c o.m w 1 o.vd fun r e =>
      (f ((fval o.et (elemAt c o.va w r e)).cmp (fval o.et (srcAt c o.et o.src r e)))).toNat)
  else if let some (o, f) := maskValue i then
    some (laneElems c o.m (stripWidth c) 1 o.vd fun r e => (f (bitAt c o.va r e) (bitAt c o.vb r e)).toNat)
  else if let some (o, f) := indexValue i then
    some (laneElems c o.m o.et.width o.et.width o.vd fun r e => f r e % 2 ^ o.et.width)
  else if let some (o, f) := planeBit i then
    some { reg := o.vd.toNat, w := 1, rows := (c.run.vtype.extractLsb' 4 4).toNat + 1, n := c.run.vl.toNat
           on := fun j e => activeAt c o.m 0 e && stepLeft c 1 j e
           val := fun j e => (f (bitAt c o.va j e) (match o.src with
             | .vv v => bitAt c v j e
             | .vo n => (c.run.slots[n.toNat]).getLsbD j
             | .vi i => i.getLsbD j)).toNat }
  else
    match i with
    | .vbcast o =>
      match o.src with
      | .slot n => some (laneElems c o.m o.et.width o.et.width o.vd fun r e => srcAt c o.et (.vo n) r e)
      | .imm k => some (laneElems c o.m o.et.width o.et.width o.vd fun r e => srcAt c o.et (.vi k) r e)
      | .elem _ _ => none
    | .vpfold o =>
      some (laneElems c o.m 64 64 o.vd fun r e =>
        (fold64 (BitVec.ofNat 64 (elemAt c o.vd 64 r e)) (BitVec.ofNat 64 (elemAt c o.va o.et.width r e))).toNat)
    | _ => none

/-! ## Limits (Table 20-4): code, and whether it holds -/

/-- The code of the first limit that does not hold. -/
def firstBroken (l : List (Nat × Bool)) : Option Nat := (l.find? fun x => !x.2).map Prod.fst

/-- The registers a second source names. -/
def srcRegs : Src → List (BitVec 5)
  | .vv v => [v]
  | _ => []

/-- The mask register, when it is read. -/
def maskRegs (m : Bool) : List (BitVec 5) := if m then [0] else []

/-- An immediate that the type can hold (R156). -/
def immFits (et : EType) : Src → Bool
  | .vi i => (immVal et i).isSome
  | _ => true

/-- `vl` fits the rows of a type (code 2). -/
def lenFits (c : Core) (et : EType) : Bool := decide (c.run.vl.toNat ≤ 16384 / et.width)

/-- The limits of an element-wise word. -/
def laneLimits (c : Core) (i : Instr) : List (Nat × Bool) :=
  if let some (o, _) := integerValue i then [(1, typeIn 0 o.et), (2, lenFits c o.et), (7, immFits o.et o.src)]
  else if let some (o, _) := floatValue i then [(1, typeIn 1 o.et), (2, lenFits c o.et), (7, immFits o.et o.src)]
  else if let some (o, k, _) := unaryValue i then [(1, typeIn k o.et), (2, lenFits c o.et)]
  else if let some (o, _) := compareInt i then
    [(1, typeIn 0 o.et), (2, lenFits c o.et), (6, !(o.va :: srcRegs o.src).contains o.vd), (7, immFits o.et o.src)]
  else if let some (o, _) := compareFloat i then
    [(1, typeIn 1 o.et), (2, lenFits c o.et), (6, !(o.va :: srcRegs o.src).contains o.vd), (7, immFits o.et o.src)]
  else if let some _ := maskValue i then [(2, decide (c.run.vl.toNat ≤ rowLimit c.run.vtype))]
  else if let some (o, _) := indexValue i then [(1, typeIn 0 o.et), (2, lenFits c o.et)]
  else if let some _ := planeBit i then [(2, decide (c.run.vl.toNat ≤ 16384))]
  else
    match i with
    | .vbcast o =>
      match o.src with
      | .imm k => [(1, typeIn 3 o.et), (2, lenFits c o.et), (7, (immVal o.et k).isSome)]
      | _ => [(1, typeIn 3 o.et), (2, lenFits c o.et)]
    | .vpfold o =>
      [(1, decide (o.et = .n16 ∨ o.et = .n32 ∨ o.et = .n64)), (2, decide (c.run.vl.toNat ≤ 256)),
        (6, !(o.va :: maskRegs o.m).contains o.vd)]
    | _ => []

/-! ## Before and after a word -/

/-- A vector-queue word runs whole: alone, from its first use allowed, with nothing spoiled anywhere, in no region or in
one that takes it. -/
structure Ready (s : State) (inRegion : Bool) : Prop where
  whole : s.core.mode = .whole
  used : firstUse s.core.run = none
  sound : s.anyPoison = false
  clean : s.core.wrote = []
  rows : s.core.run.rc.toNat ≤ 16
  ends : ∀ g, g < 4 → 512 ≤ s.core.hi.getD g 0
  region : ∀ r, s.core.region = some r → inRegion = true ∧ r.annulled = false ∧
    r.words + s.core.ownPos < 48 ∧ s.core.run.vl = r.vl ∧ s.core.run.rc = r.rc

/-- Its words after retirement (R18, R263). -/
def Region.after (r : Region) (e : QEntry) : Region := { r with words := r.words + 1, retired := r.retired ++ [e] }

/-- `cmv` after a word at this position of the queue has retired: V and OWNER are cleared if it owned `CM`, and OWNER
counts one less otherwise (R59, Table 2-8). -/
def cmvAfter (cmv : Word) (pos : Nat) : Word :=
  if cmv.getLsbD 0 then
    if (cmv.extractLsb' 8 6).toNat = pos then cmv &&& ~~~0x3F01#64
    else (cmv &&& ~~~0x3F00#64) ||| BitVec.ofNat 64 (((cmv.extractLsb' 8 6).toNat - 1) * 256)
  else cmv

/-- The running word of the vector queue has retired (R26, R46): it leaves the queue, the step counters are clear, `cmv` that
describes the queue follows it, a region keeps its history entry, and nothing else changes. -/
def State.retired (u : State) : State :=
  let c := u.core
  { u with core := { c.without c.run.rank c.run.prov with
      lgs := .replicate 4 0
      cmv := if c.cntLive then cmvAfter c.cmv c.ownPos else c.cmv
      region := c.region.map fun r => r.after c.run } }

/-- A word of the matrix queue has completed. -/
def State.completed (u : State) : State := { u with core := u.core.without u.core.run.rank u.core.run.prov }

/-- The registers and their dirty bits replaced. -/
def State.withV (s : State) (v : Vector VReg 32) (d : Word) : State := { s with core := { s.core with v := v, vdirty := d } }

/-- A word is an operand limit with this code (R378): nothing of it takes effect. -/
def limited (s : State) (code : Nat) (r : Result) : Prop :=
  ∃ v, r = .next (takeTrap s ⟨.word s.core.run.rank, 0x05, BitVec.ofNat 64 (code + v * 2 ^ 32), 0⟩)

end Sys2Proof.Machine
end

