-- ==== Sys2Proof/Safety/RowWords.lean ====
section
/-! DEFINITION. What the words that move data between the lanes of a row leave, and their limits (spec/08 R226 to R242, spec/09
R270). -/

namespace Sys2Proof.Machine

/-! ## Rows of values -/

/-- Active elements of a row whose bit in va is 1, ascending. -/
def markedOf (c : Core) (m : Bool) (va : BitVec 5) (r : Nat) : List Nat := (activesOf c m r).filter fun e => bitAt c va r e

/-- The values of the active elements of a row, ascending, up to element `top`. -/
def valuesOf (c : Core) (o : Arith) (r top : Nat) : List Nat :=
  ((activesOf c o.m r).filter fun e => e ≤ top).map fun e => elemAt c o.va o.et.width r e

/-- The values of a column's active rows, ascending (R230). -/
def columnOf (c : Core) (o : Arith) (e : Nat) : List Nat :=
  ((List.range c.run.rc.toNat).filter fun r => activeAt c o.m r e).map fun r => elemAt c o.va o.et.width r e

/-- The smallest and the largest pattern of a type, by value. -/
def lowest (et : EType) : Nat :=
  if et.isSigned then 2 ^ (et.width - 1) else if et.isInt then 0 else (fmtOf et).withSign true (fmtOf et).inf
def highest (et : EType) : Nat :=
  if et.isSigned then 2 ^ (et.width - 1) - 1 else if et.isInt then 2 ^ et.width - 1 else (fmtOf et).inf

/-- The lesser, the greater and the sum of two elements (R73, R221). -/
def lesser (et : EType) (a b : Nat) : Nat :=
  if et.isInt then (if intOf et b < intOf et a then b else a) else fmin et a b
def greater (et : EType) (a b : Nat) : Nat :=
  if et.isInt then (if intOf et a < intOf et b then b else a) else fmax et a b
def summed (et : EType) (rnd : Rnd) (a b : Nat) : Nat := if et.isInt then (a + b) % 2 ^ et.width else fadd et rnd a b

/-- A list combined from its first value on; NaNs become canonical (R76, R79). -/
def combined (et : EType) (op : Nat → Nat → Nat) (none_ : Nat) : List Nat → Nat
  | [] => none_
  | x :: xs => if et.isFloat then fcanon et (xs.foldl op x) else xs.foldl op x

/-- The reductions of a row into its element 0: types, combination, and what a row without active elements gives
(R228, Table 8-8). -/
def reduction (i : Instr) : Option (Arith × Nat × (Nat → Nat → Nat) × Nat) :=
  match i with
  | .vredsum o => some (o, 0, summed o.et .rne, 0)
  | .vredmin o => some (o, 0, lesser o.et, highest o.et)
  | .vredmax o => some (o, 0, greater o.et, lowest o.et)
  | .vredand o => some (o, 0, fun a b => a &&& b, 2 ^ o.et.width - 1)
  | .vredor o => some (o, 0, fun a b => a ||| b, 0)
  | .vredxor o => some (o, 0, fun a b => a ^^^ b, 0)
  | .vfredo o => some (o, 1, fadd o.et o.rnd, 0)
  | .vfredmax o => some (o, 1, fmax o.et, (fmtOf o.et).withSign true (fmtOf o.et).inf)
  | .vfredmin o => some (o, 1, fmin o.et, (fmtOf o.et).inf)
  | _ => none

/-- The scans (R229). -/
def scan (i : Instr) : Option (Arith × (Nat → Nat → Nat)) :=
  match i with
  | .vscansum o => some (o, summed o.et o.rnd)
  | .vscanmax o => some (o, greater o.et)
  | .vscanmin o => some (o, lesser o.et)
  | _ => none

/-- The column words (R230). -/
def column (i : Instr) : Option (Arith × (Nat → Nat → Nat) × Nat) :=
  match i with
  | .vcolsum o => some (o, summed o.et o.rnd, 0)
  | .vcolmax o => some (o, greater o.et, lowest o.et)
  | .vcolmin o => some (o, lesser o.et, highest o.et)
  | _ => none

/-- Words over masks and words that count mask bits (R226, R227, R270). `p` is the place of the first active bit of va in
ascending *lin*, or rc × vl. -/
def firstPlace (c : Core) (m : Bool) (va : BitVec 5) : Nat :=
  let vl := c.run.vl.toNat
  (((List.range (c.run.rc.toNat * vl)).filter fun l =>
    activeAt c m (l / vl) (l % vl) && bitAt c va (l / vl) (l % vl)).head?).getD (c.run.rc.toNat * vl)

def maskRowWrite (c : Core) (i : Instr) : Option VWrite :=
  match i with
  | .vmpop o => some (rowsOf c o.et.width o.vd (activeAt c o.m) fun r _ => (markedOf c o.m o.va r).length % 2 ^ o.et.width)
  | .vmfirst o =>
    some (rowsOf c o.et.width o.vd (activeAt c o.m) fun r _ =>
      (markedOf c o.m o.va r).headD (2 ^ o.et.width - 1) % 2 ^ o.et.width)
  | .viota o =>
    some (rowsOf c o.et.width o.vd (activeAt c o.m) fun r e =>
      ((markedOf c o.m o.va r).filter fun k => k < e).length % 2 ^ o.et.width)
  | .vmscanand o =>
    some (rowsOf c 1 o.vd (activeAt c o.m) fun r e =>
      (((activesOf c o.m r).filter fun k => k ≤ e).all fun k => bitAt c o.va r k).toNat)
  | .vbrkb o =>
    some (rowsOf c 1 o.vd (activeAt c o.m) fun r e => (decide (r * c.run.vl.toNat + e < firstPlace c o.m o.va)).toNat)
  | .vbrki o =>
    some (rowsOf c 1 o.vd (activeAt c o.m) fun r e => (decide (r * c.run.vl.toNat + e ≤ firstPlace c o.m o.va)).toNat)
  | _ => none

/-! ## Permutations (R231 to R235) -/

/-- The distance of a slide in a row. -/
def slideOf (c : Core) (b : Src) (r : Nat) : Nat :=
  match b with
  | .vv v => elemAt c v 64 r 0
  | .vo n => (c.run.slots[n.toNat]).toNat
  | .vi i => i.toNat

/-- Elements of a row that a mask register selects, whatever `v0` says (R233). -/
def selectedOf (c : Core) (v : BitVec 5) (r : Nat) : List Nat :=
  (List.range c.run.vl.toNat).filter fun e => bitAt c v r e

/-- The gathered element (R231): j names a register of the group, k an element of it. -/
def gathered (c : Core) (o : Gather) (iw r e : Nat) : Nat :=
  let i := elemAt c o.vb iw r e
  let row := 16384 / o.et.width
  if i / row < 2 ^ o.g.toNat ∧ i % row < c.run.vl.toNat then
    elemAt c (o.va + BitVec.ofNat 5 (i / row)) o.et.width r (i % row)
  else 0

/-- Destination row d + k from source row s + k, or from row s (R235). -/
def rowMove (c : Core) (o : RowMove) (same : Bool) : VWrite :=
  { reg := o.vd.toNat, w := o.et.width, rows := 16, n := c.run.vl.toNat
    on := fun r e => decide (o.dst.toNat ≤ r ∧ r < o.dst.toNat + c.run.rc.toNat) && rowLeft c (r - o.dst.toNat) &&
      activeAt c o.m r e
    val := fun r e => elemAt c o.va o.et.width (if same then o.src.toNat else o.src.toNat + (r - o.dst.toNat)) e }

def permuteWrite (c : Core) (i : Instr) : Option VWrite :=
  match i with
  | .vrgather o => some (rowsOf c o.et.width o.vd (activeAt c o.m) (gathered c o 16))
  | .vrgatherw o => some (rowsOf c o.et.width o.vd (activeAt c o.m) (gathered c o 32))
  | .vslideup o =>
    some (rowsOf c o.et.width o.vd (fun r e => activeAt c o.m r e && decide (slideOf c o.src r ≤ e)) fun r e =>
      elemAt c o.va o.et.width r (e - slideOf c o.src r))
  | .vslidedn o =>
    some (rowsOf c o.et.width o.vd (activeAt c o.m) fun r e =>
      if e + slideOf c o.src r < c.run.vl.toNat then elemAt c o.va o.et.width r (e + slideOf c o.src r) else 0)
  | .vcompress o =>
    match o.src with
    | .vv v => some (rowsOf c o.et.width o.vd (fun r e => decide (e < (selectedOf c v r).length)) fun r e =>
        elemAt c o.va o.et.width r ((selectedOf c v r).getD e 0))
    | _ => none
  | .vexpand o =>
    match o.src with
    | .vv v => some (rowsOf c o.et.width o.vd (fun r e => bitAt c v r e) fun r e =>
        elemAt c o.va o.et.width r (((selectedOf c v r).filter fun k => k < e).length))
    | _ => none
  | .vbcast o =>
    match o.src with
    | .elem va k => some (rowsOf c o.et.width o.vd (activeAt c o.m) fun r _ =>
        if k.toNat < c.run.vl.toNat then elemAt c va o.et.width r k.toNat else 0)
    | _ => none
  | .vrowmv o => some (rowMove c o false)
  | .vrowbc o => some (rowMove c o true)
  | _ => none

/-! ## Conversions (R236 to R242) -/

/-- A saturated source value of `VSLICE` as a pattern of k bits, and whether it was clamped (R55, R241). -/
def slicedOf (c : Core) (second : Bool) (et : EType) (x : Nat) : Nat × Bool :=
  let k := (c.run.vtype.extractLsb' (if second then 8 else 4) 4).toNat + 1
  let sg := c.run.vtype.getLsbD (if second then 13 else 12)
  let lo : Int := if sg then -(2 ^ (k - 1)) else 0
  let hi : Int := if sg then 2 ^ (k - 1) - 1 else 2 ^ k - 1
  let v := intOf et x
  (patOf k (Max.max lo (Min.min v hi)), decide (v < lo ∨ hi < v))

/-- The value of sliced element E in planes 0 to k − 1 of a register (R55). -/
def planesOf (c : Core) (second : Bool) (v : BitVec 5) (E : Nat) : Int :=
  let k := (c.run.vtype.extractLsb' (if second then 8 else 4) 4).toNat + 1
  let x := ((List.range k).map fun j => (bitAt c v j E).toNat * 2 ^ j).sum
  if c.run.vtype.getLsbD (if second then 13 else 12) then (BitVec.ofNat k x).toInt else x

def sliceWrites (c : Core) (second : Bool) (o : Conv) : List VWrite :=
  let vl := c.run.vl.toNat
  let x : VWrite :=
    { reg := o.vd.toNat, w := 1, rows := (c.run.vtype.extractLsb' (if second then 8 else 4) 4).toNat + 1
      n := c.run.rc.toNat * vl, on := fun _ E => activeAt c o.m (E / vl) (E % vl)
      val := fun j E => (slicedOf c second o.sty (elemAt c o.va o.sty.width (E / vl) (E % vl))).1 / 2 ^ j % 2 }
  let y : VWrite := { x with rows := c.run.rc.toNat, n := vl, on := fun r e => activeAt c o.m r e }
  x :: flagged o.ove y fun r e => (slicedOf c second o.sty (elemAt c o.va o.sty.width r e)).2

def unsliceWrite (c : Core) (second : Bool) (o : Conv) : List VWrite :=
  [{ rowsOf c o.et.width o.vd (activeAt c o.m) fun r e =>
      patOf o.et.width (planesOf c second o.va (r * c.run.vl.toNat + e)) with on := fun r e => activeAt c o.m r e }]

/-- Packing: element P·e + j of vd from element e of va + j (R238). -/
def packWrites (c : Core) (p : Nat) (o : Conv) : List VWrite :=
  let conv (r x : Nat) : Nat × Bool :=
    convert o.sty o.et o.rnd (elemAt c (o.va + BitVec.ofNat 5 (x % p)) o.sty.width r (x / p))
  let x : VWrite := { rowsOf c o.et.width o.vd (fun r x => activeAt c o.m r (x / p)) (fun r x => (conv r x).1) with
    n := p * c.run.vl.toNat }
  x :: flagged o.ove x fun r x => (conv r x).2

/-- Unpacking: element e of vd + j from element P·e + j of va (R239). -/
def unpackWrites (c : Core) (p : Nat) (o : Conv) : List VWrite :=
  (List.range p).map fun j => rowsOf c o.et.width (o.vd + BitVec.ofNat 5 j) (activeAt c o.m) fun r e =>
    (convert o.sty o.et .rne (elemAt c o.va o.sty.width r (p * e + j))).1

/-- The quotient by the scale of the element's group of 32 when `vtype`.SCE is 1 (R75, R240). -/
def quantised (c : Core) (o : Conv) (r e : Nat) : Nat × Bool :=
  let x := fval o.sty (elemAt c o.va o.sty.width r e)
  convVal o.et o.rnd (if c.run.vtype.getLsbD 15 then x.div (fval .bf16 (elemAt c 31 16 r (e / 32))) else x)

/-- The two kept elements of a group of four (R242). -/
def keptOf (c : Core) (o : Cprs) (r g : Nat) : Nat × Nat := keptPair o.et fun k => elemAt c o.va o.et.width r (4 * g + k)

def convertWrites (c : Core) (i : Instr) : Option (List VWrite) :=
  match i with
  | .vcvt o =>
    let conv (r e : Nat) := convert o.sty o.et o.rnd (elemAt c o.va o.sty.width r e)
    let x : VWrite :=
      if o.sty.width = o.et.width then laneElems c o.m o.sty.width o.et.width o.vd fun r e => (conv r e).1
      else rowsOf c o.et.width o.vd (activeAt c o.m) fun r e => (conv r e).1
    some (x :: flagged o.ove x fun r e => (conv r e).2)
  | .vpack2 o => some (packWrites c 2 o)
  | .vpack4 o => some (packWrites c 4 o)
  | .vunpk2 o => some (unpackWrites c 2 o)
  | .vunpk4 o => some (unpackWrites c 4 o)
  | .vqnt o =>
    let x := rowsOf c o.et.width o.vd (activeAt c o.m) fun r e => (quantised c o r e).1
    some (x :: flagged o.ove x fun r e => (quantised c o r e).2)
  | .vslicea o => some (sliceWrites c false o)
  | .vsliceb o => some (sliceWrites c true o)
  | .vunslicea o => some (unsliceWrite c false o)
  | .vunsliceb o => some (unsliceWrite c true o)
  | .vcprs4 o =>
    let x : VWrite := { rowsOf c o.et.width o.vd (fun _ _ => true) (fun r x =>
      elemAt c o.va o.et.width r (4 * (x / 2) + if x % 2 = 0 then (keptOf c o r (x / 2)).1 else (keptOf c o r (x / 2)).2))
        with n := c.run.vl.toNat / 2 }
    let y : VWrite := { rowsOf c 4 o.vc (fun _ _ => true) (fun r g => (keptOf c o r g).1 + 4 * (keptOf c o r g).2)
        with n := c.run.vl.toNat / 4 }
    some [x, y]
  | _ => none

/-- What a word between lanes writes. -/
def rowWrites (c : Core) (i : Instr) : Option (List VWrite) :=
  if let some x := maskRowWrite c i then some [x]
  else if let some (o, _, op, none_) := reduction i then
    some [{ reg := o.vd.toNat, w := o.et.width, rows := c.run.rc.toNat, n := 1
            on := fun r _ => rowLeft c r && c.run.vl != 0
            val := fun r _ => combined o.et op none_ (valuesOf c o r c.run.vl.toNat) }]
  else if let some (o, op) := scan i then
    some [rowsOf c o.et.width o.vd (activeAt c o.m) fun r e => combined o.et op 0 (valuesOf c o r e)]
  else if let some (o, op, none_) := column i then
    some [{ reg := o.vd.toNat, w := o.et.width, rows := 1, n := c.run.vl.toNat, on := fun _ _ => true
            val := fun _ e => combined o.et op none_ (columnOf c o e) }]
  else if let some x := permuteWrite c i then some [x]
  else if let .vfredt o := i then
    some [{ reg := o.vd.toNat, w := o.et.width, rows := c.run.rc.toNat, n := 1
            on := fun r _ => rowLeft c r && c.run.vl != 0
            val := fun r _ => treeSum o.et ((List.range c.run.vl.toNat).map fun e =>
              if activeAt c o.m r e then some (elemAt c o.va o.et.width r e) else none) }]
  else convertWrites c i

/-! ## What a compute word consumes (R56, R419) -/

/-- A bit of a register: register, row, place in the row. -/
abbrev RegBit := BitVec 5 × Nat × Nat

/-- The same element of several registers of width `w`. -/
def sameElem (vs : List (BitVec 5)) (w r e : Nat) : List RegBit := vs.map fun v => (v, r, e * w)

/-- What the elements of a word consume: their rows, the row of `v0` where the mask bit of a row stands when m = 1, and one bit
of every operand of an element. -/
structure Consumes where
  m : Bool
  rows : Nat
  maskRow : Nat → Nat
  reads : Nat → Nat → List RegBit

/-- A word over `rc` rows whose elements have their own mask bits. -/
def plainly (c : Core) (m : Bool) (reads : Nat → Nat → List RegBit) : Consumes := ⟨m, c.run.rc.toNat, id, reads⟩

/-- The element groups that some element of the word consumes: those of its mask bit, and of an active one its operands. -/
def Consumes.takes (k : Consumes) (c : Core) (v : BitVec 5) (row eg : Nat) : Prop :=
  ∃ r e, r < k.rows ∧ e < c.run.vl.toNat ∧
    (k.m = true ∧ v = 0 ∧ row = k.maskRow r ∧ eg = e / 512 ∨
      activeAt c k.m (k.maskRow r) e = true ∧ ∃ b, (v, row, b) ∈ k.reads r e ∧ eg = b / 512)

/-- The element-wise words. -/
def laneConsumes (c : Core) (i : Instr) : Option Consumes :=
  if let some (o, _) := integerValue i then
    let old := match i with
      | .vmacc _ => [o.vd]
      | _ => []
    some (plainly c o.m (sameElem (o.va :: srcRegs o.src ++ old) o.et.width))
  else if let some (o, _) := floatValue i then
    let third := match i with
      | .vfma _ | .vfnma _ | .vfclamp _ => [o.vc]
      | _ => []
    some (plainly c o.m (sameElem (o.va :: srcRegs o.src ++ third) o.et.width))
  else if let some (o, _, _) := unaryValue i then some (plainly c o.m (sameElem [o.va] o.et.width))
  else if let some (o, _) := compareInt i then some (plainly c o.m (sameElem (o.va :: srcRegs o.src) o.et.width))
  else if let some (o, _) := compareFloat i then some (plainly c o.m (sameElem (o.va :: srcRegs o.src) o.et.width))
  else if let some (o, _) := maskValue i then
    let second := match i with
      | .vmnot _ => []
      | _ => [o.vb]
    some (plainly c o.m (sameElem (o.va :: second) 1))
  else if let some (o, _) := indexValue i then some (plainly c o.m fun _ _ => [])
  else if let some (o, _) := planeBit i then
    some ⟨o.m, (c.run.vtype.extractLsb' 4 4).toNat + 1, fun _ => 0, sameElem (o.va :: srcRegs o.src) 1⟩
  else
    match i with
    | .vbcast o => some (plainly c o.m fun _ _ => [])
    | .vpfold o => some (plainly c o.m fun r e => [(o.vd, r, e * 64), (o.va, r, e * o.et.width)])
    | _ => none

/-- Registers of a group of `n`. -/
def groupRegs (v : BitVec 5) (n : Nat) : List (BitVec 5) := (List.range n).map fun j => v + BitVec.ofNat 5 j

/-- The planes of a sliced element (R55). -/
def planeReads (c : Core) (second : Bool) (v : BitVec 5) (r e : Nat) : List RegBit :=
  (List.range ((c.run.vtype.extractLsb' (if second then 8 else 4) 4).toNat + 1)).map fun j =>
    (v, j, r * c.run.vl.toNat + e)

/-- A gather: the index, and the element that it names. -/
def gatherConsumes (c : Core) (iw : Nat) (o : Gather) : Consumes :=
  plainly c o.m fun r e =>
    let i := elemAt c o.vb iw r e
    let row := 16384 / o.et.width
    (o.vb, r, e * iw) ::
      if i / row < 2 ^ o.g.toNat ∧ i % row < c.run.vl.toNat then
        [(o.va + BitVec.ofNat 5 (i / row), r, i % row * o.et.width)]
      else []

/-- The distance of a slide, and the element it brings. -/
def slideConsumes (c : Core) (o : Arith) (from_ : Nat → Nat → Option Nat) : Consumes :=
  plainly c o.m fun r e =>
    (srcRegs o.src).map (fun v => (v, r, 0)) ++ ((from_ (slideOf c o.src r) e).toList.map fun k => (o.va, r, k * o.et.width))

/-- The words between lanes. -/
def rowConsumes (c : Core) (i : Instr) : Option Consumes :=
  match i with
  | .vmpop o | .vmfirst o | .viota o => some (plainly c o.m (sameElem [o.va] 1))
  | .vmscanand o | .vbrkb o | .vbrki o => some (plainly c o.m (sameElem [o.va] 1))
  | .vredsum o | .vredmin o | .vredmax o | .vredand o | .vredor o | .vredxor o | .vfredt o | .vfredo o | .vfredmax o
  | .vfredmin o | .vscansum o | .vscanmax o | .vscanmin o | .vcolsum o | .vcolmax o | .vcolmin o =>
    some (plainly c o.m (sameElem [o.va] o.et.width))
  | .vrgather o => some (gatherConsumes c 16 o)
  | .vrgatherw o => some (gatherConsumes c 32 o)
  | .vslideup o => some (slideConsumes c o fun n e => if n ≤ e then some (e - n) else none)
  | .vslidedn o => some (slideConsumes c o fun n e => if e + n < c.run.vl.toNat then some (e + n) else none)
  | .vcompress o =>
    match o.src with
    | .vv v => some (plainly c o.m fun r e => (v, r, e) :: if bitAt c v r e then [(o.va, r, e * o.et.width)] else [])
    | _ => none
  | .vexpand o =>
    match o.src with
    | .vv v => some (plainly c o.m fun r e => (v, r, e) ::
        if bitAt c v r e then [(o.va, r, ((selectedOf c v r).filter fun k => k < e).length * o.et.width)] else [])
    | _ => none
  | .vbcast o =>
    match o.src with
    | .elem va k => some (plainly c o.m fun r _ =>
        if k.toNat < c.run.vl.toNat then [(va, r, k.toNat * o.et.width)] else [])
    | _ => none
  | .vrowmv o =>
    some ⟨o.m, c.run.rc.toNat, fun r => o.dst.toNat + r, fun r e => [(o.va, o.src.toNat + r, e * o.et.width)]⟩
  | .vrowbc o => some ⟨o.m, c.run.rc.toNat, fun r => o.dst.toNat + r, fun _ e => [(o.va, o.src.toNat, e * o.et.width)]⟩
  | .vcvt o | .vslicea o | .vsliceb o => some (plainly c o.m (sameElem [o.va] o.sty.width))
  | .vpack2 o => some (plainly c o.m (sameElem (groupRegs o.va 2) o.sty.width))
  | .vpack4 o => some (plainly c o.m (sameElem (groupRegs o.va 4) o.sty.width))
  | .vunpk2 o | .vunpk4 o => some (plainly c o.m (sameElem [o.va] o.et.width))
  | .vqnt o =>
    some (plainly c o.m fun r e =>
      (o.va, r, e * o.sty.width) :: if c.run.vtype.getLsbD 15 then [(31, r, e / 32 * 16)] else [])
  | .vunslicea o => some (plainly c o.m (planeReads c false o.va))
  | .vunsliceb o => some (plainly c o.m (planeReads c true o.va))
  | .vcprs4 o => some (plainly c false (sameElem [o.va] o.et.width))
  | _ => none

/-! ## Limits -/

/-- A group of 2^g registers at a multiple of its size (code 4). -/
def alignedTo (v : BitVec 5) (n : Nat) : Bool := decide (v.toNat % n = 0 ∧ v.toNat + n ≤ 32)

/-- `n` registers from v on. -/
def groupOf (v : BitVec 5) (n : Nat) : List Nat := (List.range n).map fun j => v.toNat + j

/-- No register that is written is read (code 6). -/
def apart (wr rd : List Nat) : Bool := wr.all fun x => !rd.contains x

/-- The mask register's number, when it is read. -/
def maskOf (m : Bool) : List Nat := if m then [0] else []

/-- The limits of a word with one source that it must not write. -/
def crossOf (c : Core) (k : Nat) (o : Arith) : List (Nat × Bool) :=
  [(1, typeIn k o.et), (2, lenFits c o.et), (6, apart [o.vd.toNat] (o.va.toNat :: maskOf o.m))]

/-- The limits of slides and of the words that select by a mask. -/
def slideLimitsOf (c : Core) (o : Arith) : List (Nat × Bool) :=
  [(1, typeIn 3 o.et), (2, lenFits c o.et),
    (6, apart [o.vd.toNat] (o.va.toNat :: (srcRegs o.src).map BitVec.toNat ++ maskOf o.m))]

def gatherLimits (c : Core) (iw : Nat) (o : Gather) : List (Nat × Bool) :=
  [(1, typeIn 3 o.et), (2, decide (c.run.vl.toNat ≤ Min.min (16384 / o.et.width) (16384 / iw))),
    (4, alignedTo o.va (2 ^ o.g.toNat)),
    (6, apart [o.vd.toNat] (groupOf o.va (2 ^ o.g.toNat) ++ o.vb.toNat :: maskOf o.m))]

def rowMoveLimits (c : Core) (o : RowMove) (n : Nat) : List (Nat × Bool) :=
  [(1, typeIn 3 o.et), (2, lenFits c o.et), (3, decide (o.dst.toNat + c.run.rc.toNat ≤ 16)),
    (3, decide (o.src.toNat + n ≤ 16)),
    (6, decide (o.vd ≠ o.va ∨ o.src.toNat + n ≤ o.dst.toNat ∨ o.dst.toNat + c.run.rc.toNat ≤ o.src.toNat)),
    (6, apart [o.vd.toNat] (maskOf o.m))]

/-- The overflow-mask register differs from every other register (R236). -/
def oveApart (ove : Option (BitVec 5)) (named : List Nat) : Bool :=
  match ove with
  | none => true
  | some v => !named.contains v.toNat

/-- The sliced value fits the type (code 7). -/
def planesFit (c : Core) (second : Bool) (et : EType) : Bool :=
  let k := (c.run.vtype.extractLsb' (if second then 8 else 4) 4).toNat + 1
  if c.run.vtype.getLsbD (if second then 13 else 12) then et.isSigned && decide (k ≤ et.width)
  else if et.isSigned then decide (k < et.width) else decide (k ≤ et.width)

def packLimits (c : Core) (p : Nat) (o : Conv) : List (Nat × Bool) :=
  let rd := groupOf o.va p ++ maskOf o.m
  [(1, typeIn 3 o.et), (1, typeIn 3 o.sty && o.sty.width == p * o.et.width), (2, lenFits c o.sty), (4, alignedTo o.va p),
    (6, apart [o.vd.toNat] rd), (6, oveApart o.ove (o.vd.toNat :: rd))]

def unpackLimits (c : Core) (p : Nat) (o : Conv) : List (Nat × Bool) :=
  [(1, typeIn 3 o.et), (1, typeIn 3 o.sty && o.et.width == p * o.sty.width), (2, lenFits c o.et), (4, alignedTo o.vd p),
    (6, apart (groupOf o.vd p) (o.va.toNat :: maskOf o.m)), (7, exactConv o.sty o.et)]

def sliceLimits (c : Core) (o : Conv) : List (Nat × Bool) :=
  let rd := o.va.toNat :: maskOf o.m
  [(1, typeIn 5 o.et), (1, typeIn 0 o.sty), (2, lenFits c o.sty),
    (3, decide (c.run.rc.toNat * c.run.vl.toNat ≤ 16384)), (6, apart [o.vd.toNat] rd),
    (6, oveApart o.ove (o.vd.toNat :: rd))]

def unsliceLimits (c : Core) (second : Bool) (o : Conv) : List (Nat × Bool) :=
  [(1, typeIn 0 o.et), (1, typeIn 5 o.sty), (2, lenFits c o.et),
    (3, decide (c.run.rc.toNat * c.run.vl.toNat ≤ 16384)), (6, apart [o.vd.toNat] (o.va.toNat :: maskOf o.m)),
    (7, planesFit c second o.et)]

/-- The limits of a word between lanes. -/
def rowLimits (c : Core) (i : Instr) : List (Nat × Bool) :=
  match i with
  | .vmpop o | .vmfirst o | .viota o => crossOf c 0 o
  | .vredsum o | .vredmin o | .vredmax o | .vredand o | .vredor o | .vredxor o => crossOf c 0 o
  | .vfredt o | .vfredo o | .vfredmax o | .vfredmin o => crossOf c 1 o
  | .vscansum o | .vscanmax o | .vscanmin o | .vcolsum o | .vcolmax o | .vcolmin o => crossOf c 4 o
  | .vmscanand o | .vbrkb o | .vbrki o =>
    [(2, decide (c.run.vl.toNat ≤ rowLimit c.run.vtype)), (6, apart [o.vd.toNat] (o.va.toNat :: maskOf o.m))]
  | .vrgather o => gatherLimits c 16 o
  | .vrgatherw o => gatherLimits c 32 o
  | .vslideup o | .vslidedn o | .vcompress o | .vexpand o => slideLimitsOf c o
  | .vbcast o =>
    match o.src with
    | .elem va k => [(1, typeIn 3 o.et), (2, lenFits c o.et), (3, decide (k.toNat < 16384 / o.et.width)),
        (6, apart [o.vd.toNat] (va.toNat :: maskOf o.m))]
    | _ => []
  | .vrowmv o => rowMoveLimits c o c.run.rc.toNat
  | .vrowbc o => rowMoveLimits c o 1
  | .vcvt o =>
    let rd := o.va.toNat :: maskOf o.m
    [(1, typeIn 3 o.et), (1, typeIn 3 o.sty),
      (2, decide (c.run.vl.toNat ≤ Min.min (16384 / o.et.width) (16384 / o.sty.width))),
      (6, decide (o.sty.width = o.et.width) || apart [o.vd.toNat] rd), (6, oveApart o.ove (o.vd.toNat :: rd))]
  | .vpack2 o => packLimits c 2 o
  | .vpack4 o => packLimits c 4 o
  | .vunpk2 o => unpackLimits c 2 o
  | .vunpk4 o => unpackLimits c 4 o
  | .vqnt o =>
    let rd := o.va.toNat :: (if c.run.vtype.getLsbD 15 then [31] else []) ++ maskOf o.m
    [(1, [EType.i8, .i16, .f16, .bf16, .f8e4, .f8e5, .f4].contains o.et && decide (o.et.width < o.sty.width)),
      (1, [EType.f32, .bf16, .f16].contains o.sty),
      (2, decide (c.run.vl.toNat ≤ Min.min (16384 / o.et.width) (16384 / o.sty.width))),
      (6, apart [o.vd.toNat] rd), (6, oveApart o.ove (o.vd.toNat :: rd))]
  | .vslicea o | .vsliceb o => sliceLimits c o
  | .vunslicea o => unsliceLimits c false o
  | .vunsliceb o => unsliceLimits c true o
  | .vcprs4 o =>
    [(1, [EType.i8, .i16, .bf16, .f16, .f8e4, .f8e5, .f4].contains o.et), (2, lenFits c o.et),
      (2, decide (c.run.vl.toNat % 4 = 0)), (6, apart [o.vd.toNat, o.vc.toNat] [o.va.toNat])]
  | _ => []

end Sys2Proof.Machine
end

