-- ==== Sys2Proof/Safety/VectorMem.lean ====
section
/-! DEFINITION. What the memory words of the vector queue leave, as spec/09 tables them: where the elements stand, which bits of
registers and memory take a value, and the limits (R243 to R261). -/

namespace Sys2Proof.Machine

/-! ## Bits of memory -/

/-- A bit of a memory, numbered from bit 0 of byte 0. -/
def memBit (m : Memory) (b : Nat) : Bool := (m.get (b / 8)).getLsbD (b % 8)

/-- The memories: device DRAM, host memory, the scratchpad of the core. -/
def memOf (s : State) (k : Nat) : Memory := if k = 0 then s.dev.dram else if k = 1 then s.dev.host else s.core.spad

/-- The memory and the address of a place; a device register has none. -/
def whereIs : Place → Option (Nat × Nat)
  | .dram a => some (0, a)
  | .host a => some (1, a)
  | .spad a => some (2, a)
  | .reg _ => none

/-- The first bit of an element at an address: an `f4` element may be the high nibble of its byte (R61, R128). -/
def firstBit (et : EType) (el : Elem) (a : Nat) : Nat := 8 * a + if et.width = 4 ∧ el.high = true then 4 else 0

/-- The value of an element that stands at a place. -/
def valueAt (s : State) (et : EType) (el : Elem) (p : Place) : Nat :=
  match whereIs p with
  | some (k, a) => ((List.range et.width).map fun j => (memBit (memOf s k) (firstBit et el a + j)).toNat * 2 ^ j).sum
  | none => 0

/-- The machine with other memories. -/
def State.withMemory (s : State) (dram host spad : Memory) : State :=
  { s with dev := { s.dev with dram := dram, host := host }, core := { s.core with spad := spad } }

/-- The memories of `t` are those of `s` with each element written at its place, and no other bit of them changed. -/
def Written (s t : State) (et : EType) (els : List Elem) (pl : Elem → Place) (val : Elem → Nat) : Prop :=
  (∀ el ∈ els, ∀ k a, whereIs (pl el) = some (k, a) → ∀ j, j < et.width →
    memBit (memOf t k) (firstBit et el a + j) = (val el).testBit j) ∧
  ∀ k b, k < 3 → (∀ el ∈ els, ∀ a, whereIs (pl el) = some (k, a) →
    b < firstBit et el a ∨ firstBit et el a + et.width ≤ b) → memBit (memOf t k) b = memBit (memOf s k) b

/-! ## Elements -/

/-- `StreamAddr` of R243: the mixed-radix digits of L by the extents, the last dimension taking what is left. -/
def addressOf (r : Shape) (l : Nat) : Word :=
  let e (k : Nat) : Nat := (r.toList.getD (2 + k) 0).toNat
  let st (k : Nat) : Word := r.toList.getD (6 + k) 0
  let d (n : Nat) : Word := BitVec.ofNat 64 n
  match shapeRank r with
  | 1 => r[0] + d l * st 0
  | 2 => r[0] + d (l % e 0) * st 0 + d (l / e 0) * st 1
  | 3 => r[0] + d (l % e 0) * st 0 + d (l / e 0 % e 1) * st 1 + d (l / e 0 / e 1) * st 2
  | _ => r[0] + d (l % e 0) * st 0 + d (l / e 0 % e 1) * st 1 + d (l / e 0 / e 1 % e 2) * st 2 +
      d (l / e 0 / e 1 / e 2) * st 3

/-- The elements of a memory word at their addresses, `on` those that this run performs. -/
def elementsOf (c : Core) (o : MemArgs) (indexed : Bool) (left : Nat → Nat → Bool) : List Elem :=
  c.targets o indexed (c.shapeOf o) left

/-- The elements that are performed. -/
def doneOf (l : List Elem) : List Elem := l.filter Elem.on

/-- Every element stands at `pl`: in the scratchpad at its address, or where the pages say, whose A and D bits are set
already, and for which no request was refused; it is aligned. -/
def Stand (s : State) (o : MemArgs) (k : Acc) (els : List Elem) (pl : Elem → Place) : Prop :=
  ∀ el ∈ els, el.addr.toNat % elemBytes o.et = 0 ∧
    if shapeSp (s.core.shapeOf o) then pl el = .spad el.addr.toNat
    else s.refusedPage (.word s.core.run.rank) el.addr = false ∧
      ∃ m a, whereIs (pl el) = some (m, a) ∧ m < 2 ∧ a % elemBytes o.et = 0 ∧
      ∀ spec, ∃ attr, probe s el.addr (elemBytes o.et) k spec = .ok (pl el, attr, s)

/-- A suppressed element (R255, R256): its access fails, and for what; it sets no A or D bit that is not set already. -/
def FailsAt (s : State) (o : MemArgs) (el : Elem) (why : Nat) : Prop :=
  shapeSp (s.core.shapeOf o) = false ∧ el.addr.toNat % elemBytes o.et = 0 ∧
    s.touched el.addr (elemBytes o.et) .read = s ∧
    ∃ f, probe s el.addr (elemBytes o.et) .read true = .error f ∧ f ≠ .migrating ∧ f.why = why

/-- The element at a place of the tile. -/
def elementAt (els : List Elem) (r e : Nat) : Option Elem := els.find? fun el => el.row == r && el.e == e

/-- What elements write in a register: each performed one its value. -/
def elementWrite (c : Core) (o : MemArgs) (els : List Elem) (val : Elem → Nat) : VWrite :=
  { reg := o.vd.toNat, w := o.et.width, rows := c.run.rc.toNat, n := c.run.vl.toNat
    on := fun r e => (elementAt (doneOf els) r e).isSome
    val := fun r e => ((elementAt (doneOf els) r e).map val).getD 0 }

/-! ## Limits (Table 20-4) -/

/-- Registers that a memory word reads: mask, index, data. -/
def memRegs (o : MemArgs) (indexed data : Bool) : List Nat :=
  maskOf o.m ++ (if indexed then [o.vb.toNat] else []) ++ if data then [o.va.toNat] else []

/-- The limits of a memory word: `k` its types, `wr` the registers it writes, `extra` what its own row adds about the
record. -/
def memLimitsOf (c : Core) (o : MemArgs) (indexed data : Bool) (k : EType → Bool) (wr : List Nat) (extra : Bool) :
    List (Nat × Bool) :=
  let r := c.shapeOf o
  [(1, k o.et), (2, lenFits c o.et), (2, !indexed || decide (c.run.vl.toNat ≤ 16384 / idxWidth o.iw)),
    (16, !(indexed && o.re) || (c.ix[o.rx.toNat]).ok), (6, apart wr (memRegs o indexed data)),
    (8, (c.q[o.str.toNat]).shape.isSome && decide (shapeEt r = o.et)), (8, extra),
    (8, !shapeSp r || (elementsOf c o indexed fun _ _ => true).all fun el =>
      decide (el.addr.toNat + elemBytes o.et ≤ 0x200000))]

/-! ## Loads and stores -/

/-- How a load or store takes its elements. -/
structure MemKind where
  args : MemArgs
  indexed : Bool
  inRegion : Bool
  /-- By rows (`VLDFF`, `VXLT`). -/
  byRow : Bool
  /-- Failures are suppressed (`VLDSP`). -/
  suppresses : Bool

/-- The loads (Table 9-2). -/
def loadWord : Instr → Option MemKind
  | .vld o => some ⟨o, false, false, false, false⟩
  | .vldx o => some ⟨o, true, false, false, false⟩
  | .vldff o => some ⟨o, false, false, true, false⟩
  | .vldsp o => some ⟨o, false, true, false, true⟩
  | .vldspx o => some ⟨o, true, true, false, true⟩
  | .vldp o => some ⟨o, false, false, false, false⟩
  | _ => none

/-- The stores; `VSTH` outside a region is one. -/
def storeWord : Instr → Option MemKind
  | .vst o => some ⟨o, false, false, false, false⟩
  | .vstx o => some ⟨o, true, false, false, false⟩
  | .vstp o => some ⟨o, false, false, false, false⟩
  | .vsth o => some ⟨o, false, true, false, false⟩
  | _ => none

/-- The record that a load or store needs beyond its element type (R254). -/
def recordFits (c : Core) (i : Instr) : Bool :=
  match i with
  | .vldp o => shapeSp (c.shapeOf o)
  | .vstp o =>
    let r := c.shapeOf o
    shapeSp r && decide (shapeRank r = 1) &&
      (decide (o.et = .f4) || decide (r.toList.getD 6 0 = BitVec.ofNat 64 (elemBytes o.et)))
  | _ => true

/-- Which elements are left: the steps from `lgs` on, or rows from there on (R252). -/
def leftOf (c : Core) (k : MemKind) (r e : Nat) : Bool :=
  if k.byRow then rowLeft c r else stepLeft c k.args.et.width r e

/-- The value of an element that the running word has read ahead of its step (R130). -/
def readBefore (c : Core) (el : Elem) : Option Nat :=
  (c.early.find? fun x => x.1 == c.run.rank && x.2.1 == el.lin).map fun x => x.2.2

/-- Elements that a watermark or, for a `VLDP`, an older copy holds back (R106, R143): one that has been read already waits for
neither. -/
def awaited (s : State) (i : Instr) (o : MemArgs) (el : Elem) : Bool :=
  (readBefore s.core el).isNone && (!s.coversElem o el || (match i with
    | .vldp _ => s.awaitsCopy el.addr.toNat (elemBytes o.et)
    | _ => false))

/-- The scratchpad ranges that `VSTP` words have written beside unfinished copies, after a store (R106). -/
def stpsAfter (c : Core) (i : Instr) (o : MemArgs) : List (Nat × Nat × Nat) :=
  match i with
  | .vstp _ => (c.noteStp o).stps
  | _ => c.stps

/-- The stream behind the word moves by `n` elements, which makes it dirty (R248, R49). -/
def Core.streamOn (c : Core) (o : MemArgs) (n : Nat) : Core :=
  if o.adv then
    { c with
      q := c.q.set o.str.toNat { c.q[o.str.toNat] with pos := c.q[o.str.toNat].pos + BitVec.ofNat 64 n }
      vdirty := c.vdirty ||| BitVec.ofNat 64 (2 ^ (37 + o.str.toNat)) }
  else c

/-- What a run that `CM` tracks leaves in it: the bits of the elements performed, with V cleared again at retirement
(R59). -/
def Core.tracked (c : Core) (indexed : Bool) (cm : VReg) : Core :=
  if indexed && c.cntLive then { c with cm := cm, cmv := c.cmv &&& ~~~0x3F01#64 } else c

/-- The bits of `CM` are those of the elements. -/
def TracksElements (els : List Elem) (cm : VReg) : Prop :=
  ∀ r e, r < 16 → e < 16384 → ((cm.row r).getLsbD e = true ↔ ∃ el ∈ els, el.row = r ∧ el.e = e)

/-- The first suppressed element (R47, R265): `ffs` takes it while V is 0, or in place of a later one of the same word; in a
region the hamper keeps the lowest. -/
def Core.withSuppressed (c : Core) (x : Option (Elem × Nat)) : Core :=
  match x with
  | none => c
  | some (el, why) =>
    match c.region with
    | none =>
      let row := (c.ffs.extractLsb' 15 4).toNat
      let e := (c.ffs.extractLsb' 0 15).toNat
      if c.ffs.getLsbD 23 && !(decide (c.ffsBy = some c.run.rank) && decide (el.row < row ∨ el.row = row ∧ el.e < e)) then c
      else
        { c with
          ffs := 0x800000#64 ||| BitVec.ofNat 64 (why * 2 ^ 20 + el.row * 2 ^ 15 + el.e)
          ffsBy := some c.run.rank }
    | some r =>
      match r.supp with
      | some (q, _) => if q ≤ el.lin then c else { c with region := some { r with supp := some (el.lin, BitVec.ofNat 3 why) } }
      | none => { c with region := some { r with supp := some (el.lin, BitVec.ofNat 3 why) } }

/-- `CM` tracks no word of the queue as it stands. -/
def Core.cmFree (c : Core) : Prop := (c.cntLive = true → c.cmv.getLsbD 0 = false) ∧ c.ownPos < 64

/-- The fetch caches after an acquire at a scope (R198). -/
def Core.acquiredAt (c : Core) (ord : BitVec 2) (sc : Scope) : Core :=
  if ord.getLsbD 0 = true ∧ sc ≠ .hart ∧ sc ≠ .core then { c with icache := [], bcache := [] } else c

/-- The atomics: what the element's place gets for the old value and the data (Table 9-4). -/
def atomicValue : Instr → Option (MemArgs × (EType → Bool) × (Nat → Nat → Nat))
  | .vamoAdd o => some (o, EType.isInt, fun old x => (old + x) % 2 ^ o.et.width)
  | .vamoSwp o => some (o, EType.isInt, fun _ x => x)
  | .vamoMin o => some (o, EType.isInt, fun old x => if intOf o.et x < intOf o.et old then x else old)
  | .vamoMax o => some (o, EType.isInt, fun old x => if intOf o.et old < intOf o.et x then x else old)
  | .vamoAnd o => some (o, EType.isInt, fun old x => old &&& x)
  | .vamoOr o => some (o, EType.isInt, fun old x => old ||| x)
  | .vamoXor o => some (o, EType.isInt, fun old x => old ^^^ x)
  | .vamoFadd o => some (o, fun et => decide (et = .f64 ∨ et = .f32), fun old x => fadd o.et .rne old x)
  | _ => none

/-! ## Hash tables (R259, R260) -/

/-- The table that a `VHACC` names: base, slots. -/
def tableBase (c : Core) (o : MemArgs) : Nat := ((c.shapeOf o)[0]).toNat
def tableSlots (c : Core) (o : MemArgs) : Nat := ((c.shapeOf o)[2]).toNat

/-- The slot of the j-th probe of a key, and its address. -/
def slotOf (c : Core) (o : MemArgs) (key j : Nat) : Nat :=
  tableBase c o + 8 * (((if o.re then (c.ix[o.rx.toNat]).apply key else key) % tableSlots c o + j) % tableSlots c o)

/-- The first probe of 16 whose slot holds the key or is empty. -/
def foundAt (c : Core) (o : MemArgs) (key : Nat) : Option Nat :=
  (List.range 16).find? fun j => decide (c.spad.num 4 (slotOf c o key j) = key ∨ c.spad.num 4 (slotOf c o key j) = 0xFFFFFFFF)

/-- The limits of `VHACC`. -/
def hashLimitsOf (c : Core) (o : MemArgs) : List (Nat × Bool) :=
  let r := c.shapeOf o
  let n := tableSlots c o
  [(1, decide (o.et = .i32 ∨ o.et = .n32 ∨ o.et = .f32)), (2, decide (c.run.vl.toNat ≤ 512)),
    (16, !o.re || (c.ix[o.rx.toNat]).ok), (6, apart [o.vd.toNat] (o.vb.toNat :: o.va.toNat :: maskOf o.m)),
    (8, (c.q[o.str.toNat]).shape.isSome && decide (shapeEt r = o.et)),
    (8, shapeSp r && decide (shapeRank r = 1) && decide (r.toList.getD 6 0 = 8) && decide (16 ≤ n ∧ n ≤ 262144) &&
      decide (n = 2 ^ n.log2)),
    (8, decide (tableBase c o + 8 * n ≤ 0x200000))]

/-! ## Key-value translation (R120 to R123, R261) -/

/-- The address of the table entry of a token, in the pool that row 0 of va describes (Table 4-7). -/
def entryAddr (c : Core) (o : MemArgs) (tok : Nat) : Word :=
  BitVec.ofNat 64 (elemAt c o.va 64 0 0) + BitVec.ofNat 64 (8 * (tok / 2 ^ (elemAt c o.va 64 0 2 % 32)))

/-- The address of a token whose block an entry names. -/
def tokenAddr (c : Core) (o : MemArgs) (entry tok : Nat) : Word :=
  let e2 := elemAt c o.va 64 0 2
  let lt := e2 % 32
  let le := e2 / 256 % 32
  BitVec.ofNat 64 (elemAt c o.va 64 0 1 + entry % 2 ^ 32 * 2 ^ (lt + le) + tok % 2 ^ lt * 2 ^ le)

/-- The limits of `VXLT`. -/
def xltLimitsOf (c : Core) (o : MemArgs) : List (Nat × Bool) :=
  let e2 := elemAt c o.va 64 0 2
  let lt := e2 % 32
  let le := e2 / 256 % 32
  [(1, decide (o.et = .n64)), (2, decide (c.run.vl.toNat ≤ 256)), (6, decide (o.vd ≠ o.vc)),
    (6, apart [o.vd.toNat, o.vc.toNat] (o.va.toNat :: o.vb.toNat :: maskOf o.m)),
    (13, decide (4 ≤ le ∧ le ≤ 16 ∧ lt ≤ 12 ∧ lt + le ≤ 24) && decide (e2 = le * 256 + lt) &&
      decide (elemAt c o.va 64 0 0 % 8 = 0 ∧ elemAt c o.va 64 0 1 % 65536 = 0))]

end Sys2Proof.Machine
end

