-- ==== Sys2Proof/Safety/Regions.lean ====
section
/-! DEFINITION. Words of the vector queue that act on state words, streams, regions and records (spec/09 R243 to R248, R257, R262
to R271, spec/10 R299 to R303). -/

namespace Sys2Proof.Machine

/-- The shape record in row 0 of a register. -/
def recordAt (c : Core) (va : BitVec 5) : Shape := .ofFn fun k => BitVec.ofNat 64 (elemAt c va 64 0 k.val)

/-- A stream register written: an all-closed record leaves it closed at 0 (R245, R247); the stream is dirty. -/
def Core.streamSet (c : Core) (q : BitVec 4) (r : Shape) (pos : Word) : Core :=
  { c with q := c.q.set q.toNat (if r[1] = 0 then ⟨none, 0⟩ else ⟨some r, pos⟩)
           vdirty := c.vdirty ||| BitVec.ofNat 64 (2 ^ (37 + q.toNat)) }

/-- What `ssave` writes: record and position, or zeros (R247). -/
def savedStream (c : Core) (vd : BitVec 5) (q : BitVec 4) : VWrite :=
  { reg := vd.toNat, w := 64, rows := 1, n := 11, on := fun _ _ => true
    val := fun _ k => match (c.q[q.toNat]).shape with
      | none => 0
      | some r => if k = 10 then (c.q[q.toNat]).pos.toNat else (r.toList.getD k 0).toNat }

/-- The signed amount of `SADV` (R246). -/
def advanceOf (c : Core) : Src → Word
  | .vv v => BitVec.ofNat 64 (elemAt c v 64 0 0)
  | .vo n => c.run.slots[n.toNat]
  | .vi i => i.signExtend 64

/-- What `vgett` writes: the configuration, and with MODE 2 the table in rows 1 to 8 (R299). -/
def gotTable (c : Core) (vd : BitVec 5) (ix : BitVec 2) : List VWrite :=
  let x := c.ix[ix.toNat]
  [{ reg := vd.toNat, w := 64, rows := 1, n := 1, on := fun _ _ => true, val := fun _ _ => x.cfg.toNat },
    { reg := vd.toNat, w := 32, rows := 9, n := 512, on := fun r _ => decide (1 ≤ r ∧ x.cfg.extractLsb' 0 2 = 2)
      val := fun r e => (x.table.extractLsb' (((r - 1) * 512 + e) * 32) 32).toNat }]

/-- A region as `VSPEC` opens it (R262). -/
def regionFor (c : Core) (annulled : Bool) : Region :=
  { vl := c.run.vl, rc := c.run.rc, words := 0, held := [], pos := .ofFn fun k => (c.q[k]).pos, brk := c.brk, brkp := c.brkp
    supp := none, annulled := annulled, retired := [] }

/-- Younger words of the queue under a trim at what `ffs` names (R257). -/
def Core.trimmed (c : Core) : Core :=
  let row := (c.ffs.extractLsb' 15 4).toNat
  let el := (c.ffs.extractLsb' 0 15).toNat
  let cut (e : QEntry) : QEntry :=
    if e.epoch = c.run.epoch ∧ c.run.rank < e.rank then
      (if row = 0 then { e with rc := 1, vl := BitVec.ofNat 15 (Min.min e.vl.toNat el) }
       else { e with rc := BitVec.ofNat 5 (Min.min e.rc.toNat row) })
    else e
  { c with trim := some ⟨c.run.epoch, c.run.rank, row, el⟩, vec := c.vec.map cut }

/-! ## The hamper -/

/-- The bits that a held element takes in a memory. -/
def Held.span (h : Held) : Option (Nat × Nat) :=
  (whereIs h.place).map fun x => (x.1, 8 * x.2 + if h.bits = 4 ∧ h.high = true then 4 else 0)

/-- Held elements share no bit. -/
def heldApart (hs : List Held) : Prop :=
  hs.Pairwise fun x y => ∀ k b d, x.span = some (k, b) → y.span = some (k, d) → b + x.bits ≤ d ∨ d + y.bits ≤ b

/-- An element size. -/
def heldSized (h : Held) : Prop := h.bits ∈ [4, 8, 16, 32, 64] ∧ h.span.isSome = true

/-- The frame of a held element may be written by the hart's context (R116, R414). -/
def heldOwned (s : State) (h : Held) : Prop :=
  ∀ a, h.place = .dram a → ownerCheck (s.dev.frameEntry (a / 65536)) s.ctxId true = none

/-- The memories of `t` are those of `s` with these held elements performed, and no other bit changed (R146, R266). -/
def Performed (s t : State) (hs : List Held) : Prop :=
  (∀ h ∈ hs, ∀ k b, h.span = some (k, b) → ∀ j, j < h.bits → memBit (memOf t k) (b + j) = h.val.testBit j) ∧
  ∀ k x, k < 3 → (∀ h ∈ hs, ∀ b, h.span = some (k, b) → x < b ∨ b + h.bits ≤ x) →
    memBit (memOf t k) x = memBit (memOf s k) x

/-- The exit of a region (R266): the place *p* of the exit bit, and the first element not completed: the one after an
inclusive exit's, but no later than the lowest suppressed one. -/
def exitPlace (c : Core) (o : MaskArgs) : Nat := firstPlace c o.m o.va
def exitBound (c : Core) (o : MaskArgs) (inclusive : Bool) (r : Region) : Nat :=
  let t := c.run.rc.toNat * c.run.vl.toNat
  let b := if exitPlace c o < t then exitPlace c o + inclusive.toNat else t
  match r.supp with
  | some (q, _) => Min.min q b
  | none => b

/-- The state words after an exit (R266, R268, Tables 2-9 and 2-10). -/
def exitState (c : Core) (o : MaskArgs) (inclusive : Bool) (r : Region) : Core :=
  let t := c.run.rc.toNat * c.run.vl.toNat
  let vl := c.run.vl.toNat
  let b0 := if exitPlace c o < t then exitPlace c o + inclusive.toNat else t
  let b := exitBound c o inclusive r
  let at_ := match r.supp with
    | some (q, _) => Min.min (exitPlace c o) q
    | none => exitPlace c o
  let ffs := match r.supp with
    | some (q, why) =>
      if q < b0 then 0x800000#64 ||| BitVec.ofNat 64 (why.toNat * 2 ^ 20 + q / vl * 2 ^ 15 + q % vl) else c.ffs
    | none => c.ffs
  { c with
    ffs := ffs, brkp := 0, region := none
    brk := if b < t then (c.brk &&& ~~~0x1FFFFF#64) ||| BitVec.ofNat 64 (2 + at_ / vl % 16 * 4 + at_ % vl % 2 ^ 15 * 64)
      else c.brk &&& ~~~0x1FFFFD#64 }

/-- A hart holds still in a vector-queue word: nothing of it has happened, and it has passed its fault point. -/
def Holds (s : State) (r : Result) : Prop :=
  ∃ t, r = .next t ∧ t.core.why = some .hold ∧ t.core.v = s.core.v ∧ t.core.q = s.core.q ∧ t.core.s = s.core.s ∧
    t.dev = s.dev ∧ t.core.vec.map QEntry.rank = s.core.vec.map QEntry.rank

end Sys2Proof.Machine
end

