-- ==== Sys2Proof/Safety/Matrix.lean ====
section
/-! DEFINITION. What the words of the matrix queue and of the Darner leave in tiles, registers and the Press (spec/10 R273 to R282,
spec/11 R304 to R322). -/

namespace Sys2Proof.Machine

/-- A word of the matrix queue runs: its first use is allowed, and nothing is spoiled. -/
structure MatReady (s : State) : Prop where
  whole : s.core.mode = .whole
  used : firstUse s.core.run = none
  sound : s.anyPoison = false
  clean : s.core.wrote = []
  rows : s.core.run.rc.toNat ≤ 16

/-! ## Tiles (R274, R275) -/

/-- An element of a tile. -/
def tileAt (t : Tile) (row col : Nat) : Nat := (((t[row]?).getD 0).extractLsb' (32 * col) 32).toNat

/-- The window of a tile: its first row and column. -/
def winRow (c : Core) (t : BitVec 2) : Nat := (c.wins[t.toNat]).row0.toNat
def winCol (c : Core) (t : BitVec 2) : Nat := (c.wins[t.toNat]).col0.toNat

/-- An element of the window. -/
def windowAt (c : Core) (t : BitVec 2) (i n : Nat) : Nat := tileAt c.tiles[t.toNat] (winRow c t + i) (winCol c t + n)

/-- The window holds the word's rows and columns (code 10). -/
def windowFits (c : Core) (t : BitVec 2) : Bool :=
  decide (winRow c t + c.run.rc.toNat ≤ 16 ∧ winCol c t + c.run.vl.toNat ≤ 2048)

/-- The tiles are those of `c` with these elements of one window written, and every other element as it was. -/
def TilesAfter (c : Core) (t : BitVec 2) (on : Nat → Nat → Bool) (f : Nat → Nat → Nat) (tiles : Vector Tile 4) : Prop :=
  ∀ (u : BitVec 2) row col, row < 16 → col < 2048 → tileAt tiles[u.toNat] row col =
    if u = t ∧ winRow c t ≤ row ∧ row < winRow c t + c.run.rc.toNat ∧ winCol c t ≤ col ∧
        col < winCol c t + c.run.vl.toNat ∧ on (row - winRow c t) (col - winCol c t) = true then
      f (row - winRow c t) (col - winCol c t) % 2 ^ 32
    else tileAt c.tiles[u.toNat] row col

/-- The dirty bits are those of `c` and these. -/
def DirtyAfter (c : Core) (d : Word) (p : Nat → Prop) : Prop := ∀ i, d.getLsbD i = true ↔ c.vdirty.getLsbD i = true ∨ p i

/-- Some element of the window is selected. -/
def someIn (c : Core) (on : Nat → Nat → Bool) : Prop :=
  ∃ i n, i < c.run.rc.toNat ∧ n < c.run.vl.toNat ∧ on i n = true

/-- A product takes scales: SCL and the carried `vtype`.SCE (R276). -/
def scaledOf (c : Core) (o : MatMul) : Bool := o.scl && c.run.vtype.getLsbD 15

/-- The products (R276 to R279): tile, length of the sums, the value of each product, and the scale of a block. -/
structure Product where
  tile : BitVec 2
  k : Nat
  prod : Nat → Nat → Nat → FVal
  scale : Nat → Nat → FVal → FVal

/-- An element of B: row kk of the registers from vb on, rc rows in each. -/
def rightOf (c : Core) (o : MatMul) (kk n : Nat) : FVal :=
  fval o.et (elemAt c (o.vb + BitVec.ofNat 5 (kk / c.run.rc.toNat)) o.et.width (kk % c.run.rc.toNat) n)

/-- An element of A rebuilt from two of four (R278). -/
def leftPair (c : Core) (o : MatMul) (i kk : Nat) : FVal :=
  let nib (j : Nat) : Nat := (((c.v[o.vc.toNat]).row i).extractLsb' (4 * (kk / 4) + 2 * j) 2).toNat
  let x (j : Nat) : FVal := fval o.et (elemAt c o.va o.et.width i (2 * (kk / 4) + j))
  if kk % 4 = nib 1 then x 1 else if kk % 4 = nib 0 then x 0 else .fin false 0 0

/-- An integer as an exact value. -/
def exactInt (x : Int) : FVal := .fin (decide (x < 0)) x.natAbs 0

def productOf (c : Core) (i : Instr) : Option Product :=
  let scale (o : MatMul) (n j : Nat) (x : FVal) : FVal :=
    if scaledOf c o then x.mul (fval .bf16 (elemAt c 31 16 j n)) else x
  match i with
  | .mma o => some
    { tile := o.t, k := 2 ^ o.g.toNat * c.run.rc.toNat, scale := scale o
      prod := fun i n kk => (fval o.et (elemAt c o.va o.et.width i kk)).mul (rightOf c o kk n) }
  | .mmas o => some
    { tile := o.t, k := 2 ^ o.g.toNat * c.run.rc.toNat, scale := scale o
      prod := fun i n kk => (leftPair c o i kk).mul (rightOf c o kk n) }
  | .msmma o =>
    let k := 32 * (o.k4.toNat + 1)
    some { tile := o.t, k := k, scale := fun _ _ x => x
           prod := fun i n kk =>
             let e := kk * c.run.vl.toNat + n
             exactInt (planesOf c false o.va (i * k + kk) *
               planesOf c true (o.vb + BitVec.ofNat 5 (e / 16384)) (e % 16384)) }
  | _ => none

/-- Types of the products (R277). -/
def productTypes : List EType := [.f32, .bf16, .f16, .f8e4, .f8e5, .f4]

def productLimits (c : Core) (i : Instr) : List (Nat × Bool) :=
  let base (o : MatMul) (ok : Bool) (more : List (Nat × Bool)) : List (Nat × Bool) :=
    [(1, ok), (2, decide (c.run.vl.toNat ≤ (if scaledOf c o then Min.min (16384 / o.et.width) 1024 else 16384 / o.et.width)))] ++
      more ++ [(4, alignedTo o.vb (2 ^ o.g.toNat)), (10, windowFits c o.t)]
  match i with
  | .mma o => base o (productTypes.contains o.et) []
  | .mmas o => base o (productTypes.contains o.et && o.et != .f32) [(3, decide (2 ^ o.g.toNat * c.run.rc.toNat % 4 = 0))]
  | .msmma o =>
    let k := 32 * (o.k4.toNat + 1)
    [(1, typeIn 5 o.et), (3, decide (c.run.rc.toNat * k ≤ 16384)),
      (3, decide (k * c.run.vl.toNat ≤ 2 ^ o.g.toNat * 16384)), (4, alignedTo o.vb (2 ^ o.g.toNat)),
      (10, windowFits c o.t)]
  | _ => []

/-! ## Tile reads and writes (R280, R281) -/

/-- A tile read: the window converted into vd, with its overflow mask. -/
def tileReadWrites (c : Core) (o : TileRead) : List VWrite :=
  let conv (i n : Nat) := convert .f32 o.et o.rnd (windowAt c o.t i n)
  let x : VWrite :=
    { reg := o.vd.toNat, w := o.et.width, rows := c.run.rc.toNat, n := c.run.vl.toNat
      on := activeAt c o.m, val := fun i n => (conv i n).1 }
  x :: flagged o.ove x fun i n => (conv i n).2

def tileReadLimits (c : Core) (o : TileRead) : List (Nat × Bool) :=
  [(1, typeIn 3 o.et), (2, lenFits c o.et), (10, windowFits c o.t), (6, oveApart o.ove (o.vd.toNat :: maskOf o.m))]

/-- A tile write: the source, or its sum with the window, rounded once to `f32`. -/
def tileWriteValue (c : Core) (o : TileWrite) (add : Bool) (i n : Nat) : Nat :=
  let x := valOf o.et (elemAt c o.va o.et.width i n)
  ((fmtOf .f32).narrow o.rnd (if add then x.add o.rnd (fval .f32 (windowAt c o.t i n)) else x)).1

def tileWriteLimits (c : Core) (o : TileWrite) : List (Nat × Bool) :=
  [(1, typeIn 3 o.et), (2, lenFits c o.et), (10, windowFits c o.t)]

/-! ## The Press (R304 to R317) -/

/-- Elements of a Press image (Table 11-3). -/
def imageAt (p : Press) (i e : Nat) : Nat :=
  match e with
  | 0 => (p.norm.getD i (0, 0)).1.toNat
  | 1 => (p.norm.getD i (0, 0)).2.toNat
  | 2 => (p.label.getD i ⟨0, 0, false⟩).val.toNat
  | 3 => (p.tau.getD i 0).toNat
  | 4 => (p.label.getD i ⟨0, 0, false⟩).id.toNat
  | 5 => (p.label.getD i ⟨0, 0, false⟩).valid.toNat
  | 6 => if i = 0 then p.k else 0
  | _ => if i = 0 then (p.pstat.extractLsb' 0 32).toNat else 0

/-- Rows of 32-bit values in a register. -/
def heapWrite (p : Press) (v : BitVec 5) (f : HeapEntry → BitVec 32) : VWrite :=
  { reg := v.toNat, w := 32, rows := p.heap.length, n := 512, on := fun r e => decide (e < (p.heap.getD r []).length)
    val := fun r e => (((p.heap.getD r [])[e]?).map f).elim 0 BitVec.toNat }

/-- Entries of row *i* as two registers hold them. -/
def entriesAt (c : Core) (va vb : BitVec 5) (i k : Nat) : List HeapEntry :=
  (List.range k).map fun e => ⟨BitVec.ofNat 32 (elemAt c va 32 i e), BitVec.ofNat 32 (elemAt c vb 32 i e)⟩

/-- A Press whose fields fit together: *H* rows of K entries, ranked, and a status word of 32 bits. -/
structure Press.Fits (p : Press) : Prop where
  rows : p.heap.length = (p.pstat.extractLsb' 25 4).toNat + 1
  ranked : ∀ r ∈ p.heap, topK p.k r = r
  size : 1 ≤ p.k ∧ p.k ≤ 256 ∧ p.heap.length * p.k ≤ 256
  status : p.pstat.toNat < 2 ^ 32

/-- The projections: mask, slot, tile, the Press that it starts from, and the limits that are its own (R306 to R308). -/
def projection (c : Core) (i : Instr) : Option (Bool × BitVec 4 × BitVec 2 × Press × Bool) :=
  let start (vc : BitVec 5) (k : Nat) (thr : Bool) : Press :=
    { heap := List.replicate c.run.rc.toNat (List.replicate k ⟨0xFF800000, 0xFFFFFFFF⟩)
      norm := .replicate 16 (0xFF800000, 0)
      label := .ofFn fun j => ⟨BitVec.ofNat 32 (elemAt c vc 32 0 j.val), 0, false⟩
      tau := .ofFn fun j => BitVec.ofNat 32 (elemAt c vc 32 1 j.val)
      k := k, pstat := BitVec.ofNat 64 ((c.run.rc.toNat - 1) * 2 ^ 25 + thr.toNat * 2 ^ 29) }
  match i with
  | .vproj m n t => some (m, n, t, c.press, decide (c.run.rc.toNat = (c.press.pstat.extractLsb' 25 4).toNat + 1))
  | .vprojs m vc n k1 t => some (m, n, t, start vc (k1.toNat + 1) false, decide ((k1.toNat + 1) * c.run.rc.toNat ≤ 256))
  | .vprojt m vc n k1 t => some (m, n, t, start vc (k1.toNat + 1) true, decide ((k1.toNat + 1) * c.run.rc.toNat ≤ 256))
  | _ => none

/-- The draws: mask, vd, va, vb, type, slot, whether the Press normaliser counts (R315). -/
def drawOf : Instr → Option (Bool × BitVec 5 × BitVec 5 × BitVec 5 × EType × Option (BitVec 4) × Bool)
  | .draw m vd va vb et => some (m, vd, va, vb, et, none, false)
  | .drawn m vd va vb et => some (m, vd, va, vb, et, none, true)
  | .drawr m vd va vb et n => some (m, vd, va, vb, et, some n, false)
  | .drawrn m vd va vb et n => some (m, vd, va, vb, et, some n, true)
  | _ => none

/-- The uniform number of a row: from the carried stream, or the low 24 bits of a carried slot (R85, R316). -/
def uniformAt (c : Core) (slot : Option (BitVec 4)) (i : Nat) : Nat :=
  match slot with
  | some n => ((c.run.slots.getD (n.toNat + i) 0).extractLsb' 0 24).toNat
  | none => drawHash c.run.rkey (c.run.rpos + BitVec.ofNat 64 i)

/-! ## The Darner (R318 to R322) -/

/-- Entry *x* of the map in row *r* of a register or group. -/
def entryAt (c : Core) (v : BitVec 5) (r x : Nat) : Nat :=
  if c.run.vtype.getLsbD 14 then elemAt c (v + BitVec.ofNat 5 (x / 1024)) 16 r (x % 1024) else elemAt c v 8 r x

/-- *f* then *g* for maps of *n* states (R319). -/
def thenMap (n : Nat) (f g : Nat → Nat) (x : Nat) : Nat := if f x < n then g (f x) else f x

/-- The prefix composition of the rows up to *r*, behind a first map when there is one (R320). -/
def prefixOf (c : Core) (va : BitVec 5) (first : Option (Nat → Nat)) : Nat → Nat → Nat
  | 0 =>
    match first with
    | none => entryAt c va 0
    | some f => thenMap c.run.vl.toNat f (entryAt c va 0)
  | r + 1 => thenMap c.run.vl.toNat (prefixOf c va first r) (entryAt c va (r + 1))

/-- Maps written to the rows of a register or group. -/
def mapWrites (c : Core) (vd : BitVec 5) (f : Nat → Nat → Nat) : List VWrite :=
  let vl := c.run.vl.toNat
  if c.run.vtype.getLsbD 14 then
    (List.range ((vl + 1023) / 1024)).map fun j =>
      { reg := (vd + BitVec.ofNat 5 j).toNat, w := 16, rows := c.run.rc.toNat, n := Min.min 1024 (vl - 1024 * j)
        on := fun _ _ => true, val := fun r e => f r (1024 * j + e) }
  else [{ reg := vd.toNat, w := 8, rows := c.run.rc.toNat, n := vl, on := fun _ _ => true, val := f }]

/-- Bits of vc that name the constant prefixes. -/
def constantWrite (c : Core) (vc : BitVec 5) (f : Nat → Nat → Nat) : VWrite :=
  { reg := vc.toNat, w := 1, rows := 1, n := c.run.rc.toNat, on := fun _ _ => c.run.vl != 0
    val := fun _ r => ((List.range c.run.vl.toNat).all fun x => f r x == f r 0).toNat }

/-- Flat bit *F* of a register (R321). -/
def flatAt (c : Core) (v : BitVec 5) (f : Nat) : Bool := bitAt c v (f / 16384) (f % 16384)

def darnWrites (c : Core) (i : Instr) : Option (List VWrite) :=
  let vl := c.run.vl.toNat
  match i with
  | .mcomp o => some (mapWrites c o.vd fun r => thenMap vl (entryAt c o.va r) (entryAt c o.vb r))
  | .mcscan o => some (mapWrites c o.vd (prefixOf c o.va none) ++ [constantWrite c o.vc (prefixOf c o.va none)])
  | .mcscanc o =>
    some (mapWrites c o.vd (prefixOf c o.va (some (entryAt c o.vb 0))) ++
      [constantWrite c o.vc (prefixOf c o.va (some (entryAt c o.vb 0)))])
  | .mclegal o =>
    let w := if c.run.vtype.getLsbD 14 then 16 else 8
    some [{ reg := o.vd.toNat, w := 1, rows := 16, n := 16384
            on := fun row b => decide (row * 16384 + b < c.run.rc.toNat * vl) &&
              activeAt c o.m ((row * 16384 + b) / vl) ((row * 16384 + b) % vl)
            val := fun row b =>
              (flatAt c o.vb (elemAt c o.va w ((row * 16384 + b) / vl) ((row * 16384 + b) % vl))).toNat }]
  | .mclegalx o =>
    some [{ reg := o.vd.toNat, w := 1, rows := c.run.rc.toNat, n := vl, on := activeAt c o.m
            val := fun r e =>
              (decide (elemAt c o.vb 32 r e < 262144) && flatAt c o.va (elemAt c o.vb 32 r e)).toNat }]
  | _ => none

def darnLimitsOf (c : Core) (i : Instr) : List (Nat × Bool) :=
  let wide := c.run.vtype.getLsbD 14
  let maps (o : Darn) (vs : List (BitVec 5)) (wr rd : List Nat) : List (Nat × Bool) :=
    let g := 2 ^ o.g.toNat
    [(12, wide || g == 1), (12, decide (c.run.vl.toNat ≤ if wide then Min.min (g * 1024) 4096 else 256))] ++
      vs.map (fun v => (4, alignedTo v g)) ++ [(6, apart wr rd)]
  let legal (o : Darn) (n : Nat) : List (Nat × Bool) :=
    [(2, decide (c.run.vl.toNat ≤ n)), (6, apart [o.vd.toNat] ([o.va.toNat, o.vb.toNat] ++ maskOf o.m))]
  match i with
  | .mcomp o =>
    let g := 2 ^ o.g.toNat
    maps o [o.vd, o.va, o.vb] (groupOf o.vd g) (groupOf o.va g ++ groupOf o.vb g)
  | .mcscan o =>
    let g := 2 ^ o.g.toNat
    maps o [o.vd, o.va, o.vc] (groupOf o.vd g ++ [o.vc.toNat]) (groupOf o.va g)
  | .mcscanc o =>
    let g := 2 ^ o.g.toNat
    maps o [o.vd, o.va, o.vb, o.vc] (groupOf o.vd g ++ [o.vc.toNat]) (groupOf o.va g ++ groupOf o.vb g)
  | .mclegal o => legal o (if wide then 1024 else 2048)
  | .mclegalx o => legal o 512
  | _ => []

end Sys2Proof.Machine
end

