-- ==== Sys2Proof/Certificates/Slice0/Obligations.lean ====
section
/-! DEFINITION. The statements for the provers. Each says what an instruction or the machine does, in the terms of the
spec's numbered rules; the vocabulary stands under Sys2Proof/Safety. -/

open Sys2Proof Sys2Proof.Machine

/-! ## Encoding (spec/06) -/

/-- R148 to R161: no bit of an encoding is dropped. Every well-formed S-word and V-word, with every operand at every
value, decodes from its bytes to itself. -/
def Obligations.EncodedWordDecodesToItself : Prop :=
  ∀ (i : Instr) (bs : List (BitVec 8)), i.wf = true → encode i = some bs → decode bs = .ok i

/-- R151, R152, R161, R177: the decoder accepts nothing but the encoding of a well-formed word. -/
def Obligations.DecodedBytesAreAnEncoding : Prop :=
  ∀ (i : Instr) (bs : List (BitVec 8)), bs.length = 4 ∨ bs.length = 8 → decode bs = .ok i →
    i.wf = true ∧ encode i = some bs

/-- Words that spec/06, spec/07 and spec/08 write out decode to the instruction they stand for (Tables 6-6, 6-17, 7-3,
7-5 and 7-6). -/
def Obligations.WordsOfTheSpecDecode : Prop :=
  decodeS 0x08A63801 = .ok (.mulh 5 6 7) ∧ decodeS 0x04A60010 = .ok (.clz 5 6) ∧
  decodeS 0x20A6FFFF = .ok (.slti 5 6 0xFFFF) ∧ decodeS 0x1CA6007F = .ok (.shri 5 6 63) ∧
  decodeS 0x9C270008 = .ok (.jalr 1 7 8) ∧ decodeS 0x00000004 = .ok .eret ∧
  decodeS 0xB400000E = .ok (.vdrain 0b1110) ∧ decodeS 0xB8070004 = .ok (.qwait 0b0100 7) ∧
  decodeS 0x84C0FFFA = .ok (.bne 6 0 0xFFFA) ∧ decodeS 0x04E6D00C = .ok (.minn 7 6 26) ∧
  decodeV 0x1204E10012030000 =
    .ok (.vfmul { c := false, vd := 7, va := 1, src := .vo 3, vc := 0, m := false, et := .f32, rnd := .rne }) ∧
  decodeS 0 = .error .illegalSWord ∧ decodeV 0 = .error .illegalVWord

/-! ## Steps -/

/-- R176, R370: where the Last's turn is planned, nothing holds the hart, and the four bytes fetched at the program counter
decode to an instruction, the step is `exec` of that instruction in the state that the fetch leaves. Around it stand the
single-step stop of R407 (`stepped`) and the end of the turn (`tidy`); before it, the core's bank counts the turn's events
(`Counted`, Table 13-5: log 8), which changes nothing where the bank counts nothing. A pattern that is no S-word is cause 0x01, and
a fetch that fails is the fetch fault.
R25, R26, R161: where a queue's turn is planned and its head word may run, the step is `exec` of the instruction that
the word decodes to, with the word in the sequencer.
R25, R26, R375: of a convoy of two words that decode, the step is `exec` of the first and then of the second, each over what
the one before it leaves, and both retire; where they break a limit of Table 1-5, neither takes effect and the step is the
word fault 0x04 on the first, which names the second. -/
def Obligations.StepRunsTheDecodedInstruction : Prop :=
  (∀ (s : State) (ts : List Turn), s.plan = .last :: ts → s.runs = true → s.core.wfe = false →
     ∃ (c : State) (k : Nat), State.Counted { s with plan := ts } c k ∧
       let ends (u : State) : Result := .next (u.past k).tidy
       (∀ f, fetchBytes c false s.core.pc 4 = .error f →
         ∀ u, exec .sWordFetchFault c = .next u → step s = ends u) ∧
       ∀ w t, fetchBytes c false s.core.pc 4 = .ok (w, t) →
         (∀ i u, decodeS (BitVec.ofNat 32 w) = .ok i → exec i t = .next u →
           (∃ v, c.stepped (.next u) = .next v ∧ step s = ends v) ∧ (wfield s.core.t.tdbg 1 0 ≠ 1 → step s = ends u)) ∧
         ∀ x, decodeS (BitVec.ofNat 32 w) = .error x →
           ∃ v, c.stepped (.next (genFault t 0x01 ((BitVec.ofNat 32 w).setWidth 64) 0)) = .next v ∧ step s = ends v) ∧
  (∀ (s : State) (ts : List Turn) (e : QEntry) (i : Instr), s.runs = true → decodeV e.word = .ok i →
    let s0 := { s with plan := ts }
    (s.plan = .vec :: ts ∧ s.core.headConvoy = [e] ∧ s0.vecReady = true ∨
      s.plan = .mat :: ts ∧ s.core.matReady = some e ∨ s.plan = .copy :: ts ∧ s.core.copyReady = some e ∨
      s.plan = .coll :: ts ∧ s.core.collReady = some e) →
    ∃ (c : State) (k : Nat), State.Counted s0 c k ∧
      ∀ u, exec i { c with core := { c.core with run := e, mode := .whole, hi := .replicate 4 512, why := none } } = .next u →
        u.core.why = none → step s = .next (u.past k).tidy) ∧
  ∀ (s : State) (ts : List Turn) (e f : QEntry) (i j : Instr),
    let s0 := { s with plan := ts }
    s.plan = .vec :: ts → s.runs = true → s.core.why = none → s0.vecReady = true → s.core.headConvoy = [e, f] →
    decodeV e.word = .ok i → decodeV f.word = .ok j →
    let member (t : State) (x : QEntry) (hi : Vector Nat 4) : State :=
      { t with core := { t.core with run := x, mode := .part, hi := hi, why := none } }
    let conflict := classOf i = .solitary ∨ classOf j = .solitary ∨ (classOf i = classOf j ∧ classOf i ≠ .arith) ∨
      (classOf j = .cross ∧ ∃ w ∈ writesOf i, ∃ r ∈ crossReads (f.vtype.getLsbD 15) j, w.meets r = true)
    ∃ (c : State) (k : Nat), State.Counted s0 c k ∧
      (conflict → step s = .next ((takeTrap c ⟨.word e.rank, 0x04, 0x20101, 0⟩).past k).tidy) ∧
      ∀ u v, ¬ conflict → exec i (member c (c.core.nowEntry e) (.replicate 4 512)) = .next u → u.core.why = none →
        exec j (member u (u.core.nowEntry f) u.core.hi) = .next v → v.core.why = none →
        step s = .next ((v.retireConvoy [⟨e, i⟩, ⟨f, j⟩]).clean.past k).tidy

/-- R176, R366: every instruction has a meaning in every state, and so does every step: none is refused, and none stops the
machine. Whatever its operands, the mode and the state of the hart, an S-word that moves the Last only to the next word waits, or
completes with the Last behind it, or is reported: its trap is taken in the hart's own handler or held for the kernel, or, of a
`VFETCH`, its block goes on at the word that has no room or is refused. -/
def Obligations.EveryInstructionHasAMeaning : Prop :=
  (∀ (s : State), (∃ t, step s = .next t) ∧ ∀ i, ∃ t, exec i s = .next t) ∧
  ∀ (s t : State) (i : Instr), movesOn i = true → s.core.stopped = none → s.core.trapWait = none → exec i s = .next t →
    t.core.why ≠ none ∨ t.core.pc = s.core.pc + 4 ∨ t.core.pc = s.core.t.tvec &&& 0x7FFFFFFFFFFFFC ∨
      t.core.stopped ≠ none ∨ t.core.trapWait ≠ none

/-! ## S-words: arithmetic and control (spec/07) -/

/-- R178 to R180, Tables 7-1 and 7-2: an arithmetic word writes the table's value to `s[d]`, traps on no operand value,
and changes nothing else but the program counter; a write of `s0` is discarded.
R179: what division gives at a zero divisor and at signed overflow; for every other pair the dividend is divisor ×
quotient + remainder. -/
def Obligations.ArithmeticWordsWriteTheirValue : Prop :=
  (∀ (i : Instr) (s : State) (d : BitVec 5) (v : Word), scalarValue s i = some (d, v) → exec i s = .next (s.wrote d v)) ∧
  ∀ (s : State) (d a b : BitVec 5) (x y : Word), s.operand a = x → s.operand b = y →
    (y = 0 → exec (.div d a b) s = .next (s.wrote d 0xFFFFFFFFFFFFFFFF) ∧
      exec (.divn d a b) s = .next (s.wrote d 0xFFFFFFFFFFFFFFFF) ∧
      exec (.rem d a b) s = .next (s.wrote d x) ∧ exec (.remn d a b) s = .next (s.wrote d x)) ∧
    (x = 0x8000000000000000 → y = 0xFFFFFFFFFFFFFFFF →
      exec (.div d a b) s = .next (s.wrote d 0x8000000000000000) ∧ exec (.rem d a b) s = .next (s.wrote d 0)) ∧
    (y ≠ 0 → ∃ q r q' r', exec (.div d a b) s = .next (s.wrote d q) ∧ exec (.rem d a b) s = .next (s.wrote d r) ∧
      exec (.divn d a b) s = .next (s.wrote d q') ∧ exec (.remn d a b) s = .next (s.wrote d r') ∧
      x = y * q + r ∧ x.toNat = y.toNat * q'.toNat + r'.toNat ∧ r'.toNat < y.toNat ∧
      (¬(x = 0x8000000000000000 ∧ y = 0xFFFFFFFFFFFFFFFF) →
        x.toInt = y.toInt * q.toInt + r.toInt ∧ r.toInt.natAbs < y.toInt.natAbs ∧ 0 ≤ x.toInt * r.toInt))

/-- R181: `INS`, `EXT` and `EXTS` move a field of n = imm[5:0] + 1 bits at p = imm[11:6]; p + n above 64 is an operand
limit: cause 0x05 with code 15, and `s[d]` is not written. -/
def Obligations.FieldWordsMoveBits : Prop :=
  ∀ (i : Instr) (s : State) (d : BitVec 5) (v : Word) (top : Nat), fieldValue s i = some (d, v, top) →
    (top ≤ 64 → exec i s = .next (s.wrote d v)) ∧
    (64 < top → exec i s = .next (genFault s 0x05 (BitVec.ofNat 64 (15 + top * 2 ^ 32)) 0))

/-- R187, R188: branches, `JAL` and `JALR`: where the Last goes on, and the link; a `JALR` target that is no multiple of
4 is cause 0x06 with `tval` the target, and `s[d]` is not written. -/
def Obligations.ControlTransfers : Prop :=
  (∀ (i : Instr) (s : State) (c : Bool) (off : BitVec 16), branchOf s i = some (c, off) →
    exec i s = .next (s.movedTo (if c then s.core.pc + off.signExtend 64 * 4 else s.core.pc + 4))) ∧
  (∀ (s : State) (d : BitVec 5) (off : BitVec 21),
    exec (.jal d off) s = .next ((s.wrote d (s.core.pc + 4)).movedTo (s.core.pc + off.signExtend 64 * 4))) ∧
  ∀ (s : State) (d a : BitVec 5) (imm : BitVec 16),
    let t := s.operand a + imm.signExtend 64
    (t.extractLsb' 0 2 = 0 → exec (.jalr d a imm) s = .next ((s.wrote d (s.core.pc + 4)).movedTo t)) ∧
    (t.extractLsb' 0 2 ≠ 0 → exec (.jalr d a imm) s = .next (genFault s 0x06 t t))

/-! ## S-words: memory (spec/04, spec/07 R182 to R186) -/

/-- R94, R96: an access that every check lets through stands at the leaf's frame plus the page offset (device memory at a
leaf of 64 KiB), and all it changes is the leaf: A is set, and D by a write.
R94, R95, R90: an access fails with WHY 1 when its address has bits above 54, or when a level of the walk holds no
valid entry or a malformed one, and with WHY 2 when the leaf does not permit it. No word past its fault point has found
the page before (R390). -/
def Obligations.TranslationFindsThePage : Prop :=
  (∀ (s : State) (g : Gang) (va : Word) (n : Nat) (k : Acc) (e1 e2 e3 : Nat),
     va.toNat < 2 ^ 55 → (k = .fetch ∨ s.core.watched va.toNat n k = false) → s.gang = some g →
     s.pinned va.toNat k = none →
     e1 = s.dev.dram.num 8 (g.root + 8 * field va.toNat 54 42) → eV e1 = true → malformed e1 1 = false →
     e2 = s.dev.dram.num 8 (eFrame e1 + 8 * field va.toNat 41 29) → eV e2 = true → eL e2 = false →
     malformed e2 2 = false →
     e3 = s.dev.dram.num 8 (eFrame e2 + 8 * field va.toNat 28 16) → eV e3 = true → malformed e3 3 = false →
     eH e3 = false → eAttr e3 < 2 → permits e3 k s.core.kmode = true →
     s.dev.migrating.contains (g.ctx, va.toNat / 65536) = false →
     ownerCheck (s.dev.frameEntry (field e3 47 16)) g.ctx k.writes = none →
     ∃ m, probe s va n k false = .ok (.dram (field e3 47 16 * 65536 + va.toNat % 65536), eAttr e3, s.withDram m) ∧
       (s.dev.dram.wf = true → StoredAs s.dev.dram m (eFrame e2 + 8 * field va.toNat 28 16) 8
         (e3 ||| (if k.writes then 0x300 else 0x100)))) ∧
  ∀ (s : State) (va : Word) (n : Nat) (k : Acc) (spec : Bool),
    (2 ^ 55 ≤ va.toNat → probe s va n k spec = .error .noAddr) ∧
    (va.toNat < 2 ^ 55 → (k = .fetch ∨ s.core.watched va.toNat n k = false) → s.pinned va.toNat k = none →
      ∀ g, s.gang = some g →
      (walk s.dev.dram g.root va.toNat = none → probe s va n k spec = .error (.page false)) ∧
      ∀ l, walk s.dev.dram g.root va.toNat = some l →
        (k.reads = true ∧ l.entry.testBit 4 = false ∨ k.writes = true ∧ l.entry.testBit 5 = false ∨
          k = .fetch ∧ l.entry.testBit 6 = false ∨ s.core.kmode = false ∧ l.entry.testBit 7 = false) →
        probe s va n k spec = .error .perm)

/-- R182, R183, Table 7-4: a scalar load of an aligned address that translates reads n bytes, low byte first, extends
them, and writes `s[d]`; beside that only the leaf's A bit changes. A page with ATTR = 2 is read once the commit gate is
open (R391), and no refused page request stands for the access (R413). -/
def Obligations.LoadsReadMemory : Prop :=
  ∀ (i : Instr) (s s' : State) (d a : BitVec 5) (imm : BitVec 16) (n : Nat) (sx : Bool) (p : Place) (attr v : Nat),
    loadOf i = some (d, a, imm, n, sx) →
    let va := s.operand a + imm.signExtend 64
    va.toNat % n = 0 → s.refusedPage .last va = false → probe s va n .read false = .ok (p, attr, s') →
    s.poisoned p = false → (attr = 2 → s.core.gate = true) → s'.readPlace p n = v →
    exec i s = .next (s'.wrote d
      (if sx then (BitVec.ofNat (8 * n) v).signExtend 64 else (BitVec.ofNat (8 * n) v).setWidth 64)) ∧
    (∀ x, p = .dram x → v = ofBytes (s'.dev.dram.read n x)) ∧ (∀ x, p = .host x → v = ofBytes (s'.dev.host.read n x))

/-- R182, Table 7-4, R391: a scalar store of an aligned address that translates writes the low n bytes of `s[b]`, low byte
first, at the place of `s[a]` + sext(imm16) once the commit gate is open, and no other byte of memory, register or
status changes. A device register takes them as its own rules say. -/
def Obligations.StoresWriteMemory : Prop :=
  ∀ (i : Instr) (s s' : State) (b a : BitVec 5) (off : BitVec 16) (n : Nat) (p : Place) (attr : Nat),
    storeOf i = some (b, a, off, n) → s.dev.dram.wf = true → s.dev.host.wf = true →
    let va := s.operand a + off.signExtend 64
    va.toNat % n = 0 → s.refusedPage .last va = false → probe s va n .write false = .ok (p, attr, s') →
    s.core.gate = true →
    (∀ x, p = .dram x → ∃ m, exec i s = .next (((s'.noted p n).withDram m).movedTo (s.core.pc + 4)) ∧
      StoredAs s'.dev.dram m x n (s.operand b).toNat) ∧
    (∀ x, p = .host x → ∃ m, exec i s = .next (((s'.noted p n).withHost m).movedTo (s.core.pc + 4)) ∧
      StoredAs s'.dev.host m x n (s.operand b).toNat) ∧
    (∀ x, p = .reg x →
      exec i s = .next ((s'.setBytes (.reg x) (bytesOf n (s.operand b).toNat)).movedTo (s.core.pc + 4)))

/-- R182, R186, R90, R409: where loads, stores and atomics trap: a misaligned address is cause 0x06 with `tval` the address,
before any translation; a page that the leaf does not permit is cause 0x09, and for an atomic so is a leaf with ATTR = 2; an
address with bits above 54 is cause 0x08. No refused page request stands for the access (R413). R376: an open convoy at an atomic
with release order is a conflict with KIND 5; that the misaligned address comes before it is the model's reading (log 65). -/
def Obligations.ScalarAccessTraps : Prop :=
  ∀ (i : Instr) (s : State),
    (∀ d a imm n sx, loadOf i = some (d, a, imm, n, sx) →
      let va := s.operand a + imm.signExtend 64
      (va.toNat % n ≠ 0 → exec i s = .next (genFault s 0x06 va va)) ∧
      (va.toNat % n = 0 → s.refusedPage .last va = false → probe s va n .read false = .error .perm →
        exec i s = .next (genFault s 0x09 va va)) ∧
      (va.toNat % n = 0 → s.refusedPage .last va = false → probe s va n .read false = .error .noAddr →
        exec i s = .next (genFault s 0x08 va va))) ∧
    (∀ b a off n, storeOf i = some (b, a, off, n) →
      let va := s.operand a + off.signExtend 64
      (va.toNat % n ≠ 0 → exec i s = .next (genFault s 0x06 va va)) ∧
      (va.toNat % n = 0 → s.refusedPage .last va = false → probe s va n .write false = .error .perm →
        exec i s = .next (genFault s 0x09 va va)) ∧
      (va.toNat % n = 0 → s.refusedPage .last va = false → probe s va n .write false = .error .noAddr →
        exec i s = .next (genFault s 0x08 va va))) ∧
    ∀ d a n o sc, amoOf i = some (d, a, n, o, sc) →
      let va := s.operand a
      (va.toNat % n ≠ 0 → exec i s = .next (genFault s 0x06 va va)) ∧
      (va.toNat % n = 0 → o.getLsbD 1 = true → s.core.openConvoy ≠ [] → exec i s =
        .next (genFault s 0x04 (BitVec.ofNat 64 (s.core.openConvoy.length * 65536 + 5 * 256)) 0)) ∧
      (va.toNat % n = 0 → (o.getLsbD 1 = true → s.core.openConvoy = [] ∧ s.core.released sc = true) →
        s.refusedPage .last va = false →
        (probe s va n .atomic false = .error .noAddr → exec i s = .next (genFault s 0x08 va va)) ∧
        (probe s va n .atomic false = .error .perm → exec i s = .next (genFault (s.touched va n .atomic) 0x09 va va))) ∧
      ∀ g l, s.gang = some g → va.toNat < 2 ^ 55 → s.core.watched va.toNat n .atomic = false →
        s.pinned va.toNat .atomic = none → s.leafOf g va.toNat .atomic = .ok l → eH l.entry = false → eAttr l.entry = 2 →
        probe s va n .atomic false = .error .perm ∧ s.touched va n .atomic = s.mark l .atomic

/-- R184: `LDW` reads eight bytes of a bound window; an offset or base that is no multiple of 8 is cause 0x06, an
unbound window 0x0D, an offset beyond the bound 0x0C. No refused page request stands for the access (R413). That a misaligned
offset comes first in an unbound window too, with the address formed from base 0, is the model's reading (log 56). -/
def Obligations.WindowLoads : Prop :=
  ∀ (s s' : State) (d : BitVec 5) (w : BitVec 3) (off : BitVec 16) (g : Gang) (base : Word) (bound : Nat) (p : Place)
    (attr v : Nat),
    s.gang = some g → g.desc.wins[w.toNat] = (base, BitVec.ofNat 32 bound) → bound < 2 ^ 32 →
    let va := base + off.setWidth 64
    (bound ≠ 0 → base.toNat % 8 = 0 → off.toNat % 8 = 0 → off.toNat + 8 ≤ bound →
      s.refusedPage .last va = false → probe s va 8 .read false = .ok (p, attr, s') → s.poisoned p = false →
      (attr = 2 → s.core.gate = true) → s'.readPlace p 8 = v → exec (.ldw d w off) s = .next (s'.wrote d (BitVec.ofNat 64 v))) ∧
    (off.toNat % 8 ≠ 0 → bound ≠ 0 → exec (.ldw d w off) s = .next (genFault s 0x06 va va)) ∧
    (bound ≠ 0 → base.toNat % 8 ≠ 0 → exec (.ldw d w off) s = .next (genFault s 0x06 va va)) ∧
    (bound = 0 → off.toNat % 8 ≠ 0 →
      exec (.ldw d w off) s = .next (genFault s 0x06 (off.setWidth 64) (off.setWidth 64))) ∧
    (bound = 0 → off.toNat % 8 = 0 →
      exec (.ldw d w off) s = .next (genFault s 0x0D (BitVec.ofNat 64 (w.toNat + off.toNat * 65536)) 0)) ∧
    (bound ≠ 0 → base.toNat % 8 = 0 → off.toNat % 8 = 0 → bound < off.toNat + 8 →
      exec (.ldw d w off) s = .next (genFault s 0x0C (BitVec.ofNat 64 (w.toNat + off.toNat * 65536)) 0))

/-- R185, R186: an atomic reads n bytes, writes the operation's result at the same place (`AMO_CAS` nothing when the
comparand differs), and gives the old value, zero-extended, to `s[d]`. A release waits for the words it orders (R134), an
acquire discards fetched copies (R133); the scope checker sees it (R438). No refused page request stands for the access
(R413). -/
def Obligations.AtomicsReadAndWrite : Prop :=
  ∀ (i : Instr) (s s' : State) (d a : BitVec 5) (n : Nat) (ord : BitVec 2) (sc : Scope) (p : Place) (attr old : Nat),
    amoOf i = some (d, a, n, ord, sc) → (s.operand a).toNat % n = 0 →
    (ord.getLsbD 1 = true → s.core.openConvoy = [] ∧ s.core.released sc = true) → s.core.gate = true →
    s.refusedPage .last (s.operand a) = false → probe s (s.operand a) n .atomic false = .ok (p, attr, s') →
    s.poisoned p = false → s'.readPlace p n = old →
    let seen := s'.checkAtomic p sc s.core.pc nullProv
    let ends (t : State) := (if ord.getLsbD 0 then t.discardFetched sc else t).wrote d (BitVec.ofNat 64 old)
    (amoNew s old i = none → exec i s = .next (ends seen)) ∧
    ∀ v, amoNew s old i = some v →
      (∀ x, p = .dram x → ∃ m, exec i s = .next (ends ((seen.noted p n).withDram m)) ∧
        (seen.dev.dram.wf = true → StoredAs seen.dev.dram m x n v)) ∧
      (∀ x, p = .host x → ∃ m, exec i s = .next (ends ((seen.noted p n).withHost m)) ∧
        (seen.dev.host.wf = true → StoredAs seen.dev.host m x n v))

/-! ## S-words: waits, lengths, queues and state words (spec/01, spec/02, spec/07) -/

/-- R189, R190, R135, R206, R194: `NOP`, `WFE`, `RSEED`, `RSEEK`, `SPUT`, and the fences of the Last: which waits for
what (a release for earlier accesses, a region's held stores among them, R134, R146; an acquire for earlier loads), which
discards fetched copies (R198), and what an open convoy does (R163). A seek beyond 2^40 − 1 is cause 0x12. -/
def Obligations.PlainSystemWords : Prop :=
  ∀ (s : State),
    exec .nop s = .next (s.movedTo (s.core.pc + 4)) ∧
    exec .wfe s = .next ({ s with core := { s.core with wfe := true } }.movedTo (s.core.pc + 4)) ∧
    (∀ a, exec (.rseed a) s =
      .next ({ s with core := { s.core with rkey := s.operand a, rpos := 0, spent := false } }.movedTo (s.core.pc + 4))) ∧
    (∀ a, (s.operand a).toNat < 2 ^ 40 → exec (.rseek a) s =
      .next ({ s with core := { s.core with rpos := s.operand a <<< 24, spent := false } }.movedTo (s.core.pc + 4))) ∧
    (∀ a, 2 ^ 40 ≤ (s.operand a).toNat → exec (.rseek a) s = .next (genFault s 0x12 (s.operand a) 0)) ∧
    (∀ (n : BitVec 4) a, exec (.sput n a) s =
      .next ({ s with core := { s.core with o := s.core.o.set n.toNat (s.operand a) } }.movedTo (s.core.pc + 4))) ∧
    ∀ (sc : Scope) (i : Instr), (i = .fenceAcq sc ∨ i = .fenceRel sc ∨ i = .fenceFull sc) →
      (s.core.openConvoy ≠ [] → exec i s =
        .next (genFault s 0x04 (BitVec.ofNat 64 (s.core.openConvoy.length * 65536 + 5 * 256)) 0)) ∧
      let past := (sc ≠ .hart → s.core.cpy = [] ∧ s.core.col = []) ∧
        if i = .fenceAcq sc then ∀ e ∈ s.core.vec, readsMemory e.word = false
        else s.core.vec = [] ∧ ∀ r, s.core.region = some r → r.held = []
      (s.core.openConvoy = [] → past →
        exec i s = .next ((if i ≠ .fenceRel sc ∧ sc ≠ .hart ∧ sc ≠ .core then
          { s with core := { s.core with icache := [], bcache := [] } } else s).movedTo (s.core.pc + 4))) ∧
      (s.core.openConvoy = [] → ¬ past → exec i s = .next s.stall)

/-- R12, R193, R36: `SETVL` grants `vl` := min(a, row maximum) and `rc` := min(max(b, 1), 16), writes the granted `vl` to
`s[d]`, and changes nothing else; with a pre-emption request pending it traps with cause 0x17 before it grants. That `tval` is
then 0 is the model's choice (log 42). -/
def Obligations.SetvlGrants : Prop :=
  ∀ (s : State) (d a b : BitVec 5),
    let vl := Min.min (s.operand a).toNat (rowLimit s.core.vtype)
    (s.core.preempt = false → exec (.setvl d a b) s =
      .next ({ s with core := { s.core with
        vl := BitVec.ofNat 15 vl
        rc := BitVec.ofNat 5 (Min.min (Max.max (s.operand b).toNat 1) 16)
        epoch := s.core.epoch + 1 } }.wrote d (BitVec.ofNat 64 vl))) ∧
    (s.core.preempt = true → exec (.setvl d a b) s = .next (genFault s 0x17 0 0))

/-- R195, R196, R14, R17, R19: `EMIT` and `EMITQ` place a legal word at the end of its queue, with the provenance and the
values that it carries; `EMIT` waits for room, `EMITQ` reports instead. An illegal word is cause 0x02, and nothing is
placed. R316, R417: a stream-form `DRAW` spends `rc` draw indices and never another position: past the last index of its
position the stream is spent, and what `rpos` reads then is the model's choice (log 62). -/
def Obligations.EmitPlacesAWord : Prop :=
  ∀ (s : State) (d a : BitVec 5),
    let w := s.operand a
    s.core.parkedInK = false →
    (∀ i, decodeV w = .ok i → s.core.drawExhausts w = false → s.core.room (queOf w) = true →
      ∀ j, (j = .emit a ∨ j = .emitq d a) →
        ∃ t e, exec j s = .next t ∧ Carries s.core w (emittedFrom s.core.pc s.core.eseq) e ∧
          t.core.queue (queOf w) = s.core.queue (queOf w) ++ [e] ∧
          (∀ q, q ≠ queOf w → t.core.queue q = s.core.queue q) ∧ e.rank = s.core.rank ∧
          t.core.rank = s.core.rank + 1 ∧ t.core.eseq = s.core.eseq + 1 ∧ t.core.pc = s.core.pc + 4 ∧
          t.core.s = (if j = .emit a then s else s.wrote d 1).core.s ∧
          t.core.rpos = (if isStreamDraw w then
            s.core.rpos.extractLsb' 24 40 ++ (s.core.rpos.extractLsb' 0 24 + s.core.rc.setWidth 24) else s.core.rpos) ∧
          t.core.spent = (if isStreamDraw w then
            decide (2 ^ 24 ≤ (s.core.rpos.extractLsb' 0 24).toNat + s.core.rc.toNat) else s.core.spent) ∧
          t.core.v = s.core.v ∧ t.core.hstat = s.core.hstat ∧ t.core.t = s.core.t ∧ t.dev = s.dev ∧ t.rest = s.rest) ∧
    (∀ i, decodeV w = .ok i → s.core.drawExhausts w = false → s.core.room (queOf w) = false →
      exec (.emit a) s = .next s.stall ∧ exec (.emitq d a) s = .next (s.wrote d 0)) ∧
    (∀ x, decodeV w = .error x →
      exec (.emit a) s = .next (genFault s 0x02 w 0) ∧ exec (.emitq d a) s = .next (genFault s 0x02 w 0)) ∧
    (∀ i, decodeV w = .ok i → s.core.drawExhausts w = true →
      exec (.emit a) s = .next (genFault s 0x12 s.core.drawPassed 0) ∧
      exec (.emitq d a) s = .next (genFault s 0x12 s.core.drawPassed 0))

/-- R16, R197, R17: `VFETCH` places a block of n words, each with the block's address and its offset, and goes on behind
`VSTOP`, when every word has room. A base that is no multiple of 8 is cause 0x06. The words stand in the block cache
here, and no stream-form `DRAW` is among them. That `resoff` is then wholly 0 is the model's reading (log 28). -/
def Obligations.VfetchPlacesABlock : Prop :=
  ∀ (s : State) (a : BitVec 5) (off : BitVec 16) (n : Nat) (w : Nat → BitVec 64),
    let base := s.operand a + off.signExtend 64 * 8
    s.core.parkedInK = false →
    (base.toNat % 8 ≠ 0 → exec (.vfetch a off) s = .next (genFault s 0x06 base base)) ∧
    (base.toNat % 8 = 0 → s.core.midFetch = none → n ≤ 511 →
      (∀ k, k ≤ n → fetchBytes s true (base + BitVec.ofNat 64 (8 * k)) 8 = .ok ((w k).toNat, s)) →
      (∀ k, k < n → w k ≠ vstop ∧ opOf (w k) ≠ 0x7F ∧ isStreamDraw (w k) = false) → w n = vstop →
      s.core.history + n ≤ 64 → (∀ q, (s.core.queue q).length + n ≤ q.cap) →
      ∃ (t : State) (es : List QEntry), exec (.vfetch a off) s = .next t ∧ es.length = n ∧
        (∀ k e, es[k]? = some e → Carries s.core (w k) (fetchedFrom base k) e) ∧
        (∀ q, t.core.queue q = s.core.queue q ++ es.filter fun e => queOf e.word == q) ∧
        t.core.pc = s.core.pc + 4 ∧ t.core.resoff = 0 ∧ t.core.eseq = s.core.eseq ∧ t.core.s = s.core.s ∧
        t.core.v = s.core.v ∧ t.dev = s.dev ∧ t.rest = s.rest)

/-- R199, R200: `VDRAIN` ends once the named queues are empty, `QWAIT` once each of them and the history buffer have
`s[a]` free entries; until then they stall. A count above the smallest capacity named is an operand limit (0x05), an open
convoy before a `VDRAIN` of the vector queue a conflict (0x04). -/
def Obligations.DrainAndRoomWaits : Prop :=
  ∀ (s : State) (mask : BitVec 4) (a : BitVec 5),
    let n := (s.operand a).toNat
    let named (q : Que) : Prop := mask.getLsbD (q.code - 1) = true
    ((mask.getLsbD 0 = true → s.core.openConvoy = []) → (∀ q, named q → s.core.queue q = []) →
      exec (.vdrain mask) s = .next (s.movedTo (s.core.pc + 4))) ∧
    ((mask.getLsbD 0 = true → s.core.openConvoy = []) → (∃ q, named q ∧ s.core.queue q ≠ []) →
      exec (.vdrain mask) s = .next s.stall) ∧
    (mask.getLsbD 0 = true → s.core.openConvoy ≠ [] → exec (.vdrain mask) s =
      .next (genFault s 0x04 (BitVec.ofNat 64 (s.core.openConvoy.length * 65536 + 4 * 256)) 0)) ∧
    ((∀ q, named q → n ≤ q.cap) → (n = 0 ∨ (∀ q, named q → (s.core.queue q).length + n ≤ q.cap) ∧
      s.core.history + n ≤ 64) → exec (.qwait mask a) s = .next (s.movedTo (s.core.pc + 4))) ∧
    ((∀ q, named q → n ≤ q.cap) → n ≠ 0 → ((∃ q, named q ∧ q.cap < (s.core.queue q).length + n) ∨
      64 < s.core.history + n) → exec (.qwait mask a) s = .next s.stall) ∧
    ((∃ q, named q ∧ q.cap < n) → exec (.qwait mask a) s =
      .next (genFault s 0x05 (BitVec.ofNat 64 (15 + n % 2 ^ 32 * 2 ^ 32)) 0))

/-- R43 to R45, R201, R202, Tables 2-3 to 2-18: of a listed number `MFS` gives the word and `MTS` writes what its access
rules let it, in the mode that may name it and once older words have retired where R44 says so; until then both stall, and
an open convoy is a conflict for `MFS` (R376). U mode is refused with cause 0x03 the numbers that only K mode may name, and
a number that the table does not list is operand limit code 15. Two clauses are the model's own: a write to `cmv` clears HOVF where
a 1 is written, by Table 2-8 and against the RO of R202 and Table 2-3 (log 13), and `tprov` stores bits [62:61] of a block form too,
which R51 gives as zero (log 68). -/
def Obligations.StateWordsAreReadAndWritten : Prop :=
  ∀ (s : State) (n : BitVec 12) (d a : BitVec 5),
    (listedNumber n.toNat → (kernelNumber n.toNat → s.core.kmode = true) →
      (waitingNumber n.toNat → s.core.drained = true) →
      ∃ x, stateValue s.core n.toNat = some x ∧ exec (.mfs d n) s = .next (s.wrote d x)) ∧
    (listedNumber n.toNat → (¬ userNumber n.toNat → s.core.kmode = true) →
      (waitingNumber n.toNat → s.core.drained = true) →
      exec (.mts n a) s = .next ({ s with core := mtsLeaves s.core n.toNat (s.operand a) }.movedTo (s.core.pc + 4))) ∧
    (kernelNumber n.toNat → s.core.kmode = false →
      ∃ r, encodeS (.mfs d n) = some r ∧ exec (.mfs d n) s = .next (genFault s 0x03 (r.pack.setWidth 64) 0)) ∧
    (listedNumber n.toNat → ¬ userNumber n.toNat → s.core.kmode = false →
      ∃ r, encodeS (.mts n a) = some r ∧ exec (.mts n a) s = .next (genFault s 0x03 (r.pack.setWidth 64) 0)) ∧
    (waitingNumber n.toNat → s.core.openConvoy ≠ [] →
      exec (.mfs d n) s = .next (genFault s 0x04 (BitVec.ofNat 64 (s.core.openConvoy.length * 65536 + 6 * 256)) 0)) ∧
    (waitingNumber n.toNat → s.core.openConvoy = [] → s.core.drained = false → exec (.mfs d n) s = .next s.stall) ∧
    (waitingNumber n.toNat → (¬ userNumber n.toNat → s.core.kmode = true) → s.core.drained = false →
      exec (.mts n a) s = .next s.stall) ∧
    (¬ listedNumber n.toNat →
      exec (.mfs d n) s = .next (genFault s 0x05 (BitVec.ofNat 64 (15 + n.toNat * 2 ^ 32)) 0) ∧
      exec (.mts n a) s = .next (genFault s 0x05 (BitVec.ofNat 64 (15 + n.toNat * 2 ^ 32)) 0))

/-- R142, R203, R204: `WMPUB` and the arrivals of the barrier are held back until the words placed before them have
finished, and `WMWAIT` and `BAR_WAIT` stall until the watermark or the phase is there, then acquire: `WMWAIT` at its own
scope, and at that of the `WMPUB` that raised the watermark to the value (R335). A linked watermark that the word may not
name is cause 0x0E. `bar.aw` arrives and then waits; that one which has arrived only waits when it is executed again is the model's
choice (log 74). -/
def Obligations.WatermarkAndBarrierWords : Prop :=
  ∀ (s : State) (g : Gang) (w : BitVec 3) (a : BitVec 5) (sc : Scope), s.gang = some g →
    let wide (sc : Scope) : Bool := sc != .hart && sc != .core
    let dropping (b : Bool) (t : State) := (if b then
      { t with core := { t.core with icache := [], bcache := [] } } else t).movedTo (s.core.pc + 4)
    let v := (s.operand a).toNat
    let raiser : Option Raise :=
      if v = 0 then none else (g.raised[w.toNat]).reverse.find? fun r => decide (v ≤ r.value.toNat)
    let arrivedIn (t : State) := { t with core := { t.core with
      barLast := some g.phase, pubs := t.core.pubs ++ [Pub.arrive g.phase t.core.rank] } }
    let waits := ∃ p, s.core.barLast = some p ∧ g.phase ≤ p
    (g.linked w.toNat = false → s.core.gate = true → exec (.wmpub w a sc) s =
      .next ({ s with core := { s.core with pubs := s.core.pubs ++ [Pub.raise w (s.operand a) sc s.core.rank] } }.movedTo
        (s.core.pc + 4))) ∧
    (g.linked w.toNat = true → exec (.wmpub w a sc) s = .next (genFault s 0x0E (w.setWidth 64) 0)) ∧
    (g.linked w.toNat = false → s.checksScope 1 = false →
      exec (.wmwait w a sc) s =
        if v ≤ (g.w[w.toNat]).toNat then .next (dropping (wide sc || raiser.any fun r => wide r.scope) s)
        else .next s.stall) ∧
    (g.linked w.toNat = true → g.desc.pv = false → exec (.wmwait w a sc) s = .next (genFault s 0x0E (w.setWidth 64) 0)) ∧
    (¬ waits → s.core.gate = true → exec .barArrive s = .next ((arrivedIn s).movedTo (s.core.pc + 4))) ∧
    (waits → exec .barArrive s = .next s.stall) ∧
    (¬ waits → s.core.gate = true → exec .barWait s = .next (dropping true s)) ∧
    (waits ∨ s.core.gate = false → exec .barWait s = .next s.stall) ∧
    (s.core.pc ∈ s.core.barAw → ¬ waits → exec .barAw s = .next (dropping true { s with core := { s.core with
      barAw := s.core.barAw.filter fun a => a != s.core.pc } })) ∧
    (s.core.pc ∉ s.core.barAw → ¬ waits → s.core.gate = true → exec .barAw s = .next { arrivedIn s with core :=
      { (arrivedIn s).core with barAw := s.core.pc :: s.core.barAw, why := some (.wait none) } }) ∧
    (waits ∨ s.core.pc ∉ s.core.barAw ∧ s.core.gate = false → exec .barAw s = .next s.stall)

/-- R205: `LAUNCH` waits for the accesses before it as a release at device scope does, gives −1 when ring 1 is full, and otherwise
writes its entry and waits; once admission has decided the entry it gives the new `gid`, or −2 where the descriptor was refused. The
entry belongs to the `LAUNCH` at its address (log 74). -/
def Obligations.LaunchReportsAdmission : Prop :=
  ∀ (s : State) (d a : BitVec 5) (c : Ctx), s.dev.ctx s.ctxId = some c →
    let f := s.dev.func c.vf
    let fresh := ∀ x ∈ s.core.launching, x.1 ≠ s.core.pc
    let past := s.core.drained = true ∧ (∀ r, s.core.region = some r → r.held = []) ∧ s.core.pubs = []
    (fresh → past → f.full 1 = true → exec (.launch d a) s = .next (s.wrote d 0xFFFFFFFFFFFFFFFF)) ∧
    (fresh → ¬ past → exec (.launch d a) s = .next s.stall) ∧
    (fresh → past → f.full 1 = false → f.enabled 1 = true →
      ∃ t, exec (.launch d a) s = .next t ∧ t.core.launching = (s.core.pc, f.tailN 1) :: s.core.launching ∧
        t.core.pc = s.core.pc ∧
        t.core.s = s.core.s ∧ t.core.why = some (.wait none) ∧
        (s.dev.dram.wf = true → ∃ m, StoredAs s.dev.dram m (f.entryAt 1 (f.tailN 1)) 8 (s.operand a).toNat ∧
          StoredAs m t.dev.dram (f.entryAt 1 (f.tailN 1) + 8) 8 (entryWord 0 0 0 s.ctxId).toNat)) ∧
    ∀ k, s.core.launching.find? (fun x => x.1 == s.core.pc) = some (s.core.pc, k) →
      let e := (s.dev.ringEntry f 1 k).2
      let done (v : Word) := { s with core := { s.core with
        launching := s.core.launching.filter fun x => x.1 != s.core.pc } }.wrote d v
      (e.extractLsb' 62 2 = 0 → exec (.launch d a) s = .next s.stall) ∧
      (e.extractLsb' 62 2 = 2 → exec (.launch d a) s = .next (done 0xFFFFFFFFFFFFFFFE)) ∧
      ((e.extractLsb' 62 2 = 1 ∨ e.extractLsb' 62 2 = 3) →
        exec (.launch d a) s = .next (done ((e.extractLsb' 32 16).setWidth 64)))

/-- R189, R192: `HALT` waits until every placed word has finished and every publication is out; then the hart is gone from
its core, counts as halted, and its gang ends with its last hart; where the harts that are left have yielded, the gang waits
to be placed (R338, R433). An open convoy is a conflict, with KIND 3 (R376). -/
def Obligations.HaltEndsTheHart : Prop :=
  (∀ (s : State), s.core.openConvoy ≠ [] → exec .halt s =
    .next (genFault s 0x04 (BitVec.ofNat 64 (s.core.openConvoy.length * 65536 + 3 * 256)) 0)) ∧
  ∀ (s : State) (g : Gang), s.gang = some g → s.core.openConvoy = [] →
    (s.core.drained = true → s.core.pubs = [] → ∃ t, exec .halt s = .next t ∧ t.core.placed = false ∧
      t.core.words = [] ∧ t.core.num = s.core.num ∧ t.rest = s.rest ∧
      ((∀ h, h < g.desc.harts → h = s.core.hart ∨ h ∈ g.halted) → t.dev.liveGang s.core.gang16 = none) ∧
      let left (h : Nat) := h < g.desc.harts ∧ h ≠ s.core.hart ∧ h ∉ g.halted
      let off (h : Nat) := ∃ c ∈ s.dev.saved, c.gang16 = g.gid ∧ c.hart = h
      ((∃ h, left h ∧ ¬ off h) →
        t.dev.liveGang s.core.gang16 = some { g with halted := s.core.hart :: g.halted }) ∧
      ((∃ h, left h) → (∀ h, left h → off h) → ∃ n,
        t.dev.liveGang s.core.gang16 = some { g with halted := s.core.hart :: g.halted, st := .preempted, order := n })) ∧
    ((s.core.drained = false ∨ s.core.pubs ≠ []) → exec .halt s = .next s.stall)

/-! ## Exceptions (spec/21) -/

/-- R386, R387, R401: a trap at an S-word, and a single-step stop, whose route is the in-hart handler: in U mode with a
handler address in `tvec`, entry writes `tepc`, `tcause`, `tprov` and `tval`, sets PM := MODE and MODE := 1, parks every
placed word and goes on at `tvec`; nothing else changes but what `EnteredHandler` names, and without a trace unit nothing
outside the core. -/
def Obligations.ExceptionEntersTheHandler : Prop :=
  ∀ (s : State) (cause : BitVec 8) (tval addr : Word), s.core.running → handlerAlone cause → ¬ nested s.core →
    cause ≠ 0x04 → cause ≠ 0x10 → ∀ (k : TrapKind) (p : Word), (k = .generator ∧ p = 0x6000000000000000 ∨ k = .stop p) →
    ∃ t, exec (.trapEntry ⟨k, cause, tval, addr⟩) s = .next t ∧
      EnteredHandler s s.core (cause.setWidth 64) s.core.pc p tval t ∧ (untraced s → t.dev = s.dev)

/-- R189, R191: `ECALL`, past the commit gate, and `BRK` take the traps 0x1F and 0x20 with the word itself as `tepc`.
R377, R201: in U mode the privileged S-words, an `MFS` of a trap word and an `MTS` of a word that U mode may not write
trap with cause 0x03 and have no effect; `tval` holds the word. A state number that Table 2-3 does not list is cause
0x05. A `tval` of 0 for `ECALL` and `BRK` is the model's choice (log 42).
R370, R372, R188: a pattern that is no S-word is cause 0x01 and one that is no V-word cause 0x02, with the word in `tval`; a
fetch at an address beyond bit 54, or without the permission, is the trap of a load there. -/
def Obligations.WordsThatTrap : Prop :=
  (∀ (s : State) (i : Instr) (cause : Word), s.core.running → ¬ nested s.core →
     (i = .ecall ∧ s.core.gate = true ∧ cause = 0x1F ∨ i = .brk ∧ cause = 0x20) →
     ∃ t, exec i s = .next t ∧ EnteredHandler s s.core cause s.core.pc 0x6000000000000000 0 t ∧
       (untraced s → t.dev = s.dev)) ∧
  (∀ (s : State) (i : Instr) (r : SRaw), s.core.kmode = false → encodeS i = some r →
     (i = .eret ∨ (∃ d a, i = .vqsave d a) ∨ (∃ a b, i = .vqload a b) ∨ (∃ a, i = .vcmst a) ∨ (∃ a, i = .vcmld a) ∨
       (∃ d n, i = .mfs d n ∧ kernelNumber n.toNat) ∨
       ∃ n a, i = .mts n a ∧ (stateValue s.core n.toNat).isSome = true ∧ ¬ userNumber n.toNat) →
     exec i s = .next (genFault s 0x03 (r.pack.setWidth 64) 0)) ∧
  (∀ (s : State) (n : BitVec 12) (d a : BitVec 5), ¬ listedNumber n.toNat →
     let stop := genFault s 0x05 (BitVec.ofNat 64 (15 + n.toNat * 2 ^ 32)) 0
     exec (.mfs d n) s = .next stop ∧ exec (.mts n a) s = .next stop) ∧
  ∀ (s : State), (∀ w, exec (.illegalSWord w) s = .next (genFault s 0x01 (w.setWidth 64) 0)) ∧
    (s.core.mode = .whole → ∀ w, exec (.illegalVWord w) s = .next (takeTrap s ⟨.word s.core.run.rank, 0x02, w, 0⟩)) ∧
    ∀ f cause, (f = .noAddr ∧ cause = 0x08 ∨ f = .perm ∧ cause = 0x09) → s.refusedPage .last s.core.pc = false →
      probe s s.core.pc 4 .fetch false = .error f → exec .sWordFetchFault s = .next (genFault s cause s.core.pc s.core.pc)

/-- R393, R394, R386: a word fault on a word `e`, with the handler as its route, where no word has been placed by `VQLOAD`:
the words placed after it, or after the closing word `w` of its convoy, leave their queues, the rewind log is applied back
to the mark of `w`, `resoff` names the block word that follows `w`, and the word, its convoy and the older ones stay parked.
`tepc` is the S-word that placed `w`, `tprov` names `e`, and `tcause` carries WF and the queue. A vector word stands in the
head convoy, where alone words run. That `resoff` is wholly 0 where its V is 0 is the model's reading (log 28). -/
def Obligations.WordFaultUnwinds : Prop :=
  ∀ (s : State) (q : Que) (e w : QEntry) (cause : BitVec 8) (tval addr : Word), s.core.running → handlerAlone cause →
    ¬ nested s.core → cause ≠ 0x04 → cause ≠ 0x10 → s.core.findEntry e.rank = some (q, e) →
    (if q = .vec then e ∈ s.core.headConvoy ∧ s.core.headConvoy.getLast? = some w else w = e) →
    (∀ x ∈ s.core.words, x.restored = false) →
    let m := w.mark
    let c := { s.core with
      s := m.s, o := m.o, vl := m.vl, rc := m.rc, vtype := m.vtype, rkey := m.rkey, rpos := m.rpos, eseq := m.eseq
      epoch := m.epoch, spent := m.spent
      vec := s.core.vec.filter fun x => x.rank ≤ w.rank, mat := s.core.mat.filter fun x => x.rank ≤ w.rank
      cpy := s.core.cpy.filter fun x => x.rank ≤ w.rank, col := s.core.col.filter fun x => x.rank ≤ w.rank
      resoff := if w.more then 0x200 ||| (((w.prov >>> 52) + 1) &&& 0x1FF) else 0 }
    ∃ t, exec (.trapEntry ⟨.word e.rank, cause, tval, addr⟩) s = .next t ∧
      EnteredHandler s c (BitVec.ofNat 64 (cause.toNat + 256 + 512 * q.code)) w.pc e.prov tval t

/-- R389, R401, R402, R404: a trap at an S-word with the kernel as its route, or one taken in K mode or without a handler:
the kernel holds the hart, its record stands at PROD of the context's trap ring, and PROD has advanced; a nested trap
leaves the trap words and `hstat` as they were. -/
def Obligations.KernelTrapIsRecorded : Prop :=
  ∀ (s : State) (c : Ctx) (cause : BitVec 8) (tval addr : Word), s.core.running → untraced s → s.dev.dram.wf = true →
    s.dev.ctx s.ctxId = some c → c.dropped = 0 → c.lostNext = false → s.dev.ringRoom c ≠ 0 → cause ≠ 0x04 →
    cause ≠ 0x10 → cause ≠ 0x1A → (nested s.core ∨ cause = 0x0A ∨ cause = 0x0B) →
    let nest := cause ≠ 0x0A ∧ cause ≠ 0x0B
    ∃ t k, exec (.trapEntry ⟨.generator, cause, tval, addr⟩) s = .next t ∧ t.core.stopped = some k ∧ k.cause = cause ∧
      (k.nest = true ↔ nest) ∧ t.core.pc = s.core.pc ∧ t.core.s = s.core.s ∧ t.core.v = s.core.v ∧
      (nest → t.core.t = s.core.t ∧ t.core.hstat = s.core.hstat ∧ t.core.words = s.core.words) ∧
      (¬ nest → t.core.t.tcause = cause.setWidth 64 ∧ t.core.t.tepc = s.core.pc &&& 0x7FFFFFFFFFFFFC ∧ t.core.frozenHart = true) ∧
      let at_ := c.trap + 64 + 64 * (s.dev.ringProd c % 2 ^ c.tlog)
      (t.dev.dram.word at_).extractLsb' 0 8 = cause ∧ (t.dev.dram.word at_).extractLsb' 60 4 = 1 ∧
      ((t.dev.dram.word at_).getLsbD 50 = true ↔ nest) ∧ (t.dev.dram.word at_).getLsbD 49 = true ∧
      t.dev.dram.word (at_ + 16) = s.core.pc ∧ t.dev.dram.word (at_ + 24) = 0x6000000000000000 ∧
      t.dev.dram.word (at_ + 32) = addr ∧ t.dev.ringProd c = (s.dev.ringProd c + 1) % 2 ^ 32

/-- R189, R388, R395: `ERET` in K mode restores MODE from PM and goes on at `tepc`, at `tepc` + 4 after a word fault, or
inside the block of the `VFETCH` at `tepc` when `resoff`.V is 1; parked words carry the enable bits of now and may start
when MODE is U. The grace timer that 0x17 stopped runs on once MODE is U (R423). A `bar.aw` or `LAUNCH` that a stop has interrupted
goes on where it stood if the Last returns to it (R205; log 74). No word has been reloaded by `VQLOAD` here. -/
def Obligations.EretReturns : Prop :=
  ∀ (s : State), s.core.kmode = true → s.core.restore = [] → (∀ e ∈ s.core.words, e.restored = false) →
    ∃ t, exec .eret s = .next t ∧
      t.core.pc = (if s.core.t.tcause.getLsbD 8 = true ∧ s.core.resoff.getLsbD 9 = false then s.core.t.tepc + 4
        else s.core.t.tepc) ∧
      t.core.hstat = (s.core.hstat &&& ~~~1#64) ||| ((s.core.hstat >>> 1) &&& 1) ∧
      t.core.midFetch = (if s.core.resoff.getLsbD 9 = true then some t.core.pc else none) ∧
      t.core.graceHeld = (s.core.graceHeld && s.core.pm) ∧
      t.core.barAw = (s.core.barAw.filter fun a => a == t.core.pc) ∧
      t.core.launching = (s.core.launching.filter fun x => x.1 == t.core.pc) ∧
      (∀ q, t.core.queue q = (s.core.queue q).map fun e => if e.parked then
        { e with ven := s.core.ven, men := s.core.men, pen := s.core.pen, parked := s.core.pm } else e) ∧
      t.core.t = s.core.t ∧ t.core.s = s.core.s ∧ t.core.v = s.core.v ∧ t.core.resoff = s.core.resoff ∧
      t.core.vl = s.core.vl ∧ t.core.o = s.core.o ∧ t.dev = s.dev ∧ t.rest = s.rest

/-! ## The trap ring, the kernel and pre-emption (spec/21 R402 to R407, spec/12 R338, spec/23) -/

/-- R404, R407, R190: with a full ring an entry that waits goes on without its record, which LOST counts (bit 63 LF); the
consumer's CONS is stored, and an entry that waited goes on once its record is written; the consumer clears LF by a 1 and
writes LOST, and its writes to the other words change nothing (Table 21-5); a single-step stop that is due is
the trap 0x22, whose `tval` of 0 is the model's choice (log 42); an event ends a `WFE`. -/
def Obligations.TrapRingEvents : Prop :=
  ∀ (s : State) (id : Nat) (c : Ctx), s.dev.ctx id = some c → s.dev.dram.wf = true →
    (∀ w, s.core.trapWait = some w → s.ctxOf s.core = id → s.dev.ringRoom c = 0 →
      ∃ t, exec (.trapRecordDrop id) s = .next t ∧ t.core = s.core.enter w.stop ∧ t.core.trapWait = none ∧
        (t.dev.dram.word (c.trap + 16)).extractLsb' 0 32 =
          BitVec.ofNat 32 (Min.min (((s.dev.dram.word (c.trap + 16)).extractLsb' 0 32).toNat + 1) 0xFFFFFFFF) ∧
        (t.dev.dram.word (c.trap + 16)).getLsbD 63 = true ∧
        t.dev.ctx id = some { c with
          dropped := c.dropped + 1, repost := if w.stop = none then c.repost else c.repost ++ [w.record] }) ∧
    (∀ v : Word, c.dropped = 0 → c.repost = [] → c.waiting = [] → (∀ x ∈ s.cores, x.trapWait = none) →
      ∃ t, exec (.trapRingConsWrite id ⟨8, v⟩) s = .next t ∧
        StoredAs s.dev.dram t.dev.dram (c.trap + 8) 4 (v.extractLsb' 0 32).toNat ∧
        t.core = s.core ∧ t.rest = s.rest) ∧
    (∀ v : Word, let old := s.dev.dram.word (c.trap + 16)
      ∃ t, exec (.trapRingConsWrite id ⟨16, v⟩) s = .next t ∧
        StoredAs s.dev.dram t.dev.dram (c.trap + 16) 8
          ((old &&& 0x7FFFFFFF00000000) ||| (v &&& 0xFFFFFFFF) |||
            (if v.getLsbD 63 then 0 else old &&& 0x8000000000000000)).toNat ∧
        t.core = s.core ∧ t.rest = s.rest) ∧
    (∀ off v, off ≠ 8 → off ≠ 16 → exec (.trapRingConsWrite id ⟨off, v⟩) s = .next s) ∧
    (∀ (v : Word) w, c.dropped = 0 → c.repost = [] → c.lostNext = false → s.rest = [] →
      s.core.placed = true → s.core.trapWait = some w → s.ctxOf s.core = id →
      (s.dev.ringProd c + 2 ^ 32 - (v.extractLsb' 0 32).toNat) % 2 ^ 32 < 2 ^ c.tlog →
      ∃ t, exec (.trapRingConsWrite id ⟨8, v⟩) s = .next t ∧ t.core = s.core.enter w.stop) ∧
    exec (.wfeWake s.core.num) s = .next { s with core := { s.core with wfe := false } } ∧
    ∀ p, s.core.stepDue = some p → s.core.running → s.core.kmode = false → s.core.t.tvec.extractLsb' 2 53 ≠ 0 →
      ∃ t, exec (.singleStepStop s.core.num) s = .next t ∧
        EnteredHandler s { s.core with stepDue := none } 0x22 s.core.pc p 0 t

/-- R402, R453, R433, R445: the kernel ends a stop as `ERET` would, or by the rule of NEST: the service call 1 of K mode with
empty queues takes the hart off its core, to go on behind its `ECALL`; any other nested fault, an `ECALL` of U mode among them,
ends the gang. It may instead enter the hart's handler. Destroying a gang frees its cores; a thaw lets one frozen master go on, on its
core or off it: words restart, but for copies that a younger one has written within (R425) and for a multicast that has reached
receivers with the words before it (R292). -/
def Obligations.KernelServesHarts : Prop :=
  ∀ (s : State),
    (∀ k, s.core.stopped = some k → k.nest = false → s.core.frozenHart = false → s.core.kmode = true →
      exec (.kernelResumeHart s.core.num) s = exec .eret { s with core := { s.core with stopped := none } }) ∧
    (∀ k, s.core.stopped = some k → k.nest = true → k.cause = 0x1F → s.core.kmode = true → s.core.s[31] = 1 →
      s.core.drained = true →
      ∃ t h, exec (.kernelResumeHart s.core.num) s = .next t ∧ t.core.placed = false ∧
        t.dev.saved = s.dev.saved ++ [h] ∧ h.pc = k.tepc + 4 ∧ h.s = s.core.s ∧ h.o = s.core.o ∧ h.gid = s.core.gid ∧
        h.t.tscratch = s.core.t.tscratch ∧ h.hstat = s.core.hstat) ∧
    (∀ k, s.core.stopped = some k → k.nest = true → (k.cause = 0x1F → s.core.kmode = false ∨ s.core.s[31] ≠ 1) →
      k.cause ≠ 0x16 → k.cause ≠ 0x17 →
      s.core.placed = true → ∃ t, exec (.kernelResumeHart s.core.num) s = .next t ∧ t.core.placed = false ∧
        t.dev.liveGang s.core.gang16 = none) ∧
    (∀ k, s.core.stopped = some k → k.nest = false → s.core.frozenHart = false → s.core.t.tvec.extractLsb' 2 53 ≠ 0 →
      exec (.kernelEnterHandler s.core.num) s = .next { s with core := { s.core with
        stopped := none, pc := s.core.t.tvec &&& 0x7FFFFFFFFFFFFC } }) ∧
    (∀ gid, ∃ t, exec (.destroyGang gid) s = .next t ∧ t.dev.liveGang gid = none ∧
      (∀ c ∈ t.cores, c.placed = true → c.gang16 ≠ gid) ∧ (∀ c ∈ t.dev.saved, c.gang16 ≠ gid) ∧
      (∀ c ∈ s.cores, c.gang16 ≠ gid → c ∈ t.cores)) ∧
    exec (.thawMaster (.hart (.core s.core.num))) s = .next { s with core := { s.core with frozenHart := false } } ∧
    (∀ gid h, ∃ t, exec (.thawMaster (.hart (.off gid h))) s = .next t ∧ t.core = s.core ∧ t.rest = s.rest ∧
      t.dev.saved = s.dev.saved.map fun c => if c.gang16 = gid ∧ c.hart = h then { c with frozenHart := false } else c) ∧
    (s.core.frozenCopy = true → ∃ t, exec (.thawMaster (.copyEngine (.core s.core.num))) s = .next t ∧
      t.core.frozenCopy = false ∧ t.core.frozenHart = s.core.frozenHart ∧
      (∀ e ∈ t.core.cpy, e.joined = [] → e.job = none ∧ e.passed = false) ∧
      t.core.vec = s.core.vec ∧ t.core.col = s.core.col) ∧
    (s.core.frozenColl = true → ∃ t, exec (.thawMaster (.collPort (.core s.core.num))) s = .next t ∧
      t.core.frozenColl = false ∧ t.core.frozenHart = s.core.frozenHart ∧
      (∃ a b, s.core.col = a ++ b ∧ (∀ x, a.getLast? = some x → x.joined ≠ []) ∧ (∀ e ∈ b, e.joined = []) ∧
        t.core.col = a.map QEntry.unpin ++ b.map QEntry.unstart) ∧
      t.core.vec = s.core.vec ∧ t.core.cpy = s.core.cpy) ∧
    ∀ vf, vf < 384 → s.dev.boot.getLsbD 2 = false → ∃ t, exec (.thawMaster (.func vf)) s = .next t ∧
      (t.dev.func vf).frozen = false ∧ (∀ n, n ≠ vf → t.dev.func n = s.dev.func n) ∧ t.core = s.core

/-- R338, R38, R424: a request for pre-emption reaches every hart of a placed gang, and no other; a function's write names
one of its own gangs; a time slice ends when another function's candidate of equal priority waits with the credit it
needs; when grace expires, the copies that Table 23-1 completes finish, the units settle and the stop with cause 0x16 is taken. That
these copies come first, and that one which fails is reported as it is and the stop comes later, is the model's reading (log 40); a
`tval` of 0 for 0x16 is its choice (log 42). -/
def Obligations.PreemptionRequests : Prop :=
  ∀ (s : State) (gid : BitVec 16) (g : Gang), s.dev.liveGang gid = some g → g.st = .placed →
    let ask (c : Core) : Core := if c.placed = true ∧ c.gang16 = gid then { c with preempt := true } else c
    let asked := { s with core := ask s.core, rest := s.rest.map ask }
    exec (.preemptionRequest gid) s = .next asked ∧
    (∃ t, exec (.preemptGangWrite g.vf gid) s = .next t ∧ t.core = asked.core ∧ t.rest = asked.rest ∧
      (g.vf < 384 → s.dev.boot.getLsbD 2 = false → (t.dev.func g.vf).preGid = gid.setWidth 64)) ∧
    (∀ vf, vf ≠ g.vf → ∃ t, exec (.preemptGangWrite vf gid) s = .next t ∧ t.core = s.core ∧ t.rest = s.rest) ∧
    (∀ vf x, vf ∈ s.dev.vfs → vf ≠ g.vf → x ∈ s.candidates vf g.desc.prio → x.desc.harts ≤ (s.dev.func vf).deficit →
      exec (.timeSliceExpiry gid) s = .next asked) ∧
    (s.core.running → s.core.preempt = true → (s.core.graceHeld = false ∨ s.core.kmode = false) →
      (∀ x, s.gang = some x → s.gangFrozen x = false) →
      (∀ rank i, s.finishCopies.2 = some (rank, .deferred i) →
        exec (.graceExpiry s.core.num) s = .next (engineDefer rank i s.finishCopies.1)) ∧
      (∀ rank i, s.finishCopies.2 = some (rank, .stop i) →
        exec (.graceExpiry s.core.num) s = .next (freezeEngine .cpy rank i s.finishCopies.1)) ∧
      ((∀ rank i, s.finishCopies.2 ≠ some (rank, .deferred i) ∧ s.finishCopies.2 ≠ some (rank, .stop i)) →
        exec (.graceExpiry s.core.num) s =
          .next (takeTrap s.finishCopies.1.settleEngines ⟨.stop 0x6000000000000000, 0x16, 0, 0⟩)))

/-! ## Launching (spec/12) and the gang's publications (spec/05, spec/07) -/

/-- R332, R333, Table 12-4: a write of TAIL0 submits entries; admission decides the next entry of an enabled ring: it
admits a gang and writes ST 01 with the `gid`, or writes ST 10 with the reason. With ADM = 1 it posts the request to the
host first, and decides nothing before the answer (R355); how the answer comes is the model's choice (log 73).
R333, Table 12-4: why an entry is refused, the lowest reason first: harts 1, priority 2, zero fields 3, entry address 4,
predecessor 5, collective groups 6; a descriptor that is misaligned or unreadable is 7, a context of another function 8. -/
def Obligations.AdmissionDecidesEntries : Prop :=
  (∀ (s : State) (vf : Nat) (ring1 : Bool) (tail : BitVec 12),
     let r : Fin 2 := if ring1 then 1 else 0
     let f := s.dev.func vf
     let i := f.next[r]
     let id := ((s.dev.ringEntry f r i).2.extractLsb' 0 11).toNat
     vf < 384 → s.dev.boot.getLsbD 2 = false →
     (∃ t, exec (.ring0TailWrite vf tail) s = .next t ∧ (t.dev.func vf).tail = f.tail.set 0 (tail.setWidth 64) ∧
       (t.dev.func vf).head = f.head ∧ t.dev.dram = s.dev.dram ∧ t.core = s.core) ∧
     (f.frozen = false → f.enabled r = true → i ≠ f.tailN r → s.dev.split.getLsbD 2 = true →
       Ask.admission vf ring1 ∉ s.dev.asked → exec (.admission vf ring1) s = .next { s with dev := { s.dev with
         asked := s.dev.asked ++ [.admission vf ring1], posted := s.dev.posted ++ [.ask (.admission vf ring1)] } }) ∧
     (f.frozen = false → f.enabled r = true → i ≠ f.tailN r → s.dev.dram.wf = true →
       (s.dev.split.getLsbD 2 = true → Ask.admission vf ring1 ∈ s.dev.asked) →
       let d0 := s.dev.answered (.admission vf ring1)
       (∀ g d, d0.decide_ vf r i = (.ok g, d) → ∃ t, exec (.admission vf ring1) s = .next t ∧
         t.dev.gangs = s.dev.gangs ++ [g] ∧ g.st = .admitted ∧ g.halted = [] ∧ g.ctx = id ∧ g.vf = vf ∧
         (t.dev.func vf).next[r] = (i + 1) % f.entries r ∧ t.core = s.core ∧
         t.dev.dram.word (f.entryAt r i + 8) = BitVec.ofNat 64 (1 * 2 ^ 62 + g.gid.toNat * 2 ^ 32 + id)) ∧
       (∀ why d, why ≠ 0 → d0.decide_ vf r i = (.error why, d) → ∃ t, exec (.admission vf ring1) s = .next t ∧
         t.dev.gangs = s.dev.gangs ∧ (t.dev.func vf).next[r] = (i + 1) % f.entries r ∧ t.core = s.core ∧
         t.dev.dram.word (f.entryAt r i + 8) = BitVec.ofNat 64 (2 * 2 ^ 62 + why * 2 ^ 56 + id)))) ∧
  (∀ (d : Device) (f : Func) (c : Ctx) (bs : List Byte) (x : Desc),
     let harts := x.harts ≠ 0 ∧ x.harts ≤ 192 - d.retiredCores.length
     let prio := x.prio ≤ (f.fair.extractLsb' 12 4).toNat
     let zeros := descZeros bs x = true
     let entry := x.entry.toNat % 4 = 0 ∧ d.fetchable c x.entry = true
     let pred := x.pv = true → ∃ g ∈ d.gangs, g.gid = x.pgid ∧ g.ctx = c.id
     let coll := ∀ e ∈ x.coll, e.2 < x.harts ∧ ∃ g ∈ c.groups, g.1 = e.1
     (¬ harts → d.refusal f c bs x = 1) ∧ (harts → ¬ prio → d.refusal f c bs x = 2) ∧
     (harts → prio → ¬ zeros → d.refusal f c bs x = 3) ∧ (harts → prio → zeros → ¬ entry → d.refusal f c bs x = 4) ∧
     (harts → prio → zeros → entry → ¬ pred → d.refusal f c bs x = 5) ∧
     (harts → prio → zeros → entry → pred → ¬ coll → d.refusal f c bs x = 6) ∧
     (harts → prio → zeros → entry → pred → coll → d.refusal f c bs x = 0)) ∧
  ∀ (d : Device) (vf : Nat) (r : Fin 2) (i : Nat),
    let e := d.ringEntry (d.func vf) r i
    let here := d.ctx (e.2.extractLsb' 0 11).toNat
    ((∀ y, here = some y → y.vf ≠ vf) → d.decide_ vf r i = (.error 8, d)) ∧
    ∀ c, here = some c → c.vf = vf →
      (e.1.toNat % 64 ≠ 0 → d.decide_ vf r i = (.error 7, d)) ∧
      (e.1.toNat % 64 = 0 → (d.ctxLines c 3 e.1.toNat).1 = none → (d.decide_ vf r i).1 = .error 7) ∧
      ∀ bs d', e.1.toNat % 64 = 0 → d.ctxLines c 3 e.1.toNat = (some bs, d') →
        (∀ n, d'.refusal (d.func vf) c bs (descOf bs) = n → n ≠ 0 → d.decide_ vf r i = (.error n, d')) ∧
        (d'.refusal (d.func vf) c bs (descOf bs) = 0 → ∀ gid, d'.newGid (descOf bs) = some gid →
          ∃ g, d.decide_ vf r i = (.ok g, d') ∧ g.gid = gid ∧ g.desc = descOf bs ∧ g.ctx = c.id ∧ g.pos = i)

/-- R336, R337, R32, R334: a dispatcher's round places an eligible gang: with a reservation, once enough cores are free;
without one, the only gang of the machine as soon as its function's credit covers its HARTS. Every hart of the gang that
has not halted then stands on a free core of its own, with `tvec` from its context (at each placement, log 33): as it left, MODE
among the rest, or at launch in U mode, with registers to which the spec gives no value 0 (log 3).
R339, R445, R204, R142: a group is bound to a set of chips that holds this package; a function-level reset ends the
function's gangs and empties its rings; a barrier phase that every hart has reached completes and wakes the gang; a
publication that is due raises its watermark to the maximum, or counts the arrival. -/
def Obligations.GangsArePlacedAndServed : Prop :=
  (∀ (s : State) (g : Gang),
     (∀ x ∈ s.dev.gangs, x.desc.harts ≤ 192 - s.dev.retiredCores.length) →
     (s.dev.reserved = [g.gid] → s.dev.liveGang g.gid = some g → s.mayPlace g = true →
       let u := (s.placeGang g s.freeCores).withDev fun d =>
         d.updFunc g.vf fun f => { f with deficit := f.deficit - g.desc.harts }
       (∀ vf p, u.candidate vf p = none) → exec .dispatchRound s = .next u.clearDeficits) ∧
     (s.dev.gangs = [g] → (g.st = .admitted ∧ s.dev.startable g = true ∨ g.st = .preempted ∧ s.gangFrozen g = false) →
       s.dev.reserved = [] → g.desc.prio < 16 → s.dev.ctxHeld g.ctx = false → g.desc.harts ≤ s.freeCores.length → g.vf < 384 →
       s.dev.boot.getLsbD 2 = false →
       g.desc.harts ≤ (s.dev.func g.vf).deficit + ((s.dev.func g.vf).fair.extractLsb' 0 8).toNat * 8 →
       ∃ t g', exec .dispatchRound s = .next t ∧ t.dev.gangs = [g'] ∧ g'.st = .placed ∧ g'.gid = g.gid ∧
         g'.desc = g.desc ∧ ∃ at_ : Nat → Core,
           (∀ h k, h < g.desc.harts → k < g.desc.harts → h ∉ g.halted → k ∉ g.halted → h ≠ k → (at_ h).num ≠ (at_ k).num) ∧
           ∀ h, h < g.desc.harts → h ∉ g.halted → h < 256 → let c := at_ h
             c ∈ t.cores ∧ c.placed = true ∧ c.gang16 = g.gid ∧ c.hart = h ∧ c.num ∈ s.freeCores ∧
             c.t.tvec = ((((s.dev.ctx g.ctx).map Ctx.handler).getD 0) &&& 0x7FFFFFFFFFFFFC) ∧
             match s.dev.saved.find? fun x => x.gang16 == g.gid && x.hart == h with
             | some x => c.pc = x.pc ∧ c.hstat = x.hstat ∧ c.s = x.s ∧ c.v = x.v ∧ c.words = x.words
             | none => c.pc = g.desc.entry ∧ c.hstat = 0x1C ∧ c.s = .replicate 32 0 ∧ c.words = [])) ∧
  ∀ (s : State),
    (∀ id grp chips c, s.dev.ctx id = some c → s.dev.chip.toNat ∈ chips →
      ∃ t c', exec (.collectiveGroupBind id grp chips) s = .next t ∧ t.dev.ctx id = some c' ∧ t.core = s.core ∧
        (∃ l, (grp, l) ∈ c'.groups ∧ (∀ x, x ∈ l ↔ x ∈ chips) ∧ l.Pairwise (· < ·) ∧
          ∀ l', (grp, l') ∈ c'.groups → l' = l) ∧ (∀ p ∈ c.groups, p.1 ≠ grp → p ∈ c'.groups)) ∧
    (∀ vf, vf < 384 → s.dev.boot.getLsbD 2 = false →
      ∃ t, exec (.functionLevelReset vf) s = .next t ∧ (t.dev.func vf).frozen = false ∧
      (t.dev.func vf).head = (t.dev.func vf).tail ∧ (∀ x ∈ s.dev.gangs, x.vf = vf → x.st ≠ .ended →
        t.dev.liveGang x.gid = none)) ∧
    (∀ gid g, s.dev.liveGang gid = some g → (∀ h, h < g.desc.harts → h ∈ g.arrived ∨ h ∈ g.halted) →
      ∃ t, exec (.barrierPhaseComplete gid) s = .next t ∧
        t.dev.liveGang gid = some { g with phase := g.phase + 1, arrived := [] } ∧
        t.core = (if s.core.gang16 = gid then { s.core with wfe := false } else s.core)) ∧
    (∀ w v sc rk ps g, s.core.pubs = .raise w v sc rk :: ps → s.core.pubReady (.raise w v sc rk) = true →
      s.gang = some g → ∃ t g', exec (.watermarkUpdate s.core.num) s = .next t ∧ t.core.pubs = ps ∧
        t.gang = some g' ∧ (g'.w[w.toNat]).toNat = Max.max (g.w[w.toNat]).toNat v.toNat ∧
        (∀ n : BitVec 3, n ≠ w → g'.w[n.toNat] = g.w[n.toNat]) ∧
        ((g.w[w.toNat]).toNat < v.toNat →
          g'.raised[w.toNat] = ⟨v, sc, (s.core.gid, s.core.hid), []⟩ :: g.raised[w.toNat] ∧
          (g.linked w.toNat = false → t.core.wfe = false))) ∧
    (∀ ph rk ps g, s.core.pubs = .arrive ph rk :: ps → s.core.pubReady (.arrive ph rk) = true → s.gang = some g →
      g.phase = ph → ∃ t, exec (.watermarkUpdate s.core.num) s = .next t ∧ t.core.pubs = ps ∧
        t.gang = some { g with arrived := s.core.hart :: g.arrived })

/-- R109 to R112: at a window each bucket of the cluster gains RATE tokens up to DEPTH and its loans are final; a request
spends a token of its context, or borrows one where it has none, may borrow and another context has tokens; a context below
zero, or one that a debit has taken there and no refill has brought above zero yet, presents nothing. A context whose
bandwidth word the kernel has not written has the resets of Table 4-5. That the lender is the first context that holds tokens, where
R111 names any, that a word of zeros counts as unwritten, and which core's bank counts the request, are the model's choices (log 24). -/
def Obligations.BandwidthTokens : Prop :=
  ∀ (s : State) (cl id : Nat) (c : Core), c ∈ s.cores → c.placed = true → c.num / 8 = cl → s.ctxOf c = id →
    (∃ t, exec (.bucketRefill cl) s = .next t ∧ t.core = s.core ∧
      (t.dev.bucketOf cl id).tokens = Min.min ((s.dev.bucketOf cl id).tokens + s.dev.rate id) (s.dev.depth id) ∧
      (t.dev.bucketOf cl id).loans = [] ∧ ∀ k x, k ≠ cl → t.dev.bucketOf k x = s.dev.bucketOf k x) ∧
    ((s.dev.bucketOf cl id).loans = [] → 1 ≤ (s.dev.bucketOf cl id).tokens →
      ∃ t n, exec (.l2Request cl id) s = .next t ∧ t.core = { s.core with stampSeq := n } ∧
        (t.dev.bucketOf cl id).tokens = (s.dev.bucketOf cl id).tokens - 1 ∧
        ∀ k x, (k, x) ≠ (cl, id) → t.dev.bucketOf k x = s.dev.bucketOf k x) ∧
    (∀ y, (s.dev.bucketOf cl id).loans = [] → (s.dev.bucketOf cl id).tokens = 0 → s.dev.borrows id = true →
      (s.dev.bucketOf cl id).barred = false →
      (s.dev.bucketOf cl id).used < 2 * s.dev.rate id →
      (s.present cl).find? (fun x => x != id && decide (1 ≤ (s.dev.bucketOf cl x).tokens)) = some y →
      ∃ t, exec (.l2Request cl id) s = .next t ∧
        (t.dev.bucketOf cl y).tokens = (s.dev.bucketOf cl y).tokens - 1 ∧
        (t.dev.bucketOf cl id).tokens = 0 ∧ (t.dev.bucketOf cl id).used = (s.dev.bucketOf cl id).used + 1) ∧
    ((s.dev.bucketOf cl id).loans = [] → ((s.dev.bucketOf cl id).tokens < 0 ∨
      (s.dev.bucketOf cl id).tokens = 0 ∧ (s.dev.bucketOf cl id).barred = true) → exec (.l2Request cl id) s = .next s) ∧
    ∀ x, s.dev.ctx id = some x → x.desc[2] = 0 → s.dev.rate id = 64 ∧ s.dev.depth id = 4096 ∧ s.dev.borrows id = true

/-! ## Pages, frames, host accesses and errors (spec/04, spec/22) -/

/-- R412, R413: the management cores serve the oldest unanswered batch of a hart: a page that is mapped by now is
answered; a page that no reserved region holds is refused; a page of a reserved region gets a zeroed frame that the
context owns, under the key that the gang was placed with (R353), and the region's leaf. A batch posted to the host is
answered by the host's write. -/
def Obligations.PageServiceAnswersBatches : Prop :=
  ∀ (s : State) (g : Gang) (x : Ctx) (b : Batch) (p : PageReq) (n : Nat), s.core.placed = true →
    s.dev.liveGang s.core.gang16 = some g → s.dev.ctx g.ctx = some x → s.core.batches = [b] → b.pages = [p] →
    b.seq = some n → b.refused = false → x.id < 2048 → g.key < 1024 →
    let answered := { s.core with batches := [] }
    let refused := { s.core with batches := [{ b with refused := true }] }
    (¬ s.dev.posted.contains (.batch g.ctx n) →
      (∀ l, walk s.dev.dram g.root (p.page * 65536) = some l → eH l.entry = false →
        ∃ t, exec (.pageService s.core.num []) s = .next t ∧ t.core = answered ∧ t.dev = s.dev) ∧
      (walk s.dev.dram g.root (p.page * 65536) = none → (∀ r ∈ x.regions, p.page < r.page ∨ r.page + r.pages ≤ p.page) →
        ∃ t, exec (.pageService s.core.num []) s = .next t ∧ t.core = refused ∧ t.dev = s.dev) ∧
      (∀ r f e1 e2, x.regions = [r] → r.page ≤ p.page → p.page < r.page + r.pages → s.dev.mayTake f = true →
        s.dev.dram.wf = true → e1 = s.dev.dram.num 8 (g.root + 8 * field (p.page * 65536) 54 42) → eV e1 = true →
        malformed e1 1 = false → e2 = s.dev.dram.num 8 (eFrame e1 + 8 * field (p.page * 65536) 41 29) → eV e2 = true →
        eL e2 = false → malformed e2 2 = false →
        s.dev.dram.num 8 (eFrame e2 + 8 * field (p.page * 65536) 28 16) = 0 → g.root % 65536 = 0 →
        g.root / 65536 ≠ f → eFrame e1 / 65536 ≠ f → eFrame e2 / 65536 ≠ f →
        ∃ t, exec (.pageService s.core.num [f]) s = .next t ∧ t.core = answered ∧
          t.dev.frameEntry f = BitVec.ofNat 64 (g.key * 2048 + x.id) ∧
          (∀ a, a / 65536 = f → t.dev.dram.get a = 0) ∧
          t.dev.dram.num 8 (eFrame e2 + 8 * field (p.page * 65536) 28 16) = r.leaf f)) ∧
    (∀ v : Word, s.dev.posted.contains (.batch g.ctx n) = true → s.ctxOf s.core = g.ctx →
      v.extractLsb' 48 11 = BitVec.ofNat 11 g.ctx → g.ctx < 2048 → v.extractLsb' 0 32 = BitVec.ofNat 32 n → n < 2 ^ 32 →
      (v.extractLsb' 62 2 = 1 → ∃ t, exec (.faultResponseWrite v) s = .next t ∧ t.core = answered) ∧
      (v.extractLsb' 62 2 = 2 → ∃ t, exec (.faultResponseWrite v) s = .next t ∧ t.core = refused))

/-- R97, R100 to R102, R409: the host makes a page present, refuses it, or drops translations that the device keeps; an
invalidation of a range completes once no translation found in it is in use, by a held store or by a word past its fault
point (R390); a page moves to the host in two steps, the first of which holds back its writes: that a migration has a start and an end
is how the model shows that writes wait (R102; log 53). -/
def Obligations.HostPagesAndMigration : Prop :=
  ∀ (s : State) (pasid vpage hp : Nat),
    (∃ t, exec (.priPageResponse pasid vpage true hp) s = .next t ∧ t.core = s.core ∧ t.dev.dram = s.dev.dram ∧
      t.dev.hostPages.find? (fun p => p.1 == pasid && p.2.1 == vpage) = some (pasid, vpage, hp) ∧
      (∀ q ∈ t.dev.atc, (q.1, q.2.1) ≠ (pasid, vpage)) ∧
      ∀ q, q ∈ s.dev.hostPages → (q.1, q.2.1) ≠ (pasid, vpage) → q ∈ t.dev.hostPages) ∧
    (∃ t, exec (.priPageResponse pasid vpage false hp) s = .next t ∧
      (∀ q ∈ t.dev.hostPages, (q.1, q.2.1) ≠ (pasid, vpage)) ∧
      ((s.dev.ctx (s.ctxOf s.core)).map Ctx.pasid = some pasid → ∀ b ∈ t.core.batches, b.seq.isSome = true →
        ∀ p ∈ b.pages, p.hp = true → p.page = vpage → b.refused = true)) ∧
    (∀ n, (∀ c ∈ s.dev.ofPasid pasid, s.inUse c (vpage * 65536) (n * 65536) = false) →
      ∃ t, exec (.atsInvalidation pasid vpage n) s = .next t ∧ t.dev.hostPages = s.dev.hostPages ∧ t.core.v = s.core.v ∧
      ((∀ e ∈ s.core.words, e.parked = false) → t.core = s.core) ∧
      ∀ q, q ∈ t.dev.atc ↔ q ∈ s.dev.atc ∧ (q.1 ≠ pasid ∨ q.2.1 < vpage ∨ vpage + n ≤ q.2.1)) ∧
    (∀ n, (∃ c ∈ s.dev.ofPasid pasid, s.inUse c (vpage * 65536) (n * 65536) = true) →
      exec (.atsInvalidation pasid vpage n) s = .next s.stall) ∧
    (∀ id va n, (s.inUse id va.toNat n = true → exec (.translationInvalidation id va n) s = .next s.stall) ∧
      (s.inUse id va.toNat n = false → ∃ t, exec (.translationInvalidation id va n) s = .next t ∧ t.dev = s.dev ∧
        t.core.v = s.core.v ∧ ((∀ e ∈ s.core.words, e.parked = false) → t.core = s.core))) ∧
    ∀ id va c l page, s.dev.ctx id = some c → walk s.dev.dram (s.dev.rootOf c) va.toNat = some l → l.big = false →
      eH l.entry = false → eAttr l.entry ≠ 2 → s.inUse id (va.toNat / 65536 * 65536) 65536 = false →
      (s.dev.migrating.contains (id, va.toNat / 65536) = false → exec (.pageMigration id va true page) s =
        .next { s with dev := { s.dev with migrating := (id, va.toNat / 65536) :: s.dev.migrating } }) ∧
      (s.dev.migrating.contains (id, va.toNat / 65536) = true → s.dev.dram.wf = true → s.dev.host.wf = true →
        ∃ t, exec (.pageMigration id va true page) s = .next t ∧
          (∀ i, i < 65536 → t.dev.host.get (page * 65536 + i) = s.dev.dram.get (eFrame l.entry + i)) ∧
          (∀ a, a / 65536 ≠ page → t.dev.host.get a = s.dev.host.get a) ∧
          StoredAs s.dev.dram t.dev.dram l.at_ 8 (l.entry - field l.entry 47 16 * 65536 + 2 ^ 63) ∧
          t.dev.hostPages.find? (fun p => p.1 == c.pasid && p.2.1 == va.toNat / 65536) =
            some (c.pasid, va.toNat / 65536, page) ∧
          t.dev.migrating.contains (id, va.toNat / 65536) = false ∧ t.core.v = s.core.v ∧
          ((∀ e ∈ s.core.words, e.parked = false) → t.core = s.core))

/-- R115, R116, R118, R415: an ownership entry is written, a seal with the measurement under its TAG, and fetched copies of
the frame are dropped, once no access that the old entry has let through is still to come (R390, R414); host DMA of a
function reads and writes device memory where every frame passes the check, and
otherwise does nothing, freezes the function and tells the kernel. That an update waits for those accesses is the model's reading
(log 70). -/
def Obligations.FramesAndHostDma : Prop :=
  ∀ (s : State),
    (∀ f (e : Word), f < 8388608 → e &&& 0xFF000000 = 0 → (entrySealed (s.dev.frameEntry f) = true → entrySealed e = true) →
      (s.dev.frames.map Prod.fst).Pairwise (· < ·) → s.frameInUse f = false →
      ∃ t, exec (.frameTableUpdate f e) s = .next t ∧ t.dev.frameEntry f = e ∧
        (∀ k, k ≠ f → t.dev.frameEntry k = s.dev.frameEntry k) ∧ t.dev.dram = s.dev.dram ∧
        (∀ l ∈ t.core.icache, l.1 / 1024 ≠ f) ∧ (∀ l ∈ t.core.bcache, l.1 / 1024 ≠ f) ∧
        (entrySealed e = true → entrySealed (s.dev.frameEntry f) = false →
          t.dev.tags.find? (fun p => p.1 == entryTag e) = some (entryTag e, s.dev.measure f))) ∧
    (∀ f e, f < 8388608 → s.frameInUse f = true → exec (.frameTableUpdate f e) s = .next s.stall) ∧
    ∀ vf id pa c, s.dev.ctx id = some c → c.vf = vf → (s.dev.func vf).frozen = false → vf < 384 →
      s.dev.boot.getLsbD 2 = false →
      (∀ bs : List Byte, bs ≠ [] → pa + bs.length ≤ 2 ^ 39 → s.dev.ckptOpen = [] → s.dev.dram.wf = true →
        s.dev.dmaFault id pa bs.length true = none →
        ∃ t, exec (.hostDma vf id pa ⟨0, some bs⟩) s = .next t ∧ t.dev.posted = s.dev.posted ∧
          (∀ a, pa ≤ a → a < pa + bs.length → t.dev.dram.get a = bs.getD (a - pa) 0) ∧
          (∀ a, (a < pa ∨ pa + bs.length ≤ a) → t.dev.dram.get a = s.dev.dram.get a) ∧ t.core.v = s.core.v) ∧
      (∀ n, n ≠ 0 → pa + n ≤ 2 ^ 39 → s.dev.dmaFault id pa n false = none → s.dev.poison = [] →
        ∃ t, exec (.hostDma vf id pa ⟨n, none⟩) s = .next t ∧
          t.dev.posted = s.dev.posted ++ [.dmaData (s.dev.dram.read n pa)] ∧ t.dev.dram = s.dev.dram ∧
          t.core = s.core) ∧
      (∀ n x, n ≠ 0 → pa + n ≤ 2 ^ 39 → s.dev.dmaFault id pa n false = some x →
        ∃ t, exec (.hostDma vf id pa ⟨n, none⟩) s = .next t ∧ (t.dev.func vf).frozen = true ∧
          Notice.dmaAbort vf ∈ t.dev.posted ∧ t.dev.dram = s.dev.dram ∧ t.core = s.core)

/-- R418, R420, R421: an error counts for its unit, which retires when the count reaches the threshold; an uncorrectable
one also poisons the line, kept line, register group, tile group, heap row or bank row that it strikes, and the loss of
dirty bytes is cause 0x18; a window's end takes the count back to 0. The record of a lost L2 line carries the line's physical
address by the model's reading (log 52). -/
def Obligations.ErrorsAreCounted : Prop :=
  ∀ (s : State) (u : ErrUnit),
    let n := ((s.dev.errors.find? fun p => p.1 == u).map Prod.snd).getD 0 + 1
    let thr := (s.dev.retire.extractLsb' 0 8).toNat
    let counted (t : State) : State := { t with dev := { t.dev with
      errors := (u, n) :: t.dev.errors.filter fun p => p.1 != u } }
    ((thr = 0 ∨ n < thr) → ((∀ k, u ≠ .core k) → exec (.correctableError u) s = .next (counted s)) ∧
      (∀ k, u = .core k → ∃ t, exec (.correctableError u) s = .next t ∧
        t.dev.errors = (u, n) :: s.dev.errors.filter fun p => p.1 != u) ∧
      (s.bankCounts (s.dev.bankOf s.core.num) = false → u = .core s.core.num →
        exec (.correctableError u) s = .next (counted s)) ∧
      (∀ pa, s.dev.poison.contains (pa / 64) = false → exec (.uncorrectableError u (.line pa)) s =
        .next (counted { s with dev := { s.dev with poison := (pa / 64) :: s.dev.poison } })) ∧
      (∀ pa, s.dev.hostPoison.contains (pa / 64) = false → exec (.uncorrectableError u (.hostLine pa)) s =
        .next (counted { s with dev := { s.dev with hostPoison := (pa / 64) :: s.dev.hostPoison } })) ∧
      (∀ blk line, s.core.poison.contains (.fetch blk line) = false →
        exec (.uncorrectableError u (.fetchLine s.core.num blk line)) s =
          .next (counted { s with core := { s.core with poison := .fetch blk line :: s.core.poison } })) ∧
      (∀ v row eg, s.core.poison.contains (.reg v row eg) = false →
        exec (.uncorrectableError u (.reg s.core.num v row eg)) s =
          .next (counted { s with core := { s.core with poison := .reg v row eg :: s.core.poison } })) ∧
      (∀ tl row eg, s.core.poison.contains (.tile tl row eg) = false →
        exec (.uncorrectableError u (.tile s.core.num tl row eg)) s =
          .next (counted { s with core := { s.core with poison := .tile tl row eg :: s.core.poison } })) ∧
      (∀ row, s.core.poison.contains (.heap row) = false → exec (.uncorrectableError u (.heap s.core.num row)) s =
        .next (counted { s with core := { s.core with poison := .heap row :: s.core.poison } })) ∧
      (∀ row, s.core.poison.contains (.spad row) = false → exec (.uncorrectableError u (.spad s.core.num row)) s =
        .next (counted { s with core := { s.core with poison := .spad row :: s.core.poison } })) ∧
      (∀ va pa, s.core.placed = true → s.core.stopped = none → s.core.trapWait = none →
        s.dev.poison.contains (pa / 64) = false →
        let a : Word := BitVec.ofNat 64 (va / 64 * 64)
        exec (.uncorrectableError u (.dataCacheLine s.core.num va pa)) s =
          .next (counted (takeTrap { s with dev := { s.dev with poison := (pa / 64) :: s.dev.poison } }
            ⟨.deferred s.core.rank, 0x18, a, a⟩))) ∧
      (∀ pa id, s.dev.poison.contains (pa / 64) = false → exec (.uncorrectableError u (.l2Line pa id)) s =
        .next (counted { s with
          dev := ({ s.dev with
            poison := (pa / 64) :: s.dev.poison, stampNo := s.dev.stampNo + 1 } : Device).pushOrWait id
              (masterRecord 0x18 id (BitVec.ofNat 64 (pa / 64 * 64)) (Config.deviceStamp s.dev.stampNo)) }))) ∧
    (thr ≠ 0 → thr ≤ n → s.dev.retiredUnits.contains u = false →
      (∀ k, u = .core k → (∀ c ∈ s.cores, c.num = k → c.placed = false) →
        ∃ t, exec (.correctableError u) s = .next t ∧ k ∈ t.dev.retiredCores ∧ u ∈ t.dev.retiredUnits) ∧
      (∀ k, u = .seam k ∨ u = .mgmt k → ∃ t, exec (.correctableError u) s = .next t ∧ u ∈ t.dev.retiredUnits ∧
        Notice.retired u ∈ t.dev.posted ∧ t.dev.retiredCores = s.dev.retiredCores)) ∧
    (∃ t, exec (.errorCountWindow u) s = .next t ∧ t.dev.errors.find? (fun p => p.1 == u) = none ∧
      (∀ p ∈ s.dev.errors, p.1 ≠ u → p ∈ t.dev.errors) ∧ t.core = s.core ∧ t.dev.poison = s.dev.poison)

/-! ## Copies and collective words (spec/10) -/

/-- R283, R284, R390: a `CPY` whose descriptor, from row 0 of a register or from memory, is in its limits and whose pages
are all there starts: its job stands in its queue entry, past its fault point; one without bytes completes at once. A
descriptor whose reserved bits are not zero is an operand limit with code 13.
R290, R297: a wait word completes once every older word of its queue has, and for the `V` forms once every older
vector word has retired, setting its mask bit; until then it does not start.
R291 to R295, R390: a collective word whose descriptor is in its limits, of a group that the hart has joined, and whose
pages are all there, starts and waits for its peers, past its fault point; in a group of this package alone a `csendm`
completes. -/
def Obligations.EngineWordsStart : Prop :=
  (∀ (s s1 s2 : State) (o : EngArgs) (src dst d : Word), engineDesc o.src 3 s = .ok ([src, dst, d], s1) →
     s.core.run.aim = none → s.core.mode = .whole →
     let j := copyOf o.mreg src dst d
     (d.extractLsb' 48 16 = 0 → d.extractLsb' 40 3 = 0 →
       (o.mreg ≠ none → (j.len + j.chunk - 1) / j.chunk ≤ 262144) →
       (j.ssp = true → src.toNat + j.len ≤ 0x200000) → (j.dsp = true → dst.toNat + j.len ≤ 0x200000) →
       checkSpans (.word s.core.run.rank) [(.read, ⟨j.ssp, src, j.len⟩), (.write, ⟨j.dsp, dst, j.len⟩)] s1 = .ok s2 →
       (j.len ≠ 0 → exec (.cpy o) s = .next { s2 with core := s2.core.started j }) ∧
       (j.len = 0 → exec (.cpy o) s = .next { s2 with core := s2.core.without s2.core.run.rank s2.core.run.prov })) ∧
     ((d.extractLsb' 48 16 ≠ 0 ∨ d.extractLsb' 40 3 ≠ 0) → ∃ v u, exec (.cpy o) s =
       .next (takeTrap u ⟨.word s.core.run.rank, 0x05, BitVec.ofNat 64 (13 + v * 2 ^ 32), 0⟩) ∧ u.core = s.core ∧
       ∀ va, o.src = .reg va → u = s) ∧
     (∀ va, o.src = .reg va → s.core.poison = [] → s1 = s ∧ src = ((s.core.vreg va).row 0).setWidth 64)) ∧
  (∀ (s : State) (i : Instr) (q : Que) (v : Bool) (m : Option (BitVec 5)) (p : BitVec 18),
     engineWaitOf i = some (q, v, m, p) → s.core.mode = .whole →
     ((∀ e ∈ s.core.queue q, s.core.run.rank ≤ e.rank) → (v = true → ∀ e ∈ s.core.vec, s.core.run.rank ≤ e.rank) →
       ∃ c, exec i s = .next { s with core := c.without s.core.run.rank s.core.run.prov } ∧
         (m = none → c = s.core) ∧
         (∀ r, m = some r → ∃ x d, c = { s.core with v := s.core.v.set r.toNat x, vdirty := d } ∧ d.getLsbD r.toNat = true ∧
           ∀ row b, row < 16 → b < 16384 → (x.row row).getLsbD b =
             (((s.core.vreg r).row row).getLsbD b || decide (row * 16384 + b = p.toNat)))) ∧
     (((∃ e ∈ s.core.queue q, e.rank < s.core.run.rank) ∨ (v = true ∧ ∃ e ∈ s.core.vec, e.rank < s.core.run.rank)) →
       ∃ t, exec i s = .next t ∧ t.core.why ≠ none ∧ t.core.s = s.core.s ∧ t.core.v = s.core.v ∧
         t.dev = s.dev ∧ (t.core.queue q).map QEntry.word = (s.core.queue q).map QEntry.word)) ∧
  ∀ (s s1 s2 : State) (i : Instr) (o : EngArgs) (k : CollKind) (op : BitVec 4) (et : EType) (buf dst d e : Word)
    (chips : List Nat), collOf i = some (o, k, op, et) → engineDesc o.src 4 s = .ok ([buf, dst, d, e], s1) →
    s.core.run.aim = none → s.core.mode = .whole → (k = .reduce → credType op et = true) →
    let j := transferOf o.mreg op et buf dst d e
    s1.members j.grp = some chips → d.extractLsb' 43 21 = 0 → e.extractLsb' 38 2 = 0 → e.extractLsb' 0 32 = 0 →
    (k ≠ .reduce → dst = 0) → (k = .sendAll → j.peer = 0) → (k = .reduce → credLenOk op et j.len = true) →
    (o.mreg ≠ none → op ≠ 3 → op ≠ 4 → (j.len + j.chunk - 1) / j.chunk ≤ 262144) →
    ((k = .send ∨ k = .recv) → j.peer < chips.length) →
    checkSpans (.word s.core.run.rank) (collSpans k j) s1 = .ok s2 →
    (chips.length ≠ 1 ∨ k = .send ∨ k = .recv → exec i s = .next { s2 with core := s2.core.started j }) ∧
    (chips.length = 1 → k = .sendAll → o.mreg = none →
      exec i s = .next { s2 with core := s2.core.without s2.core.run.rank s2.core.run.prov })

/-- R284 to R286: a chunk of a started copy arrives: its bytes stand at the destination, its mask bit is set, and the copy
is that much further, or done. Between two ranges of the scratchpad that do not overlap the bytes are those of the source,
and no other byte changes. While the hart is stopped or off its core, or its engine frozen, none arrives (R387, R389). -/
def Obligations.CopyChunksArrive : Prop :=
  (∀ (s : State) (k : Nat), s.core.stopped ≠ none ∨ s.core.placed = false ∨ s.core.frozenCopy = true →
    exec (.copyChunkArrival s.core.num k) s = .next s) ∧
  ∀ (s : State) (k : Nat) (e : QEntry) (j : Job), s.core.cpy[k]? = some e → e.job = some j → e.parked = false →
    s.core.running → s.core.frozenCopy = false → s.chunkWaits e j = false →
    let n := Min.min j.chunk (j.len - j.done)
    (∀ u, moveSpan false j.ssp j.dsp (j.src.toNat + j.done) (j.dst.toNat + j.done) n (s.withRun e) = .ok u →
      ∃ t, exec (.copyChunkArrival s.core.num k) s = .next t ∧ t.dev.dram = u.dev.dram ∧ t.dev.host = u.dev.host ∧
        t.core.spad = u.core.spad ∧ t.core.s = u.core.s ∧
        (∀ v, j.mask = some v → j.done / j.chunk < 262144 →
          ((t.core.vreg v).row (j.done / j.chunk / 16384)).getLsbD (j.done / j.chunk % 16384) = true) ∧
        (j.done + n < j.len → ∃ e', e' ∈ t.core.cpy ∧ e'.rank = e.rank ∧ e'.job = some { j with done := j.done + n }) ∧
        (j.len ≤ j.done + n → ∀ x ∈ t.core.cpy, x.rank ≠ e.rank)) ∧
    (j.ssp = true → j.dsp = true → s.anyPoison = false → s.core.spad.wf = true → 0 < n →
      (j.src.toNat + j.done + n ≤ j.dst.toNat + j.done ∨ j.dst.toNat + j.done + n ≤ j.src.toNat + j.done) →
      ∃ t, exec (.copyChunkArrival s.core.num k) s = .next t ∧
        (∀ i, i < n → t.core.spad.get (j.dst.toNat + j.done + i) = s.core.spad.get (j.src.toNat + j.done + i)) ∧
        (∀ x, (x < j.dst.toNat + j.done ∨ j.dst.toNat + j.done + n ≤ x) → t.core.spad.get x = s.core.spad.get x) ∧
        t.dev.dram = s.dev.dram ∧ t.dev.host = s.dev.host)

/-- R292, R294, R340: a message that matches a started word: the bytes of a send leave for the receiver, those of a
receipt are written to its buffer, and the word is done; with every member's contribution a reduction writes the fixed
tree's result. -/
def Obligations.CollectivesComplete : Prop :=
  ∀ (s : State) (m : CollMsg) (e : QEntry) (j : Job), s.core.running → s.core.frozenColl = false → m.core = s.core.num →
    (s.core.matching m = some (e, j) → e.parked = false → m.len = j.len → m.failed = false →
      (∀ bs u, m.send = true → isSendAll e.word = false → readSpan ⟨false, j.src, j.len⟩ (s.withRun e) = .ok (bs, u) →
        ∃ t, exec (.collectiveMatch m) s = .next t ∧ t.dev.posted = u.dev.posted ++ [.sent m.core m.peer bs] ∧
          t.dev.dram = u.dev.dram ∧ (∀ x ∈ t.core.col, x.rank ≠ e.rank)) ∧
      (∀ u, m.send = false → m.data.length = m.len → writeSpan ⟨false, j.src, j.len⟩ m.data (s.withRun e) = .ok u →
        ∃ t, exec (.collectiveMatch m) s = .next t ∧ t.dev.dram = u.dev.dram ∧ t.dev.host = u.dev.host ∧
          (∀ x ∈ t.core.col, x.rank ≠ e.rank))) ∧
    (∀ parts chips bs u l w, s.core.credAt j.grp j.tag = some (e, j) →
      e.parked = false → s.members j.grp = some chips →
      readSpan ⟨false, j.src, j.len⟩ (s.withRun e) = .ok (bs, u) →
      credParts chips.length (u.rankIn chips) bs parts = some l → credAgree j parts = true →
      writeSpan ⟨false, j.dst, j.len⟩ (credTree j.op j.et l) u = .ok w →
      ∃ t, exec (.credJoin s.ctxId j.grp j.tag.toNat parts) s = .next t ∧ t.dev.dram = w.dev.dram ∧
        t.dev.host = w.dev.host ∧ (∀ x ∈ t.core.col, x.rank ≠ e.rank))

/-- R288, R289, R408: an append to a paged key-value cache. A watched byte of its ranges, the lowest, is cause 0x21. A position beyond the table sets bit 1 of vd and nothing else; an
append to a block that the table names and that is not shared writes the entry's bytes into its slot and sets bit 0. That exactly one
of the two bits ends set is the model's reading (log 19). -/
def Obligations.CpycAppends : Prop :=
  ∀ (s : State) (vd va : BitVec 5) (slot : BitVec 4),
    let c := s.core
    let a : Append := ⟨c.poolAt va, c.i64 va 3, c.i64 va 5, c.i64 va 6, (c.slot slot).toNat⟩
    let bits (c' : Core) (b0 b1 : Bool) := ((c'.vreg vd).row 0).getLsbD 0 = b0 ∧ ((c'.vreg vd).row 0).getLsbD 1 = b1
    s.core.poison = [] → s.anyPoison = false → a.pool.ok = true → (∀ e ∈ c.cpy, c.run.rank ≤ e.rank) → c.mode = .whole →
    (∀ w, c.watchedIn (a.spans s.unwatched) = some w → ∃ u, exec (.cpyc vd va slot) s =
      .next (takeTrap u ⟨.word c.run.rank, 0x21, BitVec.ofNat 64 w, BitVec.ofNat 64 w⟩)) ∧
    (c.watchedIn (a.spans s.unwatched) = none →
    (a.pool.nblk ≤ a.pos / 2 ^ a.pool.lt →
      ∃ t, exec (.cpyc vd va slot) s = .next t ∧ bits t.core false true ∧ t.dev = s.dev ∧
        (∀ x ∈ t.core.cpy, x.rank ≠ c.run.rank)) ∧
    (∀ e s1 s2, a.pos / 2 ^ a.pool.lt < a.pool.nblk → load s (.word c.run.rank) a.tableAt 8 0 = .ok (e, s1) →
      e.testBit 63 = true → e.testBit 62 = false → a.put (e % 2 ^ 32) s1 = .ok s2 →
      ∃ t, exec (.cpyc vd va slot) s = .next t ∧ bits t.core true false ∧ t.dev.dram = s2.dev.dram ∧
        t.dev.host = s2.dev.host ∧ (∀ x ∈ t.core.cpy, x.rank ≠ c.run.rank)))

/-! ## Words of the vector queue (spec/08) -/

/-- R213 to R227, R234, R272, Tables 8-3 to 8-5: an element-wise word that may run writes the table's value to each active
element that has not retired, and no other bit of any register; the register is dirty if an element was written; the word
retires, and nothing else changes. An element whose step its word had begun keeps the mask bit it read then (R139). -/
def Obligations.ElementWordsWriteTheirElements : Prop :=
  ∀ (s : State) (i : Instr) (x : VWrite), Ready s true → laneWrite s.core i = some x →
    firstBroken (laneLimits s.core i) = none →
    ∃ v d, Leaves s.core [x] v d ∧ exec i s = .next (s.withV v d).retired

/-- R226 to R242, R270, Tables 8-6 to 8-9: the same for the words that move data between the lanes of a row: counts, scans,
reductions, permutations, conversions with their overflow masks, slicing and compression. Where `VCPRS4` names one register as
vd and vc, the indices stand over the values: the spec gives no order, and it is the model's choice (log 43). -/
def Obligations.RowWordsWriteTheirRows : Prop :=
  ∀ (s : State) (i : Instr) (l : List VWrite), Ready s true → rowWrites s.core i = some l →
    firstBroken (rowLimits s.core i) = none →
    ∃ v d, Leaves s.core l v d ∧ exec i s = .next (s.withV v d).retired

/-- R39, R263, R268, R366, R368, R378, R419: where every compute word of the two statements before traps: with nothing written
at their first use (0x14), outside a region's bounds (code 9) and at the first limit of Table 20-4 that does not hold; and on
any spoiled operand that one of its elements consumes, or a spoiled mask bit (0x19, deferred), where the steps before it may
have retired. In an annulled region the word acts as one with `vl` = 0: its limits are those, and it has no effect and retires.
That `tval` is 0 for the causes 0x14 and 0x19, which give it no meaning, is the model's choice (log 42), and so is the
limit on `VCVT`'s overflow mask in `v0` under m = 1 (log 37). -/
def Obligations.ComputeWordsTrap : Prop :=
  ∀ (s : State) (i : Instr) (limits : Core → List (Nat × Bool)) (takes : Option Consumes) (l : List VWrite),
    s.core.mode = .whole →
    ((∃ x, laneWrite s.core i = some x ∧ l = [x]) ∧ limits = (laneLimits · i) ∧ takes = laneConsumes s.core i ∨
      rowWrites s.core i = some l ∧ limits = (rowLimits · i) ∧ takes = rowConsumes s.core i) →
    (∀ cause, firstUse s.core.run = some cause →
      exec i s = .next (takeTrap s ⟨.word s.core.run.rank, cause, 0, 0⟩)) ∧
    (firstUse s.core.run = none → ∀ r, s.core.region = some r →
      (48 ≤ r.words + s.core.ownPos ∨ s.core.run.vl ≠ r.vl ∨ s.core.run.rc ≠ r.rc) → limited s 9 (exec i s)) ∧
    (Ready s true → ∀ k, firstBroken (limits s.core) = some k → limited s k (exec i s)) ∧
    (firstUse s.core.run = none → s.core.region = none → firstBroken (limits s.core) = none → s.core.run.rc.toNat ≤ 16 →
      (∀ g, g < 4 → 512 ≤ s.core.hi.getD g 0 ∧ countNow s.core g = 0) → ∀ k v row eg, takes = some k →
      k.takes s.core v row eg → .reg v row eg ∈ s.core.poison →
      ∃ u, exec i s = .next (takeTrap u ⟨.deferred s.core.run.rank, 0x19, 0, 0⟩) ∧ u.dev = s.dev ∧
        u.core.vec = s.core.vec ∧ ∀ r : BitVec 5, (∀ x ∈ l, r.toNat ≠ x.reg) → u.core.v[r.toNat] = s.core.v[r.toNat]) ∧
    (∀ r, s.core.region = some r → r.annulled = true → firstUse s.core.run = none → r.words + s.core.ownPos < 48 →
      s.core.run.vl = r.vl → s.core.run.rc = r.rc → let none_ := { s.core with run := { s.core.run with vl := 0 } }
      (∀ k, firstBroken (limits none_) = some k → limited s k (exec i s)) ∧
      (firstBroken (limits none_) = none → s.core.wrote = [] → exec i s = .next s.retired))

/-! ## Memory words of the vector queue (spec/09) -/

/-- R243, R250 to R256, R265, R143: a vector load that may run gives each active element that is left the value at its
address (or that it has read there ahead of its step), zero to an element whose access it suppresses, and records the first
of those; the stream moves, `CM` has tracked an indexed word, the word has acquired what its order says and retires; nothing else
changes. While a watermark does not
cover an element, or an older copy has not delivered it (R106), the word as a whole does not retire. The last clause is
`StreamAddr` by its digits. -/
def Obligations.VectorLoadsFillElements : Prop :=
  (∀ (s : State) (i : Instr) (k : MemKind) (pl : Elem → Place) (bad : Elem → Option Nat), loadWord i = some k →
    Ready s k.inRegion → (k.indexed = true → s.core.cmFree) →
    let c := s.core
    let o := k.args
    let limits := memLimitsOf c o k.indexed false (typeIn 3) [o.vd.toNat] (recordFits c i)
    (∀ code, firstBroken limits = some code → limited s code (exec i s)) ∧
    (firstBroken limits = none → (o.we = true → ∀ g, s.gang = some g → g.unbound o.wm.toNat false = false) →
      (∀ r, c.region = some r → r.held = []) →
      let els := elementsOf c o k.indexed (leftOf c k)
      let now := if k.byRow then els else doneOf els
      let go := (doneOf els).filter fun el => (bad el).isNone
      (k.suppresses = false → ∀ el, bad el = none) → Stand s o .read (now.filter fun el => (bad el).isNone) pl →
      (∀ el ∈ now, ∀ why, bad el = some why → FailsAt s o el why) →
      (go.all (fun el => !awaited s i o el) = true →
        let t := s.acquired o (go.filter fun el => (readBefore c el).isNone)
        ∃ v d cm, Leaves t.core
            [elementWrite c o els fun el =>
              if (bad el).isNone then (readBefore c el).getD (valueAt s o.et el (pl el)) else 0] v d ∧
          TracksElements (doneOf els) cm ∧
          exec i s = .next (State.retired { t with core := (((((t.withV v d).core.tracked k.indexed cm).withSuppressed
            ((doneOf els).findSome? fun el => (bad el).map fun why => (el, why))).countSupp
              ((doneOf els).countP fun el => (bad el).isSome)).streamOn o (c.run.rc.toNat * c.run.vl.toNat)) })) ∧
      (go.any (awaited s i o) = true → ∃ t, exec i s = .next t ∧ t.core.why = some .hold ∧ t.core.v = c.v ∧
        t.core.q = c.q ∧ t.dev = s.dev ∧ t.core.vec.map QEntry.rank = c.vec.map QEntry.rank))) ∧
  ∀ (r : Shape) (l : Nat), shapeValid r = true → r[1] ≠ 0 → shapeEt r ≠ .f4 → streamAddr r l = (addressOf r l, false)

/-- R128, R250 to R254, R134: a vector store outside a region writes each active element that is left at its address, an
`f4` element into its nibble, and no other bit of memory; the stream moves, `CM` has tracked an indexed word, and the word
retires. A release holds until the copies and collectives before it are done. -/
def Obligations.VectorStoresWriteMemory : Prop :=
  ∀ (s : State) (i : Instr) (k : MemKind) (pl : Elem → Place), storeWord i = some k → Ready s k.inRegion →
    s.core.region = none → (k.indexed = true → s.core.cmFree) →
    let c := s.core
    let o := k.args
    let limits := memLimitsOf c o k.indexed true (typeIn 3) [] (recordFits c i)
    let els := doneOf (elementsOf c o k.indexed (leftOf c k))
    (∀ code, firstBroken limits = some code → limited s code (exec i s)) ∧
    (firstBroken limits = none → Stand s o .write els pl → (els.map fun el => (pl el, el.high)).Nodup →
      s.dev.dram.wf = true → s.dev.host.wf = true → c.spad.wf = true →
      (o.ord.getLsbD 1 = false ∨ c.enginesQuiet o.sc = true →
        ∃ m0 m1 m2 cm, let t := s.withMemory m0 m1 m2
          Written s t o.et els pl (fun el => elemAt c o.va o.et.width el.row el.e) ∧ TracksElements els cm ∧
          exec i s = .next (State.retired { t with
            free := s.free + 1
            core := { (t.core.tracked k.indexed cm).streamOn o (c.run.rc.toNat * c.run.vl.toNat) with
              stps := stpsAfter c i o } })) ∧
      (o.ord.getLsbD 1 = true → c.enginesQuiet o.sc = false → ∃ t, exec i s = .next t ∧ t.core.why = some .hold ∧
        t.core.v = c.v ∧ t.core.spad = c.spad ∧ t.dev = s.dev))

/-- R258, Table 9-4: each active element of a vector atomic gives vd the old value and its place the operation's result.
R259, R260, R384: a key of `VHACC` takes the first of 16 slots that holds it or is empty, and accumulates; without one its
bit of vd is 1 and HOVF is set, which with HTE set is cause 0x13 (that its `tval` is 0 is the model's choice, log 42). R120 to R123, R257, R261: `VXLT` gives a mapped token its
address and the others a bit of vc; `vxltff` stops at the first that is not mapped, and trims the younger words; one that has stopped in a row that retired before
gives the rows left no address. -/
def Obligations.AtomicsHashesAndTranslations : Prop :=
  (∀ (s : State) (i : Instr) (o : MemArgs) (ok : EType → Bool) (f : Nat → Nat → Nat) (pl : Elem → Place),
    atomicValue i = some (o, ok, f) → Ready s false → s.core.cmFree →
    let c := s.core
    let els := elementsOf c o true (stepLeft c o.et.width)
    firstBroken (memLimitsOf c o true true ok [o.vd.toNat] true) = none → Stand s o .atomic (doneOf els) pl →
    ((doneOf els).map pl).Nodup → s.dev.dram.wf = true → s.dev.host.wf = true → c.spad.wf = true →
    (o.ord.getLsbD 1 = true → c.enginesQuiet o.sc = true) → (shapeSp (c.shapeOf o) = true ∨ s.checksScope 2 = false) →
    ∃ m0 m1 m2 cm v d, let t := s.withMemory m0 m1 m2
      Written s t o.et (doneOf els) pl (fun el => f (valueAt s o.et el (pl el)) (elemAt c o.va o.et.width el.row el.e)) ∧
      Leaves c [elementWrite c o els fun el => valueAt s o.et el (pl el)] v d ∧ TracksElements (doneOf els) cm ∧
      exec i s = .next (State.retired { t with
        free := s.free + 1, core := ((t.withV v d).core.acquiredAt o.ord o.sc).tracked true cm })) ∧
  (∀ (s : State) (o : MemArgs), Ready s false → s.core.cmFree → firstBroken (hashLimitsOf s.core o) = none →
    let c := s.core
    let els := elementsOf c o true (stepLeft c 32)
    let ends (spad : Memory) (v : Vector VReg 32) (d : Word) (cm : VReg) (hovf : Bool) : State := State.retired { s with
      core := { c with spad := spad, v := v, vdirty := d, cm := cm, cntLive := true
                       cmv := (c.cmv &&& ~~~0x3F01#64) ||| (if hovf then 2 else 0) } }
    (c.hte = false → ∃ spad v d cm h, exec (.vhacc o) s = .next (ends spad v d cm h)) ∧
    ∀ el, els = [el] → el.on = true → c.spad.wf = true →
      let key := elemAt c o.vb 32 el.row el.e
      let x := elemAt c o.va 32 el.row el.e
      let bit (b : Bool) : VWrite := { reg := o.vd.toNat, w := 1, rows := 16, n := 16384
                                       on := fun r e => r == el.row && e == el.e
                                       val := fun _ _ => b.toNat }
      (key = 0xFFFFFFFF → ∃ cm d, (∀ i, d.getLsbD i = true ↔ c.vdirty.getLsbD i = true ∨ i = o.vd.toNat) ∧
        exec (.vhacc o) s = .next (ends c.spad c.v d cm false)) ∧
      (∀ j, key ≠ 0xFFFFFFFF → foundAt c o key = some j →
        let a := slotOf c o key j
        let new := if c.spad.num 4 a = key then
            (if o.et = .f32 then fadd .f32 .rne (c.spad.num 4 (a + 4)) x else (c.spad.num 4 (a + 4) + x) % 2 ^ 32)
          else x
        ∃ spad v d cm, StoredAs c.spad spad a 8 (key + new * 2 ^ 32) ∧ Leaves c [bit false] v d ∧
          exec (.vhacc o) s = .next (ends spad v d cm false)) ∧
      (key ≠ 0xFFFFFFFF → foundAt c o key = none → ∃ v d cm, Leaves c [bit true] v d ∧
        (c.hte = false → exec (.vhacc o) s = .next (ends c.spad v d cm true)) ∧
        (c.hte = true → ∃ u, exec (.vhacc o) s = .next (takeTrap u ⟨.word c.run.rank, 0x13, 0, 0⟩) ∧ u.core.v = v ∧
          u.core.cmv.getLsbD 1 = true ∧ u.core.cmv.getLsbD 0 = true ∧ u.core.vec = c.vec ∧ u.dev = s.dev))) ∧
  ∀ (s : State) (o : MemArgs) (entry : Nat → Nat → Nat), Ready s false → firstBroken (xltLimitsOf s.core o) = none →
    let c := s.core
    let tok (r e : Nat) := elemAt c o.vb 64 r e
    let block (r e : Nat) := tok r e / 2 ^ (elemAt c o.va 64 0 2 % 32)
    let listed (r e : Nat) := block r e < elemAt c o.va 64 0 4 % 2 ^ 32
    let mapped (r e : Nat) : Bool := decide (listed r e) && (entry r e).testBit 63
    (∀ r e, r < c.run.rc.toNat → e ∈ activesOf c o.m r → listed r e →
      s.refusedPage (.word c.run.rank) (entryAddr c o (tok r e)) = false ∧
      ∀ spec, ∃ a attr, probe s (entryAddr c o (tok r e)) 8 .read spec = .ok (.dram a, attr, s) ∧
        entry r e = s.dev.dram.num 8 a) →
    let writes (upTo_ : Nat) : List VWrite :=
      let goes (r e : Nat) : Bool := mapped r e && decide (r * c.run.vl.toNat + e < upTo_)
      [rowsOf c 64 o.vd (fun r e => activeAt c o.m r e && goes r e) (fun r e => (tokenAddr c o (entry r e) (tok r e)).toNat),
        rowsOf c 1 o.vc (activeAt c o.m) fun r e => (!goes r e).toNat]
    let all := c.run.rc.toNat * c.run.vl.toNat
    (∃ v d, Leaves c (writes all) v d ∧
      exec (.vxlt o) s = .next (State.retired { s with core := (s.withV v d).core.acquiredAt o.ord o.sc })) ∧
    ((∃ stop, c.xltStopped = some stop ∧ rowLeft c stop.1 = false) → ∃ v d, Leaves c (writes 0) v d ∧
      exec (.vxltff o) s = .next (State.retired { s with core := (s.withV v d).core.acquiredAt o.ord o.sc })) ∧
    (c.xltStopped = none → (∀ r e, r < c.run.rc.toNat → e ∈ activesOf c o.m r → mapped r e = true) →
      ∃ v d, Leaves c (writes all) v d ∧
        exec (.vxltff o) s = .next (State.retired { s with core := (s.withV v d).core.acquiredAt o.ord o.sc })) ∧
    ∀ r e, c.xltStopped = none → r < c.run.rc.toNat → e ∈ activesOf c o.m r → mapped r e = false → rowLeft c r = true →
      (∀ r' e', r' < c.run.rc.toNat → e' ∈ activesOf c o.m r' → r' * c.run.vl.toNat + e' < r * c.run.vl.toNat + e →
        mapped r' e' = true) →
      ∃ v d, Leaves c (writes (r * c.run.vl.toNat + e)) v d ∧
        exec (.vxltff o) s = .next (State.retired { s with core :=
          (((s.withV v d).core.acquiredAt o.ord o.sc).withSuppressed
            (some (⟨r, e, 0, 0, false, 0, true⟩, 1))).trimYounger })

/-! ## Streams, regions, tables, fences, markers, the audit log (spec/09, spec/10) -/

/-- R244 to R247, R257, R262, R299 to R303: what the words of the vector queue without element effects do: they open, move,
close and save streams, open regions, trim, load and read remap tables, fence, mark, and append to the audit log, which
holds while it has no room; then they retire. An invalid record, a closed stream and a bad remap configuration are operand
limits. That `VMARK`'s immediate is zero-extended is the model's reading (log 43). -/
def Obligations.PlainVectorWords : Prop :=
  ∀ (s : State) (b : Bool) (q : BitVec 4) (va vd : BitVec 5), Ready s false →
    let c := s.core
    let ends (c' : Core) : Result := .next (State.retired { s with core := c' })
    let r := recordAt c va
    (shapeValid r = true → exec (.sopen b (.reg va) q) s = ends (c.streamSet q r 0) ∧
      exec (.sopenp b va q) s = ends (c.streamSet q r (BitVec.ofNat 64 (elemAt c va 64 0 10)))) ∧
    (shapeValid r = false → limited s 8 (exec (.sopen b (.reg va) q) s) ∧ limited s 8 (exec (.sopenp b va q) s)) ∧
    (∀ (n : BitVec 4) (a : Nat → Nat) (x : Shape),
      let at_ := c.run.slots[n.toNat]
      (at_.toNat % 8 = 0 → (∀ k, k < 10 → s.refusedPage (.word c.run.rank) (at_ + BitVec.ofNat 64 (8 * k)) = false ∧
          ∃ attr, probe s (at_ + BitVec.ofNat 64 (8 * k)) 8 .read false = .ok (.dram (a k), attr, s)) → (∀ k : Fin 10, x[k] = s.dev.dram.word (a k)) → shapeValid x = true →
        exec (.sopen b (.slot n) q) s = ends (c.streamSet q x 0)) ∧
      (at_.toNat % 8 ≠ 0 → ∃ u, exec (.sopen b (.slot n) q) s =
        .next (takeTrap u ⟨.word c.run.rank, 0x06, at_, at_⟩) ∧ u.core.q = c.q ∧ u.core.v = c.v ∧ u.dev = s.dev)) ∧
    (∀ src, ((c.q[q.toNat]).shape.isSome = true → exec (.sadv b q src) s =
        ends { c with q := c.q.set q.toNat { c.q[q.toNat] with pos := c.q[q.toNat].pos + advanceOf c src }
                      vdirty := c.vdirty ||| BitVec.ofNat 64 (2 ^ (37 + q.toNat)) }) ∧
      ((c.q[q.toNat]).shape = none → limited s 8 (exec (.sadv b q src) s))) ∧
    exec (.sclose b q) s = ends { c with q := c.q.set q.toNat ⟨none, 0⟩ } ∧
    (∃ v d, Leaves c [savedStream c vd q] v d ∧ exec (.ssave b vd q) s = ends (s.withV v d).core) ∧
    exec (.vspec b) s = ends { c with brk := c.brk ||| 1, brkp := c.run.prov, region := some (regionFor c (c.brk.getLsbD 1)) } ∧
    exec (.vspecf b) s = ends { c with brk := 1, brkp := c.run.prov, region := some (regionFor c false) } ∧
    exec (.vfftrim b) s = ends (if c.ffs.getLsbD 23 then c.trimmed else c) ∧
    (∀ ix : BitVec 2,
      let x : Remap := ⟨BitVec.ofNat 64 (elemAt c va 64 0 0), 0⟩
      (x.ok = true → ∃ tb, (x.cfg.extractLsb' 0 2 = 2 → ∀ k, k < 4096 →
          (tb.extractLsb' (32 * k) 32).toNat = elemAt c va 32 (1 + k / 512) (k % 512)) ∧
        (x.cfg.extractLsb' 0 2 ≠ 2 → tb = (c.ix[ix.toNat]).table) ∧
        exec (.vsett b va ix) s = ends { c with ix := c.ix.set ix.toNat ⟨x.cfg, tb⟩ }) ∧
      (x.ok = false → limited s 16 (exec (.vsett b va ix) s)) ∧
      ∃ v d, Leaves c (gotTable c vd ix) v d ∧ exec (.vgett b vd ix) s = ends (s.withV v d).core) ∧
    (∀ sc, exec (.vfenceAcq b sc) s = ends (c.acquiredAt 1 sc) ∧ exec (.vfenceFull b sc) s = ends (c.acquiredAt 1 sc) ∧
      exec (.vfenceRel b sc) s = .next s.retired) ∧
    (∀ n : BitVec 4, exec (.vmark b (.slot n)) s =
      .next (State.retired (s.trace 1 1 c.run.pc c.run.prov (c.run.slots[n.toNat]) 0))) ∧
    (∀ i : BitVec 16, exec (.vmark b (.imm i)) s =
      .next (State.retired (s.trace 1 1 c.run.pc c.run.prov (i.setWidth 64) 0))) ∧
    ∀ (o : AudArgs) (x : Ctx), typeIn 3 o.et = true → c.run.vl.toNat ≤ Min.min 256 (16384 / o.et.width) →
      s.dev.ctx s.ctxId = some x →
      (s.dev.audRoom x = false → Holds s (exec (.audlog o) s)) ∧
      (s.dev.audRoom x = true →
        let n := ((List.range c.run.rc.toNat).map fun r => (activesOf c o.m r).length).sum
        exec (.audlog o) s = .next (State.retired { s with
          free := s.free + 1
          dev := s.dev.auditPush s.ctxId (sha3 (auditMessage c o) ++ wordBytes (c.run.slots[o.slot.toNat]) ++
            wordBytes c.run.prov ++ wordBytes (auditWho c n) ++ wordBytes (Config.stampCycles s.free ++ c.stampSeq)) }))

/-- R146, R262 to R271: the words that a region turns on. `VEXIT` performs the held elements before the first that is not
completed, sets `brk` and `ffs`, and closes the region, which without a region is a limit with code 9; in an annulled one it
only closes it. `VSTH` in a region holds its elements; the fifth is cause 0x10. `VPART` keeps the elements of `v0` whose
bit of va is 0, and says in `brk` whether any is left. That `VEXIT` writes `ffs` whenever its element was suppressed, V = 1 or not,
and that a fifth `VSTH` counts as it does, are the model's readings (log 36). -/
def Obligations.RegionsHoldAndResolve : Prop :=
  ∀ (s : State) (o : MaskArgs) (i : Instr) (inclusive : Bool),
    (i = .vexitb o ∧ inclusive = false ∨ i = .vexiti o ∧ inclusive = true) →
    let c := s.core
    (Ready s true → c.run.vl.toNat ≤ rowLimit c.run.vtype →
      (c.region = none → limited s 9 (exec i s)) ∧
      ∀ r, c.region = some r →
        let hs := r.held.filter fun h => h.lin < exitBound c o inclusive r
        (∀ h ∈ r.held, heldSized h) → (∀ h ∈ hs, heldOwned s h) → heldApart hs → s.dev.dram.wf = true → s.dev.host.wf = true → c.spad.wf = true →
        ∃ m0 m1 m2, let t := s.withMemory m0 m1 m2
          Performed s t hs ∧
          exec i s = .next (State.retired { t with core := { exitState c o inclusive r with spad := m2 } })) ∧
    (∀ r, c.region = some r → r.annulled = true → c.mode = .whole → firstUse c.run = none →
      s.anyPoison = false → c.wrote = [] → 512 ≤ c.hi.getD 0 0 → r.words + c.ownPos < 48 → c.run.vl = r.vl → c.run.rc = r.rc →
      exec i s = .next (State.retired { s with core := { c with brk := c.brk &&& ~~~1#64, brkp := 0, region := none } })) ∧
    (∀ (a : MemArgs) (r : Region) (pl : Elem → Place), Ready s true → c.region = some r →
      firstBroken (memLimitsOf c a false true (typeIn 3) [] true) = none →
      let els := doneOf (elementsOf c a false (stepLeft c a.et.width))
      let n := r.retired.countP fun e => opOf e.word == 0x51
      (4 ≤ n → exec (.vsth a) s = .next (takeTrap s ⟨.word c.run.rank, 0x10, BitVec.ofNat 64 (n + 1), 0⟩)) ∧
      (n < 4 → Stand s a .write els pl → (els.map fun el => (pl el, el.high)).Nodup →
        exec (.vsth a) s = .next (State.retired { s with
          free := s.free + 1
          core := ({ c with region := some { r with held := r.held ++ els.map fun el =>
              ⟨c.run.rank, el.lin, el.addr, pl el, a.et.width, el.high, elemAt c a.va a.et.width el.row el.e⟩ } } :
            Core).streamOn a (c.run.rc.toNat * c.run.vl.toNat) }))) ∧
    (Ready s false → c.run.vl.toNat ≤ rowLimit c.run.vtype →
      ∃ v d, Leaves c [laneElems c false (stripWidth c) 1 o.vd fun r e => (bitAt c 0 r e && !bitAt c o.va r e).toNat] v d ∧
        let empty := ∀ r e, r < c.run.rc.toNat → e < c.run.vl.toNat → ((v[o.vd.toNat]).row r).getLsbD e = false
        (empty → exec (.vpart o) s = .next (State.retired { s with core := { (s.withV v d).core with
          brk := (c.brk &&& ~~~0x1FFFFE#64) ||| 2 } })) ∧
        (¬ empty → exec (.vpart o) s = .next (State.retired { s with core := { (s.withV v d).core with
          brk := c.brk &&& ~~~0x1FFFFE#64 } })))

/-! ## Words of the matrix queue (spec/10, spec/11) -/

/-- R273 to R282, R80, R81: the tile words that may run leave the windows, tiles and registers that the tables say and
nothing else, and complete: windows are set and read, tiles zeroed, each product element is the blockwise sum behind its old
value, windows are read with or without zeroing, written or added to, and `MSYNC` sets its bit. A limit of Table 20-4 that
does not hold stops the word. That `tval` is 0 for cause 0x15 is the model's choice (log 42), and so is which of two values
with one index `MMAS` takes (log 75). -/
def Obligations.MatrixWords : Prop :=
  (∀ (s : State) (i : Instr) (cause : BitVec 8), s.core.mode = .whole → (productOf s.core i).isSome = true →
    firstUse s.core.run = some cause → exec i s = .next (takeTrap s ⟨.word s.core.run.rank, cause, 0, 0⟩)) ∧
  ∀ (s : State), MatReady s →
    let c := s.core
    let ends (c' : Core) : Result := .next (State.completed { s with core := c' })
    let tileBit (t : BitVec 2) (p : Prop) (i : Nat) : Prop := i = 32 + t.toNat ∧ p
    (∀ t row0 col0, ∃ d, DirtyAfter c d (tileBit t True) ∧
      exec (.mshape t row0 col0) s = ends { c with wins := c.wins.set t.toNat ⟨row0, col0⟩, vdirty := d }) ∧
    (∀ vd t, ∃ v d, Leaves c [{ reg := vd.toNat, w := 64, rows := 1, n := 1, on := fun _ _ => true
                                val := fun _ _ => winRow c t + 65536 * winCol c t }] v d ∧
      exec (.mshapeg vd t) s = ends (s.withV v d).core) ∧
    (∀ t, ∃ tiles d, DirtyAfter c d (tileBit t True) ∧
      (∀ (u : BitVec 2) row col, row < 16 → col < 2048 →
        tileAt tiles[u.toNat] row col = if u = t then 0 else tileAt c.tiles[u.toNat] row col) ∧
      exec (.mzero t) s = ends { c with tiles := tiles, vdirty := d }) ∧
    (∀ i p, productOf c i = some p →
      (∀ k, firstBroken (productLimits c i) = some k → limited s k (exec i s)) ∧
      (firstBroken (productLimits c i) = none → ∃ tiles d,
        TilesAfter c p.tile (fun _ _ => true)
          (fun i n => dot p.k (p.prod i n) (p.scale n) (windowAt c p.tile i n)) tiles ∧
        DirtyAfter c d (tileBit p.tile (someIn c fun _ _ => true)) ∧
        exec i s = ends { c with tiles := tiles, vdirty := d })) ∧
    (∀ o : TileRead,
      (∀ k, firstBroken (tileReadLimits c o) = some k → limited s k (exec (.mrd o) s) ∧ limited s k (exec (.mrdz o) s)) ∧
      (firstBroken (tileReadLimits c o) = none → ∃ v d, Leaves c (tileReadWrites c o) v d ∧
        exec (.mrd o) s = ends (s.withV v d).core ∧
        ∃ tiles d', TilesAfter c o.t (activeAt c o.m) (fun _ _ => 0) tiles ∧
          DirtyAfter (s.withV v d).core d' (tileBit o.t (someIn c (activeAt c o.m))) ∧
          exec (.mrdz o) s = ends { c with v := v, tiles := tiles, vdirty := d' })) ∧
    (∀ (o : TileWrite) (i : Instr) (add : Bool), (i = .mwr o ∧ add = false ∨ i = .mwra o ∧ add = true) →
      (∀ k, firstBroken (tileWriteLimits c o) = some k → limited s k (exec i s)) ∧
      (firstBroken (tileWriteLimits c o) = none → ∃ tiles d,
        TilesAfter c o.t (activeAt c o.m) (tileWriteValue c o add) tiles ∧
        DirtyAfter c d (tileBit o.t (someIn c (activeAt c o.m))) ∧
        exec i s = ends { c with tiles := tiles, vdirty := d })) ∧
    ∀ (vd : BitVec 5) (p : BitVec 18), ∃ v d,
      Leaves c [{ reg := vd.toNat, w := 1, rows := 16, n := 16384, on := fun r e => r * 16384 + e == p.toNat
                  val := fun _ _ => 1 }] v d ∧
      exec (.msync vd p) s = ends (s.withV v d).core

/-- R304 to R313, R416: a projection that may run folds each row of logits into the heap, the normaliser and the label of
that row, zeroes the window and completes; in threshold mode a strip that leaves no place to an entry which the row held, and
which reaches its threshold, is cause 0x11, which leaves only SPL (that these are the entries pushed out of a full row is the
model's reading, log 18). `vprojb` writes the gradient. The other words read, merge and restore the
Press, and what `vheaprd` and `vpstrd` have read, `vpstwr` restores; `vheaprd` with one register as vd and vc leaves the ids
there (log 43), and a label of an image is valid when its field is not 0 (log 75). -/
def Obligations.PressWords : Prop :=
  ∀ (s : State), MatReady s →
    let c := s.core
    let ends (c' : Core) : Result := .next (State.completed { s with core := c' })
    let press (c : Core) (d : Word) : Prop := DirtyAfter c d fun i => i = 36
    (∀ i m n t p0 ok, projection c i = some (m, n, t, p0, ok) →
      let w := c.run.slots[n.toNat]
      let base := (w.extractLsb' 0 32).toNat
      let logit (i n : Nat) : Nat := f32Mul (windowAt c t i n) (w.extractLsb' 32 32).toNat
      let admitted (i n : Nat) : Bool := activeAt c m i n && !(fval .f32 (logit i n)).isNan &&
        (!p0.pstat.getLsbD 29 || match (fval .f32 (logit i n)).cmp (fval .f32 (p0.tau.getD i 0).toNat) with
          | some .gt | some .eq => true
          | _ => false)
      let r := projectRows c m t w p0
      (firstBroken [(11, ok), (11, decide (base + c.run.vl.toNat ≤ 0xFFFFFFFF)), (10, windowFits c t)] = none →
        (∀ row n, row < c.run.rc.toNat → r.2 = some (row, n) →
          exec i s = .next (takeTrap { s with core := { c with press := { c.press with
              pstat := c.press.pstat ||| 0x40000000 } } }
            ⟨.word c.run.rank, 0x11, BitVec.ofNat 64 (row + n % 2 ^ 32 * 2 ^ 32), 0⟩)) ∧
        (r.2 = none → ∃ tiles d, TilesAfter c t (fun _ _ => true) (fun _ _ => 0) tiles ∧
          DirtyAfter c d (fun i => i = 36 ∨ i = 32 + t.toNat ∧ someIn c fun _ _ => true) ∧
          exec i s = ends { c with press := r.1.settle, tiles := tiles, vdirty := d }) ∧
        (p0.pstat.getLsbD 29 = false → r.2 = none) ∧
        (let lost (row : Nat) := ((p0.heap.getD row []).filter fun e => e.id != 0xFFFFFFFF).diff (r.1.heap.getD row [])
         let reaches (row : Nat) (e : HeapEntry) : Prop :=
           (fval .f32 e.val.toNat).cmp (fval .f32 (p0.tau.getD row 0).toNat) ∈ [some .gt, some .eq]
         (∀ row n, r.2 = some (row, n) → row < c.run.rc.toNat ∧ ∃ e ∈ lost row, reaches row e) ∧
         (p0.pstat.getLsbD 29 = true → r.2 = none → ∀ row, row < c.run.rc.toNat → row < p0.heap.length →
           ∀ e ∈ lost row, ¬ reaches row e)) ∧
        ∀ row, row < c.run.rc.toNat → row < p0.heap.length →
          r.1.heap.getD row [] = topK p0.k (p0.heap.getD row [] ++
            ((List.range c.run.vl.toNat).filter (admitted row)).map fun n =>
              ⟨BitVec.ofNat 32 (logit row n), BitVec.ofNat 32 (base + n)⟩) ∧
          ∀ n, n < c.run.vl.toNat → activeAt c m row n = true → (p0.label.getD row ⟨0, 0, false⟩).id.toNat = base + n →
            r.1.label.getD row ⟨0, 0, false⟩ = ⟨BitVec.ofNat 32 (base + n), BitVec.ofNat 32 (logit row n), true⟩) ∧
      ∀ k, firstBroken [(11, ok), (11, decide (base + c.run.vl.toNat ≤ 0xFFFFFFFF)), (10, windowFits c t)] = some k →
        limited s k (exec i s)) ∧
    (∀ m vd (n : BitVec 4) t, let w := c.run.slots[n.toNat]
      let value (i e : Nat) : Nat :=
        let lab := c.press.label.getD i ⟨0, 0, false⟩
        let l := f32Mul (windowAt c t i e) (w.extractLsb' 32 32).toNat
        let g := fdiv .f32 .rne (exp2Exact (f32Sub l (imageAt c.press i 0))) (imageAt c.press i 1)
        if decide (i ≤ (c.press.pstat.extractLsb' 25 4).toNat) && lab.valid && lab.id.toNat == (w.extractLsb' 0 32).toNat + e then f32Sub g 0x3F800000 else g
      (∀ k, firstBroken [(2, decide (c.run.vl.toNat ≤ 512)), (10, windowFits c t)] = some k →
        limited s k (exec (.vprojb m vd n t) s)) ∧
      (c.run.vl.toNat ≤ 512 → windowFits c t = true → ∃ v d tiles d',
        Leaves c [{ reg := vd.toNat, w := 32, rows := c.run.rc.toNat, n := c.run.vl.toNat, on := activeAt c m
                    val := value }] v d ∧
        TilesAfter c t (fun _ _ => true) (fun _ _ => 0) tiles ∧
        DirtyAfter (s.withV v d).core d' (fun i => i = 32 + t.toNat ∧ someIn c fun _ _ => true) ∧
        exec (.vprojb m vd n t) s = ends { c with v := v, tiles := tiles, vdirty := d' })) ∧
    (c.press.Fits → ∀ vd vc : BitVec 5, ∃ v d,
      Leaves c [heapWrite c.press vd HeapEntry.val, heapWrite c.press vc HeapEntry.id] v d ∧
      exec (.vheaprd vd vc) s = ends (s.withV v d).core) ∧
    (∀ vd : BitVec 5, ∃ v d, Leaves c [{ reg := vd.toNat, w := 32, rows := 16, n := 8, on := fun _ _ => true
                                         val := imageAt c.press }] v d ∧
      exec (.vpstrd vd) s = ends (s.withV v d).core) ∧
    (∀ va vb vc : BitVec 5, ∃ d, press c d ∧
      let merged := c.press.heap.mapIdx fun i r =>
        topK c.press.k (r ++ (entriesAt c va vb i c.press.k).filter fun e => e.id != 0xFFFFFFFF)
      exec (.vhmerge va vb) s = ends { c with press := { c.press with heap := merged }.settle, vdirty := d } ∧
      ∀ p : Press, p.heap = merged → p.tau = c.press.tau → p.k = c.press.k → p.pstat = c.press.pstat →
        (∀ i, i < 16 →
          (imageAt p i 0, imageAt p i 1) =
            rescalePair (imageAt c.press i 0, imageAt c.press i 1) (elemAt c vc 32 i 0, elemAt c vc 32 i 1) ∧
          p.label.getD i ⟨0, 0, false⟩ =
            if elemAt c vc 32 i 5 ≠ 0 ∧ imageAt c.press i 5 = 0 then
              ⟨BitVec.ofNat 32 (elemAt c vc 32 i 4), BitVec.ofNat 32 (elemAt c vc 32 i 2), true⟩
            else c.press.label.getD i ⟨0, 0, false⟩) →
        exec (.vhmergen va vb vc) s = ends { c with press := p.settle, vdirty := d }) ∧
    ∀ va vb vc : BitVec 5, ∃ d, press c d ∧
      let k := elemAt c vc 32 0 6
      let h := elemAt c vc 32 0 7 / 2 ^ 25 % 16 + 1
      (¬ (1 ≤ k ∧ k ≤ 256 ∧ h * k ≤ 256) → limited s 11 (exec (.vpstwr va vb vc) s)) ∧
      (1 ≤ k ∧ k ≤ 256 ∧ h * k ≤ 256 → ∃ p : Press, p.k = k ∧ p.pstat = BitVec.ofNat 64 (elemAt c vc 32 0 7) ∧
        p.heap = (List.range h).map (fun i => topK k (entriesAt c va vb i k)) ∧
        (∀ i e, i < 16 → e < 5 → imageAt p i e = elemAt c vc 32 i e) ∧
        (∀ i, i < 16 → (imageAt p i 5 = 0 ↔ elemAt c vc 32 i 5 = 0)) ∧
        exec (.vpstwr va vb vc) s = ends { c with press := p, vdirty := d }) ∧
      ∀ p : Press, p.Fits → (∀ i, i < p.heap.length → entriesAt c va vb i p.k = p.heap.getD i []) →
        (∀ i e, i < 16 → e < 8 → elemAt c vc 32 i e = imageAt p i e) →
        exec (.vpstwr va vb vc) s = ends { c with press := p, vdirty := d }

/-- R315 to R317, R85, R349: a draw that may run writes to each row the chosen candidate's identity, its index and the
uniform number, traces it, and completes. R318 to R322, R13: the words of the Darner compose maps, name the constant prefixes
and map the liveness of states onto tokens; each retires whole. Limits of Table 20-4 that do not hold stop a word; that a type
which a word's rules do not allow is code 1 is the model's reading (log 34). -/
def Obligations.DrawAndDarnerWords : Prop :=
  (∀ (s : State) (i : Instr) (m : Bool) (vd va vb : BitVec 5) (et : EType) (slot : Option (BitVec 4)) (nrm : Bool),
    MatReady s → drawOf i = some (m, vd, va, vb, et, slot, nrm) →
    let c := s.core
    let limits := [(1, typeIn 2 et), (2, decide (c.run.vl.toNat ≤ 512)),
      (11, (slot.map fun n => decide (n.toNat + c.run.rc.toNat ≤ 16)).getD true)]
    let pick (r : Nat) : Option Nat := choose ((activesOf c m r).map fun e => (e, elemAt c va 32 r e))
      (if nrm then some (imageAt c.press r 0, imageAt c.press r 1) else none) (uniformAt c slot r)
    let ident (r : Nat) : Nat := ((pick r).map fun e => elemAt c vb 32 r e).getD 0xFFFFFFFF
    let index (r : Nat) : Nat := (pick r).getD c.run.vl.toNat
    (∀ k, firstBroken limits = some k → limited s k (exec i s)) ∧
    (firstBroken limits = none → ∃ v d,
      Leaves c [{ reg := vd.toNat, w := 32, rows := c.run.rc.toNat, n := 3, on := fun _ _ => c.run.vl != 0
                  val := fun r e => match e with
                    | 0 => ident r
                    | 1 => index r
                    | _ => uniformAt c slot r }] v d ∧
      let u := (List.range c.run.rc.toNat).foldl (fun u r => u.trace 4 4 c.run.pc c.run.prov
        (BitVec.ofNat 64 (uniformAt c slot r * 2 ^ 40 + r * 2 ^ 36 + ident r)) (BitVec.ofNat 64 (index r))) s
      exec i s = .next (State.completed { u with core := { u.core with v := v, vdirty := d } }))) ∧
  ∀ (s : State) (i : Instr) (l : List VWrite), Ready s false → darnWrites s.core i = some l →
    (∀ k, firstBroken (darnLimitsOf s.core i) = some k → limited s k (exec i s)) ∧
    (firstBroken (darnLimitsOf s.core i) = none →
      ∃ v d, Leaves s.core l v d ∧ exec i s = .next (s.withV v d).retired)

/-! ## The queue image (spec/07 R207 to R211, R455) -/

/-- R207 to R211, R325, R455: `VQSAVE` writes the image of Tables 7-8 and 7-9 and empties the queues; `VQLOAD` places the
words of an image in ascending PO, parked, and takes the state of its header, reserved bits as zeros; words of the last
`VQSAVE`, all of them or those that were left of it, keep their places and the draw positions that they carried, and words that
none was saved as take new places and the hart's position (logs 29 and 39); `VCMST` and `VCMLD` move `CM` and `cmv`. An address that is no multiple of 64 is cause 0x06; a count that does not fit is
an operand limit. -/
def Obligations.QueueImageMoves : Prop :=
  ∀ (s : State) (d a b : BitVec 5), s.core.kmode = true →
    let va := s.operand a
    let n := (s.operand b).toNat
    (va.toNat % 64 ≠ 0 → exec (.vqsave d a) s = .next (genFault s 0x06 va va) ∧
      exec (.vcmst a) s = .next (genFault s 0x06 va va) ∧ exec (.vcmld a) s = .next (genFault s 0x06 va va)) ∧
    (va.toNat % 64 = 0 →
      let q := s.settleEngines
      let bs := q.core.image
      ∀ u, storeBytes va bs q = .ok u →
        (∀ y, (∃ t, exec (.vqsave d a) s = .next t ∧ y ∈ t.core.saved) ↔ y ∈ u.core.saved ∨ ∃ x ∈ q.core.imageWords,
          y = ⟨x.2.prov, x.2.word, x.2.rank, x.2.epoch, x.2.rkey, x.2.rpos, q.core.eseq, true⟩) ∧
        (∃ t, exec (.vqsave d a) s = .next t ∧ t.core.words = [] ∧ t.core.restore = [] ∧ t.dev = u.dev ∧
          t.core.spad = u.core.spad ∧ t.core.pc = u.core.pc + 4 ∧ t.core.v = u.core.v ∧ t.core.cntLive = false ∧
          t.core.s = if d = 0 then u.core.s else u.core.s.set d.toNat (BitVec.ofNat 64 q.core.imageWords.length)) ∧
        (imageWord bs 0 = BitVec.ofNat 64 ((q.core.imageQueue .col).length * 2 ^ 24 + (q.core.imageQueue .cpy).length * 2 ^ 16 +
          (q.core.imageQueue .mat).length * 2 ^ 8 + (q.core.imageQueue .vec).length)) ∧
        (imageWord bs 8 = (if q.core.cntLive then q.core.lgsWord else 0) ∧ imageWord bs 16 = q.core.brk ∧
          imageWord bs 24 = q.core.brkp ∧ imageWord bs 32 = q.core.resoff ∧
          imageWord bs 40 = (if q.core.cntLive then q.core.cmv else q.core.cmv &&& 2) ∧ imageWord bs 48 = q.core.eseq ∧
          imageWord bs 56 = 0) ∧
        ∀ k que e, q.core.imageWords[k]? = some (que, e) →
          imageWord bs (64 + 32 * k) = e.word ∧ imageWord bs (72 + 32 * k) = e.prov ∧
          imageWord bs (80 + 32 * k) = BitVec.ofNat 64 (placedAt q.core.imageWords e * 2 ^ 38 + que.imageCode * 2 ^ 36 +
            e.vtype.toNat * 2 ^ 20 + e.rc.toNat * 2 ^ 15 + e.vl.toNat) ∧
          ∀ i, namedSlot e.word = some i → i < 16 → imageWord bs (88 + 32 * k) = e.slots.getD i 0) ∧
    ((64 < n ∨ s.core.drained = false ∨ s.core.history ≠ 0) →
      exec (.vqload a b) s = .next (genFault s 0x05 (BitVec.ofNat 64 (15 + n % 2 ^ 32 * 2 ^ 32)) 0)) ∧
    (∀ hd bs app : List Byte, ∀ idx : Nat → Nat, n ≤ 64 → s.core.drained = true → s.core.history = 0 →
      loadBytes va 64 s = .ok (hd, s) → headerOk hd n = true →
      let at_ (p : Nat) := loadedAt bs (idx p)
      loadBytes (va + 64) (32 * n) s = .ok (bs, s) → (∀ p, p < n → idx p < n ∧ (at_ p).po = p) →
      loadBytes (va + BitVec.ofNat 64 (64 + 32 * n))
        (8 * ((List.range n).map fun i => appendixLen (loadedAt bs i).word (loadedAt bs i).rc.toNat).sum) s = .ok (app, s) →
      let is (p : Nat) (y : SavedWord) : Prop := y.prov = (at_ p).prov ∧ y.word = (at_ p).word
      let known (f : Nat → SavedWord) : Prop := ∃ l k,
        s.core.saved = l ++ k ∧ (∀ y ∈ l, y.eseq = imageWord hd 48) ∧ (l.map fun y => (y.prov, y.word)).Nodup ∧
        (∀ p, p < n → f p ∈ l ∧ is p (f p)) ∧ ∀ p q, p < q → q < n → (f p).rank < (f q).rank
      ∀ (rank : Nat → Nat) (draw : Nat → Word × Word),
      ((∀ p, p < n → ∀ y ∈ s.core.saved, ¬ is p y) ∧ rank = (s.core.rank + ·) ∧ draw = (fun _ => (s.core.rkey, s.core.rpos)) ∨
        ∃ f, known f ∧ rank = (fun p => (f p).rank) ∧ draw = fun p => ((f p).rkey, (f p).rpos)) →
      ∃ t, exec (.vqload a b) s = .next t ∧
        (∀ q, (t.core.queue q).map (fun e => (e.word, e.prov, e.vl, e.rc, e.vtype, e.rank, (e.rkey, e.rpos), e.parked, e.restored)) =
          ((List.range n).filter fun p => (at_ p).que == q).map fun p =>
            ((at_ p).word, (at_ p).prov, (at_ p).vl, (at_ p).rc, (at_ p).vtype, rank p, draw p, true, true)) ∧
        (∀ i : Fin 4, t.core.lgs[i] = BitVec.ofNat 10 ((imageWord hd 8).toNat / 2 ^ (10 * i.val))) ∧
        t.core.brk = imageWord hd 16 &&& 0x1FFFFF ∧ t.core.resoff = imageWord hd 32 &&& 0x3FF ∧
        (let b := imageWord hd 24
         t.core.brkp = if b.getLsbD 63 = true ∨ b = 0x6000000000000000 then b else b &&& ~~~0x6000000000000000#64) ∧
        t.core.cmv = imageWord hd 40 &&& 0x3F03 ∧ t.core.cntLive = true ∧ t.core.eseq = imageWord hd 48 ∧ t.core.pc = s.core.pc + 4 ∧
        t.core.s = s.core.s ∧ t.core.v = s.core.v ∧ t.core.spad = s.core.spad ∧ t.dev = s.dev ∧ t.rest = s.rest) ∧
    ∀ (bs : List Byte) (u : State), bs.length = 32776 → va.toNat % 64 = 0 →
      let holds (c : Core) : Prop := imageWord bs 32768 = c.cmv ∧
        ∀ r, r < 16 → ofBytes ((bs.drop (2048 * r)).take 2048) = (c.cm.row r).toNat
      (holds s.core → s.core.drained = true → storeBytes va bs s = .ok u →
        exec (.vcmst a) s = .next (u.movedTo (u.core.pc + 4))) ∧
      (s.core.drained = false → exec (.vcmst a) s = .next s.stall) ∧
      (loadBytes va 32776 s = .ok (bs, u) → ∃ cm, holds { u.core with cm := cm, cmv := imageWord bs 32768 } ∧
        exec (.vcmld a) s = .next ({ u with core := { u.core with
          cm := cm, cmv := imageWord bs 32768 &&& 0x3F03
          cntLive := u.core.cntLive && !u.core.drained } }.movedTo (u.core.pc + 4)))

/-! ## Observation (spec/13, spec/25) -/

/-- R343 to R348, R355, R440 to R443: events add to the enabled counters of a bank whose owner's hart runs on its core, a cycle
to exactly one category besides, the 2^44th wraps one to 0, and a write sets one. The oldest record of a core that waits at a full trace unit can be dropped; once
CONS makes room, the unit writes the lost record that it owes and what waits. A request for a bank or a trace unit is granted
when it is free, busy (3) when another function has it, and refused (4) for a unit or a context that the asker has not; a
reclaimed bank comes back with RCL. With CBA = 1 a request is posted to the host and reads pending (1), and while it does a write
is ignored. That a ring's LOG2N outside its range acts as the nearest legal one, that a bank or unit is at its resets when it is
given, and which answer the host gives are the model's choices (logs 14, 51, 73). -/
def Obligations.ObservationUnits : Prop :=
  ∀ (s : State),
    ((s.cores.map Core.num).Nodup → ∀ core, let b := s.dev.bankOf core
      b.ctl.getLsbD 41 = false → b.ctl.getLsbD 11 = true →
      (∃ c, s.findCore core = some c ∧ s.ctxOf c = (b.ctl.extractLsb' 0 11).toNat) →
      let enabled (w : Word) (ev : BitVec 16) : Prop :=
        w.getLsbD 63 = true ∧ w.getLsbD 60 = false ∧ w.extractLsb' 44 16 = ev ∧ knownEvent ev.toNat = true
      (∀ (ev : BitVec 16) n, (∀ i : Fin 8, ((b.ctr[i]).extractLsb' 0 44).toNat + n < 2 ^ 44) →
        ∃ t evs, exec (.counterCount core ev n) s = .next t ∧ (t.dev.bankOf core).ctl = b.ctl ∧
          (if 1 ≤ ev.toNat ∧ ev.toNat ≤ 6 then ∃ k ∈ [2, 3, 4, 5, 6], evs = [1, k] else evs = [ev]) ∧
          (t.dev.bankOf core).owner = b.owner ∧ t.dev.dram = s.dev.dram ∧
          ∀ i : Fin 8, ((∃ e ∈ evs, enabled b.ctr[i] e) → (t.dev.bankOf core).ctr[i] = b.ctr[i] + BitVec.ofNat 64 n) ∧
            (¬ (∃ e ∈ evs, enabled b.ctr[i] e) → (t.dev.bankOf core).ctr[i] = b.ctr[i])) ∧
      ∀ i : Fin 8, enabled b.ctr[i] ((b.ctr[i]).extractLsb' 44 16) → (b.ctr[i]).extractLsb' 0 44 = 0xFFFFFFFFFFF →
        (b.ctr[i]).extractLsb' 61 2 = 0 → ∃ t, exec (.counterOverflow core i) s = .next t ∧
          (t.dev.bankOf core).ctr = b.ctr.set i (b.ctr[i] &&& ~~~0xFFFFFFFFFFF#64) ∧ t.dev.dram = s.dev.dram) ∧
    (∀ core (i : Fin 8) (v : Word), ∃ t, exec (.counterWrite core i v) s = .next t ∧ t.core = s.core ∧
      t.dev.dram = s.dev.dram ∧ (t.dev.bankOf core).ctl = (s.dev.bankOf core).ctl ∧
      (t.dev.bankOf core).ctr = (s.dev.bankOf core).ctr.set i
        (if knownEvent (v.extractLsb' 44 16).toNat then v &&& ~~~0x1000000000000000#64
         else (v ||| 0x1000000000000000) &&& ~~~0xFFFFFFFFFFF#64)) ∧
    (∀ cl (u : Tracer), s.dev.tracer cl = some u →
      let size := 2 ^ Min.min 16 (Max.max 6 (u.ctl.extractLsb' 8 5).toNat)
      let slot := u.base.toNat + 64 * (u.prod % size)
      (∀ own k r rs, u.waiting = own ++ (some k, r) :: rs → (∀ x ∈ own, x.1 = none) → (u.prod + 1) % size = u.cons % size →
        ∃ t, exec (.traceRecordDrop cl) s = .next t ∧ t.core = s.core ∧ t.dev.dram = s.dev.dram ∧
          t.dev.tracer cl = some { u with waiting := own ++ rs, lost := (u.lost + 1) % 2 ^ 32, lostRun := u.lostRun + 1 }) ∧
      (∀ cons : BitVec 16, u.waiting = [] → u.lostRun = 0 → ∃ t, exec (.traceRingConsWrite cl cons) s = .next t ∧
        t.core = s.core ∧ t.dev.dram = s.dev.dram ∧ t.dev.tracer cl = some { u with cons := cons.toNat }) ∧
      (∀ (cons : BitVec 16) k r, u.waiting = [(k, r)] → u.lostRun = 0 → (u.prod + 1) % size ≠ cons.toNat % size →
        s.dev.dram.wf = true → ∃ t, exec (.traceRingConsWrite cl cons) s = .next t ∧ t.core = s.core ∧
          (∀ k : Fin 8, t.dev.dram.num 8 (slot + 8 * k) = (r[k]).toNat) ∧
          (∀ a, (a < slot ∨ slot + 64 ≤ a) → t.dev.dram.get a = s.dev.dram.get a) ∧
          t.dev.tracer cl = some { u with cons := cons.toNat, waiting := [], prod := (u.prod + 1) % size }) ∧
      ∀ cons : BitVec 16, u.waiting = [] → u.lostRun ≠ 0 → u.lostRun < 2 ^ 64 → (u.prod + 1) % size ≠ cons.toNat % size →
        s.dev.dram.wf = true → ∃ t, exec (.traceRingConsWrite cl cons) s = .next t ∧ t.core = s.core ∧
          t.dev.dram.num 8 slot / 2 ^ 60 = 5 ∧ t.dev.dram.num 8 (slot + 32) = u.lostRun ∧
          t.dev.tracer cl = some { u with cons := cons.toNat, lostRun := 0, prod := (u.prod + 1) % size }) ∧
    (∀ (who : ObsFunc) (v : Word), (s.dev.obs who).extractLsb' 61 3 = 1 → exec (.registerWrite (match who with
      | .pf => .pfObservation
      | .vf f => .func f 0x050) v) s = .next s) ∧
    ∀ (who : ObsFunc) (unit ctx : Nat) (x : Ctx), (s.dev.obs who).extractLsb' 61 3 ≠ 1 → unit < 256 → ctx < 2048 →
      s.dev.ctx ctx = some x → s.dev.boot.getLsbD 2 = false → (∀ f, who = .vf f → f < Config.functions) →
      let answer (st : Nat) : Word := BitVec.ofNat 64 (st * 2 ^ 61 + unit * 2 ^ 24 + ctx * 2 ^ 13)
      let answers (r : Result) (st : Nat) : Prop := ∃ t, r = .next t ∧ t.dev.obs who = answer st ∧ t.core = s.core ∧
        t.dev.dram = s.dev.dram ∧ t.dev.banks = s.dev.banks ∧ t.dev.tracers = s.dev.tracers
      (s.dev.split.getLsbD 5 = true →
        (.observe who 1 unit ctx ∉ s.dev.asked → answers (exec (.allocateBank who unit ctx) s) 1) ∧
        (.observe who 2 unit ctx ∉ s.dev.asked → answers (exec (.releaseBank who unit ctx) s) 1) ∧
        (.observe who 3 unit ctx ∉ s.dev.asked → answers (exec (.allocateTraceUnit who unit ctx) s) 1) ∧
        (.observe who 4 unit ctx ∉ s.dev.asked → answers (exec (.releaseTraceUnit who unit ctx) s) 1)) ∧
      (s.dev.split.getLsbD 5 = false →
        ((Config.cores ≤ unit ∨ ∃ f, who = .vf f ∧ x.vf ≠ f) →
          answers (exec (.allocateBank who unit ctx) s) 4 ∧ answers (exec (.releaseBank who unit ctx) s) 4) ∧
        ((Config.clusters ≤ unit ∨ ∃ f, who = .vf f ∧ x.vf ≠ f) →
          answers (exec (.allocateTraceUnit who unit ctx) s) 4 ∧ answers (exec (.releaseTraceUnit who unit ctx) s) 4) ∧
        ((who = .pf ∨ who = .vf x.vf) → unit < Config.cores →
          let b := s.dev.bankOf unit
          (b.owner = none → ∃ t, exec (.allocateBank who unit ctx) s = .next t ∧ t.dev.obs who = answer 2 ∧
            t.dev.bankOf unit = ⟨unit, BitVec.ofNat 64 ((if who = .pf then 2 ^ 42 else 0) + 2048 + ctx), .replicate 8 0,
              some who, b.guest⟩) ∧
          (b.owner ≠ none → who ≠ .pf → answers (exec (.allocateBank who unit ctx) s) 3) ∧
          (b.owner ≠ none → b.owner ≠ some who → answers (exec (.releaseBank who unit ctx) s) 3) ∧
          (b.owner = some who → b.guest = none → ∃ t, exec (.releaseBank who unit ctx) s = .next t ∧
            t.dev.obs who = answer 2 ∧ t.dev.bankOf unit = ⟨unit, 0, .replicate 8 0, none, none⟩) ∧
          (∀ f, who = .pf → b.owner = some (.vf f) → ∃ t, exec (.allocateBank .pf unit ctx) s = .next t ∧
            t.dev.bankOf unit = ⟨unit, BitVec.ofNat 64 (2 ^ 42 + 2048 + ctx), .replicate 8 0, some .pf,
              some (.vf f, b.ctl, b.ctr)⟩) ∧
          ∀ f ctl ctr, who = .pf → b.owner = some .pf → b.guest = some (.vf f, ctl, ctr) →
            ∃ t, exec (.releaseBank .pf unit ctx) s = .next t ∧
              t.dev.bankOf unit = ⟨unit, ctl ||| 0x80000000000, ctr, some (.vf f), none⟩) ∧
        ((who = .pf ∨ who = .vf x.vf) → unit < Config.clusters →
          let u := s.dev.tracerOf unit
          (u.owner = none → ∃ t, exec (.allocateTraceUnit who unit ctx) s = .next t ∧ t.dev.obs who = answer 2 ∧
            ∃ u', t.dev.tracer unit = some u' ∧ u'.owner = some who ∧ u'.ctl = BitVec.ofNat 64 (0x600 + ctx * 2 ^ 32) ∧
              u'.base = 0 ∧ u'.prod = 0 ∧ u'.cons = 0 ∧ u'.lost = 0) ∧
          (u.owner ≠ none → who ≠ .pf → answers (exec (.allocateTraceUnit who unit ctx) s) 3) ∧
          (u.owner ≠ none → u.owner ≠ some who → answers (exec (.releaseTraceUnit who unit ctx) s) 3) ∧
          (u.owner = some who → u.guest = none → ∃ t, exec (.releaseTraceUnit who unit ctx) s = .next t ∧
            t.dev.obs who = answer 2 ∧ ∃ u', t.dev.tracer unit = some u' ∧ u'.owner = none ∧ u'.ctl = 0x600)))

/-! ## Duties of the device (spec/14, spec/23, spec/25) -/

/-- R352, R354, R355, R356, R360, R361, R449, R450, Tables 12-3, 13-6, 14-2, 25-5: boot leaves the device at its resets
with the status that its images give, and measures those in use; recovery takes images; keys are loaded for frames that
hold nothing; sealed images are loaded; register writes store the RW fields; the clock steps down by 100 MHz to 1.6 GHz
and goes back to 3.3 GHz; a full audit block gets its trailer and its signature. What slot B reports of slot A, DETAIL as the
number of retired seams, and the step back to the full clock are the model's choices (logs 25 and 50). -/
def Obligations.DeviceKeepsItsRegisters : Prop :=
  ∀ (s : State),
    let d := s.dev
    (∀ b : BootReport,
      let stored (slotB kernel : Bool) := d.flash.find? fun f => f.1 == slotB && f.2.1 == kernel
      let good (i : BootImage) (slotB kernel : Bool) : Prop := i.readable = true ∧
        ∃ f, stored slotB kernel = some f ∧ Config.mlDsaGood f.2.2 = true ∧ Config.minVersion ≤ Config.imageVersion f.2.2
      let goodA := good b.firmwareA false false ∧ good b.kernelA false true
      let goodB := good b.firmwareB true false ∧ good b.kernelB true true
      let measured (t : State) (slotB : Bool) : Prop := ∀ x y, stored slotB false = some x → stored slotB true = some y →
        t.dev.measured = (BitVec.ofNat 256 (ofBytes (sha3 x.2.2)), BitVec.ofNat 256 (ofBytes (sha3 y.2.2)))
      (∃ t, exec (.powerOnBoot b) s = .next t ∧ t.core = Core.reset ∧ t.rest = [] ∧ t.dev.dram = [] ∧
        t.dev.frames = Device.reset.frames ∧ t.dev.ctxs = Device.reset.ctxs ∧ t.dev.gangs = [] ∧
        t.dev.host = d.host ∧ t.dev.flash = d.flash ∧ t.inbox = s.inbox) ∧
      (goodA → b.starts = true → b.dies = 0 → b.seams = 0 → b.ports = 0 →
        ∃ t, exec (.powerOnBoot b) s = .next t ∧ t.dev.boot = 0x901 ∧ measured t false) ∧
      (goodA → b.starts = true → b.dies = 0 → b.seams ≠ 0 → b.ports = 0 → ∃ t, exec (.powerOnBoot b) s = .next t ∧
        t.dev.boot = BitVec.ofNat 64 (0x903 + 4 * 65536 + ((List.range 12).countP fun i => b.seams.getLsbD i) * 2 ^ 24) ∧
        ∀ i, ErrUnit.seam i ∈ t.dev.retiredUnits ↔ i < 12 ∧ b.seams.getLsbD i = true) ∧
      (goodA → b.starts = true → b.dies ≠ 0 →
        ∃ t, exec (.powerOnBoot b) s = .next t ∧ t.dev.boot = BitVec.ofNat 64 (0x404 + 3 * 65536 + b.dies.toNat * 2 ^ 24)) ∧
      (¬ goodA → goodB → b.starts = true → b.dies = 0 →
        ∃ t, exec (.powerOnBoot b) s = .next t ∧ t.dev.boot.getLsbD 3 = true ∧ t.dev.boot.getLsbD 0 = true ∧ measured t true) ∧
      (¬ goodA → ¬ goodB →
        ∃ t, exec (.powerOnBoot b) s = .next t ∧ t.dev.boot.getLsbD 2 = true ∧ t.dev.boot.getLsbD 0 = false)) ∧
    (∀ b k image, (d.boot.getLsbD 2 = true → ∃ t, exec (.recoveryImageWrite b k image) s = .next t ∧ t.core = s.core ∧
        t.dev.flash.find? (fun f => f.1 == b && f.2.1 == k) = some (b, k, image) ∧
        ∀ f ∈ d.flash, ¬ (f.1 = b ∧ f.2.1 = k) → f ∈ t.dev.flash) ∧
      (d.boot.getLsbD 2 = false → exec (.recoveryImageWrite b k image) s = .next s)) ∧
    (∀ slot key, 
      let busy := ∃ p ∈ d.frames, (p.2.extractLsb' 11 10).toNat = slot ∧ ∃ c ∈ d.dram, c.1 / 65536 = p.1
      let loaded := ∃ k ∈ d.keys, k.1 = slot
      (slot < 1024 → (slot = 0 → ¬ loaded) → (slot ≠ 0 → ¬ busy) → ∃ t, exec (.keySlotLoad slot key) s = .next t ∧
        t.dev.keys.find? (fun k => k.1 == slot) = some (slot, key) ∧ t.core = s.core ∧ t.dev.dram = d.dram ∧
        ∀ k ∈ d.keys, k.1 ≠ slot → k ∈ t.dev.keys) ∧
      ((1024 ≤ slot ∨ slot = 0 ∧ loaded ∨ slot ≠ 0 ∧ busy) → exec (.keySlotLoad slot key) s = .next s)) ∧
    (∀ ctx va (image : List Byte) frames,
      (d.ctx ctx = none → exec (.modelStoreLoad ctx va image frames) s = .next s) ∧
      ∀ c, d.ctx ctx = some c → ∀ e, d.loadPieces c ((image.length + 65535) / 65536) va.toNat image frames = some e →
        ∃ t, exec (.modelStoreLoad ctx va image frames) s = .next t ∧ t.dev.dram = e.dram ∧ t.dev.frames = e.frames ∧
          t.core = s.core ∧ ((∀ f ∈ e.sealedOf ctx, e.sealSound f = true) → ∀ x, t.dev.ctx ctx = some x → x.barred = false)) ∧
    (∀ v : Word, exec (.registerWrite .split v) s = .next { s with dev := { d with split := v &&& 0x3F } } ∧
      exec (.registerWrite .retirement v) s = .next { s with dev := { d with retire := v &&& 0xFF } } ∧
      exec (.registerWrite .scopeChecker v) s = .next { s with dev := { d with scopeCtl := v &&& 0xFFE007 } } ∧
      exec (.registerWrite .bootStatus v) s = .next s) ∧
    (∀ (v : Word) vf, vf < Config.functions → d.boot.getLsbD 2 = false → ∃ t, exec (.registerWrite (.fairness vf) v) s = .next t ∧
      t.dev.func vf = { d.func vf with fair := v &&& 0x1FF0FF } ∧ ∀ n, n ≠ vf → t.dev.func n = d.func n) ∧
    (∀ (v : Word) vf (k : Fin 2), vf < Config.functions → d.boot.getLsbD 2 = false →
      (∃ t, exec (.registerWrite (.func vf (32 * k)) v) s = .next t ∧
        t.dev.func vf = { d.func vf with base := (d.func vf).base.set k v }) ∧
      (∃ t, exec (.registerWrite (.func vf (8 + 32 * k)) v) s = .next t ∧
        t.dev.func vf = { d.func vf with ctl := (d.func vf).ctl.set k (v &&& 0x10F) }) ∧
      (v.getLsbD 16 = false → ∃ t, exec (.registerWrite (.func vf 0x048) v) s = .next t ∧
        t.dev.func vf = { d.func vf with preGid := v &&& 0xFFFF })) ∧
    (∀ (v : Word) cl, cl < Config.clusters → let u := d.tracerOf cl
      (∃ t, exec (.registerWrite (.trace cl 0) v) s = .next t ∧ t.dev.tracer cl = some { u with base := v }) ∧
      (∃ t, exec (.registerWrite (.trace cl 8) v) s = .next t ∧
        t.dev.tracer cl = some { u with ctl := v &&& 0x7FFFF001F3F }) ∧
      ∃ t, exec (.registerWrite (.trace cl 0x20) v) s = .next t ∧ t.dev.tracer cl =
        some { u with lost := u.lost &&& (0xFFFFFFFF ^^^ (v.extractLsb' 0 32).toNat) }) ∧
    exec .thermalLimit s = .next { s with dev := { d with clock := Max.max 1600 (d.clock - 100) } } ∧
    exec .thermalLimitClear s = .next { s with dev := { d with clock := 3300 } } ∧
    ∀ ctx c, d.ctx ctx = some c → d.dram.wf = true →
      (c.auditRecs ≠ 63 → exec (.auditBlockSign ctx) s = .next s) ∧
      (∀ cons : BitVec 32, ∃ m, StoredAs d.dram m (c.audCtl + 8) 4 cons.toNat ∧
        exec (.auditConsWrite ctx cons) s = .next (s.withDram m)) ∧
      (c.auditRecs = 63 →
        let b := d.audProd c
        let block := c.audBlock b
        let prev := if b = 0 then List.replicate 32 0 else sha3 (d.dram.read 4096 (c.audBlock (b - 1)))
        ∃ t, exec (.auditBlockSign ctx) s = .next t ∧ t.core = s.core ∧ t.dev.audProd c = (b + 1) % 2 ^ 32 ∧
          t.dev.dram.read 4032 block = d.dram.read 4032 block ∧ t.dev.dram.read 32 (block + 4032) = prev ∧
          t.dev.dram.num 8 (block + 4064) = b ∧
          (let sig := (Config.mlDsaSign 0 (t.dev.dram.read 4096 block)).take 4096
           t.dev.dram.read sig.length (block + 2 ^ c.alog * 4096) = sig) ∧
          t.dev.ctx ctx = some { c with auditRecs := 0 })

/-- R355, R357, R359, R430, R431, R444, R446 to R448: a checkpoint stops its contexts' gangs, writes their frames once the
harts have left, and says when it is complete; its restore puts frames, gangs and harts back. An attestation request is
answered by a signed report, over the frames that were sealed when it arrived, or by the code that says why not, and no request
before an earlier one. A migration first agrees on a key behind the reports of both sides, sends and receives the context's
frames and state under it, and goes on under new gang ids once there are banks and trace units for it; one that fails leaves
nothing here and goes no further. With CKP or ATT at 1 the request goes to the host first (R355). What a migration carries and
what host-assisted duties wait for are the model's choices (logs 71 and 73). -/
def Obligations.CheckpointsAndMigration : Prop :=
  ∀ (s : State),
    let d := s.dev
    let free (ctxs : List Nat) : Prop := ∀ c ∈ s.cores, c.placed = true → s.ctxOf c ∉ ctxs
    let owned (ctxs : List Nat) (e : Word) : Prop := e.getLsbD 23 = false ∧ (e.extractLsb' 0 11).toNat ∈ ctxs
    (∀ id ctxs, (∀ k ∈ d.ckpts, k.id = id → k.taken = false) →
      (id ∉ d.ckptOpen → d.split.getLsbD 3 = true → .checkpoint id ∉ d.asked → exec (.checkpoint id ctxs) s =
        .next { s with dev := { d with asked := d.asked ++ [.checkpoint id], posted := d.posted ++ [.ask (.checkpoint id)] } }) ∧
      (id ∉ d.ckptOpen → (d.split.getLsbD 3 = false ∨ .checkpoint id ∈ d.asked) → free ctxs →
        ∃ t, exec (.checkpoint id ctxs) s = .next t ∧ id ∈ t.dev.ckptOpen ∧
          t.core.why = some (.wait none) ∧ t.dev.dram = d.dram ∧ t.dev.gangs = d.gangs) ∧
      (id ∈ d.ckptOpen → ¬ free ctxs → exec (.checkpoint id ctxs) s = .next s.stall) ∧
      (id ∈ d.ckptOpen → free ctxs → ∃ t k, exec (.checkpoint id ctxs) s = .next t ∧ t.core = s.core ∧ t.rest = s.rest ∧
        t.dev.dram = d.dram ∧ k ∈ t.dev.ckpts ∧ k.id = id ∧ k.ctxs = ctxs ∧ k.taken = true ∧
        (∀ p ∈ d.frames, owned ctxs p.2 → ∃ f ∈ k.frames, f.frame = p.1 ∧ f.entry = p.2 ∧
          ∀ x, x ∈ f.cells ↔ x ∈ d.dram ∧ x.1 / 65536 = p.1) ∧
        (∀ g ∈ d.gangs, g.ctx ∈ ctxs → g.st ≠ .ended → g ∈ k.gangs ∧ ∀ h ∈ d.saved, h.gang16 = g.gid → h ∈ k.harts))) ∧
    (∀ id code, let host := (d.ckpts.find? fun k => k.id == id).any Ckpt.host
      ((id ∉ d.ckptOpen ∨ 2 < code) → exec (.checkpointComplete id code) s = .next s) ∧
      (id ∈ d.ckptOpen → code < 2 → (∃ k ∈ d.ckpts, k.id = id ∧ k.taken = true) →
        exec (.checkpointComplete id code) s = .next { s with dev := { d with
          ckptOpen := d.ckptOpen.filter fun x => x != id, posted := d.posted ++ [.checkpoint id code host] } }) ∧
      (id ∈ d.ckptOpen → code < 2 → (∀ k ∈ d.ckpts, k.id = id → k.taken = false) →
        exec (.checkpointComplete id code) s = .next s.stall) ∧
      (id ∈ d.ckptOpen → code = 2 → exec (.checkpointComplete id code) s = .next { s with dev := { d with
        ckptOpen := d.ckptOpen.filter fun x => x != id, ckpts := d.ckpts.filter fun k => k.id != id
        posted := d.posted ++ [.checkpoint id code host] } })) ∧
    (∀ id, ((∀ k ∈ d.ckpts, k.id ≠ id) → exec (.checkpointRestore id) s =
        .next { s with dev := { d with posted := d.posted ++ [.restored id false] } }) ∧
      ∀ k, d.ckpts.find? (fun k => k.id == id) = some k →
        (d.mayRestore k = false → exec (.checkpointRestore id) s =
          .next { s with dev := { d with posted := d.posted ++ [.restored id false] } }) ∧
        (d.mayRestore k = true → (∀ g ∈ d.gangs, g.ctx ∈ k.ctxs → g.st = .ended) →
          (d.frames.map Prod.fst).Pairwise (· < ·) → d.dram.wf = true → (k.frames.map SavedFrame.frame).Nodup →
          (∀ f ∈ k.frames, f.cells.wf = true ∧ (∀ x ∈ f.cells, x.1 / 65536 = f.frame) ∧
            owned k.ctxs (d.frameEntry f.frame)) →
          ∃ t, exec (.checkpointRestore id) s = .next t ∧ t.dev.posted = d.posted ++ [.restored id true] ∧ t.core = s.core ∧
            (∀ f ∈ k.frames, t.dev.frameEntry f.frame = f.entry ∧
              ∀ a, a / 65536 = f.frame → t.dev.dram.get a = f.cells.get a) ∧
            (∀ a, (∀ f ∈ k.frames, a / 65536 ≠ f.frame) → t.dev.dram.get a = d.dram.get a) ∧
            (∀ g ∈ k.gangs, g ∈ t.dev.gangs) ∧ t.dev.saved = d.saved ++ k.harts)) ∧
    (∀ ctx nonce, d.attestAsks = [] →
      let now := d.sealedOf ctx
      let answer (n : Notice) : Result := .next { s with dev := { d with posted := d.posted ++ [n] } }
      (d.split.getLsbD 4 = true → exec (.attestationRequest ctx nonce) s = .next { s with dev := { d with
        asked := d.asked ++ [.attestation ctx nonce now], posted := d.posted ++ [.ask (.attestation ctx nonce now)] } }) ∧
      (d.split.getLsbD 4 = false →
        (d.boot.getLsbD 2 = true → exec (.attestationRequest ctx nonce) s = answer (.noReport ctx 3)) ∧
        (d.boot.getLsbD 2 = false → d.ctx ctx = none → exec (.attestationRequest ctx nonce) s = answer (.noReport ctx 1)) ∧
        ∀ c, d.boot.getLsbD 2 = false → d.ctx ctx = some c →
          ((∀ f ∈ now, d.sealSound f = true) →
            exec (.attestationRequest ctx nonce) s = answer (.report (d.attestation c nonce now)) ∧
            (d.attestation c nonce now).take 96 =
              bytesOf 32 nonce.toNat ++ bytesOf 32 d.measured.1.toNat ++ bytesOf 32 d.measured.2.toNat ∧
            ((d.attestation c nonce now).drop 144 =
              (Config.mlDsaSign 0 ((d.attestation c nonce now).take 144)).take 2420)) ∧
          ((∃ f ∈ now, d.sealSound f = false) → ∃ t, exec (.attestationRequest ctx nonce) s = .next t ∧
            t.dev.posted = d.posted ++ [.noReport ctx 2] ∧ t.dev.ctx ctx = some { c with barred := true }))) ∧
    (∀ ctx nonce frames later, d.attestAsks = (ctx, nonce, frames) :: later → d.boot.getLsbD 2 = false →
      ∀ c, d.ctx ctx = some c → (∀ f ∈ d.sealedOf ctx, f ∈ frames → d.sealSound f = true) →
      ∃ t, exec (.attestationRequest ctx nonce) s = .next t ∧ t.core = s.core ∧
        t.dev.posted = d.posted ++ [.report (d.attestation c nonce frames)] ∧
        t.dev.asked = d.asked.filter fun a => a != .attestation ctx nonce frames) ∧
    (∀ ctx nonce first later, d.attestAsks = first :: later → ¬ (first.1 = ctx ∧ first.2.1 = nonce) →
      ∃ t, exec (.attestationRequest ctx nonce) s = .next t ∧
        (t.dev.posted = d.posted ∨ t.dev.posted = d.posted ++ [.ask (.attestation ctx nonce (d.sealedOf ctx))]) ∧
        t.dev.ctxs = d.ctxs) ∧
    ∀ ctx c, d.ctx ctx = some c →
      let exec_ (m : MigrStep) := exec (.contextMigration ctx m) s
      let agreed (m : Move) (key : BitVec 512) : Prop := d.moveOf ctx = some m ∧ m.key = some key
      (free [ctx] → d.moveOf ctx = none → ∃ t, exec_ .stopGangs = .next t ∧
        t.dev.moveOf ctx = some ⟨ctx, none, [], none⟩ ∧ t.dev.dram = d.dram ∧ t.dev.gangs = d.gangs) ∧
      (∀ nonce key peer, free [ctx] → d.boot.getLsbD 2 = false →
        let sound := ∀ f ∈ d.sealedOf ctx, d.sealSound f = true
        let report := Notice.report (d.attestation c nonce (d.sealedOf ctx))
        (sound → Config.mlDsaPeerGood peer key = true → ∃ t m, exec_ (.agree nonce key peer) = .next t ∧
          t.dev.posted = d.posted ++ [report] ∧ t.dev.moveOf ctx = some m ∧ m.key = some key) ∧
        (sound → Config.mlDsaPeerGood peer key = false → ∃ t, exec_ (.agree nonce key peer) = .next t ∧
          t.dev.posted = d.posted ++ [report, .migrationFailed ctx] ∧ t.dev.moveOf ctx = none) ∧
        ((∃ f ∈ d.sealedOf ctx, d.sealSound f = false) → ∃ t, exec_ (.agree nonce key peer) = .next t ∧
          t.dev.posted = d.posted ++ [.noReport ctx 2, .migrationFailed ctx] ∧ t.dev.moveOf ctx = none)) ∧
      ((∀ m key, ¬ agreed m key) → (∀ f, exec_ (.sendFrame f) = .next s) ∧ exec_ .sendState = .next s ∧
        (∀ src f e plain m, exec_ (.receiveFrame src f e plain m) = .next s) ∧ exec_ .receiveState = .next s ∧
        exec_ .left = .next s ∧ ∀ gids, exec_ (.resume gids) = .next s) ∧
      (∀ m, d.moveOf ctx = some m → ∃ t, exec_ .fail = .next t ∧ t.dev.moveOf ctx = none ∧ t.core = s.core ∧
        t.dev.posted = d.posted ++ [.migrationFailed ctx] ∧ t.dev.gangs = d.gangs ∧ t.dev.saved = d.saved ∧
        (∀ a, t.dev.dram.get a = if a / 65536 ∈ m.frames.map Prod.snd then 0 else d.dram.get a) ∧
        ((d.frames.map Prod.fst).Pairwise (· < ·) → ∀ f, t.dev.frameEntry f =
          if f ∈ m.frames.map Prod.snd then 0x800000 else d.frameEntry f)) ∧
      ∀ m key, agreed m key →
        (∀ f, owned [ctx] (d.frameEntry f) → exec_ (.sendFrame f) = .next { s with dev := { d with posted := d.posted ++
          [.frameSent ctx f (d.frameEntry f) (Config.migrationCipher key (d.dram.read 65536 (f * 65536)))] } }) ∧
        exec_ .sendState = .next { s with dev := { d with posted := d.posted ++ [.stateSent (d.carry c)] } } ∧
        (∀ src f (e : Word) (plain : List Byte) h, d.mayTake f = true → d.holds f = false → e.getLsbD 21 = false →
          plain.length = 65536 → d.dram.wf = true → (d.frames.map Prod.fst).Pairwise (· < ·) → d.keyOf c < 1024 → ctx < 2048 →
          ∃ t, exec_ (.receiveFrame src f e plain h) = .next t ∧
            (∀ i, i < 65536 → t.dev.dram.get (f * 65536 + i) = plain.getD i 0) ∧
            (t.dev.frameEntry f).extractLsb' 0 24 = e.extractLsb' 21 3 ++ BitVec.ofNat 10 (d.keyOf c) ++ BitVec.ofNat 11 ctx ∧
            t.dev.moveOf ctx = some { m with frames := (src, f) :: m.frames } ∧ t.dev.posted = d.posted ∧ t.core = s.core) ∧
        (∀ x, d.arrivals.find? (fun x => x.ctx == ctx) = some x → m.state = none → exec_ .receiveState =
          .next { s with dev := { d.putMove { m with state := some x } with
            arrivals := d.arrivals.filter fun x => x.ctx != ctx } }) ∧
        (∃ t, exec_ .left = .next t ∧ t.dev.ctx ctx = none ∧ t.dev.moveOf ctx = none ∧ ∀ g ∈ t.dev.gangs, g.ctx ≠ ctx) ∧
        ∀ gids x, m.state = some x →
          (d.roomFor x = false → exec_ (.resume gids) = .next s.stall) ∧
          (d.roomFor x = true → d.gangs.length + x.gangs.length < 65536 → ∃ t l hs, exec_ (.resume gids) = .next t ∧
            t.core = s.core ∧ t.dev.moveOf ctx = none ∧ l.map Prod.fst = x.gangs.map (fun g => g.gid.toNat) ∧
            (l.map Prod.snd).Nodup ∧ (∀ p ∈ l, p.2 < 65536 ∧ ∀ g ∈ d.gangs, g.gid.toNat = p.2 → g.st = .ended) ∧
            t.dev.gangs = d.gangs ++ x.gangs.map (fun g => { g with
              gid := newGidOf l g.gid, vf := c.vf, desc := { g.desc with pgid := newGidOf l g.desc.pgid } }) ∧
            t.dev.saved = d.saved ++ hs ∧
            (let same (h : Core) : Core := { h with num := 0, gid := 0, hid := 0 }
             hs.map same = x.harts.map same) ∧
            hs.map Core.gid = x.harts.map (fun h => (newGidOf l h.gang16).setWidth 64) ∧
            ∀ p ∈ x.banks.zip d.freeBanks, t.dev.bankOf p.2 = { p.1.2 with
              core := p.2, owner := p.1.2.owner.map (ObsFunc.here c), ctr := p.1.2.ctr.map counterWrite })

/-! ## The whole machine -/

/-- Every step, of a word, an event or a hazard of the other agents, keeps each memory of the machine in its one canonical
form: addresses strictly rising, and no byte listed that an unlisted address reads as (log 2), so that equal memories are
equal data. -/
def Obligations.EveryStepKeepsMemoryCanonical : Prop :=
  ∀ (s t : State), s.memOk = true → step s = .next t → t.memOk = true

/-- Table 2-17, R406: every step keeps the status and trap words of every hart legal, on its core, saved or in a
checkpoint: the reserved bits of `hstat`, `tvec` and `tdbg` read zero, the handler's address is a multiple of 4 within the
address space, and the single-step mode is 0, 1 or 2. -/
def Obligations.EveryStepKeepsStatusLegal : Prop :=
  ∀ (s t : State), s.legal = true → step s = .next t → t.legal = true

/-- The state after reset has its memories in canonical form, no hart on a core, and the values of Tables 2-4 to 2-18, 11-1,
12-3, 14-2 and 22-4 in its registers. Where the tables give none, the zeros of `s`, `o` and the units' state are the model's choice
(logs 3 and 61). -/
def Obligations.ResetHoldsTheTables : Prop :=
  State.reset.memOk = true ∧ State.reset.legal = true ∧ (∀ c ∈ State.reset.cores, c.placed = false) ∧ State.reset.dev.gangs = [] ∧
  (let c := State.reset.core
   c.vl = 0 ∧ c.rc = 1 ∧ c.vtype = 9 ∧ c.hstat = 0x1C ∧ c.s = .replicate 32 0 ∧ c.o = .replicate 16 0 ∧
   c.lgs = .replicate 4 0 ∧ c.cmv = 0 ∧ c.ffs = 0 ∧ c.brk = 0 ∧ c.vdirty = 0 ∧ c.resoff = 0 ∧
   (∀ q : Fin 16, (c.q[q]).shape = none) ∧ c.press.pstat = 0 ∧ c.region = none ∧ c.words = []) ∧
  let d := State.reset.dev
  (∀ vf, (d.func vf).base = .replicate 2 0 ∧ (d.func vf).ctl = .replicate 2 4 ∧ (d.func vf).fair = 0x1A7001) ∧
  d.retire = 16 ∧ d.split = 0 ∧ d.faultResp = 0 ∧ d.scopeCtl = 0 ∧ (∀ f, d.frameEntry f = 0x800000) ∧ d.clock = 3300
end

