-- ==== Sys2Proof/Laws/Memory.lean ====
section
/-! SUPPORT. Memory as data: every operation keeps the canonical form, a read after a write gives what was written, and
every other byte is left alone. -/

namespace Sys2Proof.Machine

/-! ## One byte -/

theorem Memory.okFrom_mono {lo lo' : Nat} (h : lo' ≤ lo) : ∀ {m : Memory}, Memory.okFrom lo m = true →
    Memory.okFrom lo' m = true
  | [], _ => rfl
  | c :: m, hm => by
    simp only [Memory.okFrom, Bool.and_eq_true, decide_eq_true_eq] at hm ⊢
    exact ⟨⟨by omega, hm.1.2⟩, hm.2⟩

theorem Memory.get_below {lo a : Nat} (h : a < lo) : ∀ {m : Memory}, Memory.okFrom lo m = true → m.get a = 0
  | [], _ => rfl
  | c :: m, hm => by
    simp only [Memory.okFrom, Bool.and_eq_true, decide_eq_true_eq] at hm
    rw [Memory.get, if_neg (by omega)]
    exact Memory.get_below (by omega) hm.2

/-- The byte at an address after one byte has been written. -/
theorem Memory.get_set {lo : Nat} : ∀ {m : Memory}, Memory.okFrom lo m = true → ∀ (a : Nat) (b : Byte) (x : Nat),
    (m.set a b).get x = if x = a then b else m.get x
  | [], _, a, b, x => by
    unfold Memory.set
    by_cases hb : b = 0
    · simp [hb, Memory.get]
    · rw [if_neg hb, Memory.get, Memory.get]
      by_cases hx : x = a
      · simp [hx]
      · rw [if_neg (by simpa using fun h => hx h.symm), if_neg hx]
        rfl
  | c :: m, hm, a, b, x => by
    have hm' := hm
    simp only [Memory.okFrom, Bool.and_eq_true, decide_eq_true_eq] at hm
    have ih := Memory.get_set hm.2 a b x
    unfold Memory.set
    split
    · rename_i h
      by_cases hb : b = 0
      · rw [if_pos hb]
        by_cases hx : x = a
        · rw [if_pos hx, hb, hx]
          rw [Memory.get, if_neg (by omega)]
          exact Memory.get_below (by omega) hm.2
        · rw [if_neg hx]
      · rw [if_neg hb, Memory.get]
        by_cases hx : x = a
        · simp [hx]
        · rw [if_neg (by simpa using fun h => hx h.symm), if_neg hx]
    · split
      · rename_i h1 h2
        by_cases hb : b = 0
        · rw [if_pos hb]
          by_cases hx : x = a
          · rw [if_pos hx, hb, hx]
            exact Memory.get_below (by omega) hm.2
          · rw [if_neg hx, Memory.get, if_neg (by omega)]
        · rw [if_neg hb, Memory.get]
          by_cases hx : x = a
          · simp [hx]
          · rw [if_neg (by simpa using fun h => hx h.symm), if_neg hx, Memory.get, if_neg (by omega)]
      · rw [Memory.get, ih]
        by_cases hc : c.1 = x
        · rw [if_pos hc]
          rw [if_neg (by omega), Memory.get, if_pos hc]
        · rw [if_neg hc, Memory.get, if_neg hc]

theorem Memory.okFrom_set : ∀ {m : Memory} {lo : Nat}, Memory.okFrom lo m = true → ∀ {a : Nat} (_ : lo ≤ a) (b : Byte),
    Memory.okFrom lo (m.set a b) = true
  | [], lo, _, a, ha, b => by
    unfold Memory.set
    by_cases hb : b = 0
    · rw [if_pos hb]
      rfl
    · rw [if_neg hb]
      simpa [Memory.okFrom, ha] using hb
  | c :: m, lo, hm, a, ha, b => by
    have hm' := hm
    simp only [Memory.okFrom, Bool.and_eq_true, decide_eq_true_eq] at hm
    unfold Memory.set
    split
    · by_cases hb : b = 0
      · rw [if_pos hb]; exact hm'
      · rw [if_neg hb]
        simp only [Memory.okFrom, Bool.and_eq_true, decide_eq_true_eq]
        refine ⟨⟨ha, by simpa using hb⟩, ⟨by omega, hm.1.2⟩, hm.2⟩
    · split
      · rename_i h1 h2
        by_cases hb : b = 0
        · rw [if_pos hb]; exact Memory.okFrom_mono (by omega) hm.2
        · rw [if_neg hb]
          simp only [Memory.okFrom, Bool.and_eq_true, decide_eq_true_eq]
          exact ⟨⟨ha, by simpa using hb⟩, by rw [h2]; exact hm.2⟩
      · simp only [Memory.okFrom, Bool.and_eq_true, decide_eq_true_eq]
        exact ⟨⟨hm.1.1, hm.1.2⟩, Memory.okFrom_set hm.2 (by omega) b⟩

/-- Writing a byte keeps the canonical form. -/
theorem Memory.wf_set {m : Memory} (h : m.wf = true) (a : Nat) (b : Byte) : (m.set a b).wf = true :=
  Memory.okFrom_set h (Nat.zero_le a) b

/-! ## Runs of bytes -/

/-- Writing bytes keeps the canonical form. -/
theorem Memory.wf_write : ∀ (bs : List Byte) {m : Memory}, m.wf = true → ∀ (a : Nat), (m.write a bs).wf = true
  | [], _, h, _ => h
  | b :: bs, _, h, a => Memory.wf_write bs (Memory.wf_set h a b) (a + 1)

theorem Memory.wf_setNum {m : Memory} (h : m.wf = true) (n a v : Nat) : (m.setNum n a v).wf = true :=
  Memory.wf_write _ h a

theorem Memory.wf_setWord {m : Memory} (h : m.wf = true) (a : Nat) (v : Word) : (m.setWord a v).wf = true :=
  Memory.wf_setNum h 8 a _

theorem Memory.okFrom_filter (p : Host.Cell → Bool) : ∀ {m : Memory} {lo : Nat}, Memory.okFrom lo m = true →
    Memory.okFrom lo (m.filter p) = true
  | [], _, _ => rfl
  | c :: m, lo, hm => by
    simp only [Memory.okFrom, Bool.and_eq_true, decide_eq_true_eq] at hm
    have ih := Memory.okFrom_filter p hm.2
    rw [List.filter_cons]
    split
    · simp only [Memory.okFrom, Bool.and_eq_true, decide_eq_true_eq]
      exact ⟨hm.1, ih⟩
    · exact Memory.okFrom_mono (by omega) ih

/-- Leaving bytes out keeps the canonical form. -/
theorem Memory.wf_filter {m : Memory} (h : m.wf = true) (p : Host.Cell → Bool) : Memory.wf (m.filter p) = true :=
  Memory.okFrom_filter p h

theorem Memory.wf_clear {m : Memory} (h : m.wf = true) (a n : Nat) : (m.clear a n).wf = true :=
  Memory.wf_filter h _

/-- The byte at an address after bytes have been written from `a` on. -/
theorem Memory.get_write : ∀ (bs : List Byte) {m : Memory}, m.wf = true → ∀ (a x : Nat),
    (m.write a bs).get x = if a ≤ x ∧ x < a + bs.length then bs.getD (x - a) 0 else m.get x
  | [], m, _, a, x => by
    rw [Memory.write, if_neg (by simp only [List.length_nil]; omega)]
  | b :: bs, m, h, a, x => by
    rw [Memory.write, Memory.get_write bs (Memory.wf_set h a b), Memory.get_set h]
    by_cases h1 : x = a
    · rw [if_neg (by omega), if_pos h1, if_pos (by simp; omega)]
      simp [h1]
    · by_cases h2 : a + 1 ≤ x ∧ x < a + 1 + bs.length
      · rw [if_pos h2, if_pos (by simp; omega), show x - a = (x - (a + 1)) + 1 by omega]
        simp
      · rw [if_neg h2, if_neg h1, if_neg (by simp; omega)]

/-- Bytes outside a written range are as before. -/
theorem Memory.get_write_other {m : Memory} (h : m.wf = true) (bs : List Byte) (a x : Nat)
    (hx : x < a ∨ a + bs.length ≤ x) : (m.write a bs).get x = m.get x := by
  rw [Memory.get_write bs h, if_neg (by omega)]

theorem Memory.read_length (m : Memory) : ∀ (n a : Nat), (m.read n a).length = n
  | 0, _ => rfl
  | n + 1, a => by simp [Memory.read, Memory.read_length m n]

theorem Memory.getD_read (m : Memory) : ∀ (n a i : Nat), i < n → (m.read n a).getD i 0 = m.get (a + i)
  | n + 1, a, 0, _ => by simp [Memory.read]
  | n + 1, a, i + 1, h => by
    rw [Memory.read, List.getD_cons_succ, Memory.getD_read m n (a + 1) i (by omega)]
    congr 1
    omega

/-- A read of a written range gives the bytes written. -/
theorem Memory.read_write {m : Memory} (h : m.wf = true) (bs : List Byte) (a : Nat) :
    (m.write a bs).read bs.length a = bs := by
  apply List.ext_getElem (Memory.read_length _ _ _)
  intro i h1 h2
  have := Memory.getD_read (m.write a bs) bs.length a i h2
  rw [Memory.get_write bs h, if_pos (by omega)] at this
  simpa [List.getD_eq_getElem?_getD, h2, Memory.read_length] using this

theorem length_bytesOf : ∀ (n x : Nat), (bytesOf n x).length = n
  | 0, _ => rfl
  | n + 1, x => by simp [bytesOf, length_bytesOf n]

theorem ofBytes_bytesOf : ∀ (n x : Nat), ofBytes (bytesOf n x) = x % 256 ^ n
  | 0, x => by simp [bytesOf, ofBytes, Nat.mod_one]
  | n + 1, x => by
    rw [bytesOf, ofBytes, ofBytes_bytesOf n, BitVec.toNat_ofNat, show 256 ^ (n + 1) = 256 * 256 ^ n by
      rw [Nat.pow_succ, Nat.mul_comm], Nat.mod_mul]

/-- A number read back from where it was written. -/
theorem Memory.num_setNum {m : Memory} (h : m.wf = true) (n a v : Nat) : (m.setNum n a v).num n a = v % 256 ^ n := by
  have := Memory.read_write h (bytesOf n v) a
  rw [length_bytesOf] at this
  rw [Memory.num, Memory.setNum, this, ofBytes_bytesOf]

/-- A number that stands apart from a write is as before. -/
theorem Memory.num_write_other {m : Memory} (h : m.wf = true) (bs : List Byte) (n a b : Nat)
    (hx : b + n ≤ a ∨ a + bs.length ≤ b) : (m.write a bs).num n b = m.num n b := by
  have : ∀ (n b : Nat), b + n ≤ a ∨ a + bs.length ≤ b → (m.write a bs).read n b = m.read n b := by
    intro n
    induction n with
    | zero => intros; rfl
    | succ n ih =>
      intro b hb
      rw [Memory.read, Memory.read, Memory.get_write_other h bs a b (by omega), ih (b + 1) (by omega)]
  rw [Memory.num, Memory.num, this n b hx]

/-! ## The machine's memories -/

/-- A copied range keeps the form. -/
theorem Memory.wf_copyRange {src dst : Memory} (h : dst.wf = true) (a b n : Nat) :
    (src.copyRange a dst b n).wf = true := by
  have go : ∀ (l : List Host.Cell) (m : Memory), m.wf = true →
      Memory.wf (l.foldl (fun m c => m.set (b + (c.1 - a)) c.2) m) = true := by
    intro l
    induction l with
    | nil => intro m hm; exact hm
    | cons c l ih => intro m hm; exact ih _ (Memory.wf_set hm _ _)
  exact go _ _ (Memory.wf_clear h b n)

/-- A number's byte. -/
theorem getD_bytesOf : ∀ (n v i : Nat), i < n → (bytesOf n v).getD i 0 = BitVec.ofNat 8 (v / 256 ^ i)
  | n + 1, v, 0, _ => by simp [bytesOf]
  | n + 1, v, i + 1, h => by
    simp only [bytesOf, List.getD_cons_succ, getD_bytesOf n _ i (by omega), Nat.div_div_eq_div_mul, pow_succ']

/-- A number written in memory: its bytes low first, every other byte as before. -/
theorem storedAs_setNum {m : Memory} (h : m.wf = true) (a n v : Nat) : StoredAs m (m.setNum n a v) a n v := by
  intro x
  rw [Memory.setNum, Memory.get_write _ h, length_bytesOf]
  split
  · rw [getD_bytesOf _ _ _ (by omega)]
  · rfl

/-- Memory is in canonical form right after reset. -/
theorem reset_memOk : State.reset.memOk = true := rfl

end Sys2Proof.Machine
end

