-- ==== Sys2Proof/Laws/Words.lean ====
section
/-! SUPPORT. Words and their fields: a word gives back the fields that were packed into it, and each record of operands
is read back from the fields that encode it. -/

namespace Sys2Proof

/-! ## Fields of concatenations -/

theorem extract_app_low {n m s k : Nat} (x : BitVec n) (y : BitVec m) (h : s + k ≤ m) :
    (x ++ y).extractLsb' s k = y.extractLsb' s k := by
  ext i hi
  rw [BitVec.getElem_extractLsb', BitVec.getElem_extractLsb', BitVec.getLsbD_append, if_pos (by omega)]

theorem extract_app_high {n m s k : Nat} (x : BitVec n) (y : BitVec m) (h : m ≤ s) :
    (x ++ y).extractLsb' s k = x.extractLsb' (s - m) k := by
  ext i hi
  rw [BitVec.getElem_extractLsb', BitVec.getElem_extractLsb', BitVec.getLsbD_append, if_neg (by omega)]
  congr 1
  omega

theorem extract_self {m : Nat} (y : BitVec m) : y.extractLsb' 0 m = y := by
  ext i hi
  rw [BitVec.getElem_extractLsb', ← BitVec.getLsbD_eq_getElem]
  congr 1
  omega

theorem lsb_app_low {n m i : Nat} (x : BitVec n) (y : BitVec m) (h : i < m) :
    (x ++ y).getLsbD i = y.getLsbD i := by rw [BitVec.getLsbD_append, if_pos h]

theorem lsb_app_high {n m i : Nat} (x : BitVec n) (y : BitVec m) (h : m ≤ i) :
    (x ++ y).getLsbD i = x.getLsbD (i - m) := by rw [BitVec.getLsbD_append, if_neg (by omega)]

theorem extract_join {n m : Nat} (x : BitVec (n + m)) : x.extractLsb' m n ++ x.extractLsb' 0 m = x := by
  ext i hi
  rw [← BitVec.getLsbD_eq_getElem, BitVec.getLsbD_append]
  split
  · rw [BitVec.getLsbD_extractLsb']
    simp [*]
  · rw [BitVec.getLsbD_extractLsb', show m + (i - m) = i by omega, ← BitVec.getLsbD_eq_getElem]
    simp [show i - m < n by omega]

theorem SRaw.unpack_pack (r : SRaw) : SRaw.unpack r.pack = r := by
  obtain ⟨op, d, a, b, fn⟩ := r
  simp only [SRaw.unpack, SRaw.pack, SRaw.mk.injEq]
  refine ⟨?_, ?_, ?_, ?_, ?_⟩ <;>
    · repeat first | rw [extract_app_high _ _ (by omega)] | rw [extract_app_low _ _ (by omega)]
      exact extract_self _

theorem VRaw.unpack_pack (r : VRaw) : VRaw.unpack r.pack = r := by
  obtain ⟨c, op, fn, vd, va, vb, vc, m, et, rnd, x⟩ := r
  simp only [VRaw.unpack, VRaw.pack, VRaw.mk.injEq]
  refine ⟨?_, ?_, ?_, ?_, ?_, ?_, ?_, ?_, ?_, ?_, ?_⟩
  case refine_1 =>
    repeat rw [lsb_app_high _ _ (by omega)]
    simp
  case refine_8 =>
    repeat first | rw [lsb_app_high _ _ (by omega)] | rw [lsb_app_low _ _ (by omega)]
    simp
  all_goals
    repeat first | rw [extract_app_high _ _ (by omega)] | rw [extract_app_low _ _ (by omega)]
    exact extract_self _

/-! ## Codes -/

theorem EType.ofCode_code (e : EType) : EType.ofCode e.code = e := by cases e <;> rfl
theorem Rnd.ofCode_code (e : Rnd) : Rnd.ofCode e.code = e := by cases e <;> rfl
theorem Scope.ofCode_code (e : Scope) : Scope.ofCode e.code = some e := by cases e <;> rfl
theorem IdxTy.ofCode_code (e : IdxTy) : IdxTy.ofCode e.code = some e := by cases e <;> rfl

/-! ## Records of operands -/

theorem SRaw.imm_ofImm (op : BitVec 6) (d a : BitVec 5) (i : BitVec 16) : (SRaw.ofImm op d a i).imm = i :=
  extract_join (n := 5) (m := 11) i

theorem SRaw.off_ofOff (op : BitVec 6) (d : BitVec 5) (i : BitVec 21) : (SRaw.ofOff op d i).off = i := by
  have h : (i.extractLsb' 16 5 ++ i.extractLsb' 11 5 : BitVec 10) = i.extractLsb' 11 10 := by
    have := extract_join (n := 5) (m := 5) (i.extractLsb' 11 10)
    rw [← this]
    congr 1 <;> (ext k hk; simp only [BitVec.getElem_extractLsb', BitVec.getLsbD_extractLsb']; simp [show 5 + k < 10 by omega, show k < 10 by omega]; try (congr 1; omega))
  show (i.extractLsb' 16 5 ++ i.extractLsb' 11 5 ++ i.extractLsb' 0 11 : BitVec 21) = i
  rw [h]
  exact extract_join (n := 10) (m := 11) i

theorem fn_low {n m : Nat} (a : BitVec n) (b : BitVec m) : (a ++ b).extractLsb' 0 m = b := by
  rw [extract_app_low _ _ (by omega)]
  exact extract_self b

theorem fn_high {n m : Nat} (a : BitVec n) (b : BitVec m) : (a ++ b).extractLsb' m n = a := by
  rw [extract_app_high _ _ (by omega), Nat.sub_self]
  exact extract_self a

theorem slot_field (n : BitVec 4) (a : BitVec 3) : (a ++ n ++ 0#16).extractLsb' 16 4 = n := by
  rw [extract_app_high _ _ (by omega)]
  exact fn_low a n

theorem Arith.enc_arith (o : Arith) (op : BitVec 7) (sel : BitVec 4) : (o.enc op sel).arith = some o := by
  obtain ⟨c, vd, va, src, vc, m, et, rnd⟩ := o
  have h (f : BitVec 2) : (sel ++ f : BitVec 6).extractLsb' 0 2 = f := fn_low sel f
  cases src with
  | vv v => simp [Arith.enc, VRaw.arith, VRaw.src, h, Src.form, Src.vb, EType.ofCode_code, Rnd.ofCode_code]
  | vo n =>
    have hx : (0#3 ++ n ++ 0#16 : BitVec 23).extractLsb' 16 4 = n := slot_field n 0
    simp [Arith.enc, VRaw.arith, VRaw.src, h, Src.form, Src.x, hx, EType.ofCode_code, Rnd.ofCode_code]
  | vi i =>
    have hx : (0#7 ++ i : BitVec 23).extractLsb' 0 16 = i := fn_low 0#7 i
    simp [Arith.enc, VRaw.arith, VRaw.src, h, Src.form, Src.x, hx, EType.ofCode_code, Rnd.ofCode_code]

theorem Arith.enc_sel (o : Arith) (op : BitVec 7) (sel : BitVec 4) : (o.enc op sel).fn.extractLsb' 2 4 = sel :=
  fn_high sel o.src.form

theorem MaskArgs.enc_masks (o : MaskArgs) (op : BitVec 7) (sel : BitVec 4) : (o.enc op sel).masks = o := rfl

theorem Gather.enc_gather (o : Gather) (wide : BitVec 1) : (o.enc wide).gather = o := by
  obtain ⟨c, vd, va, vb, m, et, g⟩ := o
  have h : (0#1 ++ g ++ wide ++ 0#2 : BitVec 6).extractLsb' 3 2 = g := by
    rw [extract_app_high _ _ (by omega), extract_app_high _ _ (by omega)]
    exact fn_low 0#1 g
  simp [Gather.enc, VRaw.gather, h, EType.ofCode_code]

theorem Gather.enc_wide (o : Gather) (b : Bool) : (o.enc (BitVec.ofBool b)).fn.getLsbD 2 = b := by
  show (0#1 ++ o.g ++ BitVec.ofBool b ++ 0#2 : BitVec 6).getLsbD 2 = b
  rw [lsb_app_high _ _ (by omega), lsb_app_low _ _ (by omega)]
  simp

theorem Bcast.enc_bcast (o : Bcast) : (o.enc).bcast = some o := by
  obtain ⟨c, vd, src, m, et⟩ := o
  cases src with
  | elem va e =>
    have hx : (0#8 ++ e : BitVec 23).extractLsb' 0 15 = e := fn_low 0#8 e
    simp [Bcast.enc, VRaw.bcast, hx, EType.ofCode_code]
  | slot n =>
    have hx : (0#3 ++ n ++ 0#16 : BitVec 23).extractLsb' 16 4 = n := slot_field n 0
    simp [Bcast.enc, VRaw.bcast, hx, EType.ofCode_code]
  | imm i =>
    have hx : (0#7 ++ i : BitVec 23).extractLsb' 0 16 = i := fn_low 0#7 i
    simp [Bcast.enc, VRaw.bcast, hx, EType.ofCode_code]

theorem RowMove.enc_rowMove (o : RowMove) (var : BitVec 4) : (o.enc var).rowMove = o := by
  obtain ⟨c, vd, va, m, et, dst, src⟩ := o
  have h1 : (0#15 ++ dst ++ src : BitVec 23).extractLsb' 4 4 = dst := by
    rw [extract_app_high _ _ (by omega)]
    exact fn_low 0#15 dst
  have h2 : (0#15 ++ dst ++ src : BitVec 23).extractLsb' 0 4 = src := fn_low (0#15 ++ dst) src
  simp [RowMove.enc, VRaw.rowMove, h1, h2, EType.ofCode_code]

theorem Conv.enc_conv (o : Conv) (op : BitVec 7) (var : BitVec 1) : (o.enc op var).conv = o := by
  obtain ⟨c, vd, va, ove, m, et, rnd, sty⟩ := o
  have h1 (b : Bool) : (BitVec.ofBool b ++ 0#2 ++ var ++ 0#2 : BitVec 6).getLsbD 5 = b := by
    rw [lsb_app_high _ _ (by omega), lsb_app_high _ _ (by omega), lsb_app_high _ _ (by omega)]
    simp
  have h2 (e : BitVec 4) : (0#19 ++ e : BitVec 23).extractLsb' 0 4 = e := fn_low 0#19 e
  cases ove <;> simp only [Conv.enc, VRaw.conv, h1, h2, EType.ofCode_code, Rnd.ofCode_code] <;> rfl

theorem Conv.enc_var (o : Conv) (op : BitVec 7) (b : Bool) : (o.enc op (BitVec.ofBool b)).fn.getLsbD 2 = b := by
  show (BitVec.ofBool o.ove.isSome ++ 0#2 ++ BitVec.ofBool b ++ 0#2 : BitVec 6).getLsbD 2 = b
  rw [lsb_app_high _ _ (by omega), lsb_app_low _ _ (by omega)]
  simp

theorem Cprs.enc_cprs (o : Cprs) : (o.enc).cprs = o := by simp [Cprs.enc, VRaw.cprs, EType.ofCode_code]

theorem MemArgs.enc_mem (o : MemArgs) (op : BitVec 7) (sel : BitVec 4) : (o.enc op sel).mem = some o := by
  obtain ⟨c, vd, va, vb, vc, m, et, iw, re, rx, we, wm, sc, ord, ao, adv, str⟩ := o
  have hf : (sel ++ iw.code : BitVec 6).extractLsb' 0 2 = iw.code := fn_low sel iw.code
  let x : BitVec 23 := 0#5 ++ BitVec.ofBool re ++ rx ++ BitVec.ofBool we ++ wm ++ sc.code ++ ord ++ BitVec.ofBool ao ++
    BitVec.ofBool adv ++ str
  have h1 : x.extractLsb' 8 3 = sc.code := by
    repeat first | rw [extract_app_high _ _ (by omega)] | rw [extract_app_low _ _ (by omega)]
    exact extract_self _
  have h2 : x.getLsbD 17 = re := by
    repeat first | rw [lsb_app_high _ _ (by omega)] | rw [lsb_app_low _ _ (by omega)]
    simp
  have h3 : x.extractLsb' 15 2 = rx := by
    repeat first | rw [extract_app_high _ _ (by omega)] | rw [extract_app_low _ _ (by omega)]
    exact extract_self _
  have h4 : x.getLsbD 14 = we := by
    repeat first | rw [lsb_app_high _ _ (by omega)] | rw [lsb_app_low _ _ (by omega)]
    simp
  have h5 : x.extractLsb' 11 3 = wm := by
    repeat first | rw [extract_app_high _ _ (by omega)] | rw [extract_app_low _ _ (by omega)]
    exact extract_self _
  have h6 : x.extractLsb' 6 2 = ord := by
    repeat first | rw [extract_app_high _ _ (by omega)] | rw [extract_app_low _ _ (by omega)]
    exact extract_self _
  have h7 : x.getLsbD 5 = ao := by
    repeat first | rw [lsb_app_high _ _ (by omega)] | rw [lsb_app_low _ _ (by omega)]
    simp
  have h8 : x.getLsbD 4 = adv := by
    repeat first | rw [lsb_app_high _ _ (by omega)] | rw [lsb_app_low _ _ (by omega)]
    simp
  have h9 : x.extractLsb' 0 4 = str := by
    repeat first | rw [extract_app_high _ _ (by omega)] | rw [extract_app_low _ _ (by omega)]
    exact extract_self _
  show (match IdxTy.ofCode ((sel ++ iw.code : BitVec 6).extractLsb' 0 2), Scope.ofCode (x.extractLsb' 8 3) with
    | some iw, some sc =>
      some (⟨c, vd, va, vb, vc, m, EType.ofCode et.code, iw, x.getLsbD 17, x.extractLsb' 15 2, x.getLsbD 14,
        x.extractLsb' 11 3, sc, x.extractLsb' 6 2, x.getLsbD 5, x.getLsbD 4, x.extractLsb' 0 4⟩ : MemArgs)
    | _, _ => none) = _
  rw [hf, h1, h2, h3, h4, h5, h6, h7, h8, h9, IdxTy.ofCode_code, Scope.ofCode_code, EType.ofCode_code]

theorem MemArgs.enc_sel (o : MemArgs) (op : BitVec 7) (sel : BitVec 4) : (o.enc op sel).fn.extractLsb' 2 4 = sel :=
  fn_high sel o.iw.code

theorem MemArgs.enc_fn5 (o : MemArgs) (op : BitVec 7) (b : Bool) (r : BitVec 3) :
    (o.enc op (BitVec.ofBool b ++ r)).fn.getLsbD 5 = b := by
  show (BitVec.ofBool b ++ r ++ o.iw.code : BitVec 6).getLsbD 5 = b
  rw [lsb_app_high _ _ (by omega), lsb_app_high _ _ (by omega)]
  simp

theorem Darn.enc_darn (o : Darn) (op : BitVec 7) (var : BitVec 1) : (o.enc op var).darn = o := by
  obtain ⟨c, vd, va, vb, vc, g, m⟩ := o
  have h : (0#1 ++ g ++ var ++ 0#2 : BitVec 6).extractLsb' 3 2 = g := by
    rw [extract_app_high _ _ (by omega), extract_app_high _ _ (by omega)]
    exact fn_low 0#1 g
  simp [Darn.enc, VRaw.darn, h]

theorem Darn.enc_var (o : Darn) (op : BitVec 7) (b : Bool) : (o.enc op (BitVec.ofBool b)).fn.getLsbD 2 = b := by
  show (0#1 ++ o.g ++ BitVec.ofBool b ++ 0#2 : BitVec 6).getLsbD 2 = b
  rw [lsb_app_high _ _ (by omega), lsb_app_low _ _ (by omega)]
  simp

theorem MatMul.enc_matMul (o : MatMul) (op : BitVec 7) (spm : BitVec 1) : (o.enc op spm).matMul = o := by
  obtain ⟨va, vb, vc, scl, g, t, et⟩ := o
  let x : BitVec 23 := 0#17 ++ BitVec.ofBool scl ++ spm ++ g ++ t
  have h1 : x.getLsbD 5 = scl := by
    repeat first | rw [lsb_app_high _ _ (by omega)] | rw [lsb_app_low _ _ (by omega)]
    simp
  have h2 : x.extractLsb' 2 2 = g := by
    repeat first | rw [extract_app_high _ _ (by omega)] | rw [extract_app_low _ _ (by omega)]
    exact extract_self _
  have h3 : x.extractLsb' 0 2 = t := by
    repeat first | rw [extract_app_high _ _ (by omega)] | rw [extract_app_low _ _ (by omega)]
    exact extract_self _
  show (⟨va, vb, vc, x.getLsbD 5, x.extractLsb' 2 2, x.extractLsb' 0 2, EType.ofCode et.code⟩ : MatMul) = _
  rw [h1, h2, h3, EType.ofCode_code]

theorem SliceMul.enc_sliceMul (o : SliceMul) : (o.enc).sliceMul = o := by
  obtain ⟨va, vb, k4, g, t, et⟩ := o
  let x : BitVec 23 := 0#13 ++ k4 ++ 0#2 ++ g ++ t
  have h1 : x.extractLsb' 6 4 = k4 := by
    repeat first | rw [extract_app_high _ _ (by omega)] | rw [extract_app_low _ _ (by omega)]
    exact extract_self _
  have h2 : x.extractLsb' 2 2 = g := by
    repeat first | rw [extract_app_high _ _ (by omega)] | rw [extract_app_low _ _ (by omega)]
    exact extract_self _
  have h3 : x.extractLsb' 0 2 = t := by
    repeat first | rw [extract_app_high _ _ (by omega)] | rw [extract_app_low _ _ (by omega)]
    exact extract_self _
  show (⟨va, vb, x.extractLsb' 6 4, x.extractLsb' 2 2, x.extractLsb' 0 2, EType.ofCode et.code⟩ : SliceMul) = _
  rw [h1, h2, h3, EType.ofCode_code]

theorem tile_field (t : BitVec 2) (a : BitVec 21) : (a ++ t).extractLsb' 0 2 = t := fn_low a t

theorem TileRead.enc_tileRead (o : TileRead) (var : BitVec 1) : (o.enc var).tileRead = o := by
  obtain ⟨vd, ove, m, et, rnd, t⟩ := o
  have h1 (b : Bool) : (BitVec.ofBool b ++ 0#2 ++ var ++ 0#2 : BitVec 6).getLsbD 5 = b := by
    rw [lsb_app_high _ _ (by omega), lsb_app_high _ _ (by omega), lsb_app_high _ _ (by omega)]
    simp
  have h2 : (0#21 ++ t : BitVec 23).extractLsb' 0 2 = t := tile_field t 0
  cases ove <;> simp only [TileRead.enc, VRaw.tileRead, h1, h2, EType.ofCode_code, Rnd.ofCode_code] <;> rfl

theorem TileRead.enc_var (o : TileRead) (b : Bool) : (o.enc (BitVec.ofBool b)).fn.getLsbD 2 = b := by
  show (BitVec.ofBool o.ove.isSome ++ 0#2 ++ BitVec.ofBool b ++ 0#2 : BitVec 6).getLsbD 2 = b
  rw [lsb_app_high _ _ (by omega), lsb_app_low _ _ (by omega)]
  simp

theorem TileWrite.enc_tileWrite (o : TileWrite) (var : BitVec 4) : (o.enc var).tileWrite = o := by
  obtain ⟨va, m, et, rnd, t⟩ := o
  have h2 : (0#21 ++ t : BitVec 23).extractLsb' 0 2 = t := tile_field t 0
  simp [TileWrite.enc, VRaw.tileWrite, h2, EType.ofCode_code, Rnd.ofCode_code]

theorem mreg_field (b : Bool) (a : BitVec 4) (r : BitVec 16) (mreg : BitVec 5) (v : VRaw)
    (hx : v.x = (0#2 ++ BitVec.ofBool b ++ a ++ r : BitVec 23)) (hd : v.vd = mreg) :
    v.mreg = if b then some mreg else none := by
  unfold VRaw.mreg
  rw [hx, hd]
  have h : (0#2 ++ BitVec.ofBool b ++ a ++ r : BitVec 23).getLsbD 20 = b := by
    rw [lsb_app_high _ _ (by omega), lsb_app_high _ _ (by omega), lsb_app_low _ _ (by omega)]
    simp
  rw [h]

theorem EngArgs.enc_eng (o : EngArgs) (op : BitVec 7) (sel et : BitVec 4) : (o.enc op sel et).eng = some o := by
  obtain ⟨mreg, src⟩ := o
  have hm : (EngArgs.enc ⟨mreg, src⟩ op sel et).mreg = mreg := by
    rw [mreg_field mreg.isSome src.slotField 0#16 (mreg.getD 0) _ rfl rfl]
    cases mreg <;> rfl
  have hf (f : BitVec 2) : (sel ++ f : BitVec 6).extractLsb' 0 2 = f := fn_low sel f
  have hs : (EngArgs.enc ⟨mreg, src⟩ op sel et).recSrc = some src := by
    cases src with
    | reg a => simp [EngArgs.enc, VRaw.recSrc, hf, RecSrc.form, RecSrc.va]
    | slot n =>
      have hx (b : Bool) : (0#2 ++ BitVec.ofBool b ++ n ++ 0#16 : BitVec 23).extractLsb' 16 4 = n := by
        rw [extract_app_high _ _ (by omega)]
        exact fn_low (0#2 ++ BitVec.ofBool b) n
      simp [EngArgs.enc, VRaw.recSrc, hf, RecSrc.form, RecSrc.slotField, hx]
  simp [VRaw.eng, hs, hm]

theorem EngArgs.enc_sel (o : EngArgs) (op : BitVec 7) (sel et : BitVec 4) :
    (o.enc op sel et).fn.extractLsb' 2 4 = sel := fn_high sel o.src.form

theorem AudArgs.enc_aud (o : AudArgs) : (o.enc).aud = o := by
  obtain ⟨c, va, vb, slot, m, et⟩ := o
  have hx : (0#3 ++ slot ++ 0#16 : BitVec 23).extractLsb' 16 4 = slot := slot_field slot 0
  simp [AudArgs.enc, VRaw.aud, hx, EType.ofCode_code]

theorem encWait_mreg (op : BitVec 7) (var : BitVec 4) (mreg : Option (BitVec 5)) (p : BitVec 18) :
    (encWait op var mreg p).mreg = mreg := by
  unfold VRaw.mreg
  have h (b : Bool) : (0#2 ++ BitVec.ofBool b ++ 0#2 ++ p : BitVec 23).getLsbD 20 = b := by
    rw [lsb_app_high _ _ (by omega), lsb_app_high _ _ (by omega), lsb_app_low _ _ (by omega)]
    simp
  show (if (0#2 ++ BitVec.ofBool mreg.isSome ++ 0#2 ++ p : BitVec 23).getLsbD 20 then some (mreg.getD 0) else none) = _
  rw [h]
  cases mreg <;> rfl

theorem encWait_p (op : BitVec 7) (var : BitVec 4) (mreg : Option (BitVec 5)) (p : BitVec 18) :
    (encWait op var mreg p).x.extractLsb' 0 18 = p := fn_low (0#2 ++ BitVec.ofBool mreg.isSome ++ 0#2) p

/-! ## Arms of the decoder that select further -/

theorem candV_0F (r : VRaw) (h : r.op = 0x0F) : candV r =
    (let sel := (r.fn.extractLsb' 2 4).toNat
     match sel with
    | 0 => r.arith.map .vsadd
    | 1 => r.arith.map .vssub
    | _ => none) := by
  obtain ⟨c, op, fn, vd, va, vb, vc, m, et, rnd, x⟩ := r
  cases h
  rfl

theorem candV_20 (r : VRaw) (h : r.op = 0x20) : candV r =
    (let sel := (r.fn.extractLsb' 2 4).toNat
     match sel with
    | 0 => r.arith.map .vcmpeq
    | 1 => r.arith.map .vcmpne
    | 2 => r.arith.map .vcmplt
    | 3 => r.arith.map .vcmpge
    | 4 => r.arith.map .vcmple
    | 5 => r.arith.map .vcmpgt
    | _ => none) := by
  obtain ⟨c, op, fn, vd, va, vb, vc, m, et, rnd, x⟩ := r
  cases h
  rfl

theorem candV_21 (r : VRaw) (h : r.op = 0x21) : candV r =
    (let sel := (r.fn.extractLsb' 2 4).toNat
     match sel with
    | 0 => r.arith.map .vfcmpeq
    | 1 => r.arith.map .vfcmpne
    | 2 => r.arith.map .vfcmplt
    | 3 => r.arith.map .vfcmple
    | 4 => r.arith.map .vfcmpgt
    | 5 => r.arith.map .vfcmpge
    | 6 => r.arith.map .vfcmpun
    | 7 => r.arith.map .vfcmpord
    | _ => none) := by
  obtain ⟨c, op, fn, vd, va, vb, vc, m, et, rnd, x⟩ := r
  cases h
  rfl

theorem candV_2B (r : VRaw) (h : r.op = 0x2B) : candV r =
    (let sel := (r.fn.extractLsb' 2 4).toNat
     match sel with
    | 0 => r.arith.map .vidx
    | 1 => r.arith.map .vidxr
    | _ => none) := by
  obtain ⟨c, op, fn, vd, va, vb, vc, m, et, rnd, x⟩ := r
  cases h
  rfl

theorem candV_2C (r : VRaw) (h : r.op = 0x2C) : candV r =
    (let sel := (r.fn.extractLsb' 2 4).toNat
     match sel with
    | 0 => r.arith.map .vredsum
    | 1 => r.arith.map .vredmin
    | 2 => r.arith.map .vredmax
    | 3 => r.arith.map .vredand
    | 4 => r.arith.map .vredor
    | 5 => r.arith.map .vredxor
    | _ => none) := by
  obtain ⟨c, op, fn, vd, va, vb, vc, m, et, rnd, x⟩ := r
  cases h
  rfl

theorem candV_2D (r : VRaw) (h : r.op = 0x2D) : candV r =
    (let sel := (r.fn.extractLsb' 2 4).toNat
     match sel with
    | 0 => r.arith.map .vfredt
    | 1 => r.arith.map .vfredo
    | 2 => r.arith.map .vfredmax
    | 3 => r.arith.map .vfredmin
    | _ => none) := by
  obtain ⟨c, op, fn, vd, va, vb, vc, m, et, rnd, x⟩ := r
  cases h
  rfl

theorem candV_2E (r : VRaw) (h : r.op = 0x2E) : candV r =
    (let sel := (r.fn.extractLsb' 2 4).toNat
     match sel with
    | 0 => r.arith.map .vscansum
    | 1 => r.arith.map .vscanmax
    | 2 => r.arith.map .vscanmin
    | _ => none) := by
  obtain ⟨c, op, fn, vd, va, vb, vc, m, et, rnd, x⟩ := r
  cases h
  rfl

theorem candV_2F (r : VRaw) (h : r.op = 0x2F) : candV r =
    (let sel := (r.fn.extractLsb' 2 4).toNat
     match sel with
    | 0 => r.arith.map .vcolsum
    | 1 => r.arith.map .vcolmax
    | 2 => r.arith.map .vcolmin
    | _ => none) := by
  obtain ⟨c, op, fn, vd, va, vb, vc, m, et, rnd, x⟩ := r
  cases h
  rfl

theorem candV_30 (r : VRaw) (h : r.op = 0x30) : candV r =
    (let b2 := r.fn.getLsbD 2
     if b2 then some (.vrgatherw r.gather) else some (.vrgather r.gather)) := by
  obtain ⟨c, op, fn, vd, va, vb, vc, m, et, rnd, x⟩ := r
  cases h
  rfl

theorem candV_37 (r : VRaw) (h : r.op = 0x37) : candV r =
    (let b2 := r.fn.getLsbD 2
     if b2 then some (.vrowbc r.rowMove) else some (.vrowmv r.rowMove)) := by
  obtain ⟨c, op, fn, vd, va, vb, vc, m, et, rnd, x⟩ := r
  cases h
  rfl

theorem candV_3B (r : VRaw) (h : r.op = 0x3B) : candV r =
    (let b2 := r.fn.getLsbD 2
     if b2 then some (.vunpk4 r.conv) else some (.vunpk2 r.conv)) := by
  obtain ⟨c, op, fn, vd, va, vb, vc, m, et, rnd, x⟩ := r
  cases h
  rfl

theorem candV_3D (r : VRaw) (h : r.op = 0x3D) : candV r =
    (let b2 := r.fn.getLsbD 2
     if b2 then some (.vsliceb r.conv) else some (.vslicea r.conv)) := by
  obtain ⟨c, op, fn, vd, va, vb, vc, m, et, rnd, x⟩ := r
  cases h
  rfl

theorem candV_3E (r : VRaw) (h : r.op = 0x3E) : candV r =
    (let b2 := r.fn.getLsbD 2
     if b2 then some (.vunsliceb r.conv) else some (.vunslicea r.conv)) := by
  obtain ⟨c, op, fn, vd, va, vb, vc, m, et, rnd, x⟩ := r
  cases h
  rfl

theorem candV_40 (r : VRaw) (h : r.op = 0x40) : candV r =
    (let b2 := r.fn.getLsbD 2
     some (if b2 then .vspecf r.c else .vspec r.c)) := by
  obtain ⟨c, op, fn, vd, va, vb, vc, m, et, rnd, x⟩ := r
  cases h
  rfl

theorem candV_41 (r : VRaw) (h : r.op = 0x41) : candV r =
    (let b2 := r.fn.getLsbD 2
     if b2 then some (.vbrki r.masks) else some (.vbrkb r.masks)) := by
  obtain ⟨c, op, fn, vd, va, vb, vc, m, et, rnd, x⟩ := r
  cases h
  rfl

theorem candV_42 (r : VRaw) (h : r.op = 0x42) : candV r =
    (let b2 := r.fn.getLsbD 2
     if b2 then some (.vexiti r.masks) else some (.vexitb r.masks)) := by
  obtain ⟨c, op, fn, vd, va, vb, vc, m, et, rnd, x⟩ := r
  cases h
  rfl

theorem candV_4C (r : VRaw) (h : r.op = 0x4C) : candV r =
    (if r.fn.getLsbD 5 then r.mem.map .vldspx else r.mem.map .vldsp) := by
  obtain ⟨c, op, fn, vd, va, vb, vc, m, et, rnd, x⟩ := r
  cases h
  rfl

theorem candV_53 (r : VRaw) (h : r.op = 0x53) : candV r =
    (let sel := (r.fn.extractLsb' 2 4).toNat
     match sel with
    | 0 => r.mem.map .vamoAdd
    | 1 => r.mem.map .vamoSwp
    | 2 => r.mem.map .vamoMin
    | 3 => r.mem.map .vamoMax
    | 4 => r.mem.map .vamoAnd
    | 5 => r.mem.map .vamoOr
    | 6 => r.mem.map .vamoXor
    | 7 => r.mem.map .vamoFadd
    | _ => none) := by
  obtain ⟨c, op, fn, vd, va, vb, vc, m, et, rnd, x⟩ := r
  cases h
  rfl

theorem candV_54 (r : VRaw) (h : r.op = 0x54) : candV r =
    (let sel := (r.fn.extractLsb' 2 4).toNat
     match sel with
    | 0 => r.mem.map .vxlt
    | 1 => r.mem.map .vxltff
    | _ => none) := by
  obtain ⟨c, op, fn, vd, va, vb, vc, m, et, rnd, x⟩ := r
  cases h
  rfl

theorem candV_55 (r : VRaw) (h : r.op = 0x55) : candV r =
    (let b2 := r.fn.getLsbD 2
     let q := r.x.extractLsb' 0 4
     if b2 then some (.sopenp r.c r.va q) else r.recSrc.map fun s => .sopen r.c s q) := by
  obtain ⟨c, op, fn, vd, va, vb, vc, m, et, rnd, x⟩ := r
  cases h
  rfl

theorem candV_57 (r : VRaw) (h : r.op = 0x57) : candV r =
    (let b2 := r.fn.getLsbD 2
     let q := r.x.extractLsb' 0 4
     some (if b2 then .ssave r.c r.vd q else .sclose r.c q)) := by
  obtain ⟨c, op, fn, vd, va, vb, vc, m, et, rnd, x⟩ := r
  cases h
  rfl

theorem candV_59 (r : VRaw) (h : r.op = 0x59) : candV r =
    (let b2 := r.fn.getLsbD 2
     some (if b2 then .mcscanc r.darn else .mcscan r.darn)) := by
  obtain ⟨c, op, fn, vd, va, vb, vc, m, et, rnd, x⟩ := r
  cases h
  rfl

theorem candV_5A (r : VRaw) (h : r.op = 0x5A) : candV r =
    (let b2 := r.fn.getLsbD 2
     some (if b2 then .mclegalx r.darn else .mclegal r.darn)) := by
  obtain ⟨c, op, fn, vd, va, vb, vc, m, et, rnd, x⟩ := r
  cases h
  rfl

theorem candV_5C (r : VRaw) (h : r.op = 0x5C) : candV r =
    (let b2 := r.fn.getLsbD 2
     let t := r.x.extractLsb' 0 2
     some (if b2 then .vgett r.c r.vd t else .vsett r.c r.va t)) := by
  obtain ⟨c, op, fn, vd, va, vb, vc, m, et, rnd, x⟩ := r
  cases h
  rfl

theorem candV_5D (r : VRaw) (h : r.op = 0x5D) : candV r =
    (let sel := (r.fn.extractLsb' 2 4).toNat
     match Scope.ofCode (r.x.extractLsb' 8 3) with
    | none => none
    | some sc =>
      match sel with
      | 1 => some (.vfenceAcq r.c sc)
      | 2 => some (.vfenceRel r.c sc)
      | 3 => some (.vfenceFull r.c sc)
      | _ => none) := by
  obtain ⟨c, op, fn, vd, va, vb, vc, m, et, rnd, x⟩ := r
  cases h
  rfl

theorem candV_5E (r : VRaw) (h : r.op = 0x5E) : candV r =
    (let slot := r.x.extractLsb' 16 4
     match (r.fn.extractLsb' 0 2).toNat with
    | 1 => some (.vmark r.c (.slot slot))
    | 2 => some (.vmark r.c (.imm (r.x.extractLsb' 0 16)))
    | _ => none) := by
  obtain ⟨c, op, fn, vd, va, vb, vc, m, et, rnd, x⟩ := r
  cases h
  rfl

theorem candV_60 (r : VRaw) (h : r.op = 0x60) : candV r =
    (let b2 := r.fn.getLsbD 2
     let t := r.x.extractLsb' 0 2
     some (if b2 then .mshapeg r.vd t else .mshape t (r.x.extractLsb' 6 4) (r.x.extractLsb' 10 11))) := by
  obtain ⟨c, op, fn, vd, va, vb, vc, m, et, rnd, x⟩ := r
  cases h
  rfl

theorem candV_65 (r : VRaw) (h : r.op = 0x65) : candV r =
    (let b2 := r.fn.getLsbD 2
     some (if b2 then .mrdz r.tileRead else .mrd r.tileRead)) := by
  obtain ⟨c, op, fn, vd, va, vb, vc, m, et, rnd, x⟩ := r
  cases h
  rfl

theorem candV_66 (r : VRaw) (h : r.op = 0x66) : candV r =
    (let b2 := r.fn.getLsbD 2
     some (if b2 then .mwra r.tileWrite else .mwr r.tileWrite)) := by
  obtain ⟨c, op, fn, vd, va, vb, vc, m, et, rnd, x⟩ := r
  cases h
  rfl

theorem candV_68 (r : VRaw) (h : r.op = 0x68) : candV r =
    (let t := r.x.extractLsb' 0 2
     let slot := r.x.extractLsb' 16 4
     if r.x.getLsbD 20 then
      if r.x.getLsbD 15 then some (.vprojt r.m r.vc slot (r.x.extractLsb' 6 9) t)
      else some (.vprojs r.m r.vc slot (r.x.extractLsb' 6 9) t)
    else some (.vproj r.m slot t)) := by
  obtain ⟨c, op, fn, vd, va, vb, vc, m, et, rnd, x⟩ := r
  cases h
  rfl

theorem candV_6A (r : VRaw) (h : r.op = 0x6A) : candV r =
    (let b2 := r.fn.getLsbD 2
     some (if b2 then .vpstrd r.vd else .vheaprd r.vd r.vc)) := by
  obtain ⟨c, op, fn, vd, va, vb, vc, m, et, rnd, x⟩ := r
  cases h
  rfl

theorem candV_6B (r : VRaw) (h : r.op = 0x6B) : candV r =
    (let sel := (r.fn.extractLsb' 2 4).toNat
     match sel with
    | 0 => some (.vhmerge r.va r.vb)
    | 1 => some (.vhmergen r.va r.vb r.vc)
    | 2 => some (.vpstwr r.va r.vb r.vc)
    | _ => none) := by
  obtain ⟨c, op, fn, vd, va, vb, vc, m, et, rnd, x⟩ := r
  cases h
  rfl

theorem candV_6F (r : VRaw) (h : r.op = 0x6F) : candV r =
    (let slot := r.x.extractLsb' 16 4
     let et := EType.ofCode r.et
    match (r.fn.extractLsb' 0 3).toNat with
    | 0 => some (.draw r.m r.vd r.va r.vb et)
    | 1 => some (.drawr r.m r.vd r.va r.vb et slot)
    | 4 => some (.drawn r.m r.vd r.va r.vb et)
    | 5 => some (.drawrn r.m r.vd r.va r.vb et slot)
    | _ => none) := by
  obtain ⟨c, op, fn, vd, va, vb, vc, m, et, rnd, x⟩ := r
  cases h
  rfl

theorem candV_72 (r : VRaw) (h : r.op = 0x72) : candV r =
    (let b2 := r.fn.getLsbD 2
     some ((if b2 then Instr.cpywaitv else Instr.cpywait) r.mreg (r.x.extractLsb' 0 18))) := by
  obtain ⟨c, op, fn, vd, va, vb, vc, m, et, rnd, x⟩ := r
  cases h
  rfl

theorem candV_78 (r : VRaw) (h : r.op = 0x78) : candV r =
    (let b2 := r.fn.getLsbD 2
     r.eng.map (if b2 then .csendm else .csend)) := by
  obtain ⟨c, op, fn, vd, va, vb, vc, m, et, rnd, x⟩ := r
  cases h
  rfl

theorem candV_7A (r : VRaw) (h : r.op = 0x7A) : candV r =
    (let sel := (r.fn.extractLsb' 2 4).toNat
     let et := EType.ofCode r.et
    match sel with
    | 0 => r.eng.map (.credsum · et)
    | 1 => r.eng.map (.credmax · et)
    | 2 => r.eng.map (.credmin · et)
    | 3 => r.eng.map (.credrs · et)
    | 4 => r.eng.map (.credheap · et)
    | _ => none) := by
  obtain ⟨c, op, fn, vd, va, vb, vc, m, et, rnd, x⟩ := r
  cases h
  rfl

theorem candV_7B (r : VRaw) (h : r.op = 0x7B) : candV r =
    (let b2 := r.fn.getLsbD 2
     some ((if b2 then Instr.cwaitv else Instr.cwait) r.mreg (r.x.extractLsb' 0 18))) := by
  obtain ⟨c, op, fn, vd, va, vb, vc, m, et, rnd, x⟩ := r
  cases h
  rfl

theorem candS_07 (r : SRaw) (h : r.op = 7) : candS r =
    (match (r.imm.extractLsb' 6 2).toNat with
     | 0 => some (.shli r.d r.a (r.imm.extractLsb' 0 6))
     | 1 => some (.shri r.d r.a (r.imm.extractLsb' 0 6))
     | 2 => some (.sari r.d r.a (r.imm.extractLsb' 0 6))
     | _ => none) := by
  obtain ⟨op, d, a, b, fn⟩ := r
  cases h
  rfl

theorem candS_1C (r : SRaw) (h : r.op = 0x1C) : candS r =
    (let size := r.fn.extractLsb' 5 2
    let ord := r.fn.extractLsb' 3 2
    match Scope.ofCode (r.fn.extractLsb' 0 3) with
    | none => none
    | some sc =>
      match (r.fn.extractLsb' 7 4).toNat with
      | 0 => some (.amoAdd r.d r.a r.b size ord sc)
      | 1 => some (.amoSwp r.d r.a r.b size ord sc)
      | 2 => some (.amoCas r.d r.a r.b size ord sc)
      | 3 => some (.amoMin r.d r.a r.b size ord sc)
      | 4 => some (.amoMax r.d r.a r.b size ord sc)
      | 5 => some (.amoMinn r.d r.a r.b size ord sc)
      | 6 => some (.amoMaxn r.d r.a r.b size ord sc)
      | 7 => some (.amoAnd r.d r.a r.b size ord sc)
      | 8 => some (.amoOr r.d r.a r.b size ord sc)
      | 9 => some (.amoXor r.d r.a r.b size ord sc)
      | _ => none) := by
  obtain ⟨op, d, a, b, fn⟩ := r
  cases h
  rfl

theorem amo_fields (k : BitVec 4) (size ord : BitVec 2) (sc : Scope) :
    (k ++ size ++ ord ++ sc.code : BitVec 11).extractLsb' 5 2 = size ∧
      (k ++ size ++ ord ++ sc.code : BitVec 11).extractLsb' 3 2 = ord ∧
      (k ++ size ++ ord ++ sc.code : BitVec 11).extractLsb' 0 3 = sc.code ∧
      (k ++ size ++ ord ++ sc.code : BitVec 11).extractLsb' 7 4 = k := by
  refine ⟨?_, ?_, ?_, ?_⟩ <;>
    · repeat first | rw [extract_app_high _ _ (by omega)] | rw [extract_app_low _ _ (by omega)]
      exact extract_self _

end Sys2Proof
end

