-- ==== Sys2Proof/Laws/PerInstr.lean ====
section
/-! SUPPORT. The family `RoundTrip`, one lemma per instruction: the decoder's selection gives back the instruction whose
fields it is shown. -/

namespace Sys2Proof.Laws.RoundTrip

/-- The fields of a well-formed instruction select that instruction. -/
def Statement (i : Instr) : Prop :=
  i.wf = true → (∀ r, encodeS i = some r → candS r = some i) ∧ (∀ r, encodeV i = some r → candV r = some i)

theorem ofS {i : Instr} {r : SRaw} (hs : encodeS i = some r) (hv : encodeV i = none) (hc : candS r = some i) :
    Statement i := fun _ =>
  ⟨fun _ h => (Option.some.inj (hs.symm.trans h)) ▸ hc, fun _ h => (by rw [hv] at h; cases h)⟩

theorem ofV {i : Instr} {r : VRaw} (hs : encodeS i = none) (hv : encodeV i = some r) (hc : candV r = some i) :
    Statement i := fun _ =>
  ⟨fun _ h => (by rw [hs] at h; cases h), fun _ h => (Option.some.inj (hv.symm.trans h)) ▸ hc⟩

theorem ofNone {i : Instr} (hs : encodeS i = none) (hv : encodeV i = none) : Statement i := fun _ =>
  ⟨fun _ h => (by rw [hs] at h; cases h), fun _ h => (by rw [hv] at h; cases h)⟩

theorem vadd (o : Arith) : Statement (.vadd o) :=
  ofV rfl rfl (by
    show (o.enc 0x01 0).arith.map Instr.vadd = _
    rw [Arith.enc_arith]
    rfl)
theorem vsub (o : Arith) : Statement (.vsub o) :=
  ofV rfl rfl (by
    show (o.enc 0x02 0).arith.map Instr.vsub = _
    rw [Arith.enc_arith]
    rfl)
theorem vmul (o : Arith) : Statement (.vmul o) :=
  ofV rfl rfl (by
    show (o.enc 0x03 0).arith.map Instr.vmul = _
    rw [Arith.enc_arith]
    rfl)
theorem vmulh (o : Arith) : Statement (.vmulh o) :=
  ofV rfl rfl (by
    show (o.enc 0x04 0).arith.map Instr.vmulh = _
    rw [Arith.enc_arith]
    rfl)
theorem vmacc (o : Arith) : Statement (.vmacc o) :=
  ofV rfl rfl (by
    show (o.enc 0x05 0).arith.map Instr.vmacc = _
    rw [Arith.enc_arith]
    rfl)
theorem vmin (o : Arith) : Statement (.vmin o) :=
  ofV rfl rfl (by
    show (o.enc 0x06 0).arith.map Instr.vmin = _
    rw [Arith.enc_arith]
    rfl)
theorem vmax (o : Arith) : Statement (.vmax o) :=
  ofV rfl rfl (by
    show (o.enc 0x07 0).arith.map Instr.vmax = _
    rw [Arith.enc_arith]
    rfl)
theorem vand (o : Arith) : Statement (.vand o) :=
  ofV rfl rfl (by
    show (o.enc 0x08 0).arith.map Instr.vand = _
    rw [Arith.enc_arith]
    rfl)
theorem vor (o : Arith) : Statement (.vor o) :=
  ofV rfl rfl (by
    show (o.enc 0x09 0).arith.map Instr.vor = _
    rw [Arith.enc_arith]
    rfl)
theorem vxor (o : Arith) : Statement (.vxor o) :=
  ofV rfl rfl (by
    show (o.enc 0x0A 0).arith.map Instr.vxor = _
    rw [Arith.enc_arith]
    rfl)
theorem vshl (o : Arith) : Statement (.vshl o) :=
  ofV rfl rfl (by
    show (o.enc 0x0B 0).arith.map Instr.vshl = _
    rw [Arith.enc_arith]
    rfl)
theorem vshr (o : Arith) : Statement (.vshr o) :=
  ofV rfl rfl (by
    show (o.enc 0x0C 0).arith.map Instr.vshr = _
    rw [Arith.enc_arith]
    rfl)
theorem vsar (o : Arith) : Statement (.vsar o) :=
  ofV rfl rfl (by
    show (o.enc 0x0D 0).arith.map Instr.vsar = _
    rw [Arith.enc_arith]
    rfl)
theorem vabs (o : Arith) : Statement (.vabs o) :=
  ofV rfl rfl (by
    show (o.enc 0x0E 0).arith.map Instr.vabs = _
    rw [Arith.enc_arith]
    rfl)
theorem vsadd (o : Arith) : Statement (.vsadd o) :=
  ofV rfl rfl (by
    rw [candV_0F _ rfl]
    simp only [Arith.enc_sel, Arith.enc_arith, Option.map_some]
    rfl)
theorem vssub (o : Arith) : Statement (.vssub o) :=
  ofV rfl rfl (by
    rw [candV_0F _ rfl]
    simp only [Arith.enc_sel, Arith.enc_arith, Option.map_some]
    rfl)
theorem vfadd (o : Arith) : Statement (.vfadd o) :=
  ofV rfl rfl (by
    show (o.enc 0x10 0).arith.map Instr.vfadd = _
    rw [Arith.enc_arith]
    rfl)
theorem vfsub (o : Arith) : Statement (.vfsub o) :=
  ofV rfl rfl (by
    show (o.enc 0x11 0).arith.map Instr.vfsub = _
    rw [Arith.enc_arith]
    rfl)
theorem vfmul (o : Arith) : Statement (.vfmul o) :=
  ofV rfl rfl (by
    show (o.enc 0x12 0).arith.map Instr.vfmul = _
    rw [Arith.enc_arith]
    rfl)
theorem vfma (o : Arith) : Statement (.vfma o) :=
  ofV rfl rfl (by
    show (o.enc 0x13 0).arith.map Instr.vfma = _
    rw [Arith.enc_arith]
    rfl)
theorem vfnma (o : Arith) : Statement (.vfnma o) :=
  ofV rfl rfl (by
    show (o.enc 0x14 0).arith.map Instr.vfnma = _
    rw [Arith.enc_arith]
    rfl)
theorem vfdiv (o : Arith) : Statement (.vfdiv o) :=
  ofV rfl rfl (by
    show (o.enc 0x15 0).arith.map Instr.vfdiv = _
    rw [Arith.enc_arith]
    rfl)
theorem vfsqrt (o : Arith) : Statement (.vfsqrt o) :=
  ofV rfl rfl (by
    show (o.enc 0x16 0).arith.map Instr.vfsqrt = _
    rw [Arith.enc_arith]
    rfl)
theorem vfrsqe (o : Arith) : Statement (.vfrsqe o) :=
  ofV rfl rfl (by
    show (o.enc 0x17 0).arith.map Instr.vfrsqe = _
    rw [Arith.enc_arith]
    rfl)
theorem vfexp2 (o : Arith) : Statement (.vfexp2 o) :=
  ofV rfl rfl (by
    show (o.enc 0x18 0).arith.map Instr.vfexp2 = _
    rw [Arith.enc_arith]
    rfl)
theorem vfmin (o : Arith) : Statement (.vfmin o) :=
  ofV rfl rfl (by
    show (o.enc 0x19 0).arith.map Instr.vfmin = _
    rw [Arith.enc_arith]
    rfl)
theorem vfmax (o : Arith) : Statement (.vfmax o) :=
  ofV rfl rfl (by
    show (o.enc 0x1A 0).arith.map Instr.vfmax = _
    rw [Arith.enc_arith]
    rfl)
theorem vfclamp (o : Arith) : Statement (.vfclamp o) :=
  ofV rfl rfl (by
    show (o.enc 0x1B 0).arith.map Instr.vfclamp = _
    rw [Arith.enc_arith]
    rfl)
theorem vfabs (o : Arith) : Statement (.vfabs o) :=
  ofV rfl rfl (by
    show (o.enc 0x1C 0).arith.map Instr.vfabs = _
    rw [Arith.enc_arith]
    rfl)
theorem vfneg (o : Arith) : Statement (.vfneg o) :=
  ofV rfl rfl (by
    show (o.enc 0x1D 0).arith.map Instr.vfneg = _
    rw [Arith.enc_arith]
    rfl)
theorem vcmpeq (o : Arith) : Statement (.vcmpeq o) :=
  ofV rfl rfl (by
    rw [candV_20 _ rfl]
    simp only [Arith.enc_sel, Arith.enc_arith, Option.map_some]
    rfl)
theorem vcmpne (o : Arith) : Statement (.vcmpne o) :=
  ofV rfl rfl (by
    rw [candV_20 _ rfl]
    simp only [Arith.enc_sel, Arith.enc_arith, Option.map_some]
    rfl)
theorem vcmplt (o : Arith) : Statement (.vcmplt o) :=
  ofV rfl rfl (by
    rw [candV_20 _ rfl]
    simp only [Arith.enc_sel, Arith.enc_arith, Option.map_some]
    rfl)
theorem vcmpge (o : Arith) : Statement (.vcmpge o) :=
  ofV rfl rfl (by
    rw [candV_20 _ rfl]
    simp only [Arith.enc_sel, Arith.enc_arith, Option.map_some]
    rfl)
theorem vcmple (o : Arith) : Statement (.vcmple o) :=
  ofV rfl rfl (by
    rw [candV_20 _ rfl]
    simp only [Arith.enc_sel, Arith.enc_arith, Option.map_some]
    rfl)
theorem vcmpgt (o : Arith) : Statement (.vcmpgt o) :=
  ofV rfl rfl (by
    rw [candV_20 _ rfl]
    simp only [Arith.enc_sel, Arith.enc_arith, Option.map_some]
    rfl)
theorem vfcmpeq (o : Arith) : Statement (.vfcmpeq o) :=
  ofV rfl rfl (by
    rw [candV_21 _ rfl]
    simp only [Arith.enc_sel, Arith.enc_arith, Option.map_some]
    rfl)
theorem vfcmpne (o : Arith) : Statement (.vfcmpne o) :=
  ofV rfl rfl (by
    rw [candV_21 _ rfl]
    simp only [Arith.enc_sel, Arith.enc_arith, Option.map_some]
    rfl)
theorem vfcmplt (o : Arith) : Statement (.vfcmplt o) :=
  ofV rfl rfl (by
    rw [candV_21 _ rfl]
    simp only [Arith.enc_sel, Arith.enc_arith, Option.map_some]
    rfl)
theorem vfcmple (o : Arith) : Statement (.vfcmple o) :=
  ofV rfl rfl (by
    rw [candV_21 _ rfl]
    simp only [Arith.enc_sel, Arith.enc_arith, Option.map_some]
    rfl)
theorem vfcmpgt (o : Arith) : Statement (.vfcmpgt o) :=
  ofV rfl rfl (by
    rw [candV_21 _ rfl]
    simp only [Arith.enc_sel, Arith.enc_arith, Option.map_some]
    rfl)
theorem vfcmpge (o : Arith) : Statement (.vfcmpge o) :=
  ofV rfl rfl (by
    rw [candV_21 _ rfl]
    simp only [Arith.enc_sel, Arith.enc_arith, Option.map_some]
    rfl)
theorem vfcmpun (o : Arith) : Statement (.vfcmpun o) :=
  ofV rfl rfl (by
    rw [candV_21 _ rfl]
    simp only [Arith.enc_sel, Arith.enc_arith, Option.map_some]
    rfl)
theorem vfcmpord (o : Arith) : Statement (.vfcmpord o) :=
  ofV rfl rfl (by
    rw [candV_21 _ rfl]
    simp only [Arith.enc_sel, Arith.enc_arith, Option.map_some]
    rfl)
theorem vmand (o : MaskArgs) : Statement (.vmand o) :=
  ofV rfl rfl (congrArg (fun o => some (Instr.vmand o)) (MaskArgs.enc_masks o _ _))
theorem vmor (o : MaskArgs) : Statement (.vmor o) :=
  ofV rfl rfl (congrArg (fun o => some (Instr.vmor o)) (MaskArgs.enc_masks o _ _))
theorem vmxor (o : MaskArgs) : Statement (.vmxor o) :=
  ofV rfl rfl (congrArg (fun o => some (Instr.vmxor o)) (MaskArgs.enc_masks o _ _))
theorem vmnot (o : MaskArgs) : Statement (.vmnot o) :=
  ofV rfl rfl (congrArg (fun o => some (Instr.vmnot o)) (MaskArgs.enc_masks o _ _))
theorem vmandn (o : MaskArgs) : Statement (.vmandn o) :=
  ofV rfl rfl (congrArg (fun o => some (Instr.vmandn o)) (MaskArgs.enc_masks o _ _))
theorem vmpop (o : Arith) : Statement (.vmpop o) :=
  ofV rfl rfl (by
    show (o.enc 0x27 0).arith.map Instr.vmpop = _
    rw [Arith.enc_arith]
    rfl)
theorem vmfirst (o : Arith) : Statement (.vmfirst o) :=
  ofV rfl rfl (by
    show (o.enc 0x28 0).arith.map Instr.vmfirst = _
    rw [Arith.enc_arith]
    rfl)
theorem vmscanand (o : MaskArgs) : Statement (.vmscanand o) :=
  ofV rfl rfl (congrArg (fun o => some (Instr.vmscanand o)) (MaskArgs.enc_masks o _ _))
theorem viota (o : Arith) : Statement (.viota o) :=
  ofV rfl rfl (by
    show (o.enc 0x2A 0).arith.map Instr.viota = _
    rw [Arith.enc_arith]
    rfl)
theorem vidx (o : Arith) : Statement (.vidx o) :=
  ofV rfl rfl (by
    rw [candV_2B _ rfl]
    simp only [Arith.enc_sel, Arith.enc_arith, Option.map_some]
    rfl)
theorem vidxr (o : Arith) : Statement (.vidxr o) :=
  ofV rfl rfl (by
    rw [candV_2B _ rfl]
    simp only [Arith.enc_sel, Arith.enc_arith, Option.map_some]
    rfl)
theorem vredsum (o : Arith) : Statement (.vredsum o) :=
  ofV rfl rfl (by
    rw [candV_2C _ rfl]
    simp only [Arith.enc_sel, Arith.enc_arith, Option.map_some]
    rfl)
theorem vredmin (o : Arith) : Statement (.vredmin o) :=
  ofV rfl rfl (by
    rw [candV_2C _ rfl]
    simp only [Arith.enc_sel, Arith.enc_arith, Option.map_some]
    rfl)
theorem vredmax (o : Arith) : Statement (.vredmax o) :=
  ofV rfl rfl (by
    rw [candV_2C _ rfl]
    simp only [Arith.enc_sel, Arith.enc_arith, Option.map_some]
    rfl)
theorem vredand (o : Arith) : Statement (.vredand o) :=
  ofV rfl rfl (by
    rw [candV_2C _ rfl]
    simp only [Arith.enc_sel, Arith.enc_arith, Option.map_some]
    rfl)
theorem vredor (o : Arith) : Statement (.vredor o) :=
  ofV rfl rfl (by
    rw [candV_2C _ rfl]
    simp only [Arith.enc_sel, Arith.enc_arith, Option.map_some]
    rfl)
theorem vredxor (o : Arith) : Statement (.vredxor o) :=
  ofV rfl rfl (by
    rw [candV_2C _ rfl]
    simp only [Arith.enc_sel, Arith.enc_arith, Option.map_some]
    rfl)
theorem vfredt (o : Arith) : Statement (.vfredt o) :=
  ofV rfl rfl (by
    rw [candV_2D _ rfl]
    simp only [Arith.enc_sel, Arith.enc_arith, Option.map_some]
    rfl)
theorem vfredo (o : Arith) : Statement (.vfredo o) :=
  ofV rfl rfl (by
    rw [candV_2D _ rfl]
    simp only [Arith.enc_sel, Arith.enc_arith, Option.map_some]
    rfl)
theorem vfredmax (o : Arith) : Statement (.vfredmax o) :=
  ofV rfl rfl (by
    rw [candV_2D _ rfl]
    simp only [Arith.enc_sel, Arith.enc_arith, Option.map_some]
    rfl)
theorem vfredmin (o : Arith) : Statement (.vfredmin o) :=
  ofV rfl rfl (by
    rw [candV_2D _ rfl]
    simp only [Arith.enc_sel, Arith.enc_arith, Option.map_some]
    rfl)
theorem vscansum (o : Arith) : Statement (.vscansum o) :=
  ofV rfl rfl (by
    rw [candV_2E _ rfl]
    simp only [Arith.enc_sel, Arith.enc_arith, Option.map_some]
    rfl)
theorem vscanmax (o : Arith) : Statement (.vscanmax o) :=
  ofV rfl rfl (by
    rw [candV_2E _ rfl]
    simp only [Arith.enc_sel, Arith.enc_arith, Option.map_some]
    rfl)
theorem vscanmin (o : Arith) : Statement (.vscanmin o) :=
  ofV rfl rfl (by
    rw [candV_2E _ rfl]
    simp only [Arith.enc_sel, Arith.enc_arith, Option.map_some]
    rfl)
theorem vcolsum (o : Arith) : Statement (.vcolsum o) :=
  ofV rfl rfl (by
    rw [candV_2F _ rfl]
    simp only [Arith.enc_sel, Arith.enc_arith, Option.map_some]
    rfl)
theorem vcolmax (o : Arith) : Statement (.vcolmax o) :=
  ofV rfl rfl (by
    rw [candV_2F _ rfl]
    simp only [Arith.enc_sel, Arith.enc_arith, Option.map_some]
    rfl)
theorem vcolmin (o : Arith) : Statement (.vcolmin o) :=
  ofV rfl rfl (by
    rw [candV_2F _ rfl]
    simp only [Arith.enc_sel, Arith.enc_arith, Option.map_some]
    rfl)
theorem vrgather (o : Gather) : Statement (.vrgather o) :=
  ofV rfl rfl (by
    rw [candV_30 _ rfl, show (o.enc 0).fn.getLsbD 2 = false from Gather.enc_wide o false, Gather.enc_gather]
    rfl)
theorem vrgatherw (o : Gather) : Statement (.vrgatherw o) :=
  ofV rfl rfl (by
    rw [candV_30 _ rfl, show (o.enc 1).fn.getLsbD 2 = true from Gather.enc_wide o true, Gather.enc_gather]
    rfl)
theorem vslideup (o : Arith) : Statement (.vslideup o) :=
  ofV rfl rfl (by
    show (o.enc 0x31 0).arith.map Instr.vslideup = _
    rw [Arith.enc_arith]
    rfl)
theorem vslidedn (o : Arith) : Statement (.vslidedn o) :=
  ofV rfl rfl (by
    show (o.enc 0x32 0).arith.map Instr.vslidedn = _
    rw [Arith.enc_arith]
    rfl)
theorem vcompress (o : Arith) : Statement (.vcompress o) :=
  ofV rfl rfl (by
    show (o.enc 0x33 0).arith.map Instr.vcompress = _
    rw [Arith.enc_arith]
    rfl)
theorem vexpand (o : Arith) : Statement (.vexpand o) :=
  ofV rfl rfl (by
    show (o.enc 0x34 0).arith.map Instr.vexpand = _
    rw [Arith.enc_arith]
    rfl)
theorem vbcast (o : Bcast) : Statement (.vbcast o) :=
  ofV rfl rfl (by
    have h : candV o.enc = o.enc.bcast.map Instr.vbcast := by
      obtain ⟨c, vd, src, m, et⟩ := o
      cases src <;> rfl
    rw [h, Bcast.enc_bcast]
    rfl)
theorem vmv (o : Arith) : Statement (.vmv o) :=
  ofV rfl rfl (by
    show (o.enc 0x36 0).arith.map Instr.vmv = _
    rw [Arith.enc_arith]
    rfl)
theorem vrowmv (o : RowMove) : Statement (.vrowmv o) :=
  ofV rfl rfl (by
    rw [candV_37 _ rfl, show (o.enc 0).fn.getLsbD 2 = false from by simp [RowMove.enc], RowMove.enc_rowMove]
    rfl)
theorem vrowbc (o : RowMove) : Statement (.vrowbc o) :=
  ofV rfl rfl (by
    rw [candV_37 _ rfl, show (o.enc 1).fn.getLsbD 2 = true from by simp [RowMove.enc], RowMove.enc_rowMove]
    rfl)
theorem vcvt (o : Conv) : Statement (.vcvt o) :=
  ofV rfl rfl (congrArg (fun o => some (Instr.vcvt o)) (Conv.enc_conv o _ _))
theorem vpack2 (o : Conv) : Statement (.vpack2 o) :=
  ofV rfl rfl (congrArg (fun o => some (Instr.vpack2 o)) (Conv.enc_conv o _ _))
theorem vpack4 (o : Conv) : Statement (.vpack4 o) :=
  ofV rfl rfl (congrArg (fun o => some (Instr.vpack4 o)) (Conv.enc_conv o _ _))
theorem vunpk2 (o : Conv) : Statement (.vunpk2 o) :=
  ofV rfl rfl (by
    rw [candV_3B _ rfl, show (o.enc 0x3B 0).fn.getLsbD 2 = false from Conv.enc_var o 0x3B false, Conv.enc_conv]
    rfl)
theorem vunpk4 (o : Conv) : Statement (.vunpk4 o) :=
  ofV rfl rfl (by
    rw [candV_3B _ rfl, show (o.enc 0x3B 1).fn.getLsbD 2 = true from Conv.enc_var o 0x3B true, Conv.enc_conv]
    rfl)
theorem vqnt (o : Conv) : Statement (.vqnt o) :=
  ofV rfl rfl (congrArg (fun o => some (Instr.vqnt o)) (Conv.enc_conv o _ _))
theorem vslicea (o : Conv) : Statement (.vslicea o) :=
  ofV rfl rfl (by
    rw [candV_3D _ rfl, show (o.enc 0x3D 0).fn.getLsbD 2 = false from Conv.enc_var o 0x3D false, Conv.enc_conv]
    rfl)
theorem vsliceb (o : Conv) : Statement (.vsliceb o) :=
  ofV rfl rfl (by
    rw [candV_3D _ rfl, show (o.enc 0x3D 1).fn.getLsbD 2 = true from Conv.enc_var o 0x3D true, Conv.enc_conv]
    rfl)
theorem vunslicea (o : Conv) : Statement (.vunslicea o) :=
  ofV rfl rfl (by
    rw [candV_3E _ rfl, show (o.enc 0x3E 0).fn.getLsbD 2 = false from Conv.enc_var o 0x3E false, Conv.enc_conv]
    rfl)
theorem vunsliceb (o : Conv) : Statement (.vunsliceb o) :=
  ofV rfl rfl (by
    rw [candV_3E _ rfl, show (o.enc 0x3E 1).fn.getLsbD 2 = true from Conv.enc_var o 0x3E true, Conv.enc_conv]
    rfl)
theorem vcprs4 (o : Cprs) : Statement (.vcprs4 o) :=
  ofV rfl rfl (congrArg (fun o => some (Instr.vcprs4 o)) (Cprs.enc_cprs o))
theorem vspec (c : Bool) : Statement (.vspec c) :=
  ofV rfl rfl (by
    rw [candV_40 _ rfl]
    simp [show VRaw.zero.fn = 0 from rfl])
theorem vspecf (c : Bool) : Statement (.vspecf c) :=
  ofV rfl rfl (by
    rw [candV_40 _ rfl]
    simp)
theorem vbrkb (o : MaskArgs) : Statement (.vbrkb o) :=
  ofV rfl rfl (by
    rw [candV_41 _ rfl, show (o.enc 0x41 0).fn.getLsbD 2 = false from by simp [MaskArgs.enc], MaskArgs.enc_masks]
    rfl)
theorem vbrki (o : MaskArgs) : Statement (.vbrki o) :=
  ofV rfl rfl (by
    rw [candV_41 _ rfl, show (o.enc 0x41 1).fn.getLsbD 2 = true from by simp [MaskArgs.enc], MaskArgs.enc_masks]
    rfl)
theorem vexitb (o : MaskArgs) : Statement (.vexitb o) :=
  ofV rfl rfl (by
    rw [candV_42 _ rfl, show (o.enc 0x42 0).fn.getLsbD 2 = false from by simp [MaskArgs.enc], MaskArgs.enc_masks]
    rfl)
theorem vexiti (o : MaskArgs) : Statement (.vexiti o) :=
  ofV rfl rfl (by
    rw [candV_42 _ rfl, show (o.enc 0x42 1).fn.getLsbD 2 = true from by simp [MaskArgs.enc], MaskArgs.enc_masks]
    rfl)
theorem vpart (o : MaskArgs) : Statement (.vpart o) :=
  ofV rfl rfl (congrArg (fun o => some (Instr.vpart o)) (MaskArgs.enc_masks o _ _))
theorem vfftrim (c : Bool) : Statement (.vfftrim c) :=
  ofV rfl rfl (rfl)
theorem vpfold (o : Arith) : Statement (.vpfold o) :=
  ofV rfl rfl (by
    show (o.enc 0x45 0).arith.map Instr.vpfold = _
    rw [Arith.enc_arith]
    rfl)
theorem vhacc (o : MemArgs) : Statement (.vhacc o) :=
  ofV rfl rfl (by
    show (o.enc 0x46 0).mem.map Instr.vhacc = _
    rw [MemArgs.enc_mem]
    rfl)
theorem vld (o : MemArgs) : Statement (.vld o) :=
  ofV rfl rfl (by
    show (o.enc 0x48 0).mem.map Instr.vld = _
    rw [MemArgs.enc_mem]
    rfl)
theorem vldx (o : MemArgs) : Statement (.vldx o) :=
  ofV rfl rfl (by
    show (o.enc 0x4A 0).mem.map Instr.vldx = _
    rw [MemArgs.enc_mem]
    rfl)
theorem vldff (o : MemArgs) : Statement (.vldff o) :=
  ofV rfl rfl (by
    show (o.enc 0x4B 0).mem.map Instr.vldff = _
    rw [MemArgs.enc_mem]
    rfl)
theorem vldsp (o : MemArgs) : Statement (.vldsp o) :=
  ofV rfl rfl (by
    rw [candV_4C _ rfl, show (o.enc 0x4C 0).fn.getLsbD 5 = false from MemArgs.enc_fn5 o 0x4C false 0]
    simp only [MemArgs.enc_mem, Option.map_some]
    rfl)
theorem vldspx (o : MemArgs) : Statement (.vldspx o) :=
  ofV rfl rfl (by
    rw [candV_4C _ rfl, show (o.enc 0x4C 8).fn.getLsbD 5 = true from MemArgs.enc_fn5 o 0x4C true 0]
    simp only [MemArgs.enc_mem, Option.map_some]
    rfl)
theorem vldp (o : MemArgs) : Statement (.vldp o) :=
  ofV rfl rfl (by
    show (o.enc 0x4D 0).mem.map Instr.vldp = _
    rw [MemArgs.enc_mem]
    rfl)
theorem vst (o : MemArgs) : Statement (.vst o) :=
  ofV rfl rfl (by
    show (o.enc 0x4E 0).mem.map Instr.vst = _
    rw [MemArgs.enc_mem]
    rfl)
theorem vstx (o : MemArgs) : Statement (.vstx o) :=
  ofV rfl rfl (by
    show (o.enc 0x50 0).mem.map Instr.vstx = _
    rw [MemArgs.enc_mem]
    rfl)
theorem vsth (o : MemArgs) : Statement (.vsth o) :=
  ofV rfl rfl (by
    show (o.enc 0x51 0).mem.map Instr.vsth = _
    rw [MemArgs.enc_mem]
    rfl)
theorem vstp (o : MemArgs) : Statement (.vstp o) :=
  ofV rfl rfl (by
    show (o.enc 0x52 0).mem.map Instr.vstp = _
    rw [MemArgs.enc_mem]
    rfl)
theorem vamoAdd (o : MemArgs) : Statement (.vamoAdd o) :=
  ofV rfl rfl (by
    rw [candV_53 _ rfl]
    simp only [MemArgs.enc_sel, MemArgs.enc_mem, Option.map_some]
    rfl)
theorem vamoSwp (o : MemArgs) : Statement (.vamoSwp o) :=
  ofV rfl rfl (by
    rw [candV_53 _ rfl]
    simp only [MemArgs.enc_sel, MemArgs.enc_mem, Option.map_some]
    rfl)
theorem vamoMin (o : MemArgs) : Statement (.vamoMin o) :=
  ofV rfl rfl (by
    rw [candV_53 _ rfl]
    simp only [MemArgs.enc_sel, MemArgs.enc_mem, Option.map_some]
    rfl)
theorem vamoMax (o : MemArgs) : Statement (.vamoMax o) :=
  ofV rfl rfl (by
    rw [candV_53 _ rfl]
    simp only [MemArgs.enc_sel, MemArgs.enc_mem, Option.map_some]
    rfl)
theorem vamoAnd (o : MemArgs) : Statement (.vamoAnd o) :=
  ofV rfl rfl (by
    rw [candV_53 _ rfl]
    simp only [MemArgs.enc_sel, MemArgs.enc_mem, Option.map_some]
    rfl)
theorem vamoOr (o : MemArgs) : Statement (.vamoOr o) :=
  ofV rfl rfl (by
    rw [candV_53 _ rfl]
    simp only [MemArgs.enc_sel, MemArgs.enc_mem, Option.map_some]
    rfl)
theorem vamoXor (o : MemArgs) : Statement (.vamoXor o) :=
  ofV rfl rfl (by
    rw [candV_53 _ rfl]
    simp only [MemArgs.enc_sel, MemArgs.enc_mem, Option.map_some]
    rfl)
theorem vamoFadd (o : MemArgs) : Statement (.vamoFadd o) :=
  ofV rfl rfl (by
    rw [candV_53 _ rfl]
    simp only [MemArgs.enc_sel, MemArgs.enc_mem, Option.map_some]
    rfl)
theorem vxlt (o : MemArgs) : Statement (.vxlt o) :=
  ofV rfl rfl (by
    rw [candV_54 _ rfl]
    simp only [MemArgs.enc_sel, MemArgs.enc_mem, Option.map_some]
    rfl)
theorem vxltff (o : MemArgs) : Statement (.vxltff o) :=
  ofV rfl rfl (by
    rw [candV_54 _ rfl]
    simp only [MemArgs.enc_sel, MemArgs.enc_mem, Option.map_some]
    rfl)
theorem sopen (c : Bool) (src : RecSrc) (q : BitVec 4) : Statement (.sopen c src q) :=
  ofV rfl rfl (by
    have hf (f : BitVec 2) : (0#4 ++ f : BitVec 6).extractLsb' 0 2 = f := fn_low 0#4 f
    have hq : (0#3 ++ src.slotField ++ 0#12 ++ q : BitVec 23).extractLsb' 0 4 = q :=
      fn_low (0#3 ++ src.slotField ++ 0#12) q
    have hs : (0#3 ++ src.slotField ++ 0#12 ++ q : BitVec 23).extractLsb' 16 4 = src.slotField := by
      rw [extract_app_high _ _ (by omega), extract_app_high _ _ (by omega)]
      exact fn_low 0#3 src.slotField
    have h2 : (0#4 ++ src.form : BitVec 6).getLsbD 2 = false := by cases src <;> simp [RecSrc.form]
    have hr : (VRaw.recSrc ⟨c, 0x55, 0#4 ++ src.form, 0, src.va, 0, 0, false, 0, 0,
        0#3 ++ src.slotField ++ 0#12 ++ q⟩) = some src := by
      simp only [VRaw.recSrc, hf, hs]
      cases src <;> rfl
    rw [candV_55 _ rfl]
    show (if (0#4 ++ src.form : BitVec 6).getLsbD 2 = true then _ else
      (VRaw.recSrc ⟨c, 0x55, 0#4 ++ src.form, 0, src.va, 0, 0, false, 0, 0,
        0#3 ++ src.slotField ++ 0#12 ++ q⟩).map fun s =>
          Instr.sopen c s ((0#3 ++ src.slotField ++ 0#12 ++ q : BitVec 23).extractLsb' 0 4)) = _
    rw [if_neg (by rw [h2]; decide), hr, hq]
    rfl)
theorem sopenp (c : Bool) (va : BitVec 5) (q : BitVec 4) : Statement (.sopenp c va q) :=
  ofV rfl rfl (by
    rw [candV_55 _ rfl]
    show (if (4#6).getLsbD 2 = true then some (Instr.sopenp c va ((0#19 ++ q : BitVec 23).extractLsb' 0 4)) else _) = _
    rw [if_pos (by decide), fn_low 0#19 q])
theorem sadv (c : Bool) (q : BitVec 4) (src : Src) : Statement (.sadv c q src) :=
  ofV rfl rfl (by
    have hf (f : BitVec 2) : (0#4 ++ f : BitVec 6).extractLsb' 0 2 = f := fn_low 0#4 f
    have hq : (0#1 ++ q : BitVec 5).extractLsb' 0 4 = q := fn_low 0#1 q
    have hr : (VRaw.src ⟨c, 0x56, 0#4 ++ src.form, 0#1 ++ q, 0, src.vb, 0, false, 3, 0, src.x⟩) = some src := by
      cases src with
      | vv v => simp only [VRaw.src, hf]; rfl
      | vo n =>
        have hx : (0#3 ++ n ++ 0#16 : BitVec 23).extractLsb' 16 4 = n := slot_field n 0
        simp only [VRaw.src, hf, Src.x, hx]
        rfl
      | vi i =>
        have hx : (0#7 ++ i : BitVec 23).extractLsb' 0 16 = i := fn_low 0#7 i
        simp only [VRaw.src, hf, Src.x, hx]
        rfl
    show (VRaw.src ⟨c, 0x56, 0#4 ++ src.form, 0#1 ++ q, 0, src.vb, 0, false, 3, 0, src.x⟩).map (fun s =>
      Instr.sadv c ((0#1 ++ q : BitVec 5).extractLsb' 0 4) s) = _
    rw [hr, hq]
    rfl)
theorem sclose (c : Bool) (q : BitVec 4) : Statement (.sclose c q) :=
  ofV rfl rfl (by
    rw [candV_57 _ rfl]
    show some (if (0#6).getLsbD 2 = true then _ else Instr.sclose c ((0#19 ++ q : BitVec 23).extractLsb' 0 4)) = _
    rw [if_neg (by decide), fn_low 0#19 q])
theorem ssave (c : Bool) (vd : BitVec 5) (q : BitVec 4) : Statement (.ssave c vd q) :=
  ofV rfl rfl (by
    rw [candV_57 _ rfl]
    show some (if (4#6).getLsbD 2 = true then Instr.ssave c vd ((0#19 ++ q : BitVec 23).extractLsb' 0 4) else _) = _
    rw [if_pos (by decide), fn_low 0#19 q])
theorem mcomp (o : Darn) : Statement (.mcomp o) :=
  ofV rfl rfl (congrArg (fun o => some (Instr.mcomp o)) (Darn.enc_darn o _ _))
theorem mcscan (o : Darn) : Statement (.mcscan o) :=
  ofV rfl rfl (by
    rw [candV_59 _ rfl, show (o.enc 0x59 0).fn.getLsbD 2 = false from Darn.enc_var o 0x59 false, Darn.enc_darn]
    rfl)
theorem mcscanc (o : Darn) : Statement (.mcscanc o) :=
  ofV rfl rfl (by
    rw [candV_59 _ rfl, show (o.enc 0x59 1).fn.getLsbD 2 = true from Darn.enc_var o 0x59 true, Darn.enc_darn]
    rfl)
theorem mclegal (o : Darn) : Statement (.mclegal o) :=
  ofV rfl rfl (by
    rw [candV_5A _ rfl, show (o.enc 0x5A 0).fn.getLsbD 2 = false from Darn.enc_var o 0x5A false, Darn.enc_darn]
    rfl)
theorem mclegalx (o : Darn) : Statement (.mclegalx o) :=
  ofV rfl rfl (by
    rw [candV_5A _ rfl, show (o.enc 0x5A 1).fn.getLsbD 2 = true from Darn.enc_var o 0x5A true, Darn.enc_darn]
    rfl)
theorem vsett (c : Bool) (va : BitVec 5) (ix : BitVec 2) : Statement (.vsett c va ix) :=
  ofV rfl rfl (by
    rw [candV_5C _ rfl]
    show some (if (0#6).getLsbD 2 = true then _ else Instr.vsett c va ((0#21 ++ ix : BitVec 23).extractLsb' 0 2)) = _
    rw [if_neg (by decide), fn_low 0#21 ix])
theorem vgett (c : Bool) (vd : BitVec 5) (ix : BitVec 2) : Statement (.vgett c vd ix) :=
  ofV rfl rfl (by
    rw [candV_5C _ rfl]
    show some (if (4#6).getLsbD 2 = true then Instr.vgett c vd ((0#21 ++ ix : BitVec 23).extractLsb' 0 2) else _) = _
    rw [if_pos (by decide), fn_low 0#21 ix])
theorem vfenceAcq (c : Bool) (sc : Scope) : Statement (.vfenceAcq c sc) :=
  ofV rfl rfl (by
    have hs : (0#12 ++ sc.code ++ 0#8 : BitVec 23).extractLsb' 8 3 = sc.code := by
      rw [extract_app_high _ _ (by omega)]
      exact fn_low 0#12 sc.code
    rw [candV_5D _ rfl]
    simp only [hs, Scope.ofCode_code]
    show (match ((4#6).extractLsb' 2 4).toNat with
      | 1 => some (Instr.vfenceAcq c sc)
      | 2 => some (Instr.vfenceRel c sc)
      | 3 => some (Instr.vfenceFull c sc)
      | _ => none) = _
    rw [show ((4#6).extractLsb' 2 4).toNat = 1 by decide]
    rfl)
theorem vfenceRel (c : Bool) (sc : Scope) : Statement (.vfenceRel c sc) :=
  ofV rfl rfl (by
    have hs : (0#12 ++ sc.code ++ 0#8 : BitVec 23).extractLsb' 8 3 = sc.code := by
      rw [extract_app_high _ _ (by omega)]
      exact fn_low 0#12 sc.code
    rw [candV_5D _ rfl]
    simp only [hs, Scope.ofCode_code]
    show (match ((8#6).extractLsb' 2 4).toNat with
      | 1 => some (Instr.vfenceAcq c sc)
      | 2 => some (Instr.vfenceRel c sc)
      | 3 => some (Instr.vfenceFull c sc)
      | _ => none) = _
    rw [show ((8#6).extractLsb' 2 4).toNat = 2 by decide]
    rfl)
theorem vfenceFull (c : Bool) (sc : Scope) : Statement (.vfenceFull c sc) :=
  ofV rfl rfl (by
    have hs : (0#12 ++ sc.code ++ 0#8 : BitVec 23).extractLsb' 8 3 = sc.code := by
      rw [extract_app_high _ _ (by omega)]
      exact fn_low 0#12 sc.code
    rw [candV_5D _ rfl]
    simp only [hs, Scope.ofCode_code]
    show (match ((12#6).extractLsb' 2 4).toNat with
      | 1 => some (Instr.vfenceAcq c sc)
      | 2 => some (Instr.vfenceRel c sc)
      | 3 => some (Instr.vfenceFull c sc)
      | _ => none) = _
    rw [show ((12#6).extractLsb' 2 4).toNat = 3 by decide]
    rfl)
theorem vmark (c : Bool) (src : MarkSrc) : Statement (.vmark c src) :=
  ofV rfl rfl (by
    cases src with
    | slot n => exact congrArg (fun n => some (Instr.vmark c (.slot n))) (slot_field n 0)
    | imm i => exact congrArg (fun i => some (Instr.vmark c (.imm i))) (fn_low 0#7 i))
theorem mshape (t : BitVec 2) (row0 : BitVec 4) (col0 : BitVec 11) : Statement (.mshape t row0 col0) :=
  ofV rfl rfl (by
    let x : BitVec 23 := 0#2 ++ col0 ++ row0 ++ 0#4 ++ t
    have h1 : x.extractLsb' 6 4 = row0 := by
      repeat first | rw [extract_app_high _ _ (by omega)] | rw [extract_app_low _ _ (by omega)]
      exact extract_self _
    have h2 : x.extractLsb' 10 11 = col0 := by
      repeat first | rw [extract_app_high _ _ (by omega)] | rw [extract_app_low _ _ (by omega)]
      exact extract_self _
    have h3 : x.extractLsb' 0 2 = t := fn_low (0#2 ++ col0 ++ row0 ++ 0#4) t
    rw [candV_60 _ rfl]
    show some (if (0#6).getLsbD 2 = true then _ else Instr.mshape (x.extractLsb' 0 2) (x.extractLsb' 6 4) (x.extractLsb' 10 11)) = _
    rw [if_neg (by decide), h1, h2, h3])
theorem mshapeg (vd : BitVec 5) (t : BitVec 2) : Statement (.mshapeg vd t) :=
  ofV rfl rfl (by
    rw [candV_60 _ rfl]
    show some (if (4#6).getLsbD 2 = true then Instr.mshapeg vd ((0#21 ++ t : BitVec 23).extractLsb' 0 2) else _) = _
    rw [if_pos (by decide), fn_low 0#21 t])
theorem mzero (t : BitVec 2) : Statement (.mzero t) :=
  ofV rfl rfl (congrArg (fun t => some (Instr.mzero t)) (fn_low 0#21 t))
theorem mma (o : MatMul) : Statement (.mma o) :=
  ofV rfl rfl (congrArg (fun o => some (Instr.mma o)) (MatMul.enc_matMul o _ _))
theorem mmas (o : MatMul) : Statement (.mmas o) :=
  ofV rfl rfl (congrArg (fun o => some (Instr.mmas o)) (MatMul.enc_matMul o _ _))
theorem msmma (o : SliceMul) : Statement (.msmma o) :=
  ofV rfl rfl (congrArg (fun o => some (Instr.msmma o)) (SliceMul.enc_sliceMul o))
theorem mrd (o : TileRead) : Statement (.mrd o) :=
  ofV rfl rfl (by
    rw [candV_65 _ rfl, show (o.enc 0).fn.getLsbD 2 = false from TileRead.enc_var o false, TileRead.enc_tileRead]
    rfl)
theorem mrdz (o : TileRead) : Statement (.mrdz o) :=
  ofV rfl rfl (by
    rw [candV_65 _ rfl, show (o.enc 1).fn.getLsbD 2 = true from TileRead.enc_var o true, TileRead.enc_tileRead]
    rfl)
theorem mwr (o : TileWrite) : Statement (.mwr o) :=
  ofV rfl rfl (by
    rw [candV_66 _ rfl, show (o.enc 0).fn.getLsbD 2 = false from by simp [TileWrite.enc], TileWrite.enc_tileWrite]
    rfl)
theorem mwra (o : TileWrite) : Statement (.mwra o) :=
  ofV rfl rfl (by
    rw [candV_66 _ rfl, show (o.enc 1).fn.getLsbD 2 = true from by simp [TileWrite.enc], TileWrite.enc_tileWrite]
    rfl)
theorem msync (vd : BitVec 5) (p : BitVec 18) : Statement (.msync vd p) :=
  ofV rfl rfl (congrArg (fun p => some (Instr.msync vd p)) (fn_low 0#5 p))
theorem vproj (m : Bool) (slot : BitVec 4) (t : BitVec 2) : Statement (.vproj m slot t) :=
  ofV rfl rfl (by
    let x : BitVec 23 := 0#2 ++ 0#1 ++ slot ++ 0#1 ++ 0#9 ++ 0#4 ++ t
    have h1 : x.getLsbD 20 = false := by
      repeat first | rw [lsb_app_high _ _ (by omega)] | rw [lsb_app_low _ _ (by omega)]
      rfl
    have h3 : x.extractLsb' 16 4 = slot := by
      repeat first | rw [extract_app_high _ _ (by omega)] | rw [extract_app_low _ _ (by omega)]
      exact extract_self _
    have h5 : x.extractLsb' 0 2 = t := fn_low (0#2 ++ 0#1 ++ slot ++ 0#1 ++ 0#9 ++ 0#4) t
    rw [candV_68 _ rfl]
    show (if x.getLsbD 20 then (if x.getLsbD 15 then some (Instr.vprojt m 0 (x.extractLsb' 16 4) (x.extractLsb' 6 9) (x.extractLsb' 0 2))
      else some (Instr.vprojs m 0 (x.extractLsb' 16 4) (x.extractLsb' 6 9) (x.extractLsb' 0 2)))
      else some (Instr.vproj m (x.extractLsb' 16 4) (x.extractLsb' 0 2))) = _
    rw [h1, h3, h5]
    rfl)
theorem vprojs (m : Bool) (vc : BitVec 5) (slot : BitVec 4) (k1 : BitVec 9) (t : BitVec 2) : Statement (.vprojs m vc slot k1 t) :=
  ofV rfl rfl (by
    let x : BitVec 23 := 0#2 ++ 1#1 ++ slot ++ 0#1 ++ k1 ++ 0#4 ++ t
    have h1 : x.getLsbD 20 = true := by
      repeat first | rw [lsb_app_high _ _ (by omega)] | rw [lsb_app_low _ _ (by omega)]
      rfl
    have h2 : x.getLsbD 15 = false := by
      repeat first | rw [lsb_app_high _ _ (by omega)] | rw [lsb_app_low _ _ (by omega)]
      rfl
    have h4 : x.extractLsb' 6 9 = k1 := by
      repeat first | rw [extract_app_high _ _ (by omega)] | rw [extract_app_low _ _ (by omega)]
      exact extract_self _
    have h3 : x.extractLsb' 16 4 = slot := by
      repeat first | rw [extract_app_high _ _ (by omega)] | rw [extract_app_low _ _ (by omega)]
      exact extract_self _
    have h5 : x.extractLsb' 0 2 = t := fn_low (0#2 ++ 1#1 ++ slot ++ 0#1 ++ k1 ++ 0#4) t
    rw [candV_68 _ rfl]
    show (if x.getLsbD 20 then (if x.getLsbD 15 then some (Instr.vprojt m vc (x.extractLsb' 16 4) (x.extractLsb' 6 9) (x.extractLsb' 0 2))
      else some (Instr.vprojs m vc (x.extractLsb' 16 4) (x.extractLsb' 6 9) (x.extractLsb' 0 2)))
      else some (Instr.vproj m (x.extractLsb' 16 4) (x.extractLsb' 0 2))) = _
    rw [h1, h2, h4, h3, h5]
    rfl)
theorem vprojt (m : Bool) (vc : BitVec 5) (slot : BitVec 4) (k1 : BitVec 9) (t : BitVec 2) : Statement (.vprojt m vc slot k1 t) :=
  ofV rfl rfl (by
    let x : BitVec 23 := 0#2 ++ 1#1 ++ slot ++ 1#1 ++ k1 ++ 0#4 ++ t
    have h1 : x.getLsbD 20 = true := by
      repeat first | rw [lsb_app_high _ _ (by omega)] | rw [lsb_app_low _ _ (by omega)]
      rfl
    have h2 : x.getLsbD 15 = true := by
      repeat first | rw [lsb_app_high _ _ (by omega)] | rw [lsb_app_low _ _ (by omega)]
      rfl
    have h4 : x.extractLsb' 6 9 = k1 := by
      repeat first | rw [extract_app_high _ _ (by omega)] | rw [extract_app_low _ _ (by omega)]
      exact extract_self _
    have h3 : x.extractLsb' 16 4 = slot := by
      repeat first | rw [extract_app_high _ _ (by omega)] | rw [extract_app_low _ _ (by omega)]
      exact extract_self _
    have h5 : x.extractLsb' 0 2 = t := fn_low (0#2 ++ 1#1 ++ slot ++ 1#1 ++ k1 ++ 0#4) t
    rw [candV_68 _ rfl]
    show (if x.getLsbD 20 then (if x.getLsbD 15 then some (Instr.vprojt m vc (x.extractLsb' 16 4) (x.extractLsb' 6 9) (x.extractLsb' 0 2))
      else some (Instr.vprojs m vc (x.extractLsb' 16 4) (x.extractLsb' 6 9) (x.extractLsb' 0 2)))
      else some (Instr.vproj m (x.extractLsb' 16 4) (x.extractLsb' 0 2))) = _
    rw [h1, h2, h4, h3, h5]
    rfl)
theorem vprojb (m : Bool) (vd : BitVec 5) (slot : BitVec 4) (t : BitVec 2) : Statement (.vprojb m vd slot t) :=
  ofV rfl rfl (by
    have h1 : (0#3 ++ slot ++ 0#14 ++ t : BitVec 23).extractLsb' 16 4 = slot := by
      rw [extract_app_high _ _ (by omega), extract_app_high _ _ (by omega)]
      exact fn_low 0#3 slot
    have h2 : (0#3 ++ slot ++ 0#14 ++ t : BitVec 23).extractLsb' 0 2 = t := fn_low (0#3 ++ slot ++ 0#14) t
    show some (Instr.vprojb m vd ((0#3 ++ slot ++ 0#14 ++ t : BitVec 23).extractLsb' 16 4)
      ((0#3 ++ slot ++ 0#14 ++ t : BitVec 23).extractLsb' 0 2)) = _
    rw [h1, h2])
theorem vheaprd (vd vc : BitVec 5) : Statement (.vheaprd vd vc) :=
  ofV rfl rfl (by
    rw [candV_6A _ rfl]
    show some (if (0#6).getLsbD 2 = true then _ else Instr.vheaprd vd vc) = _
    rw [if_neg (by decide)])
theorem vpstrd (vd : BitVec 5) : Statement (.vpstrd vd) :=
  ofV rfl rfl (by
    rw [candV_6A _ rfl]
    show some (if (4#6).getLsbD 2 = true then Instr.vpstrd vd else _) = _
    rw [if_pos (by decide)])
theorem vhmerge (va vb : BitVec 5) : Statement (.vhmerge va vb) :=
  ofV rfl rfl (by
    rw [candV_6B _ rfl]
    simp [VRaw.zero])
theorem vhmergen (va vb vc : BitVec 5) : Statement (.vhmergen va vb vc) :=
  ofV rfl rfl (by
    rw [candV_6B _ rfl]
    simp)
theorem vpstwr (va vb vc : BitVec 5) : Statement (.vpstwr va vb vc) :=
  ofV rfl rfl (by
    rw [candV_6B _ rfl]
    simp)
theorem draw (m : Bool) (vd va vb : BitVec 5) (et : EType) : Statement (.draw m vd va vb et) :=
  ofV rfl rfl (by
    have he : EType.ofCode et.code = et := EType.ofCode_code et
    rw [candV_6F _ rfl]
    simp only [he]
    show (match ((0#6).extractLsb' 0 3).toNat with
      | 0 => some (Instr.draw m vd va vb et)
      | 1 => some (Instr.drawr m vd va vb et ((0 : BitVec 23).extractLsb' 16 4))
      | 4 => some (Instr.drawn m vd va vb et)
      | 5 => some (Instr.drawrn m vd va vb et ((0 : BitVec 23).extractLsb' 16 4))
      | _ => none) = _
    rw [show ((0#6).extractLsb' 0 3).toNat = 0 by decide]
    rfl)
theorem drawn (m : Bool) (vd va vb : BitVec 5) (et : EType) : Statement (.drawn m vd va vb et) :=
  ofV rfl rfl (by
    have he : EType.ofCode et.code = et := EType.ofCode_code et
    rw [candV_6F _ rfl]
    simp only [he]
    show (match ((4#6).extractLsb' 0 3).toNat with
      | 0 => some (Instr.draw m vd va vb et)
      | 1 => some (Instr.drawr m vd va vb et ((0 : BitVec 23).extractLsb' 16 4))
      | 4 => some (Instr.drawn m vd va vb et)
      | 5 => some (Instr.drawrn m vd va vb et ((0 : BitVec 23).extractLsb' 16 4))
      | _ => none) = _
    rw [show ((4#6).extractLsb' 0 3).toNat = 4 by decide]
    rfl)
theorem drawr (m : Bool) (vd va vb : BitVec 5) (et : EType) (slot : BitVec 4) : Statement (.drawr m vd va vb et slot) :=
  ofV rfl rfl (by
    have he : EType.ofCode et.code = et := EType.ofCode_code et
    have hx : (0#3 ++ slot ++ 0#16 : BitVec 23).extractLsb' 16 4 = slot := slot_field slot 0
    rw [candV_6F _ rfl]
    simp only [he]
    show (match ((1#6).extractLsb' 0 3).toNat with
      | 0 => some (Instr.draw m vd va vb et)
      | 1 => some (Instr.drawr m vd va vb et ((0#3 ++ slot ++ 0#16 : BitVec 23).extractLsb' 16 4))
      | 4 => some (Instr.drawn m vd va vb et)
      | 5 => some (Instr.drawrn m vd va vb et ((0#3 ++ slot ++ 0#16 : BitVec 23).extractLsb' 16 4))
      | _ => none) = _
    rw [show ((1#6).extractLsb' 0 3).toNat = 1 by decide, hx]
    rfl)
theorem drawrn (m : Bool) (vd va vb : BitVec 5) (et : EType) (slot : BitVec 4) : Statement (.drawrn m vd va vb et slot) :=
  ofV rfl rfl (by
    have he : EType.ofCode et.code = et := EType.ofCode_code et
    have hx : (0#3 ++ slot ++ 0#16 : BitVec 23).extractLsb' 16 4 = slot := slot_field slot 0
    rw [candV_6F _ rfl]
    simp only [he]
    show (match ((5#6).extractLsb' 0 3).toNat with
      | 0 => some (Instr.draw m vd va vb et)
      | 1 => some (Instr.drawr m vd va vb et ((0#3 ++ slot ++ 0#16 : BitVec 23).extractLsb' 16 4))
      | 4 => some (Instr.drawn m vd va vb et)
      | 5 => some (Instr.drawrn m vd va vb et ((0#3 ++ slot ++ 0#16 : BitVec 23).extractLsb' 16 4))
      | _ => none) = _
    rw [show ((5#6).extractLsb' 0 3).toNat = 5 by decide, hx]
    rfl)
theorem cpy (o : EngArgs) : Statement (.cpy o) :=
  ofV rfl rfl (by
    show (o.enc 0x70 0 0).eng.map Instr.cpy = _
    rw [EngArgs.enc_eng]
    rfl)
theorem cpyc (vd va : BitVec 5) (slot : BitVec 4) : Statement (.cpyc vd va slot) :=
  ofV rfl rfl (congrArg (fun n => some (Instr.cpyc vd va n)) (slot_field slot 1#3))
theorem cpywait (mreg : Option (BitVec 5)) (p : BitVec 18) : Statement (.cpywait mreg p) :=
  ofV rfl rfl (by
    have h : (encWait 0x72 0 mreg p).fn.getLsbD 2 = false := by simp [encWait]
    rw [candV_72 _ rfl, encWait_mreg, encWait_p]
    simp only [h]
    rfl)
theorem cpywaitv (mreg : Option (BitVec 5)) (p : BitVec 18) : Statement (.cpywaitv mreg p) :=
  ofV rfl rfl (by
    have h : (encWait 0x72 1 mreg p).fn.getLsbD 2 = true := by simp [encWait]
    rw [candV_72 _ rfl, encWait_mreg, encWait_p]
    simp only [h]
    rfl)
theorem csend (o : EngArgs) : Statement (.csend o) :=
  ofV rfl rfl (by
    have h : (o.enc 0x78 0 0).fn.getLsbD 2 = false := by
      cases h : o.src <;> simp [EngArgs.enc, h, RecSrc.form]
    rw [candV_78 _ rfl, EngArgs.enc_eng]
    simp only [h]
    rfl)
theorem csendm (o : EngArgs) : Statement (.csendm o) :=
  ofV rfl rfl (by
    have h : (o.enc 0x78 1 0).fn.getLsbD 2 = true := by
      cases h : o.src <;> simp [EngArgs.enc, h, RecSrc.form]
    rw [candV_78 _ rfl, EngArgs.enc_eng]
    simp only [h]
    rfl)
theorem crecv (o : EngArgs) : Statement (.crecv o) :=
  ofV rfl rfl (by
    show (o.enc 0x79 0 0).eng.map Instr.crecv = _
    rw [EngArgs.enc_eng]
    rfl)
theorem credsum (o : EngArgs) (et : EType) : Statement (.credsum o et) :=
  ofV rfl rfl (by
    have he : EType.ofCode (o.enc 0x7A 0 et.code).et = et := EType.ofCode_code et
    rw [candV_7A _ rfl]
    simp only [EngArgs.enc_sel, EngArgs.enc_eng, Option.map_some, he]
    rfl)
theorem credmax (o : EngArgs) (et : EType) : Statement (.credmax o et) :=
  ofV rfl rfl (by
    have he : EType.ofCode (o.enc 0x7A 1 et.code).et = et := EType.ofCode_code et
    rw [candV_7A _ rfl]
    simp only [EngArgs.enc_sel, EngArgs.enc_eng, Option.map_some, he]
    rfl)
theorem credmin (o : EngArgs) (et : EType) : Statement (.credmin o et) :=
  ofV rfl rfl (by
    have he : EType.ofCode (o.enc 0x7A 2 et.code).et = et := EType.ofCode_code et
    rw [candV_7A _ rfl]
    simp only [EngArgs.enc_sel, EngArgs.enc_eng, Option.map_some, he]
    rfl)
theorem credrs (o : EngArgs) (et : EType) : Statement (.credrs o et) :=
  ofV rfl rfl (by
    have he : EType.ofCode (o.enc 0x7A 3 et.code).et = et := EType.ofCode_code et
    rw [candV_7A _ rfl]
    simp only [EngArgs.enc_sel, EngArgs.enc_eng, Option.map_some, he]
    rfl)
theorem credheap (o : EngArgs) (et : EType) : Statement (.credheap o et) :=
  ofV rfl rfl (by
    have he : EType.ofCode (o.enc 0x7A 4 et.code).et = et := EType.ofCode_code et
    rw [candV_7A _ rfl]
    simp only [EngArgs.enc_sel, EngArgs.enc_eng, Option.map_some, he]
    rfl)
theorem cwait (mreg : Option (BitVec 5)) (p : BitVec 18) : Statement (.cwait mreg p) :=
  ofV rfl rfl (by
    have h : (encWait 0x7B 0 mreg p).fn.getLsbD 2 = false := by simp [encWait]
    rw [candV_7B _ rfl, encWait_mreg, encWait_p]
    simp only [h]
    rfl)
theorem cwaitv (mreg : Option (BitVec 5)) (p : BitVec 18) : Statement (.cwaitv mreg p) :=
  ofV rfl rfl (by
    have h : (encWait 0x7B 1 mreg p).fn.getLsbD 2 = true := by simp [encWait]
    rw [candV_7B _ rfl, encWait_mreg, encWait_p]
    simp only [h]
    rfl)
theorem audlog (o : AudArgs) : Statement (.audlog o) :=
  ofV rfl rfl (congrArg (fun o => some (Instr.audlog o)) (AudArgs.enc_aud o))
theorem nop : Statement .nop := ofS rfl rfl (rfl)
theorem halt : Statement .halt := ofS rfl rfl (rfl)
theorem ecall : Statement .ecall := ofS rfl rfl (rfl)
theorem eret : Statement .eret := ofS rfl rfl (rfl)
theorem wfe : Statement .wfe := ofS rfl rfl (rfl)
theorem brk : Statement .brk := ofS rfl rfl (rfl)
theorem fenceAcq (sc : Scope) : Statement (.fenceAcq sc) := ofS rfl rfl (by cases sc <;> rfl)
theorem fenceRel (sc : Scope) : Statement (.fenceRel sc) := ofS rfl rfl (by cases sc <;> rfl)
theorem fenceFull (sc : Scope) : Statement (.fenceFull sc) := ofS rfl rfl (by cases sc <;> rfl)
theorem add (d a b : BitVec 5) : Statement (.add d a b) := ofS rfl rfl (rfl)
theorem sub (d a b : BitVec 5) : Statement (.sub d a b) := ofS rfl rfl (rfl)
theorem and (d a b : BitVec 5) : Statement (.and d a b) := ofS rfl rfl (rfl)
theorem or (d a b : BitVec 5) : Statement (.or d a b) := ofS rfl rfl (rfl)
theorem xor (d a b : BitVec 5) : Statement (.xor d a b) := ofS rfl rfl (rfl)
theorem shl (d a b : BitVec 5) : Statement (.shl d a b) := ofS rfl rfl (rfl)
theorem shr (d a b : BitVec 5) : Statement (.shr d a b) := ofS rfl rfl (rfl)
theorem sar (d a b : BitVec 5) : Statement (.sar d a b) := ofS rfl rfl (rfl)
theorem slt (d a b : BitVec 5) : Statement (.slt d a b) := ofS rfl rfl (rfl)
theorem sltn (d a b : BitVec 5) : Statement (.sltn d a b) := ofS rfl rfl (rfl)
theorem min (d a b : BitVec 5) : Statement (.min d a b) := ofS rfl rfl (rfl)
theorem max (d a b : BitVec 5) : Statement (.max d a b) := ofS rfl rfl (rfl)
theorem minn (d a b : BitVec 5) : Statement (.minn d a b) := ofS rfl rfl (rfl)
theorem maxn (d a b : BitVec 5) : Statement (.maxn d a b) := ofS rfl rfl (rfl)
theorem clz (d a : BitVec 5) : Statement (.clz d a) := ofS rfl rfl (rfl)
theorem ctz (d a : BitVec 5) : Statement (.ctz d a) := ofS rfl rfl (rfl)
theorem popc (d a : BitVec 5) : Statement (.popc d a) := ofS rfl rfl (rfl)
theorem mul (d a b : BitVec 5) : Statement (.mul d a b) := ofS rfl rfl (rfl)
theorem mulh (d a b : BitVec 5) : Statement (.mulh d a b) := ofS rfl rfl (rfl)
theorem mulhn (d a b : BitVec 5) : Statement (.mulhn d a b) := ofS rfl rfl (rfl)
theorem div (d a b : BitVec 5) : Statement (.div d a b) := ofS rfl rfl (rfl)
theorem divn (d a b : BitVec 5) : Statement (.divn d a b) := ofS rfl rfl (rfl)
theorem rem (d a b : BitVec 5) : Statement (.rem d a b) := ofS rfl rfl (rfl)
theorem remn (d a b : BitVec 5) : Statement (.remn d a b) := ofS rfl rfl (rfl)
theorem addi (d a : BitVec 5) (imm : BitVec 16) : Statement (.addi d a imm) :=
  ofS rfl rfl (by
    show some (Instr.addi d a (SRaw.imm _)) = _
    rw [SRaw.imm_ofImm])
theorem andi (d a : BitVec 5) (imm : BitVec 16) : Statement (.andi d a imm) :=
  ofS rfl rfl (by
    show some (Instr.andi d a (SRaw.imm _)) = _
    rw [SRaw.imm_ofImm])
theorem ori (d a : BitVec 5) (imm : BitVec 16) : Statement (.ori d a imm) :=
  ofS rfl rfl (by
    show some (Instr.ori d a (SRaw.imm _)) = _
    rw [SRaw.imm_ofImm])
theorem xori (d a : BitVec 5) (imm : BitVec 16) : Statement (.xori d a imm) :=
  ofS rfl rfl (by
    show some (Instr.xori d a (SRaw.imm _)) = _
    rw [SRaw.imm_ofImm])
theorem shli (d a : BitVec 5) (amt : BitVec 6) : Statement (.shli d a amt) :=
  ofS rfl rfl (by
    have h1 : (0#8 ++ 0#2 ++ amt : BitVec 16).extractLsb' 6 2 = 0#2 := by
      rw [extract_app_high _ _ (by omega)]
      exact fn_low 0#8 0#2
    have h2 : (0#8 ++ 0#2 ++ amt : BitVec 16).extractLsb' 0 6 = amt := fn_low (0#8 ++ 0#2) amt
    rw [candS_07 _ rfl]
    simp only [SRaw.imm_ofImm, h1, h2]
    rfl)
theorem shri (d a : BitVec 5) (amt : BitVec 6) : Statement (.shri d a amt) :=
  ofS rfl rfl (by
    have h1 : (0#8 ++ 1#2 ++ amt : BitVec 16).extractLsb' 6 2 = 1#2 := by
      rw [extract_app_high _ _ (by omega)]
      exact fn_low 0#8 1#2
    have h2 : (0#8 ++ 1#2 ++ amt : BitVec 16).extractLsb' 0 6 = amt := fn_low (0#8 ++ 1#2) amt
    rw [candS_07 _ rfl]
    simp only [SRaw.imm_ofImm, h1, h2]
    rfl)
theorem sari (d a : BitVec 5) (amt : BitVec 6) : Statement (.sari d a amt) :=
  ofS rfl rfl (by
    have h1 : (0#8 ++ 2#2 ++ amt : BitVec 16).extractLsb' 6 2 = 2#2 := by
      rw [extract_app_high _ _ (by omega)]
      exact fn_low 0#8 2#2
    have h2 : (0#8 ++ 2#2 ++ amt : BitVec 16).extractLsb' 0 6 = amt := fn_low (0#8 ++ 2#2) amt
    rw [candS_07 _ rfl]
    simp only [SRaw.imm_ofImm, h1, h2]
    rfl)
theorem slti (d a : BitVec 5) (imm : BitVec 16) : Statement (.slti d a imm) :=
  ofS rfl rfl (by
    show some (Instr.slti d a (SRaw.imm _)) = _
    rw [SRaw.imm_ofImm])
theorem lih (d : BitVec 5) (imm : BitVec 16) : Statement (.lih d imm) :=
  ofS rfl rfl (by
    show some (Instr.lih d (SRaw.imm _)) = _
    rw [SRaw.imm_ofImm])
theorem addpc (d : BitVec 5) (imm : BitVec 16) : Statement (.addpc d imm) :=
  ofS rfl rfl (by
    show some (Instr.addpc d (SRaw.imm _)) = _
    rw [SRaw.imm_ofImm])
theorem ins (d a : BitVec 5) (pos len : BitVec 6) : Statement (.ins d a pos len) :=
  ofS rfl rfl (by
    have h1 : (0#4 ++ pos ++ len : BitVec 16).extractLsb' 6 6 = pos := by
      rw [extract_app_high _ _ (by omega)]
      exact fn_low 0#4 pos
    have h2 : (0#4 ++ pos ++ len : BitVec 16).extractLsb' 0 6 = len := fn_low (0#4 ++ pos) len
    show some (Instr.ins d a ((SRaw.ofImm _ d a (0#4 ++ pos ++ len)).imm.extractLsb' 6 6)
      ((SRaw.ofImm _ d a (0#4 ++ pos ++ len)).imm.extractLsb' 0 6)) = _
    rw [SRaw.imm_ofImm, h1, h2])
theorem ext (d a : BitVec 5) (pos len : BitVec 6) : Statement (.ext d a pos len) :=
  ofS rfl rfl (by
    have h1 : (0#4 ++ pos ++ len : BitVec 16).extractLsb' 6 6 = pos := by
      rw [extract_app_high _ _ (by omega)]
      exact fn_low 0#4 pos
    have h2 : (0#4 ++ pos ++ len : BitVec 16).extractLsb' 0 6 = len := fn_low (0#4 ++ pos) len
    show some (Instr.ext d a ((SRaw.ofImm _ d a (0#4 ++ pos ++ len)).imm.extractLsb' 6 6)
      ((SRaw.ofImm _ d a (0#4 ++ pos ++ len)).imm.extractLsb' 0 6)) = _
    rw [SRaw.imm_ofImm, h1, h2])
theorem exts (d a : BitVec 5) (pos len : BitVec 6) : Statement (.exts d a pos len) :=
  ofS rfl rfl (by
    have h1 : (0#4 ++ pos ++ len : BitVec 16).extractLsb' 6 6 = pos := by
      rw [extract_app_high _ _ (by omega)]
      exact fn_low 0#4 pos
    have h2 : (0#4 ++ pos ++ len : BitVec 16).extractLsb' 0 6 = len := fn_low (0#4 ++ pos) len
    show some (Instr.exts d a ((SRaw.ofImm _ d a (0#4 ++ pos ++ len)).imm.extractLsb' 6 6)
      ((SRaw.ofImm _ d a (0#4 ++ pos ++ len)).imm.extractLsb' 0 6)) = _
    rw [SRaw.imm_ofImm, h1, h2])
theorem ld8 (d a : BitVec 5) (imm : BitVec 16) : Statement (.ld8 d a imm) :=
  ofS rfl rfl (by
    show some (Instr.ld8 d a (SRaw.imm _)) = _
    rw [SRaw.imm_ofImm])
theorem ld16 (d a : BitVec 5) (imm : BitVec 16) : Statement (.ld16 d a imm) :=
  ofS rfl rfl (by
    show some (Instr.ld16 d a (SRaw.imm _)) = _
    rw [SRaw.imm_ofImm])
theorem ld32 (d a : BitVec 5) (imm : BitVec 16) : Statement (.ld32 d a imm) :=
  ofS rfl rfl (by
    show some (Instr.ld32 d a (SRaw.imm _)) = _
    rw [SRaw.imm_ofImm])
theorem ld64 (d a : BitVec 5) (imm : BitVec 16) : Statement (.ld64 d a imm) :=
  ofS rfl rfl (by
    show some (Instr.ld64 d a (SRaw.imm _)) = _
    rw [SRaw.imm_ofImm])
theorem ldn8 (d a : BitVec 5) (imm : BitVec 16) : Statement (.ldn8 d a imm) :=
  ofS rfl rfl (by
    show some (Instr.ldn8 d a (SRaw.imm _)) = _
    rw [SRaw.imm_ofImm])
theorem ldn16 (d a : BitVec 5) (imm : BitVec 16) : Statement (.ldn16 d a imm) :=
  ofS rfl rfl (by
    show some (Instr.ldn16 d a (SRaw.imm _)) = _
    rw [SRaw.imm_ofImm])
theorem ldn32 (d a : BitVec 5) (imm : BitVec 16) : Statement (.ldn32 d a imm) :=
  ofS rfl rfl (by
    show some (Instr.ldn32 d a (SRaw.imm _)) = _
    rw [SRaw.imm_ofImm])
theorem ldw (d : BitVec 5) (n : BitVec 3) (off : BitVec 16) : Statement (.ldw d n off) :=
  ofS rfl rfl (by
    have h1 : (0#2 ++ n : BitVec 5).extractLsb' 0 3 = n := fn_low 0#2 n
    show some (Instr.ldw d ((0#2 ++ n : BitVec 5).extractLsb' 0 3) (SRaw.ofImm 0x17 d (0#2 ++ n) off).imm) = _
    rw [SRaw.imm_ofImm, h1])
theorem st8 (b a : BitVec 5) (off : BitVec 16) : Statement (.st8 b a off) :=
  ofS rfl rfl (by
    show some (Instr.st8 b a (SRaw.imm _)) = _
    rw [SRaw.imm_ofImm])
theorem st16 (b a : BitVec 5) (off : BitVec 16) : Statement (.st16 b a off) :=
  ofS rfl rfl (by
    show some (Instr.st16 b a (SRaw.imm _)) = _
    rw [SRaw.imm_ofImm])
theorem st32 (b a : BitVec 5) (off : BitVec 16) : Statement (.st32 b a off) :=
  ofS rfl rfl (by
    show some (Instr.st32 b a (SRaw.imm _)) = _
    rw [SRaw.imm_ofImm])
theorem st64 (b a : BitVec 5) (off : BitVec 16) : Statement (.st64 b a off) :=
  ofS rfl rfl (by
    show some (Instr.st64 b a (SRaw.imm _)) = _
    rw [SRaw.imm_ofImm])
theorem amoAdd (d a b : BitVec 5) (size : BitVec 2) (ord : BitVec 2) (sc : Scope) : Statement (.amoAdd d a b size ord sc) :=
  ofS rfl rfl (by
    obtain ⟨h1, h2, h3, h4⟩ := amo_fields 0#4 size ord sc
    rw [candS_1C _ rfl]
    simp only [h1, h2, h3, h4, Scope.ofCode_code]
    rfl)
theorem amoSwp (d a b : BitVec 5) (size : BitVec 2) (ord : BitVec 2) (sc : Scope) : Statement (.amoSwp d a b size ord sc) :=
  ofS rfl rfl (by
    obtain ⟨h1, h2, h3, h4⟩ := amo_fields 1#4 size ord sc
    rw [candS_1C _ rfl]
    simp only [h1, h2, h3, h4, Scope.ofCode_code]
    rfl)
theorem amoCas (d a b : BitVec 5) (size : BitVec 2) (ord : BitVec 2) (sc : Scope) : Statement (.amoCas d a b size ord sc) :=
  ofS rfl rfl (by
    obtain ⟨h1, h2, h3, h4⟩ := amo_fields 2#4 size ord sc
    rw [candS_1C _ rfl]
    simp only [h1, h2, h3, h4, Scope.ofCode_code]
    rfl)
theorem amoMin (d a b : BitVec 5) (size : BitVec 2) (ord : BitVec 2) (sc : Scope) : Statement (.amoMin d a b size ord sc) :=
  ofS rfl rfl (by
    obtain ⟨h1, h2, h3, h4⟩ := amo_fields 3#4 size ord sc
    rw [candS_1C _ rfl]
    simp only [h1, h2, h3, h4, Scope.ofCode_code]
    rfl)
theorem amoMax (d a b : BitVec 5) (size : BitVec 2) (ord : BitVec 2) (sc : Scope) : Statement (.amoMax d a b size ord sc) :=
  ofS rfl rfl (by
    obtain ⟨h1, h2, h3, h4⟩ := amo_fields 4#4 size ord sc
    rw [candS_1C _ rfl]
    simp only [h1, h2, h3, h4, Scope.ofCode_code]
    rfl)
theorem amoMinn (d a b : BitVec 5) (size : BitVec 2) (ord : BitVec 2) (sc : Scope) : Statement (.amoMinn d a b size ord sc) :=
  ofS rfl rfl (by
    obtain ⟨h1, h2, h3, h4⟩ := amo_fields 5#4 size ord sc
    rw [candS_1C _ rfl]
    simp only [h1, h2, h3, h4, Scope.ofCode_code]
    rfl)
theorem amoMaxn (d a b : BitVec 5) (size : BitVec 2) (ord : BitVec 2) (sc : Scope) : Statement (.amoMaxn d a b size ord sc) :=
  ofS rfl rfl (by
    obtain ⟨h1, h2, h3, h4⟩ := amo_fields 6#4 size ord sc
    rw [candS_1C _ rfl]
    simp only [h1, h2, h3, h4, Scope.ofCode_code]
    rfl)
theorem amoAnd (d a b : BitVec 5) (size : BitVec 2) (ord : BitVec 2) (sc : Scope) : Statement (.amoAnd d a b size ord sc) :=
  ofS rfl rfl (by
    obtain ⟨h1, h2, h3, h4⟩ := amo_fields 7#4 size ord sc
    rw [candS_1C _ rfl]
    simp only [h1, h2, h3, h4, Scope.ofCode_code]
    rfl)
theorem amoOr (d a b : BitVec 5) (size : BitVec 2) (ord : BitVec 2) (sc : Scope) : Statement (.amoOr d a b size ord sc) :=
  ofS rfl rfl (by
    obtain ⟨h1, h2, h3, h4⟩ := amo_fields 8#4 size ord sc
    rw [candS_1C _ rfl]
    simp only [h1, h2, h3, h4, Scope.ofCode_code]
    rfl)
theorem amoXor (d a b : BitVec 5) (size : BitVec 2) (ord : BitVec 2) (sc : Scope) : Statement (.amoXor d a b size ord sc) :=
  ofS rfl rfl (by
    obtain ⟨h1, h2, h3, h4⟩ := amo_fields 9#4 size ord sc
    rw [candS_1C _ rfl]
    simp only [h1, h2, h3, h4, Scope.ofCode_code]
    rfl)
theorem beq (a b : BitVec 5) (off : BitVec 16) : Statement (.beq a b off) :=
  ofS rfl rfl (by
    show some (Instr.beq a b (SRaw.imm _)) = _
    rw [SRaw.imm_ofImm])
theorem bne (a b : BitVec 5) (off : BitVec 16) : Statement (.bne a b off) :=
  ofS rfl rfl (by
    show some (Instr.bne a b (SRaw.imm _)) = _
    rw [SRaw.imm_ofImm])
theorem blt (a b : BitVec 5) (off : BitVec 16) : Statement (.blt a b off) :=
  ofS rfl rfl (by
    show some (Instr.blt a b (SRaw.imm _)) = _
    rw [SRaw.imm_ofImm])
theorem bge (a b : BitVec 5) (off : BitVec 16) : Statement (.bge a b off) :=
  ofS rfl rfl (by
    show some (Instr.bge a b (SRaw.imm _)) = _
    rw [SRaw.imm_ofImm])
theorem bltn (a b : BitVec 5) (off : BitVec 16) : Statement (.bltn a b off) :=
  ofS rfl rfl (by
    show some (Instr.bltn a b (SRaw.imm _)) = _
    rw [SRaw.imm_ofImm])
theorem bgen (a b : BitVec 5) (off : BitVec 16) : Statement (.bgen a b off) :=
  ofS rfl rfl (by
    show some (Instr.bgen a b (SRaw.imm _)) = _
    rw [SRaw.imm_ofImm])
theorem jal (d : BitVec 5) (off : BitVec 21) : Statement (.jal d off) :=
  ofS rfl rfl (by
    show some (Instr.jal d (SRaw.ofOff 0x26 d off).off) = _
    rw [SRaw.off_ofOff])
theorem jalr (d a : BitVec 5) (imm : BitVec 16) : Statement (.jalr d a imm) :=
  ofS rfl rfl (by
    show some (Instr.jalr d a (SRaw.imm _)) = _
    rw [SRaw.imm_ofImm])
theorem setvl (d a b : BitVec 5) : Statement (.setvl d a b) := ofS rfl rfl (rfl)
theorem sput (slot : BitVec 4) (a : BitVec 5) : Statement (.sput slot a) := ofS rfl rfl (congrArg (fun n => some (Instr.sput n a)) (fn_low 0#7 slot))
theorem emit (a : BitVec 5) : Statement (.emit a) := ofS rfl rfl (rfl)
theorem emitq (d a : BitVec 5) : Statement (.emitq d a) := ofS rfl rfl (rfl)
theorem vfetch (a : BitVec 5) (off : BitVec 16) : Statement (.vfetch a off) :=
  ofS rfl rfl (by
    show some (Instr.vfetch a (SRaw.imm _)) = _
    rw [SRaw.imm_ofImm])
theorem vdrain (mask : BitVec 4) : Statement (.vdrain mask) := ofS rfl rfl (congrArg (fun n => some (Instr.vdrain n)) (fn_low 0#7 mask))
theorem qwait (mask : BitVec 4) (a : BitVec 5) : Statement (.qwait mask a) := ofS rfl rfl (congrArg (fun n => some (Instr.qwait n a)) (fn_low 0#7 mask))
theorem mfs (d : BitVec 5) (n : BitVec 12) : Statement (.mfs d n) :=
  ofS rfl rfl (by
    have h1 : (0#4 ++ n : BitVec 16).extractLsb' 0 12 = n := fn_low 0#4 n
    show some (Instr.mfs d (SRaw.imm _ |>.extractLsb' 0 12)) = _
    rw [SRaw.mfs, SRaw.imm_ofImm, h1])
theorem mts (n : BitVec 12) (a : BitVec 5) : Statement (.mts n a) :=
  ofS rfl rfl (by
    have h1 : (0#4 ++ n : BitVec 16).extractLsb' 0 12 = n := fn_low 0#4 n
    show some (Instr.mts (SRaw.imm _ |>.extractLsb' 0 12) a) = _
    rw [SRaw.mts, SRaw.imm_ofImm, h1])
theorem wmpub (w : BitVec 3) (a : BitVec 5) (sc : Scope) : Statement (.wmpub w a sc) :=
  ofS rfl rfl (by
    have h1 : (0#4 ++ w ++ 0#1 ++ sc.code : BitVec 11).extractLsb' 4 3 = w := by
      rw [extract_app_high _ _ (by omega), extract_app_high _ _ (by omega)]
      exact fn_low 0#4 w
    have h2 : (0#4 ++ w ++ 0#1 ++ sc.code : BitVec 11).extractLsb' 0 3 = sc.code := fn_low (0#4 ++ w ++ 0#1) sc.code
    show (Scope.ofCode ((0#4 ++ w ++ 0#1 ++ sc.code : BitVec 11).extractLsb' 0 3)).map
      (Instr.wmpub ((0#4 ++ w ++ 0#1 ++ sc.code : BitVec 11).extractLsb' 4 3) a) = _
    rw [h1, h2, Scope.ofCode_code]
    rfl)
theorem wmwait (w : BitVec 3) (a : BitVec 5) (sc : Scope) : Statement (.wmwait w a sc) :=
  ofS rfl rfl (by
    have h1 : (0#4 ++ w ++ 0#1 ++ sc.code : BitVec 11).extractLsb' 4 3 = w := by
      rw [extract_app_high _ _ (by omega), extract_app_high _ _ (by omega)]
      exact fn_low 0#4 w
    have h2 : (0#4 ++ w ++ 0#1 ++ sc.code : BitVec 11).extractLsb' 0 3 = sc.code := fn_low (0#4 ++ w ++ 0#1) sc.code
    show (Scope.ofCode ((0#4 ++ w ++ 0#1 ++ sc.code : BitVec 11).extractLsb' 0 3)).map
      (Instr.wmwait ((0#4 ++ w ++ 0#1 ++ sc.code : BitVec 11).extractLsb' 4 3) a) = _
    rw [h1, h2, Scope.ofCode_code]
    rfl)
theorem barArrive : Statement .barArrive := ofS rfl rfl (rfl)
theorem barWait : Statement .barWait := ofS rfl rfl (rfl)
theorem barAw : Statement .barAw := ofS rfl rfl (rfl)
theorem launch (d a : BitVec 5) : Statement (.launch d a) := ofS rfl rfl (rfl)
theorem rseed (a : BitVec 5) : Statement (.rseed a) := ofS rfl rfl (rfl)
theorem rseek (a : BitVec 5) : Statement (.rseek a) := ofS rfl rfl (rfl)
theorem vqsave (d a : BitVec 5) : Statement (.vqsave d a) := ofS rfl rfl (rfl)
theorem vqload (a b : BitVec 5) : Statement (.vqload a b) := ofS rfl rfl (rfl)
theorem vcmst (a : BitVec 5) : Statement (.vcmst a) := ofS rfl rfl (rfl)
theorem vcmld (a : BitVec 5) : Statement (.vcmld a) := ofS rfl rfl (rfl)
theorem trapEntry (t : TrapReq) : Statement (.trapEntry t) := ofNone rfl rfl
theorem trapRecordDrop (ctx : Nat) : Statement (.trapRecordDrop ctx) := ofNone rfl rfl
theorem trapRingConsWrite (ctx : Nat) (cons : RingWrite) : Statement (.trapRingConsWrite ctx cons) := ofNone rfl rfl
theorem preemptionRequest (gid : BitVec 16) : Statement (.preemptionRequest gid) := ofNone rfl rfl
theorem preemptGangWrite (vf : Nat) (gid : BitVec 16) : Statement (.preemptGangWrite vf gid) := ofNone rfl rfl
theorem timeSliceExpiry (gid : BitVec 16) : Statement (.timeSliceExpiry gid) := ofNone rfl rfl
theorem graceExpiry (core : Nat) : Statement (.graceExpiry core) := ofNone rfl rfl
theorem dispatchRound : Statement .dispatchRound := ofNone rfl rfl
theorem ring0TailWrite (vf : Nat) (tail : BitVec 12) : Statement (.ring0TailWrite vf tail) := ofNone rfl rfl
theorem admission (vf : Nat) (ring1 : Bool) : Statement (.admission vf ring1) := ofNone rfl rfl
theorem barrierPhaseComplete (gid : BitVec 16) : Statement (.barrierPhaseComplete gid) := ofNone rfl rfl
theorem watermarkUpdate (core : Nat) : Statement (.watermarkUpdate core) := ofNone rfl rfl
theorem wfeWake (core : Nat) : Statement (.wfeWake core) := ofNone rfl rfl
theorem bucketRefill (cluster : Nat) : Statement (.bucketRefill cluster) := ofNone rfl rfl
theorem l2Request (cluster ctx : Nat) : Statement (.l2Request cluster ctx) := ofNone rfl rfl
theorem pageService (core : Nat) (frames : List Nat) : Statement (.pageService core frames) := ofNone rfl rfl
theorem faultResponseWrite (v : BitVec 64) : Statement (.faultResponseWrite v) := ofNone rfl rfl
theorem priPageResponse (pasid vpage : Nat) (present : Bool) (hostPage : Nat) : Statement (.priPageResponse pasid vpage present hostPage) := ofNone rfl rfl
theorem atsInvalidation (pasid vpage npages : Nat) : Statement (.atsInvalidation pasid vpage npages) := ofNone rfl rfl
theorem translationInvalidation (ctx : Nat) (va : BitVec 64) (bytes : Nat) : Statement (.translationInvalidation ctx va bytes) := ofNone rfl rfl
theorem pageMigration (ctx : Nat) (va : BitVec 64) (toHost : Bool) (page : Nat) : Statement (.pageMigration ctx va toHost page) := ofNone rfl rfl
theorem frameTableUpdate (frame : Nat) (entry : BitVec 64) : Statement (.frameTableUpdate frame entry) := ofNone rfl rfl
theorem hostDma (vf ctx : Nat) (pa : Nat) (dma : Dma) : Statement (.hostDma vf ctx pa dma) := ofNone rfl rfl
theorem correctableError (unit : ErrUnit) : Statement (.correctableError unit) := ofNone rfl rfl
theorem uncorrectableError (unit : ErrUnit) (loc : ErrLoc) : Statement (.uncorrectableError unit loc) := ofNone rfl rfl
theorem errorCountWindow (unit : ErrUnit) : Statement (.errorCountWindow unit) := ofNone rfl rfl
theorem counterCount (core : Nat) (ev : BitVec 16) (n : Nat) : Statement (.counterCount core ev n) := ofNone rfl rfl
theorem counterOverflow (core idx : Nat) : Statement (.counterOverflow core idx) := ofNone rfl rfl
theorem counterWrite (core idx : Nat) (v : BitVec 64) : Statement (.counterWrite core idx v) := ofNone rfl rfl
theorem traceRecordDrop (cluster : Nat) : Statement (.traceRecordDrop cluster) := ofNone rfl rfl
theorem singleStepStop (core : Nat) : Statement (.singleStepStop core) := ofNone rfl rfl
theorem allocateBank (who : ObsFunc) (unit ctx : Nat) : Statement (.allocateBank who unit ctx) := ofNone rfl rfl
theorem releaseBank (who : ObsFunc) (unit ctx : Nat) : Statement (.releaseBank who unit ctx) := ofNone rfl rfl
theorem allocateTraceUnit (who : ObsFunc) (unit ctx : Nat) : Statement (.allocateTraceUnit who unit ctx) := ofNone rfl rfl
theorem releaseTraceUnit (who : ObsFunc) (unit ctx : Nat) : Statement (.releaseTraceUnit who unit ctx) := ofNone rfl rfl
theorem collectiveMatch (msg : CollMsg) : Statement (.collectiveMatch msg) := ofNone rfl rfl
theorem credJoin (ctx grp tag : Nat) (parts : List CredPart) : Statement (.credJoin ctx grp tag parts) := ofNone rfl rfl
theorem copyChunkArrival (core idx : Nat) : Statement (.copyChunkArrival core idx) := ofNone rfl rfl
theorem auditBlockSign (ctx : Nat) : Statement (.auditBlockSign ctx) := ofNone rfl rfl
theorem auditConsWrite (ctx : Nat) (cons : BitVec 32) : Statement (.auditConsWrite ctx cons) := ofNone rfl rfl
theorem kernelResumeHart (core : Nat) : Statement (.kernelResumeHart core) := ofNone rfl rfl
theorem kernelEnterHandler (core : Nat) : Statement (.kernelEnterHandler core) := ofNone rfl rfl
theorem destroyGang (gid : BitVec 16) : Statement (.destroyGang gid) := ofNone rfl rfl
theorem thawMaster (m : Master) : Statement (.thawMaster m) := ofNone rfl rfl
theorem functionLevelReset (vf : Nat) : Statement (.functionLevelReset vf) := ofNone rfl rfl
theorem powerOnBoot (b : BootReport) : Statement (.powerOnBoot b) := ofNone rfl rfl
theorem keySlotLoad (slot : Nat) (key : BitVec 512) : Statement (.keySlotLoad slot key) := ofNone rfl rfl
theorem modelStoreLoad (ctx : Nat) (va : BitVec 64) (image : List (BitVec 8)) (frames : List Nat) : Statement (.modelStoreLoad ctx va image frames) := ofNone rfl rfl
theorem checkpoint (id : Nat) (ctxs : List Nat) : Statement (.checkpoint id ctxs) := ofNone rfl rfl
theorem checkpointRestore (id : Nat) : Statement (.checkpointRestore id) := ofNone rfl rfl
theorem attestationRequest (ctx : Nat) (nonce : BitVec 256) : Statement (.attestationRequest ctx nonce) := ofNone rfl rfl
theorem contextMigration (ctx : Nat) (step : MigrStep) : Statement (.contextMigration ctx step) := ofNone rfl rfl
theorem thermalLimit : Statement .thermalLimit := ofNone rfl rfl
theorem thermalLimitClear : Statement .thermalLimitClear := ofNone rfl rfl
theorem registerWrite (r : DevReg) (v : BitVec 64) : Statement (.registerWrite r v) := ofNone rfl rfl
theorem illegalSWord (w : BitVec 32) : Statement (.illegalSWord w) := ofNone rfl rfl
theorem illegalVWord (w : BitVec 64) : Statement (.illegalVWord w) := ofNone rfl rfl
theorem sWordFetchFault : Statement .sWordFetchFault := ofNone rfl rfl
theorem traceRingConsWrite (cluster : Nat) (cons : BitVec 16) : Statement (.traceRingConsWrite cluster cons) := ofNone rfl rfl
theorem collectiveGroupBind (ctx grp : Nat) (chips : List Nat) : Statement (.collectiveGroupBind ctx grp chips) := ofNone rfl rfl
theorem checkpointComplete (id : Nat) (code : Nat) : Statement (.checkpointComplete id code) := ofNone rfl rfl
theorem recoveryImageWrite (slotB : Bool) (kernel : Bool) (image : List (BitVec 8)) : Statement (.recoveryImageWrite slotB kernel image) := ofNone rfl rfl

end Sys2Proof.Laws.RoundTrip
end

