-- ==== Sys2Proof/Laws/Rows.lean ====
section
/-! SUPPORT. Rows and registers: reading a field of a row after one has been written, and the elements of a register
after a sweep. -/

namespace Sys2Proof.Machine

/-! ## Fields of a row -/

theorem rowGet_testBit {W : Nat} (r : BitVec W) (lo n i : Nat) :
    (rowGet r lo n).testBit i = (decide (i < n) && r.getLsbD (lo + i)) := by
  rw [rowGet, Nat.testBit_mod_two_pow, Nat.testBit_shiftRight]
  rfl

theorem rowGet_lt {W : Nat} (r : BitVec W) (lo n : Nat) : rowGet r lo n < 2 ^ n := Nat.mod_lt _ (Nat.two_pow_pos n)

theorem rowSet_getLsbD {W : Nat} (r : BitVec W) (lo n v j : Nat) : (rowSet r lo n v).getLsbD j =
    if lo ≤ j ∧ j < lo + n ∧ j < W then v.testBit (j - lo) else r.getLsbD j := by
  have hx : (((rowGet r lo n) ^^^ (v % 2 ^ n)) <<< lo).testBit j =
      (decide (lo ≤ j) && ((decide (j - lo < n) && r.getLsbD (lo + (j - lo))) ^^
        (decide (j - lo < n) && v.testBit (j - lo)))) := by
    rw [Nat.testBit_shiftLeft, Nat.testBit_xor, rowGet_testBit, Nat.testBit_mod_two_pow]
  rw [rowSet, BitVec.getLsbD_xor, BitVec.getLsbD_ofNat, hx]
  by_cases hW : j < W
  · by_cases h1 : lo ≤ j
    · rw [show lo + (j - lo) = j by omega]
      by_cases h2 : j < lo + n
      · rw [if_pos ⟨h1, h2, hW⟩]
        have : j - lo < n := by omega
        cases r.getLsbD j <;> cases v.testBit (j - lo) <;> simp [hW, h1, this]
      · rw [if_neg (by omega)]
        have : ¬ j - lo < n := by omega
        simp [this]
    · rw [if_neg (by omega)]
      simp [h1]
  · rw [if_neg (by omega)]
    simp [hW]

/-- A field read back. -/
theorem rowGet_rowSet {W : Nat} (r : BitVec W) {lo n : Nat} (v : Nat) (h : lo + n ≤ W) :
    rowGet (rowSet r lo n v) lo n = v % 2 ^ n := by
  apply Nat.eq_of_testBit_eq
  intro i
  rw [rowGet_testBit, Nat.testBit_mod_two_pow, rowSet_getLsbD]
  by_cases hi : i < n
  · rw [if_pos (by omega), show lo + i - lo = i by omega]
  · simp [hi]

/-- A field apart from the one written is as before. -/
theorem rowGet_rowSet_other {W : Nat} (r : BitVec W) {lo n lo' n' : Nat} (v : Nat) (h : lo' + n' ≤ lo ∨ lo + n ≤ lo') :
    rowGet (rowSet r lo n v) lo' n' = rowGet r lo' n' := by
  apply Nat.eq_of_testBit_eq
  intro i
  rw [rowGet_testBit, rowGet_testBit, rowSet_getLsbD]
  by_cases hi : i < n'
  · rw [if_neg (by omega)]
  · simp [hi]

/-- Elements of one width: the one written, and the others. -/
theorem rowGet_rowSet_elem {W : Nat} (r : BitVec W) {w e : Nat} (e' v : Nat) (h : e * w + w ≤ W) :
    rowGet (rowSet r (e * w) w v) (e' * w) w = if e' = e then v % 2 ^ w else rowGet r (e' * w) w := by
  split
  · rename_i he
    rw [he, rowGet_rowSet _ _ h]
  · rename_i he
    apply rowGet_rowSet_other
    rcases Nat.lt_or_gt_of_ne he with h1 | h1
    · left
      have := Nat.mul_le_mul_right w (show e' + 1 ≤ e from h1)
      rw [Nat.succ_mul] at this
      omega
    · right
      have := Nat.mul_le_mul_right w (show e + 1 ≤ e' from h1)
      rw [Nat.succ_mul] at this
      omega

/-! ## Folds -/

@[simp] theorem foldN_zero {α : Type} (f : Nat → α → α) (x : α) : foldN 0 f x = x := rfl
@[simp] theorem foldN_succ {α : Type} (n : Nat) (f : Nat → α → α) (x : α) : foldN (n + 1) f x = f n (foldN n f x) := rfl

/-- What every step of a fold keeps, the fold keeps. -/
theorem foldN_keeps {α : Type} {P : α → Prop} {f : Nat → α → α} (hf : ∀ i x, P x → P (f i x)) (n : Nat) {x : α}
    (h : P x) : P (foldN n f x) := by
  induction n with
  | zero => exact h
  | succ n ih => exact hf n _ ih

/-- The elements of a row after a sweep over `n` of them. -/
theorem putRow_elem (w : Nat) (on : Nat → Bool) (f : Nat → Nat) (x : Row) (e' : Nat) :
    ∀ (n : Nat), n * w ≤ 16384 → rowGet (putRow w n on f x) (e' * w) w =
      if e' < n ∧ on e' = true then f e' % 2 ^ w else rowGet x (e' * w) w
  | 0, _ => by simp [putRow]
  | n + 1, h => by
    have hn : n * w + w ≤ 16384 := by rw [← Nat.succ_mul]; exact h
    have ih := putRow_elem w on f x e' n (by omega)
    show rowGet (if on n then rowSet (putRow w n on f x) (n * w) w (f n) else putRow w n on f x) (e' * w) w = _
    by_cases hon : on n = true
    · rw [if_pos hon, rowGet_rowSet_elem _ _ _ hn, ih]
      by_cases he : e' = n
      · subst he
        rw [if_pos rfl, if_pos ⟨by omega, hon⟩]
      · rw [if_neg he]
        by_cases hl : e' < n ∧ on e' = true
        · rw [if_pos hl, if_pos ⟨by omega, hl.2⟩]
        · rw [if_neg hl, if_neg (fun h => hl ⟨by omega, h.2⟩)]
    · rw [if_neg hon, ih]
      by_cases hl : e' < n ∧ on e' = true
      · rw [if_pos hl, if_pos ⟨by omega, hl.2⟩]
      · rw [if_neg hl, if_neg]
        rintro ⟨h1, h2⟩
        by_cases he : e' = n
        · subst he; exact hon h2
        · exact hl ⟨by omega, h2⟩

/-! ## Registers -/

theorem VReg.row_setRow (v : VReg) (r r' : Nat) (x : Row) (h : r < 16) :
    (v.setRow r x).row r' = if r' = r then x else v.row r' := by
  unfold VReg.row VReg.setRow
  rw [Vector.getElem?_setIfInBounds]
  by_cases hr : r' = r
  · subst hr
    simp [h]
  · rw [if_neg (fun h => hr h.symm), if_neg hr]

/-- The elements of a register after a sweep over `rows` rows. -/
theorem foldRows_elem (w n : Nat) (on : Nat → Nat → Bool) (f : Nat → Nat → Nat) (v : VReg) (r' e' : Nat)
    (hn : n * w ≤ 16384) : ∀ (rows : Nat), rows ≤ 16 →
    rowGet ((foldN rows (fun r v => v.setRow r (putRow w n (on r) (f r) (v.row r))) v).row r') (e' * w) w =
      if r' < rows ∧ e' < n ∧ on r' e' = true then f r' e' % 2 ^ w else rowGet (v.row r') (e' * w) w
  | 0, _ => by simp
  | rows + 1, h => by
    have ih := foldRows_elem w n on f v r' e' hn rows (by omega)
    rw [foldN_succ, VReg.row_setRow _ _ _ _ (by omega)]
    by_cases hr : r' = rows
    · subst hr
      rw [if_pos rfl, putRow_elem w _ _ _ _ n hn, ih]
      by_cases he : e' < n ∧ on r' e' = true
      · rw [if_pos he, if_pos ⟨by omega, he⟩]
      · rw [if_neg he, if_neg (by omega), if_neg (fun h => he h.2)]
    · rw [if_neg hr, ih]
      by_cases hl : r' < rows ∧ e' < n ∧ on r' e' = true
      · rw [if_pos hl, if_pos ⟨by omega, hl.2⟩]
      · rw [if_neg hl, if_neg (fun h => hl ⟨by omega, h.2⟩)]

/-- A register read after one has been written. -/
theorem Core.vreg_setV (c : Core) (v u : BitVec 5) (x : VReg) :
    (c.setV v x).vreg u = if u = v then x else c.vreg u := by
  show (c.v.set v.toNat x)[u.toNat] = _
  rw [Vector.getElem_set]
  by_cases h : u = v
  · subst h
    simp
  · rw [if_neg (fun h' => h (BitVec.eq_of_toNat_eq h'.symm)), if_neg h]
    rfl

/-- WHAT A SWEEP WRITES (R52, R213): the elements of vd that `on` selects become `f`, the others stay. -/
theorem Core.putWhere_elem (c : Core) {rows n w : Nat} (on : Nat → Nat → Bool) (vd : BitVec 5) (f : Nat → Nat → Nat)
    (r e : Nat) (hr : rows ≤ 16) (hn : n * w ≤ 16384) :
    (c.putWhere rows n w on vd f).elem vd w r e =
      if r < rows ∧ e < n ∧ on r e = true then f r e % 2 ^ w else c.elem vd w r e := by
  unfold Core.putWhere
  split
  · rw [Core.elem, Core.vreg_setV, if_pos rfl, foldRows_elem w n on f _ r e hn rows hr]
    rfl
  · rename_i h
    rw [if_neg]
    rintro ⟨h1, h2, h3⟩
    apply h
    rw [List.any_eq_true]
    refine ⟨r, List.mem_range.mpr h1, ?_⟩
    rw [List.any_eq_true]
    exact ⟨e, List.mem_range.mpr h2, h3⟩

/-- A sweep leaves every other register alone. -/
theorem Core.putWhere_other (c : Core) (rows n w : Nat) (on : Nat → Nat → Bool) (vd u : BitVec 5)
    (f : Nat → Nat → Nat) (h : u ≠ vd) : (c.putWhere rows n w on vd f).vreg u = c.vreg u := by
  unfold Core.putWhere
  split
  · rw [Core.vreg_setV, if_neg h]
  · rfl

/-- A sweep changes registers and the dirty bits, nothing else (R49). -/
theorem Core.putWhere_frame (c : Core) (rows n w : Nat) (on : Nat → Nat → Bool) (vd : BitVec 5) (f : Nat → Nat → Nat) :
    c.putWhere rows n w on vd f =
      { c with v := (c.putWhere rows n w on vd f).v, vdirty := (c.putWhere rows n w on vd f).vdirty } := by
  unfold Core.putWhere
  split <;> rfl

/-- Spoiled groups are dropped only where there are any. -/
theorem Core.freshGroups_sound (c : Core) (w : Nat) (on : Nat → Nat → Bool) (vd : BitVec 5) (h : c.poison = []) :
    c.freshGroups w on vd = c := by
  unfold Core.freshGroups
  rw [h]
  rfl

end Sys2Proof.Machine
end

