-- ==== Sys2Proof/Laws/State.lean ====
section
/-! SUPPORT. What each update of the state leaves in every field, and what each shared operation can do. -/

namespace Sys2Proof.Machine

/-! ## Updates of the state, field for field -/

@[simp] theorem State.withCore_core (s : State) (f : Core → Core) : (s.withCore f).core = f s.core := rfl
@[simp] theorem State.withCore_dev (s : State) (f : Core → Core) : (s.withCore f).dev = s.dev := rfl
@[simp] theorem State.withCore_rest (s : State) (f : Core → Core) : (s.withCore f).rest = s.rest := rfl
@[simp] theorem State.withCore_inbox (s : State) (f : Core → Core) : (s.withCore f).inbox = s.inbox := rfl
@[simp] theorem State.withCore_plan (s : State) (f : Core → Core) : (s.withCore f).plan = s.plan := rfl
@[simp] theorem State.withCore_free (s : State) (f : Core → Core) : (s.withCore f).free = s.free := rfl

@[simp] theorem State.withDev_dev (s : State) (f : Device → Device) : (s.withDev f).dev = f s.dev := rfl
@[simp] theorem State.withDev_core (s : State) (f : Device → Device) : (s.withDev f).core = s.core := rfl
@[simp] theorem State.withDev_rest (s : State) (f : Device → Device) : (s.withDev f).rest = s.rest := rfl
@[simp] theorem State.withDev_inbox (s : State) (f : Device → Device) : (s.withDev f).inbox = s.inbox := rfl
@[simp] theorem State.withDev_plan (s : State) (f : Device → Device) : (s.withDev f).plan = s.plan := rfl
@[simp] theorem State.withDev_free (s : State) (f : Device → Device) : (s.withDev f).free = s.free := rfl

@[simp] theorem State.advance_core (s : State) : s.advance.core = { s.core with pc := s.core.pc + 4 } := rfl
@[simp] theorem State.advance_dev (s : State) : s.advance.dev = s.dev := rfl
@[simp] theorem State.advance_rest (s : State) : s.advance.rest = s.rest := rfl
@[simp] theorem State.advance_inbox (s : State) : s.advance.inbox = s.inbox := rfl
@[simp] theorem State.advance_plan (s : State) : s.advance.plan = s.plan := rfl
@[simp] theorem State.advance_free (s : State) : s.advance.free = s.free := rfl
@[simp] theorem State.jump_core (s : State) (a : Word) : (s.jump a).core = { s.core with pc := a } := rfl
@[simp] theorem State.jump_dev (s : State) (a : Word) : (s.jump a).dev = s.dev := rfl
@[simp] theorem State.jump_rest (s : State) (a : Word) : (s.jump a).rest = s.rest := rfl
@[simp] theorem State.jump_inbox (s : State) (a : Word) : (s.jump a).inbox = s.inbox := rfl
@[simp] theorem State.jump_plan (s : State) (a : Word) : (s.jump a).plan = s.plan := rfl
@[simp] theorem State.jump_free (s : State) (a : Word) : (s.jump a).free = s.free := rfl
@[simp] theorem State.jump_eq_movedTo (s : State) (a : Word) : s.jump a = s.movedTo a := rfl

@[simp] theorem State.stall_core (s : State) : s.stall.core = { s.core with why := some (.wait none) } := rfl
@[simp] theorem State.stall_dev (s : State) : s.stall.dev = s.dev := rfl

@[simp] theorem State.stall_rest (s : State) : s.stall.rest = s.rest := rfl
@[simp] theorem State.stall_inbox (s : State) : s.stall.inbox = s.inbox := rfl
@[simp] theorem State.stall_plan (s : State) : s.stall.plan = s.plan := rfl
@[simp] theorem State.stall_free (s : State) : s.stall.free = s.free := rfl

@[simp] theorem State.wrote_dev (s : State) (d : BitVec 5) (v : Word) : (s.wrote d v).dev = s.dev := rfl
@[simp] theorem State.wrote_rest (s : State) (d : BitVec 5) (v : Word) : (s.wrote d v).rest = s.rest := rfl
@[simp] theorem State.wrote_pc (s : State) (d : BitVec 5) (v : Word) : (s.wrote d v).core.pc = s.core.pc + 4 := rfl
@[simp] theorem State.wrote_v (s : State) (d : BitVec 5) (v : Word) : (s.wrote d v).core.v = s.core.v := rfl
@[simp] theorem State.wrote_t (s : State) (d : BitVec 5) (v : Word) : (s.wrote d v).core.t = s.core.t := rfl
@[simp] theorem State.wrote_hstat (s : State) (d : BitVec 5) (v : Word) : (s.wrote d v).core.hstat = s.core.hstat := rfl
@[simp] theorem State.wrote_lgs (s : State) (d : BitVec 5) (v : Word) : (s.wrote d v).core.lgs = s.core.lgs := rfl
@[simp] theorem State.wrote_cmv (s : State) (d : BitVec 5) (v : Word) : (s.wrote d v).core.cmv = s.core.cmv := rfl
@[simp] theorem State.wrote_cm (s : State) (d : BitVec 5) (v : Word) : (s.wrote d v).core.cm = s.core.cm := rfl
@[simp] theorem State.wrote_tiles (s : State) (d : BitVec 5) (v : Word) : (s.wrote d v).core.tiles = s.core.tiles := rfl
@[simp] theorem State.wrote_wins (s : State) (d : BitVec 5) (v : Word) : (s.wrote d v).core.wins = s.core.wins := rfl
@[simp] theorem State.wrote_q (s : State) (d : BitVec 5) (v : Word) : (s.wrote d v).core.q = s.core.q := rfl
@[simp] theorem State.wrote_ix (s : State) (d : BitVec 5) (v : Word) : (s.wrote d v).core.ix = s.core.ix := rfl
@[simp] theorem State.wrote_press (s : State) (d : BitVec 5) (v : Word) : (s.wrote d v).core.press = s.core.press := rfl
@[simp] theorem State.wrote_spad (s : State) (d : BitVec 5) (v : Word) : (s.wrote d v).core.spad = s.core.spad := rfl
@[simp] theorem State.wrote_vec (s : State) (d : BitVec 5) (v : Word) : (s.wrote d v).core.vec = s.core.vec := rfl
@[simp] theorem State.wrote_mat (s : State) (d : BitVec 5) (v : Word) : (s.wrote d v).core.mat = s.core.mat := rfl
@[simp] theorem State.wrote_cpy (s : State) (d : BitVec 5) (v : Word) : (s.wrote d v).core.cpy = s.core.cpy := rfl
@[simp] theorem State.wrote_col (s : State) (d : BitVec 5) (v : Word) : (s.wrote d v).core.col = s.core.col := rfl
@[simp] theorem State.wrote_region (s : State) (d : BitVec 5) (v : Word) : (s.wrote d v).core.region = s.core.region := rfl
@[simp] theorem State.wrote_spent (s : State) (d : BitVec 5) (v : Word) : (s.wrote d v).core.spent = s.core.spent := rfl
@[simp] theorem State.wrote_midFetch (s : State) (d : BitVec 5) (v : Word) : (s.wrote d v).core.midFetch = s.core.midFetch := rfl
@[simp] theorem State.wrote_pubs (s : State) (d : BitVec 5) (v : Word) : (s.wrote d v).core.pubs = s.core.pubs := rfl
@[simp] theorem State.movedTo_dev (s : State) (a : Word) : (s.movedTo a).dev = s.dev := rfl
@[simp] theorem State.movedTo_s (s : State) (a : Word) : (s.movedTo a).core.s = s.core.s := rfl
@[simp] theorem State.movedTo_pc (s : State) (a : Word) : (s.movedTo a).core.pc = a := rfl

@[simp] theorem State.movedTo_v (s : State) (a : Word) : (s.movedTo a).core.v = s.core.v := rfl
@[simp] theorem State.movedTo_t (s : State) (a : Word) : (s.movedTo a).core.t = s.core.t := rfl
@[simp] theorem State.movedTo_hstat (s : State) (a : Word) : (s.movedTo a).core.hstat = s.core.hstat := rfl
@[simp] theorem State.movedTo_lgs (s : State) (a : Word) : (s.movedTo a).core.lgs = s.core.lgs := rfl
@[simp] theorem State.movedTo_cmv (s : State) (a : Word) : (s.movedTo a).core.cmv = s.core.cmv := rfl
@[simp] theorem State.movedTo_cm (s : State) (a : Word) : (s.movedTo a).core.cm = s.core.cm := rfl
@[simp] theorem State.movedTo_tiles (s : State) (a : Word) : (s.movedTo a).core.tiles = s.core.tiles := rfl
@[simp] theorem State.movedTo_wins (s : State) (a : Word) : (s.movedTo a).core.wins = s.core.wins := rfl
@[simp] theorem State.movedTo_q (s : State) (a : Word) : (s.movedTo a).core.q = s.core.q := rfl
@[simp] theorem State.movedTo_ix (s : State) (a : Word) : (s.movedTo a).core.ix = s.core.ix := rfl
@[simp] theorem State.movedTo_press (s : State) (a : Word) : (s.movedTo a).core.press = s.core.press := rfl
@[simp] theorem State.movedTo_spad (s : State) (a : Word) : (s.movedTo a).core.spad = s.core.spad := rfl
@[simp] theorem State.movedTo_vec (s : State) (a : Word) : (s.movedTo a).core.vec = s.core.vec := rfl
@[simp] theorem State.movedTo_mat (s : State) (a : Word) : (s.movedTo a).core.mat = s.core.mat := rfl
@[simp] theorem State.movedTo_cpy (s : State) (a : Word) : (s.movedTo a).core.cpy = s.core.cpy := rfl
@[simp] theorem State.movedTo_col (s : State) (a : Word) : (s.movedTo a).core.col = s.core.col := rfl
@[simp] theorem State.movedTo_region (s : State) (a : Word) : (s.movedTo a).core.region = s.core.region := rfl
@[simp] theorem State.movedTo_spent (s : State) (a : Word) : (s.movedTo a).core.spent = s.core.spent := rfl
@[simp] theorem State.movedTo_midFetch (s : State) (a : Word) : (s.movedTo a).core.midFetch = s.core.midFetch := rfl
@[simp] theorem State.movedTo_pubs (s : State) (a : Word) : (s.movedTo a).core.pubs = s.core.pubs := rfl

/-! ## Scalar registers -/

theorem readS_eq_operand (s : State) (r : BitVec 5) : readS s r = s.operand r := rfl

/-- `s0` reads as zero. -/
@[simp] theorem readS_zero (s : State) : readS s 0 = 0 := rfl

/-- A write of `s0` is discarded. -/
@[simp] theorem writeS_zero (s : State) (v : Word) : writeS s 0 v = s := rfl

/-- A write of a register changes that register of the focused hart and nothing else. -/
theorem writeS_eq (s : State) (d : BitVec 5) (v : Word) :
    writeS s d v = { s with core := { s.core with s := if d = 0 then s.core.s else s.core.s.set d.toNat v } } := by
  unfold writeS State.withCore
  split <;> rfl

@[simp] theorem writeS_dev (s : State) (d : BitVec 5) (v : Word) : (writeS s d v).dev = s.dev := by rw [writeS_eq]
@[simp] theorem writeS_rest (s : State) (d : BitVec 5) (v : Word) : (writeS s d v).rest = s.rest := by rw [writeS_eq]
@[simp] theorem writeS_pc (s : State) (d : BitVec 5) (v : Word) : (writeS s d v).core.pc = s.core.pc := by rw [writeS_eq]

/-- Write and go on: exactly what the rules of the arithmetic S-words leave. -/
theorem writeNext_eq_wrote (s : State) (d : BitVec 5) (v : Word) : writeNext s d v = s.wrote d v := by
  rw [writeNext, writeS_eq]
  rfl

/-- Write and transfer. -/
theorem jump_writeS (s : State) (d : BitVec 5) (v a : Word) :
    (writeS s d v).jump a = (s.wrote d v).movedTo a := by
  rw [writeS_eq]
  rfl

/-- The register that was written reads back, unless it is `s0`. -/
theorem readS_writeS_same (s : State) {d : BitVec 5} (hd : d ≠ 0) (v : Word) : readS (writeS s d v) d = v := by
  unfold readS
  rw [if_neg hd, writeS_eq]
  simp only [if_neg hd]
  exact Vector.getElem_set_self _

/-- Every other register reads as before. -/
theorem readS_writeS_other (s : State) {d r : BitVec 5} (h : r ≠ d) (v : Word) :
    readS (writeS s d v) r = readS s r := by
  have hn : d.toNat ≠ r.toNat := fun e => h (BitVec.eq_of_toNat_eq e.symm)
  unfold readS
  rw [writeS_eq]
  dsimp only
  split
  · rfl
  · split
    · rfl
    · exact Vector.getElem_set_ne _ _ hn

/-! ## Registers of the array -/

@[simp] theorem Core.setV_s (c : Core) (v : BitVec 5) (x : VReg) : (c.setV v x).s = c.s := rfl
@[simp] theorem Core.setV_pc (c : Core) (v : BitVec 5) (x : VReg) : (c.setV v x).pc = c.pc := rfl
@[simp] theorem Core.setV_run (c : Core) (v : BitVec 5) (x : VReg) : (c.setV v x).run = c.run := rfl
@[simp] theorem Core.setV_lgs (c : Core) (v : BitVec 5) (x : VReg) : (c.setV v x).lgs = c.lgs := rfl
@[simp] theorem Core.setV_hi (c : Core) (v : BitVec 5) (x : VReg) : (c.setV v x).hi = c.hi := rfl
@[simp] theorem Core.setV_tiles (c : Core) (v : BitVec 5) (x : VReg) : (c.setV v x).tiles = c.tiles := rfl
@[simp] theorem Core.setV_press (c : Core) (v : BitVec 5) (x : VReg) : (c.setV v x).press = c.press := rfl
@[simp] theorem Core.setV_streams (c : Core) (v : BitVec 5) (x : VReg) : (c.setV v x).q = c.q := rfl

@[simp] theorem Core.setV_o (c : Core) (v : BitVec 5) (x : VReg) : (c.setV v x).o = c.o := rfl
@[simp] theorem Core.setV_vl (c : Core) (v : BitVec 5) (x : VReg) : (c.setV v x).vl = c.vl := rfl
@[simp] theorem Core.setV_rc (c : Core) (v : BitVec 5) (x : VReg) : (c.setV v x).rc = c.rc := rfl
@[simp] theorem Core.setV_vtype (c : Core) (v : BitVec 5) (x : VReg) : (c.setV v x).vtype = c.vtype := rfl
@[simp] theorem Core.setV_cmv (c : Core) (v : BitVec 5) (x : VReg) : (c.setV v x).cmv = c.cmv := rfl
@[simp] theorem Core.setV_cm (c : Core) (v : BitVec 5) (x : VReg) : (c.setV v x).cm = c.cm := rfl
@[simp] theorem Core.setV_cntLive (c : Core) (v : BitVec 5) (x : VReg) : (c.setV v x).cntLive = c.cntLive := rfl
@[simp] theorem Core.setV_spent (c : Core) (v : BitVec 5) (x : VReg) : (c.setV v x).spent = c.spent := rfl
@[simp] theorem Core.setV_wins (c : Core) (v : BitVec 5) (x : VReg) : (c.setV v x).wins = c.wins := rfl
@[simp] theorem Core.setV_ix (c : Core) (v : BitVec 5) (x : VReg) : (c.setV v x).ix = c.ix := rfl
@[simp] theorem Core.setV_spad (c : Core) (v : BitVec 5) (x : VReg) : (c.setV v x).spad = c.spad := rfl
@[simp] theorem Core.setV_vec (c : Core) (v : BitVec 5) (x : VReg) : (c.setV v x).vec = c.vec := rfl
@[simp] theorem Core.setV_mat (c : Core) (v : BitVec 5) (x : VReg) : (c.setV v x).mat = c.mat := rfl
@[simp] theorem Core.setV_cpy (c : Core) (v : BitVec 5) (x : VReg) : (c.setV v x).cpy = c.cpy := rfl
@[simp] theorem Core.setV_col (c : Core) (v : BitVec 5) (x : VReg) : (c.setV v x).col = c.col := rfl
@[simp] theorem Core.setV_region (c : Core) (v : BitVec 5) (x : VReg) : (c.setV v x).region = c.region := rfl
@[simp] theorem Core.setV_stps (c : Core) (v : BitVec 5) (x : VReg) : (c.setV v x).stps = c.stps := rfl
@[simp] theorem Core.setV_midFetch (c : Core) (v : BitVec 5) (x : VReg) : (c.setV v x).midFetch = c.midFetch := rfl
@[simp] theorem Core.setV_hstat (c : Core) (v : BitVec 5) (x : VReg) : (c.setV v x).hstat = c.hstat := rfl
@[simp] theorem Core.setV_t (c : Core) (v : BitVec 5) (x : VReg) : (c.setV v x).t = c.t := rfl

/-! ## Places -/

/-- Bytes written in device memory. -/
theorem State.setBytes_dram_mem (s : State) (a : Nat) (bs : List Byte) :
    (s.setBytes (.dram a) bs).dev.dram = s.dev.dram.write a bs := by
  unfold State.setBytes
  dsimp only
  split <;> rfl

/-- Bytes written in device memory leave host memory as it was. -/
theorem State.setBytes_dram_host (s : State) (a : Nat) (bs : List Byte) :
    (s.setBytes (.dram a) bs).dev.host = s.dev.host := by
  unfold State.setBytes
  dsimp only
  split <;> rfl

/-- A write of device registers changes nothing outside the device. -/
theorem State.putRegs_frame (ctx : Nat) : ∀ (k pa : Nat) (bs : List Byte) (s : State),
    ∃ d, State.putRegs ctx k pa bs s = { s with dev := d }
  | 0, _, _, s => ⟨s.dev, rfl⟩
  | k + 1, pa, bs, s => by
    unfold State.putRegs
    split
    · exact ⟨s.dev, rfl⟩
    · obtain ⟨d, h⟩ := State.putRegs_frame ctx k _ _ _
      exact ⟨d, h⟩

/-- Bytes written anywhere leave the scalar registers, the pc, the trap words and the array registers. -/
theorem State.setBytes_core (s : State) (p : Place) (bs : List Byte) :
    ∃ sp w, (s.setBytes p bs).core = { s.core with spad := sp, wrote := w } := by
  unfold State.setBytes State.withCore State.withDev
  cases p with
  | reg a =>
    dsimp only
    split <;> (obtain ⟨d, h⟩ := State.putRegs_frame _ _ a bs _; rw [h]; exact ⟨_, _, rfl⟩)
  | _ => dsimp only; split <;> exact ⟨_, _, rfl⟩

/-- Bytes written in device memory, in the words of the rules. -/
theorem State.setBytes_dram (s : State) (a : Nat) (bs : List Byte) :
    s.setBytes (.dram a) bs = (s.withDram (s.dev.dram.write a bs)).noted (.dram a) bs.length := by
  unfold State.setBytes State.noted
  by_cases h : s.anyPoison
  · rw [if_pos h, if_pos (by exact h)]
    rfl
  · rw [if_neg h, if_neg (by exact h)]
    rfl

/-- Bytes written in host memory, in the words of the rules. -/
theorem State.setBytes_host (s : State) (a : Nat) (bs : List Byte) :
    s.setBytes (.host a) bs = (s.withHost (s.dev.host.write a bs)).noted (.host a) bs.length := by
  unfold State.setBytes State.noted
  by_cases h : s.anyPoison
  · rw [if_pos h, if_pos (by exact h)]
    rfl
  · rw [if_neg h, if_neg (by exact h)]
    rfl

/-! ## Translation -/

theorem of_ite_error {ε α : Type} {c : Prop} [Decidable c] {e : ε} {x : Except ε α} {r : α}
    (h : (if c then .error e else x) = .ok r) : x = .ok r := by
  split at h
  · cases h
  · exact h

/-- Setting the A and D bits of a leaf changes device memory alone. -/
theorem State.mark_frame (s : State) (l : Leaf) (k : Acc) : ∃ m, s.mark l k = s.withDev fun d => { d with dram := m } := by
  unfold State.mark
  generalize l.entry ||| 0x100 ||| (if k.writes then 0x200 else 0) = e
  dsimp only
  split
  · exact ⟨s.dev.dram, rfl⟩
  · exact ⟨_, rfl⟩

/-- The host-translation cache is all that finding a host page may change. -/
theorem Device.hostTranslate_frame {d d' : Device} {pasid page x : Nat} (h : d.hostTranslate pasid page = some (x, d')) :
    ∃ a, d' = { d with atc := a } := by
  unfold Device.hostTranslate at h
  dsimp only at h
  split at h
  · cases h
    exact ⟨d.atc, rfl⟩
  · rw [Option.map_eq_some_iff] at h
    obtain ⟨p, -, h⟩ := h
    cases h
    exact ⟨_, rfl⟩

/-- An access whose leaf permits it changes at most the host-translation cache from there on. -/
theorem reach_ok {s : State} {g : Gang} {l : Leaf} {a : Nat} {k : Acc} {spec : Bool} {p : Place} {attr : Nat} {t : State}
    (h : reach s g l a k spec = .ok (p, attr, t)) : ∃ c, t = s.withDev fun d => { d with atc := c } := by
  unfold reach at h
  have h := of_ite_error h
  by_cases hh : eH l.entry = true
  · rw [if_pos hh] at h
    split at h
    · cases h
    · rename_i hd
      have h := of_ite_error h
      obtain ⟨c, rfl⟩ := Device.hostTranslate_frame hd
      cases h
      exact ⟨c, rfl⟩
  · rw [if_neg hh] at h
    dsimp only at h
    refine ⟨s.dev.atc, ?_⟩
    by_cases ha : eAttr l.entry = 2
    · rw [if_pos ha] at h
      have h := of_ite_error h
      cases h
      rfl
    · rw [if_neg ha] at h
      have h := of_ite_error h
      split at h
      · cases h
      · cases h
        rfl

/-- An access through a translation that the word's checks have found changes nothing. -/
theorem Pin.reach_ok {x : Pin} {s : State} {g : Gang} {a : Nat} {k : Acc} {p : Place} {attr : Nat} {t : State}
    (h : x.reach s g a k = .ok (p, attr, t)) : t = s := by
  unfold Pin.reach at h
  dsimp only at h
  split at h
  · split at h
    · cases h
    · cases h; rfl
  all_goals cases h; rfl

/-- An access that passes every check changes at most device memory, and there only the leaf's A and D bits, and the
host-translation cache. -/
theorem probe_ok {s : State} {va : Word} {n : Nat} {k : Acc} {spec : Bool} {p : Place} {attr : Nat} {t : State}
    (h : probe s va n k spec = .ok (p, attr, t)) :
    ∃ m c, t = s.withDev fun d => { d with dram := m, atc := c } := by
  unfold probe at h
  dsimp only at h
  have h := of_ite_error h
  split at h
  · cases h
  · split at h
    · rw [Pin.reach_ok h]
      exact ⟨s.dev.dram, s.dev.atc, rfl⟩
    · have h := of_ite_error h
      split at h
      · cases h
      · rename_i l _
        obtain ⟨m, hm⟩ := State.mark_frame s l k
        obtain ⟨c, rfl⟩ := Machine.reach_ok h
        rw [hm]
        exact ⟨m, c, rfl⟩

/-- An access that passes every check changes nothing of the harts. -/
theorem probe_core {s : State} {va : Word} {n : Nat} {k : Acc} {spec : Bool} {p : Place} {attr : Nat} {t : State}
    (h : probe s va n k spec = .ok (p, attr, t)) : t.core = s.core ∧ t.rest = s.rest := by
  obtain ⟨_, _, rfl⟩ := probe_ok h
  exact ⟨rfl, rfl⟩

/-- An access that is let through after the answer to its page request has passed every check. -/
theorem probeFor_ok {s : State} {o : Owner} {va : Word} {n : Nat} {k : Acc} {spec : Bool} {x : Place × Nat × State}
    (h : probeFor s o va n k spec = .ok x) : probe s va n k spec = .ok x := of_ite_error h

/-- A load that answers found the place of its bytes, and its value is what they hold. -/
theorem load_ok {s : State} {o : Owner} {va : Word} {n step v : Nat} {t : State}
    (h : load s o va n step = .ok (v, t)) :
    ∃ p attr, probe s va n .read false = .ok (p, attr, t) ∧ s.poisoned p = false ∧ v = t.readPlace p n := by
  unfold load at h
  split at h
  · cases h
  · rename_i p attr t' hp
    split at h
    · cases h
    · rename_i hpo
      cases h
      exact ⟨p, attr, probeFor_ok hp, by simpa using hpo, rfl⟩

/-- A load that answers has changed nothing of the harts. -/
theorem load_core {s : State} {o : Owner} {va : Word} {n step v : Nat} {t : State}
    (h : load s o va n step = .ok (v, t)) : t.core = s.core ∧ t.rest = s.rest := by
  obtain ⟨_, _, hp, -⟩ := load_ok h
  exact probe_core hp

/-- A store that answers found the place of its bytes and wrote them there. -/
theorem store_ok {s : State} {o : Owner} {va : Word} {n v step : Nat} {t : State}
    (h : store s o va n v step = .ok t) :
    ∃ p attr u, probe s va n .write false = .ok (p, attr, u) ∧ t = u.writePlace p n v := by
  unfold store at h
  split at h
  · cases h
  · rename_i p attr u hp
    cases h
    exact ⟨p, attr, u, probeFor_ok hp, rfl⟩

/-- A failed access of the Last ends in a next state: a trap, or a wait. -/
theorem lastStop_next (s : State) (e : Stop) : ∃ t, lastStop s e = .next t := by cases e <;> exact ⟨_, rfl⟩

/-! ## Records -/

/-- A stamp counts the stamp sequence and the free values, and nothing else. -/
theorem State.stamp_frame (s : State) :
    s.stamp.2 = { s with free := s.free + 1, core := { s.core with stampSeq := s.core.stampSeq + 1 } } := rfl

/-- A trace record changes nothing of the harts but the stamp sequence. -/
theorem State.trace_core (s : State) (ty en : Nat) (pc prov data extra : Word) :
    ∃ n, (s.trace ty en pc prov data extra).core = { s.core with stampSeq := n } := by
  unfold State.trace
  split
  · exact ⟨s.core.stampSeq, rfl⟩
  · dsimp only
    repeat' split
    all_goals first
      | exact ⟨s.core.stampSeq, rfl⟩
      | exact ⟨s.core.stampSeq + 1, rfl⟩

theorem State.trace_rest (s : State) (ty en : Nat) (pc prov data extra : Word) :
    (s.trace ty en pc prov data extra).rest = s.rest := by
  unfold State.trace
  split
  · rfl
  · dsimp only
    repeat' split
    all_goals rfl

/-- Without a trace unit nothing is traced. -/
theorem State.trace_none {s : State} (h : s.dev.tracer s.core.cluster = none) (ty en : Nat)
    (pc prov data extra : Word) : s.trace ty en pc prov data extra = s := by
  unfold State.trace
  rw [h]

/-! ## Taking an exception -/

/-- Marking the placed words as parked changes the queues alone. -/
theorem Core.setParked_frame (c : Core) (b : Bool) :
    ∃ v m y l, c.setParked b = { c with vec := v, mat := m, cpy := y, col := l } := ⟨_, _, _, _, rfl⟩

/-- The trap words and the mode that entry writes (R387). -/
@[simp] theorem Core.trapTaken_t (c : Core) (t : TrapReq) (tepc tcause prov : Word) :
    (c.trapTaken t tepc tcause prov).t =
      { c.t with tepc := tepc &&& 0x7FFFFFFFFFFFFC, tcause := tcause, tprov := prov, tval := t.tval } := rfl
@[simp] theorem Core.trapTaken_hstat (c : Core) (t : TrapReq) (tepc tcause prov : Word) :
    (c.trapTaken t tepc tcause prov).hstat = setBit (setBit c.hstat 1 c.kmode) 0 true := rfl
@[simp] theorem Core.trapTaken_s (c : Core) (t : TrapReq) (tepc tcause prov : Word) :
    (c.trapTaken t tepc tcause prov).s = c.s := rfl
@[simp] theorem Core.trapTaken_v (c : Core) (t : TrapReq) (tepc tcause prov : Word) :
    (c.trapTaken t tepc tcause prov).v = c.v := rfl
@[simp] theorem Core.trapTaken_pc (c : Core) (t : TrapReq) (tepc tcause prov : Word) :
    (c.trapTaken t tepc tcause prov).pc = c.pc := rfl

/-- Entry proper: the Last stands at `tvec`, or the kernel holds the hart. -/
theorem Core.enter_none_pc (c : Core) : (c.enter none).pc = BitVec.ofNat 64 (wfield c.t.tvec 54 2 * 4) := rfl
theorem Core.enter_none_stopped (c : Core) : (c.enter none).stopped = c.stopped := rfl
theorem Core.enter_some_stopped (c : Core) (k : KStop) : (c.enter (some k)).stopped = some k := rfl
theorem Core.enter_some_pc (c : Core) (k : KStop) : (c.enter (some k)).pc = c.pc := rfl

/-- Entry changes the pc, the wait for room and the kernel's hold, and nothing else of the hart. -/
theorem Core.enter_frame (c : Core) (stop : Option KStop) :
    ∃ pc k, c.enter stop = { c with pc := pc, stopped := k, trapWait := none } := by
  cases stop
  · exact ⟨_, c.stopped, rfl⟩
  · exact ⟨c.pc, _, rfl⟩

/-- Posting the record either enters the trap or waits for room in the ring. -/
theorem State.postTrap_cases (s : State) (r : Record) (stop : Option KStop) :
    (∃ d, s.dev.tryPush s.ctxId r = some d ∧ s.postTrap r stop = { s with dev := d, core := s.core.enter stop }) ∨
    (s.dev.tryPush s.ctxId r = none ∧
      s.postTrap r stop = s.withCore fun c => { c with trapWait := some ⟨r, stop⟩ }) := by
  unfold State.postTrap
  split
  · exact .inl ⟨_, ‹_›, rfl⟩
  · exact .inr ⟨‹_›, rfl⟩

/-! ## Running a V-word -/

/-- What `finishVec` leaves outside the word's own effect: the device's memory is as the body left it. -/
theorem State.settlePoison_mem (s : State) :
    s.settlePoison.dev.dram = s.dev.dram ∧ s.settlePoison.dev.host = s.dev.host := by
  unfold State.settlePoison
  dsimp only
  split <;> exact ⟨rfl, rfl⟩

theorem State.finishVec_mem (s : State) :
    s.finishVec.dev.dram = s.dev.dram ∧ s.finishVec.dev.host = s.dev.host := State.settlePoison_mem _

theorem State.finishWord_mem (s : State) :
    s.finishWord.dev.dram = s.dev.dram ∧ s.finishWord.dev.host = s.dev.host := State.settlePoison_mem _

/-- A memory word that passes its checks outside an annulled region runs its body and retires. -/
theorem memWord_run {gran : Gran} {inRegion ao : Bool} {limits : Core → Except Stop Unit}
    {body : State → Except Stop State} {uses : Core → Uses} {s t : State} (h1 : firstUseOk s.core = .ok ())
    (h2 : regionOk s.core inRegion = .ok ()) (h3 : s.core.annulled = false) (h4 : limits s.core = .ok ())
    (h5 : body s = .ok t) : memWord gran inRegion ao limits body uses s = endVec t := by
  simp only [memWord, h1, h2, h3, h4, h5, Bool.false_eq_true, if_false]

/-- The same for a word that makes no access. -/
theorem vecWord_run {gran : Gran} {inRegion : Bool} {limits : Core → Except Stop Unit}
    {body : State → Except Stop State} {s t : State} (h1 : firstUseOk s.core = .ok ())
    (h2 : regionOk s.core inRegion = .ok ()) (h3 : s.core.annulled = false) (h4 : limits s.core = .ok ())
    (hm : s.core.mode ≠ .check) (h5 : body s = .ok t) : vecWord gran inRegion limits body s = endVec t :=
  memWord_run h1 h2 h3 h4 (by rw [if_neg hm]; exact h5)

/-- A compute word that passes its checks applies its effect and retires. -/
theorem computeWord_run {gran : Gran} {limits : Core → Except Stop Unit} {f : Core → Core} {s : State}
    (h1 : firstUseOk s.core = .ok ()) (h2 : regionOk s.core true = .ok ()) (h3 : s.core.annulled = false)
    (h4 : limits s.core = .ok ()) (hm : s.core.mode ≠ .check) :
    computeWord gran limits f s = endVec { s with core := f s.core } :=
  vecWord_run h1 h2 h3 h4 hm rfl

/-- A matrix word that passes its checks applies its effect and completes. -/
theorem matWord_run {limits : Core → Except Stop Unit} {f : Core → Core} {s : State}
    (h1 : firstUseOk s.core = .ok ()) (h4 : limits s.core = .ok ()) (hm : s.core.mode ≠ .check) :
    matWord limits f s = .next ({ s with core := f s.core }).finishWord := by
  simp only [matWord, h1, h4, if_neg hm]

/-- A refusal at the head takes the trap in the state the word found. -/
theorem refuseWord_stop (s : State) (i : StopInfo) (h : s.core.mode = .whole) :
    refuseWord s (.stop i) = .next (takeTrap s ⟨.word s.core.run.rank, i.cause, i.tval, i.addr⟩) := by
  unfold refuseWord stopWith
  rw [if_neg (not_not_intro h)]

/-- A stop ends in a next state: a trap, or a wait. -/
theorem stopWith_next (part : Nat → State) (s : State) (e : Stop) : ∃ t, stopWith part s e = .next t := by
  unfold stopWith
  split
  · exact ⟨_, rfl⟩
  · cases e <;> exact ⟨_, rfl⟩

/-- A whole run, or a trial, ends in a next state. -/
theorem endVec_next (s : State) : ∃ t, endVec s = .next t := by
  unfold endVec
  split <;> exact ⟨_, rfl⟩

/-- A memory word ends in a next state, whatever it meets: it retires, waits, or traps. -/
theorem memWord_next (gran : Gran) (inRegion ao : Bool) (limits : Core → Except Stop Unit)
    (body : State → Except Stop State) (uses : Core → Uses) (s : State) :
    ∃ t, memWord gran inRegion ao limits body uses s = .next t := by
  unfold memWord
  split
  · exact stopWith_next _ _ _
  · split
    · exact stopWith_next _ _ _
    · split
      · exact stopWith_next _ _ _
      · exact stopWith_next _ _ _
      · split
        · exact endVec_next s
        · split
          · exact stopWith_next _ _ _
          · exact endVec_next _

/-- So does every other word of the vector queue. -/
theorem vecWord_next (gran : Gran) (inRegion : Bool) (limits : Core → Except Stop Unit)
    (body : State → Except Stop State) (s : State) : ∃ t, vecWord gran inRegion limits body s = .next t :=
  memWord_next _ _ _ _ _ _ _

/-- A word of the matrix queue ends in a next state. -/
theorem matWord_next (limits : Core → Except Stop Unit) (f : Core → Core) (s : State) :
    ∃ t, matWord limits f s = .next t := by
  unfold matWord
  repeat' split
  all_goals first
    | exact stopWith_next _ _ _
    | exact ⟨_, rfl⟩

end Sys2Proof.Machine
end

