-- ==== Sys2Proof/Laws/Turns.lean ====
section
/-! SUPPORT. How a step runs the turn that its plan names. -/

namespace Sys2Proof.Machine

/-- One agent whose turn answers a next state: the step answers it, tidied. -/
theorem runAgents_next {a : State → Option Result} {s u : State} (h : a s = some (.next u)) :
    (runAgents [a] s).2 = .next u.tidy := by
  simp only [runAgents, tryTurn, h]
  cases u.core.why.isNone <;> simp

/-- One agent whose turn faults: the step faults. -/
theorem runAgents_fault {a : State → Option Result} {s : State} {f : Fault} (h : a s = some (.fault f)) :
    (runAgents [a] s).2 = .fault f := by
  simp only [runAgents, tryTurn, h]

/-- A first agent whose turn answers a next state that waits for nothing: the second has no turn. -/
theorem runAgents_first {a b : State → Option Result} {s u : State} (h : a s = some (.next u))
    (hw : u.core.why = none) : (runAgents [a, b] s).2 = .next u.tidy := by
  simp only [runAgents, tryTurn, h, hw]
  rfl

/-- A single-step stop leaves a next state a next state. -/
theorem State.stepped_next (s u : State) : ∃ v, s.stepped (.next u) = .next v := by
  unfold State.stepped
  dsimp only
  split <;> exact ⟨_, rfl⟩

/-- A hart that runs gives its Last a turn. -/
theorem State.lastAgent_some {s : State} (h : s.runs = true) :
    s.lastAgent = some (tally lastEvents lastPair State.lastTurn s) := if_pos h

/-- A core whose bank counts nothing has its turn, and counts nothing of it. -/
theorem tally_off {ev : State → State → List (Nat × Nat)} {pair : State → State → Word × Word} {turn : State → Result}
    {s : State} (h : s.bankCounts (s.dev.bankOf s.core.num) = false) : tally ev pair turn s = turn s := by
  unfold tally
  cases turn s <;> simp [h]

/-! ## A trap and a retirement leave a wait as it was -/

theorem Core.keepInRegion_why (c : Core) (e : QEntry) : (c.keepInRegion e).why = c.why := by
  unfold Core.keepInRegion
  split <;> rfl

theorem Core.retire_why (c : Core) (e : QEntry) : (c.retire e).why = c.why := by
  unfold Core.retire
  dsimp only
  rw [Core.keepInRegion_why]
  split
  · rfl
  · split <;> rfl

theorem foldl_retire_why (l : List QEntry) (c : Core) : (l.foldl Core.retire c).why = c.why := by
  induction l generalizing c with
  | nil => rfl
  | cons e l ih => rw [List.foldl_cons, ih, Core.retire_why]

theorem State.settlePoison_why (s : State) : s.settlePoison.core.why = s.core.why := by
  unfold State.settlePoison
  dsimp only
  split <;> rfl

theorem State.retireConvoy_why (s : State) (l : List Member) : (s.retireConvoy l).core.why = s.core.why := by
  have h : s.core.clearSteps.why = s.core.why := rfl
  unfold State.retireConvoy Core.wordDone
  dsimp only
  rw [State.settlePoison_why]
  dsimp only [State.withCore]
  split <;> simp [foldl_retire_why, h]

theorem Core.unwind_why (c : Core) (r : Nat) : (c.unwind r).why = c.why := by
  unfold Core.unwind
  split <;> rfl

theorem Core.abandon_why (c : Core) : c.abandon.why = c.why := by
  unfold Core.abandon
  split <;> rfl

theorem Core.enter_why (c : Core) (k : Option KStop) : (c.enter k).why = c.why := by cases k <;> rfl

theorem State.trace_why (s : State) (ty en : Nat) (a b d e : Word) : (s.trace ty en a b d e).core.why = s.core.why := by
  unfold State.trace
  dsimp only
  repeat' split
  all_goals rfl

theorem State.postTrap_why (s : State) (r : Record) (k : Option KStop) : (s.postTrap r k).core.why = s.core.why := by
  unfold State.postTrap
  split
  · exact Core.enter_why _ _
  · rfl

theorem Core.givenUp_why (c : Core) (t : TrapReq) : (c.givenUp t).why = c.why := by
  obtain ⟨k, cause, tval, addr⟩ := t
  unfold Core.givenUp
  dsimp only
  have h1 : (if cause = 0x10 then c.abandon else c).why = c.why := by split <;> simp [Core.abandon_why]
  generalize (if cause = 0x10 then c.abandon else c) = d at h1
  have h2 : (if cause = 0x04 ∧ k = .generator then
      { d with vec := d.vec.take (d.vec.length - d.openConvoy.length) } else d).why = d.why := by split <;> rfl
  generalize (if cause = 0x04 ∧ k = .generator then
      { d with vec := d.vec.take (d.vec.length - d.openConvoy.length) } else d) = e at h2
  cases k <;> simp only [Core.unwind_why, h2, h1]

theorem Core.trapTaken_why (c : Core) (t : TrapReq) (tepc tcause prov : Word) :
    (c.trapTaken t tepc tcause prov).why = c.why := rfl

theorem takeTrap_why (s : State) (t : TrapReq) : (takeTrap s t).core.why = s.core.why := by
  have h (nest : Bool) (a b d : Word) : (if nest then s.core.givenUp t else (s.core.givenUp t).trapTaken t a b d).why =
      s.core.why := by
    split <;> simp only [Core.trapTaken_why, Core.givenUp_why]
  have hd (b : Bool) (f : Device → Device) (u : State) : (if b then u.withDev f else u).core.why = u.core.why := by
    cases b <;> rfl
  unfold takeTrap
  dsimp only [State.stamp]
  split
  · rw [Core.enter_why, hd, State.trace_why]
    exact h _ _ _ _
  · rw [State.postTrap_why]
    dsimp only
    rw [hd, State.trace_why]
    exact h _ _ _ _

/-- A trap of the hart's own handler, outside K mode and with an address in `tvec`: the report's work is given up, the trap
words are taken, the stop is traced and the hart goes on at `tvec` (R387). -/
theorem takeTrap_handler {s : State} {t : TrapReq} (hr : routeOf t.cause = .hart)
    (hn : (s.core.kmode || wfield s.core.t.tvec 54 2 == 0) = false) (h4 : t.cause ≠ 0x04 ∨ t.kind ≠ .generator) :
    let tepc := s.core.tepcOf t.kind
    let tcause := tcauseOf t.cause t.kind ((s.core.reported t.kind).map Prod.fst)
    let prov := tprovOf t.kind ((s.core.reported t.kind).map Prod.snd)
    let u := ({ s with core := (s.core.givenUp t).trapTaken t tepc tcause prov }).trace 3 3 tepc prov tcause 0
    takeTrap s t = { u with core := u.core.enter none } := by
  have h : ¬(t.cause = 0x04 ∧ t.kind = .generator) := fun x => h4.elim (· x.1) (· x.2)
  have hk : (decide (Route.hart ≠ .kernel) && (s.core.kmode || wfield s.core.t.tvec 54 2 == 0)) = false := by
    rw [hn, Bool.and_false]
  intro tepc tcause prov u
  unfold takeTrap
  simp only [if_neg h, hk, hr, Bool.not_false, decide_true, Bool.and_true, if_true, Bool.false_eq_true, if_false]
  rfl

/-! ## Convoys -/

/-- A member that completes: the convoy completes as the others do over what it leaves, as far as it went. -/
theorem runMembers_next {mode : RunMode} {hi : Vector Nat 4} {m : Member} {ms : List Member} {s u : State}
    {r : State × Option (QEntry × StopInfo)}
    (h : exec m.i { s with core := s.core.fresh (s.core.nowEntry m.e) mode hi } = .next u) (hw : u.core.why = none)
    (hr : runMembers mode u.core.hi ms u = .ok r) : runMembers mode hi (m :: ms) s = .ok r := by
  rw [runMembers]
  simp only [h, hw, hr, Except.mapError]

/-- The convoy of a word of the head convoy is the head convoy. -/
theorem convoyWith_head (rank : Nat) : ∀ (n : Nat) (acc l : List QEntry), acc.length + n = 4 → 0 < n →
    (acc.reverse ++ l.take (convoyLen n l)).any (fun x => x.rank == rank) = true →
    convoyWith rank acc l = acc.reverse ++ l.take (convoyLen n l) := by
  intro n
  induction n with
  | zero => intro acc l _ h; omega
  | succ n ih =>
    intro acc l hl _ hr
    cases l with
    | nil => simp [convoyWith]
    | cons e l =>
      rw [convoyWith]
      by_cases hc : e.word.getLsbD 63 = true
      · by_cases h3 : acc.length < 3
        · have hn : 0 < n := by omega
          rw [if_pos (by simp [hc, h3]), ih (e :: acc) l (by simp; omega) hn]
          · simp [convoyLen, hc, Nat.add_comm 1]
          · simpa [convoyLen, hc, Nat.add_comm 1] using hr
        · have hn : n = 0 := by omega
          subst hn
          rw [if_neg (by simp [h3]), if_pos]
          · simp [convoyLen, hc]
          · simp only [convoyLen, hc, if_true, Nat.add_zero] at hr
            simp at hr ⊢
            tauto
      · have ht : (e :: l).take (convoyLen (n + 1) (e :: l)) = [e] := by rw [convoyLen, if_neg hc]; rfl
        rw [ht] at hr ⊢
        rw [if_neg (by rw [Bool.and_eq_true]; exact fun x => hc x.1), if_pos]
        · simp
        · simp at hr ⊢
          tauto

/-- R393 acts on the closing word of the head convoy for each of its members (R394). -/
theorem Core.closer_head {c : Core} {e last : QEntry} (he : e ∈ c.headConvoy) (hl : c.headConvoy.getLast? = some last) :
    c.closer .vec e = last := by
  have h := convoyWith_head e.rank 4 [] c.vec rfl (by omega) (List.any_eq_true.2 ⟨e, he, by simp⟩)
  unfold Core.closer
  rw [if_pos rfl, h]
  exact congrArg (·.getD e) hl

/-- A planned turn of the vector queue that the head convoy does not hold, on a core whose bank counts nothing: the step is that
turn, tidied. -/
theorem step_vecTurn {s u : State} {ts : List Turn} (hp : s.plan = .vec :: ts)
    (hr : ({ s with plan := ts } : State).runs = true) (hv : ({ s with plan := ts } : State).vecReady = true)
    (hb : s.bankCounts (s.dev.bankOf s.core.num) = false) (h : ({ s with plan := ts } : State).vecTurn = .next u)
    (hw : u.core.why ≠ some .hold) : step s = .next u.tidy := by
  have ha : ({ s with plan := ts } : State).vecAgent = some (.next u) := by
    have hb' : ({ s with plan := ts } : State).bankCounts
        ((({ s with plan := ts } : State).dev).bankOf ({ s with plan := ts } : State).core.num) = false := hb
    unfold State.vecAgent
    rw [hr, hv, tally_off hb', State.vecMoves, h]
    simp [hw]
  unfold step State.advanceMachine
  rw [hp]
  exact runAgents_next ha

end Sys2Proof.Machine
end

