-- ==== Sys2Proof/Tests/Slice0.lean ====
section
/-! SUPPORT. Tests: ill-formed terms, words written out from the encoding tables of spec/06 and spec/08 to spec/11 with what
they stand for, worked examples of the spec, and for every statement a state that meets its hypotheses. -/

namespace Sys2Proof.Tests

open Sys2Proof.Machine

set_option Elab.async false

/-! ## Ill-formed terms: one for each check of `Instr.wf` -/

/-- An integer word over `v6` and `v7`. -/
def arith : Arith := ⟨false, 9, 6, .vv 7, 0, false, .i32, .rne⟩
/-- A word of one source. -/
def one : Arith := ⟨false, 9, 6, .vv 0, 0, false, .f32, .rne⟩
/-- A streamed memory word. -/
def memory : MemArgs := ⟨false, 9, 0, 0, 0, false, .f32, .n32, false, 0, false, 0, .hart, 0, false, false, 3⟩
/-- A conversion. -/
def conv : Conv := ⟨false, 9, 6, none, false, .f16, .rne, .f32⟩

theorem test_wf_accepts : (Instr.vadd arith).wf = true ∧ (Instr.vfsqrt one).wf = true ∧ (Instr.vld memory).wf = true ∧
    (Instr.vcvt conv).wf = true ∧ (Instr.vdrain 1).wf = true := ⟨rfl, rfl, rfl, rfl, rfl⟩

theorem test_wf_masks : (Instr.vdrain 0).wf = false ∧ (Instr.qwait 0 5).wf = false := ⟨rfl, rfl⟩

theorem test_wf_arith : (Instr.vadd { arith with vc := 1 }).wf = false ∧ (Instr.vadd { arith with rnd := .rtz }).wf = false ∧
    (Instr.vfadd { arith with vc := 1 }).wf = false ∧ (Instr.vfclamp { arith with rnd := .rup }).wf = false ∧
    (Instr.vabs { one with src := .vv 1 }).wf = false ∧ (Instr.vabs { one with src := .vo 0 }).wf = false ∧
    (Instr.vfsqrt { one with vc := 1 }).wf = false ∧ (Instr.vidx { one with va := 1 }).wf = false ∧
    (Instr.vcompress { arith with src := .vi 1 }).wf = false ∧ (Instr.vcompress { arith with m := true }).wf = false ∧
    (Instr.vexpand { arith with src := .vo 1 }).wf = false ∧ (Instr.vcolmax { one with rnd := .rtz }).wf = false :=
  ⟨rfl, rfl, rfl, rfl, rfl, rfl, rfl, rfl, rfl, rfl, rfl, rfl⟩

theorem test_wf_mask_words : (Instr.vmnot ⟨false, 9, 6, 1, false⟩).wf = false ∧
    (Instr.vbrkb ⟨false, 9, 6, 1, false⟩).wf = false ∧ (Instr.vexitb ⟨false, 1, 6, 0, false⟩).wf = false ∧
    (Instr.vexiti ⟨false, 0, 6, 1, false⟩).wf = false ∧ (Instr.vpart ⟨false, 9, 6, 0, false⟩).wf = false ∧
    (Instr.vpart ⟨false, 9, 6, 1, true⟩).wf = false ∧ (Instr.vmscanand ⟨false, 9, 6, 1, false⟩).wf = false :=
  ⟨rfl, rfl, rfl, rfl, rfl, rfl, rfl⟩

theorem test_wf_conversions : (Instr.vcvt { conv with et := .f64, rnd := .rtz }).wf = false ∧
    (Instr.vcvt { conv with et := .i64, sty := .n32, rnd := .rup }).wf = false ∧
    (Instr.vunpk2 { conv with ove := some 1 }).wf = false ∧ (Instr.vunpk4 { conv with rnd := .rtz }).wf = false ∧
    (Instr.vslicea { conv with et := .sl, rnd := .rtz }).wf = false ∧ (Instr.vslicea conv).wf = false ∧
    (Instr.vslicea { conv with et := .sl }).wf = true ∧ (Instr.vunsliceb { conv with sty := .sl, ove := some 1 }).wf = false ∧
    (Instr.vunsliceb conv).wf = false ∧ (Instr.vunsliceb { conv with sty := .sl }).wf = true :=
  ⟨rfl, rfl, rfl, rfl, rfl, rfl, rfl, rfl, rfl, rfl⟩

theorem test_wf_memory_fields : (Instr.vld { memory with va := 1 }).wf = false ∧ (Instr.vld { memory with vb := 1 }).wf = false ∧
    (Instr.vld { memory with vc := 1 }).wf = false ∧ (Instr.vld { memory with ord := 2, sc := .dev }).wf = false ∧
    (Instr.vld { memory with ord := 3 }).wf = false ∧ (Instr.vld { memory with re := true }).wf = false ∧
    (Instr.vld { memory with rx := 1 }).wf = false ∧ (Instr.vld { memory with iw := .n64 }).wf = false ∧
    (Instr.vld { memory with sc := .sys }).wf = false ∧ (Instr.vldx { memory with adv := true }).wf = false ∧
    (Instr.vldff { memory with ao := true }).wf = false ∧ (Instr.vldsp { memory with iw := .n16 }).wf = false :=
  ⟨rfl, rfl, rfl, rfl, rfl, rfl, rfl, rfl, rfl, rfl, rfl, rfl⟩

theorem test_wf_memory_stores : (Instr.vst { memory with vd := 0, we := true }).wf = false ∧
    (Instr.vst { memory with vd := 0, wm := 1 }).wf = false ∧ (Instr.vst { memory with vd := 1 }).wf = false ∧
    (Instr.vst { memory with vd := 0, ord := 1 }).wf = false ∧ (Instr.vstp { memory with vd := 0, ao := true }).wf = false ∧
    (Instr.vsth { memory with vd := 0, ord := 2 }).wf = false ∧ (Instr.vamoAdd { memory with vc := 1 }).wf = false ∧
    (Instr.vxlt { memory with str := 1 }).wf = false ∧ (Instr.vhacc { memory with ao := true }).wf = false :=
  ⟨rfl, rfl, rfl, rfl, rfl, rfl, rfl, rfl, rfl⟩

theorem test_wf_other_words : (Instr.mcomp ⟨false, 1, 2, 3, 1, 0, false⟩).wf = false ∧
    (Instr.mcomp ⟨false, 1, 2, 3, 0, 0, true⟩).wf = false ∧ (Instr.mcomp ⟨false, 1, 2, 3, 0, 3, false⟩).wf = false ∧
    (Instr.mcscan ⟨false, 1, 2, 3, 4, 0, false⟩).wf = false ∧ (Instr.mclegal ⟨false, 1, 2, 3, 0, 1, false⟩).wf = false ∧
    (Instr.mma ⟨8, 16, 1, false, 0, 0, .f32⟩).wf = false := ⟨rfl, rfl, rfl, rfl, rfl, rfl⟩

/-! ## Patterns that are no word (R152, R161) -/

theorem test_illegal_swords : decodeS 0x00000000 = .error .illegalSWord ∧ decodeS 0x38000000 = .error .illegalSWord ∧
    decodeS 0x00200001 = .error .illegalSWord ∧ decodeS 0x04A63810 = .error .illegalSWord ∧
    decodeS 0x1F0500C3 = .error .illegalSWord ∧ decodeS 0xD0000003 = .error .illegalSWord ∧
    decodeS 0x00000145 = .error .illegalSWord ∧ decodeS 0xE0A60004 = .error .illegalSWord ∧
    decodeS 0x714B656B = .error .illegalSWord ∧ decodeS 0xB4000000 = .error .illegalSWord :=
  ⟨rfl, rfl, rfl, rfl, rfl, rfl, rfl, rfl, rfl, rfl⟩

theorem test_illegal_vwords : decodeV 0x7F00000000000000 = .error .illegalVWord ∧
    decodeV 0x010CC60004000000 = .error .illegalVWord ∧ decodeV 0x0104C60804040000 = .error .illegalVWord ∧
    decodeV 0x4800200012000500 = .error .illegalVWord ∧ decodeV 0xE100000000000002 = .error .illegalVWord ∧
    decodeV 0x4312060000000000 = .error .illegalVWord ∧ decodeV 0x7100950000160000 = .error .illegalVWord ∧
    decodeV 0x7104950000060000 = .error .illegalVWord ∧ decodeV 0x4C02602000000012 = .error .illegalVWord ∧
    decodeV 0x2118032012000000 = .error .illegalVWord ∧ decodeV 0x5D00000000000300 = .error .illegalVWord :=
  ⟨rfl, rfl, rfl, rfl, rfl, rfl, rfl, rfl, rfl, rfl, rfl⟩

/-! ## Every word by its bits (Tables 6-1 to 6-12, 7-3, 8-2, 9-1, 9-3, 10-6, 11-6 and the examples beside them) -/

theorem test_swords_1 :
    decodeS 0x00000001 = .ok (.nop) ∧
    decodeS 0x00000002 = .ok (.halt) ∧
    decodeS 0x00000003 = .ok (.ecall) ∧
    decodeS 0x00000004 = .ok (.eret) ∧
    decodeS 0x00000005 = .ok (.wfe) ∧
    decodeS 0x00000006 = .ok (.brk) ∧
    decodeS 0x00000141 = .ok (.fenceAcq .core) ∧
    decodeS 0x00000182 = .ok (.fenceRel .clus) ∧
    decodeS 0x000001C4 = .ok (.fenceFull .sys) ∧
    decodeS 0x04A63800 = .ok (.add 5 6 7) ∧
    decodeS 0x04A63801 = .ok (.sub 5 6 7) ∧
    decodeS 0x04A63802 = .ok (.and 5 6 7) ∧
    decodeS 0x04A63803 = .ok (.or 5 6 7) ∧
    decodeS 0x04A63804 = .ok (.xor 5 6 7) ∧
    decodeS 0x04A63805 = .ok (.shl 5 6 7) :=
  ⟨rfl, rfl, rfl, rfl, rfl, rfl, rfl, rfl, rfl, rfl, rfl, rfl, rfl, rfl, rfl⟩

theorem test_swords_2 :
    decodeS 0x04A63806 = .ok (.shr 5 6 7) ∧
    decodeS 0x04A63807 = .ok (.sar 5 6 7) ∧
    decodeS 0x04A63808 = .ok (.slt 5 6 7) ∧
    decodeS 0x04A63809 = .ok (.sltn 5 6 7) ∧
    decodeS 0x04A6380A = .ok (.min 5 6 7) ∧
    decodeS 0x04A6380B = .ok (.max 5 6 7) ∧
    decodeS 0x04A6380C = .ok (.minn 5 6 7) ∧
    decodeS 0x04A6380D = .ok (.maxn 5 6 7) ∧
    decodeS 0x053E0010 = .ok (.clz 9 30) ∧
    decodeS 0x053E0011 = .ok (.ctz 9 30) ∧
    decodeS 0x053E0012 = .ok (.popc 9 30) ∧
    decodeS 0x0BE1A000 = .ok (.mul 31 1 20) ∧
    decodeS 0x0BE1A001 = .ok (.mulh 31 1 20) ∧
    decodeS 0x0BE1A002 = .ok (.mulhn 31 1 20) ∧
    decodeS 0x0BE1A003 = .ok (.div 31 1 20) :=
  ⟨rfl, rfl, rfl, rfl, rfl, rfl, rfl, rfl, rfl, rfl, rfl, rfl, rfl, rfl, rfl⟩

theorem test_swords_3 :
    decodeS 0x0BE1A004 = .ok (.divn 31 1 20) ∧
    decodeS 0x0BE1A005 = .ok (.rem 31 1 20) ∧
    decodeS 0x0BE1A006 = .ok (.remn 31 1 20) ∧
    decodeS 0x0C51FFE0 = .ok (.addi 2 17 0xFFE0) ∧
    decodeS 0x1051FFE0 = .ok (.andi 2 17 0xFFE0) ∧
    decodeS 0x1451FFE0 = .ok (.ori 2 17 0xFFE0) ∧
    decodeS 0x1851FFE0 = .ok (.xori 2 17 0xFFE0) ∧
    decodeS 0x2051FFE0 = .ok (.slti 2 17 0xFFE0) ∧
    decodeS 0x1F050023 = .ok (.shli 24 5 35) ∧
    decodeS 0x1F050063 = .ok (.shri 24 5 35) ∧
    decodeS 0x1F0500A3 = .ok (.sari 24 5 35) ∧
    decodeS 0x24808001 = .ok (.lih 4 0x8001) ∧
    decodeS 0x28807FFF = .ok (.addpc 4 0x7FFF) ∧
    decodeS 0x2CE60A0B = .ok (.ins 7 6 40 11) ∧
    decodeS 0x30E60A0B = .ok (.ext 7 6 40 11) :=
  ⟨rfl, rfl, rfl, rfl, rfl, rfl, rfl, rfl, rfl, rfl, rfl, rfl, rfl, rfl, rfl⟩

theorem test_swords_4 :
    decodeS 0x34E60A0B = .ok (.exts 7 6 40 11) ∧
    decodeS 0x4102FFF0 = .ok (.ld8 8 2 0xFFF0) ∧
    decodeS 0x4502FFF0 = .ok (.ld16 8 2 0xFFF0) ∧
    decodeS 0x4902FFF0 = .ok (.ld32 8 2 0xFFF0) ∧
    decodeS 0x4D02FFF0 = .ok (.ld64 8 2 0xFFF0) ∧
    decodeS 0x5102FFF0 = .ok (.ldn8 8 2 0xFFF0) ∧
    decodeS 0x5502FFF0 = .ok (.ldn16 8 2 0xFFF0) ∧
    decodeS 0x5902FFF0 = .ok (.ldn32 8 2 0xFFF0) ∧
    decodeS 0x5C868018 = .ok (.ldw 4 6 0x8018) ∧
    decodeS 0x6123FFFC = .ok (.st8 9 3 0xFFFC) ∧
    decodeS 0x6523FFFC = .ok (.st16 9 3 0xFFFC) ∧
    decodeS 0x6923FFFC = .ok (.st32 9 3 0xFFFC) ∧
    decodeS 0x6D23FFFC = .ok (.st64 9 3 0xFFFC) ∧
    decodeS 0x714B604B = .ok (.amoAdd 10 11 12 2 1 .dev) ∧
    decodeS 0x714B60CB = .ok (.amoSwp 10 11 12 2 1 .dev) :=
  ⟨rfl, rfl, rfl, rfl, rfl, rfl, rfl, rfl, rfl, rfl, rfl, rfl, rfl, rfl, rfl⟩

theorem test_swords_5 :
    decodeS 0x714B614B = .ok (.amoCas 10 11 12 2 1 .dev) ∧
    decodeS 0x714B61CB = .ok (.amoMin 10 11 12 2 1 .dev) ∧
    decodeS 0x714B624B = .ok (.amoMax 10 11 12 2 1 .dev) ∧
    decodeS 0x714B62CB = .ok (.amoMinn 10 11 12 2 1 .dev) ∧
    decodeS 0x714B634B = .ok (.amoMaxn 10 11 12 2 1 .dev) ∧
    decodeS 0x714B63CB = .ok (.amoAnd 10 11 12 2 1 .dev) ∧
    decodeS 0x714B644B = .ok (.amoOr 10 11 12 2 1 .dev) ∧
    decodeS 0x714B64CB = .ok (.amoXor 10 11 12 2 1 .dev) ∧
    decodeS 0x80A9FFFD = .ok (.beq 5 9 0xFFFD) ∧
    decodeS 0x84A9FFFD = .ok (.bne 5 9 0xFFFD) ∧
    decodeS 0x88A9FFFD = .ok (.blt 5 9 0xFFFD) ∧
    decodeS 0x8CA9FFFD = .ok (.bge 5 9 0xFFFD) ∧
    decodeS 0x90A9FFFD = .ok (.bltn 5 9 0xFFFD) ∧
    decodeS 0x94A9FFFD = .ok (.bgen 5 9 0xFFFD) ∧
    decodeS 0x983FFFC0 = .ok (.jal 1 0x1FFFC0) :=
  ⟨rfl, rfl, rfl, rfl, rfl, rfl, rfl, rfl, rfl, rfl, rfl, rfl, rfl, rfl, rfl⟩

theorem test_swords_6 :
    decodeS 0x9C278000 = .ok (.jalr 1 7 0x8000) ∧
    decodeS 0xA0A64000 = .ok (.setvl 5 6 8) ∧
    decodeS 0xA409000D = .ok (.sput 13 9) ∧
    decodeS 0xA8140000 = .ok (.emit 20) ∧
    decodeS 0xACB40000 = .ok (.emitq 5 20) ∧
    decodeS 0xB00CFFFE = .ok (.vfetch 12 0xFFFE) ∧
    decodeS 0xB400000A = .ok (.vdrain 0b1010) ∧
    decodeS 0xB8070005 = .ok (.qwait 0b0101 7) ∧
    decodeS 0xC0A00809 = .ok (.mfs 5 0x809) ∧
    decodeS 0xC4060C01 = .ok (.mts 0xC01 6) ∧
    decodeS 0xC8090052 = .ok (.wmpub 5 9 .clus) ∧
    decodeS 0xCC090052 = .ok (.wmwait 5 9 .clus) ∧
    decodeS 0xD0000000 = .ok (.barArrive) ∧
    decodeS 0xD0000001 = .ok (.barWait) ∧
    decodeS 0xD0000002 = .ok (.barAw) :=
  ⟨rfl, rfl, rfl, rfl, rfl, rfl, rfl, rfl, rfl, rfl, rfl, rfl, rfl, rfl, rfl⟩

theorem test_swords_7 :
    decodeS 0xD4A60000 = .ok (.launch 5 6) ∧
    decodeS 0xD8060000 = .ok (.rseed 6) ∧
    decodeS 0xDC060000 = .ok (.rseek 6) ∧
    decodeS 0xE0A60000 = .ok (.vqsave 5 6) ∧
    decodeS 0xE0053001 = .ok (.vqload 5 6) ∧
    decodeS 0xE0050002 = .ok (.vcmst 5) ∧
    decodeS 0xE0050003 = .ok (.vcmld 5) ∧
    decodeS 0x04A63800 = .ok (.add 5 6 7) ∧
    decodeS 0x04A63801 = .ok (.sub 5 6 7) ∧
    decodeS 0x0C42FFE0 = .ok (.addi 2 2 0xFFE0) ∧
    decodeS 0x1F050003 = .ok (.shli 24 5 3) ∧
    decodeS 0x1F050083 = .ok (.sari 24 5 3) ∧
    decodeS 0x30E60203 = .ok (.ext 7 6 8 3) ∧
    decodeS 0x4D020010 = .ok (.ld64 8 2 16) ∧
    decodeS 0x51020010 = .ok (.ldn8 8 2 16) :=
  ⟨rfl, rfl, rfl, rfl, rfl, rfl, rfl, rfl, rfl, rfl, rfl, rfl, rfl, rfl, rfl⟩

theorem test_swords_8 :
    decodeS 0x6923FFFC = .ok (.st32 9 3 0xFFFC) ∧
    decodeS 0x5C820018 = .ok (.ldw 4 2 24) ∧
    decodeS 0x714B606B = .ok (.amoAdd 10 11 12 3 1 .dev) ∧
    decodeS 0x80A0FFFD = .ok (.beq 5 0 0xFFFD) ∧
    decodeS 0x98200040 = .ok (.jal 1 64) ∧
    decodeS 0xA0A60000 = .ok (.setvl 5 6 0) ∧
    decodeS 0xA4090003 = .ok (.sput 3 9) ∧
    decodeS 0xA8140000 = .ok (.emit 20) ∧
    decodeS 0xACB40000 = .ok (.emitq 5 20) ∧
    decodeS 0xB00C0000 = .ok (.vfetch 12 0) ∧
    decodeS 0xC0A00009 = .ok (.mfs 5 9) ∧
    decodeS 0xC4060000 = .ok (.mts 0 6) ∧
    decodeS 0xD0000002 = .ok (.barAw) ∧
    decodeS 0xE0A60000 = .ok (.vqsave 5 6) ∧
    decodeS 0x00000002 = .ok (.halt) :=
  ⟨rfl, rfl, rfl, rfl, rfl, rfl, rfl, rfl, rfl, rfl, rfl, rfl, rfl, rfl, rfl⟩

theorem test_vwords_1 :
    decodeV 0x0101263800000000 = .ok (.vadd ⟨false, 9, 6, .vv 7, 0, false, .i8, .rne⟩) ∧
    decodeV 0x020526002A0D0000 = .ok (.vsub ⟨false, 9, 6, .vo 13, 0, true, .n16, .rne⟩) ∧
    decodeV 0x8309260006008001 = .ok (.vmul ⟨true, 9, 6, .vi 0x8001, 0, false, .i64, .rne⟩) ∧
    decodeV 0x840126382E000000 = .ok (.vmulh ⟨true, 9, 6, .vv 7, 0, true, .n64, .rne⟩) ∧
    decodeV 0x05052600000D0000 = .ok (.vmacc ⟨false, 9, 6, .vo 13, 0, false, .i8, .rne⟩) ∧
    decodeV 0x060926002A008001 = .ok (.vmin ⟨false, 9, 6, .vi 0x8001, 0, true, .n16, .rne⟩) ∧
    decodeV 0x8701263806000000 = .ok (.vmax ⟨true, 9, 6, .vv 7, 0, false, .i64, .rne⟩) ∧
    decodeV 0x880526002E0D0000 = .ok (.vand ⟨true, 9, 6, .vo 13, 0, true, .n64, .rne⟩) ∧
    decodeV 0x0909260000008001 = .ok (.vor ⟨false, 9, 6, .vi 0x8001, 0, false, .i8, .rne⟩) ∧
    decodeV 0x0A0126382A000000 = .ok (.vxor ⟨false, 9, 6, .vv 7, 0, true, .n16, .rne⟩) ∧
    decodeV 0x8B052600060D0000 = .ok (.vshl ⟨true, 9, 6, .vo 13, 0, false, .i64, .rne⟩) ∧
    decodeV 0x8C0926002E008001 = .ok (.vshr ⟨true, 9, 6, .vi 0x8001, 0, true, .n64, .rne⟩) ∧
    decodeV 0x0D01263800000000 = .ok (.vsar ⟨false, 9, 6, .vv 7, 0, false, .i8, .rne⟩) ∧
    decodeV 0x8E01260024000000 = .ok (.vabs ⟨true, 9, 6, .vv 0, 0, true, .i32, .rne⟩) ∧
    decodeV 0x8F052600240D0000 = .ok (.vsadd ⟨true, 9, 6, .vo 13, 0, true, .i32, .rne⟩) :=
  ⟨rfl, rfl, rfl, rfl, rfl, rfl, rfl, rfl, rfl, rfl, rfl, rfl, rfl, rfl, rfl⟩

theorem test_vwords_2 :
    decodeV 0x8F19260024008001 = .ok (.vssub ⟨true, 9, 6, .vi 0x8001, 0, true, .i32, .rne⟩) ∧
    decodeV 0x9001263830800000 = .ok (.vfadd ⟨true, 9, 6, .vv 7, 0, true, .f64, .rtz⟩) ∧
    decodeV 0x91052600330D0000 = .ok (.vfsub ⟨true, 9, 6, .vo 13, 0, true, .f32, .rdn⟩) ∧
    decodeV 0x9209260035808001 = .ok (.vfmul ⟨true, 9, 6, .vi 0x8001, 0, true, .bf16, .rup⟩) ∧
    decodeV 0x9301263D76800000 = .ok (.vfma ⟨true, 9, 6, .vv 7, 21, true, .f16, .rtz⟩) ∧
    decodeV 0x94052605710D0000 = .ok (.vfnma ⟨true, 9, 6, .vo 13, 21, true, .f64, .rdn⟩) ∧
    decodeV 0x9509260033808001 = .ok (.vfdiv ⟨true, 9, 6, .vi 0x8001, 0, true, .f32, .rup⟩) ∧
    decodeV 0x9601260034800000 = .ok (.vfsqrt ⟨true, 9, 6, .vv 0, 0, true, .bf16, .rtz⟩) ∧
    decodeV 0x9701260036000000 = .ok (.vfrsqe ⟨true, 9, 6, .vv 0, 0, true, .f16, .rne⟩) ∧
    decodeV 0x9801260030000000 = .ok (.vfexp2 ⟨true, 9, 6, .vv 0, 0, true, .f64, .rne⟩) ∧
    decodeV 0x9901263832000000 = .ok (.vfmin ⟨true, 9, 6, .vv 7, 0, true, .f32, .rne⟩) ∧
    decodeV 0x9A052600340D0000 = .ok (.vfmax ⟨true, 9, 6, .vo 13, 0, true, .bf16, .rne⟩) ∧
    decodeV 0x9B09260576008001 = .ok (.vfclamp ⟨true, 9, 6, .vi 0x8001, 21, true, .f16, .rne⟩) ∧
    decodeV 0x9C01260030000000 = .ok (.vfabs ⟨true, 9, 6, .vv 0, 0, true, .f64, .rne⟩) ∧
    decodeV 0x9D01260032000000 = .ok (.vfneg ⟨true, 9, 6, .vv 0, 0, true, .f32, .rne⟩) :=
  ⟨rfl, rfl, rfl, rfl, rfl, rfl, rfl, rfl, rfl, rfl, rfl, rfl, rfl, rfl, rfl⟩

theorem test_vwords_3 :
    decodeV 0xA001263824000000 = .ok (.vcmpeq ⟨true, 9, 6, .vv 7, 0, true, .i32, .rne⟩) ∧
    decodeV 0xA0152600240D0000 = .ok (.vcmpne ⟨true, 9, 6, .vo 13, 0, true, .i32, .rne⟩) ∧
    decodeV 0xA029260024008001 = .ok (.vcmplt ⟨true, 9, 6, .vi 0x8001, 0, true, .i32, .rne⟩) ∧
    decodeV 0xA031263824000000 = .ok (.vcmpge ⟨true, 9, 6, .vv 7, 0, true, .i32, .rne⟩) ∧
    decodeV 0xA0452600240D0000 = .ok (.vcmple ⟨true, 9, 6, .vo 13, 0, true, .i32, .rne⟩) ∧
    decodeV 0xA059260024008001 = .ok (.vcmpgt ⟨true, 9, 6, .vi 0x8001, 0, true, .i32, .rne⟩) ∧
    decodeV 0xA101263832000000 = .ok (.vfcmpeq ⟨true, 9, 6, .vv 7, 0, true, .f32, .rne⟩) ∧
    decodeV 0xA1152600320D0000 = .ok (.vfcmpne ⟨true, 9, 6, .vo 13, 0, true, .f32, .rne⟩) ∧
    decodeV 0xA129260032008001 = .ok (.vfcmplt ⟨true, 9, 6, .vi 0x8001, 0, true, .f32, .rne⟩) ∧
    decodeV 0xA131263832000000 = .ok (.vfcmple ⟨true, 9, 6, .vv 7, 0, true, .f32, .rne⟩) ∧
    decodeV 0xA1452600320D0000 = .ok (.vfcmpgt ⟨true, 9, 6, .vo 13, 0, true, .f32, .rne⟩) ∧
    decodeV 0xA159260032008001 = .ok (.vfcmpge ⟨true, 9, 6, .vi 0x8001, 0, true, .f32, .rne⟩) ∧
    decodeV 0xA161263832000000 = .ok (.vfcmpun ⟨true, 9, 6, .vv 7, 0, true, .f32, .rne⟩) ∧
    decodeV 0xA1752600320D0000 = .ok (.vfcmpord ⟨true, 9, 6, .vo 13, 0, true, .f32, .rne⟩) ∧
    decodeV 0xA201263820000000 = .ok (.vmand ⟨true, 9, 6, 7, true⟩) :=
  ⟨rfl, rfl, rfl, rfl, rfl, rfl, rfl, rfl, rfl, rfl, rfl, rfl, rfl, rfl, rfl⟩

theorem test_vwords_4 :
    decodeV 0xA301263820000000 = .ok (.vmor ⟨true, 9, 6, 7, true⟩) ∧
    decodeV 0xA401263820000000 = .ok (.vmxor ⟨true, 9, 6, 7, true⟩) ∧
    decodeV 0xA601263820000000 = .ok (.vmandn ⟨true, 9, 6, 7, true⟩) ∧
    decodeV 0x2501260000000000 = .ok (.vmnot ⟨false, 9, 6, 0, false⟩) ∧
    decodeV 0xA901260000000000 = .ok (.vmscanand ⟨true, 9, 6, 0, false⟩) ∧
    decodeV 0xA70126002A000000 = .ok (.vmpop ⟨true, 9, 6, .vv 0, 0, true, .n16, .rne⟩) ∧
    decodeV 0xA801260022000000 = .ok (.vmfirst ⟨true, 9, 6, .vv 0, 0, true, .i16, .rne⟩) ∧
    decodeV 0xAA0126002C000000 = .ok (.viota ⟨true, 9, 6, .vv 0, 0, true, .n32, .rne⟩) ∧
    decodeV 0xAB01200024000000 = .ok (.vidx ⟨true, 9, 0, .vv 0, 0, true, .i32, .rne⟩) ∧
    decodeV 0xAB11200024000000 = .ok (.vidxr ⟨true, 9, 0, .vv 0, 0, true, .i32, .rne⟩) ∧
    decodeV 0xAC01260024000000 = .ok (.vredsum ⟨true, 9, 6, .vv 0, 0, true, .i32, .rne⟩) ∧
    decodeV 0xAC11260024000000 = .ok (.vredmin ⟨true, 9, 6, .vv 0, 0, true, .i32, .rne⟩) ∧
    decodeV 0xAC21260024000000 = .ok (.vredmax ⟨true, 9, 6, .vv 0, 0, true, .i32, .rne⟩) ∧
    decodeV 0xAC31260024000000 = .ok (.vredand ⟨true, 9, 6, .vv 0, 0, true, .i32, .rne⟩) ∧
    decodeV 0xAC41260024000000 = .ok (.vredor ⟨true, 9, 6, .vv 0, 0, true, .i32, .rne⟩) :=
  ⟨rfl, rfl, rfl, rfl, rfl, rfl, rfl, rfl, rfl, rfl, rfl, rfl, rfl, rfl, rfl⟩

theorem test_vwords_5 :
    decodeV 0xAC51260024000000 = .ok (.vredxor ⟨true, 9, 6, .vv 0, 0, true, .i32, .rne⟩) ∧
    decodeV 0xAD01260032000000 = .ok (.vfredt ⟨true, 9, 6, .vv 0, 0, true, .f32, .rne⟩) ∧
    decodeV 0xAD11260033800000 = .ok (.vfredo ⟨true, 9, 6, .vv 0, 0, true, .f32, .rup⟩) ∧
    decodeV 0xAD21260032000000 = .ok (.vfredmax ⟨true, 9, 6, .vv 0, 0, true, .f32, .rne⟩) ∧
    decodeV 0xAD31260032000000 = .ok (.vfredmin ⟨true, 9, 6, .vv 0, 0, true, .f32, .rne⟩) ∧
    decodeV 0xAE01260032800000 = .ok (.vscansum ⟨true, 9, 6, .vv 0, 0, true, .f32, .rtz⟩) ∧
    decodeV 0xAE11260032000000 = .ok (.vscanmax ⟨true, 9, 6, .vv 0, 0, true, .f32, .rne⟩) ∧
    decodeV 0xAE21260032000000 = .ok (.vscanmin ⟨true, 9, 6, .vv 0, 0, true, .f32, .rne⟩) ∧
    decodeV 0xAF01260033000000 = .ok (.vcolsum ⟨true, 9, 6, .vv 0, 0, true, .f32, .rdn⟩) ∧
    decodeV 0xAF11260032000000 = .ok (.vcolmax ⟨true, 9, 6, .vv 0, 0, true, .f32, .rne⟩) ∧
    decodeV 0xAF21260032000000 = .ok (.vcolmin ⟨true, 9, 6, .vv 0, 0, true, .f32, .rne⟩) ∧
    decodeV 0x3041243800000000 = .ok (.vrgather ⟨false, 9, 4, 7, false, .i8, 2⟩) ∧
    decodeV 0xB03124383C000000 = .ok (.vrgatherw ⟨true, 9, 4, 7, true, .f4, 1⟩) ∧
    decodeV 0xB109260024008001 = .ok (.vslideup ⟨true, 9, 6, .vi 0x8001, 0, true, .i32, .rne⟩) ∧
    decodeV 0xB2052600240D0000 = .ok (.vslidedn ⟨true, 9, 6, .vo 13, 0, true, .i32, .rne⟩) :=
  ⟨rfl, rfl, rfl, rfl, rfl, rfl, rfl, rfl, rfl, rfl, rfl, rfl, rfl, rfl, rfl⟩

theorem test_vwords_6 :
    decodeV 0xB301263804000000 = .ok (.vcompress ⟨true, 9, 6, .vv 7, 0, false, .i32, .rne⟩) ∧
    decodeV 0xB401263804000000 = .ok (.vexpand ⟨true, 9, 6, .vv 7, 0, false, .i32, .rne⟩) ∧
    decodeV 0x35012600020007FF = .ok (.vbcast ⟨false, 9, .elem 6 0x7FF, false, .i16⟩) ∧
    decodeV 0x35052000020D0000 = .ok (.vbcast ⟨false, 9, .slot 13, false, .i16⟩) ∧
    decodeV 0x3509200022008001 = .ok (.vbcast ⟨false, 9, .imm 0x8001, true, .i16⟩) ∧
    decodeV 0xB601260024000000 = .ok (.vmv ⟨true, 9, 6, .vv 0, 0, true, .i32, .rne⟩) ∧
    decodeV 0x37012600060000A3 = .ok (.vrowmv ⟨false, 9, 6, false, .i64, 10, 3⟩) ∧
    decodeV 0x37112600260000A3 = .ok (.vrowbc ⟨false, 9, 6, true, .i64, 10, 3⟩) ∧
    decodeV 0xB8812607B7800009 = .ok (.vcvt ⟨true, 9, 6, some 30, true, .f16, .rup, .f32⟩) ∧
    decodeV 0xB9812607A2800002 = .ok (.vpack2 ⟨true, 9, 6, some 30, true, .i16, .rtz, .i32⟩) ∧
    decodeV 0xBA01260038000009 = .ok (.vpack4 ⟨true, 9, 6, none, true, .f8e4, .rne, .f32⟩) ∧
    decodeV 0xBB01260024000001 = .ok (.vunpk2 ⟨true, 9, 6, none, true, .i32, .rne, .i16⟩) ∧
    decodeV 0xBB11260024000000 = .ok (.vunpk4 ⟨true, 9, 6, none, true, .i32, .rne, .i8⟩) ∧
    decodeV 0xBC812607BD00000A = .ok (.vqnt ⟨true, 9, 6, some 30, true, .f4, .rdn, .bf16⟩) ∧
    decodeV 0xBD812607BE000000 = .ok (.vslicea ⟨true, 9, 6, some 30, true, .sl, .rne, .i8⟩) :=
  ⟨rfl, rfl, rfl, rfl, rfl, rfl, rfl, rfl, rfl, rfl, rfl, rfl, rfl, rfl, rfl⟩

theorem test_vwords_7 :
    decodeV 0xBD1126003E000005 = .ok (.vsliceb ⟨true, 9, 6, none, true, .sl, .rne, .n16⟩) ∧
    decodeV 0xBE0126002200000F = .ok (.vunslicea ⟨true, 9, 6, none, true, .i16, .rne, .sl⟩) ∧
    decodeV 0xBE1126002800000F = .ok (.vunsliceb ⟨true, 9, 6, none, true, .n8, .rne, .sl⟩) ∧
    decodeV 0x3F00C201D4000000 = .ok (.vcprs4 ⟨false, 6, 7, 2, .bf16⟩) ∧
    decodeV 0x4000000000000000 = .ok (.vspec false) ∧
    decodeV 0xC010000000000000 = .ok (.vspecf true) ∧
    decodeV 0x4101260020000000 = .ok (.vbrkb ⟨false, 9, 6, 0, true⟩) ∧
    decodeV 0x4111260000000000 = .ok (.vbrki ⟨false, 9, 6, 0, false⟩) ∧
    decodeV 0x4200060020000000 = .ok (.vexitb ⟨false, 0, 6, 0, true⟩) ∧
    decodeV 0x4210060000000000 = .ok (.vexiti ⟨false, 0, 6, 0, false⟩) ∧
    decodeV 0x4301260020000000 = .ok (.vpart ⟨false, 9, 6, 0, true⟩) ∧
    decodeV 0x4400000000000000 = .ok (.vfftrim false) ∧
    decodeV 0xC50126002E000000 = .ok (.vpfold ⟨true, 9, 6, .vv 0, 0, true, .n64, .rne⟩) ∧
    decodeV 0x460045303203000B = .ok (.vhacc ⟨false, 2, 5, 6, 0, true, .f32, .n32, true, 2, false, 0, .hart, 0, false, false, 11⟩) ∧
    decodeV 0xC800200032006B7B = .ok (.vld ⟨true, 1, 0, 0, 0, true, .f32, .n32, false, 0, true, 5, .dev, 1, true, true, 11⟩) :=
  ⟨rfl, rfl, rfl, rfl, rfl, rfl, rfl, rfl, rfl, rfl, rfl, rfl, rfl, rfl, rfl⟩

theorem test_vwords_8 :
    decodeV 0x4A0480283203D26B = .ok (.vldx ⟨false, 4, 0, 5, 0, true, .f32, .n64, true, 3, true, 2, .clus, 1, true, false, 11⟩) ∧
    decodeV 0x4B0060002000781B = .ok (.vldff ⟨false, 3, 0, 0, 0, true, .i8, .n32, false, 0, true, 7, .hart, 0, false, true, 11⟩) ∧
    decodeV 0x4C0060003C00481B = .ok (.vldsp ⟨false, 3, 0, 0, 0, true, .f4, .n32, false, 0, true, 1, .hart, 0, false, true, 11⟩) ∧
    decodeV 0x4C8860283202C80B = .ok (.vldspx ⟨false, 3, 0, 5, 0, true, .f32, .n16, true, 1, true, 1, .hart, 0, false, false, 11⟩) ∧
    decodeV 0x4D0060003200047B = .ok (.vldp ⟨false, 3, 0, 0, 0, true, .f32, .n32, false, 0, false, 0, .sys, 1, true, true, 11⟩) ∧
    decodeV 0x4E000200320003BB = .ok (.vst ⟨false, 0, 2, 0, 0, true, .f32, .n32, false, 0, false, 0, .dev, 2, true, true, 11⟩) ∧
    decodeV 0x50080428320304AB = .ok (.vstx ⟨false, 0, 4, 5, 0, true, .f32, .n16, true, 2, false, 0, .sys, 2, true, false, 11⟩) ∧
    decodeV 0x510003002000001B = .ok (.vsth ⟨false, 0, 3, 0, 0, true, .i8, .n32, false, 0, false, 0, .hart, 0, false, true, 11⟩) ∧
    decodeV 0x520008003400029B = .ok (.vstp ⟨false, 0, 8, 0, 0, true, .bf16, .n32, false, 0, false, 0, .clus, 2, false, true, 11⟩) ∧
    decodeV 0x530128382C0283EB = .ok (.vamoAdd ⟨false, 9, 8, 7, 0, true, .n32, .n32, true, 1, false, 0, .dev, 3, true, false, 11⟩) ∧
    decodeV 0x531528382C0283EB = .ok (.vamoSwp ⟨false, 9, 8, 7, 0, true, .n32, .n64, true, 1, false, 0, .dev, 3, true, false, 11⟩) ∧
    decodeV 0x532928382C0283EB = .ok (.vamoMin ⟨false, 9, 8, 7, 0, true, .n32, .n16, true, 1, false, 0, .dev, 3, true, false, 11⟩) ∧
    decodeV 0x533128382C0283EB = .ok (.vamoMax ⟨false, 9, 8, 7, 0, true, .n32, .n32, true, 1, false, 0, .dev, 3, true, false, 11⟩) ∧
    decodeV 0x534528382C0283EB = .ok (.vamoAnd ⟨false, 9, 8, 7, 0, true, .n32, .n64, true, 1, false, 0, .dev, 3, true, false, 11⟩) ∧
    decodeV 0x535928382C0283EB = .ok (.vamoOr ⟨false, 9, 8, 7, 0, true, .n32, .n16, true, 1, false, 0, .dev, 3, true, false, 11⟩) :=
  ⟨rfl, rfl, rfl, rfl, rfl, rfl, rfl, rfl, rfl, rfl, rfl, rfl, rfl, rfl, rfl⟩

theorem test_vwords_9 :
    decodeV 0x536128382C0283EB = .ok (.vamoXor ⟨false, 9, 8, 7, 0, true, .n32, .n32, true, 1, false, 0, .dev, 3, true, false, 11⟩) ∧
    decodeV 0x537528382C0283EB = .ok (.vamoFadd ⟨false, 9, 8, 7, 0, true, .n32, .n64, true, 1, false, 0, .dev, 3, true, false, 11⟩) ∧
    decodeV 0x540295B5EE000440 = .ok (.vxlt ⟨false, 20, 21, 22, 23, true, .n64, .n32, false, 0, false, 0, .sys, 1, false, false, 0⟩) ∧
    decodeV 0x541295B5EE000000 = .ok (.vxltff ⟨false, 20, 21, 22, 23, true, .n64, .n32, false, 0, false, 0, .hart, 0, false, false, 0⟩) ∧
    decodeV 0x5500140000000004 = .ok (.sopen false (.reg 20) 4) ∧
    decodeV 0x5504000000020004 = .ok (.sopen false (.slot 2) 4) ∧
    decodeV 0x5510140000000004 = .ok (.sopenp false 20 4) ∧
    decodeV 0x5600803806000000 = .ok (.sadv false 4 (.vv 7)) ∧
    decodeV 0x56048000060D0000 = .ok (.sadv false 4 (.vo 13)) ∧
    decodeV 0xD60880000600FFF0 = .ok (.sadv true 4 (.vi 0xFFF0)) ∧
    decodeV 0x5700000000000004 = .ok (.sclose false 4) ∧
    decodeV 0x5712800000000004 = .ok (.ssave false 20 4) ∧
    decodeV 0x5840886000000000 = .ok (.mcomp ⟨false, 4, 8, 12, 0, 2, false⟩) ∧
    decodeV 0x5920A10180000000 = .ok (.mcscan ⟨false, 5, 1, 0, 6, 1, false⟩) ∧
    decodeV 0x5910A13980000000 = .ok (.mcscanc ⟨false, 5, 1, 7, 6, 0, false⟩) :=
  ⟨rfl, rfl, rfl, rfl, rfl, rfl, rfl, rfl, rfl, rfl, rfl, rfl, rfl, rfl, rfl⟩

theorem test_vwords_10 :
    decodeV 0x5A01054820000000 = .ok (.mclegal ⟨false, 8, 5, 9, 0, 0, true⟩) ∧
    decodeV 0x5A1008A800000000 = .ok (.mclegalx ⟨false, 0, 8, 21, 0, 0, false⟩) ∧
    decodeV 0x5C00140000000003 = .ok (.vsett false 20 3) ∧
    decodeV 0x5C12800000000001 = .ok (.vgett false 20 1) ∧
    decodeV 0x5D10000000000100 = .ok (.vfenceAcq false .core) ∧
    decodeV 0xDD20000000000200 = .ok (.vfenceRel true .clus) ∧
    decodeV 0x5D30000000000300 = .ok (.vfenceFull false .dev) ∧
    decodeV 0x5E0800000000002A = .ok (.vmark false (.imm 0x2A)) ∧
    decodeV 0x5E04000000070000 = .ok (.vmark false (.slot 7)) ∧
    decodeV 0x6000000000100101 = .ok (.mshape 1 4 1024) ∧
    decodeV 0x6012800000000001 = .ok (.mshapeg 20 1) ∧
    decodeV 0x6100000000000002 = .ok (.mzero 2) ∧
    decodeV 0x620004401400002E = .ok (.mma ⟨4, 8, 0, true, 3, 2, .bf16⟩) ∧
    decodeV 0x63000681D800001D = .ok (.mmas ⟨6, 16, 7, false, 3, 1, .f8e4⟩) ∧
    decodeV 0x64000A601E0000C7 = .ok (.msmma ⟨10, 12, 3, 1, 3, .sl⟩) :=
  ⟨rfl, rfl, rfl, rfl, rfl, rfl, rfl, rfl, rfl, rfl, rfl, rfl, rfl, rfl, rfl⟩

theorem test_vwords_11 :
    decodeV 0x6502800035000001 = .ok (.mrd ⟨20, none, true, .bf16, .rdn, 1⟩) ∧
    decodeV 0x6592800795800001 = .ok (.mrdz ⟨20, some 30, false, .bf16, .rup, 1⟩) ∧
    decodeV 0x6600050012000002 = .ok (.mwr ⟨5, false, .f32, .rne, 2⟩) ∧
    decodeV 0x6610050030800002 = .ok (.mwra ⟨5, true, .f64, .rtz, 2⟩) ∧
    decodeV 0x670060000003FFFE = .ok (.msync 3 0x3FFFE) ∧
    decodeV 0x6804000020020001 = .ok (.vproj true 2 1) ∧
    decodeV 0x6804000780120FC1 = .ok (.vprojs false 30 2 63 1) ∧
    decodeV 0x68040007801283C1 = .ok (.vprojt false 30 2 15 1) ∧
    decodeV 0x6906800000020001 = .ok (.vprojb false 20 2 1) ∧
    decodeV 0x6A02800540000000 = .ok (.vheaprd 20 21) ∧
    decodeV 0x6A12C00000000000 = .ok (.vpstrd 22) ∧
    decodeV 0x6B0014A800000000 = .ok (.vhmerge 20 21) ∧
    decodeV 0x6B1014AD80000000 = .ok (.vhmergen 20 21 22) ∧
    decodeV 0x6B2014AD80000000 = .ok (.vpstwr 20 21 22) ∧
    decodeV 0x6F0314A812000000 = .ok (.draw false 24 20 21 .f32) :=
  ⟨rfl, rfl, rfl, rfl, rfl, rfl, rfl, rfl, rfl, rfl, rfl, rfl, rfl, rfl, rfl⟩

theorem test_vwords_12 :
    decodeV 0x6F1314A832000000 = .ok (.drawn true 24 20 21 .f32) ∧
    decodeV 0x6F0714A832050000 = .ok (.drawr true 24 20 21 .f32 5) ∧
    decodeV 0x6F1714A812050000 = .ok (.drawrn false 24 20 21 .f32 5) ∧
    decodeV 0x7000740000100000 = .ok (.cpy ⟨some 3, .reg 20⟩) ∧
    decodeV 0x7004000000050000 = .ok (.cpy ⟨none, .slot 5⟩) ∧
    decodeV 0x7104950000160000 = .ok (.cpyc 4 21 6) ∧
    decodeV 0x7200000000000000 = .ok (.cpywait none 0) ∧
    decodeV 0x7210600000120007 = .ok (.cpywaitv (some 3) 0x20007) ∧
    decodeV 0x7B00000000000000 = .ok (.cwait none 0) ∧
    decodeV 0x7B10600000120007 = .ok (.cwaitv (some 3) 0x20007) ∧
    decodeV 0x7800740000100000 = .ok (.csend ⟨some 3, .reg 20⟩) ∧
    decodeV 0x7804000000050000 = .ok (.csend ⟨none, .slot 5⟩) ∧
    decodeV 0x7810740000100000 = .ok (.csendm ⟨some 3, .reg 20⟩) ∧
    decodeV 0x7814000000050000 = .ok (.csendm ⟨none, .slot 5⟩) ∧
    decodeV 0x7900740000100000 = .ok (.crecv ⟨some 3, .reg 20⟩) :=
  ⟨rfl, rfl, rfl, rfl, rfl, rfl, rfl, rfl, rfl, rfl, rfl, rfl, rfl, rfl, rfl⟩

theorem test_vwords_13 :
    decodeV 0x7904000000050000 = .ok (.crecv ⟨none, .slot 5⟩) ∧
    decodeV 0x7A00740012100000 = .ok (.credsum ⟨some 3, .reg 20⟩ .f32) ∧
    decodeV 0x7A04000012050000 = .ok (.credsum ⟨none, .slot 5⟩ .f32) ∧
    decodeV 0x7A10740012100000 = .ok (.credmax ⟨some 3, .reg 20⟩ .f32) ∧
    decodeV 0x7A14000012050000 = .ok (.credmax ⟨none, .slot 5⟩ .f32) ∧
    decodeV 0x7A20740012100000 = .ok (.credmin ⟨some 3, .reg 20⟩ .f32) ∧
    decodeV 0x7A24000012050000 = .ok (.credmin ⟨none, .slot 5⟩ .f32) ∧
    decodeV 0x7A30740012100000 = .ok (.credrs ⟨some 3, .reg 20⟩ .f32) ∧
    decodeV 0x7A34000012050000 = .ok (.credrs ⟨none, .slot 5⟩ .f32) ∧
    decodeV 0x7A40740012100000 = .ok (.credheap ⟨some 3, .reg 20⟩ .f32) ∧
    decodeV 0x7A44000012050000 = .ok (.credheap ⟨none, .slot 5⟩ .f32) ∧
    decodeV 0x7C040B7032020000 = .ok (.audlog ⟨false, 11, 14, 2, true, .f32⟩) ∧
    decodeV 0x1000432012000000 = .ok (.vfadd ⟨false, 2, 3, .vv 4, 0, false, .f32, .rne⟩) ∧
    decodeV 0x1300432172800000 = .ok (.vfma ⟨false, 2, 3, .vv 4, 5, true, .f32, .rtz⟩) ∧
    decodeV 0x1204410012030000 = .ok (.vfmul ⟨false, 2, 1, .vo 3, 0, false, .f32, .rne⟩) :=
  ⟨rfl, rfl, rfl, rfl, rfl, rfl, rfl, rfl, rfl, rfl, rfl, rfl, rfl, rfl, rfl⟩

theorem test_vwords_14 :
    decodeV 0x1208410012004020 = .ok (.vfmul ⟨false, 2, 1, .vi 0x4020, 0, false, .f32, .rne⟩) ∧
    decodeV 0x0108C6000400FFFF = .ok (.vadd ⟨false, 6, 6, .vi 0xFFFF, 0, false, .i32, .rne⟩) ∧
    decodeV 0x4A00802812028023 = .ok (.vldx ⟨false, 4, 0, 5, 0, false, .f32, .n32, true, 1, false, 0, .hart, 0, true, false, 3⟩) ∧
    decodeV 0x620008801800000D = .ok (.mma ⟨8, 16, 0, false, 3, 1, .f8e4⟩) ∧
    decodeV 0x4E00020012000391 = .ok (.vst ⟨false, 0, 2, 0, 0, false, .f32, .n32, false, 0, false, 0, .dev, 2, false, true, 1⟩) ∧
    decodeV 0xC800200032005812 = .ok (.vld ⟨true, 1, 0, 0, 0, true, .f32, .n32, false, 0, true, 3, .hart, 0, false, true, 2⟩) ∧
    decodeV 0x8100C63824000000 = .ok (.vadd ⟨true, 6, 6, .vv 7, 0, true, .i32, .rne⟩) ∧
    decodeV 0x0F10853002000000 = .ok (.vssub ⟨false, 4, 5, .vv 6, 0, false, .i16, .rne⟩) ∧
    decodeV 0x1B04630252020000 = .ok (.vfclamp ⟨false, 3, 3, .vo 2, 9, false, .f32, .rne⟩) ∧
    decodeV 0x2120032012000000 = .ok (.vfcmplt ⟨false, 0, 3, .vv 4, 0, false, .f32, .rne⟩) ∧
    decodeV 0x2D11830012800000 = .ok (.vfredo ⟨false, 12, 3, .vv 0, 0, false, .f32, .rtz⟩) ∧
    decodeV 0x3F00C201D4000000 = .ok (.vcprs4 ⟨false, 6, 7, 2, .bf16⟩) ∧
    decodeV 0x5510140000000004 = .ok (.sopenp false 20 4) ∧
    decodeV 0x5608800006000010 = .ok (.sadv false 4 (.vi 16)) ∧
    decodeV 0x5712800000000004 = .ok (.ssave false 20 4) :=
  ⟨rfl, rfl, rfl, rfl, rfl, rfl, rfl, rfl, rfl, rfl, rfl, rfl, rfl, rfl, rfl⟩

theorem test_vwords_15 :
    decodeV 0x4C80802812000003 = .ok (.vldspx ⟨false, 4, 0, 5, 0, false, .f32, .n32, false, 0, false, 0, .hart, 0, false, false, 3⟩) ∧
    decodeV 0x541295B5CE000000 = .ok (.vxltff ⟨false, 20, 21, 22, 23, false, .n64, .n32, false, 0, false, 0, .hart, 0, false, false, 0⟩) ∧
    decodeV 0x6000000000100101 = .ok (.mshape 1 4 1024) ∧
    decodeV 0x64000A601E0000C7 = .ok (.msmma ⟨10, 12, 3, 1, 3, .sl⟩) ∧
    decodeV 0x7104950000160000 = .ok (.cpyc 4 21 6) ∧
    decodeV 0x7210600000100007 = .ok (.cpywaitv (some 3) 7) ∧
    decodeV 0x7A30F70012100000 = .ok (.credrs ⟨some 7, .reg 23⟩ .f32) ∧
    decodeV 0x6B2014AD80000000 = .ok (.vpstwr 20 21 22) ∧
    decodeV 0x6F0714A832050000 = .ok (.drawr true 24 20 21 .f32 5) ∧
    decodeV 0x5910A13980000000 = .ok (.mcscanc ⟨false, 5, 1, 7, 6, 0, false⟩) ∧
    decodeV 0x5D20000000000200 = .ok (.vfenceRel false .clus) ∧
    decodeV 0x7C040B7032020000 = .ok (.audlog ⟨false, 11, 14, 2, true, .f32⟩) ∧
    decodeV 0x3880820796000009 = .ok (.vcvt ⟨false, 4, 2, some 30, false, .f16, .rne, .f32⟩) ∧
    decodeV 0x53712838120003C6 = .ok (.vamoFadd ⟨false, 9, 8, 7, 0, false, .f32, .n32, false, 0, false, 0, .dev, 3, false, false, 6⟩) ∧
    decodeV 0x68040007801283C1 = .ok (.vprojt false 30 2 15 1) :=
  ⟨rfl, rfl, rfl, rfl, rfl, rfl, rfl, rfl, rfl, rfl, rfl, rfl, rfl, rfl, rfl⟩

/-! ## Small states -/

/-- A hart at 0x10000 whose next S-word is `nop`. -/
def hart : State := State.reset.withFetchWord 32 1
/-- The same with a change of its core. -/
def with_ (f : Core → Core) : State := { hart with core := f hart.core }
/-- Registers set in order from `s1`. -/
def regs (l : List Word) : State :=
  with_ fun c => { c with s := (l.zipIdx 1).foldl (fun v p => v.setIfInBounds p.2 p.1) c.s }
/-- The page at 0x10000 may be read, written and fetched, and is accessed and dirty already. -/
def page : State := hart.withDev fun d => { d with dram := d.dram.setNum 8 0x30008 0x403F3 }
/-- Registers over that page. -/
def mapped (l : List Word) : State := { (regs l) with dev := page.dev }
/-- A word with what it carries. -/
def entry (w : BitVec 64) (vl : BitVec 15) : QEntry :=
  { QEntry.empty with word := w, vl := vl, prov := 0x0000000000002000, pc := 0x10000 }
/-- That word in the sequencer and in queue `q`. -/
def running (q : Que) (w : BitVec 64) (vl : BitVec 15) (f : Core → Core) : State :=
  let e := entry w vl
  { page with core := f (match q with
    | .vec => { page.core with run := e, vec := [e] }
    | .mat => { page.core with run := e, mat := [e] }
    | .cpy => { page.core with run := e, cpy := [e] }
    | .col => { page.core with run := e, col := [e] }) }
/-- In K mode. -/
def kernel (c : Core) : Core := { c with hstat := 0x1D }
/-- With a handler at 0x20000. -/
def handled (c : Core) : Core := { c with t := { c.t with tvec := 0x20000 } }

/-- The parts of `Ready` that a state outside every region can show. -/
theorem ready_of (s : State) (b : Bool) (h : s.core.mode = .whole ∧ firstUse s.core.run = none ∧ s.anyPoison = false ∧
    s.core.wrote = [] ∧ s.core.run.rc.toNat ≤ 16 ∧ (∀ g, g < 4 → 512 ≤ s.core.hi.getD g 0) ∧ s.core.region = none) :
    Ready s b :=
  ⟨h.1, h.2.1, h.2.2.1, h.2.2.2.1, h.2.2.2.2.1, h.2.2.2.2.2.1, fun r hr => by rw [h.2.2.2.2.2.2] at hr; cases hr⟩

theorem matReady_of (s : State) (h : s.core.mode = .whole ∧ firstUse s.core.run = none ∧ s.anyPoison = false ∧
    s.core.wrote = [] ∧ s.core.run.rc.toNat ≤ 16) : MatReady s :=
  ⟨h.1, h.2.1, h.2.2.1, h.2.2.2.1, h.2.2.2.2⟩

/-! ## A state for every statement: each shows that its hypotheses can hold together -/

theorem test_has_EncodedWordDecodesToItself : (Instr.addi 1 2 3).wf = true ∧
    encode (.addi 1 2 3) = some [0x03, 0x00, 0x22, 0x0C] := ⟨rfl, by decide +kernel⟩

theorem test_has_DecodedBytesAreAnEncoding : [0x03#8, 0x00, 0x22, 0x0C].length = 4 ∧
    decode [0x03#8, 0x00, 0x22, 0x0C] = .ok (.addi 1 2 3) := ⟨rfl, by decide +kernel⟩

theorem test_has_StepRunsTheDecodedInstruction_last : hart.plan = [.last] ∧ hart.runs = true ∧ hart.core.wfe = false ∧
    wfield hart.core.t.tdbg 1 0 ≠ 1 ∧
    (fetchBytes { hart with plan := [] } false hart.core.pc 4).toOption.map Prod.fst = some 1 ∧
    decodeS (BitVec.ofNat 32 1) = .ok .nop ∧ ∀ t, exec .nop t = .next t.advance := by
  refine ⟨?_, ?_, ?_, ?_, ?_, ?_, fun _ => rfl⟩ <;> decide +kernel

theorem test_has_StepRunsTheDecodedInstruction_fault :
    (fetchBytes { with_ (fun c => { c with pc := 0x50000 }) with plan := [] } false 0x50000 4).toOption = none := by
  decide +kernel

theorem test_has_StepRunsTheDecodedInstruction_queues :
    (let s := (State.reset.withFetchWord 64 0x0100C63804000000)
     s.plan = [.vec] ∧ s.runs = true ∧ ({ s with plan := [] } : State).vecReady = true ∧ s.core.headConvoy.length = 1) ∧
    (let s := (State.reset.withFetchWord 64 0x6100000000000002)
     s.plan = [.mat] ∧ s.core.matReady.isSome = true) ∧
    (let s := (State.reset.withFetchWord 64 0x7000740000100000)
     s.plan = [.copy] ∧ s.core.copyReady.isSome = true) ∧
    (let s := (State.reset.withFetchWord 64 0x7800B60000100000)
     s.plan = [.coll] ∧ s.core.collReady.isSome = true) := by decide +kernel

theorem test_has_StepRunsTheDecodedInstruction_convoy :
    (let s := (State.reset.withFetchWord 64 0x8100C63804000000)
     s.plan = [.vec] ∧ s.runs = true ∧ s.core.why = none ∧ ({ s with plan := [] } : State).vecReady = true ∧ ∃ e f i j,
       s.core.headConvoy = [e, f] ∧ decodeV e.word = .ok i ∧ decodeV f.word = .ok j ∧ classOf i = .arith ∧
       classOf j = .arith) ∧
    (let s := (State.reset.withFetchWord 64 0xC000000000000000)
     s.plan = [.vec] ∧ s.runs = true ∧ s.core.why = none ∧ ({ s with plan := [] } : State).vecReady = true ∧ ∃ e f i j,
       s.core.headConvoy = [e, f] ∧ decodeV e.word = .ok i ∧ decodeV f.word = .ok j ∧ classOf i = .solitary) := by
  refine ⟨⟨?_, ?_, ?_, ?_, _, _, _, _, rfl, rfl, rfl, ?_, ?_⟩, ⟨?_, ?_, ?_, ?_, _, _, _, _, rfl, rfl, rfl, ?_⟩⟩ <;> decide +kernel

/-- The two members of that convoy run to their ends. -/
theorem test_has_StepRunsTheDecodedInstruction_members :
    (let s := (State.reset.withFetchWord 64 0x8100C63804000000)
     let member (t : State) (x : QEntry) (hi : Vector Nat 4) : State :=
       { t with core := { t.core with run := x, mode := .part, hi := hi, why := none } }
     match s.core.headConvoy with
     | [e, f] =>
       match decodeV e.word, decodeV f.word with
       | .ok (.vadd a), .ok (.vmv b) =>
         match execVadd a (member { s with plan := [] } (s.core.nowEntry e) (.replicate 4 512)) with
         | .next u =>
           match execVmv b (member u (u.core.nowEntry f) u.core.hi) with
           | .next v => u.core.why.isNone && v.core.why.isNone
           | _ => false
         | _ => false
       | _, _ => false
     | _ => false) = true := by decide +kernel

theorem test_has_ArithmeticWordsWriteTheirValue : scalarValue (regs [5, 7]) (.sub 3 1 2) = some (3, -2) ∧
    scalarValue (regs [5, 7]) (.sub 0 1 2) = some (0, -2) ∧
    (let s := regs [0x8000000000000000, 0xFFFFFFFFFFFFFFFF]
     s.operand 1 = 0x8000000000000000 ∧ s.operand 2 = 0xFFFFFFFFFFFFFFFF ∧ s.operand 0 = 0) := by decide +kernel

theorem test_has_FieldWordsMoveBits : (fieldValue (regs [0xFF]) (.ext 2 1 60 3)).map (fun x => x.2.2) = some 64 ∧
    (fieldValue (regs [0xFF]) (.ext 2 1 61 3)).map (fun x => x.2.2) = some 65 ∧
    (fieldValue (regs [0xFF]) (.ins 2 1 0 63)).map (fun x => x.2.2) = some 64 := by decide +kernel

theorem test_has_ControlTransfers : branchOf (regs [5, 5]) (.beq 1 2 0xFFFF) = some (true, 0xFFFF) ∧
    branchOf (regs [5, 6]) (.bge 1 2 1) = some (false, 1) ∧
    ((regs [8]).operand 1 + (0xFFFC#16).signExtend 64).extractLsb' 0 2 = 0 ∧
    ((regs [8]).operand 1 + (0xFFFD#16).signExtend 64).extractLsb' 0 2 ≠ 0 := by decide +kernel

theorem test_has_TranslationFindsThePage : ∃ g, page.gang = some g ∧
    (let e1 := page.dev.dram.num 8 g.root
     let e2 := page.dev.dram.num 8 (eFrame e1)
     let e3 := page.dev.dram.num 8 (eFrame e2 + 8)
     page.core.watched 0x10008 8 .write = false ∧ page.pinned 0x10008 .write = none ∧ eV e1 = true ∧ malformed e1 1 = false ∧ eV e2 = true ∧ eL e2 = false ∧
     malformed e2 2 = false ∧ eV e3 = true ∧ malformed e3 3 = false ∧ eH e3 = false ∧ eAttr e3 < 2 ∧
     permits e3 .write page.core.kmode = true ∧ page.dev.migrating = [] ∧
     ownerCheck (page.dev.frameEntry (field e3 47 16)) g.ctx true = none ∧ page.dev.dram.wf = true) := by
  refine ⟨_, rfl, ?_⟩; decide +kernel

theorem test_has_TranslationFindsThePage_fails :
    (∃ g, hart.gang = some g ∧ walk hart.dev.dram g.root 0x20000 = none ∧
      ∃ l, walk hart.dev.dram g.root 0x10000 = some l ∧ l.entry.testBit 5 = false) ∧
    2 ^ 55 ≤ (0x80000000000000 : Word).toNat ∧ (0x7FFFFFFFFFFFFF : Word).toNat < 2 ^ 55 := by
  refine ⟨⟨_, rfl, ?_⟩, ?_⟩
  · exact ⟨by decide +kernel, _, rfl, by decide +kernel⟩
  · decide

theorem test_has_LoadsReadMemory : loadOf (.ld32 2 1 0xFFF8) = some (2, 1, 0xFFF8, 4, true) ∧
    (let s := mapped [0x10010]
     probe s 0x10008 4 .read false = .ok (.dram 0x40008, 0, s) ∧ s.poisoned (.dram 0x40008) = false ∧
     s.readPlace (.dram 0x40008) 4 = 0 ∧ s.refusedPage .last 0x10008 = false ∧ s.core.gate = true) := by decide +kernel

theorem test_has_StoresWriteMemory : storeOf (.st64 2 1 0) = some (2, 1, 0, 8) ∧
    (let s := mapped [0x1FFF8, 0xFFFFFFFFFFFFFFFF]
     s.dev.dram.wf = true ∧ s.dev.host.wf = true ∧ s.core.gate = true ∧ s.refusedPage .last 0x1FFF8 = false ∧
     probe s 0x1FFF8 8 .write false = .ok (.dram 0x4FFF8, 0, s)) := by decide +kernel

theorem test_has_ScalarAccessTraps : (regs [0x10001]).operand 1 = 0x10001 ∧ loadOf (.ld16 2 1 0) = some (2, 1, 0, 2, true) ∧
    probe (regs [0x10000]) 0x10000 8 .write false = .error .perm ∧
    probe (regs []) 0x80000000000000 8 .read false = .error .noAddr ∧ (regs []).refusedPage .last 0x10000 = false ∧
    amoOf (.amoAdd 3 1 2 3 0 .dev) = some (3, 1, 8, 0, .dev) := by and_intros <;> decide +kernel

/-- An atomic with release order behind an open convoy, and one at a page with ATTR = 2. -/
theorem test_has_ScalarAccessTraps_atomics : (2#2).getLsbD 1 = true ∧
    (with_ fun c => { c with vec := [entry 0x8100C63804000000 4] }).core.openConvoy ≠ [] ∧
    (let s := page.withDev fun d => { d with dram := d.dram.setNum 8 0x30008 0x8000000BF3 }
     ∃ g l, s.gang = some g ∧ s.leafOf g 0x10000 .atomic = .ok l ∧ eH l.entry = false ∧ eAttr l.entry = 2 ∧
       s.core.watched 0x10000 8 .atomic = false ∧ s.pinned 0x10000 .atomic = none) := by
  refine ⟨rfl, by decide +kernel, _, _, rfl, rfl, ?_, ?_, ?_, ?_⟩ <;> decide +kernel

/-- Window 0 of the gang at 0x10000. -/
def windowed (base : Word) (bound : BitVec 32) : State := page.withDev fun d => { d with gangs := d.gangs.map fun g =>
  { g with desc := { g.desc with wins := g.desc.wins.set 0 (base, bound) } } }

theorem test_has_WindowLoads : (windowed 0x10000 16).gang.map (fun g => g.desc.wins[0]) = some (0x10000, 16) ∧
    probe (windowed 0x10000 16) 0x10008 8 .read false = .ok (.dram 0x40008, 0, windowed 0x10000 16) ∧
    (windowed 0x10000 16).readPlace (.dram 0x40008) 8 = 0 ∧ (windowed 0x10000 16).refusedPage .last 0x10008 = false ∧ 8 + 8 ≤ 16 ∧ ¬ 16 + 8 ≤ 16 ∧
    (windowed 0x10004 16).gang.map (fun g => g.desc.wins[0]) = some (0x10004, 16) ∧
    (windowed 0 0).gang.map (fun g => g.desc.wins[0]) = some (0, 0) ∧ (12#16).toNat % 8 ≠ 0 := by decide +kernel

theorem test_has_AtomicsReadAndWrite :
    (let s := mapped [0x10000, 5]
     amoOf (.amoCas 3 1 2 2 3 .dev) = some (3, 1, 4, 3, .dev) ∧ s.core.openConvoy = [] ∧ s.core.released .dev = true ∧
     s.core.gate = true ∧ probe s 0x10000 4 .atomic false = .ok (.dram 0x40000, 0, s) ∧
     s.poisoned (.dram 0x40000) = false ∧ s.readPlace (.dram 0x40000) 4 = 1 ∧ s.refusedPage .last 0x10000 = false ∧
     amoNew s 1 (.amoCas 3 1 2 2 3 .dev) = none ∧ amoNew s 0 (.amoCas 3 1 2 2 3 .dev) = some 5) := by decide +kernel

/-- Words that the tests queue: an add, an add with C = 1, and a stream-form `draw`. -/
def wAdd : BitVec 64 := 0x0100C63804000000
def wConvoy : BitVec 64 := 0x8100C63804000000
def wDraw : BitVec 64 := 0x6F0314A812000000

theorem test_has_PlainSystemWords : ((regs [0xFFFFFFFFFF]).operand 1).toNat < 2 ^ 40 ∧
    2 ^ 40 ≤ ((regs [0x10000000000]).operand 1).toNat ∧
    (with_ fun c => { c with vec := [entry wConvoy 4] }).core.openConvoy ≠ [] ∧
    ((with_ fun c => { c with vec := [entry wAdd 4] }).core.openConvoy = [] ∧
      (with_ fun c => { c with vec := [entry wAdd 4] }).core.vec ≠ []) ∧
    (hart.core.openConvoy = [] ∧ hart.core.vec = [] ∧ hart.core.cpy = [] ∧ hart.core.col = [] ∧ hart.core.region = none) := by
  and_intros <;> decide +kernel

theorem test_has_SetvlGrants : hart.core.preempt = false ∧ (with_ fun c => { c with preempt := true }).core.preempt = true ∧
    Min.min ((regs [513]).operand 1).toNat (rowLimit hart.core.vtype) = 512 := by decide +kernel

theorem test_has_EmitPlacesAWord : (regs [wAdd]).core.parkedInK = false ∧
    (decodeV ((regs [wAdd]).operand 1)).toOption = some (.vadd ⟨false, 6, 6, .vv 7, 0, false, .i32, .rne⟩) ∧
    (regs [wAdd]).core.drawExhausts wAdd = false ∧ (regs [wAdd]).core.room (queOf wAdd) = true ∧
    (with_ fun c => { c with vec := .replicate 64 (entry wAdd 4) }).core.room .vec = false ∧
    decodeV ((regs [0x7F00000000000000]).operand 1) = .error .illegalVWord ∧
    (decodeV wDraw).toOption.isSome = true ∧
    (with_ fun c => { c with rpos := 0xFFFFFF, rc := 1 }).core.drawExhausts wDraw = false ∧
    (with_ fun c => { c with rpos := 0xFFFFFF, rc := 2 }).core.drawExhausts wDraw = true := by
  and_intros <;> decide +kernel

/-- A block of one add at 0x10040, its line fetched. -/
def block : State := { (mapped [0x10040, 0x10044]) with
  core := { (mapped [0x10040, 0x10044]).core with bcache := [(0x1001, 0x7F000000000000000100C63804000000)] } }

theorem test_has_VfetchPlacesABlock : block.core.parkedInK = false ∧
    (block.operand 1 + (0 : BitVec 16).signExtend 64 * 8).toNat % 8 = 0 ∧
    (block.operand 2 + (0 : BitVec 16).signExtend 64 * 8).toNat % 8 ≠ 0 ∧ block.core.midFetch = none ∧
    (∀ k, k ≤ 1 → fetchBytes block true (0x10040 + BitVec.ofNat 64 (8 * k)) 8 =
      .ok ((if k = 0 then wAdd else vstop).toNat, block)) ∧
    wAdd ≠ vstop ∧ opOf wAdd ≠ 0x7F ∧ isStreamDraw wAdd = false ∧ block.core.history + 1 ≤ 64 ∧
    (block.core.queue .vec).length + 1 ≤ Que.vec.cap ∧ (block.core.queue .col).length + 1 ≤ Que.col.cap := by
  and_intros <;> decide +kernel

theorem test_has_DrainAndRoomWaits :
    ((1#4).getLsbD (Que.vec.code - 1) = true ∧ (1#4).getLsbD (Que.col.code - 1) = false) ∧
    ((with_ fun c => { c with vec := [entry wAdd 4] }).core.openConvoy = [] ∧
      (with_ fun c => { c with vec := [entry wAdd 4] }).core.queue .vec ≠ []) ∧
    (with_ fun c => { c with vec := [entry wConvoy 4] }).core.openConvoy ≠ [] ∧
    ((regs [16]).operand 1).toNat ≤ Que.mat.cap ∧ Que.mat.cap < ((regs [17]).operand 1).toNat ∧
    Que.vec.cap < ((with_ fun c => { c with vec := [entry wAdd 4] }).core.queue .vec).length + 64 ∧
    ((with_ fun c => { c with vec := [entry wAdd 4] }).core.queue .vec).length + 63 ≤ Que.vec.cap := by
  and_intros <;> decide +kernel

theorem test_has_StateWordsAreReadAndWritten : stateValue hart.core 0x050 = some 0x1C ∧ waitingNumber 0x00B ∧
    hart.core.drained = true ∧ kernelNumber 0x040 ∧ kernelNumber 0x047 ∧ ¬ kernelNumber 0x048 ∧
    (with_ kernel).core.kmode = true ∧ userNumber 0x01F ∧ ¬ userNumber 0x050 ∧ stateValue hart.core 0x01F = some 0 ∧
    listedNumber 0x00B ∧ listedNumber 0x050 ∧ ¬ listedNumber 0x003 ∧ ¬ listedNumber 0x061 ∧
    (with_ fun c => { c with vec := [entry wConvoy 4] }).core.openConvoy ≠ [] ∧
    (with_ fun c => { c with vec := [entry wAdd 4] }).core.drained = false := by
  refine ⟨?_, ?_, ?_, ?_, ?_, ?_, ?_, ?_, ?_, ?_, ?_, ?_, ?_, ?_, ?_, ?_⟩ <;> first
    | decide +kernel
    | (unfold listedNumber kernelNumber; omega)
    | (unfold waitingNumber; omega)
    | (unfold kernelNumber; omega)
    | (unfold userNumber; omega)

/-- The gang with watermark 2 linked, and a phase in which the hart has arrived. -/
def linked (f : Gang → Gang) : State := hart.withDev fun d => { d with gangs := d.gangs.map f }
def link2 (g : Gang) : Gang := { g with desc := { g.desc with wmap := g.desc.wmap.set 2 1 } }

theorem test_has_WatermarkAndBarrierWords : hart.gang.isSome = true ∧ hart.gang.map (fun g => g.linked 2) = some false ∧
    hart.core.gate = true ∧ hart.checksScope 1 = false ∧ hart.core.barLast = none ∧ hart.core.pc ∉ hart.core.barAw ∧
    (linked link2).gang.map (fun g => (g.linked 2, g.desc.pv)) = some (true, false) ∧
    ((with_ fun c => { c with barLast := some 0 }).core.barLast, hart.gang.map Gang.phase) = (some 0, some 0) ∧
    hart.core.pc ∈ (with_ fun c => { c with barAw := [c.pc] }).core.barAw := by
  and_intros <;> decide +kernel

/-- Ring 1 of function 0 enabled, with this TAIL. -/
def ring1 (tail : Word) : State := hart.withDev fun d => { d with funcs :=
  [{ Func.reset 0 with ctl := #v[4, 0x104], base := #v[0, 0x70000], tail := #v[0, tail] }] }

theorem test_has_LaunchReportsAdmission : (hart.dev.ctx hart.ctxId).map Ctx.vf = some 0 ∧ (∀ x ∈ hart.core.launching, x.1 ≠ hart.core.pc) ∧ hart.core.region = none ∧
    (with_ fun c => { c with launching := [(c.pc, 0)] }).core.launching.find? (fun x => x.1 == hart.core.pc) =
      some (hart.core.pc, 0) ∧
    hart.core.drained = true ∧ hart.core.pubs = [] ∧ ((ring1 15).dev.func 0).full 1 = true ∧
    ((ring1 14).dev.func 0).full 1 = false ∧ ((ring1 14).dev.func 0).enabled 1 = true ∧
    (with_ fun c => { c with vec := [entry wAdd 4] }).core.drained = false ∧
    (hart.dev.ringEntry (Func.reset 0) 1 0).2.extractLsb' 62 2 = 0 := by and_intros <;> decide +kernel

theorem test_has_HaltEndsTheHart : hart.gang.map (fun g => (g.desc.harts, g.halted)) = some (1, []) ∧ hart.core.hart = 0 ∧
    hart.core.openConvoy = [] ∧ hart.core.drained = true ∧ hart.core.pubs = [] ∧
    (with_ fun c => { c with vec := [entry wConvoy 4] }).core.openConvoy ≠ [] ∧
    (linked fun g => { g with desc := { g.desc with harts := 2 } }).gang.map (fun g => g.desc.harts) = some 2 ∧
    ((linked fun g => { g with desc := { g.desc with harts := 2 } }).withDev fun d => { d with
      saved := [{ hart.core with hid := 1 }] }).dev.saved.map (fun c => (c.gang16, c.hart)) = [(1, 1)] := by
  and_intros <;> decide +kernel

theorem test_has_ExceptionEntersTheHandler : hart.core.running ∧ handlerAlone 0x05 ∧ ¬ nested (handled hart.core) ∧
    nested hart.core ∧ nested (kernel (handled hart.core)) := by
  refine ⟨⟨rfl, rfl, rfl⟩, by unfold handlerAlone; decide, ?_, ?_, ?_⟩ <;> unfold nested <;> decide +kernel

theorem test_has_WordsThatTrap : (with_ handled).core.running ∧ ¬ nested (with_ handled).core ∧
    (with_ handled).core.gate = true ∧ hart.core.kmode = false ∧ encodeS .eret = some .eret ∧
    (stateValue hart.core 0x050).isSome = true ∧ hart.core.mode = .whole ∧ hart.refusedPage .last hart.core.pc = false ∧
    probe (with_ fun c => { c with pc := 0x80000000000000 }) 0x80000000000000 4 .fetch false = .error .noAddr ∧
    probe { hart with dev := { hart.dev with dram := hart.dev.dram.setNum 8 0x30008 0x40093 } } 0x10000 4 .fetch false =
      .error .perm := by
  refine ⟨⟨rfl, rfl, rfl⟩, by unfold nested; decide +kernel, ?_, ?_, ?_, ?_, ?_, ?_, ?_, ?_⟩ <;> decide +kernel

/-- A `mzero` of rank 3 in the matrix queue behind a word of rank 2. -/
def unwinding : Core := { handled hart.core with
  mat := [{ entry 0x6100000000000000 4 with rank := 2 }, { entry 0x6100000000000002 4 with rank := 3 }] }

theorem test_has_WordFaultUnwinds : (with_ fun _ => unwinding).core.running ∧ ¬ nested unwinding ∧
    unwinding.findEntry 2 = some (.mat, { entry 0x6100000000000000 4 with rank := 2 }) ∧
    (∀ x ∈ unwinding.words, x.restored = false) := by
  refine ⟨⟨rfl, rfl, rfl⟩, by unfold nested; decide +kernel, ?_, ?_⟩ <;> decide +kernel

/-- A convoy of two words, ranks 2 and 3, and a word of rank 4 behind it. -/
def unwindingConvoy : Core := { handled hart.core with
  vec := [{ entry (wAdd ||| 0x8000000000000000) 4 with rank := 2 }, { entry wAdd 4 with rank := 3 },
    { entry wAdd 4 with rank := 4 }] }

theorem test_has_WordFaultUnwinds_convoy : unwindingConvoy.findEntry 2 =
      some (.vec, { entry (wAdd ||| 0x8000000000000000) 4 with rank := 2 }) ∧
    { entry (wAdd ||| 0x8000000000000000) 4 with rank := 2 } ∈ unwindingConvoy.headConvoy ∧
    unwindingConvoy.headConvoy.getLast? = some { entry wAdd 4 with rank := 3 } ∧
    (∀ x ∈ unwindingConvoy.words, x.restored = false) := by and_intros <;> decide +kernel

theorem test_has_KernelTrapIsRecorded : untraced hart ∧ hart.dev.dram.wf = true ∧
    (hart.dev.ctx hart.ctxId).map (fun c => (c.dropped, c.lostNext, hart.dev.ringRoom c)) = some (0, false, 64) ∧
    nested hart.core ∧ ¬ nested (with_ handled).core := by
  refine ⟨rfl, ?_, ?_, ?_, ?_⟩ <;> first | decide +kernel | (unfold nested; decide +kernel)

theorem test_has_EretReturns : (with_ kernel).core.kmode = true ∧ (with_ kernel).core.restore = [] ∧
    (∀ e ∈ (with_ kernel).core.words, e.restored = false) ∧ (0x100 : Word).getLsbD 8 = true ∧
    (0x200 : Word).getLsbD 9 = true := by and_intros <;> decide +kernel

/-- A trap ring without room: PROD is 64 behind nothing read. -/
def fullRing : State := { (with_ fun c => { c with trapWait := some ⟨.replicate 8 0, none⟩ }) with
  dev := { hart.dev with dram := hart.dev.dram.setNum 4 0x50000 64 } }

theorem test_has_TrapRingEvents : (fullRing.dev.ctx 1).map (fun c => (fullRing.dev.ringRoom c, c.dropped, c.waiting.length)) =
      some (0, 0, 0) ∧ fullRing.ctxOf fullRing.core = 1 ∧ fullRing.dev.dram.wf = true ∧ fullRing.rest = [] ∧
    (fullRing.dev.ctx 1).map (fun c => (fullRing.dev.ringProd c + 2 ^ 32 - 1) % 2 ^ 32 < 2 ^ c.tlog) = some True ∧
    (with_ fun c => { handled c with stepDue := some 5 }).core.stepDue = some 5 ∧
    (handled hart.core).t.tvec.extractLsb' 2 53 ≠ 0 := by
  refine ⟨?_, ?_, ?_, rfl, ?_, rfl, ?_⟩
  · decide +kernel
  · decide +kernel
  · decide +kernel
  · simp only [Option.map_eq_some_iff]; exact ⟨_, rfl, eq_true (by decide +kernel)⟩
  · decide +kernel

/-- The kernel holds the hart. -/
def stopped (k : KStop) (f : Core → Core) : State := with_ fun c => f { c with stopped := some k }

theorem test_has_KernelServesHarts : (stopped ⟨0x0A, false, 0, false⟩ kernel).core.kmode = true ∧
    (stopped ⟨0x0A, false, 0, false⟩ kernel).core.frozenHart = false ∧
    ((stopped ⟨0x1F, true, 0x10000, false⟩ fun c => { c with s := c.s.set 31 1 }).core.s[31] = 1) ∧
    (stopped ⟨0x1F, true, 0x10000, false⟩ kernel).core.drained = true ∧ (stopped ⟨0x1F, true, 0x10000, false⟩ kernel).core.kmode = true ∧
    (stopped ⟨0x1F, true, 0x10000, false⟩ id).core.kmode = false ∧ hart.core.placed = true ∧ (0x20#8 ≠ 0x1F ∧ 0x20#8 ≠ 0x16 ∧ 0x20#8 ≠ 0x17) ∧
    (stopped ⟨0x0A, false, 0, false⟩ handled).core.t.tvec.extractLsb' 2 53 ≠ 0 ∧
    (with_ fun c => { c with frozenHart := true }).core.stopped = none ∧
    (with_ fun c => { c with frozenCopy := true, frozenColl := true }).core.frozenColl = true ∧
    hart.dev.boot.getLsbD 2 = false := by
  and_intros <;> decide +kernel

/-- A preempted gang of function 1 beside the placed one of function 0. -/
def rival : State := hart.withDev fun d => { d with
  gangs := d.gangs ++ d.gangs.map fun g => { g with gid := 2, vf := 1, st := .preempted }
  funcs := [{ Func.reset 1 with deficit := 1 }] }

theorem test_has_PreemptionRequests : (rival.dev.liveGang 1).map (fun g => (g.st, g.vf, g.desc.prio)) =
      some (.placed, 0, 0) ∧ 1 ∈ rival.dev.vfs ∧
    (rival.candidates 1 0).map (fun x => decide (x.desc.harts ≤ (rival.dev.func 1).deficit)) = [true] ∧
    (with_ fun c => { c with preempt := true }).core.preempt = true ∧ hart.core.graceHeld = false ∧
    hart.gang.map hart.gangFrozen = some false ∧ hart.finishCopies.2 = none := by and_intros <;> decide +kernel

/-- Ring 0 of function 0 with one entry: a descriptor at 0x10000 that asks for `harts` harts. -/
def submitted (harts : Nat) : State := page.withDev fun d => { d with
  dram := (((d.dram.setNum 8 0x70008 1).setNum 8 0x70000 0x10000).setNum 8 0x40000 0x10000).setNum 8 0x40008 harts
  funcs := [{ Func.reset 0 with ctl := #v[0x104, 4], base := #v[0x70000, 0], tail := #v[1, 0] }] }

theorem test_has_AdmissionDecidesEntries : ((submitted 1).dev.func 0).frozen = false ∧
    (submitted 1).dev.boot.getLsbD 2 = false ∧ Ask.admission 0 false ∉ (submitted 1).dev.asked ∧
    (submitted 1).dev.split.getLsbD 2 = false ∧ (4 : Word).getLsbD 2 = true ∧
    ((submitted 1).dev.func 0).enabled 0 = true ∧ ((submitted 1).dev.func 0).next[0] ≠ ((submitted 1).dev.func 0).tailN 0 ∧
    (submitted 1).dev.dram.wf = true ∧ ((submitted 0).dev.decide_ 0 0 0).1 = .error 1 ∧
    ((submitted 1).dev.decide_ 0 0 0).1.toOption.isSome = true ∧ ((submitted 1).dev.decide_ 1 0 0).1 = .error 8 ∧
    ((submitted 1).dev.ctx 1).map (fun c => ((submitted 1).dev.ctxLines c 3 0x10000).1.isSome) = some true ∧
    ((submitted 1).dev.ctx 1).map (fun c => ((submitted 1).dev.ctxLines c 3 0x20000).1) = some none := by and_intros <;> decide +kernel

/-- An admitted gang alone on the machine. -/
def admitted : State := { State.reset with dev := { hart.dev with
  gangs := hart.dev.gangs.map fun g => { g with st := .admitted, placedBefore := false } } }

/-- Where every gang is placed, no gang is a candidate. -/
theorem noCandidate (u : State) (h : ∀ g ∈ u.dev.gangs, g.st = .placed) (vf p : Nat) : u.candidate vf p = none := by
  have e : ∀ q : Gang → Bool, (∀ g, q g = true → g.st ≠ .placed) → u.dev.gangs.filter q = [] := fun q hq =>
    List.filter_eq_nil_iff.2 fun g hg ht => hq g ht (h g hg)
  have r (b : Bool) : u.dev.ringHead vf b = none := by
    simp only [Device.ringHead]
    rw [e _ fun g hg => by simp_all]
    rfl
  simp only [State.candidate, State.candidates, r]
  rw [e _ fun g hg => by simp_all]
  rfl

/-- The same gang with the free cores in reserve. -/
def reserving : State := { admitted with dev := { admitted.dev with reserved := [1] } }

theorem test_has_GangsArePlacedAndServed_round : admitted.dev.gangs.length = 1 ∧ admitted.dev.reserved = [] ∧
    (∀ g ∈ admitted.dev.gangs, g.st = .admitted ∧ g.desc.prio < 16 ∧ admitted.dev.startable g = true ∧
      admitted.dev.ctxHeld g.ctx = false ∧ g.desc.harts ≤ admitted.freeCores.length ∧
      g.desc.harts ≤ 192 - admitted.dev.retiredCores.length ∧ g.vf < 384 ∧
      g.desc.harts ≤ (admitted.dev.func g.vf).deficit + ((admitted.dev.func g.vf).fair.extractLsb' 0 8).toNat * 8) ∧
    admitted.dev.saved = [] ∧ admitted.dev.boot.getLsbD 2 = false ∧
    (reserving.dev.liveGang 1).map (fun g => (g.gid, reserving.mayPlace g)) = some (1, true) ∧
    ∀ g ∈ reserving.dev.gangs, ∀ vf p, ((reserving.placeGang g reserving.freeCores).withDev fun d =>
      d.updFunc g.vf fun f => { f with deficit := f.deficit - g.desc.harts }).candidate vf p = none := by
  refine ⟨?_, ?_, ?_, ?_, ?_, ?_, fun g hg vf p => noCandidate _ ?_ vf p⟩
  case refine_7 => revert hg; revert g; decide +kernel
  all_goals decide +kernel

theorem test_has_GangsArePlacedAndServed_publications : (hart.dev.ctx 1).isSome = true ∧
    hart.dev.chip.toNat ∈ [2, 0] ∧ hart.gang.map (fun g => (g.desc.harts, g.phase)) = some (1, 0) ∧
    (linked fun g => { g with arrived := [0] }).gang.map Gang.arrived = some [0] ∧
    (with_ fun c => { c with pubs := [.raise 3 7 .dev 0] }).core.pubReady (.raise 3 7 .dev 0) = true ∧
    (with_ fun c => { c with pubs := [.arrive 0 0] }).core.pubReady (.arrive 0 0) = true := by
  and_intros <;> decide +kernel

/-- Context 1 with RATE 3, DEPTH 5, and BORROW; buckets in cluster 0. -/
def metered (t : Int) : State := hart.withDev fun d => { d with
  ctxs := d.ctxs.map fun c => { c with desc := c.desc.set 2 (0x100050003) }
  buckets := [⟨0, 1, t, 0, [], false⟩] }

theorem test_has_BandwidthTokens : hart.core ∈ hart.cores ∧ hart.core.placed = true ∧ hart.core.num / 8 = 0 ∧
    hart.ctxOf hart.core = 1 ∧ ((metered 1).dev.bucketOf 0 1).tokens = 1 ∧ ((metered 0).dev.bucketOf 0 1).tokens = 0 ∧
    ((metered 0).dev.bucketOf 0 1).loans = [] ∧ (metered 0).dev.borrows 1 = true ∧
    ((metered 0).dev.bucketOf 0 1).barred = false ∧ (hart.dev.ctx 1).map (fun x => x.desc[2]) = some 0 := by
  refine ⟨List.mem_cons_self .., ?_, ?_, ?_, ?_, ?_, ?_, ?_, ?_, ?_⟩ <;> decide +kernel

/-- An open region that holds these stores. -/
def holding (held : List Held) : State := page.withCore fun c => { c with region := some ({
    vl := 4, rc := 1, words := 3, held := held, pos := .replicate 16 0, brk := 0, brkp := 0, supp := none,
    annulled := false, retired := [] } : Region) }

/-- A hart that waits for page 2 of its context, which reserves it. -/
def waiting (rs : List Reserved) : State := { (with_ fun c => { c with batches := [⟨.last, [⟨2, 0, false⟩], some 0, false, false⟩] }) with
  dev := { hart.dev with ctxs := hart.dev.ctxs.map fun c => { c with regions := rs } } }

theorem test_has_PageServiceAnswersBatches : (waiting []).core.placed = true ∧
    ((waiting []).dev.liveGang (waiting []).core.gang16).map (fun g => decide (g.key < 1024)) = some true ∧
    ((waiting []).dev.liveGang (waiting []).core.gang16).map Gang.ctx = some 1 ∧
    (waiting []).dev.posted.contains (.batch 1 0) = false ∧
    walk (waiting []).dev.dram 0x10000 (2 * 65536) = none ∧ (waiting []).dev.mayTake 9 = true ∧
    (waiting []).dev.dram.num 8 (eFrame ((waiting []).dev.dram.num 8 (eFrame ((waiting []).dev.dram.num 8 0x10000))) + 16) = 0 ∧
    ((waiting [⟨2, 1, true, false, true, true, 0⟩]).dev.ctx 1).map (fun x => x.regions.map Reserved.page) = some [2] ∧
    (0x4001000000000000 : Word).extractLsb' 62 2 = 1 ∧ (0x4001000000000000 : Word).extractLsb' 48 11 = 1 := by
  and_intros <;> decide +kernel

theorem test_has_HostPagesAndMigration : page.inUse 1 0x10000 65536 = false ∧ (∀ e ∈ page.core.words, e.parked = false) ∧
    (holding [⟨0, 1, 0x10004, .dram 0x40004, 32, false, 7⟩]).inUse 1 0x10000 65536 = true ∧
    (page.dev.ctx 1).map page.dev.rootOf = some 0x10000 ∧
    (walk page.dev.dram 0x10000 0x10000).map (fun l => (l.big, eH l.entry, decide (eAttr l.entry ≠ 2))) =
      some (false, false, true) ∧ page.dev.migrating.contains (1, 1) = false ∧ page.dev.host.wf = true := by
  and_intros <;> decide +kernel

theorem test_has_FramesAndHostDma : ((0x601 : Word) &&& 0xFF000000 = 0) ∧ entrySealed (hart.dev.frameEntry 4) = false ∧
    (hart.dev.frames.map Prod.fst).Pairwise (· < ·) ∧ (hart.dev.ctx 1).map Ctx.vf = some 0 ∧
    (hart.dev.func 0).frozen = false ∧ hart.dev.ckptOpen = [] ∧ hart.frameInUse 4 = false ∧ hart.dev.boot.getLsbD 2 = false ∧
    (holding [⟨0, 1, 0x10004, .dram 0x40004, 32, false, 7⟩]).frameInUse 4 = true ∧ hart.dev.dmaFault 1 0x40000 16 true = none ∧
    (hart.dev.dmaFault 1 0x50000 16 false).isSome = true ∧ 0x40000 + 16 ≤ 2 ^ 39 := by and_intros <;> decide +kernel

theorem test_has_ErrorsAreCounted : (hart.dev.retire.extractLsb' 0 8).toNat = 16 ∧ hart.dev.errors = [] ∧
    hart.dev.poison.contains 64 = false ∧ hart.core.poison = [] ∧ hart.core.stopped = none ∧
    hart.core.trapWait = none ∧ hart.bankCounts (hart.dev.bankOf hart.core.num) = false ∧ hart.dev.hostPoison = [] ∧
    ({ hart with dev := { hart.dev with errors := [(.core 9, 15)] } } : State).dev.retiredUnits.contains (.core 9) = false ∧
    (∀ c ∈ hart.cores, c.num = 9 → c.placed = false) := by and_intros <;> decide +kernel

/-- Row 0 of register 20 holds these doublewords. -/
def row20 (l : List Nat) (c : Core) : Core :=
  { c with v := c.v.set 20 ((c.vreg 20).set 0 (BitVec.ofNat 16384 ((l.zipIdx.map fun p => p.1 * 2 ^ (64 * p.2)).sum))) }

/-- A `cpy` of `n` bytes from scratchpad 0 to scratchpad 0x100. -/
def copying (n : Nat) (hi : Nat) : State :=
  running .cpy 0x7000140000000000 4 (row20 [0, 0x100, n + 3 * 2 ^ 43 + hi * 2 ^ 48])

theorem test_has_EngineWordsStart_cpy :
    (engineDesc (.reg 20) 3 (copying 16 0)).toOption.map (fun x => x.1) = some [0, 0x100, 0x180000000010] ∧
    (checkSpans (.word 0) [(.read, ⟨true, 0, 16⟩), (.write, ⟨true, 0x100, 16⟩)] (copying 16 0)).toOption.isSome = true ∧
    ((0x1180000000010 : Word).extractLsb' 48 16 = 1) ∧ (copying 16 0).core.mode = .whole ∧ (copying 16 0).core.run.aim = none ∧ (copying 0 0).core.poison = [] := by
  and_intros <;> decide +kernel

/-- Elements of width `w` in a row of a register. -/
def put (v row w : Nat) (l : List Nat) (c : Core) : Core :=
  { c with v := c.v.setIfInBounds v (((c.v[v]?).getD (.replicate 16 0)).setIfInBounds row
      (BitVec.ofNat 16384 ((l.zipIdx.map fun p => p.1 * 2 ^ (w * p.2)).sum))) }
/-- The next state. -/
def after (r : Result) : Option State :=
  match r with
  | .next t => some t
  | _ => none
/-- The first elements of a row afterwards. -/
def gives (r : Result) (v : BitVec 5) (w row n : Nat) : Option (List Nat) :=
  (after r).map fun t => (List.range n).map fun e => elemAt t.core v w row e

theorem test_has_EngineWordsStart_waits :
    (let s := running .cpy 0x7200000000000000 4 id
     (∀ e ∈ s.core.queue .cpy, s.core.run.rank ≤ e.rank) ∧ (∀ e ∈ s.core.vec, s.core.run.rank ≤ e.rank) ∧
     s.core.mode = .whole ∧ s.core.run.aim = none) ∧
    (let s := running .cpy 0x7210600000100007 4 fun c =>
       { c with vec := [entry wAdd 4], run := { c.run with rank := 1 } }
     ∃ e ∈ s.core.vec, e.rank < s.core.run.rank) ∧
    engineWaitOf (.cwaitv (some 3) 7) = some (.col, true, some 3, 7) := by
  refine ⟨?_, ⟨entry wAdd 4, ?_, ?_⟩, ?_⟩ <;> decide +kernel

/-- A collective word of group 3, whose chips are these, from the buffer at 0x10000. -/
def sending (chips : List Nat) (word : BitVec 64) : State :=
  let s := running .col word 4 (row20 [0x10000, 0, 16, 3 * 2 ^ 40 + 7 * 2 ^ 48])
  s.withDev fun d => { d with
    gangs := d.gangs.map fun g => { g with desc := { g.desc with coll := [(3, 0)] } }
    ctxs := d.ctxs.map fun c => { c with groups := [(3, chips)] } }

theorem test_has_EngineWordsStart_collectives :
    (let s := sending [0, 5] 0x7800140000000000
     (engineDesc (.reg 20) 4 s).toOption.map (fun x => x.1) = some [0x10000, 0, 16, 0x7030000000000] ∧
     s.members 3 = some [0, 5] ∧
     (checkSpans (.word 0) (collSpans .send (transferOf none 0 .i8 0x10000 0 16 0x7030000000000)) s).toOption.isSome = true) ∧
    (sending [0] 0x7810140000000000).members 3 = some [0] ∧ credType 3 .f32 = true ∧ credLenOk 3 .f32 16 = true ∧
    (0x7030000000000 : Word).extractLsb' 38 2 = 0 ∧ (16 : Word).extractLsb' 43 21 = 0 := by and_intros <;> decide +kernel

/-- A started copy of 16 bytes between two ranges of the scratchpad, whose source holds 1 and 2. -/
def started : State :=
  let j : Job := copyOf (some 3) 0 0x100 0x180000000010
  with_ fun c => { c with spad := (c.spad.setNum 8 0 1).setNum 8 8 2, cpy := [{ entry 0x7000740000100000 4 with job := some j, passed := true }] }

theorem test_has_CopyChunksArrive : (∃ e j, started.core.cpy[0]? = some e ∧ e.job = some j ∧ e.parked = false ∧
      started.core.frozenCopy = false ∧ started.chunkWaits e j = false ∧ j.len = 16 ∧ j.chunk = 256 ∧
      j.src.toNat + j.done + 16 ≤ j.dst.toNat + j.done) ∧
    (moveSpan false true true 0 0x100 16 started).toOption.isSome = true ∧ started.anyPoison = false ∧
    started.core.spad.wf = true := by
  refine ⟨⟨_, _, rfl, rfl, rfl, rfl, ?_, ?_, ?_, ?_⟩, ?_, ?_, ?_⟩ <;> decide +kernel

theorem test_copy_chunk : (after (exec (.copyChunkArrival 0 0) started)).map (fun t =>
    (t.core.spad.num 8 0x100, t.core.spad.num 8 0x108, t.core.spad.num 8 0, t.core.cpy.length, bitAt t.core 3 0 0, bitAt t.core 3 0 1)) =
    some (1, 2, 1, 0, true, false) := by decide +kernel

/-- A `csend` that has started, and a `credsum` in a group of two. -/
def joined (word : BitVec 64) (et : EType) : State :=
  let s := sending [0, 5] word
  s.withCore fun c => { c with col := c.col.map fun e => { e with
    job := some { transferOf none 0 et 0x10000 0x10100 16 0x7030000000000 with peer := 1 }, passed := true } }

theorem test_has_CollectivesComplete :
    (let s := joined 0x7800140000000000 .i8
     (s.core.matching ⟨0, 3, 7, 1, true, 16, [], false⟩).isSome = true ∧
     (readSpan ⟨false, 0x10000, 16⟩ s).toOption.isSome = true) ∧
    (let s := joined 0x7900140000000000 .i8
     (s.core.matching ⟨0, 3, 7, 1, false, 16, .replicate 16 9, false⟩).isSome = true ∧
     (writeSpan ⟨false, 0x10000, 16⟩ (.replicate 16 9) s).toOption.isSome = true) ∧
    (let s := joined 0x7A00140012000000 .f32
     (s.core.credAt 3 7).isSome = true ∧ s.members 3 = some [0, 5] ∧ s.rankIn [0, 5] = 0 ∧
     (credParts 2 0 (.replicate 16 0) [⟨1, 0, .f32, .replicate 16 0⟩]).isSome = true ∧
     (writeSpan ⟨false, 0x10100, 16⟩ (.replicate 16 0) s).toOption.isSome = true) := by and_intros <;> decide +kernel

/-- An append at position `p` to the cache whose table stands at 0x10000 and whose blocks from 0x10000 on are 16 tokens of
16 bytes. -/
def appending (p : Nat) : State :=
  let s := running .cpy 0x7104950000160000 4 fun c =>
    put 21 0 64 [0x10000, 0x10000, 4 * 256 + 4, 0x10800, 2, 0x10900, 0x10A00] { c with run := { c.run with
      slots := c.run.slots.set 6 (BitVec.ofNat 64 p) } }
  s.withDev fun d => { d with dram := d.dram.setNum 8 0x40008 (2 ^ 63 + 3) }

theorem test_has_CpycAppends : (appending 32).core.poison = [] ∧ (appending 32).anyPoison = false ∧
    ((appending 32).core.poolAt 21).ok = true ∧ (∀ e ∈ (appending 32).core.cpy, (appending 32).core.run.rank ≤ e.rank) ∧
    (32 / 2 ^ ((appending 32).core.poolAt 21).lt = 2) ∧ ((appending 32).core.poolAt 21).nblk = 2 ∧
    (load (appending 31) (.word 0) 0x10008 8 0).toOption.map Prod.fst = some 0x8000000000000003 := by
  and_intros <;> decide +kernel

/-! ## Vector words -/

theorem test_has_ElementWordsWriteTheirElements : Ready (running .vec wAdd 4 id) true ∧
    (laneWrite (running .vec wAdd 4 id).core (.vadd ⟨false, 6, 6, .vv 7, 0, false, .i32, .rne⟩)).isSome = true ∧
    firstBroken (laneLimits (running .vec wAdd 512 id).core (.vadd ⟨false, 6, 6, .vv 7, 0, false, .i32, .rne⟩)) = none ∧
    firstBroken (laneLimits (running .vec wAdd 513 id).core (.vadd ⟨false, 6, 6, .vv 7, 0, false, .i32, .rne⟩)) = some 2 := by
  refine ⟨ready_of _ _ ?_, ?_, ?_, ?_⟩ <;> decide +kernel

theorem test_has_RowWordsWriteTheirRows : Ready (running .vec 0x2C01800004000000 4 id) true ∧
    (rowWrites (running .vec 0x2C01800004000000 4 id).core (.vredsum ⟨false, 12, 3, .vv 0, 0, false, .i32, .rne⟩)).isSome =
      true ∧
    firstBroken (rowLimits (running .vec 0x2C01800004000000 4 id).core
      (.vredsum ⟨false, 12, 3, .vv 0, 0, false, .i32, .rne⟩)) = none := by
  refine ⟨ready_of _ _ ?_, ?_, ?_⟩ <;> decide +kernel

/-- An open region of 4 elements. -/
def region (annulled : Bool) (words : Nat) : Region :=
  { vl := 4, rc := 1, words := words, held := [], pos := .replicate 16 0, brk := 0, brkp := 0, supp := none,
    annulled := annulled, retired := [] }

theorem test_has_ComputeWordsTrap :
    firstUse { entry wAdd 4 with ven := false } = some 0x14 ∧ firstUse (entry wAdd 4) = none ∧
    (running .vec wAdd 4 fun c => { c with region := some (region false 48) }).core.mode = .whole ∧
    (48 ≤ (region false 48).words ∧ ¬ 48 ≤ (region true 47).words) ∧ (region false 0).vl ≠ (entry wAdd 5).vl ∧
    firstBroken (laneLimits (running .vec wAdd 4 id).core (.vadd ⟨false, 6, 6, .vv 7, 0, false, .f32, .rne⟩)) = some 1 ∧
    (Poison.reg 6 0 0 ∈ (running .vec wAdd 4 fun c => { c with poison := [.reg 6 0 0] }).core.poison ∧
      0 * 512 < (entry wAdd 4).vl.toNat * EType.i32.width ∧ ∀ g, g < 4 → countNow (running .vec wAdd 4 id).core g = 0) ∧
    (running .vec wAdd 4 fun c => { c with region := some (region true 0) }).core.ownPos = 0 := by
  refine ⟨?_, ?_, ?_, ?_, ?_, ?_, ⟨List.mem_cons_self .., ?_, ?_⟩, ?_⟩ <;> decide +kernel

/-- A record of one dimension: base, element type, extent, stride; `sp` for the scratchpad. -/
def record (base : Word) (et : EType) (n stride : Nat) (sp : Nat) : Shape :=
  #v[base, BitVec.ofNat 64 (et.code.toNat * 16 + 1 + sp * 256), BitVec.ofNat 64 n, 0, 0, 0, BitVec.ofNat 64 stride, 0, 0, 0]

/-- Stream 3 open. -/
def streaming (r : Shape) (c : Core) : Core := { c with q := c.q.set 3 ⟨some r, 0⟩ }

/-- A load of 4 `f32` from the page, and the record of the page. -/
def wLoad : BitVec 64 := 0x4800200012000003
def load4 : MemArgs := ⟨false, 1, 0, 0, 0, false, .f32, .n32, false, 0, false, 0, .hart, 0, false, false, 3⟩
def loading (f : Core → Core) : State := running .vec wLoad 4 fun c => f (streaming (record 0x10000 .f32 64 4 0) c)
/-- Where its elements stand. -/
def placeOf (el : Elem) : Place := .dram (el.addr.toNat + 0x30000)

theorem test_has_VectorLoadsFillElements : Ready (loading id) false ∧
    firstBroken (memLimitsOf (loading id).core load4 false false (typeIn 3) [1] true) = none ∧
    firstBroken (memLimitsOf hart.core load4 false false (typeIn 3) [1] true) ≠ none ∧
    (let els := doneOf (elementsOf (loading id).core load4 false (leftOf (loading id).core ⟨load4, false, false, false, false⟩))
     els.length = 4 ∧ ∀ el ∈ els, el.addr.toNat % 4 = 0 ∧ (placeOf el = .dram (0x40000 + el.e * 4)) ∧
       (∀ spec, probe (loading id) el.addr 4 .read spec = .ok (placeOf el, 0, loading id))) ∧
    ((elementsOf (loading id).core load4 false fun _ _ => true).all fun el =>
      !awaited (loading id) (.vld load4) load4 el && !(loading id).refusedPage (.word 0) el.addr) = true ∧
    (elementsOf (loading id).core load4 false fun _ _ => true).any
      (awaited (loading id) (.vld { load4 with we := true }) { load4 with we := true }) = true := by
  refine ⟨ready_of _ _ ?_, ?_, ?_, ?_, ?_, ?_⟩ <;> decide +kernel

theorem test_has_VectorLoadsFillElements_suppressed :
    (probe (loading id) 0x20000 4 .read true).toOption = none ∧
    (match probe (loading id) 0x20000 4 .read true with
      | .error f => decide (f ≠ .migrating) && f.why == 1
      | .ok _ => false) = true ∧
    (loading id).touched 0x20000 4 .read = loading id ∧ (loading id).awaitsCopy 0 4 = false ∧
    (loading id).core.cmv.getLsbD 0 = false ∧ (loading id).core.ownPos < 64 ∧
    shapeValid (record 0x10000 .f32 64 4 0) = true ∧ shapeEt (record 0x10000 .f32 64 4 0) ≠ .f4 := by
  and_intros <;> decide +kernel

/-- A store of 4 `f32`. -/
def store4 : MemArgs := { load4 with vd := 0, va := 2 }
def storing (f : Core → Core) : State :=
  running .vec 0x4E00020012000003 4 fun c => f (streaming (record 0x10000 .f32 64 4 0) c)

theorem test_has_VectorStoresWriteMemory : Ready (storing id) false ∧ (storing id).core.region = none ∧
    firstBroken (memLimitsOf (storing id).core store4 false true (typeIn 3) [] true) = none ∧
    (let els := doneOf (elementsOf (storing id).core store4 false (leftOf (storing id).core ⟨store4, false, false, false, false⟩))
     (els.map fun el => (placeOf el, el.high)).Nodup ∧ (∀ el ∈ els, (storing id).refusedPage (.word 0) el.addr = false) ∧
       ∀ el ∈ els, ∀ spec, probe (storing id) el.addr 4 .write spec = .ok (placeOf el, 0, storing id)) ∧
    (storing id).dev.dram.wf = true ∧ (storing id).core.spad.wf = true ∧ (storing id).core.enginesQuiet .dev = true ∧
    (storing fun c => { c with cpy := [entry 0x7000140000000000 4] }).core.enginesQuiet .dev =
      false := by
  refine ⟨ready_of _ _ ?_, ?_, ?_, ?_, ?_, ?_, ?_, ?_⟩ <;> decide +kernel

/-- An atomic over the page, its indices in `v7`. -/
def amo4 : MemArgs := ⟨false, 9, 8, 7, 0, false, .n32, .n32, false, 0, false, 0, .hart, 0, false, false, 3⟩
def adding : State := running .vec 0x530128380C000003 4 fun c => put 7 0 32 [3, 1, 2, 0] (streaming (record 0x10000 .n32 64 4 0) c)

theorem test_has_AtomicsHashesAndTranslations_atomic : Ready adding false ∧
    firstBroken (memLimitsOf adding.core amo4 true true EType.isInt [9] true) = none ∧
    (let els := elementsOf adding.core amo4 true fun _ _ => true
     (els.map placeOf).Nodup ∧ ∀ el ∈ els, ∀ spec, probe adding el.addr 4 .atomic spec = .ok (placeOf el, 0, adding)) ∧
    adding.checksScope 2 = false ∧ adding.core.cmv.getLsbD 0 = false ∧ adding.core.ownPos < 64 := by
  refine ⟨ready_of _ _ ?_, ?_, ?_, ?_, ?_, ?_⟩ <;> decide +kernel

/-- The table of Table 9-6: 16 slots at scratchpad 0, all empty but what `f` writes. -/
def hash4 : MemArgs := ⟨false, 2, 5, 6, 0, false, .f32, .n32, false, 0, false, 0, .hart, 0, false, false, 3⟩
def hashing (vl : BitVec 15) (f : Core → Core) : State := running .vec 0x4600453012000003 vl fun c => f <|
  put 6 0 32 [5, 21, 5, 37] <| put 5 0 32 [0x3F800000, 0x40000000, 0x3F000000, 0x40800000] <|
  streaming (record 0 .f32 16 8 1) { c with spad := (List.range 16).foldl (fun m k => m.setNum 4 (8 * k) 0xFFFFFFFF) c.spad }

theorem test_has_AtomicsHashesAndTranslations_hash : Ready (hashing 1 id) false ∧
    firstBroken (hashLimitsOf (hashing 1 id).core hash4) = none ∧
    (elementsOf (hashing 1 id).core hash4 true fun _ _ => true).length = 1 ∧ foundAt (hashing 1 id).core hash4 5 = some 0 ∧
    foundAt { (hashing 1 id).core with spad := (List.range 16).foldl (fun m k => m.setNum 4 (8 * k) 99) [] } hash4 5 = none ∧
    (elementsOf (hashing 1 id).core hash4 true fun _ _ => true).all (fun el => el.on) = true ∧
    (hashing 1 id).core.cmv.getLsbD 0 = false ∧ (hashing 1 id).core.ownPos < 64 ∧ (hashing 1 id).core.hte = false ∧ (hashing 1 fun c => { c with hstat := 0x5C }).core.hte = true := by
  refine ⟨ready_of _ _ ?_, ?_, ?_, ?_, ?_, ?_, ?_, ?_, ?_, ?_⟩ <;> decide +kernel

/-- The first row of Table 9-6 on: four keys, one after the other. -/
theorem test_vhacc_table : (after (exec (.vhacc hash4) (hashing 4 id))).map (fun t =>
    ([5, 6, 7].map fun k => (t.core.spad.num 4 (8 * k), t.core.spad.num 4 (8 * k + 4)),
      (List.range 4).map fun e => bitAt t.core 2 0 e)) =
    some ([(5, 0x3FC00000), (21, 0x40000000), (37, 0x40800000)], [false, false, false, false]) := by decide +kernel

/-- The pool of the example behind R125: 16 tokens of 512 bytes; entry 2 is block 0x31, entry 1 is not mapped. -/
def xlt2 : MemArgs := ⟨false, 20, 21, 22, 23, false, .n64, .n32, false, 0, false, 0, .hart, 0, false, false, 0⟩
def translating (toks : List Nat) : State :=
  let s := running .vec 0x5402B5B5CE000000 (BitVec.ofNat 15 toks.length) fun c =>
    put 22 0 64 toks (put 21 0 64 [0x10000, 0x20000000000, 9 * 256 + 4, 0, 3] c)
  s.withDev fun d => { d with dram := d.dram.setNum 8 0x40010 (3 * 2 ^ 62 + 0x31) }

theorem test_has_AtomicsHashesAndTranslations_translation : Ready (translating [37, 20]) false ∧
    firstBroken (xltLimitsOf (translating [37, 20]).core xlt2) = none ∧
    (∀ spec, probe (translating [37, 20]) (entryAddr (translating [37, 20]).core xlt2 37) 8 .read spec =
      .ok (.dram 0x40010, 0, translating [37, 20])) ∧
    (translating [37, 20]).refusedPage (.word 0) (entryAddr (translating [37, 20]).core xlt2 37) = false ∧
    (translating [37, 20]).dev.dram.num 8 0x40010 = 3 * 2 ^ 62 + 0x31 ∧
    ((translating [37, 20]).dev.dram.num 8 0x40008).testBit 63 = false ∧ rowLeft (translating [37, 20]).core 0 = true := by
  refine ⟨ready_of _ _ ?_, ?_, ?_, ?_, ?_, ?_, ?_⟩ <;> decide +kernel

/-- The example behind R125: position 37. -/
theorem test_vxlt_example : gives (exec (.vxlt xlt2) (translating [37, 20])) 20 64 0 1 = some [0x20000062A00] ∧
    (after (exec (.vxlt xlt2) (translating [37, 20]))).map (fun t => (bitAt t.core 23 0 0, bitAt t.core 23 0 1)) =
      some (false, true) := by and_intros <;> decide +kernel

theorem test_has_PlainVectorWords : Ready (running .vec 0x5500140000000003 4 id) false ∧
    shapeValid (recordAt (put 20 0 64 [0x10000, 0x91, 64, 0, 0, 0, 4] hart.core) 20) = true ∧
    shapeValid (recordAt (put 20 0 64 [0x10000, 0x95, 64, 0, 0, 0, 4] hart.core) 20) = false ∧
    (∀ k, k < 10 → page.refusedPage (.word 0) (0x10000 + BitVec.ofNat 64 (8 * k)) = false ∧ ∃ attr, probe page (0x10000 + BitVec.ofNat 64 (8 * k)) 8 .read false =
      .ok (.dram (0x40000 + 8 * k), attr, page)) ∧
    ((loading id).core.q[3]).shape.isSome = true ∧ (hart.core.q[3]).shape = none ∧
    ((⟨3, 0⟩ : Remap).ok = false ∧ (⟨0, 0⟩ : Remap).ok = false ∧ (⟨2, 0⟩ : Remap).ok = true) ∧
    (hart.dev.ctx hart.ctxId).map hart.dev.audRoom = some true ∧ (0x10004 : Word).toNat % 8 ≠ 0 := by
  refine ⟨ready_of _ _ (by decide +kernel), by decide +kernel, by decide +kernel, fun k hk => ⟨?_, 0, ?_⟩, ?_, ?_, ?_, ?_, ?_⟩
  · revert k; decide +kernel
  · revert k; decide +kernel
  all_goals decide +kernel

/-- The bytes behind a `VSPEC` region: a held store, and the exit mask in `v1`. -/
def exiting (held : List Held) : State := running .vec 0x4210010000000000 4 fun c =>
  put 1 0 1 [0, 0, 1] { c with region := some { region false 3 with held := held } }

theorem test_has_RegionsHoldAndResolve : (exiting []).core.mode = .whole ∧ firstUse (exiting []).core.run = none ∧
    (exiting []).anyPoison = false ∧ (exiting []).core.run.vl.toNat ≤ rowLimit (exiting []).core.run.vtype ∧
    (exiting [⟨0, 1, 0x10004, .dram 0x40004, 32, false, 7⟩]).core.region.map (fun r => r.held.length) = some 1 ∧
    exitBound (exiting []).core ⟨false, 0, 1, 0, false⟩ true { region false 3 with held := [] } = 3 ∧
    heldSized ⟨0, 1, 0x10004, .dram 0x40004, 32, false, 7⟩ ∧
    ownerCheck ((exiting []).dev.frameEntry 4) (exiting []).ctxId true = none ∧
    firstBroken (memLimitsOf (storing fun c => { c with region := some (region false 0) }).core store4 false true (typeIn 3) [] true) =
      none ∧ (storing id).core.region = none := by
  refine ⟨?_, ?_, ?_, ?_, ?_, ?_, ?_, ?_, ?_, ?_⟩ <;> first | decide +kernel | (unfold heldSized; decide +kernel)

/-- A spoiled operand of an active element, of an element-wise word and of a word between lanes. -/
theorem test_has_ComputeWordsTrap_spoiled : firstBroken (laneLimits (running .vec wAdd 4 id).core
      (.vadd ⟨false, 6, 6, .vv 7, 0, false, .i32, .rne⟩)) = none ∧
    (∃ k, laneConsumes (running .vec wAdd 4 id).core (.vadd ⟨false, 6, 6, .vv 7, 0, false, .i32, .rne⟩) = some k ∧
      k.takes (running .vec wAdd 4 id).core 7 0 0) ∧
    ∃ k, rowConsumes (running .vec 0x2C01800004000000 4 id).core (.vredsum ⟨false, 12, 3, .vv 0, 0, false, .i32, .rne⟩) = some k ∧
      k.takes (running .vec 0x2C01800004000000 4 id).core 3 0 0 := by
  refine ⟨by decide +kernel, ⟨_, rfl, 0, 0, ?_, ?_, .inr ⟨?_, 0, ?_, rfl⟩⟩, ⟨_, rfl, 0, 0, ?_, ?_, .inr ⟨?_, 0, ?_, rfl⟩⟩⟩
  all_goals decide +kernel

/-- A `vxltff` that has stopped in a row that retired before. -/
def restopped : Core := { (translating [37, 20]).core with
  cntLive := true, lgs := .replicate 4 32, ffs := 0x900001, trim := some ⟨0, 0, 0, 1⟩ }

theorem test_has_AtomicsHashesAndTranslations_stopped : (translating [37, 20]).core.xltStopped = none ∧
    restopped.xltStopped = some (0, 1, 1) ∧ rowLeft restopped 0 = false := by decide +kernel

/-- An `mma.bf16` of one row into tile 0. -/
def mma1 : MatMul := ⟨4, 8, 0, false, 0, 0, .bf16⟩
def multiplying (vl : BitVec 15) (f : Core → Core) : State := running .mat 0x6200044014000000 vl f

theorem test_has_MatrixWords : MatReady (multiplying 4 id) ∧ (productOf (multiplying 4 id).core (.mma mma1)).isSome = true ∧
    firstBroken (productLimits (multiplying 1024 id).core (.mma mma1)) = none ∧
    firstBroken (productLimits (multiplying 1025 id).core (.mma mma1)) = some 2 ∧
    firstBroken (productLimits (multiplying 4 fun c => { c with wins := c.wins.set 0 ⟨0, 2044⟩ }).core (.mma mma1)) = none ∧
    firstBroken (productLimits (multiplying 4 fun c => { c with wins := c.wins.set 0 ⟨0, 2045⟩ }).core (.mma mma1)) = some 10 ∧
    firstUse { (multiplying 4 id).core.run with men := false } = some 0x15 ∧
    firstBroken (tileReadLimits (multiplying 4 id).core ⟨20, some 20, true, .bf16, .rdn, 1⟩) = some 6 ∧
    firstBroken (tileReadLimits (multiplying 4 id).core ⟨20, none, true, .bf16, .rdn, 1⟩) = none ∧
    firstBroken (tileWriteLimits (multiplying 4 id).core ⟨5, false, .sl, .rne, 2⟩) = some 1 ∧
    firstBroken (tileWriteLimits (multiplying 4 id).core ⟨5, false, .f32, .rne, 2⟩) = none := by
  refine ⟨matReady_of _ ?_, ?_, ?_, ?_, ?_, ?_, ?_, ?_, ?_, ?_, ?_⟩ <;> decide +kernel

/-- The example behind R81: one product 1.5 × 2 on a tile that holds 1 gives 4. -/
theorem test_mma_adds : (after (exec (.mma mma1) (multiplying 1 fun c =>
    put 4 0 16 [0x3FC0] (put 8 0 16 [0x4000] { c with tiles := c.tiles.set 0 ((c.tiles[0]).set 0 0x3F800000) })))).map
      (fun t => tileAt t.core.tiles[0] 0 0) = some 0x40800000 := by decide +kernel

/-- A projection of tile 1 with λ = 1. -/
def projecting (word : BitVec 64) (logits : List Nat) (f : Core → Core) : State :=
  running .mat word 4 fun c => f { c with
    tiles := c.tiles.set 1 ((c.tiles[1]).set 0 (BitVec.ofNat 65536 ((logits.zipIdx.map fun p => p.1 * 2 ^ (32 * p.2)).sum)))
    run := { c.run with slots := c.run.slots.set 2 0x3F80000000000000 } }

theorem test_has_PressWords : MatReady (projecting 0x6804000000020001 [] id) ∧
    (projection (projecting 0x6804000000020001 [] id).core (.vproj false 2 1)).map (fun x => x.2.2.2.2) = some true ∧
    (projection (projecting 0x680400078012003F [] id).core (.vprojs false 30 2 255 1)).map (fun x => x.2.2.2.2) = some true ∧
    (projection (projecting 0x680400078012003F [] id).core (.vprojs false 30 2 256 1)).map (fun x => x.2.2.2.2) =
      some false ∧
    windowFits (projecting 0x6804000000020001 [] id).core 1 = true ∧
    ((0x3F80000000000000 : Word).extractLsb' 0 32).toNat + 4 ≤ 0xFFFFFFFF := by
  refine ⟨matReady_of _ ?_, ?_, ?_, ?_, ?_, ?_⟩ <;> decide +kernel

/-- The first strip of Table 11-2. -/
theorem test_vprojs_table : (after (exec (.vprojs false 30 2 2 1)
    (projecting 0x680400078012008 [0x3F800000, 0x40400000, 0x40400000, 0x7FC00000] (put 30 0 32 [6])))).map
      (fun t => (((t.core.press.heap.getD 0 []).map fun e => (e.val.toNat, e.id.toNat)),
        imageAt t.core.press 0 0, imageAt t.core.press 0 1, imageAt t.core.press 0 5)) =
    some ([(0x40400000, 1), (0x40400000, 2), (0x3F800000, 0)], 0x40400000, 0x40100000, 0) := by decide +kernel

theorem test_press_fits : Press.clear.Fits := by
  refine ⟨by decide, ?_, by decide, by decide⟩
  decide +kernel

/-- The candidates behind Table 11-4 and its Press. -/
def drawing (u : Nat) : State := running .mat 0x6F0714A812050000 3 fun c =>
  put 20 0 32 [0x40A00000, 0x40400000, 0x40400000] <| put 21 0 32 [6, 1, 2] { c with
    press := { c.press with norm := c.press.norm.set 0 (0x40A00000, 0x3FFC0000) }
    run := { c.run with slots := c.run.slots.set 5 (BitVec.ofNat 64 u) } }

theorem test_has_DrawAndDarnerWords : MatReady (drawing 0) ∧
    (drawOf (.drawr false 24 20 21 .f32 15)).isSome = true ∧
    15 + (drawing 0).core.run.rc.toNat ≤ 16 ∧ Ready (running .vec 0x5900A10180000000 3 id) false ∧
    (darnWrites (running .vec 0x5900A10180000000 3 id).core (.mcscan ⟨false, 5, 1, 0, 6, 0, false⟩)).isSome = true ∧
    firstBroken (darnLimitsOf (running .vec 0x5900A10180000000 256 id).core (.mcscan ⟨false, 5, 1, 0, 6, 0, false⟩)) = none ∧
    firstBroken (darnLimitsOf (running .vec 0x5900A10180000000 257 id).core (.mcscan ⟨false, 5, 1, 0, 6, 0, false⟩)) =
      some 12 := by
  refine ⟨matReady_of _ ?_, ?_, ?_, ready_of _ _ ?_, ?_, ?_, ?_⟩ <;> decide +kernel

/-- Table 11-4. -/
theorem test_draw_table : gives (exec (.drawrn false 24 20 21 .f32 5) (drawing 0x800000)) 24 32 0 2 = some [6, 0] ∧
    gives (exec (.drawrn false 24 20 21 .f32 5) (drawing 0xA00000)) 24 32 0 2 = some [1, 1] ∧
    gives (exec (.drawrn false 24 20 21 .f32 5) (drawing 0xE00000)) 24 32 0 2 = some [0xFFFFFFFF, 3] ∧
    gives (exec (.drawr false 24 20 21 .f32 5) (drawing 0xE00000)) 24 32 0 2 = some [2, 2] := by
  and_intros <;> decide +kernel

/-- Table 11-5. -/
def scanning : State := running .vec 0x5900A10180000000 3 fun c =>
  put 1 0 8 [1, 255, 255] <| put 1 1 8 [0, 1, 255] <| put 1 2 8 [255, 0, 255] <| put 1 3 8 [1, 255, 255] <|
  put 1 4 8 [1, 255, 255] { c with run := { c.run with rc := 5 } }

theorem test_mcscan_table : (let r := exec (.mcscan ⟨false, 5, 1, 0, 6, 0, false⟩) scanning
    (List.range 5).map fun i => gives r 5 8 i 3) = [some [1, 255, 255], some [1, 255, 255], some [0, 255, 255],
      some [1, 255, 255], some [255, 255, 255]] ∧
    gives (exec (.mcscan ⟨false, 5, 1, 0, 6, 0, false⟩) scanning) 6 1 0 5 = some [0, 0, 0, 0, 1] := by
  and_intros <;> decide +kernel

/-! ## Worked examples of spec/03 and spec/08 -/

/-- Table 3-6: tree and ordered sums. -/
def summing : State := running .vec 0x2D01830012000000 5 (put 3 0 32 [0x3F800000, 0x4B800000, 0x3F800000, 0xCB800000, 0x40400000])
theorem test_float_sums : gives (exec (.vfredt ⟨false, 12, 3, .vv 0, 0, false, .f32, .rne⟩) summing) 12 32 0 1 =
      some [0x40800000] ∧
    gives (exec (.vfredo ⟨false, 12, 3, .vv 0, 0, false, .f32, .rne⟩) summing) 12 32 0 1 = some [0x40400000] := by
  and_intros <;> decide +kernel

/-- Table 8-9. -/
theorem test_vrgather_table : gives (exec (.vrgather ⟨false, 4, 8, 20, false, .i32, 1⟩) (running .vec 0x302088A004000000 4
    (put 8 0 32 [10, 11, 12, 13] ∘ put 9 0 32 [20, 21, 22, 23] ∘ put 20 0 16 [2, 5, 515, 1024]))) 4 32 0 4 =
      some [12, 0, 23, 0] := by decide +kernel

/-- Table 8-11. -/
def packing : State := running .vec 0x3980820796000009 2
  (put 2 0 32 [0x3FC00000, 0x4788B800] ∘ put 3 0 32 [0xC0000000, 0x7FC00000])
theorem test_vpack2_table :
    gives (exec (.vpack2 ⟨false, 4, 2, some 30, false, .f16, .rne, .f32⟩) packing) 4 64 0 1 = some [0x7E007BFFC0003E00] ∧
    gives (exec (.vpack2 ⟨false, 4, 2, some 30, false, .f16, .rne, .f32⟩) packing) 30 1 0 4 = some [0, 0, 1, 0] := by
  and_intros <;> decide +kernel

/-- Table 8-12. -/
def keeping : State := running .vec 0x3F00C201D4000000 8
  (put 2 0 16 [0x3F80, 0xC000, 0x4000, 0x4000, 0, 0, 0x8000, 0x40A0])
theorem test_vcprs4_table : gives (exec (.vcprs4 ⟨false, 6, 7, 2, .bf16⟩) keeping) 6 16 0 4 =
      some [0xC000, 0x4000, 0, 0x40A0] ∧
    gives (exec (.vcprs4 ⟨false, 6, 7, 2, .bf16⟩) keeping) 7 8 0 1 = some [0b11001001] := by and_intros <;> decide +kernel

/-- The worked values behind R84. -/
theorem test_vfrsqe_values : gives (exec (.vfrsqe ⟨false, 4, 2, .vv 0, 0, false, .f32, .rne⟩) (running .vec 0x1700820012000000 2
    (put 2 0 32 [0x3F800000, 0x40000000]))) 4 32 0 2 = some [0x3F7F0000, 0x3F340000] := by decide +kernel

/-- Table 10-4: 2^24, 1, 1, 1, −2^24 and 1 in the fixed tree give 3. -/
theorem test_cred_tree : credTree 0 .f32 ([0x4B800000, 0x3F800000, 0x3F800000, 0x3F800000, 0xCB800000, 0x3F800000].map
    fun x => bytesOf 4 x) = bytesOf 4 0x40400000 := by decide +kernel

/-- Table 4-2. -/
theorem test_walk_table : (walk (Memory.setNum (Memory.setNum (Memory.setNum [] 8 0x1000000010 0x1000010001) 8 0x1000010028
    0x1000020001) 8 0x1000020038 0x3456700B3) 0x1000000000 0x0800A0071234).map (fun l =>
      field l.entry 47 16 * 65536 + 0x1234) = some 0x0345671234 := by decide +kernel

/-! ## The queue image, observation, the device, the whole machine -/

/-- K mode with one word queued, and the state after its queues are saved at 0x10000. -/
def filled : State := { (mapped [0x10000, 1]) with core := kernel { (mapped [0x10000, 1]).core with vec := [entry wAdd 4] } }
noncomputable def emptied : State := (after (exec (.vqsave 0 1) filled)).getD filled

theorem test_has_QueueImageMoves : filled.core.kmode = true ∧ (filled.operand 1).toNat % 64 = 0 ∧
    (storeBytes 0x10000 filled.settleEngines.core.image filled.settleEngines).toOption.isSome = true ∧
    emptied.core.drained = true ∧ emptied.core.history = 0 ∧
    (match loadBytes 0x10000 64 emptied with
      | .ok (hd, t) => headerOk hd 1 && decide (t = emptied)
      | .error _ => false) = true ∧
    (match loadBytes 0x10040 32 emptied with
      | .ok (bs, t) => (loadedAt bs 0).po == 0 && decide (t = emptied) && (loadedAt bs 0).word == wAdd
      | .error _ => false) = true ∧
    (loadBytes 0x10060 0 emptied).toOption = some ([], emptied) ∧ filled.core.drained = false ∧
    ({ emptied.core with saved := [] } : Core).saved = [] ∧ emptied.core.saved.map (fun y => (y.prov, y.word, y.eseq == emptied.core.eseq)) =
      [(0x2000, wAdd, true)] := by
  and_intros <;> decide +kernel

/-- `VQSAVE` and `VQLOAD` are inverse on one word (R210). -/
theorem test_vqsave_vqload : emptied.core.vec = [] ∧
    ((after (exec (.vqload 1 2) emptied)).map fun t => t.core.vec.map fun e => (e.word, e.prov, e.vl, e.parked)) =
      some [(wAdd, 0x2000, 4, true)] := by and_intros <;> decide +kernel

/-- A counter bank of core 0 for context 1, and a trace unit of cluster 0 with these records waiting. -/
def observed (owner : Option ObsFunc) (waiting : List (Option Nat × Record)) (run : Nat) : State := hart.withDev fun d => { d with
  banks := [⟨0, 0x801, .replicate 8 0, owner, none⟩]
  tracers := [{ Tracer.fresh 0 with owner := owner, waiting := waiting, base := 0x80000, lostRun := run }] }

theorem test_has_ObservationUnits : (((observed none [] 0).cores.map Core.num).Nodup ∧
      (observed none [] 0).dev.bankOf 0 = ⟨0, 0x801, .replicate 8 0, none, none⟩ ∧
      ((0x801 : Word).getLsbD 41, (0x801 : Word).getLsbD 11, (0x801 : Word).extractLsb' 0 11) = (false, true, 1) ∧
      ((observed none [] 0).findCore 0).map (observed none [] 0).ctxOf = some 1) ∧
    ((0x8010000000000005 : Word).getLsbD 63 = true ∧ (0x8000100000000005 : Word).extractLsb' 44 16 = 1 ∧
      knownEvent 1 = true ∧ knownEvent 7 = false) ∧
    (0x80001FFFFFFFFFFF : Word).extractLsb' 0 44 = 0xFFFFFFFFFFF ∧ (0x80001FFFFFFFFFFF : Word).extractLsb' 61 2 = 0 ∧
    ((observed none [(none, .replicate 8 5), (some 0, .replicate 8 6)] 0).dev.tracer 0).map (fun u =>
      (u.waiting.map Prod.fst, u.lostRun, decide ((u.prod + 1) % 64 = 65 % 64))) = some ([none, some 0], 0, true) ∧
    ((observed none [] 3).dev.tracer 0).map (fun u => (u.waiting, u.lostRun, decide ((u.prod + 1) % 64 ≠ 0))) =
      some ([], 3, true) ∧
    ((({ hart.dev with pfObs := 0x2000000000000000 } : Device).obs .pf).extractLsb' 61 3 = 1 ∧ (hart.dev.obs .pf).extractLsb' 61 3 ≠ 1 ∧ (hart.dev.obs (.vf 0)).extractLsb' 61 3 ≠ 1 ∧
      (hart.dev.ctx 1).map Ctx.vf = some 0 ∧ hart.dev.boot.getLsbD 2 = false) ∧
    (hart.dev.split.getLsbD 5 = false ∧ (0x20 : Word).getLsbD 5 = true ∧ hart.dev.asked = []) ∧
    ((observed (some (.vf 0)) [] 0).dev.bankOf 0).owner = some (.vf 0) ∧
    ((observed (some (.vf 0)) [] 0).dev.tracerOf 0).owner = some (.vf 0) ∧ (hart.dev.tracerOf 0).owner = none := by
  and_intros <;> decide +kernel

/-- A boot whose images are readable. -/
def booting (starts : Bool) : BootReport :=
  { firmwareA := ⟨true⟩, kernelA := ⟨true⟩, firmwareB := ⟨true⟩, kernelB := ⟨true⟩, starts := starts, dies := 0, seams := 0
    ports := 0 }

/-- Flash with this image in all its places. -/
def flashed (x : List Byte) : Device :=
  { hart.dev with flash := [(false, false, x), (false, true, x), (true, false, x), (true, true, x)] }

/-- Whether a signature holds and which version an image has are free values (log 9): with an image in flash that is good by them, a boot from slot A and,
where its images are unreadable, from slot B meet the hypotheses; without an image in flash neither slot does. -/
theorem test_has_DeviceKeepsItsRegisters_boot (x : List Byte) (h : Config.mlDsaGood x = true)
    (hv : Config.minVersion ≤ Config.imageVersion x) :
    (∀ b k, ∃ f, (flashed x).flash.find? (fun f => f.1 == b && f.2.1 == k) = some f ∧ Config.mlDsaGood f.2.2 = true ∧
      Config.minVersion ≤ Config.imageVersion f.2.2) ∧ (booting true).firmwareA.readable = true ∧
    (booting true).starts = true ∧ (booting true).dies = 0 ∧
    ¬ ({ booting true with firmwareA := ⟨false⟩ } : BootReport).firmwareA.readable = true ∧
    hart.dev.flash = [] := by
  refine ⟨fun b k => ?_, rfl, rfl, rfl, by decide, by decide +kernel⟩
  cases b <;> cases k <;> exact ⟨_, rfl, h, hv⟩

theorem test_has_DeviceKeepsItsRegisters : hart.dev.boot.getLsbD 2 = false ∧ (4 : Word).getLsbD 2 = true ∧
    (∀ k ∈ hart.dev.keys, k.1 ≠ 0) ∧ (∃ p ∈ hart.dev.frames, (p.2.extractLsb' 11 10).toNat = 0 ∧ p.1 = 4) ∧
    (hart.dev.ctx 1).map (fun c => (hart.dev.loadPieces c 0 0x30000 [] []).isSome) = some true ∧
    (hart.dev.ctx 1).map Ctx.auditRecs = some 0 ∧ (0 : Word).getLsbD 16 = false ∧ hart.dev.dram.wf = true := by
  refine ⟨?_, ?_, ?_, ⟨(4, 1), ?_, ?_, ?_⟩, ?_, ?_, ?_, ?_⟩ <;> decide +kernel

/-- A checkpoint 7 of context 1, still open or complete. -/
def held (open_ taken : Bool) : State := { State.reset with dev := { hart.dev with
  ckptOpen := if open_ then [7] else []
  ckpts := [⟨7, [1], [⟨4, 1, [], [], none⟩], [], [], [], taken, false⟩]
  gangs := [] } }

/-- Context 1 on its way, under an agreed key, with what has arrived for it. -/
def moving (arrived : Bool) : State :=
  let x : Carried := ⟨1, [], [], [], [], [], 0, 0, 0, [], 0, 0, [], [], 0, 0, false, [], []⟩
  { State.reset with dev := { hart.dev with moves := [⟨1, some 5, [], if arrived then some x else none⟩], arrivals := [x] } }

theorem test_has_CheckpointsAndMigration : (∀ c ∈ (held true false).cores, c.placed = true → (held true false).ctxOf c ∉ [1]) ∧
    ¬ (∀ c ∈ hart.cores, c.placed = true → hart.ctxOf c ∉ [1]) ∧ 7 ∉ (held false true).dev.ckptOpen ∧
    7 ∈ (held true true).dev.ckptOpen ∧ (held false true).dev.ckpts.all (held false true).dev.mayRestore = true ∧
    (held true true).dev.ckpts.all (held true true).dev.mayRestore = false ∧
    (∀ g ∈ (held false true).dev.gangs, g.st = .ended) ∧ ((held false true).dev.frames.map Prod.fst).Pairwise (· < ·) ∧
    ((held false true).dev.frameEntry 4).extractLsb' 0 11 ∈ [1].map (BitVec.ofNat 11) ∧
    hart.dev.boot.getLsbD 2 = false ∧ hart.dev.sealedOf 1 = [] ∧ hart.dev.mayTake 9 = true ∧ hart.dev.tracers = [] ∧
    (hart.dev.split.getLsbD 3 = false ∧ hart.dev.split.getLsbD 4 = false ∧ (0x18 : Word).getLsbD 3 = true ∧
      (0x18 : Word).getLsbD 4 = true ∧ hart.dev.asked = [] ∧ hart.dev.moveOf 1 = none) ∧
    (let d := { hart.dev with asked := [.checkpoint 3, .attestation 1 5 [4]] }
     hart.dev.attestAsks = [] ∧ d.attestAsks = [(1, 5, [4])] ∧ d.boot.getLsbD 2 = false ∧ (d.ctx 1).isSome = true ∧ d.sealedOf 1 = []) := by
  and_intros <;> decide +kernel

theorem test_has_CheckpointsAndMigration_moves :
    (∀ c ∈ (moving false).cores, c.placed = true → (moving false).ctxOf c ∉ [1]) ∧
    ((moving false).dev.moveOf 1).map (fun m => (m.key, m.state)) = some (some 5, none) ∧
    (((moving true).dev.moveOf 1).bind Move.state).map (moving true).dev.roomFor = some true ∧
    (((moving true).dev.moveOf 1).bind Move.state).map (fun x => (moving true).dev.roomFor { x with traces := .replicate 25 (Tracer.fresh 0) }) =
      some false ∧
    ((moving false).dev.arrivals.find? fun x => x.ctx == 1).isSome = true ∧ (moving false).dev.mayTake 9 = true ∧
    (moving false).dev.holds 9 = false ∧ ((moving false).dev.ctx 1).map (fun c => decide ((moving false).dev.keyOf c < 1024)) =
      some true ∧ ((moving false).dev.frameEntry 4).extractLsb' 0 11 = 1 ∧ ((moving false).dev.frameEntry 4).getLsbD 23 = false ∧
    (moving true).dev.gangs.length + (moving true).dev.gangs.length < 65536 := by and_intros <;> decide +kernel

theorem test_has_EveryStepKeepsMemoryCanonical : hart.memOk = true ∧
    (after (exec .nop hart)).isSome = true ∧ State.reset.memOk = true := by and_intros <;> decide +kernel

theorem test_has_EveryStepKeepsStatusLegal : hart.legal = true ∧ State.reset.legal = true ∧
    (with_ fun c => { c with hstat := 0x20 }).legal = false ∧
    (with_ fun c => { c with t := { c.t with tdbg := 3 } }).legal = false := by and_intros <;> decide +kernel

/-- From the word to its effect in one step: `addi s5, s0, 7`. -/
theorem test_step_addi : (after (step (State.reset.withFetchWord 32 0x0CA00007))).map (fun t => (t.core.s[5], t.core.pc)) =
    some (7, 0x10004) := by decide +kernel

/-- A vector word in one step: `vidx.n32 v3` writes nothing at `vl` = 0 and leaves its queue. -/
theorem test_step_vidx : (after (step (State.reset.withFetchWord 64 0x2B0060000C000000))).map (fun t => t.core.vec.length) =
    some 0 := by decide +kernel

/-- At reset nothing is placed, and a step leaves the machine as it is but for the plan. -/
theorem test_step_reset : (after (step State.reset)).map (fun t => (t.core.placed, t.dev.dram.length)) =
    some (false, 0) := by decide +kernel

end Sys2Proof.Tests
end

/-! PROOFS. The two invariants of the whole machine, carried through every step. A lemma `T.Sound.f` says that the model's
function `f` keeps a sound `T` sound; a lemma `f_sound` says it of a word, an event or a turn, whose outcome is a `Result`. -/

namespace Sys2Proof.Machine

/-! ## What is kept -/

/-- The two invariants: memories in canonical form, and legal status and trap words. Each is proved alone, by one walk through
the model. -/
inductive Inv where
  | memory
  | status

/-- What an invariant asks of a memory. -/
def Memory.Sound (k : Inv) (m : Memory) : Prop :=
  match k with
  | .memory => m.wf = true
  | .status => True

/-- `hstat`, `tvec` and `tdbg` as `Core.legal` asks for them. -/
def statusLegal (hstat tvec tdbg : Word) : Bool :=
  hstat &&& ~~~0x5F#64 == 0 && tvec &&& ~~~0x7FFFFFFFFFFFFC#64 == 0 && tdbg &&& ~~~0xF#64 == 0 && tdbg &&& 3 != 3

/-- What an invariant asks of status and trap words. -/
def StatusSound (k : Inv) (hstat tvec tdbg : Word) : Prop :=
  match k with
  | .memory => True
  | .status => statusLegal hstat tvec tdbg = true

/-- What an invariant asks of a core: it reads the scratchpad and three words, and no other field. -/
def Core.Sound (k : Inv) (c : Core) : Prop :=
  Memory.Sound k c.spad ∧ StatusSound k c.hstat c.t.tvec c.t.tdbg

/-- Every core of a list is sound. -/
def CoresSound (k : Inv) (l : List Core) : Prop := ∀ c ∈ l, c.Sound k

def Ckpt.Sound (k : Inv) (x : Ckpt) : Prop := CoresSound k x.harts
def Carried.Sound (k : Inv) (x : Carried) : Prop := CoresSound k x.harts
def Move.Sound (k : Inv) (m : Move) : Prop := ∀ x ∈ m.state, x.Sound k

/-- What an invariant asks of the device: of its memories, and of the harts that stand in it. -/
def Device.Sound (k : Inv) (d : Device) : Prop :=
  Memory.Sound k d.dram ∧ Memory.Sound k d.host ∧ CoresSound k d.saved ∧ (∀ x ∈ d.ckpts, x.Sound k) ∧
    (∀ x ∈ d.arrivals, x.Sound k) ∧ ∀ m ∈ d.moves, m.Sound k

/-- What an invariant asks of the machine. -/
def State.Sound (k : Inv) (s : State) : Prop := s.core.Sound k ∧ CoresSound k s.rest ∧ s.dev.Sound k

/-- The next state of an outcome, if there is one, is sound. -/
def Result.Sound (k : Inv) : Result → Prop
  | .next t => t.Sound k
  | .fault _ | .refused _ => True

/-- What a computation that can stop gives, if it gives anything. -/
def Gives {ε α : Type} (P : α → Prop) : Except ε α → Prop
  | .ok a => P a
  | .error _ => True

variable {k : Inv} {m : Memory} {c c' : Core} {d d' : Device} {s t : State}

/-! ## The invariants are those of the obligations -/

theorem Core.sound_memory : c.Sound .memory ↔ c.memOk = true := by
  simp [Core.Sound, Memory.Sound, StatusSound, Core.memOk]

theorem Core.sound_status : c.Sound .status ↔ c.legal = true := by
  simp [Core.Sound, Memory.Sound, StatusSound, statusLegal, Core.legal]

/-- Contexts on their way are those that arrive and those received. -/
theorem Device.forall_onTheWay {P : Carried → Prop} : (∀ x ∈ d.onTheWay, P x) ↔
    (∀ x ∈ d.arrivals, P x) ∧ ∀ m ∈ d.moves, ∀ x ∈ m.state, P x := by
  simp only [Device.onTheWay, List.mem_append, List.mem_filterMap, Option.mem_def]
  constructor
  · intro h
    exact ⟨fun x hx => h x (.inl hx), fun m hm x hx => h x (.inr ⟨m, hm, hx⟩)⟩
  · rintro ⟨h1, h2⟩ x (hx | ⟨m, hm, hx⟩)
    · exact h1 x hx
    · exact h2 m hm x hx

theorem State.sound_memory : s.Sound .memory ↔ s.memOk = true := by
  have hway := Device.forall_onTheWay (d := s.dev) (P := fun x => CoresSound .memory x.harts)
  simp only [State.Sound, Device.Sound, State.memOk, Bool.and_eq_true, Memory.Sound, Ckpt.Sound, Carried.Sound, Move.Sound,
    ← hway, ← Core.sound_memory, List.all_eq_true]
  tauto

theorem State.sound_status : s.Sound .status ↔ s.legal = true := by
  have hway := Device.forall_onTheWay (d := s.dev) (P := fun x => CoresSound .status x.harts)
  simp only [State.Sound, Device.Sound, State.legal, Bool.and_eq_true, Memory.Sound, Ckpt.Sound, Carried.Sound, Move.Sound,
    ← hway, ← Core.sound_status, List.all_eq_true]
  tauto

end Sys2Proof.Machine

namespace Sys2Proof.Machine

variable {k : Inv} {m : Memory} {c c' : Core} {d d' : Device} {s t : State}

/-! ## Memories -/

theorem Memory.Sound.nil : Memory.Sound k [] := by cases k <;> trivial

theorem Memory.Sound.set {a : Nat} {b : Byte} (h : m.Sound k) : (m.set a b).Sound k :=
  match k with
  | .memory => Memory.wf_set h a b
  | .status => trivial

theorem Memory.Sound.write {a : Nat} {bs : List Byte} (h : m.Sound k) : (m.write a bs).Sound k :=
  match k with
  | .memory => Memory.wf_write bs h a
  | .status => trivial

theorem Memory.Sound.setNum {n a v : Nat} (h : m.Sound k) : (m.setNum n a v).Sound k := h.write

theorem Memory.Sound.clear {a n : Nat} (h : m.Sound k) : (m.clear a n).Sound k :=
  match k with
  | .memory => Memory.wf_clear h a n
  | .status => trivial

theorem Memory.Sound.copyRange {src : Memory} {a b n : Nat} (h : m.Sound k) : (src.copyRange a m b n).Sound k :=
  match k with
  | .memory => Memory.wf_copyRange h a b n
  | .status => trivial

/-! ## Lists of cores -/

theorem CoresSound.nil : CoresSound k [] := by simp [CoresSound]

theorem CoresSound.cons {l : List Core} (h : c.Sound k) (hl : CoresSound k l) : CoresSound k (c :: l) :=
  List.forall_mem_cons.mpr ⟨h, hl⟩

theorem CoresSound.append {l l' : List Core} (h : CoresSound k l) (h' : CoresSound k l') : CoresSound k (l ++ l') :=
  List.forall_mem_append.mpr ⟨h, h'⟩

theorem CoresSound.filter {l : List Core} {p : Core → Bool} (h : CoresSound k l) : CoresSound k (l.filter p) :=
  fun _ hc => h _ (List.mem_of_mem_filter hc)

theorem CoresSound.map {l : List Core} {f : Core → Core} (h : CoresSound k l) (hf : ∀ c, c.Sound k → (f c).Sound k) :
    CoresSound k (l.map f) :=
  List.forall_mem_map.mpr fun c hc => hf c (h c hc)

theorem CoresSound.find? {l : List Core} {p : Core → Bool} (h : CoresSound k l) (hc : l.find? p = some c) : c.Sound k :=
  h c (List.mem_of_find?_eq_some hc)

/-! ## Folds, choices and outcomes -/

/-- A choice between two values that meet a predicate. -/
theorem ite_keeps {α : Type} {P : α → Prop} {p : Prop} [Decidable p] {x y : α} (hx : P x) (hy : P y) :
    P (if p then x else y) := by
  split
  · exact hx
  · exact hy

/-- What is asked of the value that may be there holds of none. -/
theorem none_keeps {α : Type} {P : α → Prop} : ∀ x ∈ (none : Option α), P x := fun x hx =>
  absurd hx (Option.not_mem_none x)

theorem some_keeps {α : Type} {P : α → Prop} {a : α} (h : P a) : ∀ x ∈ some a, P x := fun _ hx =>
  Option.some.inj hx ▸ h

theorem ite_some_keeps {α : Type} {P : α → Prop} {p : Prop} [Decidable p] {a : α} (h : P a) :
    ∀ x ∈ if p then some a else none, P x :=
  ite_keeps (P := fun o : Option α => ∀ x ∈ o, P x) (some_keeps h) none_keeps

theorem map_keeps {α β : Type} {P : β → Prop} {o : Option α} {f : α → β} (h : ∀ a ∈ o, P (f a)) :
    ∀ b ∈ o.map f, P b := by
  intro b hb
  obtain ⟨a, ha, rfl⟩ := Option.mem_map.mp hb
  exact h a ha

theorem bind_keeps {α β : Type} {P : β → Prop} {o : Option α} {f : α → Option β} (h : ∀ a ∈ o, ∀ b ∈ f a, P b) :
    ∀ b ∈ o.bind f, P b := by
  intro b hb
  obtain ⟨a, ha, hb⟩ := Option.bind_eq_some_iff.mp hb
  exact h a ha b hb

theorem getD_keeps {α : Type} {P : α → Prop} {o : Option α} {a : α} (ho : ∀ x ∈ o, P x) (ha : P a) : P (o.getD a) :=
  match o with
  | some x => ho x rfl
  | none => ha

theorem Gives.bind {ε α β : Type} {P : α → Prop} {Q : β → Prop} {x : Except ε α} {f : α → Except ε β}
    (h : Gives P x) (hf : ∀ a, P a → Gives Q (f a)) : Gives Q (x >>= f) :=
  match x with
  | .ok a => hf a h
  | .error _ => trivial

/-- A value that a computation gives meets what the computation promises. -/
theorem Gives.of_eq {ε α : Type} {P : α → Prop} {x : Except ε α} {a : α} (h : Gives P x) (hx : x = .ok a) : P a := by
  subst hx
  exact h

theorem Result.Sound.of_eq {r : Result} (h : Result.Sound k r) (hr : r = .next t) : t.Sound k := by
  subst hr
  exact h

/-! ## Parts of the state -/

theorem State.Sound.core (h : s.Sound k) : s.core.Sound k := h.1
theorem State.Sound.rest (h : s.Sound k) : CoresSound k s.rest := h.2.1
theorem State.Sound.dev (h : s.Sound k) : s.dev.Sound k := h.2.2

theorem Device.Sound.dram (h : d.Sound k) : Memory.Sound k d.dram := h.1
theorem Device.Sound.host (h : d.Sound k) : Memory.Sound k d.host := h.2.1
theorem Device.Sound.saved (h : d.Sound k) : CoresSound k d.saved := h.2.2.1
theorem Device.Sound.ckpts (h : d.Sound k) : ∀ x ∈ d.ckpts, x.Sound k := h.2.2.2.1
theorem Device.Sound.arrivals (h : d.Sound k) : ∀ x ∈ d.arrivals, x.Sound k := h.2.2.2.2.1
theorem Device.Sound.moves (h : d.Sound k) : ∀ m ∈ d.moves, m.Sound k := h.2.2.2.2.2

theorem Device.Sound.setDram (h : d.Sound k) (hm : m.Sound k) : ({ d with dram := m } : Device).Sound k :=
  ⟨hm, h.host, h.saved, h.ckpts, h.arrivals, h.moves⟩
theorem Device.Sound.setHost (h : d.Sound k) (hm : m.Sound k) : ({ d with host := m } : Device).Sound k :=
  ⟨h.dram, hm, h.saved, h.ckpts, h.arrivals, h.moves⟩
theorem Device.Sound.setSaved {l : List Core} (h : d.Sound k) (hl : CoresSound k l) :
    ({ d with saved := l } : Device).Sound k :=
  ⟨h.dram, h.host, hl, h.ckpts, h.arrivals, h.moves⟩
theorem Device.Sound.setCkpts {l : List Ckpt} (h : d.Sound k) (hl : ∀ x ∈ l, x.Sound k) :
    ({ d with ckpts := l } : Device).Sound k :=
  ⟨h.dram, h.host, h.saved, hl, h.arrivals, h.moves⟩

theorem Core.Sound.setSpad (h : c.Sound k) (hm : m.Sound k) : ({ c with spad := m } : Core).Sound k := ⟨hm, h.2⟩

theorem State.Sound.setCore (h : s.Sound k) (hc : c.Sound k) : ({ s with core := c } : State).Sound k := ⟨hc, h.rest, h.dev⟩
theorem State.Sound.setDev (h : s.Sound k) (hd : d.Sound k) : ({ s with dev := d } : State).Sound k := ⟨h.core, h.rest, hd⟩

theorem State.Sound.withCore {f : Core → Core} (h : s.Sound k) (hf : (f s.core).Sound k) : (s.withCore f).Sound k :=
  h.setCore hf
theorem State.Sound.withDev {f : Device → Device} (h : s.Sound k) (hf : (f s.dev).Sound k) : (s.withDev f).Sound k :=
  h.setDev hf

theorem State.Sound.updCore {n : Nat} {f : Core → Core} (h : s.Sound k) (hf : ∀ c, c.Sound k → (f c).Sound k) :
    (s.updCore n f).Sound k := by
  unfold State.updCore
  split
  · exact h.setCore (hf _ h.core)
  · exact ⟨h.core, h.rest.map fun c hc => ite_keeps (hf c hc) hc, h.dev⟩

theorem State.Sound.focus {n : Nat} (h : s.Sound k) : (s.focus n).Sound k := by
  unfold State.focus
  split
  · exact h
  · split
    · exact h
    · next c hc => exact ⟨h.rest.find? hc, h.rest.filter.append (CoresSound.nil.cons h.core), h.dev⟩

/-! ## The Last's registers -/

theorem State.Sound.writeS {r : BitVec 5} {v : Word} (h : s.Sound k) : (writeS s r v).Sound k := by
  unfold Machine.writeS
  exact ite_keeps h h
theorem State.Sound.advance (h : s.Sound k) : s.advance.Sound k := h
theorem State.Sound.jump {a : Word} (h : s.Sound k) : (s.jump a).Sound k := h
theorem State.Sound.writeNext {r : BitVec 5} {v : Word} (h : s.Sound k) : (writeNext s r v).Sound k := h.writeS.advance
theorem State.Sound.stall (h : s.Sound k) : s.stall.Sound k := h

/-! ## Registers and records of the device -/

theorem Device.Sound.putBytes {a : Nat} {bs : List Byte} (h : d.Sound k) : (d.putBytes a bs).Sound k := h.setDram h.dram.write
theorem Device.Sound.putRecord {a : Nat} {r : Record} (h : d.Sound k) : (d.putRecord a r).Sound k := h.putBytes
theorem Device.Sound.updFunc {n : Nat} {g : Func → Func} (h : d.Sound k) : (d.updFunc n g).Sound k := by
  unfold Device.updFunc
  exact ite_keeps h h
theorem Device.Sound.updTracer {n : Nat} {f : Tracer → Tracer} (h : d.Sound k) : (d.updTracer n f).Sound k := h
theorem Device.Sound.putTracer {x : Tracer} (h : d.Sound k) : (d.putTracer x).Sound k := h
theorem Device.Sound.updCtx {n : Nat} {f : Ctx → Ctx} (h : d.Sound k) : (d.updCtx n f).Sound k := h
theorem Device.Sound.updGang {n : BitVec 16} {f : Gang → Gang} (h : d.Sound k) : (d.updGang n f).Sound k := h
theorem Device.Sound.putBank {b : Bank} (h : d.Sound k) : (d.putBank b).Sound k := h
theorem Device.Sound.stamp (h : d.Sound k) : d.stamp.2.Sound k := h

theorem Device.Sound.tracePush {cl : Nat} {r : Record} (h : d.Sound k) : (d.tracePush cl r).Sound k := by
  unfold Device.tracePush
  split
  · exact h
  · exact h.putRecord.updTracer

theorem Device.Sound.traceOwed {cl : Nat} (h : d.Sound k) : (d.traceOwed cl).Sound k := by
  unfold Device.traceOwed
  split
  · exact h
  · exact ite_keeps h h.stamp.tracePush.updTracer

theorem Device.Sound.traceWrite {cl : Nat} {n : Option Nat} {r : Record} (h : d.Sound k) : (d.traceWrite cl n r).Sound k := by
  unfold Device.traceWrite
  extract_lets d'
  have h' : d'.Sound k := h.traceOwed
  split
  · exact h'
  · exact ite_keeps h'.tracePush (ite_keeps h'.updTracer h'.updTracer)

theorem Device.Sound.traceFlush {cl : Nat} (h : d.Sound k) : (d.traceFlush cl).Sound k := by
  unfold Device.traceFlush
  extract_lets d'
  have h' : d'.Sound k := h.traceOwed
  split
  · exact h'
  · next t _ => exact List.foldlRecOn t.waiting _ h'.updTracer fun d hd _ _ => Device.Sound.traceWrite hd

theorem Device.Sound.traceCons {cl n : Nat} (h : d.Sound k) : (d.traceCons cl n).Sound k := h.putTracer.traceFlush

theorem Device.Sound.traceReg {cl n : Nat} {v : Word} (h : d.Sound k) : (d.traceReg cl n v).Sound k := by
  unfold Device.traceReg
  split
  case h_3 => exact h.traceCons
  case h_5 => exact h
  all_goals exact h.putTracer

/-- A register write changes a bank at most. The definition is unfolded apart from its arguments: with them in place the
kernel would go on to evaluate `regAt pa`, which subtracts the base of the register space from a variable. -/
theorem Device.Sound.putReg {n pa : Nat} {v : Word} (h : d.Sound k) : (d.putReg n pa v).Sound k := by
  generalize hF : @Device.putReg = F
  delta Device.putReg at hF
  subst hF
  dsimp only
  generalize regAt pa = r
  cases r with
  | bank a b => exact h.putBank
  | trace a b => exact h
  | other => exact h

theorem State.Sound.putRegs {n : Nat} : ∀ {i pa : Nat} {bs : List Byte} {s : State}, s.Sound k →
    (State.putRegs n i pa bs s).Sound k
  | 0, _, _, _, h => h
  | i + 1, _, _, _, h => by
    unfold State.putRegs
    exact ite_keeps h (State.Sound.putRegs (h.setDev h.dev.putReg))

theorem State.Sound.setBytes {p : Place} {bs : List Byte} (h : s.Sound k) : (s.setBytes p bs).Sound k := by
  unfold State.setBytes
  extract_lets s'
  have h' : s'.Sound k := ite_keeps (h.withCore h.core) h
  clear_value s'
  cases p with
  | dram a => exact h'.withDev (h'.dev.setDram h'.dev.dram.write)
  | host a => exact h'.withDev (h'.dev.setHost h'.dev.host.write)
  | spad a => exact h'.withCore (h'.core.setSpad h'.core.1.write)
  | reg a => exact h'.putRegs

theorem State.Sound.writePlace {p : Place} {n v : Nat} (h : s.Sound k) : (s.writePlace p n v).Sound k := h.setBytes

theorem State.Sound.settlePoison (h : s.Sound k) : s.settlePoison.Sound k := by
  unfold State.settlePoison
  exact ite_keeps h h

theorem State.Sound.spoil {p : Place} (h : s.Sound k) : (s.spoil p).Sound k := by
  cases p <;> exact h

/-! ## Translation -/

theorem State.Sound.mark {l : Leaf} {a : Acc} (h : s.Sound k) : (s.mark l a).Sound k := by
  unfold State.mark
  exact ite_keeps h (h.withDev (h.dev.setDram h.dev.dram.setNum))

theorem Device.Sound.hostTranslate {pasid page x : Nat} (h : d.Sound k) (hd : d.hostTranslate pasid page = some (x, d')) :
    d'.Sound k := by
  obtain ⟨l, rfl⟩ := Device.hostTranslate_frame hd
  exact h

/-- An access that reaches its place leaves a sound state: it sets bits of a leaf, and may keep a host translation. -/
theorem State.Sound.reach {g : Gang} {l : Leaf} {a : Nat} {q : Acc} {spec : Bool} (h : s.Sound k) :
    Gives (fun x => x.2.2.Sound k) (reach s g l a q spec) := by
  cases hr : Machine.reach s g l a q spec with
  | error => trivial
  | ok x =>
    obtain ⟨p, attr, t⟩ := x
    obtain ⟨c, rfl⟩ := Machine.reach_ok hr
    exact h.withDev ⟨h.dev.1, h.dev.2⟩

theorem State.Sound.probe {va : Word} {n : Nat} {q : Acc} {spec : Bool} (h : s.Sound k) :
    Gives (fun x => x.2.2.Sound k) (probe s va n q spec) := by
  unfold Machine.probe
  extract_lets a
  split
  · trivial
  · split
    · trivial
    · next g _ =>
      split
      · next p _ =>
        cases hp : Pin.reach p s g a q with
        | error => trivial
        | ok x =>
          obtain ⟨y, attr, t⟩ := x
          rw [Pin.reach_ok hp]
          exact h
      · split
        · trivial
        · split
          · trivial
          · exact h.mark.reach

theorem State.Sound.probeFor {o : Owner} {va : Word} {n : Nat} {q : Acc} {spec : Bool} (h : s.Sound k) :
    Gives (fun x => x.2.2.Sound k) (probeFor s o va n q spec) := by
  unfold Machine.probeFor
  exact ite_keeps trivial h.probe

theorem State.Sound.touched {va : Word} {n : Nat} {q : Acc} (h : s.Sound k) : (s.touched va n q).Sound k := by
  unfold State.touched
  refine ite_keeps h ?_
  split
  · exact h
  · split
    · exact h
    · exact h.mark

theorem State.Sound.pin {va : Word} {q : Acc} {p : Place} {attr : Nat} (h : s.Sound k) : (s.pin va q p attr).Sound k := by
  unfold State.pin
  exact ite_keeps h (h.withCore h.core)

/-! ## Records -/

theorem Device.Sound.pushRaw {x : Ctx} {r : Record} (h : d.Sound k) : (d.pushRaw x r).Sound k :=
  h.putRecord.setDram h.putRecord.dram.setNum

theorem Device.Sound.payLost {n : Nat} (h : d.Sound k) : (d.payLost n).Sound k := by
  unfold Device.payLost
  split
  · exact h
  · exact ite_keeps h h.stamp.pushRaw.updCtx

theorem Device.Sound.tryPush {n : Nat} {r : Record} (h : d.Sound k) : ∀ x ∈ d.tryPush n r, x.Sound k := by
  unfold Device.tryPush
  extract_lets d'
  have h' : d'.Sound k := h.payLost
  split
  · exact some_keeps ⟨h'.1, h'.2⟩
  · split
    · exact none_keeps
    · exact some_keeps h'.pushRaw.updCtx

theorem Device.Sound.pushOrWait {n : Nat} {r : Record} (h : d.Sound k) : (d.pushOrWait n r).Sound k := by
  unfold Device.pushOrWait
  split
  · next x hx => exact h.tryPush x hx
  · exact h.updCtx

theorem Device.Sound.pushAll {n : Nat} : ∀ {l : List Record} {d : Device}, d.Sound k → ∀ x ∈ d.pushAll n l, x.Sound k
  | [], _, h => some_keeps h
  | r :: rs, d, h => by
    unfold Device.pushAll
    split
    · exact none_keeps
    · next x hx => exact Device.Sound.pushAll (h.tryPush x hx)

theorem State.Sound.stamp (h : s.Sound k) : s.stamp.2.Sound k := h

theorem State.Sound.stamps {n : Nat} (h : s.Sound k) : (s.stamps n).2.Sound k := by
  induction n generalizing s with
  | zero => exact h
  | succ n ih => exact ih h.stamp

theorem State.Sound.trace {ty en : Nat} {pc prov data extra : Word} (h : s.Sound k) :
    (s.trace ty en pc prov data extra).Sound k := by
  unfold State.trace
  split
  · exact h
  · next t _ =>
    extract_lets wants s'
    have h' : s'.Sound k := by
      unfold s'
      split
      · exact ite_keeps (h.withDev h.dev.updTracer) h
      · exact h
    exact ite_keeps (h'.stamp.withDev h'.stamp.dev.traceWrite) h'

/-! ## Queues -/

theorem Core.Sound.setQueue {l : List QEntry} {q : Que} (h : c.Sound k) : (c.setQueue l q).Sound k := by cases q <;> exact h
theorem Core.Sound.spendDraws {n : Nat} (h : c.Sound k) : (c.spendDraws n).Sound k := ⟨h.1, h.2⟩
theorem Core.Sound.place {w : BitVec 64} {prov : Word} {more : Bool} (h : c.Sound k) : (c.place w prov more).Sound k := by
  unfold Core.place
  extract_lets c₁ c₂ e q e'
  have h₁ : c₁.Sound k := ite_keeps h.spendDraws h
  have h₂ : c₂.Sound k := ⟨h₁.1, h₁.2⟩
  exact h₂.setQueue
theorem Core.Sound.updEntry {n : Nat} {f : QEntry → QEntry} (h : c.Sound k) : (c.updEntry n f).Sound k := h
theorem Core.Sound.dropEntry {n : Nat} (h : c.Sound k) : (c.dropEntry n).Sound k := h
theorem Core.Sound.unwind {n : Nat} (h : c.Sound k) : (c.unwind n).Sound k := by
  unfold Core.unwind
  split
  · exact h
  · exact ⟨h.1, h.2⟩

theorem Core.Sound.abandon (h : c.Sound k) : c.abandon.Sound k := by
  unfold Core.abandon
  split
  · exact h
  · exact ⟨h.1, h.2⟩

theorem Core.Sound.enter {x : Option KStop} (h : c.Sound k) : (c.enter x).Sound k := by
  cases x <;> exact ⟨h.1, h.2⟩

/-! ## Status words -/

/-- The bits that `setField` replaces. -/
def fieldMask (hi lo : Nat) : Word := BitVec.ofNat 64 ((2 ^ (hi + 1 - lo) - 1) <<< lo)

/-- A word within a mask stays within it when a field of the mask is replaced. -/
theorem setField_within {x M : Word} {hi lo : Nat} (v : Nat) (hm : fieldMask hi lo &&& ~~~M = 0) (hx : x &&& ~~~M = 0) :
    setField x hi lo v &&& ~~~M = 0 := by
  show ((x &&& ~~~fieldMask hi lo) ||| (BitVec.ofNat 64 (v <<< lo) &&& fieldMask hi lo)) &&& ~~~M = 0
  rw [BitVec.and_or_distrib_right, BitVec.and_assoc, BitVec.and_comm (~~~fieldMask hi lo), ← BitVec.and_assoc, hx,
    BitVec.and_assoc, hm]
  simp

theorem setBit_within {x M : Word} {i : Nat} (b : Bool) (hm : fieldMask i i &&& ~~~M = 0) (hx : x &&& ~~~M = 0) :
    setBit x i b &&& ~~~M = 0 :=
  setField_within _ hm hx

theorem keep_within {v M : Word} {hi lo : Nat} (hm : fieldMask hi lo &&& ~~~M = 0) : keep v hi lo &&& ~~~M = 0 :=
  setField_within _ hm (by simp)

/-- The low bits of a word as `wfield` and as a mask give them. -/
theorem wfield_of_and_three {x : Word} (h : x &&& 3 = 3) : wfield x 1 0 = 3 := by
  have h' := congrArg BitVec.toNat h
  rw [BitVec.toNat_and] at h'
  show x.toNat >>> 0 % 2 ^ 2 = 3
  rw [← Nat.and_two_pow_sub_one_eq_mod]
  exact h'

theorem statusLegal_iff {hstat tvec tdbg : Word} : statusLegal hstat tvec tdbg = true ↔
    hstat &&& ~~~0x5F#64 = 0 ∧ tvec &&& ~~~0x7FFFFFFFFFFFFC#64 = 0 ∧ tdbg &&& ~~~0xF#64 = 0 ∧ tdbg &&& 3 ≠ 3 := by
  simp only [statusLegal, Bool.and_eq_true, beq_iff_eq, bne_iff_ne, and_assoc]

/-- A write of `hstat` that stays within its fields. -/
theorem Core.Sound.setHstat {x : Word} (h : c.Sound k) (hx : c.hstat &&& ~~~0x5F#64 = 0 → x &&& ~~~0x5F#64 = 0) :
    ({ c with hstat := x } : Core).Sound k := by
  cases k with
  | memory => exact ⟨h.1, trivial⟩
  | status =>
    obtain ⟨hs, hv, hd, hm⟩ := statusLegal_iff.mp h.2
    exact ⟨trivial, statusLegal_iff.mpr ⟨hx hs, hv, hd, hm⟩⟩

/-- `tvec` holds an address that is a multiple of 4. -/
theorem Core.Sound.setTvec {v : Word} (h : c.Sound k) : ({ c with t := { c.t with tvec := keep v 54 2 } } : Core).Sound k := by
  cases k with
  | memory => exact ⟨h.1, trivial⟩
  | status =>
    obtain ⟨hs, -, hd, hm⟩ := statusLegal_iff.mp h.2
    exact ⟨trivial, statusLegal_iff.mpr ⟨hs, keep_within (by decide), hd, hm⟩⟩

/-- `tdbg` as `MTS` writes it: a single-step mode that R406 does not give is stored as 0. -/
theorem tdbg_write_legal (v : Word) :
    (if wfield (keep v 3 0) 1 0 = 3 then setField (keep v 3 0) 1 0 0 else keep v 3 0) &&& ~~~0xF#64 = 0 ∧
      (if wfield (keep v 3 0) 1 0 = 3 then setField (keep v 3 0) 1 0 0 else keep v 3 0) &&& 3 ≠ 3 := by
  have hk : keep v 3 0 &&& ~~~0xF#64 = 0 := keep_within (by decide)
  split
  · refine ⟨setField_within _ (by decide) hk, ?_⟩
    generalize keep v 3 0 = w
    have hz : setField w 1 0 0 &&& 3 = 0 := by
      show ((w &&& ~~~3#64) ||| (0#64 &&& 3#64)) &&& 3#64 = 0
      rw [BitVec.and_or_distrib_right, BitVec.and_assoc]
      simp
    rw [hz]
    decide
  · next h => exact ⟨hk, fun h' => h (wfield_of_and_three h')⟩

end Sys2Proof.Machine

namespace Sys2Proof.Machine

variable {k : Inv} {m : Memory} {c c' : Core} {d d' : Device} {s t : State}

/-! ## Taking an exception and returning from one -/

theorem State.Sound.postTrap {r : Record} {x : Option KStop} (h : s.Sound k) : (s.postTrap r x).Sound k := by
  unfold State.postTrap
  split
  · next d hd => exact (h.setDev (h.dev.tryPush d hd)).setCore h.core.enter
  · exact h.withCore h.core

theorem Core.Sound.givenUp {x : TrapReq} (h : c.Sound k) : (c.givenUp x).Sound k := by
  unfold Core.givenUp
  extract_lets c₁ c₂ c₃
  have h₁ : c₁.Sound k := ite_keeps h.abandon h
  have h₂ : c₂.Sound k := ite_keeps ⟨h₁.1, h₁.2⟩ h₁
  have h₃ : c₃.Sound k := by
    unfold c₃
    split
    · exact h₂.unwind
    · exact h₂
  exact ⟨h₃.1, h₃.2⟩

theorem Core.Sound.trapTaken {x : TrapReq} {tepc tcause prov : Word} (h : c.Sound k) :
    (c.trapTaken x tepc tcause prov).Sound k := by
  have h₁ : ({ c with hstat := setBit (setBit c.hstat 1 c.kmode) 0 true } : Core).Sound k :=
    h.setHstat fun hs => setBit_within _ (by decide) (setBit_within _ (by decide) hs)
  exact ⟨h₁.1, h₁.2⟩

theorem State.Sound.takeTrap {x : TrapReq} (h : s.Sound k) : (Machine.takeTrap s x).Sound k := by
  unfold Machine.takeTrap
  extract_lets c rep q prov tepc tcause route nest c₁ c₂ s₁ s₂ krn host stop s₃
  have h₁ : c₁.Sound k := h.core.givenUp
  have h₂ : c₂.Sound k := ite_keeps h₁ h₁.trapTaken
  have h' : s₂.Sound k := (h.setCore h₂).trace
  have h₃ : s₃.Sound k := ite_keeps (h'.withDev ⟨h'.dev.1, h'.dev.2⟩) h'
  exact ite_keeps (h₃.setCore h₃.core.enter) h₃.stamp.postTrap

theorem State.Sound.genFault {cause : BitVec 8} {tval addr : Word} (h : s.Sound k) : (genFault s cause tval addr).Sound k :=
  h.takeTrap

theorem State.Sound.eret (h : s.Sound k) : (Machine.eret s).Sound k := by
  unfold Machine.eret
  extract_lets c resume c₁ fresh back add c₂ released stampW c₃ s₁ failing
  have h₁ : c₁.Sound k := by
    have hs : ({ c with hstat := setBit c.hstat 0 c.pm } : Core).Sound k :=
      h.core.setHstat fun hs => setBit_within _ (by decide) hs
    exact ⟨hs.1, hs.2⟩
  have h₃ : c₃.Sound k := ⟨h₁.1, h₁.2⟩
  have h' : s₁.Sound k := h.setCore h₃
  clear_value s₁ failing
  split
  · exact h'
  · exact h'.takeTrap.withCore (List.foldlRecOn released _ h'.takeTrap.core fun c hc x _ => hc.updEntry)

/-! ## Page requests -/

theorem State.Sound.postBatch {o : Owner} {l : List PageReq} (h : s.Sound k) : (s.postBatch o l).Sound k := by
  unfold State.postBatch
  extract_lets rep rest lost put d
  have hput : ∀ {q : Option Nat} {s : State}, s.Sound k → (put q s).Sound k := fun h => h.withCore h.core
  have hd : d.Sound k := h.dev.payLost
  clear_value put d rep
  split
  split
  · exact hput h
  · refine ite_keeps (hput (h.setDev hd)) ?_
    split
    next sts s' e =>
      have h' : s'.Sound k := by
        have h' := h.stamps (n := (l.length + 2) / 3)
        rwa [e] at h'
      extract_lets recs seq
      split
      · exact hput (h.setDev hd)
      · next x hx =>
        have hx : x.Sound k := hd.pushAll x hx
        exact hput (h'.setDev (ite_keeps ⟨hx.1, hx.2⟩ hx))

theorem State.Sound.waiting {q : Option (Owner × List PageReq)} (h : s.Sound k) : (s.waiting q).Sound k := by
  cases q with
  | none => exact h
  | some x => exact h.postBatch

/-! ## Scalar accesses and fetching -/

theorem State.Sound.load {o : Owner} {va : Word} {n step : Nat} (h : s.Sound k) :
    Gives (fun x => x.2.Sound k) (load s o va n step) := by
  unfold Machine.load
  split
  · trivial
  · next hp => exact ite_keeps trivial (h.probeFor.of_eq hp)

theorem State.Sound.store {o : Owner} {va : Word} {n v step : Nat} (h : s.Sound k) :
    Gives (State.Sound k) (store s o va n v step) := by
  unfold Machine.store
  split
  · trivial
  · next hp => exact State.Sound.writePlace (h.probeFor.of_eq hp)

theorem State.Sound.fetchBytes {blk : Bool} {va : Word} {n : Nat} (h : s.Sound k) :
    Gives (fun x => x.2.Sound k) (fetchBytes s blk va n) := by
  unfold Machine.fetchBytes
  split
  · trivial
  · next t hp =>
    have ht : t.Sound k := h.probeFor.of_eq hp
    extract_lets line kept pick base
    clear_value kept base
    split
    · exact ite_keeps trivial ht
    · split
      · trivial
      · refine ite_keeps trivial (ht.setCore ?_)
        exact ite_keeps ht.core ht.core

theorem State.Sound.discardFetched {sc : Scope} (h : s.Sound k) : (s.discardFetched sc).Sound k := by
  cases sc <;> exact h

theorem State.Sound.lastStop {e : Stop} (h : s.Sound k) : Result.Sound k (lastStop s e) := by
  cases e with
  | stop i => exact h.genFault
  | deferred i => exact h.takeTrap
  | hold => exact h.stall
  | wait post => exact h.waiting.withCore h.waiting.core

/-! ## Integer words -/

theorem yields_sound {r : BitVec 5} {v : Word} (h : s.Sound k) : Result.Sound k (yields r v s) := h.writeNext

theorem operandStop_sound {v : Nat} (h : s.Sound k) : (operandStop s v).Sound k := h.genFault

theorem onField_sound {pos len : BitVec 6} {f : Nat → Nat → Result} (h : s.Sound k)
    (hf : ∀ p n, Result.Sound k (f p n)) : Result.Sound k (onField pos len s f) := by
  unfold onField
  exact ite_keeps (hf _ _) (operandStop_sound h)

/-! ## Scalar memory words -/

theorem openStop_sound {n : Nat} (h : s.Sound k) : (openStop s n).Sound k := h.genFault
theorem misaligned_sound {va : Word} (h : s.Sound k) : (misaligned s va).Sound k := h.genFault
theorem privStop_sound {r : SRaw} (h : s.Sound k) : (privStop r s).Sound k := h.genFault

theorem ordering_sound {done : Bool} {n : Nat} {r : Result} (h : s.Sound k) (hr : Result.Sound k r) :
    Result.Sound k (ordering done n s r) := by
  unfold ordering
  exact ite_keeps (openStop_sound h) (ite_keeps hr h.stall)

theorem loadReg_sound {n : Nat} {conv : Nat → Word} {r a : BitVec 5} {off : BitVec 16} (h : s.Sound k) :
    Result.Sound k (loadReg n conv r a off s) := by
  unfold loadReg
  refine ite_keeps (misaligned_sound h) (ite_keeps h.stall ?_)
  split
  · exact h.touched.lastStop
  · next hl => exact State.Sound.writeNext (h.load.of_eq hl)

theorem storeReg_sound {n : Nat} {b a : BitVec 5} {off : BitVec 16} (h : s.Sound k) :
    Result.Sound k (storeReg n b a off s) := by
  unfold storeReg
  refine ite_keeps (misaligned_sound h) ?_
  split
  · exact h.touched.lastStop
  · next hl => exact ite_keeps (State.Sound.advance (h.store.of_eq hl)) h.stall

theorem execLdw_sound {r : BitVec 5} {n : BitVec 3} {off : BitVec 16} (h : s.Sound k) :
    Result.Sound k (execLdw r n off s) := by
  unfold execLdw
  extract_lets tv win base va
  clear_value win
  refine ite_keeps (misaligned_sound h) ?_
  split
  · exact h.genFault
  · refine ite_keeps h.genFault (ite_keeps h.stall ?_)
    split
    · exact h.touched.lastStop
    · next hl => exact State.Sound.writeNext (h.load.of_eq hl)

theorem State.Sound.scopeReport {n : Nat} {pc prov addr : Word} {earlier : Word × Word} {used : Scope} {wm : Nat}
    (h : s.Sound k) : (s.scopeReport n pc prov addr earlier used wm).Sound k :=
  h.stamp.withDev h.stamp.dev.pushOrWait

theorem State.Sound.checkAtomic {p : Place} {sc : Scope} {pc prov : Word} (h : s.Sound k) :
    (s.checkAtomic p sc pc prov).Sound k := by
  unfold State.checkAtomic
  refine ite_keeps h ?_
  extract_lets line me kept here s₁ s'
  have h' : s'.Sound k := by
    unfold s'
    clear_value kept
    split
    · exact ite_keeps h (State.Sound.scopeReport h)
    · exact h
  exact h'.withDev ⟨h'.dev.1, h'.dev.2⟩

theorem State.Sound.amoAt {o : Owner} {va : Word} {n step : Nat} {sc : Option Scope} {f : Nat → Option Nat}
    (h : s.Sound k) : Gives (fun x => x.2.Sound k) (amoAt s o va n step sc f) := by
  unfold Machine.amoAt
  split
  · trivial
  · next t hp =>
    have ht : t.Sound k := h.probeFor.of_eq hp
    refine ite_keeps trivial ?_
    extract_lets old t'
    have ht' : t'.Sound k := by
      unfold t'
      split
      · exact ht.checkAtomic
      · exact ht
    show State.Sound k (match f old with | none => t' | some new => t'.writePlace _ n new)
    split
    · exact ht'
    · exact ht'.writePlace

theorem amo_sound {r a : BitVec 5} {size ord : BitVec 2} {sc : Scope} {f : Nat → Nat → Option Nat} (h : s.Sound k) :
    Result.Sound k (amo r a size ord sc s f) := by
  unfold amo
  extract_lets n va go
  have hgo : Result.Sound k go := by
    unfold go
    split
    · exact h.touched.lastStop
    · next t hl =>
      have ht : t.Sound k := h.amoAt.of_eq hl
      exact ite_keeps (State.Sound.writeNext (ite_keeps ht.discardFetched ht)) h.stall
  exact ite_keeps (misaligned_sound h) (ite_keeps (ordering_sound h hgo) hgo)

/-! ## Control words -/

theorem branch_sound {cond : Word → Word → Bool} {a b : BitVec 5} {off : BitVec 16} (h : s.Sound k) :
    Result.Sound k (branch cond a b off s) :=
  ite_keeps (P := State.Sound k) h.jump h.advance

theorem execJalr_sound {r a : BitVec 5} {imm : BitVec 16} (h : s.Sound k) : Result.Sound k (execJalr r a imm s) := by
  unfold execJalr
  exact ite_keeps (misaligned_sound h) h.writeS.jump

theorem privileged_sound {r : SRaw} {x : Result} (h : s.Sound k) (hx : Result.Sound k x) :
    Result.Sound k (privileged r s x) := by
  unfold privileged
  exact ite_keeps hx (privStop_sound h)

theorem execEcall_sound (h : s.Sound k) : Result.Sound k (execEcall s) := by
  unfold execEcall
  exact ite_keeps h.genFault h.stall

theorem fence_sound {done acquires : Bool} {sc : Scope} (h : s.Sound k) : Result.Sound k (fence done acquires sc s) :=
  ordering_sound h (State.Sound.advance (ite_keeps h.discardFetched h))

end Sys2Proof.Machine

namespace Sys2Proof.Machine

variable {k : Inv} {m : Memory} {c c' : Core} {d d' : Device} {s t : State}

/-! ## Registers and status words -/

theorem foldN_sound {n : Nat} {f : Nat → Core → Core} (hf : ∀ i c, c.Sound k → (f i c).Sound k) (h : c.Sound k) :
    (foldN n f c).Sound k :=
  foldN_keeps (P := Core.Sound k) hf n h

theorem Core.Sound.setV {v : BitVec 5} {x : VReg} (h : c.Sound k) : (c.setV v x).Sound k := ⟨h.1, h.2⟩

theorem Core.Sound.putWhere {rows n w : Nat} {on : Nat → Nat → Bool} {vd : BitVec 5} {f : Nat → Nat → Nat}
    (h : c.Sound k) : (c.putWhere rows n w on vd f).Sound k := by
  unfold Core.putWhere
  exact ite_keeps h.setV h

theorem Core.Sound.freshGroups {w : Nat} {on : Nat → Nat → Bool} {vd : BitVec 5} (h : c.Sound k) :
    (c.freshGroups w on vd).Sound k := by
  unfold Core.freshGroups
  exact ite_keeps h ⟨h.1, h.2⟩

theorem Core.Sound.putElems {g : Gran} {mask : Bool} {sw w : Nat} {vd : BitVec 5} {f : Nat → Nat → Nat} (h : c.Sound k) :
    (c.putElems g mask sw w vd f).Sound k := h.putWhere.freshGroups

theorem Core.Sound.putBits {g : Gran} {mask : Bool} {sw : Nat} {vd : BitVec 5} {f : Nat → Nat → Bool} (h : c.Sound k) :
    (c.putBits g mask sw vd f).Sound k := h.putWhere

theorem Core.Sound.putElem {vd : BitVec 5} {w row e x : Nat} (h : c.Sound k) : (c.putElem vd w row e x).Sound k := h.setV
theorem Core.Sound.putBit {vd : BitVec 5} {row e : Nat} {b : Bool} (h : c.Sound k) : (c.putBit vd row e b).Sound k := h.setV

theorem Core.Sound.orBits {ove : Option (BitVec 5)} {rows n : Nat} {f : Nat → Nat → Bool} (h : c.Sound k) :
    (c.orBits ove rows n f).Sound k := by
  cases ove with
  | none => exact h
  | some v => exact h.putWhere

theorem Core.Sound.suppress {why row e : Nat} (h : c.Sound k) : (c.suppress why row e).Sound k := by
  unfold Core.suppress
  exact ite_keeps h ⟨h.1, h.2⟩

theorem Core.Sound.claim (h : c.Sound k) : c.claim.Sound k := by
  unfold Core.claim
  exact ite_keeps h ⟨h.1, h.2⟩

theorem Core.Sound.ownCM {n : Nat} (h : c.Sound k) : (c.ownCM n).Sound k := by
  unfold Core.ownCM
  exact ite_keeps h ⟨h.1, h.2⟩

theorem Core.Sound.freeCM (h : c.Sound k) : c.freeCM.Sound k := ⟨h.1, h.2⟩
theorem Core.Sound.setCM {row e : Nat} (h : c.Sound k) : (c.setCM row e).Sound k := ⟨h.1, h.2⟩
theorem Core.Sound.setHovf (h : c.Sound k) : c.setHovf.Sound k := ⟨h.1, h.2⟩
theorem Core.Sound.dirtyTile {x : BitVec 2} (h : c.Sound k) : (c.dirtyTile x).Sound k := ⟨h.1, h.2⟩
theorem Core.Sound.dirtyPress (h : c.Sound k) : c.dirtyPress.Sound k := ⟨h.1, h.2⟩
theorem Core.Sound.dirtyStream {q : BitVec 4} (h : c.Sound k) : (c.dirtyStream q).Sound k := ⟨h.1, h.2⟩
theorem Core.Sound.moveStream {q : BitVec 4} {x : Word} (h : c.Sound k) : (c.moveStream q x).Sound k := ⟨h.1, h.2⟩

/-! ## How a word runs, retires and stops -/

theorem Core.Sound.keepInRegion {e : QEntry} (h : c.Sound k) : (c.keepInRegion e).Sound k := by
  unfold Core.keepInRegion
  split
  · exact h
  · exact ⟨h.1, h.2⟩

theorem Core.Sound.retire {e : QEntry} (h : c.Sound k) : (c.retire e).Sound k :=
  Core.Sound.keepInRegion (Core.Sound.dropEntry (ite_keeps h.freeCM (ite_keeps ⟨h.1, h.2⟩ h)))

theorem Core.Sound.clearSteps (h : c.Sound k) : c.clearSteps.Sound k := ⟨h.1, h.2⟩

theorem Core.Sound.wordDone {prov : Word} (h : c.Sound k) : (c.wordDone prov).Sound k := by
  unfold Core.wordDone
  exact ite_keeps ⟨h.1, h.2⟩ h

theorem Core.Sound.keepStreams (h : c'.Sound k) : (c.keepStreams c').Sound k := ⟨h.1, h.2⟩

theorem State.Sound.finishVec (h : s.Sound k) : s.finishVec.Sound k :=
  (h.withCore h.core.clearSteps.retire.wordDone).settlePoison

theorem State.Sound.finishWord (h : s.Sound k) : s.finishWord.Sound k :=
  (h.withCore h.core.dropEntry.wordDone).settlePoison

/-- A computation on states that keeps them sound. -/
def BodySound (k : Inv) (body : State → Except Stop State) : Prop := ∀ s, s.Sound k → Gives (State.Sound k) (body s)

theorem State.Sound.runTo {body : State → Except Stop State} {hi : Vector Nat 4} (h : s.Sound k) (hb : BodySound k body)
    (ht : runTo body s hi = some t) : t.Sound k := by
  unfold Machine.runTo at ht
  split at ht
  · next hr =>
    cases ht
    have h' : ({ s with core := { s.core with hi := hi, mode := .part } } : State).Sound k := h.setCore ⟨h.core.1, h.core.2⟩
    exact (hb _ h').of_eq hr
  · cases ht

theorem Core.Sound.endsAt {g : Gran} {hi : Vector Nat 4} (h : c.Sound k) : (c.endsAt g hi).Sound k := by
  unfold Core.endsAt
  exact ite_keeps h ⟨h.claim.1, h.claim.2⟩

theorem State.Sound.partial_ {g : Gran} {ao : Bool} {body : State → Except Stop State} {n : Nat} (h : s.Sound k)
    (hb : BodySound k body) : (Machine.partial_ g ao body s n).Sound k := by
  unfold Machine.partial_
  extract_lets gran ends s₁ done
  have h₁ : s₁.Sound k := h
  have hdone : ∀ t hi, t.Sound k → (done t hi).Sound k := fun t hi ht =>
    ht.setCore (Core.Sound.keepStreams (Core.Sound.endsAt ⟨ht.core.1, ht.core.2⟩))
  clear_value done
  split
  · next hr => exact hdone _ _ (h₁.runTo hb hr)
  · split
    · next hr => exact hdone _ _ (h₁.runTo hb hr)
    · exact h₁

theorem State.Sound.stopWith {part : Nat → State} {e : Stop} (h : s.Sound k) (hp : ∀ n, (part n).Sound k) :
    Result.Sound k (stopWith part s e) := by
  unfold Machine.stopWith
  refine ite_keeps (h.withCore ⟨h.core.1, h.core.2⟩) ?_
  cases e with
  | stop i => exact (hp i.step).takeTrap
  | deferred i => exact (hp i.step).takeTrap
  | hold => exact h.withCore ⟨h.core.1, h.core.2⟩
  | wait post => exact h.waiting.withCore ⟨h.waiting.core.1, h.waiting.core.2⟩

theorem State.Sound.stopWord {g : Gran} {ao : Bool} {body : State → Except Stop State} {e : Stop} (h : s.Sound k)
    (hb : BodySound k body) : Result.Sound k (stopWord g ao body s e) :=
  h.stopWith fun _ => h.partial_ hb

theorem State.Sound.refuseWord {e : Stop} (h : s.Sound k) : Result.Sound k (refuseWord s e) := h.stopWith fun _ => h

theorem State.Sound.endVec (h : s.Sound k) : Result.Sound k (endVec s) := by
  unfold Machine.endVec
  exact ite_keeps h h.finishVec

theorem State.Sound.touchAll {l : Uses} (h : s.Sound k) : (s.touchAll l).Sound k :=
  List.foldlRecOn l _ h fun _ hs _ _ => State.Sound.touched hs

theorem BodySound.withinLimits {limits : Core → Except Stop Unit} {body : State → Except Stop State}
    (hb : BodySound k body) : BodySound k (withinLimits limits body) := by
  intro s h
  unfold Machine.withinLimits
  split
  · trivial
  · exact hb s h

/-- A vector-queue word whose body keeps the state sound. -/
theorem memWord_sound {g : Gran} {inRegion ao : Bool} {limits : Core → Except Stop Unit} {body : State → Except Stop State}
    {uses : Core → Uses} (h : s.Sound k) (hb : BodySound k body) :
    Result.Sound k (memWord g inRegion ao limits body uses s) := by
  unfold memWord
  split
  · exact h.refuseWord
  · split
    · exact h.refuseWord
    · split
      · exact h.stopWord hb.withinLimits
      · exact h.refuseWord
      · refine ite_keeps h.endVec ?_
        split
        · exact h.touchAll.stopWord hb.withinLimits
        · next hr => exact State.Sound.endVec ((hb s h).of_eq hr)

theorem vecWord_sound {g : Gran} {inRegion : Bool} {limits : Core → Except Stop Unit} {body : State → Except Stop State}
    (h : s.Sound k) (hb : BodySound k body) : Result.Sound k (vecWord g inRegion limits body s) :=
  memWord_sound h fun s hs => ite_keeps (P := Gives (State.Sound k)) hs (hb s hs)

/-- A compute word whose effect on registers keeps the core sound. -/
theorem computeWord_sound {g : Gran} {limits : Core → Except Stop Unit} {f : Core → Core} (h : s.Sound k)
    (hf : ∀ c, c.Sound k → (f c).Sound k) : Result.Sound k (computeWord g limits f s) :=
  vecWord_sound h fun _ hs => hs.setCore (hf _ hs.core)

theorem matWord_sound {limits : Core → Except Stop Unit} {f : Core → Core} (h : s.Sound k)
    (hf : ∀ c, c.Sound k → (f c).Sound k) : Result.Sound k (matWord limits f s) := by
  unfold matWord
  split
  · exact h.refuseWord
  · split
    · exact h.refuseWord
    · exact ite_keeps h (State.Sound.finishWord (h.setCore (hf _ h.core)))

/-! ## Compute words on registers -/

theorem elementwise_sound {o : Arith} {ok : EType → Bool} {more : List (BitVec 5)}
    {f : Core → Nat → Nat → Nat → Nat → Nat} (h : s.Sound k) : Result.Sound k (elementwise o ok more f s) :=
  computeWord_sound h fun _ hc => hc.putElems

theorem unaryWord_sound {o : Arith} {ok : EType → Bool} {f : Nat → Nat} (h : s.Sound k) :
    Result.Sound k (unaryWord o ok f s) :=
  computeWord_sound h fun _ hc => hc.putElems

theorem intWord_sound {o : Arith} {f : Int → Int → Int} (h : s.Sound k) : Result.Sound k (intWord o f s) :=
  elementwise_sound h

theorem bitWord_sound {o : Arith} {f : Nat → Nat → Nat → Nat} (h : s.Sound k) : Result.Sound k (bitWord o f s) :=
  elementwise_sound h

theorem bitwise_sound {o : Arith} {f : Nat → Nat → Nat} (h : s.Sound k) : Result.Sound k (bitwise o f s) := by
  unfold bitwise
  exact ite_keeps (computeWord_sound h fun _ hc => hc.putWhere) (bitWord_sound h)

theorem compareWord_sound {o : Arith} {ok : EType → Bool} {f : Nat → Nat → Bool} (h : s.Sound k) :
    Result.Sound k (compareWord o ok f s) :=
  computeWord_sound h fun _ hc => hc.putBits

theorem maskLogic_sound {o : MaskArgs} {rd : List (BitVec 5)} {f : Bool → Bool → Bool} (h : s.Sound k) :
    Result.Sound k (maskLogic o rd f s) :=
  computeWord_sound h fun _ hc => hc.putBits

theorem rowWord_sound {limits : Core → Except Stop Unit} {vd : BitVec 5} {w : Nat} {on : Core → Nat → Nat → Bool}
    {f : Core → Nat → Nat → Nat} (h : s.Sound k) : Result.Sound k (rowWord limits vd w on f s) :=
  computeWord_sound h fun _ hc => hc.putWhere

theorem indexWord_sound {o : Arith} {f : Nat → Nat → Nat} (h : s.Sound k) : Result.Sound k (indexWord o f s) :=
  computeWord_sound h fun _ hc => hc.putElems

theorem execVbcast_sound {o : Bcast} (h : s.Sound k) : Result.Sound k (execVbcast o s) := by
  unfold execVbcast
  split
  · exact rowWord_sound h
  · exact computeWord_sound h fun _ hc => hc.putElems
  · exact computeWord_sound h fun _ hc => hc.putElems

theorem rowMoveWord_sound {o : RowMove} {f g : Nat → Nat} (h : s.Sound k) : Result.Sound k (rowMoveWord o f g s) := by
  unfold rowMoveWord
  extract_lets
  exact computeWord_sound h fun _ hc => hc.putWhere

theorem execVcvt_sound {o : Conv} (h : s.Sound k) : Result.Sound k (execVcvt o s) := by
  unfold execVcvt
  extract_lets
  exact computeWord_sound h fun _ hc => hc.putWhere.orBits

theorem packWord_sound {n : Nat} {o : Conv} (h : s.Sound k) : Result.Sound k (packWord n o s) := by
  unfold packWord
  extract_lets
  exact computeWord_sound h fun _ hc => hc.putWhere.orBits

theorem unpackWord_sound {n : Nat} {o : Conv} (h : s.Sound k) : Result.Sound k (unpackWord n o s) := by
  unfold unpackWord
  extract_lets
  exact computeWord_sound h fun _ hc => foldN_sound (fun _ _ hc => hc.putWhere) hc

theorem execVqnt_sound {o : Conv} (h : s.Sound k) : Result.Sound k (execVqnt o s) := by
  unfold execVqnt
  extract_lets
  exact computeWord_sound h fun _ hc => hc.putWhere.orBits

theorem sliceWord_sound {b : Bool} {o : Conv} (h : s.Sound k) : Result.Sound k (sliceWord b o s) := by
  unfold sliceWord
  extract_lets
  exact computeWord_sound h fun _ hc => hc.putWhere.orBits

theorem unsliceWord_sound {b : Bool} {o : Conv} (h : s.Sound k) : Result.Sound k (unsliceWord b o s) := by
  unfold unsliceWord
  extract_lets
  exact computeWord_sound h fun _ hc => hc.putWhere

theorem execVcprs4_sound {o : Cprs} (h : s.Sound k) : Result.Sound k (execVcprs4 o s) := by
  unfold execVcprs4
  extract_lets
  exact computeWord_sound h fun _ hc => hc.putWhere.putWhere

end Sys2Proof.Machine

namespace Sys2Proof.Machine

variable {k : Inv} {m : Memory} {c c' : Core} {d d' : Device} {s t : State}

/-! ## Darner words -/

/-- A fold over a list of elements that keeps the core sound at each. -/
theorem foldl_sound {α : Type} {l : List α} {f : Core → α → Core} (hf : ∀ c a, c.Sound k → (f c a).Sound k)
    (h : c.Sound k) : (l.foldl f c).Sound k :=
  List.foldlRecOn l f h fun c hc a _ => hf c a hc

theorem Core.Sound.putMap {vd : BitVec 5} {r : Nat} {l : List Nat} (h : c.Sound k) : (c.putMap vd r l).Sound k := by
  unfold Core.putMap
  exact ite_keeps h (ite_keeps (foldN_sound (fun _ _ hc => hc.setV) h) h.setV)

theorem darnWord_sound {limits : Core → Except Stop Unit} {f : Core → Core} (h : s.Sound k)
    (hf : ∀ c, c.Sound k → (f c).Sound k) : Result.Sound k (darnWord limits f s) :=
  vecWord_sound h fun _ hs => hs.setCore (ite_keeps (hf _ hs.core) hs.core)

theorem execMcomp_sound {o : Darn} (h : s.Sound k) : Result.Sound k (execMcomp o s) :=
  darnWord_sound h fun _ hc => foldN_sound (fun _ _ hd => hd.putMap) hc

theorem Core.Sound.putPrefixes {vd vc : BitVec 5} {l : List (List Nat)} (h : c.Sound k) :
    (c.putPrefixes vd vc l).Sound k :=
  ite_keeps h (foldN_sound (fun _ _ hd => hd.putBit) (foldN_sound (fun _ _ hd => hd.putMap) h))

theorem execMclegal_sound {o : Darn} (h : s.Sound k) : Result.Sound k (execMclegal o s) :=
  darnWord_sound h fun _ hc => foldN_sound (fun _ _ hd => foldl_sound (fun _ _ hx => hx.putBit) hd) hc

theorem execMclegalx_sound {o : Darn} (h : s.Sound k) : Result.Sound k (execMclegalx o s) :=
  darnWord_sound h fun _ hc => foldN_sound (fun _ _ hd => foldl_sound (fun _ _ hx => hx.putBit) hd) hc

/-! ## Feeding words -/

theorem execSetvl_sound {r a b : BitVec 5} (h : s.Sound k) : Result.Sound k (execSetvl r a b s) := by
  unfold execSetvl
  exact ite_keeps h.genFault (State.Sound.writeNext (h.withCore ⟨h.core.1, h.core.2⟩))

theorem emitStop_sound {w : Word} (h : s.Sound k) (ht : emitStop s w = some t) : t.Sound k := by
  unfold emitStop at ht
  split at ht
  · cases ht
    exact operandStop_sound h
  · split at ht
    · cases ht
      exact h.genFault
    · split at ht
      · cases ht
        exact h.genFault
      · cases ht

theorem Core.Sound.emit {w : Word} (h : c.Sound k) : (c.emit w).Sound k :=
  Core.Sound.place ⟨h.1, h.2⟩

theorem execEmit_sound {a : BitVec 5} (h : s.Sound k) : Result.Sound k (execEmit a s) := by
  unfold execEmit
  extract_lets w
  split
  · next hs => exact emitStop_sound h hs
  · exact ite_keeps (h.withCore h.core.emit).advance h.stall

theorem execEmitq_sound {r a : BitVec 5} (h : s.Sound k) : Result.Sound k (execEmitq r a s) := by
  unfold execEmitq
  extract_lets w
  split
  · next hs => exact emitStop_sound h hs
  · exact ite_keeps (h.writeS.withCore h.writeS.core.emit).advance h.writeNext

theorem blockWord_sound {base : Word} {off : Nat} (h : s.Sound k) : Gives (fun x => x.2.Sound k) (blockWord s base off) := by
  unfold blockWord
  split
  · trivial
  · next hf => exact h.fetchBytes.of_eq hf

theorem State.Sound.stoppedAt {off : Nat} (h : s.Sound k) : (s.stoppedAt off).Sound k := h.withCore ⟨h.core.1, h.core.2⟩

theorem placeBlock_sound {base : Word} : ∀ (n off : Nat) {s : State}, s.Sound k → Result.Sound k (placeBlock base n off s)
  | 0, _, _, h => h.genFault
  | n + 1, off, s, h => by
    unfold placeBlock
    split
    · exact h.touched.stoppedAt.lastStop
    · next w t hw =>
      have ht : t.Sound k := (blockWord_sound h).of_eq hw
      have hc {x : Word} : (t.withCore fun c => { c with resoff := x }).Sound k := ht.withCore ⟨ht.core.1, ht.core.2⟩
      have hm {x : Word} {y : Option Word} : (t.withCore fun c => { c with resoff := x, midFetch := y }).Sound k :=
        ht.withCore ⟨ht.core.1, ht.core.2⟩
      refine ite_keeps hm.advance (ite_keeps hc.genFault (ite_keeps ht.stoppedAt.genFault
        (ite_keeps ht.stoppedAt.genFault (ite_keeps ht.stoppedAt.stall ?_))))
      exact placeBlock_sound n (off + 1) (ht.withCore ht.core.place)

theorem execVfetch_sound {a : BitVec 5} {off : BitVec 16} (h : s.Sound k) : Result.Sound k (execVfetch a off s) := by
  unfold execVfetch
  extract_lets base start
  refine ite_keeps (operandStop_sound h) (ite_keeps (misaligned_sound h) ?_)
  split
  · exact h.touched.lastStop
  · exact placeBlock_sound _ _ h

theorem execVdrain_sound {mask : BitVec 4} (h : s.Sound k) : Result.Sound k (execVdrain mask s) := by
  unfold execVdrain
  exact ite_keeps (openStop_sound h) (ite_keeps h.advance h.stall)

theorem execQwait_sound {mask : BitVec 4} {a : BitVec 5} (h : s.Sound k) : Result.Sound k (execQwait mask a s) := by
  unfold execQwait
  exact ite_keeps (operandStop_sound h) (ite_keeps h.advance h.stall)

/-! ## Streams -/

theorem State.Sound.checkPlain {o : Owner} {q : Acc} {n : Nat} {step : Elem → Nat} {els : List Elem} (h : s.Sound k) :
    Gives (fun x => x.2.Sound k) (checkPlain o q n step els s) := by
  unfold Machine.checkPlain
  extract_lets b r
  have hr : r.2.2.Sound k := by
    refine List.foldlRecOn (motive := fun acc : List (Elem × Place) × Fails × State => acc.2.2.Sound k) els _ h ?_
    intro acc ha el _
    split
    · next hp => exact ite_keeps (State.Sound.pin (ha.probeFor.of_eq hp)) (ha.probeFor.of_eq hp)
    · exact ha
  clear_value r
  split
  · trivial
  · exact hr

theorem State.Sound.readDoubles {o : Owner} {va : Word} {n step : Nat} (h : s.Sound k) :
    Gives (fun x => x.2.Sound k) (readDoubles o va n step s) := by
  unfold Machine.readDoubles
  extract_lets els
  split
  · trivial
  · next ps t hc =>
    have ht : t.Sound k := h.checkPlain.of_eq hc
    refine List.foldlRecOn (motive := Gives fun x : List Word × State => x.2.Sound k) ps _ ht ?_
    intro acc ha x _
    split
    · trivial
    · exact ite_keeps trivial ha

theorem plainWord_sound {inRegion : Bool} {limits : Core → Except Stop Unit} {f : Core → Core} (h : s.Sound k)
    (hf : ∀ c, c.Sound k → (f c).Sound k) : Result.Sound k (plainWord inRegion limits f s) :=
  vecWord_sound h fun _ hs => hs.setCore (ite_keeps (hf _ hs.core) hs.core)

theorem Core.Sound.openStream {q : BitVec 4} {r : Shape} {pos : Word} (h : c.Sound k) : (c.openStream q r pos).Sound k :=
  Core.Sound.dirtyStream ⟨h.1, h.2⟩

theorem execSopen_sound {b : Bool} {src : RecSrc} {q : BitVec 4} (h : s.Sound k) : Result.Sound k (execSopen b src q s) := by
  unfold execSopen
  split
  · exact plainWord_sound h fun _ hc => hc.openStream
  · refine memWord_sound h ?_
    intro s hs
    dsimp only
    refine ite_keeps hs (ite_keeps trivial ?_)
    split
    · trivial
    · next t hr =>
      have ht : t.Sound k := hs.readDoubles.of_eq hr
      split
      · trivial
      · exact ite_keeps ht (ht.setCore ht.core.openStream)

theorem execSopenp_sound {b : Bool} {va : BitVec 5} {q : BitVec 4} (h : s.Sound k) : Result.Sound k (execSopenp b va q s) :=
  plainWord_sound h fun _ hc => hc.openStream

theorem execSadv_sound {b : Bool} {q : BitVec 4} {src : Src} (h : s.Sound k) : Result.Sound k (execSadv b q src s) :=
  plainWord_sound h fun _ hc => hc.moveStream

theorem execSclose_sound {b : Bool} {q : BitVec 4} (h : s.Sound k) : Result.Sound k (execSclose b q s) :=
  plainWord_sound h fun _ hc => ⟨hc.1, hc.2⟩

theorem execSsave_sound {b : Bool} {vd : BitVec 5} {q : BitVec 4} (h : s.Sound k) : Result.Sound k (execSsave b vd q s) :=
  plainWord_sound h fun _ hc => hc.setV

/-! ## Matrix words -/

theorem Core.Sound.putTile {x : BitVec 2} {on : Nat → Nat → Bool} {f : Nat → Nat → Nat} (h : c.Sound k) :
    (c.putTile x on f).Sound k := by
  unfold Core.putTile
  exact ite_keeps (Core.Sound.dirtyTile ⟨h.1, h.2⟩) h

theorem Core.Sound.freshTile {x : BitVec 2} {on : Nat → Nat → Bool} (h : c.Sound k) : (c.freshTile x on).Sound k := by
  unfold Core.freshTile
  exact ite_keeps h ⟨h.1, h.2⟩

theorem execMshape_sound {x : BitVec 2} {row0 : BitVec 4} {col0 : BitVec 11} (h : s.Sound k) :
    Result.Sound k (execMshape x row0 col0 s) :=
  matWord_sound h fun _ hc => Core.Sound.dirtyTile ⟨hc.1, hc.2⟩

theorem execMshapeg_sound {vd : BitVec 5} {x : BitVec 2} (h : s.Sound k) : Result.Sound k (execMshapeg vd x s) :=
  matWord_sound h fun _ hc => hc.putElem

theorem execMzero_sound {x : BitVec 2} (h : s.Sound k) : Result.Sound k (execMzero x s) :=
  matWord_sound h fun _ hc => Core.Sound.dirtyTile ⟨hc.1, hc.2⟩

theorem Core.Sound.mulAdd {o : MatMul} {a : Nat → Nat → FVal} (h : c.Sound k) : (c.mulAdd o a).Sound k := h.putTile

theorem execMma_sound {o : MatMul} (h : s.Sound k) : Result.Sound k (execMma o s) := matWord_sound h fun _ hc => hc.mulAdd
theorem execMmas_sound {o : MatMul} (h : s.Sound k) : Result.Sound k (execMmas o s) := matWord_sound h fun _ hc => hc.mulAdd

theorem execMsmma_sound {o : SliceMul} (h : s.Sound k) : Result.Sound k (execMsmma o s) := by
  unfold execMsmma
  extract_lets
  exact matWord_sound h fun _ hc => hc.putTile

theorem tileReadWord_sound {o : TileRead} {zero : Bool} (h : s.Sound k) : Result.Sound k (tileReadWord o zero s) := by
  unfold tileReadWord
  extract_lets
  refine matWord_sound h fun c hc => ?_
  exact ite_keeps hc.putWhere.freshGroups.orBits.putTile hc.putWhere.freshGroups.orBits

theorem tileWriteWord_sound {o : TileWrite} {add : Bool} (h : s.Sound k) : Result.Sound k (tileWriteWord o add s) :=
  matWord_sound h fun _ hc => hc.putTile.freshTile

theorem execMsync_sound {vd : BitVec 5} {p : BitVec 18} (h : s.Sound k) : Result.Sound k (execMsync vd p s) :=
  matWord_sound h fun _ hc => hc.putBit

/-! ## Press words -/

theorem Core.Sound.freshHeap (h : c.Sound k) : c.freshHeap.Sound k := ⟨h.1, h.2⟩

theorem matWordS_sound {limits : Core → Except Stop Unit} {f : State → State} (h : s.Sound k)
    (hf : ∀ s, s.Sound k → (f s).Sound k) : Result.Sound k (matWordS limits f s) := by
  unfold matWordS
  split
  · exact h.refuseWord
  · split
    · exact h.refuseWord
    · exact ite_keeps h (hf s h).finishWord

theorem Core.Sound.clearWindow {x : BitVec 2} (h : c.Sound k) : (c.clearWindow x).Sound k := h.putTile.freshTile

theorem projectWord_sound {mask : Bool} {slot : BitVec 4} {x : BitVec 2} {from_ : Core → Press}
    {limits whole_ : Core → Except Stop Unit} {done : Core → Core} (h : s.Sound k)
    (hd : ∀ c, c.Sound k → (done c).Sound k) :
    Result.Sound k (projectWord mask slot x from_ limits whole_ done s) := by
  unfold projectWord
  extract_lets c w r s₁ c₁
  have h₁ : c₁.Sound k := ⟨h.core.1, h.core.2⟩
  have hs : s₁.Sound k := h.withCore ⟨h.core.1, h.core.2⟩
  clear_value s₁ c₁ r
  split
  · exact h.refuseWord
  · split
    · exact h.refuseWord
    · split
      · exact hs.refuseWord
      · exact ite_keeps h (State.Sound.finishWord (h.setCore (hd _ h₁.clearWindow.dirtyPress)))

theorem execVproj_sound {mask : Bool} {slot : BitVec 4} {x : BitVec 2} (h : s.Sound k) :
    Result.Sound k (execVproj mask slot x s) :=
  projectWord_sound h fun _ hc => hc

theorem startProject_sound {mask : Bool} {vc : BitVec 5} {slot : BitVec 4} {k1 : BitVec 9} {x : BitVec 2} {thr : Bool}
    (h : s.Sound k) : Result.Sound k (startProject mask vc slot k1 x thr s) := by
  unfold startProject
  extract_lets
  exact projectWord_sound h fun _ hc => hc.freshHeap

theorem execVprojb_sound {mask : Bool} {vd : BitVec 5} {slot : BitVec 4} {x : BitVec 2} (h : s.Sound k) :
    Result.Sound k (execVprojb mask vd slot x s) :=
  matWord_sound h fun _ hc => hc.putWhere.freshGroups.clearWindow

theorem Core.Sound.putRows32 {vd : BitVec 5} {l : List (List Nat)} (h : c.Sound k) : (c.putRows32 vd l).Sound k := h.setV

theorem execVheaprd_sound {vd vc : BitVec 5} (h : s.Sound k) : Result.Sound k (execVheaprd vd vc s) :=
  matWord_sound h fun _ hc => hc.putRows32.putRows32
theorem execVpstrd_sound {vd : BitVec 5} (h : s.Sound k) : Result.Sound k (execVpstrd vd s) :=
  matWord_sound h fun _ hc => hc.putRows32
theorem execVhmerge_sound {va vb : BitVec 5} (h : s.Sound k) : Result.Sound k (execVhmerge va vb s) :=
  matWord_sound h fun _ hc => Core.Sound.dirtyPress ⟨hc.1, hc.2⟩
theorem execVhmergen_sound {va vb vc : BitVec 5} (h : s.Sound k) : Result.Sound k (execVhmergen va vb vc s) :=
  matWord_sound h fun _ hc => Core.Sound.dirtyPress ⟨hc.1, hc.2⟩
theorem execVpstwr_sound {va vb vc : BitVec 5} (h : s.Sound k) : Result.Sound k (execVpstwr va vb vc s) :=
  matWord_sound h fun _ hc => Core.Sound.dirtyPress ⟨hc.1, hc.2⟩

theorem drawRow_sound {mask : Bool} {vd va vb : BitVec 5} {slot : Option (BitVec 4)} {nrm : Bool} {before : Core} {i : Nat}
    (h : s.Sound k) : (drawRow mask vd va vb slot nrm before i s).Sound k :=
  State.Sound.trace (ite_keeps h (h.withCore h.core.setV))

theorem drawWord_sound {mask : Bool} {vd va vb : BitVec 5} {et : EType} {slot : Option (BitVec 4)} {nrm : Bool}
    (h : s.Sound k) : Result.Sound k (drawWord mask vd va vb et slot nrm s) :=
  matWordS_sound h fun s hs =>
    foldN_keeps (P := State.Sound k) (f := fun i t => drawRow mask vd va vb slot nrm s.core i t)
      (fun _ _ ht => drawRow_sound ht) s.core.rows hs

/-! ## Reductions and scans -/

theorem reduceWord_sound {o : Arith} {ok : EType → Bool} {f : Core → Nat → Nat} (h : s.Sound k) :
    Result.Sound k (reduceWord o ok f s) :=
  computeWord_sound h fun _ hc => hc.putWhere

theorem columnWord_sound {o : Arith} {op : Nat → Nat → Nat} {e : Nat} (h : s.Sound k) :
    Result.Sound k (columnWord o op e s) :=
  computeWord_sound h fun _ hc => hc.putWhere

end Sys2Proof.Machine

namespace Sys2Proof.Machine

variable {k : Inv} {m : Memory} {c c' : Core} {d d' : Device} {s t : State}

/-! ## State words -/

theorem Core.Sound.setTdbg {x : Word} (h : c.Sound k) (hx : x &&& ~~~0xF#64 = 0 ∧ x &&& 3 ≠ 3) :
    ({ c with t := { c.t with tdbg := x } } : Core).Sound k := by
  cases k with
  | memory => exact ⟨h.1, trivial⟩
  | status =>
    obtain ⟨hs, hv, -, -⟩ := statusLegal_iff.mp h.2
    exact ⟨trivial, statusLegal_iff.mpr ⟨hs, hv, hx⟩⟩

/-- Of the words that `MTS` writes, `tvec`, `tdbg` and `hstat` are the ones that an invariant reads. -/
theorem Core.Sound.writeState {w : SWord} {v : Word} (h : c.Sound k) : (c.writeState w v).Sound k := by
  cases w with
  | cmv => exact ite_keeps ⟨h.1, h.2⟩ h
  | ffs => exact ite_keeps ⟨h.1, h.2⟩ h
  | tvec => exact h.setTvec
  | tdbg => exact h.setTdbg (tdbg_write_legal v)
  | hstat => exact h.setHstat fun hs => setBit_within _ (by decide) (setField_within _ (by decide) hs)
  | _ => exact ⟨h.1, h.2⟩

theorem execMfs_sound {r : BitVec 5} {n : BitVec 12} (h : s.Sound k) : Result.Sound k (execMfs r n s) := by
  unfold execMfs
  split
  · exact operandStop_sound h
  · exact ite_keeps (privStop_sound h) (ite_keeps (openStop_sound h) (ite_keeps h.stall h.writeNext))

theorem execMts_sound {n : BitVec 12} {a : BitVec 5} (h : s.Sound k) : Result.Sound k (execMts n a s) := by
  unfold execMts
  split
  · exact operandStop_sound h
  · exact ite_keeps (privStop_sound h) (ite_keeps h.stall (h.withCore h.core.writeState).advance)

/-! ## Watermarks and barriers -/

theorem State.Sound.wake {p : Core → Bool} (h : s.Sound k) : (s.wake p).Sound k := by
  have hgo : ∀ c : Core, c.Sound k → (if p c then { c with wfe := false } else c).Sound k := fun c hc =>
    ite_keeps ⟨hc.1, hc.2⟩ hc
  exact ⟨hgo _ h.core, h.rest.map hgo, h.dev⟩

theorem State.Sound.wakeGang {gid : BitVec 16} (h : s.Sound k) : (s.wakeGang gid).Sound k := h.wake
theorem State.Sound.wakeRise {g : Gang} {n : Nat} (h : s.Sound k) : (s.wakeRise g n).Sound k := h.wake

theorem execWmpub_sound {w : BitVec 3} {a : BitVec 5} {sc : Scope} (h : s.Sound k) :
    Result.Sound k (execWmpub w a sc s) := by
  unfold execWmpub
  exact ite_keeps h.genFault (ite_keeps (State.Sound.advance (h.withCore ⟨h.core.1, h.core.2⟩)) h.stall)

theorem State.Sound.pastMark {n v : Nat} {pc prov : Word} (h : s.Sound k) : (s.pastMark n v pc prov).Sound k := by
  unfold State.pastMark
  split
  · exact h
  · extract_lets x
    split
    · have hd : ∀ {sc : Scope}, (s.discardFetched sc).Sound k := h.discardFetched
      refine ite_keeps hd ?_
      exact hd.scopeReport.withDev ⟨hd.scopeReport.dev.1, hd.scopeReport.dev.2⟩
    · exact h

theorem execWmwait_sound {w : BitVec 3} {a : BitVec 5} {sc : Scope} (h : s.Sound k) :
    Result.Sound k (execWmwait w a sc s) := by
  unfold execWmwait
  split
  · exact h.stall
  · refine ite_keeps h.genFault (ite_keeps ?_ h.stall)
    exact State.Sound.advance (State.Sound.discardFetched (ite_keeps h h.pastMark))

theorem State.Sound.publish {p : Pub} (h : s.Sound k) : (s.publish p).Sound k := by
  unfold State.publish
  extract_lets gid me s₁
  have h₁ : s₁.Sound k := h.withCore ⟨h.core.1, h.core.2⟩
  clear_value s₁
  split
  · extract_lets up s₂
    have h₂ : s₂.Sound k := h₁.withDev h₁.dev.updGang
    split
    · exact ite_keeps h₂.wakeRise h₂
    · exact h₂
  · exact h₁.withDev h₁.dev.updGang

theorem execWatermarkUpdate_sound {n : Nat} (h : s.Sound k) : Result.Sound k (execWatermarkUpdate n s) := by
  unfold execWatermarkUpdate
  extract_lets s'
  have h' : s'.Sound k := h.focus
  split
  · exact ite_keeps h'.publish.focus h
  · exact h

theorem State.Sound.arrive (h : s.Sound k) : s.arrive.Sound k := h.withCore ⟨h.core.1, h.core.2⟩

theorem execBarArrive_sound (h : s.Sound k) : Result.Sound k (execBarArrive s) := by
  unfold execBarArrive
  exact ite_keeps h.stall h.arrive.advance

theorem execBarWait_sound (h : s.Sound k) : Result.Sound k (execBarWait s) := by
  unfold execBarWait
  exact ite_keeps h.stall h.discardFetched.advance

theorem execBarAw_sound (h : s.Sound k) : Result.Sound k (execBarAw s) := by
  unfold execBarAw
  have h₁ : (s.withCore fun c => { c with barAw := c.barAw.filter fun a => a != c.pc }).Sound k :=
    h.withCore ⟨h.core.1, h.core.2⟩
  have h₂ : (s.arrive.withCore fun c => { c with barAw := c.pc :: c.barAw }).Sound k :=
    h.arrive.withCore ⟨h.arrive.core.1, h.arrive.core.2⟩
  exact ite_keeps (ite_keeps h.stall h₁.discardFetched.advance) (ite_keeps h.stall h₂.stall)

theorem execBarrierPhaseComplete_sound {gid : BitVec 16} (h : s.Sound k) :
    Result.Sound k (execBarrierPhaseComplete gid s) := by
  unfold execBarrierPhaseComplete
  split
  · exact ite_keeps (State.Sound.wakeGang (h.withDev h.dev.updGang)) h
  · exact h

theorem execRseek_sound {a : BitVec 5} (h : s.Sound k) : Result.Sound k (execRseek a s) := by
  unfold execRseek
  exact ite_keeps (State.Sound.advance (h.withCore ⟨h.core.1, h.core.2⟩)) h.genFault

/-! ## Rings, launches and the end of a hart -/

theorem Device.Sound.moveHead {n : Nat} {r : Fin 2} (h : d.Sound k) : (d.moveHead n r).Sound k := h.updFunc

theorem Device.Sound.setEntry {n : Nat} {r : Fin 2} {i : Nat} {w : Word} (h : d.Sound k) : (d.setEntry n r i w).Sound k :=
  (h.setDram h.dram.setNum).moveHead

theorem Core.Sound.decided (h : c.Sound k) : c.decided.Sound k := ⟨h.1, h.2⟩

theorem execLaunch_sound {r a : BitVec 5} (h : s.Sound k) : Result.Sound k (execLaunch r a s) := by
  unfold execLaunch
  extract_lets cx f go i at_ mem old dev
  split
  · extract_lets w
    have hgo : ∀ v, Result.Sound k (go v) := fun v => State.Sound.writeNext (h.withCore h.core.decided)
    clear_value go
    split
    · exact h.stall
    · exact hgo _
    · exact hgo _
  · refine ite_keeps h.stall (ite_keeps h.writeNext ?_)
    have hm : Memory.Sound k mem := h.dev.dram.setNum.setNum
    have hd : dev.Sound k := (h.dev.setDram hm).updFunc
    exact State.Sound.stall ⟨⟨h.core.1, h.core.2⟩, h.rest, hd⟩

theorem Device.Sound.signBlock {n : Nat} (h : d.Sound k) : (d.signBlock n).Sound k := by
  unfold Device.signBlock
  split
  · exact h
  · extract_lets b prev records block sig d'
    have h' : d'.Sound k := h.putBytes.putBytes
    exact (h'.setDram h'.dram.setNum).updCtx

theorem Device.Sound.closeAudit {n : Nat} (h : d.Sound k) : (d.closeAudit n).Sound k := by
  unfold Device.closeAudit
  exact ite_keeps h.signBlock h

theorem Device.Sound.endGang {gid : BitVec 16} (h : d.Sound k) : (d.endGang gid).Sound k := by
  unfold Device.endGang
  split
  · exact h
  · extract_lets d₁ r w d₂ d₃
    have h₂ : d₂.Sound k := h.updGang.setEntry
    have h₃ : d₃.Sound k := ite_keeps ⟨h₂.1, h₂.2⟩ h₂
    exact Device.Sound.closeAudit ⟨h₃.1, h₃.2⟩

theorem Core.sound_reset : Core.reset.Sound k := by
  cases k
  · exact ⟨rfl, trivial⟩
  · exact ⟨trivial, by rw [StatusSound]; decide⟩

theorem Core.sound_vacated : c.vacated.Sound k := ⟨Core.sound_reset.1, Core.sound_reset.2⟩

theorem Device.Sound.settleGang {gid : BitVec 16} (h : d.Sound k) : (d.settleGang gid).Sound k := by
  unfold Device.settleGang
  split
  · exact h
  · next g _ =>
    have h' := h.updGang (n := gid) (f := fun g => { g with st := .preempted, order := d.order })
    exact ite_keeps h.endGang (ite_keeps ⟨h'.1, h'.2⟩ h)

theorem State.Sound.endHart (h : s.Sound k) : s.endHart.Sound k :=
  ⟨Core.sound_vacated, h.rest, h.dev.updGang.settleGang⟩

theorem execHalt_sound (h : s.Sound k) : Result.Sound k (execHalt s) := by
  unfold execHalt
  exact ite_keeps (openStop_sound h) (ite_keeps h.endHart h.stall)

end Sys2Proof.Machine

namespace Sys2Proof.Machine

variable {k : Inv} {m : Memory} {c c' : Core} {d d' : Device} {s t : State}

/-! ## Elements in memory -/

/-- A fold over a list that keeps the state sound at each. -/
theorem foldl_state_sound {α : Type} {l : List α} {f : State → α → State} (hf : ∀ s a, s.Sound k → (f s a).Sound k)
    (h : s.Sound k) : (l.foldl f s).Sound k :=
  List.foldlRecOn l f h fun s hs a _ => hf s a hs

/-- A choice between two results that each carry a sound state. -/
theorem ite_snd_sound {α : Type} {p : Prop} [Decidable p] {x y : α × State} (hx : x.2.Sound k) (hy : y.2.Sound k) :
    (if p then x else y).2.Sound k :=
  ite_keeps (P := fun x : α × State => x.2.Sound k) hx hy

theorem elemWrite_sound {w : Nat} {high : Bool} {p : Place} {v : Nat} (h : s.Sound k) : (elemWrite s w high p v).Sound k := by
  unfold elemWrite
  exact ite_keeps h.writePlace h.writePlace

theorem Core.Sound.putList {v : BitVec 5} {w : Nat} {l : List (Nat × Nat × Nat)} (h : c.Sound k) :
    (c.putList v w l).Sound k := by
  unfold Core.putList
  exact ite_keeps h h.setV.freshGroups

/-- The check of one element: what it reaches sets leaf bits, and the running word keeps its translation. -/
theorem checkElem_sound {o : Owner} {q : Acc} {n w : Nat} {sp : Bool} {mode : Suppress} {bad : Elem → Bool} {i : Nat}
    {acc : Checked × State} {el : Elem} (h : acc.2.Sound k) : (checkElem o q n w sp mode bad i acc el).2.Sound k := by
  obtain ⟨r, s⟩ := acc
  have h : s.Sound k := h
  unfold checkElem
  dsimp -zeta only
  extract_lets supp got₁ got s'
  have h' : s'.Sound k := ite_keeps h (State.Sound.touched h)
  have h₁ : Gives (fun x => x.2.2.Sound k) got₁ := by
    unfold got₁
    split
    · exact h
    · exact h.probeFor
  clear_value got₁
  have hg : Gives (fun x => x.2.2.Sound k) got := by
    unfold got
    split
    · exact ite_keeps trivial h₁
    · trivial
  clear_value got
  refine ite_snd_sound h (ite_snd_sound h ?_)
  split
  · exact ite_snd_sound h (ite_keeps (State.Sound.pin hg) hg)
  · exact ite_snd_sound h' h'

theorem State.Sound.checkElems {o : Owner} {q : Acc} {n w : Nat} {sp : Bool} {mode : Suppress} {bad : Elem → Bool}
    {els : List Elem} (h : s.Sound k) : Gives (fun x => x.2.Sound k) (checkElems o q n w sp mode bad els s) := by
  unfold Machine.checkElems
  extract_lets first r
  have hr : r.2.Sound k :=
    List.foldlRecOn (motive := fun acc : Checked × State => acc.2.Sound k) els _ h fun _ ha _ _ => checkElem_sound ha
  clear_value r
  split
  · trivial
  · exact hr

theorem State.Sound.poisonNote {el : Elem} (h : s.Sound k) : (s.poisonNote el).Sound k :=
  h.stamp.withDev h.stamp.dev.pushOrWait

theorem Core.Sound.noteSupp {l : List (Elem × Nat)} (h : c.Sound k) : (c.noteSupp l).Sound k := by
  refine foldl_sound (fun c x hc => ?_) h
  split
  · exact ⟨hc.1, hc.2⟩
  · exact ite_keeps hc.suppress hc

theorem Core.Sound.countSupp {n : Nat} (h : c.Sound k) : (c.countSupp n).Sound k := ⟨h.1, h.2⟩

theorem State.Sound.acquired {o : MemArgs} {els : List Elem} (h : s.Sound k) : (s.acquired o els).Sound k := by
  unfold State.acquired
  extract_lets s'
  have h' : s'.Sound k := ite_keeps h.discardFetched h
  exact ite_keeps (foldl_state_sound (fun _ _ hs => hs.pastMark) h') h'

theorem Core.Sound.advanceBy {o : MemArgs} {n : Nat} (h : c.Sound k) : (c.advanceBy o n).Sound k := by
  unfold Core.advanceBy
  exact ite_keeps h.moveStream h

theorem Core.Sound.takeCM {g : Gran} (h : c.Sound k) : (c.takeCM g).Sound k := by
  unfold Core.takeCM
  exact ite_keeps h.claim.ownCM h

theorem Core.Sound.takeHash (h : c.Sound k) : c.takeHash.Sound k := by
  unfold Core.takeHash
  exact ite_keeps h (Core.Sound.ownCM ⟨h.claim.1, h.claim.2⟩)

theorem Core.Sound.doneElems {g : Gran} {els : List Elem} (h : c.Sound k) : (c.doneElems g els).Sound k := by
  unfold Core.doneElems
  exact ite_keeps (foldl_sound (fun _ _ hc => hc.setCM) h) h

theorem State.Sound.engineDesc {src : RecSrc} {n : Nat} (h : s.Sound k) :
    Gives (fun x => x.2.Sound k) (engineDesc src n s) := by
  unfold Machine.engineDesc
  split
  · split
    · trivial
    · exact h
  · exact ite_keeps trivial h.readDoubles

/-! ## Loads -/

theorem State.Sound.loadEnd {o : MemArgs} {g : Gran} {mode : Suppress} {els : List Elem} {x : Checked} (h : s.Sound k) :
    Gives (State.Sound k) (loadEnd o g mode els x s) := by
  unfold Machine.loadEnd
  split
  · trivial
  · extract_lets s₁ s₂ c₁ c₂ c₃ count
    have h₂ : s₂.Sound k := (foldl_state_sound (fun _ _ hs => hs.poisonNote) h).acquired
    have h₃ : c₃.Sound k := h₂.core.takeCM.putList.doneElems.noteSupp.countSupp
    exact h₂.setCore h₃.advanceBy

theorem State.Sound.loadBody {o : MemArgs} {g : Gran} {indexed : Bool} {mode : Suppress} {pointers : Bool} (h : s.Sound k) :
    Gives (State.Sound k) (loadBody o g indexed mode pointers s) := by
  unfold Machine.loadBody
  extract_lets c r w n els bad
  split
  · trivial
  · split
    · trivial
    · next t ht =>
      have ht : t.Sound k := h.checkElems.of_eq ht
      extract_lets waits late
      refine ite_keeps ht (ite_keeps ht.loadEnd (ite_keeps trivial (ite_keeps ht.loadEnd ?_)))
      exact ht.withCore ⟨ht.core.1, ht.core.2⟩

theorem loadEarly_sound {o : MemArgs} {g : Gran} {indexed pointers : Bool} {pick : Elem → Bool} (h : s.Sound k) :
    (loadEarly o g indexed pointers pick s).Sound k := by
  unfold loadEarly
  extract_lets c r n els
  refine ite_keeps h (foldl_state_sound (fun s el hs => ?_) h)
  extract_lets got
  have hg : Gives (fun x => x.2.2.Sound k) got :=
      ite_keeps (P := Gives fun x : Place × Nat × State => x.2.2.Sound k) hs hs.probeFor
  clear_value got
  split
  · exact hs
  · next t =>
    have ht : t.Sound k := hg
    exact ite_keeps hs (ht.acquired.withCore ⟨ht.acquired.core.1, ht.acquired.core.2⟩)

theorem loadVec_sound {o : MemArgs} {g : Gran} {inRegion indexed : Bool} {mode : Suppress} {pointers : Bool}
    {extra : Shape → Bool} (h : s.Sound k) : Result.Sound k (loadVec o g inRegion indexed mode pointers extra s) :=
  memWord_sound h fun _ hs => hs.loadBody

/-! ## Stores -/

theorem writeElems_sound {et : EType} {val : Elem → Nat} {l : List (Elem × Place)} (h : s.Sound k) :
    (writeElems et val l s).Sound k :=
  foldl_state_sound (fun _ _ hs => elemWrite_sound hs) h

theorem State.Sound.setFree {n : Nat} (h : s.Sound k) : ({ s with free := n } : State).Sound k := h

theorem State.Sound.storeBody {o : MemArgs} {g : Gran} {indexed : Bool} (h : s.Sound k) :
    Gives (State.Sound k) (storeBody o g indexed s) := by
  unfold Machine.storeBody
  extract_lets c r w els
  split
  · trivial
  · split
    · trivial
    · next t ht =>
      have ht : t.Sound k := h.checkElems.of_eq ht
      refine ite_keeps ht (ite_keeps trivial ?_)
      extract_lets u v
      have h' : u.Sound k := writeElems_sound ht
      exact ⟨h'.core.takeCM.doneElems.advanceBy, h'.rest, h'.dev⟩

theorem storeVec_sound {o : MemArgs} {g : Gran} {indexed : Bool} {extra : Shape → Bool} {body : State → Except Stop State}
    (h : s.Sound k) (hb : BodySound k body) : Result.Sound k (storeVec o g indexed extra body s) :=
  memWord_sound h hb

theorem execVstp_sound {o : MemArgs} (h : s.Sound k) : Result.Sound k (execVstp o s) := by
  unfold execVstp
  refine storeVec_sound h ?_
  intro s hs
  dsimp only
  split
  · trivial
  · next t ht =>
    have ht : t.Sound k := hs.storeBody.of_eq ht
    exact ite_keeps (P := State.Sound k) ht (ht.setCore ⟨ht.core.1, ht.core.2⟩)

theorem State.Sound.holdBody {o : MemArgs} (h : s.Sound k) : Gives (State.Sound k) (holdBody o s) := by
  unfold Machine.holdBody
  extract_lets c r w els bad
  split
  · trivial
  · split
    · trivial
    · next x t ht =>
      have ht : t.Sound k := h.checkElems.of_eq ht
      refine ite_keeps ht ?_
      extract_lets s₁ held old c₁ c₂
      have h₁ : s₁.Sound k := foldl_state_sound (fun _ _ hs => hs.poisonNote) ht
      have h₂ : c₁.Sound k := ⟨h₁.core.1, h₁.core.2⟩
      exact ⟨h₂.noteSupp.countSupp.advanceBy, h₁.rest, h₁.dev⟩

theorem execVsth_sound {o : MemArgs} (h : s.Sound k) : Result.Sound k (execVsth o s) :=
  memWord_sound h fun _ hs => ite_keeps (P := Gives (State.Sound k)) hs.holdBody hs.storeBody

/-! ## Vector atomics -/

theorem amoElems_sound {o : MemArgs} {f : Nat → Nat → Nat} : ∀ (l : List (Elem × Place)) {s : State}, s.Sound k →
    Gives (fun x => x.2.Sound k) (amoElems o f l s)
  | [], _, h => h
  | (el, p) :: l, s, h => by
    unfold amoElems
    refine ite_keeps trivial ?_
    extract_lets old s₁ s₂
    have h₁ : s₁.Sound k := by
      unfold s₁
      split
      · exact h
      · exact h.checkAtomic
    have h₂ : s₂.Sound k := elemWrite_sound h₁
    split
    · trivial
    · next u hx =>
      have hu : u.Sound k := (amoElems_sound l h₂).of_eq hx
      exact hu

theorem State.Sound.amoBody {o : MemArgs} {f : Nat → Nat → Nat} (h : s.Sound k) :
    Gives (State.Sound k) (amoBody o f s) := by
  unfold Machine.amoBody
  extract_lets c r w els
  split
  · trivial
  · split
    · trivial
    · next t ht =>
      have ht : t.Sound k := h.checkElems.of_eq ht
      refine ite_keeps ht (ite_keeps trivial ?_)
      split
      · trivial
      · next u hu =>
        have hu : u.Sound k := (amoElems_sound _ ht).of_eq hu
        have hv : (if o.ord.getLsbD 0 then u.discardFetched o.sc else u).Sound k := ite_keeps hu.discardFetched hu
        exact ⟨hv.core.takeCM.putList.doneElems, hv.rest, hv.dev⟩

theorem vamo_sound {o : MemArgs} {ok : EType → Bool} {f : Nat → Nat → Nat} (h : s.Sound k) :
    Result.Sound k (vamo o ok f s) :=
  memWord_sound h fun _ hs => hs.amoBody

/-! ## Hash accumulation -/

theorem hashElem_sound {o : MemArgs} {r : Shape} {el : Elem} (h : s.Sound k) :
    Gives (State.Sound k) (hashElem o r s el) := by
  unfold hashElem
  extract_lets c key base x hash bad
  refine ite_keeps (h.setCore h.core.setV.setCM) ?_
  split
  · trivial
  · exact h.setBytes.setCore h.setBytes.core.putBit.setCM
  · exact h.setCore h.core.putBit.setHovf

theorem hashElems_sound {o : MemArgs} {r : Shape} : ∀ (l : List Elem) {s : State}, s.Sound k →
    Gives (State.Sound k) (hashElems o r l s)
  | [], _, h => h
  | el :: l, s, h => by
    unfold hashElems
    split
    · trivial
    · next ht => exact hashElems_sound l ((hashElem_sound h).of_eq ht)

theorem State.Sound.hashBody {o : MemArgs} (h : s.Sound k) : Gives (State.Sound k) (hashBody o s) := by
  unfold Machine.hashBody
  extract_lets c r els
  split
  · trivial
  · exact ite_keeps h (hashElems_sound _ (h.setCore h.core.takeHash))

theorem execVhacc_sound {o : MemArgs} (h : s.Sound k) : Result.Sound k (execVhacc o s) := by
  unfold execVhacc
  extract_lets tried
  have ht : ∀ t ∈ tried, t.Sound k := by
    unfold tried
    split
    · next t _ _ _ hb =>
      split
      · exact some_keeps (h.hashBody.of_eq hb)
      · exact none_keeps
    · exact none_keeps
  clear_value tried
  split
  · next t => exact (ht t rfl).stopWith fun _ => ht t rfl
  · exact memWord_sound h fun _ hs => hs.hashBody

/-! ## Key-value translation -/

theorem xltElem_sound {o : Owner} {ff : Bool} {pool : Pool} {tok : Nat → Nat → Nat} {bad : Elem → Bool} {i : Nat}
    {acc : Xlt × State} {el : Elem} (h : acc.2.Sound k) : (xltElem o ff pool tok bad i acc el).2.Sound k := by
  obtain ⟨x, s⟩ := acc
  have h : s.Sound k := h
  unfold xltElem
  dsimp -zeta only
  extract_lets put p j supp va use s'
  have h' : s'.Sound k := h.touched
  have huse : ∀ e t, t.Sound k → (use e t).2.Sound k := fun e t ht => ite_snd_sound ht ht
  clear_value use s'
  refine ite_snd_sound h (ite_snd_sound h (ite_snd_sound h (ite_snd_sound (huse _ _ h) ?_)))
  split
  · exact ite_snd_sound h' h'
  · next t ht =>
    have ht : t.Sound k := h.probeFor.of_eq ht
    exact ite_snd_sound (ite_snd_sound h (ite_snd_sound h h)) (huse _ _ (ite_keeps ht.pin ht))

theorem Core.Sound.trimYounger (h : c.Sound k) : c.trimYounger.Sound k := ⟨h.1, h.2⟩

theorem xltEnd_sound {o : MemArgs} {x : Xlt} (h : s.Sound k) : (xltEnd o x s).Sound k := by
  unfold xltEnd
  extract_lets s₁ s₂ c₁ c₂
  have h₁ : s₁.Sound k := foldl_state_sound (fun _ _ hs => hs.poisonNote) h
  have h₂ : s₂.Sound k := ite_keeps h₁.discardFetched h₁
  have hc : c₂.Sound k := h₂.core.putList.putList
  split
  · exact h₂.setCore (ite_keeps hc.suppress.trimYounger hc)
  · exact h₂.setCore hc

theorem State.Sound.xltBody {o : MemArgs} {ff : Bool} (h : s.Sound k) : Gives (State.Sound k) (xltBody o ff s) := by
  unfold Machine.xltBody
  extract_lets c own els first bad r
  have hr : r.2.Sound k :=
    List.foldlRecOn (motive := fun acc : Xlt × State => acc.2.Sound k) els _ h fun _ ha _ _ => xltElem_sound ha
  clear_value r
  split
  · trivial
  · trivial
  · exact ite_keeps (P := State.Sound k) hr (xltEnd_sound hr)

theorem xltWord_sound {o : MemArgs} {ff : Bool} (h : s.Sound k) : Result.Sound k (xltWord o ff s) :=
  memWord_sound h fun _ hs => hs.xltBody

end Sys2Proof.Machine

namespace Sys2Proof.Machine

variable {k : Inv} {m : Memory} {c c' : Core} {d d' : Device} {s t : State}

/-! ## What the engines reach -/

theorem checkRun_sound {o : Owner} {q : Acc} {sp : Bool} {acc : Fails × State} {r : Nat × Nat} (h : acc.2.Sound k) :
    (checkRun o q sp acc r).2.Sound k := by
  unfold checkRun
  extract_lets va
  refine ite_snd_sound h ?_
  split
  · next hp => exact ite_keeps (h.probeFor.of_eq hp) (State.Sound.pin (h.probeFor.of_eq hp))
  · exact h

theorem State.Sound.checkSpans {o : Owner} {l : List (Acc × Span)} (h : s.Sound k) :
    Gives (State.Sound k) (checkSpans o l s) := by
  unfold Machine.checkSpans
  split
  · trivial
  · extract_lets r
    have hr : r.2.Sound k :=
      List.foldlRecOn (motive := fun acc : Fails × State => acc.2.Sound k) l _ h fun _ ha x _ =>
        List.foldlRecOn (motive := fun acc : Fails × State => acc.2.Sound k) x.2.runs _ ha fun _ hb _ _ => checkRun_sound hb
    clear_value r
    split
    · trivial
    · exact hr

/-- The rights of a place are asked for in K mode; the core itself stays as it was. -/
theorem State.Sound.enginePlace {sp : Bool} {a n : Nat} {q : Acc} (h : s.Sound k) :
    Gives (fun x => x.2.Sound k) (enginePlace s sp a n q) := by
  unfold Machine.enginePlace
  extract_lets va
  have hk : (s.withCore fun c => { c with hstat := setBit c.hstat 0 true }).Sound k :=
    h.withCore (h.core.setHstat fun hs => setBit_within _ (by decide) hs)
  refine ite_keeps (P := Gives fun x : Place × State => x.2.Sound k) h ?_
  split
  · next t hp =>
    have ht : t.Sound k := hk.probe.of_eq hp
    exact ⟨h.core, ht.rest, ht.dev⟩
  · trivial
  · trivial

theorem State.Sound.readSpan {r : Span} (h : s.Sound k) : Gives (fun x => x.2.Sound k) (readSpan r s) := by
  unfold Machine.readSpan
  refine List.foldlRecOn (motive := Gives fun x : List Byte × State => x.2.Sound k) r.runs _ h ?_
  intro acc ha x _
  split
  · trivial
  · next u =>
    have hu : u.Sound k := ha
    split
    · trivial
    · next t hp =>
      have ht : t.Sound k := hu.enginePlace.of_eq hp
      split
      · trivial
      · exact ht

theorem writeRuns_sound {sp : Bool} : ∀ (l : List (Nat × Nat)) {bs : List Byte} {s : State}, s.Sound k →
    Gives (State.Sound k) (writeRuns sp l bs s)
  | [], _, _, h => h
  | x :: xs, bs, s, h => by
    unfold writeRuns
    split
    · trivial
    · next hp => exact writeRuns_sound xs (State.Sound.setBytes (h.enginePlace.of_eq hp))

theorem State.Sound.writeSpan {r : Span} {bs : List Byte} (h : s.Sound k) : Gives (State.Sound k) (writeSpan r bs s) :=
  writeRuns_sound _ h

theorem State.Sound.withRun {e : QEntry} (h : s.Sound k) : (s.withRun e).Sound k := h.withCore ⟨h.core.1, h.core.2⟩

theorem State.Sound.moveBytes {p q : Place} {n : Nat} (h : s.Sound k) : (moveBytes s p q n).Sound k := by
  unfold Machine.moveBytes
  split
  · exact ite_keeps h.setBytes h.setBytes
  · exact h.setBytes

theorem State.Sound.carryBytes {p q : Place} {n : Nat} (h : s.Sound k) : (carryBytes s p q n).Sound k := by
  unfold Machine.carryBytes
  exact ite_keeps h.moveBytes (foldl_state_sound (fun _ _ hs => hs.spoil) h.moveBytes.settlePoison)

theorem State.Sound.moveSpan {carry ssp dsp : Bool} {src dst n : Nat} (h : s.Sound k) :
    Gives (State.Sound k) (moveSpan carry ssp dsp src dst n s) := by
  unfold Machine.moveSpan
  refine List.foldlRecOn (motive := Gives (State.Sound k)) (copyRuns ssp dsp (2 * (n / 65536) + 4) src dst n) _ h ?_
  intro acc ha x _
  split
  · trivial
  · next u =>
    have hu : u.Sound k := ha
    split
    · trivial
    · next t hp =>
      have ht : t.Sound k := hu.enginePlace.of_eq hp
      split
      · trivial
      · next v hq =>
        have hv : v.Sound k := ht.enginePlace.of_eq hq
        split
        · trivial
        · exact hv.carryBytes

/-! ## How an engine's word stops and ends -/

theorem State.Sound.freezeEngine {q : Que} {rank : Nat} {i : StopInfo} (h : s.Sound k) :
    (freezeEngine q rank i s).Sound k := by
  unfold Machine.freezeEngine
  extract_lets e who
  have hu : s.stamp.2.Sound k := h.stamp
  generalize s.stamp = x at hu ⊢
  obtain ⟨st, u⟩ := x
  dsimp -zeta only
  extract_lets r v
  have hu : u.Sound k := hu
  have hv : v.Sound k :=
    hu.withCore (ite_keeps (P := Core.Sound k) ⟨hu.core.1, hu.core.2⟩ ⟨hu.core.1, hu.core.2⟩)
  exact hv.withDev hv.dev.pushOrWait

theorem engineRefuse_sound {q : Que} {e : Stop} (h : s.Sound k) : Result.Sound k (engineRefuse q s e) := by
  unfold engineRefuse
  split
  · exact ite_keeps h.freezeEngine h.refuseWord
  · exact h.refuseWord

theorem State.Sound.engineDefer {rank : Nat} {i : StopInfo} (h : s.Sound k) : (engineDefer rank i s).Sound k := h.takeTrap

theorem engineFail_sound {q : Que} {rank : Nat} {e : Stop} (h : s.Sound k) : Result.Sound k (engineFail q rank s e) := by
  cases e with
  | stop i => exact h.freezeEngine
  | deferred i => exact h.engineDefer
  | hold => exact h
  | wait post => exact h

/-- What an engine leaves of the hart in turn, when it works for another one. -/
theorem engineFail_focus_sound {q : Que} {rank n : Nat} {e : Stop} (h : s.Sound k) :
    Result.Sound k (match engineFail q rank s e with
      | .next t => .next (t.focus n)
      | r => r) := by
  have hf : Result.Sound k (engineFail q rank s e) := engineFail_sound h
  cases hr : engineFail q rank s e with
  | next t => exact State.Sound.focus (hf.of_eq hr)
  | fault _ => trivial
  | refused _ => trivial

theorem Core.Sound.finish {e : QEntry} (h : c.Sound k) : (c.finish e).Sound k := h.dropEntry.wordDone
theorem Core.Sound.passWord {j : Option Job} (h : c.Sound k) : (c.passWord j).Sound k := h.updEntry
theorem Core.Sound.startJob {j : Job} (h : c.Sound k) : (c.startJob j).Sound k := h.passWord.updEntry
theorem Core.Sound.setJob {n : Nat} {j : Job} (h : c.Sound k) : (c.setJob n j).Sound k := h.updEntry
theorem Core.Sound.setMaskBit {v : BitVec 5} {p : Nat} (h : c.Sound k) : (c.setMaskBit v p).Sound k := h.putBit

theorem Core.Sound.setChunks {mask : Option (BitVec 5)} {n : Nat} (h : c.Sound k) : (c.setChunks mask n).Sound k := by
  cases mask with
  | none => exact h
  | some v => exact foldN_sound (fun _ _ hc => hc.setMaskBit) h

/-! ## Copies -/

/-- A computation on states that gives a job beside a sound state. -/
def StartSound (k : Inv) (f : State → Except Stop (Job × State)) : Prop :=
  ∀ s, s.Sound k → Gives (fun x => x.2.Sound k) (f s)

theorem copyStart_sound {o : EngArgs} : StartSound k (copyStart o) := by
  intro s h
  unfold copyStart
  split
  · trivial
  · next l t ht =>
    have ht : t.Sound k := h.engineDesc.of_eq ht
    extract_lets j
    split
    · trivial
    · split
      · trivial
      · next hu => exact ht.checkSpans.of_eq hu

theorem aimed_sound {f : State → Except Stop (Job × State)} (hf : StartSound k f) : StartSound k (aimed f) := by
  intro s h
  unfold aimed
  split
  · exact h
  · exact hf s h

theorem copyRun_sound {o : EngArgs} : BodySound k (copyRun o) := by
  intro s h
  unfold copyRun
  split
  · trivial
  · next j t ht =>
    have ht : t.Sound k := (aimed_sound copyStart_sound s h).of_eq ht
    exact ht.withCore (ite_keeps ht.core.passWord (ite_keeps ht.core.finish ht.core.startJob))

theorem engineWord_sound {q : Que} {f : State → Except Stop State} {uses : State → Uses} (h : s.Sound k)
    (hf : BodySound k f) : Result.Sound k (engineWord q f uses s) := by
  unfold engineWord
  split
  · exact engineRefuse_sound h.touchAll
  · next ht => exact (hf s h).of_eq ht

theorem State.Sound.markOlder {e : QEntry} {j : Job} (h : s.Sound k) : (s.markOlder e j).Sound k :=
  h.withCore ⟨h.core.1, h.core.2⟩

theorem State.Sound.onWord {e : QEntry} {f : State → Except Stop State} (h : s.Sound k) (hf : BodySound k f) :
    Gives (State.Sound k) (s.onWord e f) := by
  unfold State.onWord
  split
  · trivial
  · next ht => exact State.Sound.withRun ((hf _ h.withRun).of_eq ht)

theorem State.Sound.copyChunk {e : QEntry} {j : Job} (h : s.Sound k) : Gives (State.Sound k) (s.copyChunk e j) := by
  unfold State.copyChunk
  refine h.onWord ?_
  intro s hs
  dsimp -zeta only
  split
  · trivial
  · next t ht =>
    have ht : t.Sound k := hs.moveSpan.of_eq ht
    extract_lets p j' u v
    have hu : u.Sound k := by
      refine ht.withCore ?_
      split
      · exact ht.core.setMaskBit
      · exact ht.core
    have hv : v.Sound k := ite_keeps (hu.markOlder.withCore hu.markOlder.core.finish) (hu.withCore hu.core.setJob)
    exact hv.settlePoison

theorem execCopyChunkArrival_sound {core idx : Nat} (h : s.Sound k) : Result.Sound k (execCopyChunkArrival core idx s) := by
  unfold execCopyChunkArrival
  extract_lets f
  have hf : f.Sound k := h.focus
  clear_value f
  split
  · exact h
  · split
    · exact h
    · refine ite_keeps h ?_
      split
      · next hc => exact State.Sound.focus (hf.copyChunk.of_eq hc)
      · exact engineFail_focus_sound hf

/-! ## Appends -/

theorem State.Sound.engineAmo {a : Word} {n : Nat} {f : Nat → Nat} (h : s.Sound k) :
    Gives (fun x => x.2.Sound k) (engineAmo a n f s) := by
  unfold Machine.engineAmo
  split
  · trivial
  · exact h.amoAt

theorem State.Sound.engineMove {carry : Bool} {src dst : Word} {n : Nat} (h : s.Sound k) :
    Gives (State.Sound k) (engineMove carry src dst n s) := by
  unfold Machine.engineMove
  split
  · trivial
  · next ht => exact State.Sound.moveSpan (h.checkSpans.of_eq ht)

theorem Append.put_sound {a : Append} {b : Nat} (h : s.Sound k) : Gives (State.Sound k) (a.put b s) := h.engineMove

theorem Append.pop_sound {a : Append} (h : s.Sound k) : Gives (fun x => x.2.Sound k) (a.pop s) := by
  unfold Append.pop
  extract_lets own
  split
  · trivial
  · next t ht =>
    have ht : t.Sound k := h.engineAmo.of_eq ht
    refine ite_keeps (P := Gives fun x : Option Nat × State => x.2.Sound k) ht ?_
    split
    · trivial
    · next hl => exact ht.load.of_eq hl

theorem Append.fresh_sound {a : Append} {e b : Nat} (h : s.Sound k) : Gives (fun x => x.2.Sound k) (a.fresh e b s) := by
  unfold Append.fresh
  extract_lets own old bv placed counted
  have hplaced : ∀ x : Nat × State, x.2.Sound k → Gives (fun x => x.2.Sound k) (placed x) := fun _ hx =>
    (Append.put_sound hx).bind fun _ hs => hs.store.bind fun _ ht => ht
  have hcounted : ∀ s, s.Sound k → Gives (fun x => x.2.Sound k) (counted s) := fun _ hs =>
    hs.engineAmo.bind fun _ hx => ite_keeps (hx.engineAmo.bind hplaced) (hplaced (0, _) hx)
  exact ite_keeps (h.engineMove.bind hcounted) (hcounted _ h)

theorem Append.run_sound {a : Append} (h : s.Sound k) : Gives (fun x => x.2.Sound k) (a.run s) := by
  unfold Append.run
  extract_lets own
  refine ite_keeps (P := Gives fun x : List Nat × State => x.2.Sound k) h (h.load.bind ?_)
  rintro ⟨e, s⟩ h
  dsimp -zeta only
  extract_lets old written counted
  have hwritten : ∀ s, s.Sound k → Gives (fun x => x.2.Sound k) (written s) := fun _ hs =>
    (Append.put_sound hs).bind fun _ ht => ht
  have hcounted : ∀ x : Nat × State, x.2.Sound k → Gives (fun x => x.2.Sound k) (counted x) := by
    rintro ⟨n, s⟩ h
    refine ite_keeps ((Append.pop_sound h).bind ?_) (ite_keeps (State.Sound.store h |>.bind hwritten) (hwritten _ h))
    rintro ⟨b, s⟩ h
    cases b with
    | none => exact h
    | some b => exact Append.fresh_sound h
  exact ite_keeps (State.Sound.engineAmo h |>.bind hcounted) (hcounted (0, _) h)

theorem Core.Sound.setAppend {vd : BitVec 5} {l : List Nat} (h : c.Sound k) : (c.setAppend vd l).Sound k :=
  Core.Sound.putBit (foldl_sound (fun _ _ hc => hc.setMaskBit) h)

theorem appendRun_sound {vd va : BitVec 5} {slot : BitVec 4} : BodySound k (appendRun vd va slot) := by
  intro s h
  unfold appendRun
  extract_lets c a
  split
  · trivial
  · refine ite_keeps trivial ?_
    split
    · trivial
    · split
      · trivial
      · next l t ht =>
        have ht : t.Sound k := (Append.run_sound h).of_eq ht
        exact (ht.withCore ht.core.setAppend.finish).settlePoison

theorem waitRun_sound {q : Que} {vec : Bool} {mreg : Option (BitVec 5)} {p : BitVec 18} :
    BodySound k (waitRun q vec mreg p) := by
  intro s h
  unfold waitRun
  extract_lets c older
  refine ite_keeps (P := Gives (State.Sound k)) (h.withCore h.core.passWord) (ite_keeps trivial (h.withCore ?_))
  refine Core.Sound.finish ?_
  split
  · exact h.core.setMaskBit
  · exact h.core

/-! ## Collective words -/

theorem collStart_sound {o : EngArgs} {q : CollKind} {op : BitVec 4} {et : EType} : StartSound k (collStart o q op et) := by
  intro s h
  unfold collStart
  split
  · trivial
  · next l t ht =>
    have ht : t.Sound k := h.engineDesc.of_eq ht
    extract_lets j chips
    split
    · trivial
    · split
      · trivial
      · next hu => exact ht.checkSpans.of_eq hu

theorem Core.Sound.collDone {e : QEntry} {j : Job} (h : c.Sound k) : (c.collDone e j).Sound k := h.setChunks.finish

theorem credWrite_sound {e : QEntry} {j : Job} {l : List (List Byte)} : BodySound k (credWrite e j l) := by
  intro s h
  unfold credWrite
  split
  · trivial
  · next t ht =>
    have ht : t.Sound k := h.writeSpan.of_eq ht
    exact (ht.withCore ht.core.collDone).settlePoison

theorem credRun_sound {op : BitVec 4} {o : EngArgs} {et : EType} : BodySound k (credRun op o et) := by
  intro s h
  unfold credRun
  split
  · trivial
  · split
    · trivial
    · next j t ht =>
      have ht : t.Sound k := (aimed_sound collStart_sound s h).of_eq ht
      refine ite_keeps (P := Gives (State.Sound k)) (ht.withCore ht.core.passWord)
        (ite_keeps ?_ (ht.withCore ht.core.startJob))
      split
      · trivial
      · next hr => exact credWrite_sound _ (ht.readSpan.of_eq hr)

theorem credWord_sound {op : BitVec 4} {o : EngArgs} {et : EType} (h : s.Sound k) : Result.Sound k (credWord op o et s) :=
  engineWord_sound h credRun_sound

theorem transferRun_sound {q : CollKind} {o : EngArgs} : BodySound k (transferRun q o) := by
  intro s h
  unfold transferRun
  split
  · trivial
  · next j t ht =>
    have ht : t.Sound k := (aimed_sound collStart_sound s h).of_eq ht
    exact ht.withCore (ite_keeps ht.core.passWord (ite_keeps ht.core.collDone ht.core.startJob))

theorem collWord_sound {q : CollKind} {o : EngArgs} (h : s.Sound k) : Result.Sound k (collWord q o s) :=
  engineWord_sound h transferRun_sound

theorem sendTo_sound {e : QEntry} {j : Job} {m : CollMsg} : BodySound k (sendTo e j m) := by
  intro s h
  unfold sendTo
  split
  · trivial
  · next bs t ht =>
    have ht : t.Sound k := h.readSpan.of_eq ht
    extract_lets u n joined
    have hu : u.Sound k := ht.withDev ⟨ht.dev.1, ht.dev.2⟩
    exact hu.withCore (ite_keeps hu.core.updEntry hu.core.collDone)

theorem receive_sound {e : QEntry} {j : Job} {m : CollMsg} : BodySound k (receive e j m) := by
  intro s h
  unfold receive
  split
  · trivial
  · next t ht =>
    have ht : t.Sound k := h.writeSpan.of_eq ht
    exact (ht.withCore ht.core.collDone).settlePoison

theorem State.meet_sound {e : QEntry} {j : Job} {m : CollMsg} : BodySound k fun s => s.meet e j m := by
  intro s h
  unfold State.meet
  exact ite_keeps trivial (ite_keeps trivial (ite_keeps (sendTo_sound s h) (receive_sound s h)))

theorem execCollectiveMatch_sound {m : CollMsg} (h : s.Sound k) : Result.Sound k (execCollectiveMatch m s) := by
  unfold execCollectiveMatch
  extract_lets f
  have hf : f.Sound k := h.focus
  clear_value f
  split
  · exact h
  · refine ite_keeps h ?_
    split
    · next hc => exact State.Sound.focus ((hf.onWord State.meet_sound).of_eq hc)
    · exact engineFail_focus_sound hf

theorem State.reduce_sound {e : QEntry} {j : Job} {chips : List Nat} {l : List CredPart} :
    BodySound k fun s => s.reduce e j chips l := by
  intro s h
  unfold State.reduce
  refine ite_keeps trivial (ite_keeps trivial ?_)
  split
  · trivial
  · next bs t ht =>
    have ht : t.Sound k := h.readSpan.of_eq ht
    split
    · trivial
    · exact credWrite_sound _ ht

theorem execCredJoin_sound {ctx grp : Nat} {tag : BitVec 16} {l : List CredPart} (h : s.Sound k) :
    Result.Sound k (execCredJoin ctx grp tag l s) := by
  unfold execCredJoin
  split
  · exact h
  · next c _ =>
    extract_lets f
    have hf : f.Sound k := h.focus
    clear_value f
    split
    · refine ite_keeps h ?_
      split
      · next hc => exact State.Sound.focus ((hf.onWord State.reduce_sound).of_eq hc)
      · exact engineFail_focus_sound hf
    · exact h

/-! ## The copies a stop completes -/

theorem State.Sound.runCopy {rank : Nat} : ∀ {n : Nat} {s : State}, s.Sound k → (s.runCopy n rank).1.Sound k
  | 0, _, h => h
  | n + 1, s, h => by
    unfold State.runCopy
    split
    · exact h
    · split
      · exact h
      · refine ite_keeps (P := fun x : State × Option Stop => x.1.Sound k) h ?_
        split
        · next hc => exact State.Sound.runCopy (h.copyChunk.of_eq hc)
        · exact h

theorem State.Sound.finishCopy {e : QEntry} (h : s.Sound k) : (s.finishCopy e).1.Sound k := by
  unfold State.finishCopy
  split
  · exact h.runCopy
  · exact h

theorem State.Sound.feedCopy {e : QEntry} (h : s.Sound k) : (s.feedCopy e).Sound k := by
  unfold State.feedCopy
  split
  · split
    · exact h
    · next j t ht =>
      have ht : t.Sound k := (copyStart_sound _ h.withRun).of_eq ht
      refine ite_keeps h ?_
      extract_lets t' u
      have ht' : t'.Sound k := (ht.withCore ht.core.startJob).withRun
      exact ite_keeps h ht'.finishCopy
  · exact h

theorem State.Sound.finishAll : ∀ (l : List QEntry) {s : State}, s.Sound k → (s.finishAll l).1.Sound k
  | [], _, h => h
  | e :: l, s, h => by
    have he : (s.finishCopy e).1.Sound k := h.finishCopy
    unfold State.finishAll
    split
    · next hx => rw [hx] at he; exact State.Sound.finishAll l he
    · next hx => rw [hx] at he; exact State.Sound.finishAll l he
    · next hx => rw [hx] at he; exact State.Sound.finishAll l he
    · next hx => rw [hx] at he; exact he

theorem State.Sound.finishCopies (h : s.Sound k) : s.finishCopies.1.Sound k :=
  ite_keeps (P := fun x : State × Option (Nat × Stop) => x.1.Sound k) h (State.Sound.finishAll _ h)

theorem State.Sound.settleCopies (h : s.Sound k) : s.settleCopies.Sound k := by
  unfold State.settleCopies
  extract_lets s₁ s₂
  have h₁ : s₁.Sound k := h.finishCopies
  have h₂ : s₂.Sound k := h₁.withCore ⟨h₁.core.1, h₁.core.2⟩
  exact ite_keeps h (foldl_state_sound (fun _ _ hs => hs.feedCopy) h₂)

theorem State.Sound.settleEngines (h : s.Sound k) : s.settleEngines.Sound k := by
  have h' := h.settleCopies
  exact h'.withCore ⟨h'.core.abandon.1, h'.core.abandon.2⟩

theorem State.Sound.stopByForce (h : s.Sound k) : s.stopByForce.Sound k := by
  have hf := h.finishCopies
  unfold State.stopByForce
  split
  · next hx => rw [hx] at hf; exact hf.engineDefer
  · next hx => rw [hx] at hf; exact hf.freezeEngine
  · next hx => rw [hx] at hf; exact hf.settleEngines.takeTrap

end Sys2Proof.Machine

namespace Sys2Proof.Machine

variable {k : Inv} {m : Memory} {c c' : Core} {d d' : Device} {s t : State}

/-! ## Marks, fences and the audit log -/

theorem execVsett_sound {b : Bool} {va : BitVec 5} {ix : BitVec 2} (h : s.Sound k) : Result.Sound k (execVsett b va ix s) :=
  plainWord_sound h fun _ hc => ⟨hc.1, hc.2⟩

theorem execVgett_sound {b : Bool} {vd : BitVec 5} {ix : BitVec 2} (h : s.Sound k) :
    Result.Sound k (execVgett b vd ix s) :=
  plainWord_sound h fun _ hc => ite_keeps hc.putElem.setV hc.putElem

theorem vfence_sound {acquires : Bool} {sc : Scope} (h : s.Sound k) : Result.Sound k (vfence acquires sc s) :=
  vecWord_sound h fun _ hs => ite_keeps (P := State.Sound k) hs.discardFetched hs

theorem execVmark_sound {b : Bool} {src : MarkSrc} (h : s.Sound k) : Result.Sound k (execVmark b src s) :=
  vecWord_sound h fun _ hs => ite_keeps (P := State.Sound k) hs.trace hs

theorem Device.Sound.auditPush {n : Nat} {l : List Byte} (h : d.Sound k) : (d.auditPush n l).Sound k := by
  unfold Device.auditPush
  split
  · exact h
  · exact h.putBytes.updCtx

theorem execAudlog_sound {o : AudArgs} (h : s.Sound k) : Result.Sound k (execAudlog o s) := by
  refine vecWord_sound h fun s hs => ?_
  extract_lets c m n st u r
  refine ite_keeps (P := Gives (State.Sound k)) hs (ite_keeps trivial ?_)
  exact State.Sound.withDev (s := u) hs (Device.Sound.auditPush hs.dev)

/-! ## Queue images -/

theorem Gives.map {ε α β : Type} {P : α → Prop} {Q : β → Prop} {x : Except ε α} {f : α → β} (h : Gives P x)
    (hf : ∀ a, P a → Q (f a)) : Gives Q (x.map f) :=
  match x with
  | .ok a => hf a h
  | .error _ => trivial

theorem State.Sound.loadBytes {va : Word} {n : Nat} (h : s.Sound k) : Gives (fun x => x.2.Sound k) (loadBytes va n s) := by
  unfold Machine.loadBytes
  split
  · trivial
  · next hc => exact State.Sound.readSpan (h.checkSpans.of_eq hc)

theorem State.Sound.storeBytes {va : Word} {l : List Byte} (h : s.Sound k) : Gives (State.Sound k) (storeBytes va l s) := by
  unfold Machine.storeBytes
  split
  · trivial
  · next t hc =>
    have ht : t.Sound k := h.checkSpans.of_eq hc
    exact ht.writeSpan.map fun _ hu => hu.settlePoison

theorem spanStop_sound {q : Acc} {va : Word} {n : Nat} {e : Stop} (h : s.Sound k) : Result.Sound k (spanStop q va n s e) :=
  h.touchAll.lastStop

theorem Core.Sound.emptied (h : c.Sound k) : c.emptied.Sound k := ⟨h.1, h.2⟩

theorem execVqsave_sound {r a : BitVec 5} (h : s.Sound k) : Result.Sound k (execVqsave r a s) := by
  unfold execVqsave
  extract_lets va q
  refine privileged_sound h (ite_keeps (misaligned_sound h) ?_)
  have hq : q.Sound k := h.settleEngines
  split
  · exact spanStop_sound h
  · next u hu =>
    have hu : u.Sound k := hq.storeBytes.of_eq hu
    exact (hu.withCore hu.core.emptied).writeNext

theorem Core.Sound.withHeader {l : List Byte} (h : c.Sound k) : (c.withHeader l).Sound k := ⟨h.1, h.2⟩

theorem Core.Sound.placeImage {l : List (Loaded × List Word)} (h : c.Sound k) : (c.placeImage l).Sound k := by
  unfold Core.placeImage
  extract_lets of_ known ranks same base c₁ placed
  have h₁ : c₁.Sound k := ite_keeps h ⟨h.1, h.2⟩
  have h' : placed.Sound k := foldl_sound (fun _ _ hc => hc.setQueue) h₁
  exact ⟨h'.1, h'.2⟩

theorem loadStop_sound {n : Nat} (h : s.Sound k) : (loadStop s n).Sound k := h.genFault

theorem execVqload_sound {a b : BitVec 5} (h : s.Sound k) : Result.Sound k (execVqload a b s) := by
  unfold execVqload
  extract_lets va n
  refine privileged_sound h (ite_keeps (loadStop_sound h) ?_)
  split
  · exact spanStop_sound h
  · next t ht =>
    have ht : t.Sound k := h.loadBytes.of_eq ht
    refine ite_keeps (loadStop_sound h) ?_
    split
    · exact spanStop_sound ht
    · next u hu =>
      have hu : u.Sound k := ht.loadBytes.of_eq hu
      extract_lets l n'
      refine ite_keeps (loadStop_sound h) ?_
      split
      · exact spanStop_sound hu
      · next v hv =>
        have hv : v.Sound k := hu.loadBytes.of_eq hv
        exact (hv.withCore hv.core.withHeader.placeImage).advance

theorem execVcmst_sound {a : BitVec 5} (h : s.Sound k) : Result.Sound k (execVcmst a s) := by
  unfold execVcmst
  extract_lets va
  refine privileged_sound h (ite_keeps (misaligned_sound h) (ite_keeps h.stall ?_))
  split
  · exact spanStop_sound h
  · next ht => exact State.Sound.advance (h.storeBytes.of_eq ht)

theorem execVcmld_sound {a : BitVec 5} (h : s.Sound k) : Result.Sound k (execVcmld a s) := by
  unfold execVcmld
  extract_lets va
  refine privileged_sound h (ite_keeps (misaligned_sound h) ?_)
  split
  · exact spanStop_sound h
  · next t ht =>
    have ht : t.Sound k := h.loadBytes.of_eq ht
    exact State.Sound.advance (ht.withCore ⟨ht.core.1, ht.core.2⟩)

/-! ## Events of the trap path -/

theorem execTrapEntry_sound {x : TrapReq} (h : s.Sound k) : Result.Sound k (execTrapEntry x s) := by
  unfold execTrapEntry
  exact ite_keeps h.takeTrap h

theorem execIllegalSWord_sound {w : BitVec 32} (h : s.Sound k) : Result.Sound k (execIllegalSWord w s) := h.genFault
theorem execIllegalVWord_sound {w : BitVec 64} (h : s.Sound k) : Result.Sound k (execIllegalVWord w s) := h.refuseWord

theorem execSWordFetchFault_sound (h : s.Sound k) : Result.Sound k (execSWordFetchFault s) := by
  unfold execSWordFetchFault
  split
  · exact h.touched.lastStop
  · exact h

theorem execSingleStepStop_sound {n : Nat} (h : s.Sound k) : Result.Sound k (execSingleStepStop n s) := by
  unfold execSingleStepStop
  extract_lets f g
  have hf : f.Sound k := h.focus
  have hg : g.Sound k := hf.withCore ⟨hf.core.1, hf.core.2⟩
  clear_value g f
  split
  · exact h
  · exact ite_keeps h (State.Sound.focus (ite_keeps hg hg.takeTrap))

theorem execWfeWake_sound {n : Nat} (h : s.Sound k) : Result.Sound k (execWfeWake n s) :=
  State.Sound.updCore h fun _ hc => ⟨hc.1, hc.2⟩

theorem Device.Sound.countLost {x : Ctx} {n : Nat} (h : d.Sound k) : (d.countLost x n).Sound k := h.setDram h.dram.setNum

theorem Device.Sound.dropRecords {x n : Nat} (h : d.Sound k) : (d.dropRecords x n).Sound k := by
  unfold Device.dropRecords
  split
  · exact h
  · exact h.countLost.updCtx

theorem execTrapRecordDrop_sound {n : Nat} (h : s.Sound k) : Result.Sound k (execTrapRecordDrop n s) := by
  unfold execTrapRecordDrop
  split
  · exact h
  · extract_lets room waits dropBatch
    have hb : Result.Sound k dropBatch := by
      unfold dropBatch
      split
      · exact h
      · split
        · exact h
        · next b _ =>
          extract_lets u
          have hu : u.Sound k := h.updCore fun _ hc => ⟨hc.1, hc.2⟩
          exact hu.withDev hu.dev.dropRecords
    clear_value dropBatch
    refine ite_keeps hb ?_
    split
    · split
      · exact h
      · extract_lets u
        have hu : u.Sound k := h.updCore fun _ hc => hc.enter
        exact hu.withDev hu.dev.dropRecords.updCtx
    · split
      · exact h.withDev h.dev.dropRecords.updCtx
      · exact hb

theorem Device.Sound.pushSome {n : Nat} : ∀ {l : List Record} {d : Device}, d.Sound k → (d.pushSome n l).2.Sound k
  | [], _, h => h
  | r :: l, d, h => by
    unfold Device.pushSome
    split
    · next x hx => exact Device.Sound.pushSome (h.tryPush x hx)
    · exact h

theorem State.Sound.finishEntry {x n : Nat} (h : s.Sound k) : (s.finishEntry x n).Sound k := by
  unfold State.finishEntry
  split
  · exact h
  · split
    · exact h
    · refine ite_keeps h ?_
      split
      · next d hd => exact (h.setDev (h.dev.tryPush d hd)).updCore fun _ hc => hc.enter
      · exact h

theorem State.Sound.flushRing {n : Nat} (h : s.Sound k) : (s.flushRing n).Sound k := by
  unfold State.flushRing
  extract_lets d
  have hd : d.Sound k := h.dev.payLost
  clear_value d
  split
  · exact h
  · extract_lets r d' v
    have hd' : d'.Sound k := hd.pushSome.updCtx
    have hv : v.Sound k := foldl_state_sound (fun _ _ hs => hs.finishEntry) (h.setDev hd')
    clear_value v
    split
    · exact hv
    · exact hv.setDev hv.dev.pushSome.updCtx

theorem execTrapRingConsWrite_sound {n : Nat} {x : RingWrite} (h : s.Sound k) :
    Result.Sound k (execTrapRingConsWrite n x s) := by
  unfold execTrapRingConsWrite
  split
  · exact h
  · extract_lets w
    have h₁ (v : Nat) (a : Nat) : (s.withDev fun d => { d with dram := d.dram.setNum 4 a v }).Sound k :=
      h.withDev (h.dev.setDram h.dev.dram.setNum)
    exact ite_keeps (h₁ _ _).flushRing (ite_keeps (h.withDev (h.dev.setDram h.dev.dram.setNum)) h)

/-! ## The kernel at a stopped hart -/

theorem Core.Sound.atRest (h : c.Sound k) : c.atRest.Sound k := ⟨h.1, h.2⟩

/-- A hart that yields keeps its status word; its trap words are those of reset. -/
theorem Core.Sound.yielded (h : c.Sound k) : c.yielded.Sound k := by
  cases k with
  | memory => exact ⟨rfl, trivial⟩
  | status =>
    obtain ⟨hs, -, -, -⟩ := statusLegal_iff.mp h.2
    have ht : (0#64 &&& ~~~0x7FFFFFFFFFFFFC#64 = 0) ∧ 0#64 &&& ~~~0xF#64 = 0 ∧ 0#64 &&& 3 ≠ 3 := by decide
    exact ⟨trivial, statusLegal_iff.mpr ⟨hs, ht⟩⟩

theorem State.Sound.leave (h : s.Sound k) (hc : c.Sound k) : (s.leave c).Sound k := by
  have hd : ({ s.dev with saved := s.dev.saved ++ [c.atRest] } : Device).Sound k :=
    h.dev.setSaved (h.dev.saved.append (CoresSound.nil.cons hc.atRest))
  exact ⟨Core.sound_vacated, h.rest, hd.settleGang⟩

theorem State.Sound.destroy {g : BitVec 16} (h : s.Sound k) : (s.destroy g).Sound k := by
  unfold State.destroy
  extract_lets free
  have hfree : ∀ c, c.Sound k → (free c).Sound k := fun _ hc => ite_keeps Core.sound_vacated hc
  exact ⟨hfree _ h.core, h.rest.map hfree, (h.dev.setSaved h.dev.saved.filter).endGang⟩

theorem Core.Sound.withSpadOf (h : c.Sound k) (h' : c'.Sound k) : (c.withSpadOf c').Sound k := ⟨h'.1, h.2⟩

theorem State.Sound.serveCall {x : KStop} (h : s.Sound k) : (s.serveCall x).Sound k := by
  unfold State.serveCall
  extract_lets c c'
  have hc : c'.Sound k := ⟨h.core.yielded.1, h.core.yielded.2⟩
  exact ite_keeps (h.leave (ite_keeps (hc.withSpadOf h.core) hc)) h.destroy

theorem State.Sound.serveNest {x : KStop} (h : s.Sound k) : (s.serveNest x).Sound k := by
  unfold State.serveNest
  extract_lets u
  have hu : u.Sound k := h.settleEngines
  exact ite_keeps h.serveCall (ite_keeps (hu.leave ⟨hu.core.1, hu.core.2⟩) h.destroy)

theorem State.Sound.resume (h : s.Sound k) : s.resume.Sound k :=
  State.Sound.eret (h.withCore ⟨h.core.1, h.core.2⟩)

theorem State.Sound.kernelServe (h : s.Sound k) : s.kernelServe.Sound k := by
  unfold State.kernelServe
  split
  · exact h
  · exact ite_keeps h.serveNest (ite_keeps h h.resume)

theorem State.Sound.onCore {n : Nat} {f : State → State} (h : s.Sound k) (hf : ∀ s, s.Sound k → (f s).Sound k) :
    (s.onCore n f).Sound k := by
  unfold State.onCore
  exact ite_keeps (hf _ h.focus).focus h

theorem State.Sound.enterHandler (h : s.Sound k) : s.enterHandler.Sound k := by
  unfold State.enterHandler
  split
  · exact h
  · exact ite_keeps h (h.withCore ⟨h.core.1, h.core.2⟩)

theorem execKernelResumeHart_sound {n : Nat} (h : s.Sound k) : Result.Sound k (execKernelResumeHart n s) :=
  State.Sound.onCore h fun _ hs => hs.kernelServe
theorem execKernelEnterHandler_sound {n : Nat} (h : s.Sound k) : Result.Sound k (execKernelEnterHandler n s) :=
  State.Sound.onCore h fun _ hs => hs.enterHandler

theorem State.Sound.updSeat {w : Seat} {f : Core → Core} (h : s.Sound k) (hf : ∀ c, c.Sound k → (f c).Sound k) :
    (s.updSeat w f).Sound k := by
  cases w with
  | core n => exact h.updCore hf
  | off g n => exact h.withDev (h.dev.setSaved (h.dev.saved.map fun c hc => ite_keeps (hf c hc) hc))

theorem Core.Sound.thawCopy (h : c.Sound k) : c.thawCopy.Sound k := by
  unfold Core.thawCopy
  exact ite_keeps ⟨h.1, h.2⟩ h

theorem Core.Sound.thawColl (h : c.Sound k) : c.thawColl.Sound k := by
  unfold Core.thawColl
  exact ite_keeps ⟨h.1, h.2⟩ h

theorem execThawMaster_sound {x : Master} (h : s.Sound k) : Result.Sound k (execThawMaster x s) := by
  cases x with
  | hart w => exact State.Sound.updSeat h fun _ hc => ⟨hc.1, hc.2⟩
  | copyEngine w => exact State.Sound.updSeat h fun _ hc => hc.thawCopy
  | collPort w => exact State.Sound.updSeat h fun _ hc => hc.thawColl
  | func vf => exact h.withDev h.dev.updFunc

/-! ## Counters -/

theorem State.Sound.overflowRecord {p : Word × Word} (h : s.Sound k) : (s.overflowRecord p).Sound k := by
  have hs : ({ s with free := s.free + 3 } : State).Sound k := h.setFree
  exact hs.stamp.withDev hs.stamp.dev.pushOrWait

theorem State.Sound.sampleRecord {p : Word × Word} (h : s.Sound k) : (s.sampleRecord p).Sound k :=
  State.Sound.trace h.setFree

theorem State.Sound.counterWraps {w : Word} {p : Word × Word} (h : s.Sound k) : (s.counterWraps w p).Sound k := by
  unfold State.counterWraps
  extract_lets u
  have hu : u.Sound k := ite_keeps h.overflowRecord h
  exact ite_keeps hu.sampleRecord hu

theorem State.Sound.addCounter {core ev n i : Nat} {p : Word × Word} (h : s.Sound k) :
    (State.addCounter core ev n p s i).Sound k := by
  unfold State.addCounter
  extract_lets b w v u
  have hu : u.Sound k := h.withDev h.dev.putBank
  exact ite_keeps h (ite_keeps hu.counterWraps hu)

theorem State.Sound.countEvents {p : Word × Word} {l : List (Nat × Nat)} (h : s.Sound k) : (s.countEvents p l).Sound k := by
  unfold State.countEvents
  extract_lets core
  refine ite_keeps h (foldl_state_sound (fun s i hs => ?_) h)
  extract_lets code
  split
  · exact hs
  · exact hs.addCounter

end Sys2Proof.Machine

namespace Sys2Proof.Machine

variable {k : Inv} {m : Memory} {c c' : Core} {d d' : Device} {s t : State}

/-! ## Admission -/

/-- A fold over a list that keeps the device sound at each. -/
theorem foldl_device_sound {α : Type} {l : List α} {f : Device → α → Device} (hf : ∀ d a, d.Sound k → (f d a).Sound k)
    (h : d.Sound k) : (l.foldl f d).Sound k :=
  List.foldlRecOn l f h fun d hd a _ => hf d a hd

/-- A choice between two results that each carry a sound device. -/
theorem ite_snd_device {α : Type} {p : Prop} [Decidable p] {x y : α × Device} (hx : x.2.Sound k) (hy : y.2.Sound k) :
    (if p then x else y).2.Sound k :=
  ite_keeps (P := fun x : α × Device => x.2.Sound k) hx hy

/-- A choice between two results that each begin with a sound state. -/
theorem ite_fst_sound {α : Type} {p : Prop} [Decidable p] {x y : State × α} (hx : x.1.Sound k) (hy : y.1.Sound k) :
    (if p then x else y).1.Sound k :=
  ite_keeps (P := fun x : State × α => x.1.Sound k) hx hy

theorem Device.Sound.ctxPlace {x : Ctx} {va : Nat} (h : d.Sound k) : (d.ctxPlace x va).2.Sound k := by
  unfold Device.ctxPlace
  split
  · exact h
  · next l _ =>
    extract_lets d₁ pa
    have h₁ : d₁.Sound k := h.setDram h.dram.setNum
    clear_value d₁
    refine ite_snd_device h (ite_snd_device ?_ (ite_snd_device h₁ h₁))
    split
    · next p hp => exact h₁.hostTranslate hp
    · exact h₁

theorem Device.Sound.ctxLines {x : Ctx} : ∀ {n va : Nat} {d : Device}, d.Sound k → (d.ctxLines x n va).2.Sound k
  | 0, _, _, h => h
  | n + 1, va, d, h => by
    have hp : (d.ctxPlace x va).2.Sound k := h.ctxPlace
    unfold Device.ctxLines
    split
    · next e => rw [e] at hp; exact hp
    · next e =>
      rw [e] at hp
      split
      · exact hp
      · exact Device.Sound.ctxLines hp

theorem Device.Sound.decide_ {vf i : Nat} {r : Fin 2} (h : d.Sound k) : (d.decide_ vf r i).2.Sound k := by
  unfold Device.decide_
  extract_lets f e
  split
  · exact h
  · next x _ =>
    refine ite_snd_device h (ite_snd_device h ?_)
    have hl : (d.ctxLines x 3 e.1.toNat).2.Sound k := h.ctxLines
    split
    · next e => rw [e] at hl; exact hl
    · next e => rw [e] at hl; exact hl

theorem Device.Sound.post {a : Ask} (h : d.Sound k) : (d.post a).Sound k := h
theorem Device.Sound.answered {a : Ask} (h : d.Sound k) : (d.answered a).Sound k := h

theorem execAdmission_sound {vf : Nat} {ring1 : Bool} (h : s.Sound k) : Result.Sound k (execAdmission vf ring1 s) := by
  unfold execAdmission
  extract_lets r f i ask u past ctx
  have hu : u.Sound k := h.withDev h.dev.answered
  have hpast : ∀ d, d.Sound k → (past d).Sound k := fun _ hd => hd.updFunc
  have hd : (u.dev.decide_ vf r i).2.Sound k := hu.dev.decide_
  clear_value u past ctx
  refine ite_keeps h (ite_keeps (h.withDev h.dev.post) ?_)
  split
  · next e => rw [e] at hd; exact hu.setDev hd
  · next e => rw [e] at hd; exact hu.setDev (hpast _ hd).setEntry
  · next g d e =>
    rw [e] at hd
    have hg : ({ d with gangs := d.gangs ++ [g], order := d.order + 1 } : Device).Sound k := ⟨hd.1, hd.2⟩
    exact hu.setDev (hpast _ hg).setEntry

theorem execRing0TailWrite_sound {vf : Nat} {x : BitVec 12} (h : s.Sound k) :
    Result.Sound k (execRing0TailWrite vf x s) := h.withDev h.dev.updFunc

/-! ## Placing gangs -/

theorem State.Sound.putCore (h : s.Sound k) (hc : c.Sound k) : (s.putCore c).Sound k := by
  unfold State.putCore
  exact ite_keeps (h.setCore hc) ⟨h.core, h.rest.filter.cons hc, h.dev⟩

theorem launchHart_sound {g : Gang} {n : Nat} : (launchHart d g n).Sound k := ⟨Core.sound_reset.1, Core.sound_reset.2⟩

theorem Device.Sound.hartFor {g : Gang} {n : Nat} (h : d.Sound k) : (d.hartFor g n).Sound k := by
  unfold Device.hartFor
  exact getD_keeps (P := Core.Sound k) (fun _ => h.saved.find?) launchHart_sound

/-- A hart takes its seat with a handler's address in `tvec`. -/
theorem State.Sound.seat {g : Gang} {n i : Nat} (h : s.Sound k) : (s.seat g n i).Sound k := by
  unfold State.seat
  extract_lets d c handler seq
  have hc : ({ c with t := { c.t with tvec := keep handler 54 2 } } : Core).Sound k := h.dev.hartFor.setTvec
  exact h.putCore ⟨hc.1, hc.2⟩

theorem Device.Sound.carryBanks {n : Nat} {l : List (Nat × Nat)} (h : d.Sound k) : (d.carryBanks n l).Sound k :=
  foldl_device_sound (fun _ _ hd => hd.putBank) h

theorem State.Sound.placeGang {g : Gang} {l : List Nat} (h : s.Sound k) : (s.placeGang g l).Sound k := by
  unfold State.placeGang
  extract_lets harts moves u root key
  have hu : u.Sound k := foldl_state_sound (fun _ _ hs => hs.seat) h
  have hd : (u.dev.carryBanks g.ctx moves).Sound k := hu.dev.carryBanks
  exact hu.withDev ⟨hd.dram, hd.host, hu.dev.saved.filter, hd.ckpts, hd.arrivals, hd.moves⟩

theorem Device.Sound.refuseUnfit (h : d.Sound k) : d.refuseUnfit.Sound k := by
  unfold Device.refuseUnfit
  refine foldl_device_sound (fun d g hd => ?_) h
  extract_lets r w d'
  have hd' : d'.Sound k := hd.updGang.setEntry
  have hs := hd'.setSaved (l := d'.saved.filter fun c => c.gang16 != g.gid) hd'.saved.filter
  exact Device.Sound.closeAudit ⟨hs.1, hs.2⟩

theorem State.Sound.requestPreempt {g : BitVec 16} (h : s.Sound k) : (s.requestPreempt g).Sound k := by
  unfold State.requestPreempt
  extract_lets ask
  have hask : ∀ c, c.Sound k → (ask c).Sound k := fun _ hc => ite_keeps ⟨hc.1, hc.2⟩ hc
  exact ite_keeps ⟨hask _ h.core, h.rest.map hask, h.dev⟩ h

theorem State.Sound.makeRoom {want : Nat} : ∀ {l : List Gang} {n : Nat} {s : State}, s.Sound k →
    (s.makeRoom want l n).Sound k
  | [], _, _, h => h
  | _ :: _, _, _, h => ite_keeps h (State.Sound.makeRoom h.requestPreempt)

theorem State.Sound.reserveFor {g : Gang} (h : s.Sound k) : (s.reserveFor g).Sound k :=
  State.Sound.makeRoom (h.withDev ⟨h.dev.1, h.dev.2⟩)

theorem execPreemptGangWrite_sound {vf : Nat} {g : BitVec 16} (h : s.Sound k) :
    Result.Sound k (execPreemptGangWrite vf g s) := by
  unfold execPreemptGangWrite
  extract_lets u
  have hu : u.Sound k := h.withDev h.dev.updFunc
  exact ite_keeps (P := State.Sound k) hu.requestPreempt hu

theorem execTimeSliceExpiry_sound {g : BitVec 16} (h : s.Sound k) : Result.Sound k (execTimeSliceExpiry g s) := by
  unfold execTimeSliceExpiry
  split
  · exact h
  · exact ite_keeps (P := State.Sound k) h.requestPreempt h

theorem execGraceExpiry_sound {n : Nat} (h : s.Sound k) : Result.Sound k (execGraceExpiry n s) :=
  State.Sound.onCore h fun _ hs => ite_keeps hs.stopByForce hs

/-! ## The dispatch round -/

theorem State.Sound.placeFor {g : Gang} (h : s.Sound k) : (s.placeFor g).Sound k :=
  h.placeGang.withDev h.placeGang.dev.updFunc

theorem State.Sound.serveFunction {vf prio : Nat} : ∀ {n : Nat} {s : State} {p : Bool}, s.Sound k →
    (s.serveFunction vf prio n p).1.Sound k
  | 0, _, _, h => h
  | n + 1, s, p, h => by
    unfold State.serveFunction
    split
    · exact h
    · exact ite_fst_sound h (ite_fst_sound h.reserveFor (State.Sound.serveFunction h.placeFor))

theorem State.Sound.servePriority {prio : Nat} : ∀ {l : List Nat} {s : State} {p : Bool}, s.Sound k →
    (s.servePriority prio l p).1.Sound k
  | [], _, _, h => h
  | f :: l, s, p, h => by
    unfold State.servePriority
    extract_lets u r
    have hu : u.Sound k := h.withDev ⟨h.dev.updFunc.1, h.dev.updFunc.2⟩
    have hr : r.1.Sound k := hu.serveFunction
    exact ite_fst_sound hr (State.Sound.servePriority hr)

theorem State.Sound.repeatPriority {prio : Nat} : ∀ {n : Nat} {s : State}, s.Sound k →
    (s.repeatPriority prio n).1.Sound k
  | 0, _, h => h
  | n + 1, s, h => by
    unfold State.repeatPriority
    extract_lets r
    have hr : r.1.Sound k := h.servePriority
    exact ite_fst_sound hr (ite_fst_sound (State.Sound.repeatPriority hr) hr)

theorem State.Sound.priorities : ∀ {l : List Nat} {s : State}, s.Sound k → (s.priorities l).Sound k
  | [], _, h => h
  | p :: l, s, h => by
    unfold State.priorities
    extract_lets r
    have hr : r.1.Sound k := h.repeatPriority
    exact ite_keeps hr (State.Sound.priorities hr)

theorem State.Sound.clearDeficits (h : s.Sound k) : s.clearDeficits.Sound k := h.withDev ⟨h.dev.1, h.dev.2⟩

theorem State.Sound.serveReserved : ∀ {n : Nat} {s : State}, s.Sound k → (s.serveReserved n).Sound k
  | 0, _, h => h
  | n + 1, s, h => by
    unfold State.serveReserved
    split
    · exact h
    · exact ite_keeps (State.Sound.serveReserved h.placeFor) h

theorem execDispatchRound_sound (h : s.Sound k) : Result.Sound k (execDispatchRound s) := by
  unfold execDispatchRound
  extract_lets waits u v over_
  have hd : ({ s.dev with reserved := s.dev.reserved.filter fun gid => (s.dev.liveGang gid).any waits } : Device).Sound k :=
    ⟨h.dev.1, h.dev.2⟩
  have hu : u.Sound k := h.withDev hd.refuseUnfit
  exact hu.serveReserved.priorities.clearDeficits

/-! ## Groups and function resets -/

theorem execCollectiveGroupBind_sound {ctx grp : Nat} {l : List Nat} (h : s.Sound k) :
    Result.Sound k (execCollectiveGroupBind ctx grp l s) := by
  unfold execCollectiveGroupBind
  exact ite_keeps (h.withDev h.dev.updCtx) h

theorem execFunctionLevelReset_sound {vf : Nat} (h : s.Sound k) : Result.Sound k (execFunctionLevelReset vf s) := by
  unfold execFunctionLevelReset
  extract_lets gids u
  have hu : u.Sound k := foldl_state_sound (fun _ _ hs => hs.destroy) h
  exact hu.withDev hu.dev.updFunc

end Sys2Proof.Machine

namespace Sys2Proof.Machine

variable {k : Inv} {m : Memory} {c c' : Core} {d d' : Device} {s t : State}

/-! ## Frames and tables -/

theorem stayDue_sound (h : s.Sound k) : Result.Sound k s.stayDue := h.stall
theorem State.Sound.deviceStamp (h : s.Sound k) : s.deviceStamp.2.Sound k := h.setDev h.dev.stamp
theorem State.Sound.post {n : Notice} (h : s.Sound k) : (s.post n).Sound k := h.withDev ⟨h.dev.1, h.dev.2⟩

theorem Device.Sound.putFrame {n : Nat} {e : Word} (h : d.Sound k) : (d.putFrame n e).Sound k := h
theorem Device.Sound.zeroFrame {n : Nat} (h : d.Sound k) : (d.zeroFrame n).Sound k := h.setDram h.dram.clear
theorem Device.Sound.putEntry {a e : Nat} (h : d.Sound k) : (d.putEntry a e).Sound k := h.setDram h.dram.setNum
theorem Device.Sound.enterTag {x : BitVec 32} {y : BitVec 256} (h : d.Sound k) : (d.enterTag x y).Sound k := h

theorem Device.Sound.foldN {n : Nat} {f : Nat → Device → Device} (hf : ∀ i d, d.Sound k → (f i d).Sound k)
    (h : d.Sound k) : (foldN n f d).Sound k :=
  foldN_keeps (P := Device.Sound k) hf n h

theorem Device.Sound.splitLeaf {l : Leaf} {n : Nat} (h : d.Sound k) : (d.splitLeaf l n).Sound k :=
  Device.Sound.putEntry (h.zeroFrame.foldN fun _ _ hd => hd.putEntry)

theorem moveLeaf_sound {f g : Nat} {x : Device × List Nat} {l : Leaf} (h : x.1.Sound k) :
    (Device.moveLeaf f g x l).1.Sound k := by
  unfold Device.moveLeaf
  refine ite_keeps (P := fun x : Device × List Nat => x.1.Sound k) h
    (ite_keeps (P := fun x : Device × List Nat => x.1.Sound k) h.putEntry ?_)
  split
  · exact h
  · exact h.splitLeaf.putEntry

theorem Device.Sound.followRings {f g : Nat} (h : d.Sound k) : (d.followRings f g).Sound k := ⟨h.1, h.2⟩

theorem Device.Sound.moveFrame {f g : Nat} {l : List Nat} (h : d.Sound k) : (d.moveFrame f g l).Sound k := by
  unfold Device.moveFrame
  extract_lets e slots lvs spoilt d₁ d₂ d₃
  have hc := h.setDram (h.dram.copyRange (src := d.dram) (a := f * 65536) (b := g * 65536) (n := 65536))
  have h₁ : d₁.Sound k := Device.Sound.followRings ⟨hc.1, hc.2⟩
  have h₂ : d₂.Sound k := h₁.putFrame.putFrame.zeroFrame
  have h₃ : d₃.Sound k := foldl_device_sound (fun _ _ hd => ite_keeps hd.putEntry hd) h₂
  exact List.foldlRecOn (motive := fun x : Device × List Nat => x.1.Sound k) lvs _ h₃ fun _ hx _ _ => moveLeaf_sound hx

theorem Core.Sound.follow {f g : Nat} (h : c.Sound k) : (c.follow f g).Sound k := ⟨h.1, h.2⟩

theorem State.Sound.moveFrame {f g : Nat} {l : List Nat} (h : s.Sound k) : (s.moveFrame f g l).Sound k :=
  ⟨h.core.follow, h.rest.map fun _ hc => hc.follow, h.dev.moveFrame⟩

theorem State.Sound.relocate {l : List Nat} {f : Nat} (h : s.Sound k) : ∀ t ∈ s.relocate l f, t.Sound k := by
  unfold State.relocate
  extract_lets d r old
  clear_value d r old
  split
  · exact none_keeps
  · split
    · exact none_keeps
    · refine map_keeps fun ts _ => ?_
      exact List.foldlRecOn (motive := fun x : State × List Nat => x.1.Sound k) old _ h fun _ hx _ _ => hx.moveFrame

theorem Device.Sound.tableAt {slot level : Nat} {l : List Nat} (h : d.Sound k) :
    ∀ x ∈ d.tableAt slot level l, x.2.1.Sound k := by
  unfold Device.tableAt
  extract_lets e
  split
  · split
    · exact none_keeps
    · exact some_keeps h
  · split
    · exact none_keeps
    · split
      · exact some_keeps h.zeroFrame.putEntry
      · exact none_keeps

theorem Device.Sound.putLeaf {root va leaf : Nat} {l : List Nat} (h : d.Sound k) :
    ∀ x ∈ d.putLeaf root va leaf l, x.1.Sound k := by
  unfold Device.putLeaf
  split
  · exact none_keeps
  · next e₂ =>
    have h₂ := h.tableAt _ e₂
    split
    · exact none_keeps
    · next e₃ => exact some_keeps (Device.Sound.putEntry (Device.Sound.tableAt h₂ _ e₃))

/-! ## Serving pages -/

theorem Device.Sound.mapPage {g : Gang} {page : Nat} {r : Reserved} {l : List Nat} (h : d.Sound k) :
    ∀ x ∈ d.mapPage g page r l, x.1.Sound k := by
  unfold Device.mapPage
  split
  · exact none_keeps
  · split
    · exact none_keeps
    · exact h.zeroFrame.putFrame.putLeaf

theorem Device.Sound.servePage {x : Ctx} {g : Gang} {l : List Nat} {p : PageReq} (h : d.Sound k) :
    (d.servePage x g l p).2.1.Sound k := by
  unfold Device.servePage
  split
  · exact ite_keeps (P := fun x : Served × Device × List Nat => x.2.1.Sound k) ⟨h.1, h.2⟩ h
  · split
    · exact h
    · split
      · next e => exact h.mapPage _ e
      · exact h

theorem Device.Sound.servePages {x : Ctx} {g : Gang} : ∀ {l : List PageReq} {fs : List Nat} {r w : Bool} {d : Device},
    d.Sound k → (d.servePages x g l fs r w).2.2.Sound k
  | [], _, _, _, _, h => h
  | p :: _, fs, _, _, d, h => by
    have hp : (d.servePage x g fs p).2.1.Sound k := h.servePage
    rw [Device.servePages]
    exact Device.Sound.servePages hp

theorem Core.Sound.answer {n : Nat} {b : Bool} (h : c.Sound k) : (c.answer n b).Sound k := by
  unfold Core.answer
  exact ite_keeps ⟨h.1, h.2⟩ ⟨h.1, h.2⟩

theorem State.Sound.answerBatch {ctx seq : Nat} {b : Bool} (h : s.Sound k) : (s.answerBatch ctx seq b).Sound k := by
  unfold State.answerBatch
  extract_lets f
  have hf : ∀ c, c.Sound k → (f c).Sound k := fun _ hc => ite_keeps hc.answer hc
  exact ⟨hf _ h.core, h.rest.map hf, h.dev⟩

theorem execPageService_sound {n : Nat} {l : List Nat} (h : s.Sound k) : Result.Sound k (execPageService n l s) := by
  unfold execPageService
  split
  · exact h
  · split
    · exact h
    · split
      · exact h
      · extract_lets mine
        clear_value mine
        split
        · exact h
        · extract_lets r u
          have hu : u.Sound k := h.setDev h.dev.servePages
          exact ite_keeps (P := State.Sound k) hu.answerBatch (ite_keeps hu hu.answerBatch)

theorem execFaultResponseWrite_sound {v : BitVec 64} (h : s.Sound k) : Result.Sound k (execFaultResponseWrite v s) := by
  unfold execFaultResponseWrite
  extract_lets ctx seq u
  have hu : u.Sound k := h.withDev ⟨h.dev.1, h.dev.2⟩
  clear_value u
  refine ite_keeps (P := State.Sound k) ?_ hu
  split
  · exact hu.answerBatch
  · exact hu.answerBatch
  · exact hu

theorem Device.Sound.bindHost {a b : Nat} {x : Option Nat} (h : d.Sound k) : (d.bindHost a b x).Sound k := ⟨h.1, h.2⟩

theorem State.Sound.priDenied {a b : Nat} (h : s.Sound k) : (s.priDenied a b).Sound k := by
  unfold State.priDenied
  extract_lets f
  have hf : ∀ c, c.Sound k → (f c).Sound k := fun _ hc => ite_keeps ⟨hc.1, hc.2⟩ hc
  exact ⟨hf _ h.core, h.rest.map hf, h.dev⟩

theorem execPriPageResponse_sound {a b n : Nat} {p : Bool} (h : s.Sound k) :
    Result.Sound k (execPriPageResponse a b p n s) := by
  unfold execPriPageResponse
  extract_lets u
  have hu : u.Sound k := h.withDev h.dev.bindHost
  exact ite_keeps (P := State.Sound k) hu hu.priDenied

theorem State.Sound.unpinIn {ctx va n : Nat} (h : s.Sound k) : (s.unpinIn ctx va n).Sound k := by
  unfold State.unpinIn
  extract_lets drop f
  have hf : ∀ c, c.Sound k → (f c).Sound k := fun _ hc => ite_keeps ⟨hc.1, hc.2⟩ hc
  exact ⟨hf _ h.core, h.rest.map hf, h.dev⟩

theorem execAtsInvalidation_sound {a b n : Nat} (h : s.Sound k) : Result.Sound k (execAtsInvalidation a b n s) := by
  unfold execAtsInvalidation
  extract_lets va n l
  have hl := foldl_state_sound (l := l) (f := fun s c => s.unpinIn c va n) (fun _ _ hs => hs.unpinIn) h
  exact ite_keeps (stayDue_sound h) (hl.withDev ⟨hl.dev.1, hl.dev.2⟩)

theorem execTranslationInvalidation_sound {a n : Nat} {va : BitVec 64} (h : s.Sound k) :
    Result.Sound k (execTranslationInvalidation a va n s) := by
  unfold execTranslationInvalidation
  exact ite_keeps (stayDue_sound h) h.unpinIn

theorem Device.Sound.pageToHost {x : Ctx} {l : Leaf} {page host n : Nat} (h : d.Sound k) :
    (d.pageToHost x l page host n).Sound k := by
  unfold Device.pageToHost
  extract_lets a spoilt d₁
  have hc := h.setHost (h.host.copyRange (src := d.dram) (a := a) (b := host * 65536) (n := n))
  have h₁ : d₁.Sound k := ⟨hc.1, hc.2⟩
  exact Device.Sound.putEntry (h₁.foldN fun _ _ hd => hd.bindHost)

theorem Device.Sound.pageToDevice {x : Ctx} {l : Leaf} {page f n : Nat} (h : d.Sound k) :
    (d.pageToDevice x l page f n).Sound k := by
  unfold Device.pageToDevice
  refine h.putEntry.foldN fun i d hd => ?_
  have hz : ((d.zeroFrame (f + i)).putFrame (f + i) (ownedEntry x.id (d.keyOf x))).Sound k := hd.zeroFrame.putFrame
  split
  · exact hz
  · extract_lets spoilt
    exact ⟨hd.dram.copyRange, hz.2⟩

theorem execPageMigration_sound {ctx page : Nat} {va : BitVec 64} {b : Bool} (h : s.Sound k) :
    Result.Sound k (execPageMigration ctx va b page s) := by
  unfold execPageMigration
  split
  · exact h
  · split
    · exact h
    · extract_lets n base pages here room d
      have hd : d.Sound k := ite_keeps h.dev.pageToHost h.dev.pageToDevice
      have hm : ({ d with migrating := d.migrating.filter fun p => !pages.contains p } : Device).Sound k := ⟨hd.1, hd.2⟩
      refine ite_keeps h (ite_keeps h (ite_keeps (stayDue_sound h) (ite_keeps ?_ (h.unpinIn.setDev hm))))
      exact h.withDev ⟨h.dev.1, h.dev.2⟩

/-! ## Ownership and transfers of the host -/

theorem Core.Sound.purgeFrame {n : Nat} (h : c.Sound k) : (c.purgeFrame n).Sound k := ⟨h.1, h.2⟩
theorem Core.Sound.unpinFrame {n : Nat} (h : c.Sound k) : (c.unpinFrame n).Sound k := ⟨h.1, h.2⟩

theorem execFrameTableUpdate_sound {n : Nat} {e : BitVec 64} (h : s.Sound k) :
    Result.Sound k (execFrameTableUpdate n e s) := by
  unfold execFrameTableUpdate
  extract_lets old e' d d₁ d₂ f
  have h₁ : d₁.Sound k := ite_keeps h.dev.zeroFrame h.dev
  have h₂ : d₂.Sound k := ite_keeps h₁.enterTag h₁
  have hf : ∀ c, c.Sound k → (f c).Sound k := fun _ hc => hc.unpinFrame.purgeFrame
  have h' : ({ s with dev := d₂.putFrame n e', core := f s.core, rest := s.rest.map f } : State).Sound k :=
    ⟨hf _ h.core, h.rest.map hf, h₂.putFrame⟩
  exact ite_keeps h (ite_keeps (stayDue_sound h) h')

theorem State.Sound.dmaViolation {vf ctx addr : Nat} {b : Bool} (h : s.Sound k) :
    (s.dmaViolation vf ctx b addr).Sound k := by
  have h' := h.deviceStamp
  exact State.Sound.withDev h'.post.post h'.post.post.dev.updFunc

theorem execHostDma_sound {vf ctx pa : Nat} {x : Dma} (h : s.Sound k) : Result.Sound k (execHostDma vf ctx pa x s) := by
  unfold execHostDma
  extract_lets n owner held
  refine ite_keeps h (ite_keeps h.post ?_)
  split
  · exact h.dmaViolation
  · split
    · exact h.post.setFree
    · exact ite_keeps (stayDue_sound h) h.setBytes.settlePoison

/-! ## Errors and retirement -/

theorem State.Sound.forceStop {n : Nat} (h : s.Sound k) : (s.forceStop n).Sound k := by
  refine h.onCore fun t ht => ?_
  extract_lets c
  refine ite_keeps ht (ite_keeps ?_ (ht.withCore ⟨ht.core.1, ht.core.2⟩))
  exact ht.stopByForce.withCore ⟨ht.stopByForce.core.1, ht.stopByForce.core.2⟩

theorem State.Sound.retireCores {l : List Nat} (h : s.Sound k) : (s.retireCores l).Sound k := by
  unfold State.retireCores
  extract_lets u
  have hu : u.Sound k := h.withDev ⟨h.dev.1, h.dev.2⟩
  have hf := foldl_state_sound (l := l) (f := State.forceStop) (fun _ _ hs => hs.forceStop) hu
  exact hf.withDev hf.dev.refuseUnfit

theorem State.Sound.retireFrame {n : Nat} (h : s.Sound k) : (s.retireFrame n).Sound k := by
  unfold State.retireFrame
  exact ite_keeps h (getD_keeps h.relocate h)

theorem State.Sound.retireUnit {x : ErrUnit} (h : s.Sound k) : (s.retireUnit x).Sound k := by
  unfold State.retireUnit
  have hs : s.deviceStamp.2.Sound k := h.deviceStamp
  generalize s.deviceStamp = p at hs ⊢
  obtain ⟨st, w⟩ := p
  have hw : w.Sound k := hs
  dsimp -zeta only
  extract_lets u v
  have hu : u.Sound k := hw.post.post
  have hv : v.Sound k := hu.withDev ⟨hu.dev.1, hu.dev.2⟩
  clear_value v
  cases x with
  | core n => exact hv.retireCores
  | l2 n => exact hv.retireCores
  | frame n => exact hv.retireFrame
  | llc => exact hv
  | seam => exact hv
  | mgmt => exact hv

theorem State.Sound.countError {x : ErrUnit} (h : s.Sound k) : (s.countError x).Sound k := by
  unfold State.countError
  extract_lets n u thr
  have hu : u.Sound k := h.withDev ⟨h.dev.1, h.dev.2⟩
  exact ite_keeps hu.retireUnit hu

theorem execCorrectableError_sound {x : ErrUnit} (h : s.Sound k) : Result.Sound k (execCorrectableError x s) := by
  unfold execCorrectableError
  refine State.Sound.countError ?_
  split
  · exact h.onCore fun _ ht => ht.countEvents
  · exact h

theorem Device.Sound.spoilLine {n : Nat} (h : d.Sound k) : (d.spoilLine n).Sound k := by
  unfold Device.spoilLine
  exact ite_keeps h ⟨h.1, h.2⟩

theorem Device.Sound.spoilHost {n : Nat} (h : d.Sound k) : (d.spoilHost n).Sound k := by
  unfold Device.spoilHost
  exact ite_keeps h ⟨h.1, h.2⟩

theorem State.Sound.spoilCore {n : Nat} {p : Poison} (h : s.Sound k) : (s.spoilCore n p).Sound k :=
  h.updCore fun _ hc => ite_keeps hc ⟨hc.1, hc.2⟩

theorem State.Sound.loseDirty {n va : Nat} (h : s.Sound k) : (s.loseDirty n va).Sound k :=
  h.onCore fun _ ht => ite_keeps ht.takeTrap ht

theorem State.Sound.reportDirty {pa ctx : Nat} (h : s.Sound k) : (s.reportDirty pa ctx).Sound k :=
  State.Sound.withDev h.deviceStamp h.deviceStamp.dev.pushOrWait

theorem State.Sound.strike {x : ErrLoc} (h : s.Sound k) : (s.strike x).Sound k := by
  have hline {n : Nat} : (s.withDev fun d => d.spoilLine n).Sound k := h.withDev h.dev.spoilLine
  have hhost {n : Nat} : (s.withDev fun d => d.spoilHost n).Sound k := h.withDev h.dev.spoilHost
  cases x with
  | line pa => exact hline
  | dataCacheLine n va pa => exact hline.loseDirty
  | l2Line pa ctx => exact hline.reportDirty
  | hostLine pa => exact hhost
  | hostDataLine n va pa => exact hhost.loseDirty
  | hostL2Line pa ctx => exact hhost.reportDirty
  | hamper n i =>
    unfold State.strike
    dsimp only
    split
    · exact h.spoilCore
    · exact h
  | fetchLine n blk line => exact h.spoilCore
  | reg n v row eg => exact h.spoilCore
  | tile n t row eg => exact h.spoilCore
  | heap n row => exact h.spoilCore
  | spad n row => exact h.spoilCore

theorem execUncorrectableError_sound {u : ErrUnit} {x : ErrLoc} (h : s.Sound k) :
    Result.Sound k (execUncorrectableError u x s) := by
  unfold execUncorrectableError
  split
  · exact ite_keeps (stayDue_sound h) h.strike.countError
  · exact ite_keeps (stayDue_sound h) h.strike.countError
  · exact h.strike.countError

theorem execErrorCountWindow_sound {u : ErrUnit} (h : s.Sound k) : Result.Sound k (execErrorCountWindow u s) :=
  h.withDev ⟨h.dev.1, h.dev.2⟩

end Sys2Proof.Machine

namespace Sys2Proof.Machine

variable {k : Inv} {m : Memory} {c c' : Core} {d d' : Device} {s t : State}

/-! ## Observation -/

theorem execCounterCount_sound {n i : Nat} {ev : BitVec 16} (h : s.Sound k) : Result.Sound k (execCounterCount n ev i s) :=
  State.Sound.onCore h fun _ ht => ht.setFree.countEvents

theorem execCounterOverflow_sound {n i : Nat} (h : s.Sound k) : Result.Sound k (execCounterOverflow n i s) := by
  unfold execCounterOverflow
  extract_lets b w
  exact ite_keeps (State.Sound.onCore h fun _ ht => ht.addCounter) h

theorem execCounterWrite_sound {n i : Nat} {v : BitVec 64} (h : s.Sound k) : Result.Sound k (execCounterWrite n i v s) :=
  h.withDev (ite_keeps h.dev.putBank h.dev)

theorem execTraceRecordDrop_sound {n : Nat} (h : s.Sound k) : Result.Sound k (execTraceRecordDrop n s) :=
  h.withDev h.dev.updTracer

theorem execTraceRingConsWrite_sound {n : Nat} {v : BitVec 16} (h : s.Sound k) :
    Result.Sound k (execTraceRingConsWrite n v s) := h.withDev h.dev.traceCons

theorem Device.Sound.putObs {x : ObsFunc} {w : Word} (h : d.Sound k) : (d.putObs x w).Sound k := by
  cases x with
  | pf => exact ⟨h.1, h.2⟩
  | vf n => exact h.updFunc

theorem State.Sound.observe {who : ObsFunc} {op unit ctx limit : Nat} {f : State → Nat × State} (h : s.Sound k)
    (hf : ∀ s, s.Sound k → (f s).2.Sound k) : Result.Sound k (s.observe who op unit ctx limit f) := by
  unfold State.observe
  extract_lets ask mine r
  have hr : r.2.Sound k := ite_snd_sound h (hf s h)
  exact ite_keeps h (ite_keeps (h.withDev h.dev.post.putObs) (hr.withDev hr.dev.answered.putObs))

theorem State.Sound.askBank {who : ObsFunc} {unit ctx : Nat} (h : s.Sound k) : (s.askBank who unit ctx).2.Sound k := by
  unfold State.askBank
  extract_lets b put
  have hput : ∀ b, (put b).Sound k := fun _ => h.withDev h.dev.putBank
  clear_value put b
  split
  · exact hput _
  · exact hput _
  · exact hput _
  · exact h

theorem State.Sound.freeBank {who : ObsFunc} {unit : Nat} (h : s.Sound k) : (s.freeBank who unit).2.Sound k := by
  unfold State.freeBank
  extract_lets b put
  have hput : ∀ b, (put b).Sound k := fun _ => h.withDev h.dev.putBank
  clear_value put b
  refine ite_snd_sound h ?_
  split
  · exact hput _
  · exact hput _

theorem State.Sound.unitLost {cl n i : Nat} (h : s.Sound k) : (s.unitLost cl n i).Sound k :=
  State.Sound.withDev h.deviceStamp h.deviceStamp.dev.traceWrite

theorem State.Sound.askTracer {who : ObsFunc} {unit ctx : Nat} (h : s.Sound k) :
    (s.askTracer who unit ctx).2.Sound k := by
  unfold State.askTracer
  extract_lets x put u
  have hput : ∀ s x, s.Sound k → (put s x).Sound k := fun _ _ hs => hs.withDev hs.dev.putTracer
  clear_value put x
  split
  · exact hput _ _ h
  · exact hput _ _ h.unitLost
  · exact hput _ _ h
  · exact h

theorem State.Sound.freeTracer {who : ObsFunc} {unit : Nat} (h : s.Sound k) : (s.freeTracer who unit).2.Sound k := by
  unfold State.freeTracer
  extract_lets x put
  have hput : ∀ x, (put x).Sound k := fun _ => h.withDev h.dev.putTracer
  clear_value put x
  refine ite_snd_sound h ?_
  split
  · next g _ =>
    extract_lets u
    have hu : u.Sound k := (hput _).withDev (hput _).dev.traceFlush
    exact hu.unitLost
  · exact hput _

theorem execAllocateBank_sound {who : ObsFunc} {unit ctx : Nat} (h : s.Sound k) :
    Result.Sound k (execAllocateBank who unit ctx s) := State.Sound.observe h fun _ hs => hs.askBank
theorem execReleaseBank_sound {who : ObsFunc} {unit ctx : Nat} (h : s.Sound k) :
    Result.Sound k (execReleaseBank who unit ctx s) := State.Sound.observe h fun _ hs => hs.freeBank
theorem execAllocateTraceUnit_sound {who : ObsFunc} {unit ctx : Nat} (h : s.Sound k) :
    Result.Sound k (execAllocateTraceUnit who unit ctx s) := State.Sound.observe h fun _ hs => hs.askTracer
theorem execReleaseTraceUnit_sound {who : ObsFunc} {unit ctx : Nat} (h : s.Sound k) :
    Result.Sound k (execReleaseTraceUnit who unit ctx s) := State.Sound.observe h fun _ hs => hs.freeTracer

/-! ## Bandwidth -/

theorem Device.Sound.putBucket {b : Bucket} (h : d.Sound k) : (d.putBucket b).Sound k := h

theorem execBucketRefill_sound {n : Nat} (h : s.Sound k) : Result.Sound k (execBucketRefill n s) :=
  h.withDev ⟨h.dev.1, h.dev.2⟩

theorem Device.Sound.callLoans {cl ctx : Nat} (h : d.Sound k) : (d.callLoans cl ctx).Sound k :=
  Device.Sound.putBucket (foldl_device_sound (fun _ _ hd => hd.putBucket) h)

theorem State.Sound.l2Counted {cl ctx : Nat} {l : List (Nat × Nat)} (h : s.Sound k) : (s.l2Counted cl ctx l).Sound k :=
  State.Sound.onCore h.setFree fun _ ht => ht.countEvents

theorem execL2Request_sound {cl ctx : Nat} (h : s.Sound k) : Result.Sound k (execL2Request cl ctx s) := by
  unfold execL2Request
  extract_lets d b
  have hd : d.Sound k := ite_keeps h.dev h.dev.callLoans
  clear_value d b
  refine ite_keeps h (ite_keeps (h.setDev hd.putBucket).l2Counted (ite_keeps ?_ (h.setDev hd)))
  split
  · exact h.setDev hd
  · next x _ => exact State.Sound.l2Counted (h.setDev hd.putBucket.putBucket)

/-! ## Duties of the kernel and the device's own -/

theorem execAuditBlockSign_sound {n : Nat} (h : s.Sound k) : Result.Sound k (execAuditBlockSign n s) :=
  h.withDev (ite_keeps h.dev.signBlock h.dev)

theorem execAuditConsWrite_sound {n : Nat} {v : BitVec 32} (h : s.Sound k) : Result.Sound k (execAuditConsWrite n v s) := by
  refine h.withDev ?_
  split
  · exact h.dev
  · exact h.dev.setDram h.dev.dram.setNum

/-- Boot keeps the host's memory and the checkpoints taken; all the rest is at its resets. -/
theorem execPowerOnBoot_sound {b : BootReport} (h : s.Sound k) : Result.Sound k (execPowerOnBoot b s) :=
  ⟨Core.sound_reset, CoresSound.nil, Memory.Sound.nil, h.dev.host, CoresSound.nil,
    fun x hx => h.dev.ckpts x (List.mem_of_mem_filter hx), List.forall_mem_nil _, List.forall_mem_nil _⟩

theorem execRecoveryImageWrite_sound {a b : Bool} {l : List (BitVec 8)} (h : s.Sound k) :
    Result.Sound k (execRecoveryImageWrite a b l s) := h.withDev (ite_keeps ⟨h.dev.1, h.dev.2⟩ h.dev)

theorem execKeySlotLoad_sound {n : Nat} {key : BitVec 512} (h : s.Sound k) : Result.Sound k (execKeySlotLoad n key s) :=
  h.withDev (ite_keeps h.dev ⟨h.dev.1, h.dev.2⟩)

theorem Device.Sound.loadPieces {x : Ctx} : ∀ {n va : Nat} {bs : List Byte} {l : List Nat} {d : Device}, d.Sound k →
    ∀ y ∈ d.loadPieces x n va bs l, y.Sound k
  | 0, _, _, _, _, h => some_keeps h
  | n + 1, va, bs, l, d, h => by
    unfold Device.loadPieces
    split
    · exact none_keeps
    · next f fs =>
      split
      · exact none_keeps
      · extract_lets d₁ d₂ leaf₁ leaf₂ d₃ d₄
        have h₂ : d₂.Sound k := h.zeroFrame.setDram h.zeroFrame.dram.write
        have h₄ : d₄.Sound k := h₂.enterTag.putFrame
        clear_value d₄
        split
        · exact none_keeps
        · next e => exact Device.Sound.loadPieces (h₄.putLeaf _ e)

theorem execModelStoreLoad_sound {ctx : Nat} {va : BitVec 64} {image : List (BitVec 8)} {l : List Nat} (h : s.Sound k) :
    Result.Sound k (execModelStoreLoad ctx va image l s) := by
  unfold execModelStoreLoad
  split
  · exact h
  · split
    · exact h
    · next e => exact h.setDev (h.dev.loadPieces _ e).updCtx

theorem execThermalLimit_sound (h : s.Sound k) : Result.Sound k (execThermalLimit s) := h.withDev ⟨h.dev.1, h.dev.2⟩
theorem execThermalLimitClear_sound (h : s.Sound k) : Result.Sound k (execThermalLimitClear s) :=
  h.withDev ⟨h.dev.1, h.dev.2⟩

/-! ## Register writes -/

theorem obsWrite_sound {who : ObsFunc} {v : Word} (h : s.Sound k) : Result.Sound k (obsWrite who v s) := by
  unfold obsWrite
  extract_lets unit ctx
  split
  · exact execAllocateBank_sound h
  · exact execReleaseBank_sound h
  · exact execAllocateTraceUnit_sound h
  · exact execReleaseTraceUnit_sound h
  · exact h

theorem funcWrite_sound {vf off : Nat} {v : Word} (h : s.Sound k) : Result.Sound k (funcWrite vf off v s) := by
  unfold funcWrite
  extract_lets upd
  have hupd : ∀ g, Result.Sound k (upd g) := fun _ => h.withDev h.dev.updFunc
  clear_value upd
  split
  case h_5 => exact execRing0TailWrite_sound h
  case h_6 => exact ite_keeps (execPreemptGangWrite_sound h) (hupd _)
  case h_7 => exact obsWrite_sound h
  case h_8 => exact h
  all_goals exact hupd _

theorem traceRegWrite_sound {cl off : Nat} {v : Word} (h : s.Sound k) : Result.Sound k (traceRegWrite cl off v s) :=
  ite_keeps (P := State.Sound k) (h.withDev h.dev.traceReg) h

theorem execRegisterWrite_sound {r : DevReg} {v : BitVec 64} (h : s.Sound k) : Result.Sound k (execRegisterWrite r v s) := by
  have hdev {f : Device → Device} (hf : (f s.dev).Sound k) : Result.Sound k (.next (s.withDev f)) := h.withDev hf
  cases r with
  | split => exact hdev ⟨h.dev.1, h.dev.2⟩
  | faultResponse => exact execFaultResponseWrite_sound h
  | retirement => exact hdev ⟨h.dev.1, h.dev.2⟩
  | scopeChecker => exact hdev ⟨h.dev.1, h.dev.2⟩
  | pfObservation => exact obsWrite_sound h
  | bootStatus => exact h
  | fairness vf => exact hdev h.dev.updFunc
  | func vf off => exact funcWrite_sound h
  | trace cl off => exact traceRegWrite_sound h

end Sys2Proof.Machine

namespace Sys2Proof.Machine

variable {k : Inv} {m : Memory} {c c' : Core} {d d' : Device} {s t : State}

/-! ## Checkpoints -/

theorem State.Sound.leaveFrozen (h : s.Sound k) : s.leaveFrozen.Sound k := by
  have hl : (s.leave s.core).Sound k := h.leave h.core
  exact hl.withDev (hl.dev.setSaved (hl.dev.saved.map fun _ hc => ite_keeps ⟨hc.1, hc.2⟩ hc))

theorem State.Sound.forceContexts {l : List Nat} (h : s.Sound k) : (s.forceContexts l).Sound k :=
  foldl_state_sound (fun _ _ hs => ite_keeps (hs.onCore fun _ ht => ht.leaveFrozen) hs.forceStop) h

theorem Device.Sound.takeCkpt {n : Nat} {l : List Nat} {b : Bool} (h : d.Sound k) : (d.takeCkpt n l b).Sound k :=
  h.saved.filter

theorem execCheckpoint_sound {n : Nat} {l : List Nat} (h : s.Sound k) : Result.Sound k (execCheckpoint n l s) := by
  unfold execCheckpoint
  extract_lets d ask x
  have hx : x.Sound k := CoresSound.nil
  have ha : (d.answered ask).Sound k := h.dev.answered
  have hopen : ({ d.answered ask with ckptOpen := n :: d.ckptOpen, ckpts := x :: d.ckpts } : Device).Sound k :=
    ⟨ha.dram, ha.host, ha.saved, List.forall_mem_cons.mpr ⟨hx, h.dev.ckpts⟩, ha.arrivals, ha.moves⟩
  refine ite_keeps h (ite_keeps (ite_keeps (h.withDev h.dev.post) ?_) (ite_keeps (stayDue_sound h) ?_))
  · exact stayDue_sound (State.Sound.forceContexts (h.withDev hopen))
  · exact h.withDev (h.dev.setCkpts (List.forall_mem_cons.mpr
      ⟨h.dev.takeCkpt, fun y hy => h.dev.ckpts y (List.mem_of_mem_filter hy)⟩))

theorem execCheckpointComplete_sound {n code : Nat} (h : s.Sound k) :
    Result.Sound k (execCheckpointComplete n code s) := by
  unfold execCheckpointComplete
  extract_lets d
  refine ite_keeps h (ite_keeps (stayDue_sound h) (State.Sound.post (h.withDev ?_)))
  exact ⟨h.dev.dram, h.dev.host, h.dev.saved, ite_keeps (P := fun l : List Ckpt => ∀ x ∈ l, x.Sound k) h.dev.ckpts
    fun x hx => h.dev.ckpts x (List.mem_of_mem_filter hx), h.dev.arrivals, h.dev.moves⟩

/-- Cells written one by one. -/
theorem Memory.Sound.setCells {l : List (Nat × Byte)} (h : m.Sound k) :
    (l.foldl (fun m c => m.set c.1 c.2) m).Sound k :=
  List.foldlRecOn (motive := Memory.Sound k) l _ h fun _ hm _ _ => hm.set

theorem State.Sound.restoreFrame {x : Ckpt} {f : SavedFrame} (h : s.Sound k) : ∀ t ∈ s.restoreFrame x f, t.Sound k := by
  unfold State.restoreFrame
  extract_lets put
  have hput : ∀ s, s.Sound k → (put s).Sound k := fun s hs => by
    have hz : ((s.dev.zeroFrame f.frame).putFrame f.frame f.entry).Sound k := hs.dev.zeroFrame.putFrame
    exact hs.withDev ⟨hz.dram.setCells, hz.2⟩
  clear_value put
  split
  · exact some_keeps (hput s h)
  · exact map_keeps fun u hu => hput u (h.relocate u hu)

theorem State.Sound.restoreFrames {x : Ckpt} : ∀ {l : List SavedFrame} {s : State}, s.Sound k →
    ∀ t ∈ State.restoreFrames x l s, t.Sound k
  | [], _, h => some_keeps h
  | _ :: _, _, h => bind_keeps fun u hu => State.Sound.restoreFrames (h.restoreFrame u hu)

theorem execCheckpointRestore_sound {n : Nat} (h : s.Sound k) : Result.Sound k (execCheckpointRestore n s) := by
  unfold execCheckpointRestore
  split
  · exact h.post
  · next x hx =>
    have hx : x.Sound k := h.dev.ckpts x (List.mem_of_find?_eq_some hx)
    extract_lets live old
    clear_value old
    split
    · exact h.post
    · next t ht =>
      obtain ⟨-, ht⟩ := Option.ite_none_right_eq_some.mp ht
      have hl : (live.foldl State.destroy s).Sound k := foldl_state_sound (fun _ _ hs => hs.destroy) h
      have ht : t.Sound k := hl.restoreFrames t ht
      refine State.Sound.post (ht.withDev ?_)
      extract_lets d
      have hd : d.Sound k := foldl_device_sound (fun _ _ hd => hd.updFunc) ht.dev
      exact ⟨hd.dram, hd.host, hd.saved.append hx, hd.ckpts, hd.arrivals, hd.moves⟩

/-! ## Attestation -/

theorem State.Sound.attest {n : Nat} {x : BitVec 256} {l : List Nat} (h : s.Sound k) : (s.attest n x l).Sound k := by
  unfold State.attest
  extract_lets d
  refine ite_keeps h.post ?_
  split
  · exact h.post
  · exact ite_keeps h.post (State.Sound.post (h.withDev h.dev.updCtx))

theorem execAttestationRequest_sound {n : Nat} {x : BitVec 256} (h : s.Sound k) :
    Result.Sound k (execAttestationRequest n x s) := by
  unfold execAttestationRequest
  extract_lets d now
  have hpost {a : Ask} : (s.withDev fun d => d.post a).Sound k := h.withDev h.dev.post
  have hanswered {a : Ask} : (s.withDev fun d => d.answered a).Sound k := h.withDev h.dev.answered
  split
  · exact ite_keeps hpost h.attest
  · exact ite_keeps hanswered.attest (ite_keeps (stayDue_sound h) (ite_keeps hpost
      (stayDue_sound (h.withDev ⟨h.dev.1, h.dev.2⟩))))

/-! ## Migration -/

theorem Device.Sound.moveOf {n : Nat} {x : Move} (h : d.Sound k) (hx : d.moveOf n = some x) : x.Sound k :=
  h.moves x (List.mem_of_find?_eq_some hx)

theorem Device.Sound.putMove {x : Move} (h : d.Sound k) (hx : x.Sound k) : (d.putMove x).Sound k :=
  ⟨h.dram, h.host, h.saved, h.ckpts, h.arrivals, List.forall_mem_cons.mpr
    ⟨hx, fun y hy => h.moves y (List.mem_of_mem_filter hy)⟩⟩

theorem Device.Sound.endMove {n : Nat} (h : d.Sound k) : (d.endMove n).Sound k :=
  ⟨h.dram, h.host, h.saved, h.ckpts, h.arrivals, fun y hy => h.moves y (List.mem_of_mem_filter hy)⟩

theorem Move.sound_new {n : Nat} {key : Option (BitVec 512)} : (Move.mk n key [] none).Sound k :=
  none_keeps

/-- Every frame of a list emptied and given up. -/
theorem Device.Sound.giveUp {α : Type} {l : List α} {f : α → Nat} (h : d.Sound k) :
    (l.foldl (fun d x => (d.zeroFrame (f x)).putFrame (f x) 0x800000) d).Sound k :=
  foldl_device_sound (fun _ _ hd => hd.zeroFrame.putFrame) h

theorem State.Sound.failMove {n : Nat} (h : s.Sound k) : (s.failMove n).Sound k := by
  unfold State.failMove
  extract_lets got
  exact State.Sound.post (h.withDev h.dev.giveUp.endMove)

theorem Device.Sound.putRings {x : Ctx} {y : Carried} (h : d.Sound k) : (d.putRings x y).Sound k := by
  unfold Device.putRings
  extract_lets d₁ d₂ d₃ mem
  have h₁ : d₁.Sound k := foldl_device_sound (fun _ _ hd => hd.putBytes) h
  have h₂ : d₂.Sound k := foldl_device_sound (fun _ _ hd => hd.putBytes.putBytes) h₁
  have h₃ : d₃.Sound k := h₂.putBytes
  have hm : Memory.Sound k mem := h₃.dram.setNum.setNum.setNum.setNum
  exact (h₃.setDram hm.setNum).updCtx

theorem putMapped_sound {root : Nat} {l : List (Nat × Nat)} {x : Nat × Nat} (h : d.Sound k) :
    (putMapped root l d x).Sound k := by
  unfold putMapped
  extract_lets tables put
  have hput : ∀ d va e, d.Sound k → (put d va e).Sound k := fun d va e hd => by
    unfold put
    exact getD_keeps (map_keeps fun y hy => hd.putLeaf y hy) hd
  clear_value put
  refine ite_keeps (hput _ _ _ h) ?_
  split
  · exact h
  · exact hput _ _ _ h

theorem arriveBanks_sound {x : Ctx} {y : Carried} (h : d.Sound k) (hy : y.Sound k) : (arriveBanks x y d).Sound k := by
  unfold arriveBanks
  extract_lets places d₁
  have h₁ : d₁.Sound k := foldl_device_sound (fun _ _ hd => hd.putBank) h
  exact h₁.setSaved (h₁.saved.append (CoresSound.map hy fun _ hc => ⟨hc.1, hc.2⟩))

theorem arriveTrace_sound {x : Ctx} {l : List (Nat × Nat)} {p : Tracer × Nat} (h : s.Sound k) :
    (arriveTrace x l s p).Sound k :=
  State.Sound.unitLost (h.withDev h.dev.putTracer)

theorem Device.Sound.arrive {x : Ctx} {y : Carried} {l : List (Nat × Nat)} (h : d.Sound k) (hy : y.Sound k) :
    (d.arrive x y l).Sound k := by
  unfold Device.arrive
  extract_lets d₁ leaves d₂
  have h₁ : d₁.Sound k := h.putRings.updCtx
  have h₂ : d₂.Sound k := foldl_device_sound (fun _ _ hd => putMapped_sound hd) h₁
  exact arriveBanks_sound ⟨h₂.1, h₂.2⟩ hy

theorem Carried.Sound.renamed {x : Carried} {l : List (Nat × Nat)} (h : x.Sound k) : (x.renamed d l).Sound k :=
  CoresSound.map h fun _ hc => ⟨hc.1, hc.2⟩

theorem State.Sound.settle {x : Ctx} {y : Carried} {l : List (Nat × Nat)} (h : s.Sound k) (hy : y.Sound k) :
    (s.settle x y l).Sound k :=
  foldl_state_sound (fun _ _ hs => arriveTrace_sound hs) (h.withDev (h.dev.arrive hy).endMove)

theorem State.Sound.receive_ {x : Ctx} {y : Move} {src f : Nat} {e : Word} {l : List Byte} {v : BitVec 256}
    (h : s.Sound k) (hy : y.Sound k) : (s.receive_ x y src f e l v).Sound k := by
  unfold State.receive_
  extract_lets d₁ d₂ e' d₃
  have h₂ : d₂.Sound k := h.dev.zeroFrame.setDram h.dev.zeroFrame.dram.write
  have h₃ : d₃.Sound k := ite_keeps h₂.enterTag h₂
  exact ite_keeps h.failMove (h.setDev (h₃.putFrame.putMove hy))

theorem Device.Sound.forget {n : Nat} (h : d.Sound k) : (d.forget n).Sound k := by
  unfold Device.forget
  extract_lets gids own d₁ d₂ d₃
  have h₁ : d₁.Sound k := h.giveUp
  have h₂ : d₂.Sound k := foldl_device_sound (fun _ _ hd => hd.putBank) h₁
  have h₃ : d₃.Sound k := foldl_device_sound (fun _ _ hd => hd.putTracer) h₂
  exact ⟨h₃.dram, h₃.host, h₃.saved.filter, h₃.ckpts, h₃.arrivals, h₃.moves⟩

theorem execContextMigration_sound {n : Nat} {x : MigrStep} (h : s.Sound k) :
    Result.Sound k (execContextMigration n x s) := by
  unfold execContextMigration
  split
  · exact h
  · extract_lets agreed
    have hagreed : ∀ y, agreed = some y → y.Sound k := fun y hy => by
      obtain ⟨hy, -⟩ := Option.filter_eq_some_iff.mp hy
      exact h.dev.moveOf hy
    clear_value agreed
    cases x with
    | stopGangs =>
      have hnew := h.withDev (f := fun d => d.putMove ⟨n, none, [], none⟩) (h.dev.putMove (Move.sound_new (key := none)))
      exact ite_keeps (stayDue_sound hnew.forceContexts) (ite_keeps (stayDue_sound h) h)
    | agree nonce key peer =>
      have hmove : ((s.dev.moveOf n).getD ⟨n, none, [], none⟩).Sound k := getD_keeps (fun _ => h.dev.moveOf) Move.sound_new
      exact ite_keeps (stayDue_sound h) (ite_keeps h.attest.failMove (h.attest.withDev (h.attest.dev.putMove hmove)))
    | sendFrame f =>
      dsimp -zeta only
      split
      · exact h
      · exact ite_keeps h.post h
    | sendState => exact ite_keeps h.post h
    | receiveFrame src f entry plain hash =>
      dsimp -zeta only
      split
      · exact h
      · next y => exact ite_keeps (h.receive_ (hagreed y rfl)) h
    | receiveState =>
      dsimp -zeta only
      split
      · next y z hz =>
        have hz : z.Sound k := h.dev.arrivals z (List.mem_of_find?_eq_some hz)
        refine ite_keeps h (h.withDev ?_)
        have hp : (s.dev.putMove { y with state := some z }).Sound k := h.dev.putMove fun w hw => by
          cases hw
          exact hz
        exact ⟨hp.dram, hp.host, hp.saved, hp.ckpts, fun w hw => h.dev.arrivals w (List.mem_of_mem_filter hw), hp.moves⟩
      · exact h
    | fail => exact ite_keeps h.failMove h
    | left => exact ite_keeps (h.withDev h.dev.forget.endMove) h
    | resume gids =>
      dsimp -zeta only
      split
      · next y z hz =>
        have hz : z.Sound k := hagreed y rfl z hz
        exact ite_keeps (h.settle hz.renamed) (stayDue_sound h)
      · exact h

end Sys2Proof.Machine

namespace Sys2Proof.Machine

variable {k : Inv} {m : Memory} {c c' : Core} {d d' : Device} {s t : State}

/-! ## Regions -/

theorem Core.Sound.openRegion {b : Bool} (h : c.Sound k) : (c.openRegion b).Sound k := ⟨h.1, h.2⟩

theorem Held.perform_sound {x : Held} (h : s.Sound k) : Gives (State.Sound k) (x.perform s) := by
  unfold Held.perform
  extract_lets bad u
  have hu : u.Sound k := elemWrite_sound h
  clear_value bad u
  split
  · trivial
  · exact ite_keeps (P := State.Sound k) hu.settlePoison.spoil hu

theorem performHeld_sound : ∀ (l : List Held) {s : State}, s.Sound k → Gives (State.Sound k) (performHeld l s)
  | [], _, h => h
  | x :: l, s, h => by
    unfold performHeld
    split
    · trivial
    · next e => exact performHeld_sound l ((Held.perform_sound h).of_eq e)

theorem Core.Sound.resolved {p b : Nat} {q : Option (Nat × BitVec 3)} (h : c.Sound k) : (c.resolved p b q).Sound k :=
  ⟨h.1, h.2⟩

theorem exitBody_sound {o : MaskArgs} {n : Nat} : BodySound k (exitBody o n) := by
  intro s h
  unfold exitBody
  split
  · exact h
  · next r _ =>
    refine ite_keeps (P := Gives (State.Sound k)) h ?_
    extract_lets c t p b
    have hc : c.Sound k := h.core
    clear_value c
    split
    next b' c' e =>
    have hc' : c'.Sound k := by
      split at e
      · split at e
        · cases e
          exact ⟨hc.1, hc.2⟩
        · cases e
          exact hc
      · cases e
        exact hc
    split
    · trivial
    · next u hu =>
      have hu : u.Sound k := (performHeld_sound _ (h.setCore hc')).of_eq hu
      exact hu.setCore hu.core.resolved

theorem exitWord_sound {o : MaskArgs} {n : Nat} (h : s.Sound k) : Result.Sound k (exitWord o n s) := by
  unfold exitWord
  refine ite_keeps ?_ (vecWord_sound h exitBody_sound)
  split
  · exact h.refuseWord
  · exact h.refuseWord
  · exact State.Sound.endVec (h.withCore (ite_keeps ⟨h.core.1, h.core.2⟩ h.core))

theorem breakWord_sound {o : MaskArgs} {n : Nat} (h : s.Sound k) : Result.Sound k (breakWord o n s) := rowWord_sound h

theorem execVpart_sound {o : MaskArgs} (h : s.Sound k) : Result.Sound k (execVpart o s) := by
  refine vecWord_sound h fun s hs => ?_
  extract_lets c none_
  have hc : c.Sound k := hs.core.putBits
  exact hs.setCore (ite_keeps ⟨hc.1, hc.2⟩ hc)

theorem execVfftrim_sound {b : Bool} (h : s.Sound k) : Result.Sound k (execVfftrim b s) :=
  plainWord_sound h fun _ hc => ite_keeps hc.trimYounger hc

theorem execVpfold_sound {o : Arith} (h : s.Sound k) : Result.Sound k (execVpfold o s) := by
  unfold execVpfold
  extract_lets rd
  exact computeWord_sound h fun _ hc => hc.putElems

end Sys2Proof.Machine

namespace Sys2Proof.Machine

variable {k : Inv} {s : State}

/-! ## Every instruction -/

theorem gatherWord_sound {w : Nat} {o : Gather} (h : s.Sound k) : Result.Sound k (gatherWord w o s) := by
  unfold gatherWord
  extract_lets
  exact rowWord_sound h

theorem floatWord_sound {o : Arith} {f : Nat → Nat → Nat} (h : s.Sound k) : Result.Sound k (floatWord o f s) :=
  elementwise_sound h
theorem float3_sound {o : Arith} {f : Nat → Nat → Nat → Nat} (h : s.Sound k) : Result.Sound k (float3 o f s) :=
  elementwise_sound h
theorem intCompare_sound {x : Cond} {o : Arith} (h : s.Sound k) : Result.Sound k (intCompare x o s) := compareWord_sound h
theorem floatCompare_sound {x : Cond} {o : Arith} (h : s.Sound k) : Result.Sound k (floatCompare x o s) :=
  compareWord_sound h
theorem rowValue_sound {o : Arith} {f : Core → Nat → Nat} (h : s.Sound k) : Result.Sound k (rowValue o f s) :=
  rowWord_sound h
theorem foldReduce_sound {o : Arith} {ok : EType → Bool} {op : Nat → Nat → Nat} {e : Nat} (h : s.Sound k) :
    Result.Sound k (foldReduce o ok op e s) := reduceWord_sound h
theorem scanWord_sound {o : Arith} {op : Nat → Nat → Nat} (h : s.Sound k) : Result.Sound k (scanWord o op s) :=
  rowWord_sound h
theorem vamoInt_sound {o : MemArgs} {op : AmoOp} (h : s.Sound k) : Result.Sound k (vamoInt o op s) := vamo_sound h
theorem amoOp_sound {op : AmoOp} {r a b : BitVec 5} {size ord : BitVec 2} {sc : Scope} (h : s.Sound k) :
    Result.Sound k (amoOp op r a b size ord sc s) := amo_sound h
theorem alu2_sound {f : Word → Word → Word} {r a b : BitVec 5} (h : s.Sound k) : Result.Sound k (alu2 f r a b s) :=
  yields_sound h

/-- Every word and every event keeps the invariants: one rule for each family of words. -/
theorem exec_sound (i : Instr) (h : s.Sound k) : Result.Sound k (exec i s) := by
  unfold exec
  cases i <;> dsimp only
  case vadd | vsub | vmul | vmulh | vmin | vmax | vsadd | vssub => exact intWord_sound h
  case vmacc => exact elementwise_sound h
  case vand | vor | vxor => exact bitwise_sound h
  case vshl | vshr | vsar => exact bitWord_sound h
  case vabs | vfsqrt | vfrsqe | vfexp2 | vfabs | vfneg | vmv => exact unaryWord_sound h
  case vfadd | vfsub | vfmul | vfdiv | vfmin | vfmax => exact floatWord_sound h
  case vfma | vfnma | vfclamp => exact float3_sound h
  case vcmpeq | vcmpne | vcmplt | vcmpge | vcmple | vcmpgt => exact intCompare_sound h
  case vfcmpeq | vfcmpne | vfcmplt | vfcmple | vfcmpgt | vfcmpge | vfcmpun | vfcmpord => exact floatCompare_sound h
  case vmand | vmor | vmxor | vmnot | vmandn => exact maskLogic_sound h
  case vmpop | vmfirst => exact rowValue_sound h
  case vmscanand | viota | vslideup | vslidedn | vcompress | vexpand => exact rowWord_sound h
  case vidx | vidxr => exact indexWord_sound h
  case vredsum | vredmin | vredmax | vredand | vredor | vredxor | vfredo | vfredmax | vfredmin =>
    exact foldReduce_sound h
  case vfredt => exact reduceWord_sound h
  case vscansum | vscanmax | vscanmin => exact scanWord_sound h
  case vcolsum | vcolmax | vcolmin => exact columnWord_sound h
  case vrgather | vrgatherw => exact gatherWord_sound h
  case vbcast => exact execVbcast_sound h
  case vrowmv | vrowbc => exact rowMoveWord_sound h
  case vcvt => exact execVcvt_sound h
  case vpack2 | vpack4 => exact packWord_sound h
  case vunpk2 | vunpk4 => exact unpackWord_sound h
  case vqnt => exact execVqnt_sound h
  case vslicea | vsliceb => exact sliceWord_sound h
  case vunslicea | vunsliceb => exact unsliceWord_sound h
  case vcprs4 => exact execVcprs4_sound h
  case vspec | vspecf => exact plainWord_sound h fun _ hc => hc.openRegion
  case vbrkb | vbrki => exact breakWord_sound h
  case vexitb | vexiti => exact exitWord_sound h
  case vpart => exact execVpart_sound h
  case vfftrim => exact execVfftrim_sound h
  case vpfold => exact execVpfold_sound h
  case vhacc => exact execVhacc_sound h
  case vld | vldx | vldff | vldsp | vldspx | vldp => exact loadVec_sound h
  case vst | vstx => exact storeVec_sound h fun _ hs => hs.storeBody
  case vsth => exact execVsth_sound h
  case vstp => exact execVstp_sound h
  case vamoAdd | vamoSwp | vamoMin | vamoMax | vamoAnd | vamoOr | vamoXor => exact vamoInt_sound h
  case vamoFadd => exact vamo_sound h
  case vxlt | vxltff => exact xltWord_sound h
  case sopen => exact execSopen_sound h
  case sopenp => exact execSopenp_sound h
  case sadv => exact execSadv_sound h
  case sclose => exact execSclose_sound h
  case ssave => exact execSsave_sound h
  case mcomp => exact execMcomp_sound h
  case mcscan | mcscanc => exact darnWord_sound h fun _ hc => hc.putPrefixes
  case mclegal => exact execMclegal_sound h
  case mclegalx => exact execMclegalx_sound h
  case vsett => exact execVsett_sound h
  case vgett => exact execVgett_sound h
  case vfenceAcq | vfenceRel | vfenceFull => exact vfence_sound h
  case vmark => exact execVmark_sound h
  case mshape => exact execMshape_sound h
  case mshapeg => exact execMshapeg_sound h
  case mzero => exact execMzero_sound h
  case mma => exact execMma_sound h
  case mmas => exact execMmas_sound h
  case msmma => exact execMsmma_sound h
  case mrd | mrdz => exact tileReadWord_sound h
  case mwr | mwra => exact tileWriteWord_sound h
  case msync => exact execMsync_sound h
  case vproj => exact execVproj_sound h
  case vprojs | vprojt => exact startProject_sound h
  case vprojb => exact execVprojb_sound h
  case vheaprd => exact execVheaprd_sound h
  case vpstrd => exact execVpstrd_sound h
  case vhmerge => exact execVhmerge_sound h
  case vhmergen => exact execVhmergen_sound h
  case vpstwr => exact execVpstwr_sound h
  case draw | drawn | drawr | drawrn => exact drawWord_sound h
  case cpy => exact engineWord_sound h copyRun_sound
  case cpyc => exact engineWord_sound h appendRun_sound
  case cpywait | cpywaitv | cwait | cwaitv => exact engineWord_sound h waitRun_sound
  case csend | csendm | crecv => exact collWord_sound h
  case credsum | credmax | credmin | credrs | credheap => exact credWord_sound h
  case audlog => exact execAudlog_sound h
  case nop => exact h.advance
  case halt => exact execHalt_sound h
  case ecall => exact execEcall_sound h
  case eret => exact privileged_sound h h.eret
  case wfe | sput | rseed => exact State.Sound.advance (h.withCore ⟨h.core.1, h.core.2⟩)
  case brk => exact h.genFault
  case fenceAcq | fenceRel | fenceFull => exact fence_sound h
  case add | sub | and | or | xor | shl | shr | sar | slt | sltn | min | max | minn | maxn | mul | mulh | mulhn |
      div | divn | rem | remn =>
    exact alu2_sound h
  case clz | ctz | popc | addi | andi | ori | xori | shli | shri | sari | slti | lih | addpc => exact yields_sound h
  case ins | ext | exts => exact onField_sound h fun _ _ => yields_sound h
  case ld8 | ld16 | ld32 | ld64 | ldn8 | ldn16 | ldn32 => exact loadReg_sound h
  case ldw => exact execLdw_sound h
  case st8 | st16 | st32 | st64 => exact storeReg_sound h
  case amoAdd | amoSwp | amoMin | amoMax | amoMinn | amoMaxn | amoAnd | amoOr | amoXor => exact amoOp_sound h
  case amoCas => exact amo_sound h
  case beq | bne | blt | bge | bltn | bgen => exact branch_sound h
  case jal => exact h.writeS.jump
  case jalr => exact execJalr_sound h
  case setvl => exact execSetvl_sound h
  case emit => exact execEmit_sound h
  case emitq => exact execEmitq_sound h
  case vfetch => exact execVfetch_sound h
  case vdrain => exact execVdrain_sound h
  case qwait => exact execQwait_sound h
  case mfs => exact execMfs_sound h
  case mts => exact execMts_sound h
  case wmpub => exact execWmpub_sound h
  case wmwait => exact execWmwait_sound h
  case barArrive => exact execBarArrive_sound h
  case barWait => exact execBarWait_sound h
  case barAw => exact execBarAw_sound h
  case launch => exact execLaunch_sound h
  case rseek => exact execRseek_sound h
  case vqsave => exact execVqsave_sound h
  case vqload => exact execVqload_sound h
  case vcmst => exact execVcmst_sound h
  case vcmld => exact execVcmld_sound h
  case trapEntry => exact execTrapEntry_sound h
  case trapRecordDrop => exact execTrapRecordDrop_sound h
  case trapRingConsWrite => exact execTrapRingConsWrite_sound h
  case preemptionRequest => exact h.requestPreempt
  case preemptGangWrite => exact execPreemptGangWrite_sound h
  case timeSliceExpiry => exact execTimeSliceExpiry_sound h
  case graceExpiry => exact execGraceExpiry_sound h
  case dispatchRound => exact execDispatchRound_sound h
  case ring0TailWrite => exact execRing0TailWrite_sound h
  case admission => exact execAdmission_sound h
  case barrierPhaseComplete => exact execBarrierPhaseComplete_sound h
  case watermarkUpdate => exact execWatermarkUpdate_sound h
  case wfeWake => exact execWfeWake_sound h
  case bucketRefill => exact execBucketRefill_sound h
  case l2Request => exact execL2Request_sound h
  case pageService => exact execPageService_sound h
  case faultResponseWrite => exact execFaultResponseWrite_sound h
  case priPageResponse => exact execPriPageResponse_sound h
  case atsInvalidation => exact execAtsInvalidation_sound h
  case translationInvalidation => exact execTranslationInvalidation_sound h
  case pageMigration => exact execPageMigration_sound h
  case frameTableUpdate => exact execFrameTableUpdate_sound h
  case hostDma => exact execHostDma_sound h
  case correctableError => exact execCorrectableError_sound h
  case uncorrectableError => exact execUncorrectableError_sound h
  case errorCountWindow => exact execErrorCountWindow_sound h
  case counterCount => exact execCounterCount_sound h
  case counterOverflow => exact execCounterOverflow_sound h
  case counterWrite => exact execCounterWrite_sound h
  case traceRecordDrop => exact execTraceRecordDrop_sound h
  case singleStepStop => exact execSingleStepStop_sound h
  case allocateBank => exact execAllocateBank_sound h
  case releaseBank => exact execReleaseBank_sound h
  case allocateTraceUnit => exact execAllocateTraceUnit_sound h
  case releaseTraceUnit => exact execReleaseTraceUnit_sound h
  case collectiveMatch => exact execCollectiveMatch_sound h
  case credJoin => exact execCredJoin_sound h
  case copyChunkArrival => exact execCopyChunkArrival_sound h
  case auditBlockSign => exact execAuditBlockSign_sound h
  case auditConsWrite => exact execAuditConsWrite_sound h
  case kernelResumeHart => exact execKernelResumeHart_sound h
  case kernelEnterHandler => exact execKernelEnterHandler_sound h
  case destroyGang => exact h.destroy
  case thawMaster => exact execThawMaster_sound h
  case functionLevelReset => exact execFunctionLevelReset_sound h
  case powerOnBoot => exact execPowerOnBoot_sound h
  case keySlotLoad => exact execKeySlotLoad_sound h
  case modelStoreLoad => exact execModelStoreLoad_sound h
  case checkpoint => exact execCheckpoint_sound h
  case checkpointRestore => exact execCheckpointRestore_sound h
  case attestationRequest => exact execAttestationRequest_sound h
  case contextMigration => exact execContextMigration_sound h
  case thermalLimit => exact execThermalLimit_sound h
  case thermalLimitClear => exact execThermalLimitClear_sound h
  case registerWrite => exact execRegisterWrite_sound h
  case illegalSWord => exact execIllegalSWord_sound h
  case illegalVWord => exact execIllegalVWord_sound h
  case sWordFetchFault => exact execSWordFetchFault_sound h
  case traceRingConsWrite => exact execTraceRingConsWrite_sound h
  case collectiveGroupBind => exact execCollectiveGroupBind_sound h
  case checkpointComplete => exact execCheckpointComplete_sound h
  case recoveryImageWrite => exact execRecoveryImageWrite_sound h

end Sys2Proof.Machine

namespace Sys2Proof.Machine

variable {k : Inv} {m : Memory} {c c' : Core} {d d' : Device} {s t : State}

/-! ## Members of a convoy -/

theorem Gives.mapError {ε ε' α : Type} {P : α → Prop} {x : Except ε α} {f : ε → ε'} (h : Gives P x) :
    Gives P (x.mapError f) :=
  match x with
  | .ok _ => h
  | .error _ => trivial

theorem exec_next_sound {i : Instr} (h : s.Sound k) (ht : exec i s = .next t) : t.Sound k := (exec_sound i h).of_eq ht

theorem Core.Sound.fresh {e : QEntry} {mode : RunMode} {hi : Vector Nat 4} (h : c.Sound k) : (c.fresh e mode hi).Sound k :=
  ⟨h.1, h.2⟩

/-- A word made to run: the core beside it is sound. -/
theorem State.Sound.freshly {e : QEntry} {mode : RunMode} {hi : Vector Nat 4} (h : s.Sound k) :
    ({ s with core := s.core.fresh e mode hi } : State).Sound k := h.setCore h.core.fresh

theorem State.Sound.clean (h : s.Sound k) : s.clean.Sound k := h.withCore ⟨h.core.1, h.core.2⟩

theorem runMembers_sound {mode : RunMode} : ∀ {l : List Member} {hi : Vector Nat 4} {s : State}, s.Sound k →
    Gives (fun x => x.1.Sound k) (runMembers mode hi l s)
  | [], _, _, h => h.setCore ⟨h.core.1, h.core.2⟩
  | m :: l, hi, s, h => by
    unfold runMembers
    extract_lets e c uses older
    clear_value uses older
    split
    · trivial
    · trivial
    · next u hu =>
      have hu : u.Sound k := exec_next_sound h.freshly hu
      split
      · exact (runMembers_sound hu).mapError
      · refine ite_keeps ?_ trivial
        have hm : Gives (fun x => x.1.Sound k) ((runMembers mode hi l u).mapError older) := (runMembers_sound hu).mapError
        split
        · next v e =>
          have hv : v.Sound k := hm.of_eq e
          exact hv
        · exact hm
      · trivial

theorem runMembers_ok_sound {mode : RunMode} {hi : Vector Nat 4} {l : List Member} {x : State × Option (QEntry × StopInfo)}
    (h : s.Sound k) (hx : runMembers mode hi l s = .ok x) : x.1.Sound k := (runMembers_sound h).of_eq hx

theorem State.Sound.retireConvoy {l : List Member} (h : s.Sound k) : (s.retireConvoy l).Sound k := by
  unfold State.retireConvoy
  extract_lets last
  exact (h.withCore (foldl_sound (fun _ _ hc => hc.retire) h.core.clearSteps).wordDone).settlePoison

theorem State.Sound.endedAt {hi : Vector Nat 4} (h : s.Sound k) : (s.endedAt hi).Sound k := h.setCore ⟨h.core.1, h.core.2⟩

theorem State.Sound.partOf {hi : Vector Nat 4} (h : t.Sound k) : (s.partOf t hi).Sound k :=
  h.endedAt.setCore h.endedAt.core.keepStreams

theorem State.Sound.convoyPart {l : List Member} {n : Nat} (h : s.Sound k) : (s.convoyPart l n).Sound k := by
  unfold State.convoyPart
  extract_lets hi u hi₁ hi₂
  have hu : u.Sound k := h.setFree.setCore h.core.claim
  clear_value u hi₁ hi₂
  split
  · next e => exact State.Sound.partOf (runMembers_ok_sound hu e)
  · split
    · next e => exact State.Sound.partOf (runMembers_ok_sound hu e)
    · exact hu

theorem State.Sound.hashStop {l : List Member} {e : QEntry} (h : s.Sound k) (ht : t.Sound k) :
    (s.hashStop t l e).Sound k := by
  unfold State.hashStop
  extract_lets u hi
  have hu : u.Sound k := h.withCore h.core.claim
  clear_value u hi
  split
  · next v e =>
    have hv : v.Sound k := runMembers_ok_sound hu e
    extract_lets vd c
    have hc : c.Sound k := ⟨ht.core.1, hv.core.2⟩
    exact State.Sound.partOf (hv.setCore hc.setV)
  · exact hu

theorem State.runConvoy_sound {l : List Member} (h : s.Sound k) : Result.Sound k (s.runConvoy l) := by
  unfold State.runConvoy
  have hm : Gives (fun x => x.1.Sound k) (runMembers .part (.replicate 4 512) l s) := runMembers_sound h
  split
  · next e => exact State.Sound.clean (State.Sound.retireConvoy (hm.of_eq e))
  · next e => exact State.Sound.takeTrap (h.hashStop (hm.of_eq e)).clean
  · exact h.touchAll.convoyPart.clean.takeTrap
  · exact h.touchAll.convoyPart.clean.takeTrap
  · exact h.touchAll.withCore ⟨h.touchAll.core.1, h.touchAll.core.2⟩
  · next e post uses _ =>
    extract_lets u
    have hu : u.Sound k := h.touchAll
    have hw : (({ u with core := { u.core with run := e } } : State).waiting post).Sound k :=
      State.Sound.waiting (hu.setCore ⟨hu.core.1, hu.core.2⟩)
    exact hw.withCore ⟨hw.core.1, hw.core.2⟩

theorem State.vecTurn_sound (h : s.Sound k) : Result.Sound k s.vecTurn := by
  unfold State.vecTurn
  split
  · exact execIllegalVWord_sound h.freshly
  · split
    · exact h.takeTrap
    · exact exec_sound _ h.freshly
    · exact State.runConvoy_sound h

/-! ## Words that run ahead -/

theorem Core.Sound.readMask {x : Member} {hi : Vector Nat 4} (h : c'.Sound k) : (c.readMask c' x hi).Sound k := by
  unfold Core.readMask
  exact ite_keeps ⟨h.1, h.2⟩ h

theorem State.Sound.runPart {l : List Member} {ends : Vector Nat 4} (h : s.Sound k) :
    ∀ t ∈ s.runPart l ends, t.Sound k := by
  unfold State.runPart
  extract_lets u done hi
  have hu : u.Sound k := h.withCore h.core.claim
  have hdone : ∀ t hi, t.Sound k → (done t hi).Sound k := fun t hi ht => by
    unfold done
    split
    · exact State.Sound.clean (ht.withCore ht.core.readMask)
    · exact State.Sound.clean (State.Sound.partOf ht)
  clear_value done hi
  clear_value u
  split
  · next v e =>
    have hv : v.Sound k := runMembers_ok_sound hu e
    split
    · exact some_keeps (hdone _ _ hv)
    · extract_lets hi'
      split
      · next e' => exact some_keeps (hdone _ _ (runMembers_ok_sound hu e'))
      · exact none_keeps
  · exact none_keeps

theorem State.Sound.readAhead {l : List Member} {pick : Elem → Bool} (h : s.Sound k) : (s.readAhead l pick).Sound k := by
  unfold State.readAhead
  extract_lets older
  split
  · exact h
  · next m _ =>
    extract_lets t go
    have ht : t.Sound k := h.freshly
    have hgo : ∀ o gran indexed pointers, (go o gran indexed pointers).Sound k := fun _ _ _ _ =>
      ite_keeps h (loadEarly_sound ht).clean
    clear_value go
    refine ite_keeps h ?_
    split
    case h_7 => exact h
    all_goals exact hgo _ _ _ _

/-! ## Checks that pass -/

theorem State.Sound.passedWith {n : Nat} {l : List Pin} {j : Option Job} (h : s.Sound k) : (s.passedWith n l j).Sound k :=
  h.touchAll.withCore h.touchAll.core.updEntry

/-- A check keeps of its run nothing but the host translations. -/
theorem State.Sound.keepAtc {l : List (Nat × Nat × Nat)} (h : s.Sound k) :
    ({ s with dev := { s.dev with atc := l } } : State).Sound k := h.setDev ⟨h.dev.1, h.dev.2⟩

theorem State.Sound.passMember {x : Member} (h : s.Sound k) : ∀ t ∈ s.passMember x, t.Sound k := by
  unfold State.passMember
  extract_lets hash
  clear_value hash
  split
  · exact none_keeps
  · split
    · exact none_keeps
    · split
      · split
        · exact none_keeps
        · exact some_keeps h.keepAtc.passedWith
      · exact none_keeps

theorem State.Sound.passMembers : ∀ {l : List Member} {s : State} {b : Bool}, s.Sound k →
    ∀ t ∈ State.passMembers l s b, t.Sound k
  | [], _, _, h => ite_some_keeps h
  | m :: l, s, b, h => by
    unfold State.passMembers
    split
    · exact State.Sound.passMembers h
    · split
      · next u hu => exact State.Sound.passMembers (h.passMember u hu)
      · exact ite_some_keeps h

theorem State.Sound.passFrom (h : s.Sound k) : ∀ {l : List (List QEntry)}, ∀ t ∈ s.passFrom l, t.Sound k
  | [] => none_keeps
  | g :: l => by
    unfold State.passFrom
    split
    · exact none_keeps
    · split
      · exact none_keeps
      · split
        · exact State.Sound.passFrom h
        · exact h.passMembers

theorem State.Sound.passVec (h : s.Sound k) : ∀ t ∈ s.passVec, t.Sound k := h.passFrom

theorem State.wordTurn_sound {e : QEntry} (h : s.Sound k) : Result.Sound k (s.wordTurn e) := by
  unfold State.wordTurn
  extract_lets u
  have hu : u.Sound k := h.freshly
  clear_value u
  split
  · exact execIllegalVWord_sound hu
  · exact exec_sound _ hu

end Sys2Proof.Machine

namespace Sys2Proof.Machine

variable {k : Inv} {m : Memory} {c c' : Core} {d d' : Device} {s t : State}

/-! ## Turns -/

/-- A turn that keeps the state sound. -/
def TurnSound (k : Inv) (turn : State → Result) : Prop := ∀ s, s.Sound k → Result.Sound k (turn s)

/-- An agent that, when it has a turn, keeps the state sound. -/
def AgentSound (k : Inv) (a : State → Option Result) : Prop := ∀ s, s.Sound k → ∀ r ∈ a s, Result.Sound k r

theorem next_sound (h : s.Sound k) : Result.Sound k (.next s) := h

/-- What an agent gives under a condition. -/
theorem if_some_sound {p : Prop} [Decidable p] {r : Result} (hr : Result.Sound k r) :
    ∀ x ∈ if p then some r else none, Result.Sound k x :=
  ite_some_keeps hr

/-- What an agent gives of an entry that it may find. -/
theorem if_map_sound {α : Type} {p : Prop} [Decidable p] {o : Option α} {f : α → Result}
    (hf : ∀ a ∈ o, Result.Sound k (f a)) : ∀ x ∈ if p then o.map f else none, Result.Sound k x :=
  ite_keeps (P := fun o : Option Result => ∀ x ∈ o, Result.Sound k x) (map_keeps hf) none_keeps

theorem State.Sound.tidy (h : s.Sound k) : s.tidy.Sound k := by
  have hc : ({ s.core.keepStps.keepReads with why := none, supps := 0 } : Core).Sound k := ⟨h.core.1, h.core.2⟩
  exact (h.setCore hc).clean.settlePoison

theorem tally_sound {ev : State → State → List (Nat × Nat)} {pair : State → State → Word × Word}
    {turn : State → Result} (ht : TurnSound k turn) : TurnSound k (tally ev pair turn) := by
  intro s h
  have hs : Result.Sound k (turn s) := ht s h
  unfold tally
  split
  · next t e =>
    have hu : t.Sound k := hs.of_eq e
    refine ite_keeps ?_ hu
    extract_lets c
    have hc : c.Sound k := h.setFree.countEvents
    have hr : Result.Sound k (turn { c with free := s.free }) := ht _ hc.setFree
    split
    · next e => exact State.Sound.setFree (hr.of_eq e)
    · exact hr
  · exact hs

theorem State.Sound.passWordTurn {e : QEntry} (h : s.Sound k) : ∀ r ∈ s.passWordTurn e, Result.Sound k r := by
  unfold State.passWordTurn
  have hturn : ∀ r ∈ some (s.wordTurn e), Result.Sound k r := some_keeps (State.wordTurn_sound h)
  split
  · exact hturn
  · split
    · exact none_keeps
    · split
      · exact none_keeps
      · split
        · exact none_keeps
        · extract_lets x
          clear_value x
          split
          · exact some_keeps (next_sound h.keepAtc.passedWith)
          · exact some_keeps (next_sound h.keepAtc.passedWith)
          · split
            · exact none_keeps
            · exact hturn
          · split
            · exact none_keeps
            · exact hturn
          · exact none_keeps

/-! ## The agents of a core -/

theorem stopTurn_sound : AgentSound k State.stopTurn := fun _ h => if_some_sound (execSingleStepStop_sound h)

theorem forcedTurn_sound : AgentSound k State.forcedTurn := by
  intro s h
  have hf : (s.withCore fun c => { c with forced := false }).Sound k := h.withCore ⟨h.core.1, h.core.2⟩
  exact if_some_sound (next_sound hf.forceStop)

theorem kernelTurn_sound : AgentSound k State.kernelTurn := by
  intro s h
  unfold State.kernelTurn
  split
  · exact none_keeps
  · exact if_some_sound (next_sound h.kernelServe)

theorem barrierTurn_sound : AgentSound k State.barrierTurn := by
  intro s h
  unfold State.barrierTurn
  split
  · exact if_some_sound (execBarrierPhaseComplete_sound h)
  · exact none_keeps

theorem pubTurn_sound : AgentSound k State.pubTurn := by
  intro s h
  unfold State.pubTurn
  split
  · exact if_some_sound (execWatermarkUpdate_sound h)
  · exact none_keeps

theorem auditTurn_sound : AgentSound k State.auditTurn := fun _ h => if_some_sound (execAuditBlockSign_sound h)

theorem seamTurn_sound : AgentSound k State.seamTurn := fun _ h => if_map_sound fun _ _ => next_sound h.engineDefer

theorem State.Sound.passed (h : s.Sound k) : (s.passVec.getD s).Sound k := getD_keeps h.passVec h

theorem State.Sound.vecHeld (h : s.Sound k) (ht : t.Sound k) : (s.vecHeld t).Sound k := by
  unfold State.vecHeld
  extract_lets p q
  have hp : p.Sound k := h.passed
  have hq : q.Sound k := by
    unfold q
    split
    · exact hp
    · exact State.Sound.readAhead (getD_keeps hp.runPart hp)
  exact ite_keeps hq ht

theorem vecMoves_sound : TurnSound k State.vecMoves := by
  intro s h
  have hv : Result.Sound k s.vecTurn := State.vecTurn_sound h
  unfold State.vecMoves
  split
  · next t e =>
    have ht : t.Sound k := hv.of_eq e
    exact ite_keeps (P := State.Sound k) (h.vecHeld ht) ht
  · exact hv

theorem vecAgent_sound : AgentSound k State.vecAgent := fun s h => if_some_sound (tally_sound vecMoves_sound s h)

theorem State.Sound.vecGoes {ends : Vector Nat 4} (h : s.Sound k) : ((s.vecGoes ends).getD s).Sound k :=
  getD_keeps (bind_keeps fun _ _ => h.passed.runPart) h

theorem vecToAgent_sound {ends : Vector Nat 4} : AgentSound k (State.vecToAgent ends) := fun s h =>
  if_some_sound (tally_sound (fun _ hs => next_sound hs.vecGoes) s h)

theorem earlyAgent_sound {l : List Nat} : AgentSound k (State.earlyAgent l) := fun _ h =>
  if_map_sound fun _ _ => next_sound h.readAhead

theorem passAgent_sound : AgentSound k State.passAgent := by
  intro s h
  exact if_map_sound h.passVec

theorem matAgent_sound : AgentSound k State.matAgent := fun s h =>
  if_map_sound fun _ _ => tally_sound (fun _ hs => State.wordTurn_sound hs) s h

theorem copyAgent_sound : AgentSound k State.copyAgent := fun _ h => if_map_sound fun _ _ => State.wordTurn_sound h

theorem chunkAgent_sound : AgentSound k State.chunkAgent := fun _ h =>
  if_map_sound fun _ _ => execCopyChunkArrival_sound h

theorem collAgent_sound : AgentSound k State.collAgent := fun _ h => if_map_sound fun _ _ => State.wordTurn_sound h

theorem passWordAgent_sound : AgentSound k State.passWordAgent := by
  intro s h
  unfold State.passWordAgent
  split
  · exact bind_keeps fun _ _ => h.passWordTurn
  · exact none_keeps

/-! ## The Last -/

theorem State.stepped_sound {r : Result} (hr : Result.Sound k r) : Result.Sound k (s.stepped r) := by
  unfold State.stepped
  split
  · next t =>
    have ht : t.Sound k := hr
    exact ite_keeps (P := Result.Sound k) (ht.withCore ⟨ht.core.1, ht.core.2⟩) ht
  · exact hr

theorem State.runSWord_sound {w : BitVec 32} (h : s.Sound k) : Result.Sound k (s.runSWord w) := by
  unfold State.runSWord
  split
  · exact exec_sound _ h
  · exact execIllegalSWord_sound h

theorem lastTurn_sound : TurnSound k State.lastTurn := by
  intro s h
  unfold State.lastTurn
  refine ite_keeps (P := Result.Sound k) (h.withCore ⟨h.core.1, h.core.2⟩) ?_
  split
  · exact execSWordFetchFault_sound h
  · next hf => exact State.stepped_sound (State.runSWord_sound (h.fetchBytes.of_eq hf))

theorem lastAgent_sound : AgentSound k State.lastAgent := fun s h => if_some_sound (tally_sound lastTurn_sound s h)

/-! ## The machine's step -/

/-- What an agent's try gives. -/
theorem tryTurn_sound {a : State → Option Result} (ha : AgentSound k a) (h : s.Sound k) :
    Result.Sound k (tryTurn a s).2 := by
  have hs := ha s h
  unfold tryTurn
  split
  · exact h
  · next t e => exact State.Sound.tidy (hs _ e)
  · next e => exact hs _ e

theorem runAgents_sound : ∀ {l : List (State → Option Result)} {s : State}, (∀ a ∈ l, AgentSound k a) → s.Sound k →
    Result.Sound k (runAgents l s).2
  | [], _, _, h => h
  | a :: l, s, hl, h => by
    have ha : Result.Sound k (tryTurn a s).2 := tryTurn_sound (hl a List.mem_cons_self) h
    unfold runAgents
    split
    · next e => rw [e] at ha; exact ha
    · next e => rw [e] at ha; exact runAgents_sound (fun b hb => hl b (List.mem_cons_of_mem a hb)) ha
    · next e => rw [e] at ha; exact ha

theorem agentsOfCore_sound : ∀ a ∈ agentsOfCore, AgentSound k a := by
  simp only [agentsOfCore, List.forall_mem_cons]
  exact ⟨stopTurn_sound, forcedTurn_sound, kernelTurn_sound, barrierTurn_sound, pubTurn_sound, auditTurn_sound,
    seamTurn_sound, vecAgent_sound, matAgent_sound, copyAgent_sound, chunkAgent_sound, collAgent_sound, passAgent_sound,
    passWordAgent_sound, lastAgent_sound, List.forall_mem_nil _⟩

theorem runCores_sound : ∀ {l : List Nat} {s : State}, s.Sound k → Result.Sound k (runCores l s).2
  | [], _, h => h
  | n :: l, s, h => by
    have ha : Result.Sound k (runAgents agentsOfCore (s.focus n)).2 := runAgents_sound agentsOfCore_sound h.focus
    unfold runCores
    split
    · next e => rw [e] at ha; exact ha
    · next e => rw [e] at ha; exact runCores_sound ha
    · next e => rw [e] at ha; exact ha

theorem eventTurn_sound : AgentSound k State.eventTurn := by
  intro s h
  unfold State.eventTurn
  split
  · exact none_keeps
  · next i is _ =>
    have h' : ({ s with inbox := is } : State).Sound k := h
    have he : Result.Sound k (exec i { s with inbox := is }) := exec_sound i h'
    split
    · next t e =>
      have ht : t.Sound k := he.of_eq e
      have hback : ({ t with inbox := t.inbox ++ [i] } : State).Sound k := ht
      split
      · exact some_keeps (next_sound ht)
      · exact some_keeps (next_sound hback)
    · exact some_keeps he

theorem State.planned_sound {x : Turn} (h : s.Sound k) : Result.Sound k (s.planned x) := by
  unfold State.planned
  extract_lets go
  have hgo : ∀ l, (∀ a ∈ l, AgentSound k a) → Result.Sound k (go l) := fun _ hl => runAgents_sound hl h
  have hone : ∀ a, AgentSound k a → Result.Sound k (go [a]) := fun _ ha => hgo _ (List.forall_mem_singleton.mpr ha)
  clear_value go
  cases x with
  | event => exact hone _ eventTurn_sound
  | last => exact hone _ lastAgent_sound
  | vec => exact hone _ vecAgent_sound
  | vecTo ends => exact hone _ vecToAgent_sound
  | vecEarly l => exact hone _ earlyAgent_sound
  | vecPass => exact hone _ passAgent_sound
  | mat => exact hone _ matAgent_sound
  | copy =>
    refine hgo _ ?_
    simp only [List.forall_mem_cons]
    exact ⟨copyAgent_sound, chunkAgent_sound, passWordAgent_sound, List.forall_mem_nil _⟩
  | coll =>
    refine hgo _ ?_
    simp only [List.forall_mem_cons]
    exact ⟨collAgent_sound, passWordAgent_sound, List.forall_mem_nil _⟩
  | pub => exact hone _ pubTurn_sound
  | focus n => exact h.focus
  | dropFetched l => exact h.withCore ⟨h.core.1, h.core.2⟩

theorem State.unplanned_sound (h : s.Sound k) : Result.Sound k s.unplanned := by
  have he : Result.Sound k (tryTurn State.eventTurn s).2 := tryTurn_sound eventTurn_sound h
  unfold State.unplanned
  split
  · next e => rw [e] at he; exact he
  · next t e =>
    rw [e] at he
    have hc : Result.Sound k (runCores (t.rest.map Core.num ++ [t.core.num]) t).2 := runCores_sound he
    split
    · next e => rw [e] at hc; exact hc
    · next e => rw [e] at hc; exact State.Sound.focus hc
    · next e => rw [e] at hc; exact hc
  · next e => rw [e] at he; exact he

/-- Every step keeps both invariants. -/
theorem step_sound (h : s.Sound k) : Result.Sound k (step s) := by
  unfold step State.advanceMachine
  split
  · exact State.planned_sound h
  · exact State.unplanned_sound h

/-- Settles O58: `step_sound`, read for the memories. -/
theorem everyStepKeepsMemoryCanonical : Obligations.EveryStepKeepsMemoryCanonical := by
  unfold Obligations.EveryStepKeepsMemoryCanonical
  intro s t h ht
  exact State.sound_memory.mp ((step_sound (State.sound_memory.mpr h)).of_eq ht)

/-- Settles O59: `step_sound` for the invariant of the status and trap words. -/
theorem everyStepKeepsStatusLegal : Obligations.EveryStepKeepsStatusLegal := by
  unfold Obligations.EveryStepKeepsStatusLegal
  intro s t h ht
  exact State.sound_status.mp ((step_sound (State.sound_status.mpr h)).of_eq ht)

end Sys2Proof.Machine

/-! ## The state after reset -/

namespace Sys2Proof.Machine

/-- The reset state's status and trap words are legal. -/
theorem reset_legal : State.reset.legal = true := by decide

/-- Settles O60: `State.reset` writes each value out, and a register of the device that nothing has written reads as the
reset of its table. -/
theorem resetHoldsTheTables : Obligations.ResetHoldsTheTables := by
  unfold Obligations.ResetHoldsTheTables
  refine ⟨reset_memOk, reset_legal, ?cores, rfl, ?core, ?funcs, rfl, rfl, rfl, rfl, fun _ => rfl, rfl⟩
  case cores => decide
  case core =>
    have hq : ∀ q : Fin 16, (Core.reset.q[q]).shape = none := by decide
    exact ⟨rfl, rfl, rfl, rfl, rfl, rfl, rfl, rfl, rfl, rfl, rfl, rfl, hq, rfl, rfl, rfl⟩
  case funcs => exact fun vf => ⟨rfl, rfl, rfl⟩

end Sys2Proof.Machine

namespace Sys2Proof.Machine

/-! ## Lengths -/

/-- The row maximum of every element type (Table 2-6). -/
theorem rowMax_ofCode : ∀ code : BitVec 4, rowMax (EType.ofCode code) = rowLimit (code.setWidth 16) := by decide

/-- A row maximum depends on the type code of its `vtype` alone. -/
theorem rowLimit_setWidth (vtype : BitVec 16) : rowLimit ((vtype.setWidth 4).setWidth 16) = rowLimit vtype := by
  have h : ((vtype.setWidth 4).setWidth 16).extractLsb' 0 4 = vtype.extractLsb' 0 4 := by
    ext i hi
    simp [hi]
    omega
  unfold rowLimit
  rw [h]

/-- The row maximum of a `vtype` is that of Table 2-6. -/
theorem vtypeMax_eq_rowLimit (vtype : BitVec 16) : vtypeMax vtype = rowLimit vtype :=
  (rowMax_ofCode _).trans (rowLimit_setWidth vtype)

/-- Settles O16: the two arms of `execSetvl`. -/
theorem setvlGrants : Obligations.SetvlGrants := by
  unfold Obligations.SetvlGrants
  intro s d a b vl
  refine ⟨fun hp => ?granted, fun hp => ?pending⟩
  case granted =>
    refine (if_neg (by simp [hp])).trans ?_
    rw [writeNext_eq_wrote, vtypeMax_eq_rowLimit]
    rfl
  case pending => exact if_pos hp
end Sys2Proof.Machine

namespace Sys2Proof.Machine

/-! ## Placing a block -/

/-- The queues and the next rank of another core. -/
def Core.requeued (c d : Core) : Core :=
  { c with vec := d.vec, mat := d.mat, cpy := d.cpy, col := d.col, rank := d.rank }

/-- The focused core with the queues of another. -/
abbrev State.requeued (s : State) (d : Core) : State := s.withCore fun c => c.requeued d

theorem ite_eq_map {α β : Type} {f : α → β} {p : Prop} [Decidable p] {x y : Except Fail α} {x' y' : Except Fail β}
    (hx : x' = x.map f) (hy : y' = y.map f) : ite p x' y' = (ite p x y).map f := by
  rw [hx, hy, apply_ite (Except.map f)]

/-- What an access answers, for the state with the queues of another core. -/
def answerWith (d : Core) (x : Except Fail (Place × Nat × State)) : Except Fail (Place × Nat × State) :=
  x.map fun y => (y.1, y.2.1, y.2.2.requeued d)

section
variable {s : State} {d : Core} {va : Word} {n a : Nat} {k : Acc} {spec : Bool}

theorem State.gang_requeued : (s.requeued d).gang = s.gang := rfl
theorem State.pinned_requeued : (s.requeued d).pinned a k = s.pinned a k := rfl
theorem State.leafOf_requeued (g : Gang) : (s.requeued d).leafOf g a k = s.leafOf g a k := rfl

theorem State.mark_requeued (l : Leaf) : (s.requeued d).mark l k = (s.mark l k).requeued d := by
  unfold State.mark
  dsimp only
  rw [apply_ite (fun t : State => t.requeued d)]
  rfl

/-- The page that an access reaches does not depend on what is queued. -/
theorem reach_requeued (g : Gang) (l : Leaf) :
    reach (s.requeued d) g l a k spec = answerWith d (reach s g l a k spec) := by
  refine ite_eq_map rfl (ite_eq_map ?host (ite_eq_map (ite_eq_map rfl rfl) (ite_eq_map rfl ?device)))
  case host =>
    dsimp only [State.withCore_dev]
    generalize s.dev.hostTranslate _ _ = x
    cases x with
    | none => rfl
    | some x => exact ite_eq_map rfl rfl
  case device =>
    dsimp only [State.withCore_dev]
    generalize ownerCheck _ _ _ = x
    cases x <;> rfl

theorem Pin.reach_requeued (x : Pin) (g : Gang) : x.reach (s.requeued d) g a k = answerWith d (x.reach s g a k) := by
  unfold Pin.reach
  cases x.place with
  | dram b =>
    dsimp only [State.withCore_dev]
    generalize ownerCheck _ _ _ = x
    cases x <;> rfl
  | _ => rfl

/-- Nor do the checks of an access. -/
theorem probe_requeued : probe (s.requeued d) va n k spec = answerWith d (probe s va n k spec) := by
  unfold probe
  refine ite_eq_map rfl ?_
  rw [State.gang_requeued]
  cases s.gang with
  | none => rfl
  | some g =>
    dsimp only
    rw [State.pinned_requeued]
    cases s.pinned va.toNat k with
    | some p => exact p.reach_requeued g
    | none =>
      refine ite_eq_map rfl ?_
      rw [State.leafOf_requeued]
      cases s.leafOf g va.toNat k with
      | error f => rfl
      | ok l =>
        dsimp only
        rw [State.mark_requeued]
        exact reach_requeued g l

theorem probeFor_requeued (o : Owner) : probeFor (s.requeued d) o va n k spec = answerWith d (probeFor s o va n k spec) :=
  ite_eq_map rfl probe_requeued

/-- A fetch from the block cache gives the same word whatever is queued, and leaves the queues as they are. -/
theorem fetchBytes_requeued : fetchBytes (s.requeued d) true va n =
    (fetchBytes s true va n).map fun y => (y.1, y.2.requeued d) := by
  unfold fetchBytes
  rw [probeFor_requeued]
  cases probeFor s .last va n .fetch false with
  | error f => rfl
  | ok x =>
    obtain ⟨p, attr, t⟩ := x
    have hkept : (t.requeued d).core.bcache = t.core.bcache := rfl
    dsimp only [answerWith, Except.map]
    rw [if_pos rfl, if_pos rfl, hkept]
    cases t.core.bcache.find? _ with
    | some l => exact ite_eq_map rfl rfl
    | none =>
      cases p with
      | dram a => exact ite_eq_map rfl rfl
      | host a => exact ite_eq_map rfl rfl
      | spad a => rfl
      | reg a => rfl
end

/-- The provenance of a block word is that of Table 2-15. -/
theorem blockProv_eq_fetchedFrom (base : Word) {off : Nat} (h : off < 512) : blockProv base off = fetchedFrom base off := by
  have hoff : off <<< 52 < 2 ^ 64 := by rw [Nat.shiftLeft_eq]; omega
  have hbase : base.toNat >>> 3 % 2 ^ 52 < 2 ^ 64 := by omega
  apply BitVec.eq_of_toNat_eq
  simp only [blockProv, fetchedFrom, wfield, field, BitVec.toNat_or, BitVec.toNat_append, BitVec.toNat_ofNat,
    BitVec.extractLsb'_toNat]
  rw [Nat.mod_eq_of_lt hoff, Nat.mod_eq_of_lt hbase, Nat.mod_eq_of_lt (show off < 2 ^ 9 from h)]
  simp

/-- A trim changes the length and the rows of a word and nothing else (R257). -/
theorem Trim.apply_frame (t : Trim) (e : QEntry) : ∃ vl rc, t.apply e = { e with vl := vl, rc := rc } := by
  unfold Trim.apply
  repeat' split
  all_goals exact ⟨_, _, rfl⟩

@[simp] theorem Core.queue_setQueue_same (c : Core) (l : List QEntry) (q : Que) : (c.setQueue l q).queue q = l := by
  cases q <;> rfl

theorem Core.queue_setQueue_other (c : Core) (l : List QEntry) {q q' : Que} (h : q' ≠ q) :
    (c.setQueue l q).queue q' = c.queue q' := by
  cases q <;> cases q' <;> simp_all [Core.setQueue, Core.queue]

@[simp] theorem Core.queue_requeued (c d : Core) (q : Que) : (c.requeued d).queue q = d.queue q := by
  cases q <;> rfl

/-- A word at the end of a queue takes one entry of the history buffer (R18). -/
theorem Core.history_append (c : Core) (q : Que) (e : QEntry) :
    (c.setQueue (c.queue q ++ [e]) q).history = c.history + 1 := by
  cases q <;> simp only [Core.history, Core.words, Core.setQueue, Core.queue, List.length_append, List.length_singleton] <;> omega

/-- A placed word that spends no draw index carries what R14 and R17 say, and stands at the end of its queue. -/
theorem Core.place_eq_setQueue (c : Core) {w : BitVec 64} (prov : Word) (more : Bool) (hw : isStreamDraw w = false) :
    ∃ e, Carries c w prov e ∧ c.place w prov more =
      ({ c with rank := c.rank + 1 } : Core).setQueue (c.queue (queOf w) ++ [e]) (queOf w) := by
  unfold Core.place
  rw [if_neg (by simp [hw])]
  refine ⟨_, ?carries, rfl⟩
  split
  · split
    · next t ht =>
      obtain ⟨vl, rc, he⟩ := t.apply_frame _
      rw [he]
      exact ⟨rfl, rfl, rfl, rfl, rfl, ⟨rfl, rfl⟩, ⟨rfl, rfl, rfl⟩, fun h => absurd (h.symm.trans ht) (by simp), rfl, rfl, rfl⟩
    · exact ⟨rfl, rfl, rfl, rfl, rfl, ⟨rfl, rfl⟩, ⟨rfl, rfl, rfl⟩, fun _ => ⟨rfl, rfl⟩, rfl, rfl, rfl⟩
  · exact ⟨rfl, rfl, rfl, rfl, rfl, ⟨rfl, rfl⟩, ⟨rfl, rfl, rfl⟩, fun _ => ⟨rfl, rfl⟩, rfl, rfl, rfl⟩

/-- What a word carries does not depend on what is queued. -/
theorem Carries.of_requeued {c d : Core} {w : BitVec 64} {prov : Word} {e : QEntry} (h : Carries (c.requeued d) w prov e) :
    Carries c w prov e :=
  ⟨h.word, h.prov, h.pc, h.vtype, h.slots, h.random, h.enables, h.length, h.unstarted⟩

/-- A block of n words and its `VSTOP` that stand in the block cache, no stream-form `DRAW` among them. -/
structure BlockStands (s : State) (base : Word) (n : Nat) (w : Nat → BitVec 64) : Prop where
  short : n ≤ 511
  fetched : ∀ k, k ≤ n → fetchBytes s true (base + BitVec.ofNat 64 (8 * k)) 8 = .ok ((w k).toNat, s)
  word : ∀ k, k < n → w k ≠ vstop ∧ opOf (w k) ≠ 0x7F ∧ isStreamDraw (w k) = false
  ended : w n = vstop

section
variable {s : State} {base : Word} {n : Nat} {w : Nat → BitVec 64}

/-- The words of the block are found again while it is being placed. -/
theorem BlockStands.blockWord (h : BlockStands s base n w) {k : Nat} (hk : k ≤ n) (d : Core) :
    blockWord (s.requeued d) base k = .ok (w k, s.requeued d) := by
  unfold Machine.blockWord
  rw [fetchBytes_requeued, h.fetched k hk]
  simp [Except.map]

/-- The `VFETCH` has placed its block and goes on behind it, with these queues. -/
def State.blockPlaced (s : State) (d : Core) : State :=
  ((s.requeued d).withCore fun c => { c with resoff := 0, midFetch := none }).advance

theorem BlockStands.placeBlock_end (h : BlockStands s base n w) (fuel : Nat) (d : Core) :
    placeBlock base (fuel + 1) n (s.requeued d) = .next (s.blockPlaced d) := by
  rw [placeBlock]
  simp only [h.blockWord (Nat.le_refl n) d, if_pos h.ended]
  rfl

/-- A word of the block that has room is placed. -/
theorem BlockStands.placeBlock_word (h : BlockStands s base n w) {k : Nat} (hk : k < n) (fuel : Nat) (d : Core)
    (hroom : (s.core.requeued d).room (queOf (w k)) = true) :
    ∃ more, placeBlock base (fuel + 1) k (s.requeued d) =
      placeBlock base fuel (k + 1) (s.withCore fun c => (c.requeued d).place (w k) (blockProv base k) more) := by
  obtain ⟨hstop, hop, hdraw⟩ := h.word k hk
  have hlast : k ≠ 511 := by have := h.short; omega
  have hspare : (s.requeued d).core.drawExhausts (w k) = false := by simp [Core.drawExhausts, hdraw]
  rw [placeBlock]
  simp only [h.blockWord (Nat.le_of_lt hk) d, if_neg hstop, if_neg hlast, if_neg hop, hspare]
  rw [if_neg (by simp), if_neg (by simpa using hroom)]
  exact ⟨_, rfl⟩

/-- The rest of the block is placed, when every word has room. -/
theorem BlockStands.placeBlock_rest (h : BlockStands s base n w) (m : Nat) : ∀ (k fuel : Nat) (d : Core), k + m = n →
    m < fuel → (s.core.requeued d).history + m ≤ 64 → (∀ q, (d.queue q).length + m ≤ q.cap) →
    ∃ (d' : Core) (es : List QEntry), placeBlock base fuel k (s.requeued d) = .next (s.blockPlaced d') ∧ es.length = m ∧
      (∀ j e, es[j]? = some e → Carries s.core (w (k + j)) (fetchedFrom base (k + j)) e) ∧
      ∀ q, d'.queue q = d.queue q ++ es.filter fun e => queOf e.word == q := by
  induction m with
  | zero =>
    intro k fuel d hk hfuel _ _
    obtain ⟨fuel, rfl⟩ := Nat.exists_eq_succ_of_ne_zero (Nat.ne_of_gt hfuel)
    obtain rfl : k = n := hk
    exact ⟨d, [], h.placeBlock_end fuel d, rfl, by simp, by simp⟩
  | succ m ih =>
    intro k fuel d hk hfuel hhist hcap
    obtain ⟨fuel, rfl⟩ := Nat.exists_eq_succ_of_ne_zero (show fuel ≠ 0 by omega)
    have hkn : k < n := by omega
    have hroom : (s.core.requeued d).room (queOf (w k)) = true := by
      have := hcap (queOf (w k))
      simp only [Core.room, Core.queue_requeued, Bool.and_eq_true, decide_eq_true_eq, Config.history]
      omega
    obtain ⟨more, hstep⟩ := h.placeBlock_word hkn fuel d hroom
    obtain ⟨e, he, hplace⟩ := (s.core.requeued d).place_eq_setQueue (blockProv base k) more (h.word k hkn).2.2
    generalize hd₁ : (s.core.requeued d).place (w k) (blockProv base k) more = d₁ at hplace
    have hone : (s.core.requeued d).place (w k) (blockProv base k) more = s.core.requeued d₁ := by
      rw [hd₁, hplace]
      cases queOf (w k) <;> rfl
    have hqueue : ∀ q, d₁.queue q = d.queue q ++ [e].filter fun e => queOf e.word == q := by
      intro q
      rw [hplace]
      by_cases hq : q = queOf (w k)
      · subst hq
        simp [he.word]
      · rw [Core.queue_setQueue_other _ _ hq, List.filter_singleton, he.word, beq_false_of_ne (Ne.symm hq)]
        cases q <;> simp [Core.queue, Core.requeued]
    have hcap₁ : ∀ q, (d₁.queue q).length + m ≤ q.cap := by
      intro q
      have := hcap q
      have := List.length_filter_le (fun e => queOf e.word == q) [e]
      rw [hqueue, List.length_append]
      simp only [List.length_singleton] at this
      omega
    have hhist₁ : (s.core.requeued d₁).history = (s.core.requeued d).history + 1 := by
      rw [← hone, hd₁, hplace]
      exact Core.history_append { s.core.requeued d with rank := d.rank + 1 } (queOf (w k)) e
    obtain ⟨d', es, hrun, hlen, hes, hq⟩ := ih (k + 1) fuel d₁ (by omega) (by omega) (by omega) hcap₁
    refine ⟨d', e :: es, ?_, by simp [hlen], ?_, ?_⟩
    · rw [hstep, ← hrun]
      exact congrArg (fun c => placeBlock base fuel (k + 1) { s with core := c }) hone
    · intro j e' hj
      cases j with
      | zero =>
        obtain rfl : e = e' := by simpa using hj
        have hk512 : k < 512 := by have := h.short; omega
        rw [Nat.add_zero, ← blockProv_eq_fetchedFrom base hk512]
        exact he.of_requeued
      | succ j =>
        have := hes j e' (by simpa using hj)
        rwa [show k + 1 + j = k + (j + 1) by omega] at this
    · intro q
      rw [hq, hqueue, List.append_assoc, ← List.filter_append]
      rfl
end

/-- Settles O18: the `VFETCH` begins at the first word of its block, and `placeBlock_rest` places the words. -/
theorem vfetchPlacesABlock : Obligations.VfetchPlacesABlock := by
  unfold Obligations.VfetchPlacesABlock
  intro s a off n w base hpark
  have hexec : exec (.vfetch a off) s = execVfetch a off s := rfl
  have hbase : readS s a + sextImm off * 8 = base := rfl
  rw [hexec, execVfetch, hpark, hbase]
  dsimp only
  rw [if_neg Bool.false_ne_true]
  refine ⟨fun hmis => if_pos hmis, fun hal hmid hn hfetch hword hend hhist hcap => ?_⟩
  have h : BlockStands s base n w := ⟨hn, hfetch, hword, hend⟩
  have hfirst : fetchBytes s true base 8 = .ok ((w 0).toNat, s) := by simpa using hfetch 0 (Nat.zero_le n)
  obtain ⟨d, es, hrun, hlen, hes, hq⟩ := h.placeBlock_rest n 0 512 s.core (Nat.zero_add n) (by omega) hhist hcap
  refine ⟨s.blockPlaced d, es, ?_, hlen, fun k e hk => ?_, fun q => ?_, rfl, rfl, rfl, rfl, rfl, rfl, rfl⟩
  · rw [if_neg (not_not_intro hal), if_neg (by simp [hmid]), hfirst]
    exact hrun
  · simpa using hes k e hk
  · rw [← hq]
    cases q <;> rfl

end Sys2Proof.Machine

namespace Sys2Proof.Machine

/-! ## A stop stays on its core

`State.On n s`: core `n` has the focus. What a forced stop does to a hart (R424) keeps it so. -/

/-- Core `n` has the focus. -/
def State.On (n : Nat) (s : State) : Prop := s.core.num = n

section
variable {n : Nat} {s t : State} {c : Core}

/-! ### Taking an exception -/

theorem Core.unwind_num (c : Core) (r : Nat) : (c.unwind r).num = c.num := by
  unfold Core.unwind
  split <;> rfl

theorem Core.abandon_num (c : Core) : c.abandon.num = c.num := by
  unfold Core.abandon
  split <;> rfl

theorem Core.enter_num (c : Core) (k : Option KStop) : (c.enter k).num = c.num := by cases k <;> rfl

theorem Core.givenUp_num (c : Core) (x : TrapReq) : (c.givenUp x).num = c.num := by
  unfold Core.givenUp
  extract_lets c₁ c₂ c₃
  have h₁ : c₁.num = c.num := ite_keeps (P := fun d : Core => d.num = c.num) c.abandon_num rfl
  have h₂ : c₂.num = c.num := ite_keeps (P := fun d : Core => d.num = c.num) h₁ h₁
  show c₃.num = c.num
  unfold c₃
  split
  · exact (c₂.unwind_num _).trans h₂
  · exact h₂

theorem State.On.withCore {f : Core → Core} (h : s.On n) (hf : (f s.core).num = s.core.num) : (s.withCore f).On n :=
  hf.trans h

theorem State.On.trace {ty en : Nat} {pc prov data extra : Word} (h : s.On n) : (s.trace ty en pc prov data extra).On n := by
  obtain ⟨x, hx⟩ := s.trace_core ty en pc prov data extra
  show (s.trace ty en pc prov data extra).core.num = n
  rw [hx]
  exact h

theorem State.On.postTrap {r : Record} {x : Option KStop} (h : s.On n) : (s.postTrap r x).On n := by
  unfold State.postTrap
  split
  · exact (s.core.enter_num x).trans h
  · exact h

theorem State.On.takeTrap {x : TrapReq} (h : s.On n) : (Machine.takeTrap s x).On n := by
  unfold Machine.takeTrap
  extract_lets c rep q prov tepc tcause route nest c₁ c₂ s₁ s₂ krn host stop s₃
  have h₁ : c₁.num = n := (s.core.givenUp_num x).trans h
  have h₂ : c₂.num = n := ite_keeps (P := fun d : Core => d.num = n) h₁ h₁
  have h' : s₂.On n := State.On.trace (s := s₁) h₂
  have h₃ : s₃.On n := ite_keeps (P := State.On n) h' h'
  exact ite_keeps (P := State.On n) ((s₃.core.enter_num none).trans h₃) (State.On.postTrap (s := s₃.stamp.2) h₃)

/-! ### Bytes that move -/

theorem State.On.setBytes {p : Place} {bs : List Byte} (h : s.On n) : (s.setBytes p bs).On n := by
  obtain ⟨sp, w, hc⟩ := s.setBytes_core p bs
  show (s.setBytes p bs).core.num = n
  rw [hc]
  exact h

theorem State.On.settlePoison (h : s.On n) : s.settlePoison.On n := ite_keeps (P := State.On n) h h

theorem State.On.spoil {p : Place} (h : s.On n) : (s.spoil p).On n := by cases p <;> exact h

theorem State.On.moveBytes {p q : Place} {k : Nat} (h : s.On n) : (moveBytes s p q k).On n := by
  unfold Machine.moveBytes
  split
  · exact ite_keeps (P := State.On n) h.setBytes h.setBytes
  · exact h.setBytes

theorem State.On.carryBytes {p q : Place} {k : Nat} (h : s.On n) : (carryBytes s p q k).On n :=
  ite_keeps (P := State.On n) h.moveBytes
    (List.foldlRecOn _ _ h.moveBytes.settlePoison fun _ hs _ _ => State.On.spoil hs)

/-- An access of an engine leaves the hart as it is. -/
theorem enginePlace_core {sp : Bool} {a k : Nat} {q : Acc} {p : Place} (h : enginePlace s sp a k q = .ok (p, t)) :
    t.core = s.core := by
  unfold enginePlace at h
  split at h
  · cases h; rfl
  · dsimp only at h
    split at h <;> cases h
    rfl

theorem State.On.enginePlace {sp : Bool} {a k : Nat} {q : Acc} (h : s.On n) :
    Gives (fun x => x.2.On n) (enginePlace s sp a k q) := by
  cases he : Machine.enginePlace s sp a k q with
  | error x => trivial
  | ok x => exact (congrArg Core.num (enginePlace_core he)).trans h

theorem State.On.moveSpan {carry ssp dsp : Bool} {src dst k : Nat} (h : s.On n) :
    Gives (State.On n) (moveSpan carry ssp dsp src dst k s) := by
  unfold Machine.moveSpan
  refine List.foldlRecOn (motive := Gives (State.On n)) _ _ h fun acc ha x _ => ?_
  split
  · trivial
  · split
    · trivial
    · next hp =>
      split
      · trivial
      · next hq =>
        split
        · trivial
        · exact State.On.carryBytes (State.On.enginePlace (State.On.enginePlace ha |>.of_eq hp) |>.of_eq hq)

/-! ### Copies -/

theorem Core.wordDone_num (c : Core) (prov : Word) : (c.wordDone prov).num = c.num := by
  unfold Core.wordDone
  split <;> rfl

theorem Core.finish_num (c : Core) (e : QEntry) : (c.finish e).num = c.num := Core.wordDone_num _ _

theorem State.On.copyChunk {e : QEntry} {j : Job} (h : s.On n) : Gives (State.On n) (s.copyChunk e j) := by
  unfold State.copyChunk State.onWord
  dsimp -zeta only
  split
  · trivial
  · next t ht =>
    split at ht
    · cases ht
    · next u hu =>
      extract_lets p j' v w at ht
      cases ht
      have hu : u.On n := (State.On.moveSpan (s := s.withRun e) h).of_eq hu
      have hv : v.On n := hu.withCore (by split <;> rfl)
      have hw : w.On n := ite_keeps (P := State.On n) ((Core.finish_num _ _).trans hv) hv
      exact hw.settlePoison

theorem State.On.runCopy {rank : Nat} : ∀ {k : Nat} {s : State}, s.On n → (s.runCopy k rank).1.On n
  | 0, _, h => h
  | k + 1, s, h => by
    unfold State.runCopy
    split
    · exact h
    · split
      · exact h
      · refine ite_keeps (P := fun x : State × Option Stop => x.1.On n) h ?_
        split
        · next hc => exact State.On.runCopy (h.copyChunk.of_eq hc)
        · exact h

theorem State.On.finishCopy {e : QEntry} (h : s.On n) : (s.finishCopy e).1.On n := by
  unfold State.finishCopy
  split
  · exact h.runCopy
  · exact h

theorem State.On.finishAll : ∀ (l : List QEntry) {s : State}, s.On n → (s.finishAll l).1.On n
  | [], _, h => h
  | e :: l, s, h => by
    have he : ∀ {x}, s.finishCopy e = x → x.1.On n := fun hx => hx ▸ h.finishCopy
    unfold State.finishAll
    split
    · next hx => exact State.On.finishAll l (he hx)
    · next hx => exact State.On.finishAll l (he hx)
    · next hx => exact State.On.finishAll l (he hx)
    · next hx => exact he hx

theorem State.On.finishCopies (h : s.On n) : s.finishCopies.1.On n :=
  ite_keeps (P := fun x : State × Option (Nat × Stop) => x.1.On n) h (State.On.finishAll _ h)

/-! ### Checks of a copy -/

theorem State.On.probeFor {o : Owner} {va : Word} {k : Nat} {q : Acc} {spec : Bool} (h : s.On n) :
    Gives (fun x => x.2.2.On n) (probeFor s o va k q spec) := by
  cases hp : Machine.probeFor s o va k q spec with
  | error x => trivial
  | ok x => exact (congrArg Core.num (probe_core (probeFor_ok hp)).1).trans h

theorem State.On.pin {va : Word} {k : Acc} {p : Place} {attr : Nat} (h : s.On n) : (s.pin va k p attr).On n :=
  ite_keeps (P := State.On n) h h

theorem checkRun_on {o : Owner} {q : Acc} {sp : Bool} {acc : Fails × State} {r : Nat × Nat} (h : acc.2.On n) :
    (checkRun o q sp acc r).2.On n := by
  unfold checkRun
  refine ite_keeps (P := fun x : Fails × State => x.2.On n) h ?_
  split
  · next hp => exact ite_keeps (P := State.On n) (h.probeFor.of_eq hp) (State.On.pin (h.probeFor.of_eq hp))
  · exact h

theorem State.On.checkSpans {o : Owner} {l : List (Acc × Span)} (h : s.On n) : Gives (State.On n) (checkSpans o l s) := by
  unfold Machine.checkSpans
  split
  · trivial
  · extract_lets r
    have hr : r.2.On n :=
      List.foldlRecOn (motive := fun acc : Fails × State => acc.2.On n) l _ h fun _ ha x _ =>
        List.foldlRecOn (motive := fun acc : Fails × State => acc.2.On n) x.2.runs _ ha fun _ hb _ _ => checkRun_on hb
    split
    · trivial
    · exact hr

theorem State.On.checkPlain {o : Owner} {k : Acc} {m : Nat} {step : Elem → Nat} {els : List Elem} (h : s.On n) :
    Gives (fun x => x.2.On n) (checkPlain o k m step els s) := by
  unfold Machine.checkPlain
  extract_lets b r
  have hr : r.2.2.On n := by
    refine List.foldlRecOn (motive := fun acc : List (Elem × Place) × Fails × State => acc.2.2.On n) els _ h ?_
    intro acc ha el _
    split
    · next hp => exact ite_keeps (P := State.On n) (State.On.pin (ha.probeFor.of_eq hp)) (ha.probeFor.of_eq hp)
    · exact ha
  split
  · trivial
  · exact hr

theorem State.On.readDoubles {o : Owner} {va : Word} {m step : Nat} (h : s.On n) :
    Gives (fun x => x.2.On n) (readDoubles o va m step s) := by
  unfold Machine.readDoubles
  extract_lets els
  split
  · trivial
  · next hp =>
    refine List.foldlRecOn (motive := Gives fun x : List Word × State => x.2.On n) _ _ (h.checkPlain.of_eq hp) ?_
    intro acc ha x _
    split
    · trivial
    · exact ite_keeps (P := Gives fun x : List Word × State => x.2.On n) trivial ha

theorem State.On.engineDesc {src : RecSrc} {m : Nat} (h : s.On n) : Gives (fun x => x.2.On n) (engineDesc src m s) := by
  unfold Machine.engineDesc
  split
  · split
    · trivial
    · exact h
  · exact ite_keeps (P := Gives fun x : List Word × State => x.2.On n) trivial h.readDoubles

theorem State.On.copyStart {o : EngArgs} (h : s.On n) : Gives (fun x => x.2.On n) (copyStart o s) := by
  unfold Machine.copyStart
  split
  · trivial
  · next ht =>
    extract_lets j
    split
    · trivial
    · split
      · trivial
      · next hu => exact (State.On.checkSpans (h.engineDesc.of_eq ht)).of_eq hu

theorem State.On.feedCopy {e : QEntry} (h : s.On n) : (s.feedCopy e).On n := by
  unfold State.feedCopy
  split
  · split
    · exact h
    · next j t ht =>
      have ht : t.On n := (State.On.copyStart (s := s.withRun e) h).of_eq ht
      refine ite_keeps (P := State.On n) h ?_
      extract_lets t' u
      have hu : u.On n := State.On.finishCopy (s := t') ht
      exact ite_keeps (P := State.On n) h hu
  · exact h

/-! ### A forced stop -/

theorem State.On.settleCopies (h : s.On n) : s.settleCopies.On n :=
  ite_keeps (P := State.On n) h (List.foldlRecOn _ _ (show State.On n _ from h.finishCopies) fun _ hs _ _ => hs.feedCopy)

theorem State.On.settleEngines (h : s.On n) : s.settleEngines.On n :=
  (Core.abandon_num _).trans h.settleCopies

theorem State.On.freezeEngine {q : Que} {rank : Nat} {i : StopInfo} (h : s.On n) : (freezeEngine q rank i s).On n := by
  cases q <;> exact h

end

/-! ## Pre-emption requests -/

section
variable {s : State} {gid : BitVec 16} {g : Gang}

/-- The hart of core `n` that has the focus is served where it stands. -/
theorem State.onCore_focus {f : State → State} (h : (f s).On s.core.num) : s.onCore s.core.num f = f s := by
  have hself : s.focus s.core.num = s := if_pos rfl
  have hback : (f s).focus s.core.num = f s := if_pos h
  unfold State.onCore
  rw [hself]
  exact (if_pos rfl).trans hback

theorem State.On.stopByForce {n : Nat} (h : s.On n) : s.stopByForce.On n := by
  have hf : ∀ {x}, s.finishCopies = x → x.1.On n := fun hx => hx ▸ h.finishCopies
  unfold State.stopByForce
  split
  · next hx => exact (hf hx).takeTrap
  · next hx => exact (hf hx).freezeEngine
  · next hx => exact (hf hx).settleEngines.takeTrap

/-- The hart whose grace has expired is stopped by force, unless it is frozen (R38, R423). -/
theorem graceExpiry_stops (hrun : s.core.running) (hpre : s.core.preempt = true)
    (hgrace : s.core.graceHeld = false ∨ s.core.kmode = false) (hfrozen : ∀ x, s.gang = some x → s.gangFrozen x = false) :
    exec (.graceExpiry s.core.num) s = .next s.stopByForce := by
  obtain ⟨hplaced, hstopped, hwait⟩ := hrun
  have hheld : (s.core.graceHeld && s.core.kmode) = false := by rcases hgrace with h | h <;> simp [h]
  have hfree : (s.gang.map s.gangFrozen).getD false = false := by
    cases hg : s.gang with
    | none => rfl
    | some x => exact hfrozen x hg
  have hself : s.On s.core.num := rfl
  refine congrArg Host.Outcome.next ((State.onCore_focus ?_).trans (if_pos ?_))
  · exact ite_keeps (P := State.On s.core.num) hself.stopByForce hself
  · simp [hplaced, hpre, hheld, hfree, hstopped, hwait]

/-- A request for pre-emption reaches every hart of the gang, and no other (R338). -/
def Core.asked (gid : BitVec 16) (c : Core) : Core :=
  if c.placed = true ∧ c.gang16 = gid then { c with preempt := true } else c

theorem State.requestPreempt_placed (hg : s.dev.liveGang gid = some g) (hst : g.st = .placed) :
    s.requestPreempt gid = { s with core := s.core.asked gid, rest := s.rest.map (Core.asked gid) } :=
  if_pos (by simp [hg, hst])

/-- The function that has just been changed. -/
theorem Device.func_updFunc (d : Device) {vf : Nat} (f : Func → Func) (hf : (f (d.func vf)).num = (d.func vf).num)
    (hvf : vf < 384) (hboot : d.boot.getLsbD 2 = false) : (d.updFunc vf f).func vf = f (d.func vf) := by
  have hnum : (d.func vf).num = vf := by
    unfold Device.func
    cases h : d.funcs.find? fun f => f.num == vf with
    | none => rfl
    | some x => simpa using List.find?_some h
  have hin : ¬(decide (Config.functions ≤ vf) || d.boot.getLsbD 2) = true := by
    rw [hboot, Bool.or_false, decide_eq_true_eq]
    exact Nat.not_le.mpr hvf
  have hupd : d.updFunc vf f = { d with funcs := f (d.func vf) :: d.funcs.filter fun x => x.num ≠ vf } :=
    if_neg hin
  have hhere : ((f (d.func vf)).num == vf) = true := by simp [hf, hnum]
  rw [hupd]
  exact congrArg (Option.getD · (Func.reset vf)) (List.find?_cons_of_pos hhere)

theorem Device.liveGang_updFunc (d : Device) (vf : Nat) (f : Func → Func) (gid : BitVec 16) :
    (d.updFunc vf f).liveGang gid = d.liveGang gid := by
  unfold Device.updFunc
  split <;> rfl

/-- A slice that ends asks the gang to leave: another function's candidate waits and can pay. -/
theorem timeSliceExpiry_asks (hg : s.dev.liveGang gid = some g) {vf : Nat} {x : Gang} (hvf : vf ∈ s.dev.vfs)
    (hother : vf ≠ g.vf) (hx : x ∈ s.candidates vf g.desc.prio) (hpay : x.desc.harts ≤ (s.dev.func vf).deficit) :
    exec (.timeSliceExpiry gid) s = .next (s.requestPreempt gid) := by
  show execTimeSliceExpiry gid s = _
  unfold execTimeSliceExpiry
  rw [hg]
  refine congrArg Host.Outcome.next (if_pos ?_)
  rw [List.any_eq_true]
  refine ⟨vf, hvf, ?_⟩
  rw [Bool.and_eq_true, List.any_eq_true]
  exact ⟨by simpa using hother, x, hx, by simpa using hpay⟩

end

/-- Settles O31: the request itself is `requestPreempt`; a forced stop is `stopByForce`, which ends on the core that it began
on. -/
theorem preemptionRequests : Obligations.PreemptionRequests := by
  unfold Obligations.PreemptionRequests
  intro s gid g hg hst ask asked
  have hasked : s.requestPreempt gid = asked := State.requestPreempt_placed hg hst
  have hlive : ∀ vf f, (s.withDev fun d => d.updFunc vf f).dev.liveGang gid = some g :=
    fun vf f => (Device.liveGang_updFunc _ _ _ _).trans hg
  refine ⟨congrArg Host.Outcome.next hasked, ?own, ?other, ?slice, ?grace⟩
  case own =>
    refine ⟨_, congrArg Host.Outcome.next ((if_pos ?_).trans (State.requestPreempt_placed (hlive _ _) hst)), rfl, rfl, ?_⟩
    · simp [Device.liveGang_updFunc, hg]
    · intro hvf hboot
      exact congrArg Func.preGid (Device.func_updFunc s.dev (fun f => { f with preGid := gid.setWidth 64 }) rfl hvf hboot)
  case other =>
    intro vf hvf
    refine ⟨_, congrArg Host.Outcome.next (if_neg ?_), rfl, rfl⟩
    simp [Device.liveGang_updFunc, hg, Ne.symm hvf]
  case slice =>
    intro vf x hvf hother hx hpay
    rw [timeSliceExpiry_asks hg hvf hother hx hpay, hasked]
  case grace =>
    intro hrun hpre hgrace hfrozen
    rw [graceExpiry_stops hrun hpre hgrace hfrozen]
    unfold State.stopByForce
    obtain ⟨t, x⟩ := s.finishCopies
    refine ⟨fun rank i h => ?_, fun rank i h => ?_, fun h => ?_⟩
    · obtain rfl : x = _ := h
      rfl
    · obtain rfl : x = _ := h
      rfl
    · cases x with
      | none => rfl
      | some x =>
        obtain ⟨rank, e⟩ := x
        cases e with
        | stop i => exact absurd rfl (h rank i).2
        | deferred i => exact absurd rfl (h rank i).1
        | hold => rfl
        | wait post => rfl

end Sys2Proof.Machine

namespace Sys2Proof.Machine

/-! ## Limits of a word, by Table 20-4 -/

/-- A check of the model answers as its line of the table says: nothing, or the operand limit with the line's code. -/
def Agrees (e : Except Stop Unit) (x : Nat × Bool) : Prop :=
  if x.2 = true then e = .ok () else ∃ v, e = .error (limitStop x.1 v)

theorem Agrees.need {b b' : Bool} {code v : Nat} (h : b = b') : Agrees (need b code v) (code, b') := by
  subst h
  unfold Agrees Machine.need
  cases b
  · exact ⟨v, rfl⟩
  · exact rfl

theorem Agrees.ok {code : Nat} : Agrees (.ok ()) (code, true) := rfl

theorem firstBroken_cons_true (code : Nat) (l : List (Nat × Bool)) : firstBroken ((code, true) :: l) = firstBroken l := rfl
theorem firstBroken_cons_false (code : Nat) (l : List (Nat × Bool)) : firstBroken ((code, false) :: l) = some code := rfl

/-- A line of a table in which nothing is broken holds. -/
theorem holds_of_firstBroken {l : List (Nat × Bool)} (h : firstBroken l = none) {code : Nat} {b : Bool} (hx : (code, b) ∈ l) :
    b = true := by
  have := List.find?_eq_none.mp (Option.map_eq_none_iff.mp h) _ hx
  simpa using this

/-- The checks of a word in turn, and what comes after them: the first line that is broken is reported. -/
theorem needAll_agrees {checks : List (Except Stop Unit)} {table : List (Nat × Bool)} (h : List.Forall₂ Agrees checks table)
    (last : Except Stop Unit) :
    (∀ code, firstBroken table = some code → ∃ v, needAll (checks ++ [last]) = .error (limitStop code v)) ∧
      (firstBroken table = none → needAll (checks ++ [last]) = last) := by
  induction h with
  | nil =>
    refine ⟨fun code hc => absurd hc (by simp [firstBroken]), fun _ => ?_⟩
    cases last <;> rfl
  | @cons e x es xs hx _ ih =>
    obtain ⟨code, b⟩ := x
    cases b with
    | true =>
      obtain rfl : e = .ok () := hx
      rw [firstBroken_cons_true]
      exact ih
    | false =>
      obtain ⟨v, rfl⟩ : ∃ v, e = .error (limitStop code v) := hx
      rw [firstBroken_cons_false]
      refine ⟨fun code' hc => ?_, fun hc => by cases hc⟩
      cases hc
      exact ⟨v, rfl⟩

/-! ## Spoiled operands -/

section
variable {c : Core}

/-- The check for spoiled operands finds none of the spoiled groups consumed, or stops at the step of one that is. -/
theorem unspoilt_cases (c : Core) (used : BitVec 5 → Nat → Nat → Option Nat) :
    (unspoilt c used = .ok () ∧ ∀ v row eg, .reg v row eg ∈ c.poison → used v row eg = none) ∨
      ∃ st, unspoilt c used = .error (.deferred ⟨0x19, 0, 0, st⟩) ∧
        ∃ v row eg, .reg v row eg ∈ c.poison ∧ used v row eg = some st := by
  unfold unspoilt
  split
  · next hmin =>
    refine .inl ⟨rfl, fun v row eg hp => ?_⟩
    rw [List.min?_eq_none_iff, List.filterMap_eq_nil_iff] at hmin
    exact hmin _ hp
  · next st hmin =>
    refine .inr ⟨st, rfl, ?_⟩
    obtain ⟨p, hp, hst⟩ := List.mem_filterMap.mp (List.min?_mem hmin)
    cases p with
    | reg v row eg => exact ⟨v, row, eg, hp, hst⟩
    | _ => cases hst

/-- A word without elements consumes nothing. -/
theorem unspoilt_empty (h : c.vlen = 0) (rows w : Nat) (run : Nat → Nat → Bool) (reads : Nat → Nat → Reads) :
    unspoilt c (c.consumedAt rows run w reads) = .ok () := by
  have hnone : ∀ v row eg, c.consumedAt rows run w reads v row eg = none := by
    intro v row eg
    unfold Core.consumedAt
    rw [h, List.findSome?_eq_none_iff]
    exact fun _ _ => rfl
  rcases unspoilt_cases c (c.consumedAt rows run w reads) with ⟨hok, _⟩ | ⟨st, _, v, row, eg, _, hused⟩
  · exact hok
  · rw [hnone] at hused
    cases hused

/-- A spoiled element group that an element of the run consumes is a deferred fault. -/
theorem unspoilt_spoilt {rows w : Nat} {run : Nat → Nat → Bool} {reads : Nat → Nat → Reads} {r e b row : Nat}
    {v : BitVec 5} (hr : r < rows) (he : e < c.vlen) (hrun : run r e = true) (hread : (v, row, b) ∈ reads r e)
    (hp : .reg v row (b / 512) ∈ c.poison) :
    ∃ st, unspoilt c (c.consumedAt rows run w reads) = .error (.deferred ⟨0x19, 0, 0, st⟩) := by
  have hused : (c.consumedAt rows run w reads v row (b / 512)).isSome = true := by
    unfold Core.consumedAt
    rw [List.isSome_findSome?, List.any_eq_true]
    refine ⟨r, List.mem_range.mpr hr, ?_⟩
    rw [Option.isSome_map, List.isSome_find?, List.any_eq_true]
    refine ⟨e, List.mem_range.mpr he, ?_⟩
    rw [hrun, Bool.true_and, List.any_eq_true]
    exact ⟨_, hread, by simp⟩
  rcases unspoilt_cases c (c.consumedAt rows run w reads) with ⟨_, hnone⟩ | ⟨st, hst, _⟩
  · rw [hnone _ _ _ hp] at hused
    cases hused
  · exact ⟨st, hst⟩
end

end Sys2Proof.Machine

namespace Sys2Proof.Machine
/-! ## Retirement -/

/-- OWNER of `cmv` replaced (Table 2-8). -/
theorem setField_cmv_owner (x : Word) (k : Nat) :
    setField x 13 8 k = (x &&& ~~~0x3F00#64) ||| (BitVec.ofNat 64 (k * 256) &&& 0x3F00#64) := by
  have h : BitVec.ofNat 64 (k <<< 8) = BitVec.ofNat 64 (k * 256) := by rw [Nat.shiftLeft_eq]
  unfold setField
  rw [h]
  rfl

theorem wfield_cmv_owner (x : Word) : wfield x 13 8 = (x.extractLsb' 8 6).toNat := by simp [wfield, field]

/-- `cmv` when its owner retires: V and OWNER are cleared (R59). -/
theorem cmv_freed (x : Word) : setField (setBit x 0 false) 13 8 0 = x &&& ~~~0x3F01#64 := by
  have hbit : setBit x 0 false = x &&& ~~~1#64 := by
    unfold setBit setField
    simp
  rw [setField_cmv_owner, hbit, BitVec.and_assoc]
  simp

/-- `cmv` when another word retires: OWNER counts one less. -/
theorem cmv_counted (x : Word) :
    setField x 13 8 (wfield x 13 8 - 1) = (x &&& ~~~0x3F00#64) ||| BitVec.ofNat 64 (((x.extractLsb' 8 6).toNat - 1) * 256) := by
  have hall : ∀ p : Fin 64, BitVec.ofNat 64 ((p.val - 1) * 256) &&& 0x3F00#64 = BitVec.ofNat 64 ((p.val - 1) * 256) := by
    decide
  rw [setField_cmv_owner, wfield_cmv_owner]
  exact congrArg (x &&& ~~~0x3F00#64 ||| ·) (hall (x.extractLsb' 8 6).toFin)

theorem cmv_retire (x : Word) (pos : Nat) :
    (if x.getLsbD 0 && wfield x 13 8 == pos then setField (setBit x 0 false) 13 8 0
      else if x.getLsbD 0 then setField x 13 8 (wfield x 13 8 - 1) else x) = cmvAfter x pos := by
  unfold cmvAfter
  rw [cmv_freed, cmv_counted, wfield_cmv_owner]
  cases x.getLsbD 0 <;> simp

/-- The running word retires: what R26, R46, R59 and R263 say. -/
theorem Core.retire_run (c : Core) : c.clearSteps.retire c.run =
    { c.dropEntry c.run.rank with
      lgs := .replicate 4 0
      cmv := if c.cntLive then cmvAfter c.cmv c.ownPos else c.cmv
      region := c.region.map fun r => r.after c.run } := by
  have hcmv : (if c.cmNow && wfield c.cmv 13 8 == c.ownPos then setField (setBit c.cmv 0 false) 13 8 0
      else if c.cmNow then setField c.cmv 13 8 (wfield c.cmv 13 8 - 1) else c.cmv) =
        if c.cntLive then cmvAfter c.cmv c.ownPos else c.cmv := by
    unfold Core.cmNow
    cases c.cntLive
    · rfl
    · simpa using cmv_retire c.cmv c.ownPos
  have hown : c.clearSteps.retire c.run = ({ c.dropEntry c.run.rank with
      lgs := .replicate 4 0
      cmv := if c.cmNow && wfield c.cmv 13 8 == c.ownPos then setField (setBit c.cmv 0 false) 13 8 0
        else if c.cmNow then setField c.cmv 13 8 (wfield c.cmv 13 8 - 1) else c.cmv } : Core).keepInRegion c.run := by
    have hclear : c.clearSteps.cmNow = c.cmNow := rfl
    have hpos : (c.clearSteps.vec.takeWhile fun x => x.rank ≠ c.run.rank).length = c.ownPos := rfl
    have hword : wfield c.clearSteps.cmv 13 8 = wfield c.cmv 13 8 := rfl
    unfold Core.retire
    dsimp only
    rw [hclear, hword, hpos]
    cases c.cmNow && wfield c.cmv 13 8 == c.ownPos
    · cases c.cmNow <;> rfl
    · rfl
  rw [hown, hcmv]
  unfold Core.keepInRegion
  split
  · next hr =>
    have hr : c.region = none := hr
    rw [hr]
    exact congrArg (fun x => { c.dropEntry c.run.rank with
      lgs := .replicate 4 0, cmv := if c.cntLive then cmvAfter c.cmv c.ownPos else c.cmv, region := x }) hr
  · next r hr =>
    have hr : c.region = some r := hr
    rw [hr]
    rfl

/-- With SSM = 2 in U mode the end of a word makes a step stop due (R407). -/
theorem Core.wordDone_eq (c : Core) (prov : Word) : c.wordDone prov =
    { c with stepDue := if c.t.tdbg.extractLsb' 0 2 = 2 ∧ c.hstat.getLsbD 0 = false then some prov else c.stepDue } := by
  have hssm : wfield c.t.tdbg 1 0 = 2 ∧ c.kmode = false ↔
      c.t.tdbg.extractLsb' 0 2 = 2 ∧ c.hstat.getLsbD 0 = false := by
    rw [← BitVec.toNat_inj]
    simp [wfield, field, Core.kmode]
  unfold Core.wordDone
  by_cases h : wfield c.t.tdbg 1 0 = 2 ∧ c.kmode = false
  · rw [if_pos h, if_pos (hssm.mp h)]
  · rw [if_neg h, if_neg (mt hssm.mpr h)]

theorem Core.dropEntry_eq (c : Core) (r : Nat) : c.dropEntry r =
    { c with vec := c.vec.filter fun e => e.rank != r, mat := c.mat.filter fun e => e.rank != r
             cpy := c.cpy.filter fun e => e.rank != r, col := c.col.filter fun e => e.rank != r } := by
  have hkeep : (fun e : QEntry => decide (e.rank ≠ r)) = fun e => e.rank != r := by
    funext e
    by_cases h : e.rank = r <;> simp [h]
  unfold Core.dropEntry
  rw [hkeep]

/-- A whole word that has written nothing in memory retires as R26 and R46 say. -/
theorem State.finishVec_eq_retired {s : State} (h : s.core.wrote = []) : s.finishVec = s.retired := by
  have hdone : (s.withCore fun c => (c.clearSteps.retire c.run).wordDone c.run.prov) = s.retired := by
    unfold State.withCore
    dsimp only
    rw [Core.retire_run, Core.wordDone_eq, Core.dropEntry_eq]
    rfl
  have hclean : s.retired.core.wrote.isEmpty = true := by
    show s.core.wrote.isEmpty = true
    rw [h]
    rfl
  unfold State.finishVec
  rw [hdone]
  exact if_pos hclean

end Sys2Proof.Machine

namespace Sys2Proof.Machine
/-! ## What a compute word may change -/

/-- `d` is `c` but for these vector registers and what does not belong to the queue. -/
structure Core.Only (regs : List Nat) (c d : Core) : Prop where
  vec : d.vec = c.vec
  others : ∀ r : BitVec 5, r.toNat ∉ regs → d.v[r.toNat] = c.v[r.toNat]

section
variable {regs : List Nat} {c d e : Core}

theorem Core.Only.refl (regs : List Nat) (c : Core) : Core.Only regs c c := ⟨rfl, fun _ _ => rfl⟩

theorem Core.Only.trans (h : Core.Only regs c d) (h' : Core.Only regs d e) : Core.Only regs c e :=
  ⟨h'.vec.trans h.vec, fun r hr => (h'.others r hr).trans (h.others r hr)⟩

/-- A sweep over one of the registers. -/
theorem Core.Only.putWhere (h : Core.Only regs c d) {vd : BitVec 5} (hvd : vd.toNat ∈ regs) (rows n w : Nat)
    (on : Nat → Nat → Bool) (f : Nat → Nat → Nat) : Core.Only regs c (d.putWhere rows n w on vd f) := by
  refine h.trans ⟨?_, fun r hr => ?_⟩
  · rw [Core.putWhere_frame]
  · exact d.putWhere_other rows n w on vd r f fun hrv => hr (hrv ▸ hvd)

theorem Core.Only.freshGroups (h : Core.Only regs c d) (w : Nat) (on : Nat → Nat → Bool) (vd : BitVec 5) :
    Core.Only regs c (d.freshGroups w on vd) := by
  unfold Core.freshGroups
  exact ite_keeps (P := Core.Only regs c) h ⟨h.vec, h.others⟩

theorem Core.Only.putElems (h : Core.Only regs c d) {vd : BitVec 5} (hvd : vd.toNat ∈ regs) (gran : Gran) (m : Bool)
    (sw w : Nat) (f : Nat → Nat → Nat) : Core.Only regs c (d.putElems gran m sw w vd f) :=
  (h.putWhere hvd ..).freshGroups ..

theorem Core.Only.putBits (h : Core.Only regs c d) {vd : BitVec 5} (hvd : vd.toNat ∈ regs) (gran : Gran) (m : Bool)
    (sw : Nat) (f : Nat → Nat → Bool) : Core.Only regs c (d.putBits gran m sw vd f) := h.putWhere hvd ..

/-- The overflow mask of a conversion. -/
theorem Core.Only.orBits (h : Core.Only regs c d) {ove : Option (BitVec 5)} (hove : ∀ v, ove = some v → v.toNat ∈ regs)
    (rows n : Nat) (f : Nat → Nat → Bool) : Core.Only regs c (d.orBits ove rows n f) := by
  cases ove with
  | none => exact h
  | some v => exact h.putWhere (hove v rfl) ..

theorem Core.Only.claim (h : Core.Only regs c d) : Core.Only regs c d.claim :=
  ite_keeps (P := Core.Only regs c) h ⟨h.vec, h.others⟩

theorem Core.Only.endsAt (h : Core.Only regs c d) (g : Gran) (hi : Vector Nat 4) : Core.Only regs c (d.endsAt g hi) :=
  ite_keeps (P := Core.Only regs c) h ⟨h.claim.vec, h.claim.others⟩

theorem Core.Only.keepStreams (h : Core.Only regs c d) (e : Core) : Core.Only regs c (e.keepStreams d) :=
  ⟨h.vec, h.others⟩

/-- How the state of a stop is written down from that of the part that has retired. -/
theorem Core.Only.stopped (h : Core.Only regs c d) (g : Gran) (hi hi' : Vector Nat 4) (m : RunMode) :
    Core.Only regs c (c.keepStreams (({ d with hi := hi, mode := m } : Core).endsAt g hi')) :=
  Core.Only.keepStreams (Core.Only.endsAt (d := { d with hi := hi, mode := m }) ⟨h.vec, h.others⟩ g hi') c
end

section
variable {regs : List Nat} {s t : State} {lim : Core → Except Stop Unit} {f : Core → Core}

/-- What a compute word does once its limits hold. -/
def computeBody (f : Core → Core) (s : State) : Except Stop State :=
  if s.core.mode = .check then .ok s else .ok { s with core := f s.core }

theorem computeWord_eq (gran : Gran) (lim : Core → Except Stop Unit) (f : Core → Core) (s : State) :
    computeWord gran lim f s = memWord gran true false lim (computeBody f) (fun _ => []) s := rfl

/-- The part of a compute word that a stop lets retire changes the registers that the word writes, and nothing of the device. -/
theorem runTo_only (hf : ∀ c, Core.Only regs c (f c)) {hi : Vector Nat 4}
    (h : runTo (withinLimits lim (computeBody f)) s hi = some t) : t.dev = s.dev ∧ Core.Only regs s.core t.core := by
  unfold runTo at h
  split at h
  · next u hu =>
    cases h
    unfold withinLimits at hu
    split at hu
    · cases hu
    · cases hu
      exact ⟨rfl, (hf _).vec, (hf _).others⟩
  · cases h

theorem partial_only (hf : ∀ c, Core.Only regs c (f c)) (gran : Gran) (st : Nat) :
    (partial_ gran false (withinLimits lim (computeBody f)) s st).dev = s.dev ∧
      Core.Only regs s.core (partial_ gran false (withinLimits lim (computeBody f)) s st).core := by
  unfold partial_
  extract_lets g h s₁ done
  split
  · next t ht =>
    obtain ⟨hdev, hcore⟩ := runTo_only hf ht
    exact ⟨hdev, hcore.stopped ..⟩
  · split
    · next t ht =>
      obtain ⟨hdev, hcore⟩ := runTo_only hf ht
      exact ⟨hdev, hcore.stopped ..⟩
    · exact ⟨rfl, Core.Only.refl _ _⟩
end

/-! ## A compute word and its tables -/

/-- What the tables say of a compute word, and the model of it: the limits of `lim` are those of the table, and what comes
after them is the check `last` for spoiled operands; `f` writes the registers of `l`. -/
structure Tabled (lim : Core → Except Stop Unit) (f : Core → Core) (limits : Core → List (Nat × Bool))
    (last : Core → Except Stop Unit) (l : List VWrite) : Prop where
  broken : ∀ c code, firstBroken (limits c) = some code → ∃ v, lim c = .error (limitStop code v)
  kept : ∀ c, firstBroken (limits c) = none → lim c = last c
  empty : ∀ c, c.mode = .whole → c.vlen = 0 → last c = .ok ()
  only : ∀ c, Core.Only (l.map VWrite.reg) c (f c)

/-- A whole word that `last` examines is stopped by a spoiled operand that it consumes. -/
def Watches (c : Core) (last : Core → Except Stop Unit) (limits : Core → List (Nat × Bool)) (takes : Option Consumes) : Prop :=
  firstBroken (limits c) = none → c.mode = .whole → c.run.rc.toNat ≤ 16 → (∀ g, g < 4 → 512 ≤ c.hi.getD g 0 ∧ countNow c g = 0) →
    ∀ k v row eg, takes = some k → k.takes c v row eg → .reg v row eg ∈ c.poison →
      ∃ st, last c = .error (.deferred ⟨0x19, 0, 0, st⟩)

section
variable {s : State} {gran : Gran} {lim last : Core → Except Stop Unit} {f : Core → Core}
  {limits : Core → List (Nat × Bool)} {takes : Option Consumes} {l : List VWrite}

theorem firstUseOk_some {c : Core} {cause : BitVec 8} (h : firstUse c.run = some cause) :
    firstUseOk c = .error (.stop ⟨cause, 0, 0, 0⟩) := by
  unfold firstUseOk
  rw [h]

theorem firstUseOk_none {c : Core} (h : firstUse c.run = none) : firstUseOk c = .ok () := by
  unfold firstUseOk
  rw [h]

/-- The limits of a region on a word that it may hold (R263). -/
theorem regionOk_bounds {c : Core} {r : Region} (hr : c.region = some r)
    (h : 48 ≤ r.words + c.ownPos ∨ c.run.vl ≠ r.vl ∨ c.run.rc ≠ r.rc) : regionOk c true = .error (limitStop 9 0) := by
  unfold regionOk
  rw [hr]
  refine if_neg ?_
  simp only [Bool.true_and, Bool.and_eq_true, decide_eq_true_eq, beq_iff_eq, Config.regionWords]
  rintro ⟨⟨hw, hvl⟩, hrc⟩
  rcases h with h | h | h
  · omega
  · exact h hvl
  · exact h hrc

theorem regionOk_within {c : Core}
    (h : ∀ r, c.region = some r → r.words + c.ownPos < 48 ∧ c.run.vl = r.vl ∧ c.run.rc = r.rc) : regionOk c true = .ok () := by
  unfold regionOk
  split
  · rfl
  · next r hr =>
    obtain ⟨hw, hvl, hrc⟩ := h r hr
    refine if_pos ?_
    simp [Config.regionWords, hw, hvl, hrc]

/-- A broken limit takes the trap in the state that the word found (R366). -/
theorem refuseWord_limit (hm : s.core.mode = .whole) (code v : Nat) : limited s code (refuseWord s (limitStop code v)) := by
  refine ⟨v % 2 ^ 32, ?_⟩
  unfold limitStop
  rw [refuseWord_stop s _ hm, Nat.shiftLeft_eq]

theorem computeWord_firstUse (hm : s.core.mode = .whole) {cause : BitVec 8} (h : firstUse s.core.run = some cause) :
    computeWord gran lim f s = .next (takeTrap s ⟨.word s.core.run.rank, cause, 0, 0⟩) := by
  rw [computeWord_eq, memWord]
  simp only [firstUseOk_some h]
  exact refuseWord_stop s _ hm

theorem computeWord_outside (hm : s.core.mode = .whole) (hu : firstUse s.core.run = none) {r : Region}
    (hr : s.core.region = some r) (h : 48 ≤ r.words + s.core.ownPos ∨ s.core.run.vl ≠ r.vl ∨ s.core.run.rc ≠ r.rc) :
    limited s 9 (computeWord gran lim f s) := by
  rw [computeWord_eq, memWord]
  simp only [firstUseOk_none hu, regionOk_bounds hr h]
  exact refuseWord_limit hm 9 0

/-- The core by which a word's limits are held: in an annulled region `vl` is 0 (R268). -/
def Core.measured (c : Core) : Core := if c.annulled then { c with run := { c.run with vl := 0 } } else c

theorem computeWord_limit (hm : s.core.mode = .whole) (hu : firstUse s.core.run = none) (hr : regionOk s.core true = .ok ())
    {code v : Nat} (h : lim s.core.measured = .error (limitStop code v)) : limited s code (computeWord gran lim f s) := by
  rw [computeWord_eq, memWord]
  unfold Core.measured at h
  simp only [firstUseOk_none hu, hr, h]
  exact refuseWord_limit hm code v

/-- In an annulled region the word has no effect and retires (R268). -/
theorem computeWord_annulled (hm : s.core.mode = .whole) (hu : firstUse s.core.run = none) (hr : regionOk s.core true = .ok ())
    (ha : s.core.annulled = true) (h : lim s.core.measured = .ok ()) (hw : s.core.wrote = []) :
    computeWord gran lim f s = .next s.retired := by
  have hend : endVec s = .next s.finishVec := if_neg (not_not_intro hm)
  rw [computeWord_eq, memWord]
  unfold Core.measured at h
  simp only [firstUseOk_none hu, hr, h]
  rw [if_pos ha, hend, State.finishVec_eq_retired hw]

/-- A spoiled operand stops the word where the steps before it may have retired (R419). -/
theorem computeWord_spoilt (hm : s.core.mode = .whole) (hu : firstUse s.core.run = none) (hr : s.core.region = none)
    {st : Nat} (h : lim s.core = .error (.deferred ⟨0x19, 0, 0, st⟩)) :
    computeWord gran lim f s =
      .next (takeTrap (partial_ gran false (withinLimits lim (computeBody f)) s st) ⟨.deferred s.core.run.rank, 0x19, 0, 0⟩) := by
  have hok : regionOk s.core true = .ok () := regionOk_within fun r hr' => by rw [hr] at hr'; cases hr'
  have ha : s.core.annulled = false := by unfold Core.annulled; rw [hr]; rfl
  rw [computeWord_eq, memWord]
  simp only [firstUseOk_none hu, hok, ha, Bool.false_eq_true, if_false, h]
  exact if_neg (not_not_intro hm)

/-- Where a compute word traps, and what it does in an annulled region, in the words of R39, R263, R268, R378 and R419. -/
def Traps (s : State) (r : Result) (limits : Core → List (Nat × Bool)) (takes : Option Consumes) (l : List VWrite) : Prop :=
  (∀ cause, firstUse s.core.run = some cause → r = .next (takeTrap s ⟨.word s.core.run.rank, cause, 0, 0⟩)) ∧
    (firstUse s.core.run = none → ∀ x, s.core.region = some x →
      (48 ≤ x.words + s.core.ownPos ∨ s.core.run.vl ≠ x.vl ∨ s.core.run.rc ≠ x.rc) → limited s 9 r) ∧
    (Ready s true → ∀ k, firstBroken (limits s.core) = some k → limited s k r) ∧
    (firstUse s.core.run = none → s.core.region = none → firstBroken (limits s.core) = none → s.core.run.rc.toNat ≤ 16 →
      (∀ g, g < 4 → 512 ≤ s.core.hi.getD g 0 ∧ countNow s.core g = 0) → ∀ k v row eg, takes = some k →
      k.takes s.core v row eg → .reg v row eg ∈ s.core.poison →
      ∃ u, r = .next (takeTrap u ⟨.deferred s.core.run.rank, 0x19, 0, 0⟩) ∧ u.dev = s.dev ∧
        u.core.vec = s.core.vec ∧ ∀ r : BitVec 5, (∀ x ∈ l, r.toNat ≠ x.reg) → u.core.v[r.toNat] = s.core.v[r.toNat]) ∧
    ∀ x, s.core.region = some x → x.annulled = true → firstUse s.core.run = none → x.words + s.core.ownPos < 48 →
      s.core.run.vl = x.vl → s.core.run.rc = x.rc → let none_ := { s.core with run := { s.core.run with vl := 0 } }
      (∀ k, firstBroken (limits none_) = some k → limited s k r) ∧
      (firstBroken (limits none_) = none → s.core.wrote = [] → r = .next s.retired)

/-- A compute word that the tables describe traps as they say. -/
theorem computeWord_traps (htab : Tabled lim f limits last l) (hwatch : Watches s.core last limits takes)
    (hm : s.core.mode = .whole) : Traps s (computeWord gran lim f s) limits takes l := by
  refine ⟨fun cause h => computeWord_firstUse hm h, fun hu x hr h => computeWord_outside hm hu hr h, ?ready, ?spoilt, ?annulled⟩
  case ready =>
    intro hready k hk
    have ha : s.core.annulled = false := by
      unfold Core.annulled
      cases hr : s.core.region with
      | none => rfl
      | some x => exact (hready.region x hr).2.1
    have hok : regionOk s.core true = .ok () := regionOk_within fun x hr => by
      obtain ⟨_, _, hw, hvl, hrc⟩ := hready.region x hr
      exact ⟨hw, hvl, hrc⟩
    have hself : s.core.measured = s.core := if_neg (by simp [ha])
    obtain ⟨v, hv⟩ := htab.broken s.core k hk
    exact computeWord_limit hm hready.used hok (by rw [hself]; exact hv)
  case spoilt =>
    intro hu hr hlim hrc hends k v row eg hk htakes hp
    obtain ⟨st, hst⟩ := hwatch hlim hm hrc hends k v row eg hk htakes hp
    obtain ⟨hdev, honly⟩ := partial_only (lim := lim) (s := s) htab.only gran st
    refine ⟨_, computeWord_spoilt hm hu hr ((htab.kept s.core hlim).trans hst), hdev, honly.vec, fun r hreg => ?_⟩
    refine honly.others r fun hmem => ?_
    obtain ⟨x, hx, hxr⟩ := List.mem_map.mp hmem
    exact hreg x hx hxr.symm
  case annulled =>
    intro x hr ha hu hw hvl hrc none_
    have hann : s.core.annulled = true := by unfold Core.annulled; rw [hr]; exact ha
    have hok : regionOk s.core true = .ok () := regionOk_within fun y hy => by
      rw [hr] at hy
      cases hy
      exact ⟨hw, hvl, hrc⟩
    have hnone : s.core.measured = none_ := if_pos hann
    refine ⟨fun k hk => ?_, fun hk hwrote => ?_⟩
    · obtain ⟨v, hv⟩ := htab.broken none_ k hk
      exact computeWord_limit hm hu hok (by rw [hnone]; exact hv)
    · refine computeWord_annulled hm hu hok hann ?_ hwrote
      rw [hnone, htab.kept none_ hk]
      exact htab.empty none_ hm rfl

end

end Sys2Proof.Machine

namespace Sys2Proof.Machine

/-! ## Operands that elements consume -/

section
variable {c : Core}

/-- The mask bit of the model is that of the tables (R139). -/
theorem maskNow_eq_maskAt (c : Core) (row e : Nat) : c.maskNow row e = maskAt c row e := by
  unfold Core.maskNow maskAt
  cases c.maskRead <;> rfl

theorem active_eq_activeAt (c : Core) (m : Bool) (row e : Nat) : c.active m row e = activeAt c m row e := by
  unfold Core.active activeAt
  rw [maskNow_eq_maskAt]

theorem elem_eq_elemAt (c : Core) (v : BitVec 5) (w row e : Nat) : c.elem v w row e = elemAt c v w row e :=
  (BitVec.extractLsb'_toNat ..).symm

/-- A whole run performs every step of a word. -/
theorem inRun_whole {gran : Gran} (hg : gran ≠ .mask) (hends : ∀ g, g < 4 → 512 ≤ c.hi.getD g 0 ∧ countNow c g = 0)
    {w row e : Nat} (h : stepOf w row e < 512) : c.inRun gran w row e = true := by
  have hlg : laneGroup w e < 4 := by unfold laneGroup; omega
  obtain ⟨hhi, hnow⟩ := hends _ hlg
  have hnow : c.lgNow (laneGroup w e) = 0 := hnow
  have hmask : ¬(decide (gran = .mask) && c.ownsCM) = true := by simp [hg]
  unfold Core.inRun
  dsimp only
  rw [if_neg hmask, hnow, Bool.and_eq_true, decide_eq_true_eq, decide_eq_true_eq]
  exact ⟨by omega, Nat.zero_le _⟩

/-- The steps of a row that holds its elements. -/
theorem stepOf_lt {w row e n : Nat} (hrow : row < 16) (he : e < n) (hn : n * w ≤ 16384) (hw : 0 < w) :
    stepOf w row e < 512 := by
  have : e * w < 16384 := Nat.lt_of_lt_of_le (Nat.mul_lt_mul_of_pos_right he hw) hn
  unfold stepOf
  omega

theorem soundOver_empty {rows : Nat} {at_ : Nat → Nat} {run : Nat → Nat → Bool} {m : Bool} {w : Nat} {reads : Nat → Nat → Reads}
    (h : c.vlen = 0) : soundOver c rows at_ run m w reads = .ok () :=
  ite_keeps (P := fun x : Except Stop Unit => x = .ok ()) rfl (unspoilt_empty h ..)

/-- What an element of a run consumes: its mask bit, and what an active one reads. -/
def consumedBy (c : Core) (m : Bool) (at_ : Nat → Nat) (reads : Nat → Nat → Reads) (r e : Nat) : Reads :=
  (if m then [(0, at_ r, e)] else []) ++ (if c.active m (at_ r) e then reads r e else [])

/-- A spoiled group that the tables say is taken stops the run, if the model's elements read what those of the tables do. -/
theorem unspoilt_takes {k : Consumes} {w n : Nat} {gran : Gran} {reads : Nat → Nat → Reads} {v : BitVec 5} {row eg : Nat}
    (hg : gran ≠ .mask) (hends : ∀ g, g < 4 → 512 ≤ c.hi.getD g 0 ∧ countNow c g = 0) (hrows : k.rows ≤ 16)
    (hlen : c.run.vl.toNat ≤ n) (hn : n * w ≤ 16384) (hw : 0 < w) (hreads : ∀ r e, k.reads r e ⊆ reads r e)
    (htakes : k.takes c v row eg) (hp : .reg v row eg ∈ c.poison) :
    ∃ st, unspoilt c (c.consumedAt k.rows (c.inRun gran w) w (consumedBy c k.m k.maskRow reads)) =
      .error (.deferred ⟨0x19, 0, 0, st⟩) := by
  obtain ⟨r, e, hr, he, htake⟩ := htakes
  have hrun : c.inRun gran w r e = true :=
    inRun_whole hg hends (stepOf_lt (Nat.lt_of_lt_of_le hr hrows) (Nat.lt_of_lt_of_le he hlen) hn hw)
  rcases htake with ⟨hm, rfl, rfl, rfl⟩ | ⟨hact, b, hb, rfl⟩
  · refine unspoilt_spoilt (b := e) hr he hrun (List.mem_append_left _ ?_) hp
    rw [if_pos hm]
    exact List.mem_singleton.mpr rfl
  · refine unspoilt_spoilt hr he hrun (List.mem_append_right _ ?_) hp
    rw [active_eq_activeAt, if_pos hact]
    exact hreads r e hb
end

section
variable {s : State} {gran gran' : Gran} {lim : Core → Except Stop Unit} {f : Core → Core}
  {limits : Core → List (Nat × Bool)} {l : List VWrite} {checks : Core → List (Except Stop Unit)} {w : Core → Nat} {n : Nat}

/-- A word whose checks are those of a table, and which then examines its operands. -/
theorem tabled_of_checks {last : Core → Except Stop Unit} (hlim : ∀ c, lim c = needAll (checks c ++ [last c]))
    (hagree : ∀ c, List.Forall₂ Agrees (checks c) (limits c)) (hempty : ∀ c, c.mode = .whole → c.vlen = 0 → last c = .ok ())
    (honly : ∀ c, Core.Only (l.map VWrite.reg) c (f c)) : Tabled lim f limits last l where
  broken c code h := by rw [hlim]; exact (needAll_agrees (hagree c) (last c)).1 code h
  kept c h := by rw [hlim]; exact (needAll_agrees (hagree c) (last c)).2 h
  empty := hempty
  only := honly

/-- The same, for a word that examines the operands of the elements that it performs in `rows` rows. -/
theorem over_traps (hm : s.core.mode = .whole) {rows : Core → Nat} {at_ : Nat → Nat} {m : Bool} {reads : Core → Nat → Nat → Reads}
    {treads : Nat → Nat → List RegBit}
    (hlim : ∀ c, lim c = needAll (checks c ++ [soundOver c (rows c) at_ (c.inRun gran (w c)) m (w c) (reads c)]))
    (hagree : ∀ c, List.Forall₂ Agrees (checks c) (limits c)) (hg : gran ≠ .mask)
    (hrows : s.core.run.rc.toNat ≤ 16 → rows s.core ≤ 16) (hlen : (2, decide (s.core.run.vl.toNat ≤ n)) ∈ limits s.core)
    (hn : n * w s.core ≤ 16384) (hw : 0 < w s.core) (hreads : ∀ r e, treads r e ⊆ reads s.core r e)
    (honly : ∀ c, Core.Only (l.map VWrite.reg) c (f c)) :
    Traps s (computeWord gran' lim f s) limits (some ⟨m, rows s.core, at_, treads⟩) l := by
  refine computeWord_traps (tabled_of_checks hlim hagree (fun c _ h => soundOver_empty h) honly) ?_ hm
  intro hbroken hmode hrc hends k v row eg hk htakes hp
  cases hk
  have hfits : s.core.run.vl.toNat ≤ n := of_decide_eq_true (holds_of_firstBroken hbroken hlen)
  have hspoilt : ¬(s.core.poison.isEmpty || s.core.mode == .check) = true := by
    rw [hmode]
    cases hpo : s.core.poison with
    | nil => rw [hpo] at hp; cases hp
    | cons p ps => exact Bool.false_ne_true
  obtain ⟨st, hst⟩ := unspoilt_takes hg hends (hrows hrc) hfits hn hw hreads htakes hp
  exact ⟨st, (if_neg hspoilt).trans hst⟩

/-- The same, for a word whose elements have their own mask bits. -/
theorem sound_traps (hm : s.core.mode = .whole) {m : Bool} {reads : Core → Nat → Nat → Reads} {treads : Nat → Nat → List RegBit}
    (hlim : ∀ c, lim c = needAll (checks c ++ [sound c gran m (w c) (reads c)]))
    (hagree : ∀ c, List.Forall₂ Agrees (checks c) (limits c)) (hg : gran ≠ .mask)
    (hlen : (2, decide (s.core.run.vl.toNat ≤ n)) ∈ limits s.core) (hn : n * w s.core ≤ 16384) (hw : 0 < w s.core)
    (hreads : ∀ r e, treads r e ⊆ reads s.core r e) (honly : ∀ c, Core.Only (l.map VWrite.reg) c (f c)) :
    Traps s (computeWord gran' lim f s) limits (some (plainly s.core m treads)) l :=
  over_traps hm (rows := Core.rows) hlim hagree hg id hlen hn hw hreads honly
end

end Sys2Proof.Machine

namespace Sys2Proof.Machine

/-! ## The model's checks and the lines of the tables -/

theorem isInt_eq_typeIn (et : EType) : et.isInt = typeIn 0 et := by cases et <;> rfl
theorem arithFloat_eq_typeIn (et : EType) : arithFloat et = typeIn 1 et := by cases et <;> rfl
theorem isF32_eq_typeIn (et : EType) : (et == .f32) = typeIn 2 et := by cases et <;> rfl
theorem anyType_eq_typeIn (et : EType) : anyType et = typeIn 3 et := by cases et <;> rfl
theorem scanType_eq_typeIn (et : EType) : scanType et = typeIn 4 et := by cases et <;> rfl
theorem isSl_eq_typeIn (et : EType) : (et == .sl) = typeIn 5 et := by cases et <;> rfl

theorem EType.width_pos (et : EType) : 0 < et.width := by cases et <;> decide

/-- The elements of a row fill it at most (R11). -/
theorem rowMax_mul_width (et : EType) : 16384 / et.width * et.width ≤ 16384 := Nat.div_mul_le_self ..

theorem agrees_imm (et : EType) (b : Src) : Agrees (needImm et b) (7, immFits et b) := by
  cases b with
  | vi i => exact Agrees.need rfl
  | _ => exact Agrees.ok

/-! ### Registers that are written and read (code 6) -/

/-- The numbers of the registers of a set. -/
def RegSet.nums (r : RegSet) : List Nat := (List.range r.size).map fun j => r.base + j

/-- Every set names a register. -/
def Named (l : List RegSet) : Prop := ∀ r ∈ l, 0 < r.size

@[simp] theorem named_nil : Named [] := List.forall_mem_nil _
@[simp] theorem named_cons {r : RegSet} {l : List RegSet} : Named (r :: l) ↔ 0 < r.size ∧ Named l := List.forall_mem_cons
@[simp] theorem named_append {l l' : List RegSet} : Named (l ++ l') ↔ Named l ∧ Named l' := List.forall_mem_append
@[simp] theorem named_maskSet (m : Bool) : Named (maskSet m) := by cases m <;> simp [maskSet, regSet]
@[simp] theorem named_srcSets (b : Src) : Named (srcSets b) := by cases b <;> simp [srcSets, regSet]
@[simp] theorem named_oveSet (ove : Option (BitVec 5)) : Named (oveSet ove) := by cases ove <;> simp [oveSet, regSet]
@[simp] theorem size_regSet (v : BitVec 5) (n : Nat) : (regSet v n).size = n := rfl

@[simp] theorem nums_regSet (v : BitVec 5) (n : Nat) : (regSet v n).nums = groupOf v n := rfl
@[simp] theorem groupOf_one (v : BitVec 5) : groupOf v 1 = [v.toNat] := rfl
@[simp] theorem nums_maskSet (m : Bool) : (maskSet m).flatMap RegSet.nums = maskOf m := by cases m <;> rfl
@[simp] theorem nums_srcSets (b : Src) : (srcSets b).flatMap RegSet.nums = (srcRegs b).map BitVec.toNat := by cases b <;> rfl

/-- Two sets share a register if and only if they overlap. -/
theorem RegSet.meets_iff {a b : RegSet} (ha : 0 < a.size) (hb : 0 < b.size) :
    a.meets b = true ↔ ∃ x, x ∈ a.nums ∧ x ∈ b.nums := by
  simp only [RegSet.meets, RegSet.nums, decide_eq_true_eq, List.mem_map, List.mem_range]
  constructor
  · rintro ⟨h1, h2⟩
    refine ⟨max a.base b.base, ⟨max a.base b.base - a.base, ?_, ?_⟩, max a.base b.base - b.base, ?_, ?_⟩ <;> omega
  · rintro ⟨_, ⟨i, hi, rfl⟩, j, hj, hij⟩
    omega

/-- Sets that do not meet have no register in common. -/
theorem meets_eq_apart {wr rd : List RegSet} (hw : Named wr) (hr : Named rd) :
    (wr.all fun a => rd.all fun b => !a.meets b) = apart (wr.flatMap RegSet.nums) (rd.flatMap RegSet.nums) := by
  rw [Bool.eq_iff_iff]
  simp only [apart, List.all_eq_true, Bool.not_eq_true', List.contains_eq_mem, decide_eq_false_iff_not, List.mem_flatMap]
  constructor
  · rintro h x ⟨a, ha, hxa⟩ ⟨b, hb, hxb⟩
    have := (RegSet.meets_iff (hw a ha) (hr b hb)).mpr ⟨x, hxa, hxb⟩
    rw [h a ha b hb] at this
    cases this
  · intro h a ha b hb
    rw [← Bool.not_eq_true, RegSet.meets_iff (hw a ha) (hr b hb)]
    rintro ⟨x, hxa, hxb⟩
    exact h x ⟨a, ha, hxa⟩ ⟨b, hb, hxb⟩

theorem agrees_apart {wr rd : List RegSet} {b : Bool} (hw : Named wr) (hr : Named rd)
    (hb : apart (wr.flatMap RegSet.nums) (rd.flatMap RegSet.nums) = b) : Agrees (needApart wr rd) (6, b) :=
  Agrees.need ((meets_eq_apart hw hr).trans hb)

/-- A register that is not among those of a list. -/
theorem apart_singleton (v : BitVec 5) (l : List (BitVec 5)) : apart [v.toNat] (l.map BitVec.toNat) = !l.contains v := by
  simp [apart, List.contains_eq_mem, BitVec.toNat_inj]

/-! ## Element-wise words -/

section
variable {s : State} {x : VWrite} {k : Nat}

/-- A word that writes elements of vd. -/
theorem only_elems {c : Core} {vd : BitVec 5} (hx : x.reg = vd.toNat) (gran : Gran) (m : Bool) (sw w : Nat)
    (f : Nat → Nat → Nat) : Core.Only ([x].map VWrite.reg) c (c.putElems gran m sw w vd f) :=
  (Core.Only.refl _ c).putElems (by simp [hx]) ..

theorem elementwise_traps (hm : s.core.mode = .whole) {o : Arith} {ok : EType → Bool} {more : List (BitVec 5)}
    {f : Core → Nat → Nat → Nat → Nat → Nat} (hok : ∀ et, ok et = typeIn k et) (hx : x.reg = o.vd.toNat) :
    Traps s (elementwise o ok more f s) (fun c => [(1, typeIn k o.et), (2, lenFits c o.et), (7, immFits o.et o.src)])
      (some (plainly s.core o.m (sameElem (o.va :: srcRegs o.src ++ more) o.et.width))) [x] := by
  refine sound_traps hm (gran := .step) (w := fun _ => o.et.width) (n := 16384 / o.et.width)
    (checks := fun c => [needEt ok o.et, needVl c (rowMax o.et), needImm o.et o.src])
    (fun c => rfl) (fun c => ?_) (by decide) ?_ (rowMax_mul_width _) (EType.width_pos _) (fun r e => ?_)
    (fun c => only_elems hx ..)
  · exact .cons (Agrees.need (hok _)) (.cons (Agrees.need rfl) (.cons (agrees_imm _ _) .nil))
  · exact .tail _ (.head _)
  · exact List.Subset.refl _

theorem unaryWord_traps (hm : s.core.mode = .whole) {o : Arith} {ok : EType → Bool} {f : Nat → Nat}
    (hok : ∀ et, ok et = typeIn k et) (hx : x.reg = o.vd.toNat) :
    Traps s (unaryWord o ok f s) (fun c => [(1, typeIn k o.et), (2, lenFits c o.et)])
      (some (plainly s.core o.m (sameElem [o.va] o.et.width))) [x] := by
  refine sound_traps hm (gran := .step) (w := fun _ => o.et.width) (n := 16384 / o.et.width)
    (checks := fun c => [needEt ok o.et, needVl c (rowMax o.et)])
    (fun c => rfl) (fun c => ?_) (by decide) ?_ (rowMax_mul_width _) (EType.width_pos _) (fun r e => ?_)
    (fun c => only_elems hx ..)
  · exact .cons (Agrees.need (hok _)) (.cons (Agrees.need rfl) .nil)
  · exact .tail _ (.head _)
  · exact List.Subset.refl _

theorem compareWord_traps (hm : s.core.mode = .whole) {o : Arith} {ok : EType → Bool} {f : Nat → Nat → Bool}
    (hok : ∀ et, ok et = typeIn k et) (hx : x.reg = o.vd.toNat) :
    Traps s (compareWord o ok f s) (fun c => [(1, typeIn k o.et), (2, lenFits c o.et),
        (6, !(o.va :: srcRegs o.src).contains o.vd), (7, immFits o.et o.src)])
      (some (plainly s.core o.m (sameElem (o.va :: srcRegs o.src) o.et.width))) [x] := by
  refine sound_traps hm (gran := .step) (w := fun _ => o.et.width) (n := 16384 / o.et.width)
    (checks := fun c => [needEt ok o.et, needVl c (rowMax o.et), needApart [regSet o.vd] (regSet o.va :: srcSets o.src),
      needImm o.et o.src])
    (fun c => rfl) (fun c => ?_) (by decide) ?_ (rowMax_mul_width _) (EType.width_pos _) (fun r e => ?_)
    (fun c => (Core.Only.refl _ c).putBits (by simp [hx]) ..)
  · refine .cons (Agrees.need (hok _)) (.cons (Agrees.need rfl) (.cons (agrees_apart (by simp) (by simp) ?_)
      (.cons (agrees_imm _ _) .nil)))
    rw [← apart_singleton]
    simp
  · exact .tail _ (.head _)
  · exact List.Subset.refl _

/-- The strip width of the model is that of the tables (R214). -/
theorem rowLimit_mul_stripW (c : Core) : rowLimit c.run.vtype * c.stripW ≤ 16384 := by
  rw [← vtypeMax_eq_rowLimit]
  exact rowMax_mul_width _

theorem agrees_strip (c : Core) : Agrees (needVl c (vtypeMax c.run.vtype)) (2, decide (c.run.vl.toNat ≤ rowLimit c.run.vtype)) := by
  rw [vtypeMax_eq_rowLimit]
  exact Agrees.need rfl

theorem Core.stripW_pos (c : Core) : 0 < c.stripW := EType.width_pos _

theorem maskLogic_traps (hm : s.core.mode = .whole) {o : MaskArgs} {rd : List (BitVec 5)} {f : Bool → Bool → Bool}
    (hx : x.reg = o.vd.toNat) :
    Traps s (maskLogic o rd f s) (fun c => [(2, decide (c.run.vl.toNat ≤ rowLimit c.run.vtype))])
      (some (plainly s.core o.m (sameElem rd 1))) [x] := by
  refine sound_traps hm (gran := .step) (w := Core.stripW) (n := rowLimit s.core.run.vtype)
    (checks := fun c => [needVl c (vtypeMax c.run.vtype)]) (reads := fun _ => elemReads rd 1)
    (fun c => rfl) (fun c => ?_) (by decide) ?_ (rowLimit_mul_stripW _) (Core.stripW_pos _) (fun r e => ?_)
    (fun c => (Core.Only.refl _ c).putBits (by simp [hx]) ..)
  · exact .cons (agrees_strip c) .nil
  · exact .head _
  · exact List.Subset.refl _

theorem indexWord_traps (hm : s.core.mode = .whole) {o : Arith} {f : Nat → Nat → Nat} (hx : x.reg = o.vd.toNat) :
    Traps s (indexWord o f s) (fun c => [(1, typeIn 0 o.et), (2, lenFits c o.et)])
      (some (plainly s.core o.m fun _ _ => [])) [x] := by
  refine sound_traps hm (gran := .step) (w := fun _ => o.et.width) (n := 16384 / o.et.width)
    (checks := fun c => [needEt EType.isInt o.et, needVl c (rowMax o.et)]) (reads := fun _ _ _ => [])
    (fun c => rfl) (fun c => ?_) (by decide) ?_ (rowMax_mul_width _) (EType.width_pos _) (fun r e => ?_)
    (fun c => only_elems hx ..)
  · exact .cons (Agrees.need (isInt_eq_typeIn _)) (.cons (Agrees.need rfl) .nil)
  · exact .tail _ (.head _)
  · exact List.Subset.refl _

theorem slWidth_eq (c : Core) (second : Bool) :
    c.slWidth second = (c.run.vtype.extractLsb' (if second then 8 else 4) 4).toNat + 1 := by
  cases second <;> simp [Core.slWidth]

/-- A bitwise word on the planes of `sl` (R222). -/
theorem planes_traps (hm : s.core.mode = .whole) {o : Arith} {f : Core → Nat → Nat → Nat}
    {on : Core → Nat → Nat → Bool} (hx : x.reg = o.vd.toNat) :
    Traps s (computeWord .step (planeLimits o) (fun c => c.putWhere (c.slWidth false) c.vlen 1 (on c) o.vd (f c)) s)
      (fun c => [(2, decide (c.run.vl.toNat ≤ 16384))])
      (some ⟨o.m, (s.core.run.vtype.extractLsb' 4 4).toNat + 1, fun _ => 0, sameElem (o.va :: srcRegs o.src) 1⟩) [x] := by
  have himm : needImm .sl o.src = .ok () := by cases o.src <;> rfl
  have hrows : (s.core.run.vtype.extractLsb' 4 4).toNat + 1 = s.core.slWidth false := (slWidth_eq s.core false).symm
  rw [hrows]
  refine over_traps hm (gran := .step) (w := fun _ => 1) (n := 16384) (rows := fun c => c.slWidth false)
    (checks := fun c => [needVl c (rowMax .sl)]) (reads := fun _ => elemReads (o.va :: srcNums o.src) 1)
    (fun c => ?_) (fun c => ?_) (by decide) (fun _ => ?_) ?_ (by decide) (by decide) (fun r e => ?_)
    (fun c => (Core.Only.refl _ c).putWhere (by simp [hx]) ..)
  · unfold planeLimits
    rw [himm]
    rfl
  · exact .cons (Agrees.need rfl) .nil
  · rw [slWidth_eq]
    omega
  · exact .head _
  · exact List.Subset.refl _

/-- `VBCAST` of a slot (R234). -/
theorem bcastSlot_traps (hm : s.core.mode = .whole) {o : Bcast} {n : BitVec 4} (ho : o.src = .slot n) (hx : x.reg = o.vd.toNat) :
    Traps s (execVbcast o s) (fun c => [(1, typeIn 3 o.et), (2, lenFits c o.et)])
      (some (plainly s.core o.m fun _ _ => [])) [x] := by
  unfold execVbcast
  rw [ho]
  refine sound_traps hm (gran := .step) (w := fun _ => o.et.width) (n := 16384 / o.et.width)
    (checks := fun c => [needEt anyType o.et, needVl c (rowMax o.et)]) (reads := fun _ _ _ => [])
    (fun c => rfl) (fun c => ?_) (by decide) ?_ (rowMax_mul_width _) (EType.width_pos _) (fun r e => ?_)
    (fun c => only_elems hx ..)
  · exact .cons (Agrees.need (anyType_eq_typeIn _)) (.cons (Agrees.need rfl) .nil)
  · exact .tail _ (.head _)
  · exact List.Subset.refl _

/-- `VBCAST` of an immediate (R234). -/
theorem bcastImm_traps (hm : s.core.mode = .whole) {o : Bcast} {i : BitVec 16} (ho : o.src = .imm i) (hx : x.reg = o.vd.toNat) :
    Traps s (execVbcast o s) (fun c => [(1, typeIn 3 o.et), (2, lenFits c o.et), (7, (immVal o.et i).isSome)])
      (some (plainly s.core o.m fun _ _ => [])) [x] := by
  unfold execVbcast
  rw [ho]
  refine sound_traps hm (gran := .step) (w := fun _ => o.et.width) (n := 16384 / o.et.width)
    (checks := fun c => [needEt anyType o.et, needVl c (rowMax o.et), needImm o.et (.vi i)]) (reads := fun _ _ _ => [])
    (fun c => rfl) (fun c => ?_) (by decide) ?_ (rowMax_mul_width _) (EType.width_pos _) (fun r e => ?_)
    (fun c => only_elems hx ..)
  · exact .cons (Agrees.need (anyType_eq_typeIn _)) (.cons (Agrees.need rfl) (.cons (agrees_imm _ (.vi i)) .nil))
  · exact .tail _ (.head _)
  · exact List.Subset.refl _

/-- `VPFOLD` (R272). -/
theorem vpfold_traps (hm : s.core.mode = .whole) {o : Arith} (hx : x.reg = o.vd.toNat) :
    Traps s (execVpfold o s) (fun c => [(1, decide (o.et = .n16 ∨ o.et = .n32 ∨ o.et = .n64)),
        (2, decide (c.run.vl.toNat ≤ 256)), (6, !(o.va :: maskRegs o.m).contains o.vd)])
      (some (plainly s.core o.m fun r e => [(o.vd, r, e * 64), (o.va, r, e * o.et.width)])) [x] := by
  unfold execVpfold
  refine sound_traps hm (gran := .step) (w := fun _ => 64) (n := 256)
    (checks := fun c => [needEt (fun et => et == .n16 || et == .n32 || et == .n64) o.et, needVl c 256,
      needApart [regSet o.vd] (regSet o.va :: maskSet o.m)])
    (reads := fun _ r e => [(o.vd, r, e * 64), (o.va, r, e * o.et.width)])
    (fun c => rfl) (fun c => ?_) (by decide) ?_ (by decide) (by decide) (fun r e => ?_)
    (fun c => only_elems hx ..)
  · refine .cons (Agrees.need ?_) (.cons (Agrees.need rfl) (.cons (agrees_apart (by simp) (by simp) ?_) .nil))
    · cases o.et <;> rfl
    · rw [← apart_singleton]
      cases o.m <;> simp [maskRegs, maskOf]
  · exact .tail _ (.head _)
  · exact List.Subset.refl _

end

end Sys2Proof.Machine

namespace Sys2Proof.Machine

/-! ## The families of element-wise words -/

section
variable {s : State} {x : VWrite} {i : Instr} {o : Arith}

theorem intWord_traps (hm : s.core.mode = .whole) {f : Int → Int → Int} (hx : x.reg = o.vd.toNat) :
    Traps s (intWord o f s) (fun c => [(1, typeIn 0 o.et), (2, lenFits c o.et), (7, immFits o.et o.src)])
      (some (plainly s.core o.m (sameElem (o.va :: srcRegs o.src ++ []) o.et.width))) [x] := by
  unfold intWord
  exact elementwise_traps hm isInt_eq_typeIn hx

theorem bitWord_traps (hm : s.core.mode = .whole) {f : Nat → Nat → Nat → Nat} (hx : x.reg = o.vd.toNat) :
    Traps s (bitWord o f s) (fun c => [(1, typeIn 0 o.et), (2, lenFits c o.et), (7, immFits o.et o.src)])
      (some (plainly s.core o.m (sameElem (o.va :: srcRegs o.src ++ []) o.et.width))) [x] := by
  unfold bitWord
  exact elementwise_traps hm isInt_eq_typeIn hx

theorem bitwise_traps (hm : s.core.mode = .whole) (het : o.et ≠ .sl) {f : Nat → Nat → Nat} (hx : x.reg = o.vd.toNat) :
    Traps s (bitwise o f s) (fun c => [(1, typeIn 0 o.et), (2, lenFits c o.et), (7, immFits o.et o.src)])
      (some (plainly s.core o.m (sameElem (o.va :: srcRegs o.src ++ []) o.et.width))) [x] := by
  unfold bitwise
  rw [if_neg het]
  exact bitWord_traps hm hx

theorem bitwise_sl_traps (hm : s.core.mode = .whole) (het : o.et = .sl) {f : Nat → Nat → Nat} (hx : x.reg = o.vd.toNat) :
    Traps s (bitwise o f s) (fun c => [(2, decide (c.run.vl.toNat ≤ 16384))])
      (some ⟨o.m, (s.core.run.vtype.extractLsb' 4 4).toNat + 1, fun _ => 0, sameElem (o.va :: srcRegs o.src) 1⟩) [x] := by
  unfold bitwise
  rw [if_pos het]
  exact planes_traps hm hx

theorem vmacc_traps (hm : s.core.mode = .whole) (hx : x.reg = o.vd.toNat) :
    Traps s (execVmacc o s) (fun c => [(1, typeIn 0 o.et), (2, lenFits c o.et), (7, immFits o.et o.src)])
      (some (plainly s.core o.m (sameElem (o.va :: srcRegs o.src ++ [o.vd]) o.et.width))) [x] := by
  unfold execVmacc
  exact elementwise_traps hm isInt_eq_typeIn hx

theorem floatWord_traps (hm : s.core.mode = .whole) {f : Nat → Nat → Nat} (hx : x.reg = o.vd.toNat) :
    Traps s (floatWord o f s) (fun c => [(1, typeIn 1 o.et), (2, lenFits c o.et), (7, immFits o.et o.src)])
      (some (plainly s.core o.m (sameElem (o.va :: srcRegs o.src ++ []) o.et.width))) [x] := by
  unfold floatWord
  exact elementwise_traps hm arithFloat_eq_typeIn hx

theorem float3_traps (hm : s.core.mode = .whole) {f : Nat → Nat → Nat → Nat} (hx : x.reg = o.vd.toNat) :
    Traps s (float3 o f s) (fun c => [(1, typeIn 1 o.et), (2, lenFits c o.et), (7, immFits o.et o.src)])
      (some (plainly s.core o.m (sameElem (o.va :: srcRegs o.src ++ [o.vc]) o.et.width))) [x] := by
  unfold float3
  exact elementwise_traps hm arithFloat_eq_typeIn hx

theorem intCompare_traps (hm : s.core.mode = .whole) {k : Cond} (hx : x.reg = o.vd.toNat) :
    Traps s (intCompare k o s) (fun c => [(1, typeIn 0 o.et), (2, lenFits c o.et),
        (6, !(o.va :: srcRegs o.src).contains o.vd), (7, immFits o.et o.src)])
      (some (plainly s.core o.m (sameElem (o.va :: srcRegs o.src) o.et.width))) [x] := by
  unfold intCompare
  exact compareWord_traps hm isInt_eq_typeIn hx

theorem floatCompare_traps (hm : s.core.mode = .whole) {k : Cond} (hx : x.reg = o.vd.toNat) :
    Traps s (floatCompare k o s) (fun c => [(1, typeIn 1 o.et), (2, lenFits c o.et),
        (6, !(o.va :: srcRegs o.src).contains o.vd), (7, immFits o.et o.src)])
      (some (plainly s.core o.m (sameElem (o.va :: srcRegs o.src) o.et.width))) [x] := by
  unfold floatCompare
  exact compareWord_traps hm arithFloat_eq_typeIn hx

/-- An element-wise word traps where its lines of the tables say. -/
def LaneTraps (s : State) (i : Instr) (x : VWrite) : Prop :=
  Traps s (exec i s) (fun c => laneLimits c i) (laneConsumes s.core i) [x]

theorem integer_traps (hm : s.core.mode = .whole) {f : Nat → Nat → Nat → Nat} (hi : integerValue i = some (o, f))
    (hx : x.reg = o.vd.toNat) : LaneTraps s i x := by
  simp only [LaneTraps, laneLimits, laneConsumes, hi]
  delta exec
  unfold integerValue at hi
  split at hi
  case h_1 | h_2 | h_3 | h_4 | h_6 | h_7 | h_11 | h_12 =>
    cases hi
    dsimp only
    exact intWord_traps hm hx
  case h_5 =>
    cases hi
    dsimp only
    exact vmacc_traps hm hx
  case h_8 | h_9 | h_10 =>
    cases hi
    dsimp only
    exact bitWord_traps hm hx
  case h_13 | h_14 | h_15 =>
    split at hi
    · cases hi
    · next het =>
      cases hi
      dsimp only
      exact bitwise_traps hm het hx
  case h_16 => cases hi

theorem float_traps (hm : s.core.mode = .whole) {f : Nat → Nat → Nat → Nat} (hint : integerValue i = none)
    (hi : floatValue i = some (o, f)) (hx : x.reg = o.vd.toNat) : LaneTraps s i x := by
  simp only [LaneTraps, laneLimits, laneConsumes, hint, hi]
  delta exec
  unfold floatValue at hi
  split at hi
  case h_1 | h_2 | h_3 | h_6 | h_7 | h_8 =>
    cases hi
    dsimp only
    exact floatWord_traps hm hx
  case h_4 | h_5 | h_9 =>
    cases hi
    dsimp only
    exact float3_traps hm hx
  case h_10 => cases hi

theorem unary_traps (hm : s.core.mode = .whole) {k : Nat} {f : Nat → Nat} (hint : integerValue i = none) (hfl : floatValue i = none)
    (hi : unaryValue i = some (o, k, f)) (hx : x.reg = o.vd.toNat) : LaneTraps s i x := by
  simp only [LaneTraps, laneLimits, laneConsumes, hint, hfl, hi]
  delta exec
  unfold unaryValue at hi
  split at hi
  case h_1 =>
    cases hi
    dsimp only
    exact unaryWord_traps hm isInt_eq_typeIn hx
  case h_2 | h_3 | h_5 | h_6 =>
    cases hi
    dsimp only
    exact unaryWord_traps hm arithFloat_eq_typeIn hx
  case h_4 =>
    cases hi
    dsimp only
    exact unaryWord_traps hm isF32_eq_typeIn hx
  case h_7 =>
    cases hi
    dsimp only
    exact unaryWord_traps hm anyType_eq_typeIn hx
  case h_8 => cases hi

theorem compareInt_traps (hm : s.core.mode = .whole) {f : Int → Int → Bool} (hint : integerValue i = none)
    (hfl : floatValue i = none) (hun : unaryValue i = none) (hi : compareInt i = some (o, f)) (hx : x.reg = o.vd.toNat) :
    LaneTraps s i x := by
  simp only [LaneTraps, laneLimits, laneConsumes, hint, hfl, hun, hi]
  delta exec
  unfold compareInt at hi
  split at hi
  case h_1 | h_2 | h_3 | h_4 | h_5 | h_6 =>
    cases hi
    dsimp only
    exact intCompare_traps hm hx
  case h_7 => cases hi

theorem compareFloat_traps (hm : s.core.mode = .whole) {f : Option Ordering → Bool} (hint : integerValue i = none)
    (hfl : floatValue i = none) (hun : unaryValue i = none) (hci : compareInt i = none) (hi : compareFloat i = some (o, f))
    (hx : x.reg = o.vd.toNat) : LaneTraps s i x := by
  simp only [LaneTraps, laneLimits, laneConsumes, hint, hfl, hun, hci, hi]
  delta exec
  unfold compareFloat at hi
  split at hi
  case h_1 | h_2 | h_3 | h_4 | h_5 | h_6 | h_7 | h_8 =>
    cases hi
    dsimp only
    exact floatCompare_traps hm hx
  case h_9 => cases hi

theorem mask_traps (hm : s.core.mode = .whole) {o : MaskArgs} {f : Bool → Bool → Bool} (hint : integerValue i = none)
    (hfl : floatValue i = none) (hun : unaryValue i = none) (hci : compareInt i = none) (hcf : compareFloat i = none)
    (hi : maskValue i = some (o, f)) (hx : x.reg = o.vd.toNat) : LaneTraps s i x := by
  simp only [LaneTraps, laneLimits, laneConsumes, hint, hfl, hun, hci, hcf, hi]
  delta exec
  unfold maskValue at hi
  split at hi
  case h_1 | h_2 | h_3 | h_4 | h_5 =>
    cases hi
    dsimp only
    exact maskLogic_traps hm hx
  case h_6 => cases hi

theorem index_traps (hm : s.core.mode = .whole) {f : Nat → Nat → Nat} (hint : integerValue i = none)
    (hfl : floatValue i = none) (hun : unaryValue i = none) (hci : compareInt i = none) (hcf : compareFloat i = none)
    (hma : maskValue i = none) (hi : indexValue i = some (o, f)) (hx : x.reg = o.vd.toNat) : LaneTraps s i x := by
  simp only [LaneTraps, laneLimits, laneConsumes, hint, hfl, hun, hci, hcf, hma, hi]
  delta exec
  unfold indexValue at hi
  split at hi
  case h_1 | h_2 =>
    cases hi
    dsimp only
    exact indexWord_traps hm hx
  case h_3 => cases hi

theorem plane_traps (hm : s.core.mode = .whole) {f : Bool → Bool → Bool} (hint : integerValue i = none)
    (hfl : floatValue i = none) (hun : unaryValue i = none) (hci : compareInt i = none) (hcf : compareFloat i = none)
    (hma : maskValue i = none) (hin : indexValue i = none) (hi : planeBit i = some (o, f)) (hx : x.reg = o.vd.toNat) :
    LaneTraps s i x := by
  simp only [LaneTraps, laneLimits, laneConsumes, hint, hfl, hun, hci, hcf, hma, hin, hi]
  delta exec
  unfold planeBit at hi
  split at hi
  case h_1 | h_2 | h_3 =>
    split at hi
    · next het =>
      cases hi
      dsimp only
      exact bitwise_sl_traps hm het hx
    · cases hi
  case h_4 => cases hi

theorem bcast_traps (hm : s.core.mode = .whole) {o : Bcast} (h : laneWrite s.core (.vbcast o) = some x) :
    LaneTraps s (.vbcast o) x := by
  obtain ⟨cv, vd, src, m, et⟩ := o
  cases src with
  | elem va e => cases h
  | slot n =>
    cases h
    exact bcastSlot_traps hm (o := ⟨cv, vd, .slot n, m, et⟩) rfl rfl
  | imm k =>
    cases h
    exact bcastImm_traps hm (o := ⟨cv, vd, .imm k, m, et⟩) rfl rfl

/-- A value that is no pair is none. -/
theorem eq_none_of_forall_pair {α β : Type} {a : Option (α × β)} (h : ∀ x y, a = some (x, y) → False) : a = none :=
  Option.eq_none_iff_forall_ne_some.mpr fun p => h p.1 p.2

theorem lane_traps (hm : s.core.mode = .whole) (h : laneWrite s.core i = some x) : LaneTraps s i x := by
  unfold laneWrite at h
  split at h
  · next hi => cases h; exact integer_traps hm hi rfl
  next hint =>
  replace hint := eq_none_of_forall_pair hint
  split at h
  · next hi => cases h; exact float_traps hm hint hi rfl
  next hfl =>
  replace hfl := eq_none_of_forall_pair hfl
  split at h
  · next hi => cases h; exact unary_traps hm hint hfl hi rfl
  next hun =>
  replace hun := eq_none_of_forall_pair fun o (p : Nat × (Nat → Nat)) => hun o p.1 p.2
  split at h
  · next hi => cases h; exact compareInt_traps hm hint hfl hun hi rfl
  next hci =>
  replace hci := eq_none_of_forall_pair hci
  split at h
  · next hi => cases h; exact compareFloat_traps hm hint hfl hun hci hi rfl
  next hcf =>
  replace hcf := eq_none_of_forall_pair hcf
  split at h
  · next hi => cases h; exact mask_traps hm hint hfl hun hci hcf hi rfl
  next hma =>
  replace hma := eq_none_of_forall_pair hma
  split at h
  · next hi => cases h; exact index_traps hm hint hfl hun hci hcf hma hi rfl
  next hin =>
  replace hin := eq_none_of_forall_pair hin
  split at h
  · next hi => cases h; exact plane_traps hm hint hfl hun hci hcf hma hin hi rfl
  split at h
  · next o =>
    exact bcast_traps hm h
  · next o =>
    cases h
    exact vpfold_traps hm rfl
  · cases h

end
end Sys2Proof.Machine

namespace Sys2Proof.Machine

/-! ## Words between the lanes -/

section
variable {s : State} {x : VWrite} {o : Arith} {k : Nat}

/-- A sweep over vd. -/
theorem only_putWhere {c : Core} {vd : BitVec 5} (hx : x.reg = vd.toNat) (rows n w : Nat) (on : Nat → Nat → Bool)
    (f : Nat → Nat → Nat) : Core.Only ([x].map VWrite.reg) c (c.putWhere rows n w on vd f) :=
  (Core.Only.refl _ c).putWhere (by simp [hx]) ..

/-- The register limit of a word with the source va. -/
theorem agrees_source {vd va : BitVec 5} {m : Bool} :
    Agrees (needApart [regSet vd] (regSet va :: maskSet m)) (6, apart [vd.toNat] (va.toNat :: maskOf m)) :=
  agrees_apart (by simp) (by simp) (by simp)

theorem cross_traps (hm : s.core.mode = .whole) {gran : Gran} {ok : EType → Bool} {w : Nat} {f : Core → Core}
    (hok : ∀ et, ok et = typeIn k et) (honly : ∀ c, Core.Only ([x].map VWrite.reg) c (f c)) :
    Traps s (computeWord gran (crossLimits o ok w) f s) (fun c => crossOf c k o)
      (some (plainly s.core o.m (sameElem [o.va] w))) [x] := by
  refine sound_traps hm (gran := .row) (w := fun _ => o.et.width) (n := 16384 / o.et.width)
    (checks := fun c => [needEt ok o.et, needVl c (rowMax o.et), needApart [regSet o.vd] (regSet o.va :: maskSet o.m)])
    (reads := fun _ => elemReads [o.va] w)
    (fun c => rfl) (fun c => ?_) (by decide) ?_ (rowMax_mul_width _) (EType.width_pos _) (fun r e => ?_) honly
  · exact .cons (Agrees.need (hok _)) (.cons (Agrees.need rfl) (.cons agrees_source .nil))
  · exact .tail _ (.head _)
  · exact List.Subset.refl _

theorem rowValue_traps (hm : s.core.mode = .whole) {f : Core → Nat → Nat} (hx : x.reg = o.vd.toNat) :
    Traps s (rowValue o f s) (fun c => crossOf c 0 o) (some (plainly s.core o.m (sameElem [o.va] 1))) [x] := by
  unfold rowValue rowWord
  exact cross_traps hm isInt_eq_typeIn fun c => only_putWhere hx ..

theorem viota_traps (hm : s.core.mode = .whole) (hx : x.reg = o.vd.toNat) :
    Traps s (execViota o s) (fun c => crossOf c 0 o) (some (plainly s.core o.m (sameElem [o.va] 1))) [x] := by
  unfold execViota rowWord
  exact cross_traps hm isInt_eq_typeIn fun c => only_putWhere hx ..

theorem reduceWord_traps (hm : s.core.mode = .whole) {ok : EType → Bool} {f : Core → Nat → Nat}
    (hok : ∀ et, ok et = typeIn k et) (hx : x.reg = o.vd.toNat) :
    Traps s (reduceWord o ok f s) (fun c => crossOf c k o)
      (some (plainly s.core o.m (sameElem [o.va] o.et.width))) [x] := by
  unfold reduceWord
  exact cross_traps hm hok fun c => only_putWhere hx ..

theorem foldReduce_traps (hm : s.core.mode = .whole) {ok : EType → Bool} {op : Nat → Nat → Nat} {empty : Nat}
    (hok : ∀ et, ok et = typeIn k et) (hx : x.reg = o.vd.toNat) :
    Traps s (foldReduce o ok op empty s) (fun c => crossOf c k o)
      (some (plainly s.core o.m (sameElem [o.va] o.et.width))) [x] := by
  unfold foldReduce
  exact reduceWord_traps hm hok hx

theorem scanWord_traps (hm : s.core.mode = .whole) {op : Nat → Nat → Nat} (hx : x.reg = o.vd.toNat) :
    Traps s (scanWord o op s) (fun c => crossOf c 4 o) (some (plainly s.core o.m (sameElem [o.va] o.et.width))) [x] := by
  unfold scanWord rowWord
  exact cross_traps hm scanType_eq_typeIn fun c => only_putWhere hx ..

theorem columnWord_traps (hm : s.core.mode = .whole) {op : Nat → Nat → Nat} {empty : Nat} (hx : x.reg = o.vd.toNat) :
    Traps s (columnWord o op empty s) (fun c => crossOf c 4 o)
      (some (plainly s.core o.m (sameElem [o.va] o.et.width))) [x] := by
  unfold columnWord
  exact cross_traps hm scanType_eq_typeIn fun c => only_putWhere hx ..

/-- A word over masks that retires row by row. -/
theorem maskRow_traps (hm : s.core.mode = .whole) {o : MaskArgs} {on : Core → Nat → Nat → Bool} {f : Core → Nat → Nat → Nat}
    {lim : Core → Except Stop Unit} (hx : x.reg = o.vd.toNat)
    (hlim : ∀ c, lim c = needAll ([needVl c (vtypeMax c.run.vtype), needApart [regSet o.vd] (regSet o.va :: maskSet o.m)] ++
      [sound c .row o.m c.stripW (elemReads [o.va] 1)])) :
    Traps s (rowWord lim o.vd 1 on f s)
      (fun c => [(2, decide (c.run.vl.toNat ≤ rowLimit c.run.vtype)), (6, apart [o.vd.toNat] (o.va.toNat :: maskOf o.m))])
      (some (plainly s.core o.m (sameElem [o.va] 1))) [x] := by
  unfold rowWord
  refine sound_traps hm (n := rowLimit s.core.run.vtype) hlim (fun c => ?_) (by decide) ?_ (rowLimit_mul_stripW _)
    (Core.stripW_pos _) (fun r e => ?_) (fun c => only_putWhere hx ..)
  · exact .cons (agrees_strip c) (.cons agrees_source .nil)
  · exact .head _
  · exact List.Subset.refl _

theorem vmscanand_traps (hm : s.core.mode = .whole) {o : MaskArgs} (hx : x.reg = o.vd.toNat) :
    Traps s (execVmscanand o s)
      (fun c => [(2, decide (c.run.vl.toNat ≤ rowLimit c.run.vtype)), (6, apart [o.vd.toNat] (o.va.toNat :: maskOf o.m))])
      (some (plainly s.core o.m (sameElem [o.va] 1))) [x] := by
  unfold execVmscanand
  exact maskRow_traps hm hx fun c => rfl

theorem breakWord_traps (hm : s.core.mode = .whole) {o : MaskArgs} {inc : Nat} (hx : x.reg = o.vd.toNat) :
    Traps s (breakWord o inc s)
      (fun c => [(2, decide (c.run.vl.toNat ≤ rowLimit c.run.vtype)), (6, apart [o.vd.toNat] (o.va.toNat :: maskOf o.m))])
      (some (plainly s.core o.m (sameElem [o.va] 1))) [x] := by
  unfold breakWord
  exact maskRow_traps hm hx fun c => rfl
end
end Sys2Proof.Machine

namespace Sys2Proof.Machine

/-! ## Permutations -/

section
variable {s : State} {x : VWrite} {o : Arith}

theorem slideBy_eq_slideOf (c : Core) (b : Src) (r : Nat) : slideBy c b r = slideOf c b r := by
  cases b with
  | vv v => exact elem_eq_elemAt c v 64 r 0
  | vo n => rfl
  | vi i => rfl

theorem srcNums_eq_srcRegs (b : Src) : srcNums b = srcRegs b := by cases b <;> rfl

theorem gatherWord_traps (hm : s.core.mode = .whole) {iw : Nat} {o : Gather} (hx : x.reg = o.vd.toNat) :
    Traps s (gatherWord iw o s) (fun c => gatherLimits c iw o) (some (gatherConsumes s.core iw o)) [x] := by
  unfold gatherWord rowWord gatherConsumes
  refine sound_traps hm (w := fun _ => o.et.width) (n := min (16384 / o.et.width) (16384 / iw))
    (checks := fun c => [needEt anyType o.et, needVl c (min (rowMax o.et) (16384 / iw)), needAligned o.va (2 ^ o.g.toNat),
      needApart [regSet o.vd] (regSet o.va (2 ^ o.g.toNat) :: regSet o.vb :: maskSet o.m)])
    (fun c => rfl) (fun c => ?_) (by decide) ?_ ?_ (EType.width_pos _) (fun r e => ?_) (fun c => only_putWhere hx ..)
  · exact .cons (Agrees.need (anyType_eq_typeIn _)) (.cons (Agrees.need rfl) (.cons (Agrees.need rfl)
      (.cons (agrees_apart (by simp) (by simp) (by simp)) .nil)))
  · exact .tail _ (.head _)
  · exact (Nat.mul_le_mul_right _ (Nat.min_le_left ..)).trans (rowMax_mul_width _)
  · rw [elem_eq_elemAt]
    exact List.Subset.refl _

/-- Slides, and words that pack or spread. -/
theorem slide_traps (hm : s.core.mode = .whole) {reads : Core → Nat → Nat → Reads} {on : Core → Nat → Nat → Bool}
    {f : Core → Nat → Nat → Nat} {treads : Nat → Nat → List RegBit} (hreads : ∀ r e, treads r e ⊆ reads s.core r e)
    (hx : x.reg = o.vd.toNat) :
    Traps s (rowWord (slideLimits o reads) o.vd o.et.width on f s) (fun c => slideLimitsOf c o)
      (some (plainly s.core o.m treads)) [x] := by
  unfold rowWord
  refine sound_traps hm (w := fun _ => o.et.width) (n := 16384 / o.et.width)
    (checks := fun c => [needEt anyType o.et, needVl c (rowMax o.et), needApart [regSet o.vd] (arithReads o)])
    (fun c => rfl) (fun c => ?_) (by decide) ?_ (rowMax_mul_width _) (EType.width_pos _) hreads
    (fun c => only_putWhere hx ..)
  · exact .cons (Agrees.need (anyType_eq_typeIn _)) (.cons (Agrees.need rfl)
      (.cons (agrees_apart (by simp) (by simp [arithReads]) (by simp [arithReads])) .nil))
  · exact .tail _ (.head _)

theorem vslideup_traps (hm : s.core.mode = .whole) (hx : x.reg = o.vd.toNat) :
    Traps s (execVslideup o s) (fun c => slideLimitsOf c o)
      (some (slideConsumes s.core o fun n e => if n ≤ e then some (e - n) else none)) [x] := by
  unfold execVslideup slideConsumes
  refine slide_traps hm (fun r e => ?_) hx
  rw [slideBy_eq_slideOf, distReads, srcNums_eq_srcRegs]
  dsimp only
  split <;> exact List.Subset.refl _

theorem vslidedn_traps (hm : s.core.mode = .whole) (hx : x.reg = o.vd.toNat) :
    Traps s (execVslidedn o s) (fun c => slideLimitsOf c o)
      (some (slideConsumes s.core o fun n e => if e + n < s.core.run.vl.toNat then some (e + n) else none)) [x] := by
  unfold execVslidedn slideConsumes
  refine slide_traps hm (fun r e => ?_) hx
  have hvl : s.core.vlen = s.core.run.vl.toNat := rfl
  rw [slideBy_eq_slideOf, distReads, srcNums_eq_srcRegs, hvl]
  dsimp only
  split <;> exact List.Subset.refl _

theorem vcompress_traps (hm : s.core.mode = .whole) {v : BitVec 5} (hv : o.src = .vv v) (hx : x.reg = o.vd.toNat) :
    Traps s (execVcompress o s) (fun c => slideLimitsOf c o)
      (some (plainly s.core o.m fun r e => (v, r, e) :: if bitAt s.core v r e then [(o.va, r, e * o.et.width)] else [])) [x] := by
  have hsel : selReg o = v := by rw [selReg, hv]
  unfold execVcompress
  refine slide_traps hm (fun r e => ?_) hx
  rw [hsel]
  exact List.Subset.refl _

/-- The elements that a mask operand selects. -/
theorem selected_eq_selectedOf (c : Core) (r : Nat) {v : BitVec 5} (hv : selReg o = v) :
    c.selected o r = selectedOf c v r := by
  subst hv
  rfl

theorem vexpand_traps (hm : s.core.mode = .whole) {v : BitVec 5} (hv : o.src = .vv v) (hx : x.reg = o.vd.toNat) :
    Traps s (execVexpand o s) (fun c => slideLimitsOf c o)
      (some (plainly s.core o.m fun r e => (v, r, e) :: if bitAt s.core v r e then
        [(o.va, r, ((selectedOf s.core v r).filter fun k => k < e).length * o.et.width)] else [])) [x] := by
  have hsel : selReg o = v := by rw [selReg, hv]
  unfold execVexpand
  refine slide_traps hm (fun r e => ?_) hx
  rw [selected_eq_selectedOf _ _ hsel, hsel, List.countP_eq_length_filter]
  exact List.Subset.refl _

/-- `VBCAST` of an element (R234). -/
theorem bcastElem_traps (hm : s.core.mode = .whole) {o : Bcast} {va : BitVec 5} {k : BitVec 15} (ho : o.src = .elem va k)
    (hx : x.reg = o.vd.toNat) :
    Traps s (execVbcast o s) (fun c => [(1, typeIn 3 o.et), (2, lenFits c o.et), (3, decide (k.toNat < 16384 / o.et.width)),
        (6, apart [o.vd.toNat] (va.toNat :: maskOf o.m))])
      (some (plainly s.core o.m fun r _ => if k.toNat < s.core.run.vl.toNat then [(va, r, k.toNat * o.et.width)] else [])) [x] := by
  unfold execVbcast
  rw [ho]
  refine sound_traps hm (gran := .row) (w := fun _ => o.et.width) (n := 16384 / o.et.width)
    (checks := fun c => [needEt anyType o.et, needVl c (rowMax o.et), need (decide (k.toNat < rowMax o.et)) 3 k.toNat,
      needApart [regSet o.vd] (regSet va :: maskSet o.m)])
    (reads := fun c r _ => if k.toNat < c.vlen then [(va, r, k.toNat * o.et.width)] else [])
    (fun c => rfl) (fun c => ?_) (by decide) ?_ (rowMax_mul_width _) (EType.width_pos _) (fun r e => ?_)
    (fun c => only_putWhere hx ..)
  · exact .cons (Agrees.need (anyType_eq_typeIn _)) (.cons (Agrees.need rfl) (.cons (Agrees.need rfl)
      (.cons agrees_source .nil)))
  · exact .tail _ (.head _)
  · exact List.Subset.refl _

/-- `VROWMV` and `VROWBC` (R235): an element's mask bit stands in its destination row. -/
theorem rowMoveWord_traps (hm : s.core.mode = .whole) {o : RowMove} {srcRow srcRows : Nat → Nat} (hx : x.reg = o.vd.toNat) :
    Traps s (rowMoveWord o srcRow srcRows s) (fun c => rowMoveLimits c o (srcRows c.rows))
      (some ⟨o.m, s.core.run.rc.toNat, fun r => o.dst.toNat + r, fun r e => [(o.va, srcRow r, e * o.et.width)]⟩) [x] := by
  unfold rowMoveWord
  refine computeWord_traps (last := fun c => unspoilt c (c.consumedAt c.rows (c.inRun .row o.et.width) o.et.width
      (consumedBy c o.m (fun r => o.dst.toNat + r) fun r e => [(o.va, srcRow r, e * o.et.width)])))
    (tabled_of_checks
      (checks := fun c => [needEt anyType o.et, needVl c (rowMax o.et),
        need (decide (o.dst.toNat + c.rows ≤ 16)) 3 (o.dst.toNat + c.rows - 1),
        need (decide (o.src.toNat + srcRows c.rows ≤ 16)) 3 (o.src.toNat + srcRows c.rows - 1),
        need (o.vd != o.va || decide (o.src.toNat + srcRows c.rows ≤ o.dst.toNat ∨ o.dst.toNat + c.rows ≤ o.src.toNat)) 6
          o.vd.toNat, needApart [regSet o.vd] (maskSet o.m)])
      (fun c => rfl) (fun c => ?_) (fun c _ h => unspoilt_empty h ..) (fun c => only_putWhere hx ..)) ?_ hm
  · refine .cons (Agrees.need (anyType_eq_typeIn _)) (.cons (Agrees.need rfl) (.cons (Agrees.need rfl) (.cons (Agrees.need rfl)
      (.cons (Agrees.need ?_) (.cons (agrees_apart (by simp) (by simp) (by simp)) .nil)))))
    rw [Bool.eq_iff_iff, Bool.or_eq_true, bne_iff_ne, decide_eq_true_iff, decide_eq_true_iff]
    rfl
  · intro hbroken _ hrc hends k v row eg hk htakes hp
    cases hk
    have hfits : s.core.run.vl.toNat ≤ 16384 / o.et.width :=
      of_decide_eq_true (holds_of_firstBroken hbroken (.tail _ (.head _)))
    have hstop := unspoilt_takes (gran := .row) (w := o.et.width) (by decide) hends hrc hfits (rowMax_mul_width _)
      (EType.width_pos _) (fun _ _ => List.Subset.refl _) htakes hp
    exact hstop

end
end Sys2Proof.Machine

namespace Sys2Proof.Machine

/-! ## Conversions -/

/-- A sweep over each of several registers. -/
theorem Core.Only.foldN {regs : List Nat} {c : Core} (n : Nat) {f : Nat → Core → Core}
    (hf : ∀ j d, j < n → Core.Only regs c d → Core.Only regs c (f j d)) : Core.Only regs c (foldN n f c) := by
  induction n with
  | zero => exact .refl _ _
  | succ n ih => exact hf n _ n.lt_succ_self (ih fun j d hj => hf j d (Nat.lt_succ_of_lt hj))

theorem agrees_ove {ove : Option (BitVec 5)} {named : List RegSet} {l : List Nat} (hn : Named named)
    (hl : named.flatMap RegSet.nums = l) : Agrees (needOve ove named) (6, oveApart ove l) := by
  subst hl
  refine agrees_apart (by simp) hn ?_
  cases ove <;> simp [oveSet, oveApart, apart]

/-- The registers of a conversion word: vd, and the overflow mask if it has one. -/
theorem ove_mem {ove : Option (BitVec 5)} {x y : VWrite} {f : Nat → Nat → Bool} {v : BitVec 5} (hv : ove = some v) :
    v.toNat ∈ (x :: flagged ove y f).map VWrite.reg := by
  subst hv
  simp [flagged]

section
variable {s : State} {x y : VWrite} {o : Conv} {flags : Nat → Nat → Bool}

theorem only_conv {c : Core} (hx : x.reg = o.vd.toNat) (rows n w rows' n' : Nat) (on : Nat → Nat → Bool) (f : Nat → Nat → Nat)
    (g : Nat → Nat → Bool) :
    Core.Only ((x :: flagged o.ove y flags).map VWrite.reg) c ((c.putWhere rows n w on o.vd f).orBits o.ove rows' n' g) :=
  ((Core.Only.refl _ c).putWhere (by simp [hx]) ..).orBits (fun _ => ove_mem) ..

theorem min_rowMax_mul (a b : EType) : min (16384 / a.width) (16384 / b.width) * b.width ≤ 16384 :=
  (Nat.mul_le_mul_right _ (Nat.min_le_right ..)).trans (rowMax_mul_width _)

theorem vcvt_traps (hm : s.core.mode = .whole) (hx : x.reg = o.vd.toNat) :
    Traps s (exec (.vcvt o) s) (fun c => rowLimits c (.vcvt o)) (some (plainly s.core o.m (sameElem [o.va] o.sty.width)))
      (x :: flagged o.ove y flags) := by
  delta exec
  unfold rowLimits
  dsimp only
  unfold execVcvt
  refine sound_traps hm (gran := if o.sty.width = o.et.width then .step else .row) (w := fun _ => o.sty.width)
    (n := min (16384 / o.et.width) (16384 / o.sty.width))
    (checks := fun c => [needEt anyType o.et, needEt anyType o.sty, needVl c (min (rowMax o.et) (rowMax o.sty)),
      (if o.sty.width = o.et.width then .ok () else needApart [regSet o.vd] (regSet o.va :: maskSet o.m)),
      needOve o.ove (regSet o.vd :: regSet o.va :: maskSet o.m)])
    (reads := fun _ => elemReads [o.va] o.sty.width)
    (fun c => rfl) (fun c => ?_) ?_ ?_ (min_rowMax_mul ..) (EType.width_pos _) (fun r e => List.Subset.refl _)
    (fun c => only_conv hx ..)
  · refine .cons (Agrees.need (anyType_eq_typeIn _)) (.cons (Agrees.need (anyType_eq_typeIn _)) (.cons (Agrees.need rfl)
      (.cons ?_ (.cons (agrees_ove (by simp) (by simp)) .nil))))
    split
    · next hw => simpa [hw] using Agrees.ok
    · next hw => simpa [hw] using agrees_source
  · split <;> decide
  · exact .tail _ (.tail _ (.head _))

theorem packWord_traps (hm : s.core.mode = .whole) {p : Nat} (hp : 0 < p) (hx : x.reg = o.vd.toNat) :
    Traps s (packWord p o s) (fun c => packLimits c p o)
      (some (plainly s.core o.m (sameElem (groupRegs o.va p) o.sty.width))) (x :: flagged o.ove y flags) := by
  unfold packWord
  refine sound_traps hm (w := fun _ => o.sty.width) (n := 16384 / o.sty.width)
    (checks := fun c => [needEt anyType o.et, needEt (fun t => anyType t && t.width == p * o.et.width) o.sty,
      needVl c (rowMax o.sty), needAligned o.va p, needApart [regSet o.vd] (regSet o.va p :: maskSet o.m),
      needOve o.ove (regSet o.vd :: regSet o.va p :: maskSet o.m)])
    (fun c => rfl) (fun c => ?_) (by decide) ?_ (rowMax_mul_width _) (EType.width_pos _) (fun r e => List.Subset.refl _)
    (fun c => only_conv hx ..)
  · refine .cons (Agrees.need (anyType_eq_typeIn _)) (.cons (Agrees.need ?_) (.cons (Agrees.need rfl) (.cons (Agrees.need rfl)
      (.cons (agrees_apart (by simp) (by simp [hp]) (by simp)) (.cons (agrees_ove (by simp [hp]) (by simp)) .nil)))))
    exact congrArg (· && _) (anyType_eq_typeIn _)
  · exact .tail _ (.tail _ (.head _))

theorem unpackWord_traps (hm : s.core.mode = .whole) {p : Nat} (hp : 0 < p) :
    Traps s (unpackWord p o s) (fun c => unpackLimits c p o) (some (plainly s.core o.m (sameElem [o.va] o.et.width)))
      (unpackWrites s.core p o) := by
  unfold unpackWord
  refine sound_traps hm (w := fun _ => o.et.width) (n := 16384 / o.et.width)
    (checks := fun c => [needEt anyType o.et, needEt (fun t => anyType t && o.et.width == p * t.width) o.sty,
      needVl c (rowMax o.et), needAligned o.vd p, needApart [regSet o.vd p] (regSet o.va :: maskSet o.m),
      need (exactConv o.sty o.et) 7 o.et.code.toNat])
    (fun c => rfl) (fun c => ?_) (by decide) ?_ (rowMax_mul_width _) (EType.width_pos _) (fun r e => List.Subset.refl _)
    (fun c => .foldN p fun j d hj h => h.putWhere ?_ ..)
  · refine .cons (Agrees.need (anyType_eq_typeIn _)) (.cons (Agrees.need ?_) (.cons (Agrees.need rfl) (.cons (Agrees.need rfl)
      (.cons (agrees_apart (by simp [hp]) (by simp) (by simp)) (.cons (Agrees.need rfl) .nil)))))
    exact congrArg (· && _) (anyType_eq_typeIn _)
  · exact .tail _ (.tail _ (.head _))
  · rw [unpackWrites, List.map_map]
    exact List.mem_map.mpr ⟨j, List.mem_range.mpr hj, rfl⟩

theorem quantType_eq (et : EType) : quantType et = [EType.i8, .i16, .f16, .bf16, .f8e4, .f8e5, .f4].contains et := by
  cases et <;> rfl

theorem quantSource_eq (et : EType) : (et == .f32 || et == .bf16 || et == .f16) = [EType.f32, .bf16, .f16].contains et := by
  cases et <;> rfl

/-- The registers that `VQNT` reads (R240). -/
def quantReads (c : Core) (o : Conv) : List RegSet := regSet o.va :: (if c.sce then [regSet 31] else []) ++ maskSet o.m

theorem named_quantReads (c : Core) (o : Conv) : Named (quantReads c o) := by
  unfold quantReads
  split <;> simp

theorem nums_quantReads (c : Core) (o : Conv) : (quantReads c o).flatMap RegSet.nums =
    o.va.toNat :: (if c.run.vtype.getLsbD 15 then [31] else []) ++ maskOf o.m := by
  have hsce : c.sce = c.run.vtype.getLsbD 15 := rfl
  rw [quantReads, hsce]
  split <;> simp

theorem vqnt_traps (hm : s.core.mode = .whole) (hx : x.reg = o.vd.toNat) :
    Traps s (execVqnt o s) (fun c => rowLimits c (.vqnt o))
      (some (plainly s.core o.m fun r e =>
        (o.va, r, e * o.sty.width) :: if s.core.run.vtype.getLsbD 15 then [(31, r, e / 32 * 16)] else []))
      (x :: flagged o.ove y flags) := by
  unfold rowLimits
  dsimp only
  unfold execVqnt
  refine sound_traps hm (w := fun _ => o.sty.width) (n := min (16384 / o.et.width) (16384 / o.sty.width))
    (checks := fun c => [needEt (fun t => quantType t && decide (t.width < o.sty.width)) o.et,
      needEt (fun t => t == .f32 || t == .bf16 || t == .f16) o.sty, needVl c (min (rowMax o.et) (rowMax o.sty)),
      needApart [regSet o.vd] (quantReads c o), needOve o.ove (regSet o.vd :: quantReads c o)])
    (fun c => rfl) (fun c => ?_) (by decide) ?_ (min_rowMax_mul ..) (EType.width_pos _) (fun r e => List.Subset.refl _)
    (fun c => only_conv hx ..)
  · have hread := nums_quantReads c o
    have hnamed := named_quantReads c o
    refine .cons (Agrees.need (congrArg (· && _) (quantType_eq _))) (.cons (Agrees.need (quantSource_eq _))
      (.cons (Agrees.need rfl) (.cons (agrees_apart (by simp) hnamed ?_)
        (.cons (agrees_ove (named_cons.mpr ⟨Nat.one_pos, hnamed⟩) ?_) .nil))))
    · rw [hread]
      rfl
    · rw [List.flatMap_cons, hread]
      rfl
  · exact .tail _ (.tail _ (.head _))

theorem sliceWord_traps (hm : s.core.mode = .whole) {second : Bool} (hx : x.reg = o.vd.toNat) :
    Traps s (sliceWord second o s) (fun c => sliceLimits c o) (some (plainly s.core o.m (sameElem [o.va] o.sty.width)))
      (x :: flagged o.ove y flags) := by
  unfold sliceWord
  refine sound_traps hm (w := fun _ => o.sty.width) (n := 16384 / o.sty.width)
    (checks := fun c => [needEt (fun t => t == .sl) o.et, needEt EType.isInt o.sty, needVl c (rowMax o.sty),
      need (decide (c.rows * c.vlen ≤ 16384)) 3 (c.rows * c.vlen), needApart [regSet o.vd] (regSet o.va :: maskSet o.m),
      needOve o.ove (regSet o.vd :: regSet o.va :: maskSet o.m)])
    (fun c => rfl) (fun c => ?_) (by decide) ?_ (rowMax_mul_width _) (EType.width_pos _) (fun r e => List.Subset.refl _)
    (fun c => only_conv hx ..)
  · exact .cons (Agrees.need (isSl_eq_typeIn _)) (.cons (Agrees.need (isInt_eq_typeIn _)) (.cons (Agrees.need rfl)
      (.cons (Agrees.need rfl) (.cons agrees_source (.cons (agrees_ove (by simp) (by simp)) .nil)))))
  · exact .tail _ (.tail _ (.head _))

/-- A sliced value of this width and sign fits the type of vd (code 7). -/
def unsliceHolds (second : Bool) (o : Conv) (c : Core) : Bool :=
  if c.slSigned second then o.et.isSigned && decide (c.slWidth second ≤ o.et.width)
  else if o.et.isSigned then decide (c.slWidth second < o.et.width) else decide (c.slWidth second ≤ o.et.width)

theorem unsliceHolds_eq (second : Bool) (o : Conv) (c : Core) : unsliceHolds second o c = planesFit c second o.et := by
  unfold unsliceHolds planesFit
  rw [slWidth_eq]
  rfl

theorem unsliceWord_traps (hm : s.core.mode = .whole) {second : Bool} (hx : x.reg = o.vd.toNat) :
    Traps s (unsliceWord second o s) (fun c => unsliceLimits c second o)
      (some (plainly s.core o.m (planeReads s.core second o.va))) [x] := by
  unfold unsliceWord
  refine sound_traps hm (w := fun _ => o.et.width) (n := 16384 / o.et.width)
    (checks := fun c => [needEt EType.isInt o.et, needEt (fun t => t == .sl) o.sty, needVl c (rowMax o.et),
      need (decide (c.rows * c.vlen ≤ 16384)) 3 (c.rows * c.vlen), needApart [regSet o.vd] (regSet o.va :: maskSet o.m),
      need (unsliceHolds second o c) 7 o.et.code.toNat])
    (fun c => rfl) (fun c => ?_) (by decide) ?_ (rowMax_mul_width _) (EType.width_pos _) (fun r e => ?_)
    (fun c => only_putWhere hx ..)
  · exact .cons (Agrees.need (isInt_eq_typeIn _)) (.cons (Agrees.need (isSl_eq_typeIn _)) (.cons (Agrees.need rfl)
      (.cons (Agrees.need rfl) (.cons agrees_source (.cons (Agrees.need (unsliceHolds_eq ..)) .nil)))))
  · exact .tail _ (.tail _ (.head _))
  · rw [planeReads, ← slWidth_eq]
    exact List.Subset.refl _
end

/-- `VCPRS4` (R242): kept values and their indices. -/
theorem vcprs4_traps {s : State} {x y : VWrite} {o : Cprs} (hm : s.core.mode = .whole) (hx : x.reg = o.vd.toNat)
    (hy : y.reg = o.vc.toNat) :
    Traps s (execVcprs4 o s) (fun c => rowLimits c (.vcprs4 o)) (some (plainly s.core false (sameElem [o.va] o.et.width)))
      [x, y] := by
  unfold rowLimits
  dsimp only
  unfold execVcprs4
  refine sound_traps hm (w := fun _ => o.et.width) (n := 16384 / o.et.width)
    (checks := fun c => [needEt cprsType o.et, needVl c (rowMax o.et), need (c.vlen % 4 == 0) 2 c.vlen,
      needApart [regSet o.vd, regSet o.vc] [regSet o.va]])
    (fun c => rfl) (fun c => ?_) (by decide) ?_ (rowMax_mul_width _) (EType.width_pos _) (fun r e => List.Subset.refl _)
    (fun c => ((Core.Only.refl _ c).putWhere (by simp [hx]) ..).putWhere (by simp [hy]) ..)
  · refine .cons (Agrees.need ?_) (.cons (Agrees.need rfl) (.cons (Agrees.need ?_)
      (.cons (agrees_apart (by simp) (by simp) (by simp)) .nil)))
    · cases o.et <;> rfl
    · rw [Bool.eq_iff_iff, beq_iff_eq, decide_eq_true_iff]
      rfl
  · exact .tail _ (.head _)

end Sys2Proof.Machine

namespace Sys2Proof.Machine

/-! ## The families of words between the lanes -/

section
variable {s : State} {x : VWrite} {i : Instr} {o : Arith} {l : List VWrite}

/-- A word between the lanes traps where its lines of the tables say. -/
def RowTraps (s : State) (i : Instr) (l : List VWrite) : Prop :=
  Traps s (exec i s) (fun c => rowLimits c i) (rowConsumes s.core i) l

theorem maskRowWrite_traps (hm : s.core.mode = .whole) (h : maskRowWrite s.core i = some x) : RowTraps s i [x] := by
  delta RowTraps exec rowLimits rowConsumes
  unfold maskRowWrite at h
  split at h
  case h_1 | h_2 =>
    cases h
    dsimp only
    exact rowValue_traps hm rfl
  case h_3 =>
    cases h
    dsimp only
    exact viota_traps hm rfl
  case h_4 =>
    cases h
    dsimp only
    exact vmscanand_traps hm rfl
  case h_5 | h_6 =>
    cases h
    dsimp only
    exact breakWord_traps hm rfl
  case h_7 => cases h

theorem reduction_traps (hm : s.core.mode = .whole) {k e : Nat} {f : Nat → Nat → Nat} (hi : reduction i = some (o, k, f, e))
    (hx : x.reg = o.vd.toNat) : RowTraps s i [x] := by
  delta RowTraps exec rowLimits rowConsumes
  unfold reduction at hi
  split at hi
  case h_1 | h_2 | h_3 | h_4 | h_5 | h_6 =>
    cases hi
    dsimp only
    exact foldReduce_traps hm isInt_eq_typeIn hx
  case h_7 | h_8 | h_9 =>
    cases hi
    dsimp only
    exact foldReduce_traps hm arithFloat_eq_typeIn hx
  case h_10 => cases hi

theorem scan_traps (hm : s.core.mode = .whole) {f : Nat → Nat → Nat} (hi : scan i = some (o, f))
    (hx : x.reg = o.vd.toNat) : RowTraps s i [x] := by
  delta RowTraps exec rowLimits rowConsumes
  unfold scan at hi
  split at hi
  case h_1 | h_2 | h_3 =>
    cases hi
    dsimp only
    exact scanWord_traps hm hx
  case h_4 => cases hi

theorem column_traps (hm : s.core.mode = .whole) {e : Nat} {f : Nat → Nat → Nat} (hi : column i = some (o, f, e))
    (hx : x.reg = o.vd.toNat) : RowTraps s i [x] := by
  delta RowTraps exec rowLimits rowConsumes
  unfold column at hi
  split at hi
  case h_1 | h_2 | h_3 =>
    cases hi
    dsimp only
    exact columnWord_traps hm hx
  case h_4 => cases hi

theorem permuteWrite_traps (hm : s.core.mode = .whole) (h : permuteWrite s.core i = some x) : RowTraps s i [x] := by
  delta RowTraps exec rowLimits rowConsumes
  unfold permuteWrite at h
  split at h
  case h_1 | h_2 =>
    cases h
    dsimp only
    exact gatherWord_traps hm rfl
  case h_3 =>
    cases h
    dsimp only
    exact vslideup_traps hm rfl
  case h_4 =>
    cases h
    dsimp only
    exact vslidedn_traps hm rfl
  case h_5 =>
    split at h
    · next hv =>
      cases h
      simp only [hv]
      exact vcompress_traps hm hv rfl
    · cases h
  case h_6 =>
    split at h
    · next hv =>
      cases h
      simp only [hv]
      exact vexpand_traps hm hv rfl
    · cases h
  case h_7 =>
    split at h
    · next hv =>
      cases h
      simp only [hv]
      exact bcastElem_traps hm hv rfl
    · cases h
  case h_8 | h_9 =>
    cases h
    dsimp only
    exact rowMoveWord_traps hm rfl
  case h_10 => cases h

theorem vfredt_traps (hm : s.core.mode = .whole) (hx : x.reg = o.vd.toNat) : RowTraps s (.vfredt o) [x] := by
  delta RowTraps exec rowLimits rowConsumes
  dsimp only
  exact reduceWord_traps hm arithFloat_eq_typeIn hx

theorem convertWrites_traps (hm : s.core.mode = .whole) (h : convertWrites s.core i = some l) : RowTraps s i l := by
  unfold convertWrites at h
  split at h
  case h_1 o =>
    cases h
    refine vcvt_traps hm ?_
    split <;> rfl
  case h_2 | h_3 =>
    cases h
    exact packWord_traps hm (by decide) rfl
  case h_4 | h_5 =>
    cases h
    exact unpackWord_traps hm (by decide)
  case h_6 =>
    cases h
    exact vqnt_traps hm rfl
  case h_7 | h_8 =>
    cases h
    exact sliceWord_traps hm rfl
  case h_9 | h_10 =>
    cases h
    exact unsliceWord_traps hm rfl
  case h_11 =>
    cases h
    exact vcprs4_traps hm rfl rfl
  case h_12 => cases h

theorem row_traps (hm : s.core.mode = .whole) (h : rowWrites s.core i = some l) : RowTraps s i l := by
  unfold rowWrites at h
  split at h
  · next hi => cases h; exact maskRowWrite_traps hm hi
  split at h
  · next hi => cases h; exact reduction_traps hm hi rfl
  split at h
  · next hi => cases h; exact scan_traps hm hi rfl
  split at h
  · next hi => cases h; exact column_traps hm hi rfl
  split at h
  · next hi => cases h; exact permuteWrite_traps hm hi
  split at h
  · cases h; exact vfredt_traps hm rfl
  · exact convertWrites_traps hm h
end

/-- Settles O45: every compute word is a `computeWord` whose checks are the lines of its tables; where that traps is said
once, in `computeWord_traps`. -/
theorem computeWordsTrap : Obligations.ComputeWordsTrap := by
  unfold Obligations.ComputeWordsTrap
  intro s i limits takes l hm h
  rcases h with ⟨⟨x, hx, rfl⟩, rfl, rfl⟩ | ⟨hl, rfl, rfl⟩
  · exact lane_traps hm hx
  · exact row_traps hm hl

end Sys2Proof.Machine

namespace Sys2Proof.Machine

/-! ## Fields of a word -/

theorem getLsbD_fieldMask (hi lo i : Nat) :
    (fieldMask hi lo).getLsbD i = (decide (i < 64) && (decide (lo ≤ i) && decide (i - lo < hi + 1 - lo))) := by
  simp [fieldMask, BitVec.getLsbD_ofNat, Nat.testBit_shiftLeft]

/-- A field that takes the bits that another word has there: the other bits stay. -/
theorem setField_wfield (x v : Word) (hi lo : Nat) :
    setField x hi lo (wfield v hi lo) = (x &&& ~~~fieldMask hi lo) ||| (v &&& fieldMask hi lo) := by
  have hv : BitVec.ofNat 64 (wfield v hi lo <<< lo) &&& fieldMask hi lo = v &&& fieldMask hi lo := by
    refine BitVec.eq_of_getLsbD_eq fun i hi' => ?_
    simp only [BitVec.getLsbD_and, getLsbD_fieldMask, BitVec.getLsbD_ofNat, wfield, field, Nat.testBit_shiftLeft,
      Nat.testBit_mod_two_pow, Nat.testBit_shiftRight, ge_iff_le]
    by_cases hlo : lo ≤ i <;> simp [hlo, hi', BitVec.getLsbD, Bool.and_comm]
  exact congrArg (x &&& ~~~fieldMask hi lo ||| ·) hv

theorem keep_eq_and (v : Word) (hi lo : Nat) : keep v hi lo = v &&& fieldMask hi lo := by
  rw [keep, setField_wfield]
  simp

theorem wfield_bit (v : Word) (i : Nat) : wfield v i i = (v.getLsbD i).toNat := by
  rw [BitVec.getLsbD, Nat.toNat_testBit, wfield, field, Nat.shiftRight_eq_div_pow, Nat.add_sub_cancel_left, pow_one]

theorem setBit_getLsbD (x v : Word) (i : Nat) :
    setBit x i (v.getLsbD i) = (x &&& ~~~fieldMask i i) ||| (v &&& fieldMask i i) := by
  rw [setBit, ← wfield_bit, setField_wfield]

theorem setField_zero (x : Word) (hi lo : Nat) : setField x hi lo 0 = x &&& ~~~fieldMask hi lo := by
  simp [setField, fieldMask]

/-- Two fields that take the bits of one word, one after the other, are both replaced. -/
theorem merge_merge (x v m n : Word) :
    (((x &&& ~~~m) ||| (v &&& m)) &&& ~~~n) ||| (v &&& n) = (x &&& ~~~(m ||| n)) ||| (v &&& (m ||| n)) := by
  ext i hi
  cases hn : n[i] <;> simp [hn]

theorem and_fieldMask_bit (v : Word) (i : Nat) : v &&& fieldMask i i = if v.getLsbD i then fieldMask i i else 0 := by
  have hmask (j : Nat) : (fieldMask i i).getLsbD j = true → j = i := by
    simp only [getLsbD_fieldMask, Bool.and_eq_true, decide_eq_true_eq]
    omega
  refine BitVec.eq_of_getLsbD_eq fun j _ => ?_
  rw [BitVec.getLsbD_and]
  cases hj : (fieldMask i i).getLsbD j with
  | true =>
    obtain rfl := hmask j hj
    cases hv : v.getLsbD j <;> simp [hj]
  | false => split <;> simp [hj]

/-- A W1C bit (R5): a 1 that is written clears it. -/
theorem clearBit_eq_and (x v : Word) (i : Nat) :
    (if v.getLsbD i then setBit x i false else x) = x &&& ~~~(v &&& fieldMask i i) := by
  have hclear : setBit x i false = x &&& ~~~fieldMask i i := setField_zero x i i
  rw [hclear, and_fieldMask_bit]
  split
  · rfl
  · exact (BitVec.and_allOnes (x := x)).symm

theorem wfield_low_two (x : Word) : wfield x 1 0 = (x.extractLsb' 0 2).toNat := by simp [wfield, field]

/-- `tdbg` as R406 stores it: the single-step mode 3, which it does not give, as 0. -/
theorem tdbg_write_eq (v : Word) :
    (if wfield (keep v 3 0) 1 0 = 3 then setField (keep v 3 0) 1 0 0 else keep v 3 0) =
      if v.extractLsb' 0 2 = 3 then fieldsOf v 0xC else fieldsOf v 0xF := by
  have hkeep : keep v 3 0 = v &&& 0xF := keep_eq_and v 3 0
  have hlow : (v &&& 0xF).extractLsb' 0 2 = v.extractLsb' 0 2 := by
    rw [BitVec.extractLsb'_and]
    exact BitVec.and_allOnes
  have hmode : wfield (keep v 3 0) 1 0 = 3 ↔ v.extractLsb' 0 2 = 3 := by
    rw [hkeep, wfield_low_two, hlow]
    exact BitVec.toNat_inj (y := 3#2)
  simp only [hmode]
  split
  · rw [setField_zero, hkeep, BitVec.and_assoc]
    rfl
  · exact hkeep

/-- `hstat` with its two writable fields replaced (Table 2-17). -/
theorem hstat_write_eq (x v : Word) :
    setBit (setField x 4 2 (wfield v 4 2)) 6 (v.getLsbD 6) = (x &&& ~~~0x5C#64) ||| (v &&& 0x5C) := by
  rw [setBit_getLsbD, setField_wfield]
  exact merge_merge x v _ _

/-! ## State numbers -/

/-- The number of a state word in Table 2-3. -/
def SWord.num : SWord → Nat
  | .vl => 0x000
  | .rc => 0x001
  | .vtype => 0x002
  | .lgs i => 0x004 + i
  | .cmv => 0x008
  | .ffs => 0x009
  | .brk => 0x00A
  | .vdirty => 0x00B
  | .resoff => 0x00C
  | .brkp => 0x00D
  | .slot i => 0x010 + i
  | .rkey => 0x020
  | .rpos => 0x021
  | .pstat => 0x030
  | .tvec => 0x040
  | .tcause => 0x041
  | .tepc => 0x042
  | .tprov => 0x043
  | .tval => 0x044
  | .tscratch => 0x045
  | .tdbg => 0x046
  | .twatch => 0x047
  | .hstat => 0x050
  | .gid => 0x051
  | .hid => 0x052
  | .tokbud => 0x060

/-- The table lists the steps of 4 lane groups, 16 slots, and every other word once. -/
def SWord.inTable : SWord → Prop
  | .lgs i => i < 4
  | .slot i => i < 16
  | _ => True

section
variable {n : Nat} {w : SWord}

/-- `SWord.ofNum` reads a number as the word that has it. -/
theorem SWord.num_of_ofNum (h : SWord.ofNum n = some w) : n = w.num ∧ w.inTable := by
  unfold SWord.ofNum at h
  split at h
  · cases h
    exact ⟨by simp only [SWord.num]; omega, by simp only [SWord.inTable]; omega⟩
  split at h
  · cases h
    exact ⟨by simp only [SWord.num]; omega, by simp only [SWord.inTable]; omega⟩
  split at h
  case h_25 => cases h
  all_goals
    cases h
    exact ⟨rfl, trivial⟩

theorem SWord.not_listed_of_ofNum (h : SWord.ofNum n = none) : ¬ listedNumber n := by
  unfold SWord.ofNum at h
  split at h
  · cases h
  split at h
  · cases h
  split at h
  case h_25 =>
    simp only [imp_false] at *
    unfold listedNumber kernelNumber
    omega
  all_goals cases h

theorem SWord.listed (hw : w.inTable) : listedNumber w.num := by
  unfold listedNumber kernelNumber
  cases w with
  | lgs i | slot i =>
    simp only [SWord.inTable, SWord.num] at *
    omega
  | _ => simp [SWord.num]

theorem SWord.kernel_iff (hw : w.inTable) : w.kernel = true ↔ kernelNumber w.num := by
  unfold kernelNumber
  cases w with
  | lgs i | slot i =>
    simp [SWord.inTable, SWord.num, SWord.kernel] at *
    omega
  | _ => simp [SWord.num, SWord.kernel]

theorem SWord.userWritable_iff (hw : w.inTable) : w.userWritable = true ↔ userNumber w.num := by
  unfold userNumber
  cases w with
  | lgs i | slot i =>
    simp [SWord.inTable, SWord.num, SWord.userWritable] at *
    omega
  | _ => simp [SWord.num, SWord.userWritable]

theorem SWord.waits_iff (hw : w.inTable) : w.waits = true ↔ waitingNumber w.num := by
  unfold waitingNumber
  cases w with
  | lgs i | slot i =>
    simp [SWord.inTable, SWord.num, SWord.waits] at *
    omega
  | _ => simp [SWord.num, SWord.waits]

theorem stateValue_slot (c : Core) {i : Nat} (h : i < 16) : stateValue c (0x010 + i) = some (c.o.getD i 0) := by
  interval_cases i <;> simp [stateValue, Vector.getD]

theorem stateValue_lgs (c : Core) {i : Nat} (h : i < 4) :
    stateValue c (0x004 + i) = some ((c.lgs.getD i 0).setWidth 64) := by
  interval_cases i <;> simp [stateValue, Vector.getD]

/-- What `MFS` reads is the line of Table 2-3. -/
theorem stateValue_num (c : Core) (hw : w.inTable) : stateValue c w.num = some (c.stateWord w) := by
  cases w with
  | lgs i => exact stateValue_lgs c hw
  | slot i => exact stateValue_slot c hw
  | _ => rfl

theorem mtsLeaves_slot (c : Core) (v : Word) {i : Nat} (h : i < 16) :
    mtsLeaves c (0x010 + i) v = { c with o := c.o.setIfInBounds i v } := by
  interval_cases i <;> rfl

theorem mtsLeaves_lgs (c : Core) (v : Word) {i : Nat} (h : i < 4) : mtsLeaves c (0x004 + i) v = c := by
  interval_cases i <;> rfl

/-- `vl` is reduced to the row maximum of Table 2-6 (R45). -/
theorem Core.clipVl_eq (c : Core) (v : Nat) :
    c.clipVl v = { c with vl := BitVec.ofNat 15 (min v (rowLimit c.vtype)) } := by
  rw [Core.clipVl, vtypeMax_eq_rowLimit]

@[simp] theorem Core.writeState_pc (c : Core) (w : SWord) (v : Word) : (c.writeState w v).pc = c.pc := by
  cases w with
  | cmv | ffs =>
    unfold Core.writeState
    dsimp only
    split <;> rfl
  | _ => rfl

theorem Core.writeState_cmv (c : Core) (v : Word) :
    c.writeState .cmv v = { c with cmv := c.cmv &&& ~~~(v &&& fieldMask 1 1) } := by
  rw [← clearBit_eq_and]
  exact (apply_ite (fun x : Word => ({ c with cmv := x } : Core)) (v.getLsbD 1 = true) _ _).symm

theorem Core.writeState_ffs (c : Core) (v : Word) :
    c.writeState .ffs v = { c with ffs := c.ffs &&& ~~~(v &&& fieldMask 23 23) } := by
  rw [← clearBit_eq_and]
  exact (apply_ite (fun x : Word => ({ c with ffs := x } : Core)) (v.getLsbD 23 = true) _ _).symm

/-- What `MTS` leaves is what the field maps of Tables 2-4 to 2-18 let it write. -/
theorem writeState_eq_mtsLeaves (c : Core) (v : Word) (hw : w.inTable) : c.writeState w v = mtsLeaves c w.num v := by
  cases w with
  | vl => exact congrArg Core.newEpoch (Core.clipVl_eq c v.toNat)
  | vtype => exact congrArg Core.newEpoch (Core.clipVl_eq { c with vtype := v.setWidth 16 } c.vl.toNat)
  | cmv => exact Core.writeState_cmv c v
  | ffs => exact Core.writeState_ffs c v
  | tvec => exact congrArg (fun x => { c with t := { c.t with tvec := x } }) (keep_eq_and v 54 2)
  | tcause => exact congrArg (fun x => { c with t := { c.t with tcause := x } }) (keep_eq_and v 11 0)
  | tepc => exact congrArg (fun x => { c with t := { c.t with tepc := x } }) (keep_eq_and v 54 2)
  | tdbg => exact congrArg (fun x => { c with t := { c.t with tdbg := x } }) (tdbg_write_eq v)
  | twatch => exact congrArg (fun x => { c with t := { c.t with twatch := x } }) (keep_eq_and v 60 0)
  | hstat => exact congrArg (fun x => { c with hstat := x }) (hstat_write_eq c.hstat v)
  | slot i => exact (mtsLeaves_slot c v hw).symm
  | lgs i => exact (mtsLeaves_lgs c v hw).symm
  | _ => rfl
end

/-- The state word of a listed number, with the access rules that the number has. -/
structure SWord.Names (w : SWord) (n : Nat) : Prop where
  ofNum : SWord.ofNum n = some w
  kernel : w.kernel = true ↔ kernelNumber n
  userWritable : w.userWritable = true ↔ userNumber n
  waits : w.waits = true ↔ waitingNumber n
  value : ∀ c, stateValue c n = some (c.stateWord w)
  write : ∀ (c : Core) v, c.writeState w v = mtsLeaves c n v

theorem SWord.names_of_ofNum {w : SWord} {n : Nat} (h : SWord.ofNum n = some w) : w.Names n := by
  obtain ⟨rfl, hw⟩ := SWord.num_of_ofNum h
  exact ⟨h, kernel_iff hw, userWritable_iff hw, waits_iff hw,
    (stateValue_num · hw), (writeState_eq_mtsLeaves · · hw)⟩

theorem SWord.exists_names {n : Nat} (h : listedNumber n) : ∃ w : SWord, w.Names n := by
  cases hn : SWord.ofNum n with
  | none => exact absurd h (not_listed_of_ofNum hn)
  | some w => exact ⟨w, names_of_ofNum hn⟩

theorem SWord.ofNum_of_not_listed {n : Nat} (h : ¬ listedNumber n) : SWord.ofNum n = none := by
  cases hn : SWord.ofNum n with
  | none => rfl
  | some w =>
    obtain ⟨rfl, hw⟩ := SWord.num_of_ofNum hn
    exact absurd (SWord.listed hw) h

theorem listed_of_kernel {n : Nat} (h : kernelNumber n) : listedNumber n := by
  unfold listedNumber
  simp only [h, true_or, or_true]

theorem listed_of_waiting {n : Nat} (h : waitingNumber n) : listedNumber n := by
  unfold waitingNumber at h
  unfold listedNumber
  omega

theorem not_kernel_of_waiting {n : Nat} (h : waitingNumber n) : ¬ kernelNumber n := by
  unfold waitingNumber at h
  unfold kernelNumber
  omega

/-! ## Reading and writing a state word -/

/-- A core with no word placed has no open convoy. -/
theorem Core.openConvoy_of_drained {c : Core} (h : c.drained = true) : c.openConvoy = [] := by
  simp only [Core.drained, Core.words, Bool.and_eq_true, List.isEmpty_iff, List.append_eq_nil_iff] at h
  obtain ⟨⟨⟨⟨hvec, -⟩, -⟩, -⟩, -⟩ := h
  rw [Core.openConvoy, hvec]
  rfl

theorem openStop_eq (s : State) (kind : Nat) :
    openStop s kind = genFault s 0x04 (BitVec.ofNat 64 (s.core.openConvoy.length * 65536 + kind * 256)) 0 := by
  simp [openStop, Nat.shiftLeft_eq]

theorem operandStop_number (s : State) (n : BitVec 12) :
    operandStop s n.toNat = genFault s 0x05 (BitVec.ofNat 64 (15 + n.toNat * 2 ^ 32)) 0 := by
  rw [operandStop, Nat.shiftLeft_eq, Nat.mod_eq_of_lt (by omega)]

section
variable {s : State} {n : BitVec 12} {d a : BitVec 5} {w : SWord}

theorem mfs_refused_iff (h : w.Names n.toNat) :
    (w.kernel && !s.core.kmode) = true ↔ kernelNumber n.toNat ∧ s.core.kmode = false := by
  simp [h.kernel]

theorem mts_refused_iff (h : w.Names n.toNat) :
    (!w.userWritable && !s.core.kmode) = true ↔ ¬ userNumber n.toNat ∧ s.core.kmode = false := by
  simp [← h.userWritable]

theorem meets_convoy_iff (h : w.Names n.toNat) :
    (w.waits && !s.core.openConvoy.isEmpty) = true ↔ waitingNumber n.toNat ∧ s.core.openConvoy ≠ [] := by
  simp [h.waits]

theorem meets_older_word_iff (h : w.Names n.toNat) :
    (w.waits && !s.core.drained) = true ↔ waitingNumber n.toNat ∧ s.core.drained = false := by
  simp [h.waits]

/-- `MFS` of a listed number (R201): privilege, then the open convoy, then the wait of R44. -/
theorem exec_mfs (h : w.Names n.toNat) : exec (.mfs d n) s =
    if w.kernel && !s.core.kmode then .next (privStop (.mfs d n) s)
    else if w.waits && !s.core.openConvoy.isEmpty then .next (openStop s 6)
    else if w.waits && !s.core.drained then .next s.stall
    else .next (s.wrote d (s.core.stateWord w)) := by
  show execMfs d n s = _
  rw [execMfs, h.ofNum, ← writeNext_eq_wrote]

/-- `MTS` of a listed number (R201, R202): privilege, then the wait of R44. -/
theorem exec_mts (h : w.Names n.toNat) : exec (.mts n a) s =
    if !w.userWritable && !s.core.kmode then .next (privStop (.mts n a) s)
    else if w.waits && !s.core.drained then .next s.stall
    else .next ({ s with core := mtsLeaves s.core n.toNat (s.operand a) }.movedTo (s.core.pc + 4)) := by
  show execMts n a s = _
  have hleft : (s.withCore fun c => c.writeState w (readS s a)).advance =
      { s with core := mtsLeaves s.core n.toNat (s.operand a) }.movedTo (s.core.pc + 4) := by
    rw [← h.write, ← Core.writeState_pc s.core w (s.operand a)]
    rfl
  rw [execMts, h.ofNum, ← hleft]
end

/-- Settles O20: a listed number names a word of the table, whose access rules decide between the arms of `execMfs` and
`execMts`. -/
theorem stateWordsAreReadAndWritten : Obligations.StateWordsAreReadAndWritten := by
  unfold Obligations.StateWordsAreReadAndWritten
  intro s n d a
  refine ⟨?mfs, ?mts, ?mfsRefused, ?mtsRefused, ?mfsConvoy, ?mfsWaits, ?mtsWaits, ?unlisted⟩
  case mfs =>
    intro hl hmode hdrained
    obtain ⟨w, h⟩ := SWord.exists_names hl
    refine ⟨_, h.value s.core, ?_⟩
    rw [exec_mfs h, if_neg, if_neg, if_neg]
    · simpa [meets_older_word_iff h] using hdrained
    · simpa [meets_convoy_iff h] using fun hn => Core.openConvoy_of_drained (hdrained hn)
    · simpa [mfs_refused_iff h] using hmode
  case mts =>
    intro hl hmode hdrained
    obtain ⟨w, h⟩ := SWord.exists_names hl
    rw [exec_mts h, if_neg, if_neg]
    · simpa [meets_older_word_iff h] using hdrained
    · simpa [mts_refused_iff h] using hmode
  case mfsRefused =>
    intro hk hmode
    obtain ⟨w, h⟩ := SWord.exists_names (listed_of_kernel hk)
    exact ⟨.mfs d n, rfl, (exec_mfs h).trans (if_pos ((mfs_refused_iff h).mpr ⟨hk, hmode⟩))⟩
  case mtsRefused =>
    intro hl hu hmode
    obtain ⟨w, h⟩ := SWord.exists_names hl
    exact ⟨.mts n a, rfl, (exec_mts h).trans (if_pos ((mts_refused_iff h).mpr ⟨hu, hmode⟩))⟩
  case mfsConvoy =>
    intro hn hopen
    obtain ⟨w, h⟩ := SWord.exists_names (listed_of_waiting hn)
    rw [exec_mfs h, if_neg, if_pos ((meets_convoy_iff h).mpr ⟨hn, hopen⟩), openStop_eq]
    simp [mfs_refused_iff h, not_kernel_of_waiting hn]
  case mfsWaits =>
    intro hn hopen hdrained
    obtain ⟨w, h⟩ := SWord.exists_names (listed_of_waiting hn)
    rw [exec_mfs h, if_neg, if_neg, if_pos ((meets_older_word_iff h).mpr ⟨hn, hdrained⟩)]
    · simp [hopen]
    · simp [mfs_refused_iff h, not_kernel_of_waiting hn]
  case mtsWaits =>
    intro hn hmode hdrained
    obtain ⟨w, h⟩ := SWord.exists_names (listed_of_waiting hn)
    rw [exec_mts h, if_neg, if_pos ((meets_older_word_iff h).mpr ⟨hn, hdrained⟩)]
    simpa [mts_refused_iff h] using hmode
  case unlisted =>
    intro hl
    have hnone := SWord.ofNum_of_not_listed hl
    constructor
    · show execMfs d n s = _
      rw [execMfs, hnone, ← operandStop_number]
    · show execMts n a s = _
      rw [execMts, hnone, ← operandStop_number]

end Sys2Proof.Machine

namespace Sys2Proof.Machine

/-! ## Bytes of memory -/

/-- A byte of a number that bytes spell. -/
theorem ofNat_ofBytes_div : ∀ (bs : List Byte) (i : Nat), i < bs.length →
    BitVec.ofNat 8 (ofBytes bs / 256 ^ i) = bs.getD i 0
  | b :: bs, 0, _ => by
    have hmod : (b.toNat + 256 * ofBytes bs) % 256 = b.toNat := by
      rw [Nat.add_mul_mod_self_left]
      exact Nat.mod_eq_of_lt b.isLt
    exact BitVec.eq_of_toNat_eq (by simpa [ofBytes, BitVec.toNat_ofNat] using hmod)
  | b :: bs, i + 1, h => by
    have hdiv : (b.toNat + 256 * ofBytes bs) / 256 = ofBytes bs := by
      rw [Nat.add_mul_div_left _ _ (by decide), Nat.div_eq_of_lt b.isLt, Nat.zero_add]
    rw [ofBytes, Nat.pow_succ', ← Nat.div_div_eq_div_mul, hdiv, List.getD_cons_succ]
    exact ofNat_ofBytes_div bs i (Nat.lt_of_succ_lt_succ h)

/-- A number that stands in memory is as if it had just been written there. -/
theorem storedAs_num (m : Memory) (a n : Nat) : StoredAs m m a n (m.num n a) := by
  intro x
  split
  · next h =>
    obtain ⟨hlo, hhi⟩ := h
    have hi : x - a < n := Nat.sub_lt_left_of_lt_add hlo hhi
    rw [Memory.num, ofNat_ofBytes_div _ _ (by rwa [Memory.read_length]), Memory.getD_read m n a _ hi,
      Nat.add_sub_cancel' hlo]
  · rfl

/-! ## The walk and its leaf (R94, R95) -/

/-- Bits [63:55] of an address are clear exactly below 2^55 (R90). -/
theorem field_top_eq_zero_iff (va : Word) : field va.toNat 63 55 = 0 ↔ va.toNat < 2 ^ 55 := by
  have := va.isLt
  rw [field, Nat.shiftRight_eq_div_pow]
  omega

/-- A valid entry of the first level that is well formed names a table of the second; where the entry there is a table
too, the third level holds the leaf. -/
theorem walk_third {m : Memory} {root va e1 e2 e3 : Nat}
    (h1 : e1 = m.num 8 (root + 8 * field va 54 42)) (v1 : eV e1 = true) (w1 : malformed e1 1 = false)
    (h2 : e2 = m.num 8 (eFrame e1 + 8 * field va 41 29)) (v2 : eV e2 = true) (l2 : eL e2 = false)
    (w2 : malformed e2 2 = false)
    (h3 : e3 = m.num 8 (eFrame e2 + 8 * field va 28 16)) (v3 : eV e3 = true) (w3 : malformed e3 3 = false) :
    walk m root va = some ⟨e3, eFrame e2 + 8 * field va 28 16, false⟩ := by
  simp [walk, ← h1, v1, w1, ← h2, v2, l2, w2, ← h3, v3, w3]

/-- What a leaf forbids: RD, WR, FX or, in U mode, US is missing. -/
theorem permits_eq_false {e : Nat} {k : Acc} {kmode : Bool}
    (h : k.reads = true ∧ e.testBit 4 = false ∨ k.writes = true ∧ e.testBit 5 = false ∨
      k = .fetch ∧ e.testBit 6 = false ∨ kmode = false ∧ e.testBit 7 = false) : permits e k kmode = false := by
  unfold permits
  rcases h with ⟨hk, he⟩ | ⟨hk, he⟩ | ⟨hk, he⟩ | ⟨hk, he⟩ <;> simp [hk, he]

/-- A leaf's entry with A set, and D by a write (R96). -/
theorem or_accessed (e : Nat) (k : Acc) :
    e ||| 0x100 ||| (if k.writes then 0x200 else 0) = e ||| (if k.writes then 0x300 else 0x100) := by
  rw [Nat.or_assoc]
  split <;> rfl

/-- All that an access changes of memory is its leaf (R96). -/
theorem State.mark_storedAs (s : State) (l : Leaf) (k : Acc) (hl : l.entry = s.dev.dram.num 8 l.at_) :
    ∃ m, s.mark l k = s.withDram m ∧ (s.dev.dram.wf = true →
      StoredAs s.dev.dram m l.at_ 8 (l.entry ||| (if k.writes then 0x300 else 0x100))) := by
  unfold State.mark
  rw [or_accessed]
  generalize l.entry ||| (if k.writes then 0x300 else 0x100) = e
  by_cases he : e = l.entry
  · refine ⟨s.dev.dram, if_pos he, fun _ => ?_⟩
    rw [he, hl]
    exact storedAs_num _ _ _
  · exact ⟨_, if_neg he, fun h => storedAs_setNum h _ _ _⟩

/-! ## The checks of an access (R90, R94) -/

section
variable {s : State} {g : Gang} {va : Word} {n : Nat} {k : Acc} {spec : Bool} {l : Leaf}

theorem State.leafOf_unmapped (h : walk s.dev.dram g.root va.toNat = none) :
    s.leafOf g va.toNat k = .error (.page false) := by
  unfold State.leafOf
  rw [h]

theorem State.leafOf_permitted (h : walk s.dev.dram g.root va.toNat = some l)
    (hp : permits l.entry k s.core.kmode = true) : s.leafOf g va.toNat k = .ok l := by
  unfold State.leafOf
  rw [h]
  exact if_pos hp

theorem State.leafOf_forbidden (h : walk s.dev.dram g.root va.toNat = some l)
    (hp : permits l.entry k s.core.kmode = false) : s.leafOf g va.toNat k = .error .perm := by
  unfold State.leafOf
  rw [h]
  exact if_neg (Bool.eq_false_iff.mp hp)

theorem probe_noAddr (h : 2 ^ 55 ≤ va.toNat) : probe s va n k spec = .error .noAddr :=
  if_pos (by simpa [field_top_eq_zero_iff] using h)

/-- An access that is not watched, and whose page no word past its fault point has found before, is decided by its leaf. -/
theorem probe_eq_leafOf (hva : va.toNat < 2 ^ 55) (hw : k = .fetch ∨ s.core.watched va.toNat n k = false)
    (hpin : s.pinned va.toNat k = none) (hg : s.gang = some g) :
    probe s va n k spec = (s.leafOf g va.toNat k).bind fun l => reach (s.mark l k) g l va.toNat k spec := by
  have hwatch : ¬(k != .fetch && s.core.watched va.toNat n k) = true := by
    rcases hw with h | h <;> simp [h]
  unfold probe
  dsimp only
  rw [if_neg (by simpa [field_top_eq_zero_iff] using hva), hg]
  dsimp only
  rw [hpin]
  dsimp only
  rw [if_neg hwatch]
  cases s.leafOf g va.toNat k <;> rfl

/-- A leaf of 64 KiB in device memory whose frame the context may use leads to the frame plus the page offset. -/
theorem reach_dram {a : Nat} (hbig : l.big = false) (hh : eH l.entry = false) (ha : eAttr l.entry < 2)
    (hm : s.dev.migrating.contains (g.ctx, a / 65536) = false)
    (ho : ownerCheck (s.dev.frameEntry (field l.entry 47 16)) g.ctx k.writes = none) :
    reach s g l a k false = .ok (.dram (field l.entry 47 16 * 65536 + a % 65536), eAttr l.entry, s) := by
  have hpa : eFrame l.entry + field a 15 0 = field l.entry 47 16 * 65536 + a % 65536 := rfl
  have hframe : (field l.entry 47 16 * 65536 + a % 65536) / 65536 = field l.entry 47 16 := by omega
  unfold reach
  simp only [Bool.false_and, Bool.false_eq_true, if_false, hh, hbig, hpa, hframe, Nat.ne_of_lt ha, hm, Bool.and_false, ho]

end

/-- Settles O9: `probe_eq_leafOf` leaves the answer to the leaf that the walk finds; a leaf that permits the access is marked
and leads to its frame. -/
theorem translationFindsThePage : Obligations.TranslationFindsThePage := by
  unfold Obligations.TranslationFindsThePage
  refine ⟨?found, fun s va n k spec => ⟨probe_noAddr, fun hva hw hpin g hg => ?refused⟩⟩
  case found =>
    intro s g va n k e1 e2 e3 hva hw hg hpin h1 v1 w1 h2 v2 l2 w2 h3 v3 w3 hh ha hperm hmig hown
    have hwalk := walk_third h1 v1 w1 h2 v2 l2 w2 h3 v3 w3
    obtain ⟨m, hmark, hstored⟩ := s.mark_storedAs ⟨e3, _, false⟩ k h3
    refine ⟨m, ?_, hstored⟩
    rw [probe_eq_leafOf hva hw hpin hg, State.leafOf_permitted hwalk hperm]
    show reach (s.mark _ k) g _ va.toNat k false = _
    rw [hmark]
    exact reach_dram rfl hh ha hmig hown
  case refused =>
    rw [probe_eq_leafOf hva hw hpin hg]
    refine ⟨fun hwalk => ?_, fun l hwalk hforbid => ?_⟩
    · rw [State.leafOf_unmapped hwalk]
      rfl
    · rw [State.leafOf_forbidden hwalk (permits_eq_false hforbid)]
      rfl

end Sys2Proof.Machine

namespace Sys2Proof.Machine

/-! ## Ranges of memory that are cleared or copied -/

/-- Leaving out bytes by their address leaves 0 there, and every other byte as it was. -/
theorem Memory.get_filter (p : Nat → Bool) : ∀ (m : Memory) (x : Nat),
    Memory.get (m.filter fun c => p c.1) x = if p x then m.get x else 0
  | [], x => by simp [Memory.get]
  | c :: m, x => by
    have ih := Memory.get_filter p m x
    by_cases hc : c.1 = x
    · cases hp : p x <;> simp [Memory.get, hc, hp, ih]
    · rw [List.filter_cons]
      split <;> simp [Memory.get, hc, ih]

theorem Memory.get_clear (m : Memory) (a n x : Nat) :
    (m.clear a n).get x = if a ≤ x ∧ x < a + n then 0 else m.get x := by
  rw [Memory.clear, Memory.get_filter fun x => decide (x < a ∨ a + n ≤ x)]
  by_cases h : a ≤ x ∧ x < a + n
  · rw [if_pos h, if_neg (by simpa using h)]
  · rw [if_neg h, if_pos (by simp; omega)]

/-- Listed bytes, from `a` on, set `b - a` further on: each stands there, and what they do not reach is as it was. -/
theorem Memory.get_foldl_set {a b : Nat} : ∀ {l : Memory} {lo : Nat}, a ≤ lo → Memory.okFrom lo l = true →
    ∀ {m : Memory}, m.wf = true → ∀ x : Nat,
    Memory.get (l.foldl (fun m c => Memory.set m (b + (c.1 - a)) c.2) m) x =
      if b ≤ x ∧ Memory.get l (a + (x - b)) ≠ 0 then Memory.get l (a + (x - b)) else m.get x
  | [], _, _, _, m, _, x => by simp [Memory.get]
  | c :: l, lo, ha, hl, m, hm, x => by
    simp only [Memory.okFrom, Bool.and_eq_true, decide_eq_true_eq] at hl
    obtain ⟨⟨hlo, hne⟩, hl⟩ := hl
    rw [List.foldl_cons, Memory.get_foldl_set (by omega) hl (Memory.wf_set hm _ _), Memory.get_set hm, Memory.get]
    by_cases hx : b ≤ x
    · by_cases hc : c.1 = a + (x - b)
      · have hback : x = b + (c.1 - a) := by omega
        have hrest : Memory.get l (a + (x - b)) = 0 := Memory.get_below (by omega) hl
        have hc0 : c.2 ≠ 0 := by simpa using hne
        rw [if_neg fun h => h.2 hrest, if_pos hback, if_pos hc, if_pos ⟨hx, hc0⟩]
      · rw [if_neg hc, if_neg (show ¬x = b + (c.1 - a) by omega)]
    · rw [if_neg fun h => hx h.1, if_neg (show ¬x = b + (c.1 - a) by omega), if_neg fun h => hx h.1]

/-- A canonical memory that lists nothing below `a` is canonical from `a` on. -/
theorem Memory.okFrom_of_le {lo a : Nat} : ∀ {m : Memory}, Memory.okFrom lo m = true → (∀ c ∈ m, a ≤ c.1) →
    Memory.okFrom a m = true
  | [], _, _ => rfl
  | c :: m, hm, ha => by
    simp only [Memory.okFrom, Bool.and_eq_true, decide_eq_true_eq] at hm ⊢
    exact ⟨⟨ha c List.mem_cons_self, hm.1.2⟩, hm.2⟩

/-- A copied range holds what its source held; every other byte is as it was. -/
theorem Memory.get_copyRange {src dst : Memory} (hs : src.wf = true) (hd : dst.wf = true) (a b n x : Nat) :
    (src.copyRange a dst b n).get x = if b ≤ x ∧ x < b + n then src.get (a + (x - b)) else dst.get x := by
  have hok : Memory.okFrom a (src.filter fun c => decide (a ≤ c.1 ∧ c.1 < a + n)) = true :=
    Memory.okFrom_of_le (Memory.wf_filter hs _) fun c hc => by
      have hin := (List.mem_filter.mp hc).2
      exact (decide_eq_true_eq.mp hin).1
  rw [Memory.copyRange, Memory.get_foldl_set (Nat.le_refl a) hok (Memory.wf_clear hd b n), Memory.get_clear,
    Memory.get_filter fun x => decide (a ≤ x ∧ x < a + n)]
  by_cases hx : b ≤ x ∧ x < b + n
  · have hin : decide (a ≤ a + (x - b) ∧ a + (x - b) < a + n) = true := decide_eq_true (by omega)
    rw [if_pos hin, if_pos hx, if_pos hx]
    by_cases h0 : src.get (a + (x - b)) = 0
    · rw [if_neg fun h => h.2 h0, h0]
    · rw [if_pos ⟨hx.1, h0⟩]
  · rw [if_neg hx, if_neg hx]
    refine if_neg fun ⟨hb, hne⟩ => hne (if_neg ?_)
    rw [decide_eq_true_eq]
    omega

/-! ## Translations that are given up (R97, R101) -/

/-- A state in which parked words have given up translations: the device and the array registers are as they were, and so
is a hart none of whose words is parked. -/
structure State.GaveUp (s t : State) : Prop where
  dev : t.dev = s.dev
  regs : t.core.v = s.core.v
  core : (∀ e ∈ s.core.words, e.parked = false) → t.core = s.core

theorem State.GaveUp.refl (s : State) : s.GaveUp s := ⟨rfl, rfl, fun _ => rfl⟩

theorem State.GaveUp.trans {s t u : State} (h : s.GaveUp t) (h' : t.GaveUp u) : s.GaveUp u where
  dev := h'.dev.trans h.dev
  regs := h'.regs.trans h.regs
  core := fun hp => (h'.core (by rwa [h.core hp])).trans (h.core hp)

theorem State.gaveUp_unpinIn (s : State) (ctx va n : Nat) : s.GaveUp (s.unpinIn ctx va n) := by
  unfold State.unpinIn
  extract_lets drop f
  refine ⟨rfl, ?regs, fun hp => ?core⟩
  case regs =>
    show (f s.core).v = s.core.v
    unfold f
    split <;> rfl
  case core =>
    have hdrop : ∀ l : List QEntry, (∀ e ∈ l, e ∈ s.core.words) → l.map drop = l := fun l hl =>
      (List.map_congr_left fun e he => if_neg (by simp [hp e (hl e he)])).trans l.map_id
    show f s.core = s.core
    unfold f
    split
    · rw [hdrop s.core.vec, hdrop s.core.mat, hdrop s.core.cpy, hdrop s.core.col]
      all_goals
        intro e he
        simp [Core.words, he]
    · rfl

theorem State.gaveUp_foldl_unpinIn (s : State) (l : List Nat) (va n : Nat) :
    s.GaveUp (l.foldl (fun s c => s.unpinIn c va n) s) :=
  List.foldlRecOn (motive := fun t => s.GaveUp t) l _ (State.GaveUp.refl s) fun t ht c _ => ht.trans (t.gaveUp_unpinIn c va n)

/-! ## Host pages (R100, R101, R409) -/

section
variable {s : State} {pasid vpage n : Nat}

/-- The page that the host has just made present is the one that is found. -/
theorem Device.bindHost_find (d : Device) (pasid page h : Nat) :
    (d.bindHost pasid page (some h)).hostPages.find? (fun p => p.1 == pasid && p.2.1 == page) = some (pasid, page, h) :=
  List.find?_cons_of_pos (by simp)

/-- The bound pages and kept translations that an answer of the host leaves: those of other addresses. -/
theorem mem_otherPages {pasid page : Nat} {q : Nat × Nat × Nat} {l : List (Nat × Nat × Nat)} :
    q ∈ l.filter (fun p => !(p.1 == pasid && p.2.1 == page)) ↔ q ∈ l ∧ (q.1, q.2.1) ≠ (pasid, page) := by
  simp [imp_iff_not_or]

/-- A batch that waits for a page which the host refuses is refused. -/
theorem State.priDenied_batches (hctx : (s.dev.ctx (s.ctxOf s.core)).map Ctx.pasid = some pasid) {b : Batch}
    (hb : b ∈ (s.priDenied pasid vpage).core.batches) (hseq : b.seq.isSome = true) {p : PageReq} (hp : p ∈ b.pages)
    (hhost : p.hp = true) (hpage : p.page = vpage) : b.refused = true := by
  unfold State.priDenied at hb
  simp only [hctx, if_true, List.mem_map] at hb
  obtain ⟨b', -, rfl⟩ := hb
  revert hseq hp
  split
  · exact fun _ _ => rfl
  · next hno => exact fun hseq hp => absurd (by simpa [hseq] using ⟨p, hp, hhost, hpage⟩) hno

/-- An invalidation of kept host translations completes once none of them is in use, and waits until then (R101). -/
theorem atsInvalidation_completes (h : ∀ c ∈ s.dev.ofPasid pasid, s.inUse c (vpage * 65536) (n * 65536) = false) :
    exec (.atsInvalidation pasid vpage n) s =
      .next (((s.dev.ofPasid pasid).foldl (fun s c => s.unpinIn c (vpage * 65536) (n * 65536)) s).withDev fun d =>
        { d with atc := d.atc.filter fun p => !(p.1 == pasid && decide (vpage ≤ p.2.1 ∧ p.2.1 < vpage + n)) }) :=
  if_neg (by simpa using h)

theorem atsInvalidation_waits (h : ∃ c ∈ s.dev.ofPasid pasid, s.inUse c (vpage * 65536) (n * 65536) = true) :
    exec (.atsInvalidation pasid vpage n) s = .next s.stall :=
  if_pos (List.any_eq_true.mpr h)

end

/-! ## Migration of a page (R102) -/

section
variable {s : State} {id page : Nat} {va : Word} {c : Ctx} {l : Leaf}

/-- What the second step of a migration makes of the device. -/
def Device.movedToHost (d : Device) (c : Ctx) (l : Leaf) (id vpage page : Nat) : Device :=
  let d' := d.pageToHost c l vpage page 65536
  { d' with migrating := d'.migrating.filter fun p => !([(id, vpage)].contains p) }

/-- A page of 64 KiB in device memory, not in use, migrates to the host in two steps. -/
theorem pageMigration_toHost (hc : s.dev.ctx id = some c) (hl : walk s.dev.dram (s.dev.rootOf c) va.toNat = some l)
    (hbig : l.big = false) (hh : eH l.entry = false) (ha : eAttr l.entry ≠ 2)
    (hu : s.inUse id (va.toNat / 65536 * 65536) 65536 = false) :
    exec (.pageMigration id va true page) s = .next
      (if s.dev.migrating.contains (id, va.toNat / 65536) then
        { s.unpinIn id (va.toNat / 65536 * 65536) 65536 with dev := s.dev.movedToHost c l id (va.toNat / 65536) page }
      else s.withDev fun d => { d with migrating := (id, va.toNat / 65536) :: d.migrating }) := by
  have hhere : va.toNat / 65536 * 65536 / 65536 = va.toNat / 65536 := Nat.mul_div_cancel _ (by decide)
  show execPageMigration id va true page s = _
  unfold execPageMigration
  rw [hc]
  dsimp only
  rw [hl]
  dsimp only
  simp only [hbig, hh, Bool.false_eq_true, if_false, hhere]
  rw [if_neg (by simpa using ha), if_neg (by simp), hu, if_neg (by simp)]
  cases s.dev.migrating.contains (id, va.toNat / 65536) <;> rfl

end

/-- An entry that names no frame. -/
theorem reframe_zero (e : Nat) : reframe e 0 = e - field e 47 16 * 65536 := by
  unfold reframe
  omega

section
variable (d : Device) (c : Ctx) (l : Leaf) (id vpage page : Nat)

theorem Device.movedToHost_host :
    (d.movedToHost c l id vpage page).host = d.dram.copyRange (eFrame l.entry) d.host (page * 65536) 65536 := rfl

/-- The leaf names no frame any more, and its H bit is set. -/
theorem Device.movedToHost_dram : (d.movedToHost c l id vpage page).dram =
    d.dram.setNum 8 l.at_ (l.entry - field l.entry 47 16 * 65536 + 2 ^ 63) := by
  rw [← reframe_zero, ← Nat.one_shiftLeft]
  rfl

theorem Device.movedToHost_hostPages :
    (d.movedToHost c l id vpage page).hostPages.find? (fun p => p.1 == c.pasid && p.2.1 == vpage) =
      some (c.pasid, vpage, page) :=
  Device.bindHost_find _ _ _ _

theorem Device.movedToHost_migrating : (d.movedToHost c l id vpage page).migrating.contains (id, vpage) = false := by
  simp [Device.movedToHost]

end

/-- Settles O36: `bindHost` says what the host's answer leaves, `GaveUp` what an invalidation leaves of a hart, and
`movedToHost` what a migration makes of the device. -/
theorem hostPagesAndMigration : Obligations.HostPagesAndMigration := by
  unfold Obligations.HostPagesAndMigration
  intro s pasid vpage hp
  refine ⟨?present, ?refused, fun n h => ?invalidated, fun n h => atsInvalidation_waits h,
    fun id va n => ⟨fun h => if_pos h, fun h => ?unmapped⟩, fun id va c l page hc hl hbig hh ha hu => ?migrated⟩
  case present =>
    refine ⟨_, rfl, rfl, rfl, Device.bindHost_find _ _ _ _, fun q hq => (mem_otherPages.mp hq).2, fun q hq hne => ?_⟩
    exact List.mem_cons_of_mem _ (mem_otherPages.mpr ⟨hq, hne⟩)
  case refused =>
    refine ⟨_, rfl, fun q hq => (mem_otherPages.mp hq).2, fun hctx b hb hseq p hp hhost hpage => ?_⟩
    exact State.priDenied_batches (s := s.withDev fun d => d.bindHost pasid vpage none) hctx hb hseq hp hhost hpage
  case invalidated =>
    obtain ⟨hdev, hregs, hcore⟩ := s.gaveUp_foldl_unpinIn (s.dev.ofPasid pasid) (vpage * 65536) (n * 65536)
    refine ⟨_, atsInvalidation_completes h, (congrArg Device.hostPages hdev :), hregs, hcore, fun q => ?_⟩
    rw [State.withDev_dev, hdev, List.mem_filter]
    simp
  case unmapped =>
    obtain ⟨hdev, hregs, hcore⟩ := s.gaveUp_unpinIn id va.toNat n
    exact ⟨_, if_neg (Bool.eq_false_iff.mp h), hdev, hregs, hcore⟩
  case migrated =>
    refine ⟨fun hfirst => ?_, fun hsecond hdram hhost => ?_⟩
    · rw [pageMigration_toHost hc hl hbig hh ha hu, if_neg (Bool.eq_false_iff.mp hfirst)]
      rfl
    · obtain ⟨-, hregs, hcore⟩ := s.gaveUp_unpinIn id (va.toNat / 65536 * 65536) 65536
      have hbyte := Memory.get_copyRange hdram hhost (eFrame l.entry) (page * 65536) 65536
      refine ⟨_, (pageMigration_toHost hc hl hbig hh ha hu).trans (congrArg Host.Outcome.next (if_pos hsecond)),
        fun i hi => ?_, fun a hne => ?_, ?_, Device.movedToHost_hostPages _ _ _ _ _ _,
        Device.movedToHost_migrating _ _ _ _ _ _, hregs, hcore⟩
      · rw [Device.movedToHost_host, hbyte, if_pos (by omega), Nat.add_sub_cancel_left]
      · rw [Device.movedToHost_host, hbyte, if_neg (by omega)]
      · rw [Device.movedToHost_dram]
        exact storedAs_setNum hdram _ _ _

end Sys2Proof.Machine

namespace Sys2Proof.Machine

/-! ## The frame ownership table (R115) -/

/-- The entry of every other frame is found as before. -/
theorem find?_setFrameEntry_other {f k : Nat} (h : k ≠ f) (e : Word) : ∀ l : List (Nat × Word),
    (setFrameEntry l f e).find? (fun p => p.1 == k) = l.find? fun p => p.1 == k
  | [] => by
    have hfk : ¬f = k := Ne.symm h
    unfold setFrameEntry
    split <;> simp [hfk]
  | p :: l => by
    have hfk : ¬f = k := Ne.symm h
    have ih := find?_setFrameEntry_other h e l
    unfold setFrameEntry
    split
    · split <;> simp [hfk]
    · split
      · next hp =>
        have hpk : ¬p.1 = k := fun hk => hfk (hp.trans hk)
        split <;> simp [hfk, hpk]
      · rw [List.find?_cons, List.find?_cons, ih]

/-- In a table by rising frame number the entry just written is found, unless it is the reset value, which is not listed. -/
theorem find?_setFrameEntry_same (f : Nat) (e : Word) : ∀ {l : List (Nat × Word)}, (l.map Prod.fst).Pairwise (· < ·) →
    (setFrameEntry l f e).find? (fun p => p.1 == f) = if e = 0x800000 then none else some (f, e)
  | [], _ => by
    unfold setFrameEntry
    split <;> simp
  | p :: l, h => by
    rw [List.map_cons, List.pairwise_cons] at h
    obtain ⟨hp, hl⟩ := h
    have habove : f ≤ p.1 → l.find? (fun q => q.1 == f) = none := fun hf =>
      List.find?_eq_none.mpr fun q hq => by
        have := hp q.1 (List.mem_map_of_mem hq)
        simp
        omega
    unfold setFrameEntry
    split
    · next hf =>
      have hne : ¬p.1 = f := Nat.ne_of_gt hf
      split <;> simp [hne, habove (Nat.le_of_lt hf)]
    · split
      · next hf => split <;> simp [habove (Nat.le_of_eq hf)]
      · next hne => rw [List.find?_cons_of_neg (by simpa using Ne.symm hne), find?_setFrameEntry_same f e hl]

theorem Device.frameEntry_putFrame_other (d : Device) {f k : Nat} (h : k ≠ f) (e : Word) :
    (d.putFrame f e).frameEntry k = d.frameEntry k := by
  unfold Device.frameEntry Device.putFrame
  dsimp only
  rw [find?_setFrameEntry_other h]

theorem Device.frameEntry_putFrame_same {d : Device} (h : (d.frames.map Prod.fst).Pairwise (· < ·)) (f : Nat) (e : Word) :
    (d.putFrame f e).frameEntry f = e := by
  unfold Device.frameEntry Device.putFrame
  dsimp only
  rw [find?_setFrameEntry_same f e h]
  by_cases he : e = 0x800000
  · rw [if_pos he]
    exact he.symm
  · rw [if_neg he]

/-! ## An ownership entry is written (R118, R414) -/

theorem and_not_of_and_eq_zero {x m : Word} (h : x &&& m = 0) : x &&& ~~~m = x := by
  refine BitVec.eq_of_getLsbD_eq fun i hi => ?_
  have hbit : (x &&& m).getLsbD i = false := by simp [h]
  simp only [BitVec.getLsbD_and, BitVec.getLsbD_not, hi, decide_true, Bool.true_and] at hbit ⊢
  cases hx : x.getLsbD i
  · rfl
  · simpa [hx] using hbit

/-- The measurements as a new entry of a frame leaves them: one that seals the frame enters its measurement under TAG. -/
def Device.sealEntered (d : Device) (f : Nat) (e : Word) : Device :=
  if entrySealed e && (!entrySealed (d.frameEntry f) || entryTag e != entryTag (d.frameEntry f)) then
    d.enterTag (entryTag e) (d.measure f)
  else d

theorem Device.sealEntered_frames (d : Device) (f : Nat) (e : Word) : (d.sealEntered f e).frames = d.frames := by
  unfold Device.sealEntered
  split <;> rfl

theorem Device.sealEntered_dram (d : Device) (f : Nat) (e : Word) : (d.sealEntered f e).dram = d.dram := by
  unfold Device.sealEntered
  split <;> rfl

theorem Device.sealEntered_tags {d : Device} {f : Nat} {e : Word} (he : entrySealed e = true)
    (hold : entrySealed (d.frameEntry f) = false) :
    (d.sealEntered f e).tags.find? (fun p => p.1 == entryTag e) = some (entryTag e, d.measure f) := by
  unfold Device.sealEntered
  rw [if_pos (by simp [he, hold])]
  exact List.find?_cons_of_pos (by simp)

/-- An entry is found by the table alone. -/
theorem Device.frameEntry_congr {d d' : Device} (h : d.frames = d'.frames) (f : Nat) : d.frameEntry f = d'.frameEntry f := by
  unfold Device.frameEntry
  rw [h]

section
variable {s : State} {f : Nat} {e : Word}

/-- An update that unseals nothing writes the entry, once the frame is not in use. -/
theorem frameTableUpdate_completes (hf : f < 8388608) (he : e &&& 0xFF000000 = 0)
    (hseal : entrySealed (s.dev.frameEntry f) = true → entrySealed e = true) (hu : s.frameInUse f = false) :
    exec (.frameTableUpdate f e) s = .next { s with
      dev := (s.dev.sealEntered f e).putFrame f e
      core := (s.core.unpinFrame f).purgeFrame f
      rest := s.rest.map fun c => (c.unpinFrame f).purgeFrame f } := by
  have hkeep : ¬(entrySealed (s.dev.frameEntry f) && !entrySealed e) = true := by
    cases ho : entrySealed (s.dev.frameEntry f)
    · simp
    · simp [hseal ho]
  have hbits : e &&& ~~~0xFF000000#64 = e := and_not_of_and_eq_zero he
  show execFrameTableUpdate f e s = _
  unfold execFrameTableUpdate
  rw [if_neg (Nat.not_le.mpr hf), hu, if_neg Bool.false_ne_true, hbits]
  dsimp only
  rw [if_neg hkeep]
  rfl

/-- It waits while an access that the old entry has let through is still to come. -/
theorem frameTableUpdate_waits (hf : f < 8388608) (hu : s.frameInUse f = true) :
    exec (.frameTableUpdate f e) s = .next s.stall :=
  (if_neg (Nat.not_le.mpr hf)).trans (if_pos hu)

end

/-- No kept line of the frame is left in a fetch cache. -/
theorem not_mem_purged {f : Nat} {l : List (Nat × BitVec 512)} : ∀ x ∈ l.filter (fun x => !lineInFrame f x.1), x.1 / 1024 ≠ f :=
  fun x hx => by simpa [lineInFrame] using (List.mem_filter.mp hx).2

/-! ## Host DMA (R116, R415) -/

section
variable {s : State} {vf id pa : Nat} {c : Ctx}

/-- A function that is not frozen may make an access to device memory for a context of its own. -/
theorem hostDma_allowed (hc : s.dev.ctx id = some c) (hcvf : c.vf = vf) (hfrozen : (s.dev.func vf).frozen = false)
    (hvf : vf < 384) (hboot : s.dev.boot.getLsbD 2 = false) {n : Nat} (hend : pa + n ≤ 2 ^ 39) :
    (s.dev.boot.getLsbD 2 || decide (Config.functions ≤ vf) || (s.dev.func vf).frozen ||
      decide (Config.dramBytes < pa + n) || (s.dev.ctx id).all fun c => c.vf != vf) = false := by
  have hfn : decide (Config.functions ≤ vf) = false := decide_eq_false (Nat.not_le.mpr hvf)
  have hdram : decide (Config.dramBytes < pa + n) = false := decide_eq_false (Nat.not_lt.mpr hend)
  rw [hboot, hfn, hfrozen, hdram, hc]
  simp [hcvf]

/-- Where nothing is poisoned the bytes read are those of memory. -/
theorem State.dmaRead_eq_read (h : s.dev.poison = []) (pa n : Nat) : s.dmaRead pa n = s.dev.dram.read n pa := by
  have hlen : (s.dmaRead pa n).length = n := by simp [State.dmaRead]
  refine List.ext_getElem (hlen.trans (Memory.read_length _ n pa).symm) fun i hi hi' => ?_
  have hbyte := Memory.getD_read s.dev.dram n pa i (hlen ▸ hi)
  rw [List.getD_eq_getElem _ _ hi'] at hbyte
  simp [State.dmaRead, h, hbyte]

/-- A write that every frame lets through, while no checkpoint is open. -/
theorem hostDma_writes (hc : s.dev.ctx id = some c) (hcvf : c.vf = vf) (hfrozen : (s.dev.func vf).frozen = false)
    (hvf : vf < 384) (hboot : s.dev.boot.getLsbD 2 = false) {bs : List Byte} (hbs : bs ≠ [])
    (hend : pa + bs.length ≤ 2 ^ 39) (hckpt : s.dev.ckptOpen = []) (hfree : s.dev.dmaFault id pa bs.length true = none) :
    exec (.hostDma vf id pa ⟨0, some bs⟩) s = .next (s.setBytes (.dram pa) bs).settlePoison := by
  have hlen : ¬bs.length = 0 := fun h => hbs (List.length_eq_zero_iff.mp h)
  show execHostDma vf id pa ⟨0, some bs⟩ s = _
  unfold execHostDma
  dsimp only [Option.map_some, Option.getD_some, Option.isSome_some]
  rw [if_neg hlen, hostDma_allowed hc hcvf hfrozen hvf hboot hend, if_neg Bool.false_ne_true, hfree]
  simp [hckpt]

/-- A read that every frame lets through. -/
theorem hostDma_reads (hc : s.dev.ctx id = some c) (hcvf : c.vf = vf) (hfrozen : (s.dev.func vf).frozen = false)
    (hvf : vf < 384) (hboot : s.dev.boot.getLsbD 2 = false) {n : Nat} (hn : n ≠ 0) (hend : pa + n ≤ 2 ^ 39)
    (hfree : s.dev.dmaFault id pa n false = none) :
    exec (.hostDma vf id pa ⟨n, none⟩) s = .next { s.post (.dmaData (s.dmaRead pa n)) with free := s.free + n } := by
  show execHostDma vf id pa ⟨n, none⟩ s = _
  unfold execHostDma
  dsimp only [Option.map_none, Option.getD_none, Option.isSome_none]
  rw [if_neg hn, hostDma_allowed hc hcvf hfrozen hvf hboot hend, if_neg Bool.false_ne_true, hfree]

/-- A read that a frame does not let through. -/
theorem hostDma_aborts (hc : s.dev.ctx id = some c) (hcvf : c.vf = vf) (hfrozen : (s.dev.func vf).frozen = false)
    (hvf : vf < 384) (hboot : s.dev.boot.getLsbD 2 = false) {n : Nat} (hn : n ≠ 0) (hend : pa + n ≤ 2 ^ 39)
    {x : Bool × Nat} (hfault : s.dev.dmaFault id pa n false = some x) :
    exec (.hostDma vf id pa ⟨n, none⟩) s = .next (s.dmaViolation vf id x.1 x.2) := by
  show execHostDma vf id pa ⟨n, none⟩ s = _
  unfold execHostDma
  dsimp only [Option.map_none, Option.getD_none, Option.isSome_none]
  rw [if_neg hn, hostDma_allowed hc hcvf hfrozen hvf hboot hend, if_neg Bool.false_ne_true, hfault]

end

/-! ### What an aborted access leaves -/

@[simp] theorem State.post_core (s : State) (x : Notice) : (s.post x).core = s.core := rfl
@[simp] theorem State.post_dram (s : State) (x : Notice) : (s.post x).dev.dram = s.dev.dram := rfl
@[simp] theorem State.post_boot (s : State) (x : Notice) : (s.post x).dev.boot = s.dev.boot := rfl
@[simp] theorem State.post_posted (s : State) (x : Notice) : (s.post x).dev.posted = s.dev.posted ++ [x] := rfl
@[simp] theorem State.deviceStamp_core (s : State) : s.deviceStamp.2.core = s.core := rfl
@[simp] theorem State.deviceStamp_dram (s : State) : s.deviceStamp.2.dev.dram = s.dev.dram := rfl
@[simp] theorem State.deviceStamp_boot (s : State) : s.deviceStamp.2.dev.boot = s.dev.boot := rfl

/-- An aborted access has told the host and the kernel (R415). -/
def State.dmaReported (s : State) (vf ctx : Nat) (sealed : Bool) (addr : Nat) : State :=
  (s.deviceStamp.2.post (.dmaAbort vf)).post
    (.engineError (masterRecord (if sealed then 0x0B else 0x0A) ctx (BitVec.ofNat 64 addr) s.deviceStamp.1))

/-- Then it freezes the function. -/
theorem State.dmaViolation_eq (s : State) (vf ctx : Nat) (sealed : Bool) (addr : Nat) :
    s.dmaViolation vf ctx sealed addr =
      (s.dmaReported vf ctx sealed addr).withDev fun d => d.updFunc vf fun f => { f with frozen := true } := rfl

theorem State.dmaReported_posted (s : State) (vf ctx : Nat) (sealed : Bool) (addr : Nat) :
    Notice.dmaAbort vf ∈ (s.dmaReported vf ctx sealed addr).dev.posted := by simp [State.dmaReported]

theorem State.dmaReported_core (s : State) (vf ctx : Nat) (sealed : Bool) (addr : Nat) :
    (s.dmaReported vf ctx sealed addr).core = s.core := by simp [State.dmaReported]

theorem State.dmaReported_dram (s : State) (vf ctx : Nat) (sealed : Bool) (addr : Nat) :
    (s.dmaReported vf ctx sealed addr).dev.dram = s.dev.dram := by simp [State.dmaReported]

theorem State.dmaReported_boot (s : State) (vf ctx : Nat) (sealed : Bool) (addr : Nat) :
    (s.dmaReported vf ctx sealed addr).dev.boot = s.dev.boot := by simp [State.dmaReported]

/-- A change of a function is one of the functions alone. -/
theorem Device.updFunc_frame (d : Device) (n : Nat) (f : Func → Func) :
    (d.updFunc n f).posted = d.posted ∧ (d.updFunc n f).dram = d.dram := by
  unfold Device.updFunc
  split <;> exact ⟨rfl, rfl⟩

/-- A poison that a write covers is cleared, and nothing but poison and the note of the ranges written changes. -/
theorem State.settlePoison_frame (s : State) : ∃ p h w q, s.settlePoison =
    { s with dev := { s.dev with poison := p, hostPoison := h }, core := { s.core with wrote := w, poison := q } } := by
  unfold State.settlePoison
  dsimp only
  split
  · exact ⟨s.dev.poison, s.dev.hostPoison, s.core.wrote, s.core.poison, rfl⟩
  · exact ⟨_, _, _, _, rfl⟩

theorem State.setBytes_dram_posted (s : State) (a : Nat) (bs : List Byte) :
    (s.setBytes (.dram a) bs).dev.posted = s.dev.posted := by
  rw [State.setBytes_dram]
  unfold State.noted
  split <;> rfl

/-- Settles O37: an update is `frameTableUpdate_completes`, whose table is read by `frameEntry_putFrame_same` and `_other`;
host DMA writes, reads or aborts by `dmaFault`. -/
theorem framesAndHostDma : Obligations.FramesAndHostDma := by
  unfold Obligations.FramesAndHostDma
  intro s
  refine ⟨fun f e hf he hseal hsorted hu => ?update, fun f e hf hu => frameTableUpdate_waits hf hu,
    fun vf id pa c hc hcvf hfrozen hvf hboot => ⟨fun bs hbs hend hckpt hwf hfree => ?write,
      fun n hn hend hfree hclean => ?read, fun n x hn hend hfault => ?abort⟩⟩
  case update =>
    have hframes := s.dev.sealEntered_frames f e
    refine ⟨_, frameTableUpdate_completes hf he hseal hu, ?_, fun k hk => ?_, s.dev.sealEntered_dram f e, not_mem_purged,
      not_mem_purged, Device.sealEntered_tags⟩
    · exact Device.frameEntry_putFrame_same (by rwa [hframes]) f e
    · exact (Device.frameEntry_putFrame_other _ hk e).trans (Device.frameEntry_congr hframes k)
  case write =>
    obtain ⟨p, h, w, q, hsettle⟩ := (s.setBytes (.dram pa) bs).settlePoison_frame
    obtain ⟨sp, w', hcore⟩ := s.setBytes_core (.dram pa) bs
    have hbyte := Memory.get_write bs hwf pa
    refine ⟨_, hostDma_writes hc hcvf hfrozen hvf hboot hbs hend hckpt hfree, ?_⟩
    rw [hsettle, State.setBytes_dram_mem, State.setBytes_dram_posted, hcore]
    refine ⟨rfl, fun a hlo hhi => ?_, fun a hout => ?_, rfl⟩
    · rw [hbyte, if_pos ⟨hlo, hhi⟩]
    · exact Memory.get_write_other hwf bs pa a hout
  case read =>
    refine ⟨_, hostDma_reads hc hcvf hfrozen hvf hboot hn hend hfree, ?_, rfl, rfl⟩
    rw [State.dmaRead_eq_read hclean]
    rfl
  case abort =>
    have hboot' : (s.dmaReported vf id x.1 x.2).dev.boot.getLsbD 2 = false := by rwa [State.dmaReported_boot]
    have hfunc := (s.dmaReported vf id x.1 x.2).dev.func_updFunc (fun f => { f with frozen := true }) rfl hvf hboot'
    obtain ⟨hposted, hdram⟩ := (s.dmaReported vf id x.1 x.2).dev.updFunc_frame vf fun f => { f with frozen := true }
    refine ⟨_, hostDma_aborts hc hcvf hfrozen hvf hboot hn hend hfault, ?_⟩
    rw [State.dmaViolation_eq, State.withDev_dev, hposted, hdram, State.withDev_core, hfunc]
    exact ⟨rfl, s.dmaReported_posted vf id x.1 x.2, s.dmaReported_dram vf id x.1 x.2, s.dmaReported_core vf id x.1 x.2⟩

end Sys2Proof.Machine

namespace Sys2Proof.Machine

/-! ## Requests of an L2 (R109 to R112)

Nothing in the statement keeps two cores of a state from having one number. `State.onCore` serves the core that makes the
request and gives the focus back by number, and so to whichever of the two it finds first. -/

/-- A context with one core in the cluster: its requests count there. -/
theorem State.l2Counted_single {s : State} {cl ctx : Nat} {c : Core}
    (h : (s.cores.filter fun c => c.placed && c.cluster == cl && s.ctxOf c == ctx) = [c]) (evs : List (Nat × Nat)) :
    s.l2Counted cl ctx evs =
      ({ s with free := s.free + 1 } : State).onCore c.num fun t => t.countEvents t.core.samplePair evs := by
  unfold State.l2Counted
  rw [h]
  dsimp only [List.length_singleton, List.map_cons, List.map_nil]
  rw [Nat.mod_one]
  rfl

/-- A core that can be found is served, and the focus returns to the number it had. -/
theorem State.onCore_found {s : State} {n : Nat} (h : (s.focus n).core.num = n) (f : State → State) :
    s.onCore n f = (f (s.focus n)).focus s.core.num := if_pos h

/-- A bank that counts no events of the hart in focus takes none. -/
theorem State.countEvents_off {s : State} (h : s.bankCounts (s.dev.bankOf s.core.num) = false) (p : Word × Word)
    (evs : List (Nat × Nat)) : s.countEvents p evs = s := if_pos (by rw [h, Bool.not_false])

/-- Core 0 has the focus, and another core of that number stands beside it, at pc 4. The placed core 1 of context 0 has
these tokens in cluster 0, and has used some. -/
def twins (tokens : Int) (used : Nat) : State :=
  { State.reset with
    rest := [{ Core.reset with pc := 4 }, { Core.reset with num := 1, placed := true }]
    dev := { Device.reset with buckets := [⟨0, 0, tokens, used, [], false⟩] } }

/-- The request of core 1 leaves the other core 0 in focus. -/
theorem l2Request_twins : ∃ t, exec (.l2Request 0 0) (twins 1 0) = .next t ∧ t.core.pc = 4 := by
  have hspends : exec (.l2Request 0 0) (twins 1 0) = .next ((twins 0 1).l2Counted 0 0 [(0x31, 1)]) := by rfl
  have hone : ((twins 0 1).cores.filter fun c => c.placed && c.cluster == 0 && (twins 0 1).ctxOf c == 0) =
      [{ Core.reset with num := 1, placed := true }] := by rfl
  refine ⟨_, hspends, ?_⟩
  rw [State.l2Counted_single hone, State.onCore_found rfl, State.countEvents_off rfl]
  rfl

/-- Refutes O34: a request of a context with tokens need not leave the hart in focus as it was. In `twins 1 0` core 1 makes the
request; afterwards the focus is on the core 0 at pc 4, where it was on the core 0 at pc 0. The statement lacks that the
numbers of the cores are distinct. -/
theorem not_bandwidthTokens : ¬ Obligations.BandwidthTokens := by
  unfold Obligations.BandwidthTokens
  intro h
  have hplaced : { Core.reset with num := 1, placed := true } ∈ (twins 1 0).cores :=
    List.mem_cons_of_mem _ (List.mem_cons_of_mem _ List.mem_cons_self)
  obtain ⟨-, hrequest, -⟩ := h (twins 1 0) 0 0 _ hplaced rfl rfl rfl
  obtain ⟨t, n, hnext, hcore, -⟩ := hrequest rfl (by decide)
  obtain ⟨t', hnext', hpc⟩ := l2Request_twins
  obtain rfl : t = t' := Host.Outcome.next.inj (hnext.symm.trans hnext')
  have hstays : t.core.pc = 0 := congrArg Core.pc hcore
  exact absurd (hstays.symm.trans hpc) (by decide)

end Sys2Proof.Machine

namespace Sys2Proof.Machine

/-! ## Watermarks and the barrier (R142, R203, R204) -/

/-- A scope at which an acquire drops what the fetch caches keep (R198). -/
def reachesCluster (sc : Scope) : Bool := sc != .hart && sc != .core

/-- The fetch caches dropped, when an acquire reaches them. -/
def State.droppedIf (s : State) (b : Bool) : State :=
  if b then { s with core := { s.core with icache := [], bcache := [] } } else s

theorem vector_getD_of_lt {α : Type} {n i : Nat} (x : Vector α n) (h : i < n) (d : α) : x.getD i d = x[i] :=
  (Array.getElem_eq_getD (h := by simpa using h) d).symm

section
variable {s : State} {g : Gang} {n v : Nat} {w : BitVec 3} {a : BitVec 5} {sc : Scope}

theorem State.discardFetched_eq (s : State) (sc : Scope) : s.discardFetched sc = s.droppedIf (reachesCluster sc) := by
  cases sc <;> rfl

theorem State.droppedIf_droppedIf (s : State) (b b' : Bool) : (s.droppedIf b).droppedIf b' = s.droppedIf (b' || b) := by
  cases b <;> cases b' <;> rfl

theorem State.droppedIf_advance (s : State) (b : Bool) : (s.droppedIf b).advance = (s.droppedIf b).movedTo (s.core.pc + 4) := by
  cases b <;> rfl

/-- A watermark that is no link stands in its own gang (R335). -/
theorem Device.wmHome_unlinked (d : Device) (h : g.linked n = false) : ∀ k, d.wmHome k g n = (g, n)
  | 0 => rfl
  | k + 1 => if_neg (by simp [h])

theorem Gang.unbound_eq_false (h : g.linked n = false) (publish : Bool) : g.unbound n publish = false := by
  simp [Gang.unbound, h]

/-- The rise that took a watermark to a value (R143). -/
def Gang.raiserOf (g : Gang) (w : BitVec 3) (v : Nat) : Option Raise :=
  if v = 0 then none else (g.raised[w.toNat]).reverse.find? fun r => decide (v ≤ r.value.toNat)

/-- What takes a watermark above `v - 1` takes it to `v`. -/
theorem Gang.raiseOver_pred (g : Gang) (w : BitVec 3) (hv : v ≠ 0) : g.raiseOver w.toNat (v - 1) = g.raiserOf w v := by
  have hp : (fun r : Raise => decide (v - 1 < r.value.toNat)) = fun r => decide (v ≤ r.value.toNat) :=
    funext fun r => by rw [decide_eq_decide]; omega
  rw [Gang.raiserOf, if_neg hv, Gang.raiseOver, hp, vector_getD_of_lt _ w.isLt]

/-- A hart that passes a watermark of its own gang acquires at the scope of the `WMPUB` that raised it (R143, R335). -/
theorem State.pastMark_unlinked (hg : s.gang = some g) (h : g.linked n = false) (hc : s.checksScope 1 = false)
    (pc prov : Word) :
    s.pastMark n v pc prov = s.droppedIf ((g.raiseOver n v).any fun r => reachesCluster r.scope) := by
  unfold State.pastMark
  rw [hg]
  dsimp only
  rw [Device.wmHome_unlinked _ h]
  dsimp only
  cases hr : g.raiseOver n v with
  | none => rfl
  | some r =>
    cases hl : g.raised.getD n [] with
    | nil => rw [Gang.raiseOver, hl] at hr; cases hr
    | cons x xs =>
      dsimp only
      have hc' : (s.droppedIf (reachesCluster r.scope)).checksScope 1 = false := by
        cases reachesCluster r.scope <;> exact hc
      rw [State.discardFetched_eq, hc']
      rfl

/-- `WMWAIT` goes on once the watermark has come to the value, and then acquires (R144). -/
theorem execWmwait_unlinked (hg : s.gang = some g) (h : g.linked w.toNat = false) (hc : s.checksScope 1 = false) :
    execWmwait w a sc s =
      if (s.operand a).toNat ≤ (g.w[w.toNat]).toNat then
        .next ((s.droppedIf (reachesCluster sc ||
          (g.raiserOf w (s.operand a).toNat).any fun r => reachesCluster r.scope)).movedTo (s.core.pc + 4))
      else .next s.stall := by
  have hval : s.dev.watermark g w.toNat = g.w[w.toNat] := by
    rw [Device.watermark, Device.wmHome_unlinked _ h]
    exact vector_getD_of_lt _ w.isLt 0
  have hpast : (if (s.operand a).toNat = 0 then s else
      s.pastMark w.toNat ((s.operand a).toNat - 1) s.core.pc nullProv) =
        s.droppedIf ((g.raiserOf w (s.operand a).toNat).any fun r => reachesCluster r.scope) := by
    split
    · next hv => rw [Gang.raiserOf, if_pos hv]; rfl
    · next hv => rw [State.pastMark_unlinked hg h hc, Gang.raiseOver_pred g w hv]
  unfold execWmwait
  rw [hg]
  dsimp only
  rw [if_neg (by rw [Gang.unbound_eq_false h]; exact Bool.false_ne_true), readS_eq_operand, hval, hpast,
    State.discardFetched_eq, State.droppedIf_droppedIf, State.droppedIf_advance]

/-- The hart has arrived in this phase already. -/
theorem State.hasArrived_iff (hg : s.gang = some g) : s.hasArrived = true ↔ ∃ p, s.core.barLast = some p ∧ g.phase ≤ p := by
  unfold State.hasArrived
  rw [hg]
  cases s.core.barLast <;> simp

end

/-- Settles O21: a watermark that is no link stands in the gang itself, and the barrier words ask whether the hart has arrived
and whether the gate is open. -/
theorem watermarkAndBarrierWords : Obligations.WatermarkAndBarrierWords := by
  unfold Obligations.WatermarkAndBarrierWords
  intro s g w a sc hg wide dropping v raiser arrivedIn waits
  have hwaits : s.hasArrived = true ↔ waits := State.hasArrived_iff hg
  have hfresh : ¬waits → s.hasArrived = false := fun h => Bool.eq_false_iff.mpr (mt hwaits.mp h)
  have harrive : s.arrive = arrivedIn s := by unfold State.arrive; rw [hg]; rfl
  refine ⟨fun h hgate => ?pub, fun h => ?pubLinked, fun h hc => execWmwait_unlinked hg h hc, fun h hpv => ?waitLinked,
    fun h hgate => ?arrive, fun h => ?arriveAgain, fun h hgate => ?wait, fun h => ?waitStall, fun hpc h => ?awGo,
    fun hpc h hgate => ?awArrive, fun h => ?awStall⟩
  case pub =>
    refine (if_neg ?_).trans (if_pos hgate)
    simp [hg, Gang.unbound_eq_false h]
  case pubLinked => exact if_pos (by simp [hg, Gang.unbound, h])
  case waitLinked =>
    show execWmwait w a sc s = _
    unfold execWmwait
    rw [hg]
    exact if_pos (by simp [Gang.unbound, h, hpv])
  case arrive =>
    rw [← harrive]
    exact if_neg (by simp [hfresh h, hgate])
  case arriveAgain => exact if_pos (by simp [hwaits.mpr h])
  case wait => exact if_neg (by simp [hfresh h, hgate])
  case waitStall =>
    refine if_pos ?_
    rcases h with h | h
    · simp [hwaits.mpr h]
    · simp [h]
  case awGo =>
    refine (if_pos (by simpa using hpc)).trans (if_neg (by simp [hfresh h]))
  case awArrive =>
    rw [← harrive]
    refine (if_neg (by simpa using hpc)).trans (if_neg (by simp [hfresh h, hgate]))
  case awStall =>
    by_cases hpc : s.core.barAw.contains s.core.pc = true
    · have hw : waits := h.resolve_right fun h => h.1 (by simpa using hpc)
      exact (if_pos hpc).trans (if_pos (hwaits.mpr hw))
    · refine (if_neg hpc).trans (if_pos ?_)
      rcases h with h | h
      · simp [hwaits.mpr h]
      · simp [h.2]

end Sys2Proof.Machine

namespace Sys2Proof.Machine

/-! ## Bits of memory -/

/-- A number written in memory, bit for bit. -/
theorem memBit_setNum {m : Memory} (h : m.wf = true) (n a v x : Nat) :
    memBit (m.setNum n a v) x = if 8 * a ≤ x ∧ x < 8 * a + 8 * n then v.testBit (x - 8 * a) else memBit m x := by
  unfold memBit
  rw [storedAs_setNum h a n v]
  by_cases hx : 8 * a ≤ x ∧ x < 8 * a + 8 * n
  · have hin : a ≤ x / 8 ∧ x / 8 < a + n := by omega
    have hbit : x % 8 + 8 * (x / 8 - a) = x - 8 * a := by omega
    have hpow : 256 ^ (x / 8 - a) = 2 ^ (8 * (x / 8 - a)) := (Nat.pow_mul 2 8 _).symm
    have h8 : x % 8 < 8 := Nat.mod_lt _ (by decide)
    rw [if_pos hin, if_pos hx, BitVec.getLsbD_ofNat, hpow, Nat.testBit_div_two_pow, hbit, decide_eq_true h8, Bool.true_and]
  · rw [if_neg (by omega), if_neg hx]

/-- A byte of memory as a number, bit for bit. -/
theorem testBit_num_one (m : Memory) (a j : Nat) (hj : j < 8) : (m.num 1 a).testBit j = memBit m (8 * a + j) := by
  have hbyte : m.num 1 a = (m.get a).toNat := by simp [Memory.num, Memory.read, ofBytes]
  have hdiv : (8 * a + j) / 8 = a := by omega
  have hmod : (8 * a + j) % 8 = j := by omega
  rw [hbyte, memBit, hdiv, hmod, BitVec.getLsbD]

/-- A byte with one nibble replaced (R128). -/
def withNibble (high : Bool) (b v : Nat) : Nat := if high then b % 16 + v % 16 * 16 else b / 16 * 16 + v % 16

theorem testBit_withNibble (high : Bool) (b v j : Nat) (hj : j < 8) : (withNibble high b v).testBit j =
    if (if high = true then 4 else 0) ≤ j ∧ j < (if high = true then 4 else 0) + 4 then
      v.testBit (j - if high = true then 4 else 0) else b.testBit j := by
  have hlow : ∀ x j, j < 4 → (x % 16).testBit j = x.testBit j := fun x j hj => by
    rw [show 16 = 2 ^ 4 from rfl, Nat.testBit_mod_two_pow, decide_eq_true hj, Bool.true_and]
  have hup : ∀ x : Nat, x % 16 < 2 ^ 4 := fun x => Nat.mod_lt _ (by decide)
  cases high with
  | true =>
    have hsum : withNibble true b v = 2 ^ 4 * (v % 16) + b % 16 := by simp only [withNibble, if_true]; omega
    rw [hsum, Nat.testBit_two_pow_mul_add _ (hup b)]
    by_cases h4 : j < 4
    · rw [if_pos h4, hlow _ _ h4, if_neg (by simp; omega)]
    · rw [if_neg h4, hlow _ _ (by omega), if_pos (by simp; omega)]
      rfl
  | false =>
    have hsum : withNibble false b v = 2 ^ 4 * (b / 16) + v % 16 := by simp only [withNibble, Bool.false_eq_true, if_false]; omega
    rw [hsum, Nat.testBit_two_pow_mul_add _ (hup v)]
    by_cases h4 : j < 4
    · rw [if_pos h4, hlow _ _ h4, if_pos (by simp; omega)]
      simp
    · rw [if_neg h4, if_neg (by simp; omega), show 16 = 2 ^ 4 from rfl, Nat.testBit_div_two_pow,
        Nat.sub_add_cancel (Nat.le_of_not_lt h4)]

/-! ## The memories of the machine -/

@[simp] theorem State.withMemory_dram (s : State) (d h p : Memory) : (s.withMemory d h p).dev.dram = d := rfl
@[simp] theorem State.withMemory_host (s : State) (d h p : Memory) : (s.withMemory d h p).dev.host = h := rfl
@[simp] theorem State.withMemory_spad (s : State) (d h p : Memory) : (s.withMemory d h p).core.spad = p := rfl

/-- The memories that bytes can be written to are in canonical form. -/
structure State.MemoriesWf (s : State) : Prop where
  dram : s.dev.dram.wf = true
  host : s.dev.host.wf = true
  spad : s.core.spad.wf = true

/-- `t` is `s` with other memories, in canonical form. -/
structure State.Remembers (s t : State) : Prop where
  same : t = s.withMemory t.dev.dram t.dev.host t.core.spad
  wf : t.MemoriesWf

/-- The bits from `b` on of memory `k` spell `v`, and every other bit of the memories is as it was. -/
def SetsBits (s t : State) (k b w v : Nat) : Prop :=
  ∀ j x, j < 3 → memBit (memOf t j) x = if j = k ∧ b ≤ x ∧ x < b + w then v.testBit (x - b) else memBit (memOf s j) x

section
variable {s t u : State} {p : Place} {k a n w v : Nat} {high : Bool}

theorem State.Remembers.refl (h : s.MemoriesWf) : s.Remembers s := ⟨rfl, h⟩

theorem State.Remembers.trans (h : s.Remembers t) (h' : t.Remembers u) : s.Remembers u := by
  refine ⟨?_, h'.wf⟩
  have hu := h'.same
  rw [h.same] at hu
  exact hu

theorem State.Remembers.anyPoison (h : s.Remembers t) : t.anyPoison = s.anyPoison := by
  rw [h.same]
  rfl

/-- A number written at a place of a memory, where nothing is spoiled. -/
theorem writePlace_setsBits (hs : s.MemoriesWf) (hp : s.anyPoison = false) (hplace : whereIs p = some (k, a)) :
    s.Remembers (s.writePlace p n v) ∧ SetsBits s (s.writePlace p n v) k (8 * a) (8 * n) v := by
  cases p with
  | dram a =>
    cases hplace
    have hset : s.writePlace (.dram a) n v = s.withMemory (s.dev.dram.setNum n a v) s.dev.host s.core.spad := by
      unfold State.writePlace State.setBytes
      rw [hp]
      rfl
    rw [hset]
    refine ⟨⟨rfl, Memory.wf_setNum hs.dram _ _ _, hs.host, hs.spad⟩, fun j x hj => ?_⟩
    interval_cases j
    · simpa [memOf] using memBit_setNum hs.dram n a v x
    · simp [memOf]
    · simp [memOf]
  | host a =>
    cases hplace
    have hset : s.writePlace (.host a) n v = s.withMemory s.dev.dram (s.dev.host.setNum n a v) s.core.spad := by
      unfold State.writePlace State.setBytes
      rw [hp]
      rfl
    rw [hset]
    refine ⟨⟨rfl, hs.dram, Memory.wf_setNum hs.host _ _ _, hs.spad⟩, fun j x hj => ?_⟩
    interval_cases j
    · simp [memOf]
    · simpa [memOf] using memBit_setNum hs.host n a v x
    · simp [memOf]
  | spad a =>
    cases hplace
    have hset : s.writePlace (.spad a) n v = s.withMemory s.dev.dram s.dev.host (s.core.spad.setNum n a v) := by
      unfold State.writePlace State.setBytes
      rw [hp]
      rfl
    rw [hset]
    refine ⟨⟨rfl, hs.dram, hs.host, Memory.wf_setNum hs.spad _ _ _⟩, fun j x hj => ?_⟩
    interval_cases j
    · simp [memOf]
    · simp [memOf]
    · simpa [memOf] using memBit_setNum hs.spad n a v x
  | reg x => cases hplace

/-- A byte read at a place of a memory, bit for bit. -/
theorem testBit_readPlace (hplace : whereIs p = some (k, a)) {j : Nat} (hj : j < 8) :
    (s.readPlace p 1).testBit j = memBit (memOf s k) (8 * a + j) := by
  cases p with
  | dram x => cases hplace; exact testBit_num_one _ _ _ hj
  | host x => cases hplace; exact testBit_num_one _ _ _ hj
  | spad x => cases hplace; exact testBit_num_one _ _ _ hj
  | reg x => cases hplace

theorem whereIs_lt (hplace : whereIs p = some (k, a)) : k < 3 := by
  cases p <;> cases hplace <;> decide

/-- Widths of the elements that stand in memory (R52, R128). -/
def elemWidth (w : Nat) : Prop := w = 4 ∨ ∃ n, 0 < n ∧ w = 8 * n

/-- AN ELEMENT WRITTEN AT ITS PLACE changes its own bits and no other (R128, R250). -/
theorem elemWrite_setsBits (hs : s.MemoriesWf) (hp : s.anyPoison = false) (hw : elemWidth w)
    (hplace : whereIs p = some (k, a)) : s.Remembers (elemWrite s w high p v) ∧
      SetsBits s (elemWrite s w high p v) k (8 * a + if w = 4 ∧ high = true then 4 else 0) w v := by
  by_cases h4 : w = 4
  · subst h4
    obtain ⟨hrem, hbits⟩ := writePlace_setsBits (n := 1) (v := withNibble high (s.readPlace p 1) v) hs hp hplace
    have hw : elemWrite s 4 high p v = s.writePlace p 1 (withNibble high (s.readPlace p 1) v) := if_pos rfl
    rw [hw]
    refine ⟨hrem, fun j x hj => ?_⟩
    rw [hbits j x hj]
    by_cases hin : j = k ∧ 8 * a ≤ x ∧ x < 8 * a + 8 * 1
    · obtain ⟨rfl, hlo, hhi⟩ := hin
      have hx : 8 * a + (x - 8 * a) = x := by omega
      rw [if_pos ⟨rfl, hlo, hhi⟩, testBit_withNibble _ _ _ _ (by omega), testBit_readPlace hplace (by omega), hx]
      cases high
      · simp only [Bool.false_eq_true, if_false, and_false, true_and, Nat.add_zero, Nat.sub_zero]
        exact if_congr (by omega) rfl rfl
      · simp only [if_true, and_self, true_and, Nat.sub_sub]
        exact if_congr (by omega) rfl rfl
    · rw [if_neg hin, if_neg]
      cases high <;> simp <;> omega
  · obtain ⟨n, hn, rfl⟩ := hw.resolve_left h4
    obtain ⟨hrem, hbits⟩ := writePlace_setsBits (n := n) (v := v % 2 ^ (8 * n)) hs hp hplace
    have hw : elemWrite s (8 * n) high p v = s.writePlace p n (v % 2 ^ (8 * n)) := by
      rw [elemWrite, if_neg h4, Nat.mul_div_cancel_left _ (by decide)]
    rw [hw, if_neg (fun h => h4 h.1), Nat.add_zero]
    refine ⟨hrem, fun j x hj => ?_⟩
    rw [hbits j x hj]
    by_cases hin : j = k ∧ 8 * a ≤ x ∧ x < 8 * a + 8 * n
    · rw [if_pos hin, if_pos hin, Nat.testBit_mod_two_pow, decide_eq_true (by omega), Bool.true_and]
    · rw [if_neg hin, if_neg hin]

/-! ## Elements written in turn -/

/-- Held elements written at their places, in turn. -/
def writeHeld (hs : List Held) (s : State) : State := hs.foldl (fun s h => elemWrite s h.bits h.high h.place h.val) s

theorem heldSized.width {h : Held} (hh : heldSized h) : elemWidth h.bits := by
  obtain ⟨hb, -⟩ := hh
  simp only [List.mem_cons, List.not_mem_nil, or_false] at hb
  rcases hb with hb | hb | hb | hb | hb
  · exact .inl hb
  · exact .inr ⟨1, by decide, hb⟩
  · exact .inr ⟨2, by decide, hb⟩
  · exact .inr ⟨4, by decide, hb⟩
  · exact .inr ⟨8, by decide, hb⟩

/-- One held element, in its bits of memory. -/
theorem heldSized.setsBits {h : Held} (hh : heldSized h) (hs : s.MemoriesWf) (hp : s.anyPoison = false) :
    ∃ k b, h.span = some (k, b) ∧ k < 3 ∧ s.Remembers (elemWrite s h.bits h.high h.place h.val) ∧
      SetsBits s (elemWrite s h.bits h.high h.place h.val) k b h.bits h.val := by
  obtain ⟨⟨k, a⟩, hplace⟩ : ∃ x, whereIs h.place = some x := by
    simpa [Held.span, Option.isSome_iff_exists] using hh.2
  refine ⟨k, _, by rw [Held.span, hplace]; rfl, whereIs_lt hplace, elemWrite_setsBits hs hp hh.width hplace⟩

/-- Held elements that share no bit, written in turn, each stand at their place, and no other bit has changed (R146). -/
theorem writeHeld_performed : ∀ {hs : List Held} {s : State}, s.MemoriesWf → s.anyPoison = false →
    (∀ h ∈ hs, heldSized h) → heldApart hs → s.Remembers (writeHeld hs s) ∧ Performed s (writeHeld hs s) hs
  | [], s, hs, _, _, _ => ⟨.refl hs, by simp, fun _ _ _ _ => rfl⟩
  | h :: l, s, hs, hp, hsized, hapart => by
    obtain ⟨hfirst, hrest⟩ := List.pairwise_cons.mp hapart
    obtain ⟨k, b, hspan, hk, hrem, hbits⟩ := (hsized h List.mem_cons_self).setsBits hs hp
    obtain ⟨hrem', hdone, hkept⟩ := writeHeld_performed hrem.wf (hrem.anyPoison.trans hp)
      (fun x hx => hsized x (List.mem_cons_of_mem _ hx)) hrest
    refine ⟨hrem.trans hrem', fun x hx k' b' hspan' j hj => ?_, fun k' x hk' hfree => ?_⟩
    · rcases List.mem_cons.mp hx with rfl | hx
      · obtain ⟨rfl, rfl⟩ := Prod.mk.inj (Option.some.inj (hspan'.symm.trans hspan))
        have hfree : ∀ y ∈ l, ∀ d, y.span = some (k', d) → b' + j < d ∨ d + y.bits ≤ b' + j := fun y hy d hd => by
          rcases hfirst y hy k' b' d hspan' hd with h | h <;> omega
        have hset := hbits k' (b' + j) hk
        rw [if_pos ⟨rfl, by omega, by omega⟩, Nat.add_sub_cancel_left] at hset
        exact (hkept k' (b' + j) hk hfree).trans hset
      · exact hdone x hx k' b' hspan' j hj
    · have hset := hbits k' x hk'
      rw [if_neg] at hset
      · exact (hkept k' x hk' fun y hy => hfree y (List.mem_cons_of_mem _ hy)).trans hset
      · rintro ⟨rfl, hlo, hhi⟩
        rcases hfree h List.mem_cons_self b hspan with h | h <;> omega

end
end Sys2Proof.Machine

namespace Sys2Proof.Machine

/-! ## The elements of a memory word -/

/-- An active element stands within the rows and the length of its word. -/
theorem Core.mem_activePairs {c : Core} {m : Bool} {p : Nat × Nat} (h : p ∈ c.activePairs m) :
    p.1 < c.rows ∧ p.2 < c.vlen := by
  simp only [Core.activePairs, List.mem_flatMap, List.mem_map, List.mem_range] at h
  obtain ⟨r, hr, e, he, rfl⟩ := h
  exact ⟨hr, List.mem_range.mp (List.mem_filter.mp he).1⟩

/-- The elements of a word depend on a run only in whether it performs them. -/
theorem Core.targets_congr {c : Core} {o : MemArgs} {indexed : Bool} {r : Shape} {run left : Nat → Nat → Bool}
    (h : ∀ p ∈ c.activePairs o.m, run p.1 p.2 = left p.1 p.2) : c.targets o indexed r run = c.targets o indexed r left :=
  List.map_congr_left fun p hp => by rw [h p hp]

/-- An element of a word, and where it stands in the tile. -/
theorem Core.mem_targets {c : Core} {o : MemArgs} {indexed : Bool} {r : Shape} {run : Nat → Nat → Bool} {el : Elem}
    (h : el ∈ c.targets o indexed r run) :
    el.row < c.rows ∧ el.e < c.vlen ∧ (shapeEt r ≠ .f4 → el.high = false) := by
  obtain ⟨p, hp, rfl⟩ := List.mem_map.mp h
  obtain ⟨hrow, he⟩ := Core.mem_activePairs hp
  cases indexed with
  | true =>
    by_cases hf : shapeEt r = .f4
    · simp [hf, hrow, he]
    · simp [hf, hrow, he]
  | false =>
    refine ⟨hrow, he, fun hf => ?_⟩
    have hlow : ∀ l, (streamAddr r l).2 = false := fun l => by rw [streamAddr, if_neg hf]
    exact hlow _

/-- What a whole run performs are the elements that have not retired yet (R252). -/
theorem inRun_eq_stepLeft {c : Core} {gran : Gran} (hends : ∀ g, g < 4 → 512 ≤ c.hi.getD g 0)
    (hcm : gran = .mask → c.ownsCM = false) {w row e : Nat} (h : stepOf w row e < 512) :
    c.inRun gran w row e = stepLeft c w row e := by
  have hlg : laneGroup w e < 4 := by unfold laneGroup; omega
  have hmask : ¬(decide (gran = .mask) && c.ownsCM) = true := by
    by_cases hg : gran = .mask
    · simp [hcm hg]
    · simp [hg]
  have hhi := hends _ hlg
  unfold Core.inRun
  dsimp only
  rw [if_neg hmask, decide_eq_true (show stepOf w row e < c.hi.getD (laneGroup w e) 0 by omega), Bool.true_and]
  rfl

/-- The elements that a run by steps, or one that `CM` tracks, makes of a word that fits its rows. -/
theorem Core.targets_whole {c : Core} {o : MemArgs} {indexed : Bool} {gran : Gran} (hrow : gran ≠ .row)
    (hends : ∀ g, g < 4 → 512 ≤ c.hi.getD g 0) (hcm : gran = .mask → c.ownsCM = false) (hrc : c.run.rc.toNat ≤ 16)
    (hvl : c.run.vl.toNat ≤ 16384 / o.et.width) :
    c.targets o indexed (c.shapeOf o) (c.memRun gran o.et.width) = elementsOf c o indexed (stepLeft c o.et.width) := by
  refine Core.targets_congr fun p hp => ?_
  obtain ⟨hr, he⟩ := Core.mem_activePairs hp
  rw [Core.memRun, if_neg hrow]
  exact inRun_eq_stepLeft hends hcm
    (stepOf_lt (Nat.lt_of_lt_of_le hr hrc) (Nat.lt_of_lt_of_le he hvl) (rowMax_mul_width _) (EType.width_pos _))

/-! ## Checks of elements that stand (R390) -/

/-- An element with its place. -/
def atPlace (pl : Elem → Place) (el : Elem) : Elem × Place := (el, pl el)

section
variable {s : State} {o : MemArgs} {k : Acc} {pl : Elem → Place} {mode : Suppress} {bad : Elem → Bool} {els : List Elem}

/-- The access of an element that stands is let through, and changes nothing. -/
theorem Stand.access (h : Stand s o k els pl) {el : Elem} (hel : el ∈ els) (spec : Bool) :
    ∃ attr, (if shapeSp (s.core.shapeOf o) then .ok (.spad el.addr.toNat, 0, s)
      else probeFor s (.word s.core.run.rank) el.addr (elemBytes o.et) k spec) =
        (.ok (pl el, attr, s) : Except Fail (Place × Nat × State)) := by
  obtain ⟨-, hplace⟩ := h el hel
  by_cases hsp : shapeSp (s.core.shapeOf o) = true
  · rw [if_pos hsp] at hplace ⊢
    exact ⟨0, by rw [hplace]⟩
  · rw [if_neg hsp] at hplace ⊢
    obtain ⟨href, m, a, -, -, -, hprobe⟩ := hplace
    obtain ⟨attr, hattr⟩ := hprobe spec
    exact ⟨attr, (if_neg (by rw [href, Bool.and_false]; exact Bool.false_ne_true)).trans hattr⟩

/-- A run that performs an element which stands finds it at its place; one that does not leaves it out. -/
theorem checkElem_stand (hstand : Stand s o k (doneOf els) pl) (hmode : mode ≠ .later) (hwhole : s.core.mode = .whole)
    (hbad : ∀ el, bad el = false) (hread : ∀ p n, (k.reads && s.spoiledAt p n) = false) {el : Elem} (hel : el ∈ els)
    (w first : Nat) {x : Checked} (hx : x.cut = false) :
    checkElem (.word s.core.run.rank) k (elemBytes o.et) w (shapeSp (s.core.shapeOf o)) mode bad first (x, s) el =
      ({ x with go := x.go ++ (doneOf [el]).map (atPlace pl) }, s) := by
  have hcheck : (s.core.mode == .check) = false := by rw [hwhole]; rfl
  obtain ⟨go, zero, supp, fails, cut, spoiled⟩ := x
  obtain rfl : cut = false := hx
  cases hon : el.on with
  | false => cases mode <;> simp_all [checkElem, doneOf]
  | true =>
    have hfound := hstand.access (List.mem_filter.mpr ⟨hel, hon⟩)
    unfold checkElem
    cases mode with
    | plain =>
      obtain ⟨attr, hattr⟩ := hfound false
      simp [hattr, hon, hcheck, doneOf, atPlace]
    | later => exact absurd rfl hmode
    | all =>
      obtain ⟨attr, hattr⟩ := hfound true
      simp [hattr, hon, hcheck, hbad, hread, doneOf, atPlace]

/-- The checks of a word all of whose elements stand find their places and nothing else. -/
theorem checkElems_stand (hstand : Stand s o k (doneOf els) pl) (hmode : mode ≠ .later) (hwhole : s.core.mode = .whole)
    (hbad : ∀ el, bad el = false) (hread : ∀ p n, (k.reads && s.spoiledAt p n) = false) (w : Nat) :
    checkElems (.word s.core.run.rank) k (elemBytes o.et) w (shapeSp (s.core.shapeOf o)) mode bad els s =
      .ok (⟨(doneOf els).map (atPlace pl), [], [], Fails.none, false, []⟩, s) := by
  have hfold : ∀ (first : Nat) (l : List Elem) (x : Checked), (∀ el ∈ l, el ∈ els) → x.cut = false →
      l.foldl (checkElem (.word s.core.run.rank) k (elemBytes o.et) w (shapeSp (s.core.shapeOf o)) mode bad first) (x, s) =
        ({ x with go := x.go ++ (doneOf l).map (atPlace pl) }, s) := by
    intro first l
    induction l with
    | nil => intro x _ _; simp [doneOf]
    | cons el l ih =>
      intro x hl hx
      rw [List.foldl_cons, checkElem_stand hstand hmode hwhole hbad hread (hl el List.mem_cons_self) w first hx]
      refine (ih { x with go := x.go ++ (doneOf [el]).map (atPlace pl) } (fun y hy => hl y (List.mem_cons_of_mem _ hy)) hx).trans ?_
      simp only [doneOf, List.append_assoc, ← List.map_append, ← List.filter_append, List.singleton_append]
  unfold checkElems
  dsimp only
  rw [hfold _ els _ (fun _ h => h) rfl]
  rfl

/-- Elements that stand are aligned. -/
theorem Stand.aligned (h : Stand s o k (doneOf els) pl) : misalignedElem o.et els = none := by
  unfold misalignedElem
  rw [Option.map_eq_none_iff, List.find?_eq_none]
  intro el hel hbad
  rw [Bool.and_eq_true, bne_iff_ne] at hbad
  exact hbad.2 (h el (List.mem_filter.mpr ⟨hel, hbad.1⟩)).1

/-- Where nothing is spoiled, no operand is. -/
theorem sound_unspoilt {c : Core} (h : c.poison = []) (gran : Gran) (m : Bool) (w : Nat) (reads : Nat → Nat → Reads) :
    sound c gran m w reads = .ok () :=
  if_pos (by rw [h]; rfl)

theorem State.poison_of_anyPoison (h : s.anyPoison = false) : s.core.poison = [] := by
  simpa [State.anyPoison] using And.right (by simpa [State.anyPoison] using h : (_ ∧ _) ∧ s.core.poison = [])

/-- Nothing that a word whose elements stand meets before their translation stops it. -/
theorem Stand.ready (h : Stand s o k (doneOf els) pl) (hp : s.anyPoison = false) (gran : Gran) (reads : Nat → Nat → Reads) :
    elemsReady s.core o gran els reads = .ok () := by
  unfold elemsReady
  rw [h.aligned]
  exact sound_unspoilt (State.poison_of_anyPoison hp) ..

end

end Sys2Proof.Machine

namespace Sys2Proof.Machine

/-! ## Elements that a store writes or holds -/

/-- An element of a store with its place and its value, as the hamper holds it (R264). -/
def heldOf (c : Core) (o : MemArgs) (pl : Elem → Place) (el : Elem) : Held :=
  ⟨c.run.rank, el.lin, el.addr, pl el, o.et.width, el.high, elemAt c o.va o.et.width el.row el.e⟩

/-- Elements of 4 bits share their bytes; any other fills its own (R52). -/
theorem elemBytes_cases (et : EType) (h : anyType et = true) :
    et = .f4 ∧ et.width = 4 ∧ elemBytes et = 1 ∨ et ≠ .f4 ∧ et.width = 8 * elemBytes et := by
  cases et <;> simp_all [elemBytes, EType.width, anyType]

section
variable {s t : State} {c : Core} {o : MemArgs} {k : Acc} {pl : Elem → Place} {els : List Elem}

theorem writeElems_eq_writeHeld (c : Core) (o : MemArgs) (pl : Elem → Place) (els : List Elem) (s : State) :
    writeElems o.et (fun el => c.elem o.va o.et.width el.row el.e) (els.map (atPlace pl)) s =
      writeHeld (els.map (heldOf c o pl)) s := by
  simp only [writeElems, writeHeld, List.foldl_map, elem_eq_elemAt]
  rfl

theorem heldOf_span {el : Elem} {m a : Nat} (h : whereIs (pl el) = some (m, a)) :
    (heldOf c o pl el).span = some (m, firstBit o.et el a) := by
  show (whereIs (pl el)).map _ = _
  rw [h]
  rfl

theorem whereIs_of_heldOf_span {el : Elem} {m b : Nat} (h : (heldOf c o pl el).span = some (m, b)) :
    ∃ a, whereIs (pl el) = some (m, a) ∧ b = firstBit o.et el a := by
  obtain ⟨⟨m', a⟩, hplace, hx⟩ := Option.map_eq_some_iff.mp h
  cases hx
  exact ⟨a, hplace, rfl⟩

/-- An element that stands is aligned in its memory. -/
theorem Stand.whereIs (h : Stand s o k els pl) {el : Elem} (hel : el ∈ els) :
    ∃ m a, Machine.whereIs (pl el) = some (m, a) ∧ a % elemBytes o.et = 0 := by
  obtain ⟨halign, hplace⟩ := h el hel
  split at hplace
  · exact ⟨2, el.addr.toNat, by rw [hplace]; rfl, halign⟩
  · obtain ⟨-, m, a, hm, -, ha, -⟩ := hplace
    exact ⟨m, a, hm, ha⟩

theorem Stand.heldSized (h : Stand s o k els pl) (het : anyType o.et = true) :
    ∀ x ∈ els.map (heldOf c o pl), heldSized x := by
  intro x hx
  obtain ⟨el, hel, rfl⟩ := List.mem_map.mp hx
  obtain ⟨m, a, hplace, -⟩ := h.whereIs hel
  refine ⟨?_, by rw [heldOf_span hplace]; rfl⟩
  show o.et.width ∈ [4, 8, 16, 32, 64]
  revert het
  cases o.et <;> decide

/-- Two aligned elements at different places, or in different halves of a byte, share no bit. -/
theorem heldOf_apart (het : anyType o.et = true) {x y : Elem} (hne : (pl x, x.high) ≠ (pl y, y.high))
    (hhigh : o.et ≠ .f4 → x.high = false ∧ y.high = false) {m a a' : Nat} (hx : whereIs (pl x) = some (m, a))
    (hy : whereIs (pl y) = some (m, a')) (ha : a % elemBytes o.et = 0) (ha' : a' % elemBytes o.et = 0) :
    firstBit o.et x a + o.et.width ≤ firstBit o.et y a' ∨ firstBit o.et y a' + o.et.width ≤ firstBit o.et x a := by
  have hsame : a = a' → x.high ≠ y.high := by
    rintro rfl hh
    have hplace : pl x = pl y := by
      revert hx hy
      cases pl x <;> cases pl y <;> simp [whereIs] <;> omega
    exact hne (by rw [hplace, hh])
  unfold firstBit
  rcases elemBytes_cases o.et het with ⟨-, hw, -⟩ | ⟨hf, hw⟩
  · rw [hw]
    cases hxh : x.high <;> cases hyh : y.high <;> simp_all <;> omega
  · obtain ⟨hxh, hyh⟩ := hhigh hf
    have hdiff : a ≠ a' := fun h => hsame h (hxh.trans hyh.symm)
    have hstep : ∀ {i j : Nat}, i % elemBytes o.et = 0 → j % elemBytes o.et = 0 → i < j → i + elemBytes o.et ≤ j := by
      intro i j hi hj hlt
      obtain ⟨p, rfl⟩ := Nat.dvd_of_mod_eq_zero hi
      obtain ⟨q, rfl⟩ := Nat.dvd_of_mod_eq_zero hj
      have hpq : p + 1 ≤ q := Nat.lt_of_mul_lt_mul_left hlt
      calc elemBytes o.et * p + elemBytes o.et = elemBytes o.et * (p + 1) := rfl
        _ ≤ elemBytes o.et * q := Nat.mul_le_mul_left _ hpq
    rw [hxh, hyh, hw]
    simp only [Bool.false_eq_true, and_false, if_false, Nat.add_zero]
    rcases Nat.lt_or_gt_of_ne hdiff with hlt | hlt
    · have := hstep ha ha' hlt
      omega
    · have := hstep ha' ha hlt
      omega

/-- Elements that stand, no two at the same place and half, share no bit. -/
theorem Stand.heldApart (h : Stand s o k els pl) (het : anyType o.et = true)
    (hnodup : (els.map fun el => (pl el, el.high)).Nodup) (hhigh : ∀ el ∈ els, o.et ≠ .f4 → el.high = false) :
    heldApart (els.map (heldOf c o pl)) := by
  refine List.pairwise_map.mpr ((List.pairwise_map.mp hnodup).imp_of_mem fun {x y} hx hy hne m b d hb hd => ?_)
  obtain ⟨a, hplace, rfl⟩ := whereIs_of_heldOf_span hb
  obtain ⟨a', hplace', rfl⟩ := whereIs_of_heldOf_span hd
  obtain ⟨_, _, hx', ha⟩ := h.whereIs hx
  obtain ⟨_, _, hy', ha'⟩ := h.whereIs hy
  obtain ⟨rfl, rfl⟩ := Prod.mk.inj (Option.some.inj (hx'.symm.trans hplace))
  obtain ⟨-, rfl⟩ := Prod.mk.inj (Option.some.inj (hy'.symm.trans hplace'))
  exact heldOf_apart het hne (fun hf => ⟨hhigh x hx hf, hhigh y hy hf⟩) hplace hplace' ha ha'

/-- Elements performed as the hamper holds them are written (R128, R146). -/
theorem Performed.written (h : Performed s t (els.map (heldOf c o pl))) :
    Written s t o.et els pl fun el => elemAt c o.va o.et.width el.row el.e := by
  obtain ⟨hdone, hkept⟩ := h
  refine ⟨fun el hel m a hplace j hj => hdone _ (List.mem_map_of_mem hel) m _ (heldOf_span hplace) j hj,
    fun m b hm hfree => hkept m b hm fun x hx b' hb' => ?_⟩
  obtain ⟨el, hel, rfl⟩ := List.mem_map.mp hx
  obtain ⟨a, hplace, rfl⟩ := whereIs_of_heldOf_span hb'
  exact hfree el hel a hplace

end

end Sys2Proof.Machine

namespace Sys2Proof.Machine

/-! ## What a store leaves of its core -/

theorem setBit_true (x : Word) (i : Nat) : setBit x i true = (x &&& ~~~fieldMask i i) ||| fieldMask i i := by
  have h : BitVec.ofNat 64 (1 <<< i) = fieldMask i i := by simp [fieldMask]
  show (x &&& ~~~fieldMask i i) ||| (BitVec.ofNat 64 (1 <<< i) &&& fieldMask i i) = _
  rw [h, BitVec.and_self]

/-- A bit that is set, whatever it was. -/
theorem setBit_true_eq_or (x : Word) (i : Nat) : setBit x i true = x ||| BitVec.ofNat 64 (2 ^ i) := by
  have h : fieldMask i i = BitVec.ofNat 64 (2 ^ i) := by simp [fieldMask, Nat.shiftLeft_eq]
  rw [setBit_true, h]
  ext j hj
  simp only [BitVec.getElem_or, BitVec.getElem_and, BitVec.getElem_not]
  cases (BitVec.ofNat 64 (2 ^ i))[j] <;> simp

/-- The stream behind a word moves, and is dirty (R248, R49). -/
theorem Core.advanceBy_eq_streamOn (c : Core) (o : MemArgs) (n : Nat) : c.advanceBy o n = c.streamOn o n := by
  unfold Core.advanceBy Core.streamOn
  split
  · rw [Core.moveStream, Core.dirtyStream, setBit_true_eq_or]
  · rfl

/-- `cmv` while the word at a position of the queue owns `CM`. -/
def cmvOwned (x : Word) (pos : Nat) : Word := setField (setBit x 0 true) 13 8 pos

theorem wfield_cmvOwned (x : Word) {pos : Nat} (h : pos < 64) : wfield (cmvOwned x pos) 13 8 = pos := by
  have hpos : ∀ p : Fin 64, (BitVec.ofNat 64 (p.val * 256)).extractLsb' 8 6 = BitVec.ofNat 6 p.val := by decide
  have hclear : (~~~0x3F00#64).extractLsb' 8 6 = 0#6 := by decide
  have hset : (0x3F00#64).extractLsb' 8 6 = BitVec.allOnes 6 := by decide
  rw [cmvOwned, setField_cmv_owner, wfield_cmv_owner, BitVec.extractLsb'_or, BitVec.extractLsb'_and, BitVec.extractLsb'_and,
    hpos ⟨pos, h⟩, hclear, hset, BitVec.and_zero, BitVec.zero_or, BitVec.and_allOnes, BitVec.toNat_ofNat]
  exact Nat.mod_eq_of_lt h

theorem getLsbD_cmvOwned (x : Word) (pos : Nat) : (cmvOwned x pos).getLsbD 0 = true := by
  rw [cmvOwned, setField_cmv_owner, setBit_true_eq_or]
  simp

theorem cmvOwned_and (x : Word) (pos : Nat) : cmvOwned x pos &&& ~~~0x3F01#64 = x &&& ~~~0x3F01#64 := by
  have h1 : ~~~0x3F00#64 &&& ~~~0x3F01#64 = ~~~0x3F01#64 := by decide
  have h2 : 0x3F00#64 &&& ~~~0x3F01#64 = 0#64 := by decide
  have h3 : BitVec.ofNat 64 (2 ^ 0) &&& ~~~0x3F01#64 = 0#64 := by decide
  rw [cmvOwned, setField_cmv_owner, setBit_true_eq_or, BitVec.and_or_distrib_right, BitVec.and_assoc, h1, BitVec.and_assoc, h2,
    BitVec.and_zero, BitVec.or_zero, BitVec.and_or_distrib_right, h3, BitVec.or_zero]

/-- The end of a word that owned `CM` leaves what its end without `CM` leaves (R59). -/
theorem cmvAfter_cmvOwned (x : Word) {pos : Nat} (h : pos < 64) :
    cmvAfter (cmvOwned x pos) pos = cmvAfter (x &&& ~~~0x3F01#64) pos := by
  have hclear : (x &&& ~~~0x3F01#64).getLsbD 0 = false := by simp
  rw [cmvAfter, cmvAfter, getLsbD_cmvOwned, hclear, ← wfield_cmv_owner, wfield_cmvOwned x h, if_pos rfl, if_pos rfl,
    if_neg Bool.false_ne_true, cmvOwned_and]

/-- What retirement leaves of `cmv` is all that it depends on. -/
theorem State.retired_cmv {u : State} {x y : Word} (h : u.core.cntLive = true)
    (hxy : cmvAfter x u.core.ownPos = cmvAfter y u.core.ownPos) :
    State.retired { u with core := { u.core with cmv := x } } = State.retired { u with core := { u.core with cmv := y } } := by
  have hcmv : (if u.core.cntLive then cmvAfter x u.core.ownPos else x) =
      if u.core.cntLive then cmvAfter y u.core.ownPos else y := by rw [if_pos h, if_pos h, hxy]
  exact congrArg (fun z => { u.retired with core := { u.retired.core with cmv := z } }) hcmv

/-! ## `CM` while a store runs -/

/-- The bits of elements set in `CM`. -/
def markElems (els : List Elem) (cm : VReg) : VReg :=
  els.foldl (fun x el => x.setRow el.row (rowBit (x.row el.row) el.e true)) cm

theorem foldl_setCM : ∀ (els : List Elem) (c : Core),
    els.foldl (fun c el => c.setCM el.row el.e) c = { c with cm := markElems els c.cm }
  | [], _ => rfl
  | el :: els, c => foldl_setCM els (c.setCM el.row el.e)

theorem row_markElems {r e : Nat} (he : e < 16384) : ∀ (els : List Elem), (∀ el ∈ els, el.row < 16) → ∀ cm : VReg,
    ((markElems els cm).row r).getLsbD e = true ↔ (cm.row r).getLsbD e = true ∨ ∃ el ∈ els, el.row = r ∧ el.e = e
  | [], _, cm => by simp [markElems]
  | el :: els, hrow, cm => by
    have hhead := hrow el List.mem_cons_self
    have ih := row_markElems (r := r) he els (fun x hx => hrow x (List.mem_cons_of_mem _ hx))
      (cm.setRow el.row (rowBit (cm.row el.row) el.e true))
    refine ih.trans ?_
    rw [VReg.row_setRow _ _ _ _ hhead, List.exists_mem_cons_iff, ← or_assoc]
    refine or_congr_left ?_
    by_cases hr : r = el.row
    · subst hr
      rw [if_pos rfl, rowBit, rowSet_getLsbD]
      by_cases hb : el.e = e
      · rw [if_pos (by omega)]
        simp [hb]
      · rw [if_neg (by omega)]
        simp [hb]
    · rw [if_neg hr]
      simp [Ne.symm hr]

theorem tracksElements_markElems {els : List Elem} (hrow : ∀ el ∈ els, el.row < 16) :
    TracksElements els (markElems els (.replicate 16 0)) := by
  intro r e hr he
  refine (row_markElems he els hrow _).trans (or_iff_right ?_)
  simp [VReg.row, hr]

/-- How a stop finds a store: between steps, or by `CM` for an indexed one (R252). -/
def storeGran (indexed : Bool) : Gran := if indexed then .mask else .step

/-- The core of a word that has taken `CM` for its elements, if it is one that `CM` tracks (R59). -/
def Core.tookCM (c : Core) (indexed : Bool) (els : List Elem) : Core :=
  if indexed && c.cntLive then { c with cmv := cmvOwned c.cmv c.ownPos, cm := markElems els (.replicate 16 0) } else c

section
variable {c : Core} {indexed : Bool}

theorem Core.cmFree.not_owns (h : c.cmFree) : c.ownsCM = false := by
  unfold Core.ownsCM Core.cmNow
  cases hlive : c.cntLive with
  | false => rfl
  | true => rw [h.1 hlive]; rfl

/-- A whole store takes `CM` when it is free, and marks its elements there. -/
theorem Core.doneElems_takeCM (hm : c.mode = .whole) (hfree : indexed = true → c.cmFree) (els : List Elem) :
    (c.takeCM (storeGran indexed)).doneElems (storeGran indexed) els = c.tookCM indexed els := by
  cases indexed with
  | false => rfl
  | true =>
    obtain ⟨hbit, hpos⟩ := hfree rfl
    show (c.takeCM .mask).doneElems .mask els = _
    by_cases hlive : c.cntLive = true
    · have hclaim : c.claim = c := if_pos hlive
      have htake : c.takeCM .mask = { c with cmv := cmvOwned c.cmv c.ownPos, cm := .replicate 16 0 } := by
        refine (if_pos ⟨rfl, .inl hlive⟩).trans ?_
        rw [hclaim]
        exact if_neg (by rw [hbit hlive]; exact Bool.false_ne_true)
      have howns : (c.takeCM .mask).ownsCM = true := by
        rw [htake]
        show (c.cntLive && (cmvOwned c.cmv c.ownPos).getLsbD 0 && wfield (cmvOwned c.cmv c.ownPos) 13 8 == c.ownPos) = true
        rw [hlive, getLsbD_cmvOwned, wfield_cmvOwned _ hpos]
        simp
      refine (if_pos ((Bool.and_eq_true _ _).mpr ⟨rfl, howns⟩)).trans ?_
      rw [foldl_setCM, htake]
      exact (if_pos hlive).symm
    · have hlive : c.cntLive = false := Bool.eq_false_iff.mpr hlive
      have htake : c.takeCM .mask = c := if_neg (by simp [hlive, hm])
      have howns : c.ownsCM = false := Core.cmFree.not_owns (hfree rfl)
      refine Eq.trans ?_ (if_neg (by simp [hlive])).symm
      rw [htake]
      exact if_neg (by simp [howns])

/-- Retired, a word that has taken `CM` leaves the bits of its elements there, and V clear (R59). -/
theorem State.retired_tookCM (u : State) (hpos : indexed = true → c.ownPos < 64) (els : List Elem) (o : MemArgs) (n : Nat)
    (l : List (Nat × Nat × Nat)) :
    State.retired { u with core := { (c.tookCM indexed els).streamOn o n with stps := l } } =
      State.retired { u with core := { (c.tracked indexed (markElems els (.replicate 16 0))).streamOn o n with stps := l } } := by
  have hstream : ∀ (x : Word) (y : VReg), ({ c with cmv := x, cm := y } : Core).streamOn o n =
      { c.streamOn o n with cmv := x, cm := y } := fun x y => by
    unfold Core.streamOn
    split <;> rfl
  have hkept : (c.streamOn o n).ownPos = c.ownPos ∧ (c.streamOn o n).cntLive = c.cntLive := by
    unfold Core.streamOn
    split <;> exact ⟨rfl, rfl⟩
  unfold Core.tookCM Core.tracked
  cases hon : indexed && c.cntLive with
  | false => rfl
  | true =>
    rw [Bool.and_eq_true] at hon
    obtain ⟨hi, hlive⟩ := hon
    rw [if_pos rfl, if_pos rfl, hstream (cmvOwned c.cmv c.ownPos), hstream (c.cmv &&& ~~~0x3F01#64)]
    have hcmv : cmvAfter (cmvOwned c.cmv c.ownPos) (c.streamOn o n).ownPos =
        cmvAfter (c.cmv &&& ~~~0x3F01#64) (c.streamOn o n).ownPos := by
      rw [hkept.1]
      exact cmvAfter_cmvOwned _ (hpos hi)
    exact State.retired_cmv (u := { u with core := { c.streamOn o n with cm := markElems els (.replicate 16 0), stps := l } })
      (hkept.2.trans hlive) hcmv

end

end Sys2Proof.Machine

namespace Sys2Proof.Machine

/-! ## Limits of a memory word (Table 20-4) -/

theorem needAll_append_ok : ∀ l : List (Except Stop Unit), needAll (l ++ [.ok ()]) = needAll l
  | [] => rfl
  | .error _ :: _ => rfl
  | .ok _ :: l => needAll_append_ok l

/-- The checks of a word in turn, with nothing after them. -/
theorem needAll_table {checks : List (Except Stop Unit)} {table : List (Nat × Bool)} (h : List.Forall₂ Agrees checks table) :
    (∀ code, firstBroken table = some code → ∃ v, needAll checks = .error (limitStop code v)) ∧
      (firstBroken table = none → needAll checks = .ok ()) := by
  rw [← needAll_append_ok checks]
  exact needAll_agrees h (.ok ())

/-- Scratchpad addresses below 0x20_0000 (R250). -/
theorem agrees_inSpad (els : List Elem) (n : Nat) :
    Agrees (needInSpad els n) (8, els.all fun el => decide (el.addr.toNat + n ≤ 0x200000)) := by
  unfold needInSpad
  cases hf : els.find? fun el => !decide (el.addr.toNat + n ≤ Config.spadBytes) with
  | none =>
    have hall : (els.all fun el => decide (el.addr.toNat + n ≤ 0x200000)) = true := by
      rw [List.all_eq_true]
      intro el hel
      simpa using List.find?_eq_none.mp hf el hel
    rw [hall]
    exact Agrees.ok
  | some el =>
    have hnot : (els.all fun el => decide (el.addr.toNat + n ≤ 0x200000)) = false := by
      rw [List.all_eq_false]
      exact ⟨el, List.mem_of_find?_eq_some hf, by simpa using List.find?_some hf⟩
    rw [hnot]
    exact ⟨_, rfl⟩

@[simp] theorem named_memReads (o : MemArgs) (indexed data : Bool) : Named (memReads o indexed data) := by
  cases indexed <;> cases data <;> simp [memReads]

@[simp] theorem nums_memReads (o : MemArgs) (indexed data : Bool) :
    (memReads o indexed data).flatMap RegSet.nums = memRegs o indexed data := by
  cases indexed <;> cases data <;> simp [memReads, memRegs]

/-- The limits that memory words share are those of Table 20-4. -/
theorem memLimits_table {c : Core} {o : MemArgs} {indexed data : Bool} {ok k : EType → Bool} {wr : List RegSet}
    {extra : Shape → Bool} {fits : Bool} (hok : ok o.et = k o.et) (hwr : Named wr) (hfits : extra (c.shapeOf o) = fits) :
    (∀ code, firstBroken (memLimitsOf c o indexed data k (wr.flatMap RegSet.nums) fits) = some code →
      ∃ v, memLimits o indexed data ok wr extra c = .error (limitStop code v)) ∧
    (firstBroken (memLimitsOf c o indexed data k (wr.flatMap RegSet.nums) fits) = none →
      memLimits o indexed data ok wr extra c = .ok ()) := by
  refine needAll_table (.cons (Agrees.need hok) (.cons (Agrees.need rfl) (.cons ?index (.cons (Agrees.need rfl)
    (.cons (agrees_apart hwr (by simp) (by simp)) (.cons (Agrees.need ?shape) (.cons (Agrees.need hfits) (.cons ?spad .nil))))))))
  case index =>
    cases indexed with
    | false => exact Agrees.ok
    | true => exact Agrees.need rfl
  case shape => rw [beq_eq_decide]
  case spad =>
    cases shapeSp (c.shapeOf o) with
    | false => exact Agrees.ok
    | true => exact agrees_inSpad _ _

/-! ## The words that store -/

section
variable {s : State} {i : Instr} {k : MemKind}

/-- Stores take their elements step by step (R252). -/
theorem leftOf_store (h : storeWord i = some k) : leftOf s.core k = stepLeft s.core k.args.et.width := by
  have hrow : k.byRow = false := by
    unfold storeWord at h
    split at h <;> cases h <;> rfl
  funext r e
  rw [leftOf, hrow]
  rfl

/-- The limits of a word, by a table. -/
def HeldTo (limits : Except Stop Unit) (table : List (Nat × Bool)) : Prop :=
  (∀ code, firstBroken table = some code → ∃ v, limits = .error (limitStop code v)) ∧
    (firstBroken table = none → limits = .ok ())

/-- A body that stores, and notes what a `VSTP` has written (R106). -/
def StoresBy (i : Instr) (k : MemKind) (body : State → Except Stop State) (s : State) : Prop :=
  (∀ e, storeBody k.args (storeGran k.indexed) k.indexed s = .error e → body s = .error e) ∧
    ∀ t, storeBody k.args (storeGran k.indexed) k.indexed s = .ok t → t.core.stps = s.core.stps →
      body s = .ok { t with core := { t.core with stps := stpsAfter s.core i k.args } }

theorem storesBy_storeBody (h : ∀ o, i ≠ .vstp o) :
    StoresBy i k (storeBody k.args (storeGran k.indexed) k.indexed) s := by
  refine ⟨fun _ he => he, fun t ht hstps => ?_⟩
  have hkept : stpsAfter s.core i k.args = t.core.stps := by
    rw [hstps]
    unfold stpsAfter
    split
    · exact absurd rfl (h _)
    · rfl
  rw [ht, hkept]

/-- A store outside a region is a memory word by steps or by `CM`, with the limits of its table, whose body stores. -/
theorem exec_store (h : storeWord i = some k) (hr : s.core.region = none) (hm : s.core.mode = .whole) :
    ∃ inRegion ao limits body, exec i s = memWord (storeGran k.indexed) inRegion ao limits body
        (fun c => c.memUses k.args (storeGran k.indexed) k.indexed .write) s ∧
      HeldTo (limits s.core) (memLimitsOf s.core k.args k.indexed true (typeIn 3) [] (recordFits s.core i)) ∧
      StoresBy i k body s := by
  cases i with
  | vst o =>
    cases h
    exact ⟨_, _, _, _, rfl, memLimits_table (anyType_eq_typeIn _) named_nil rfl, storesBy_storeBody (by simp)⟩
  | vstx o =>
    cases h
    exact ⟨_, _, _, _, rfl, memLimits_table (anyType_eq_typeIn _) named_nil rfl, storesBy_storeBody (by simp)⟩
  | vstp o =>
    cases h
    refine ⟨_, _, _, _, rfl, memLimits_table (anyType_eq_typeIn _) named_nil ?_, fun e he => ?_, fun t ht _ => ?_⟩
    · simp only [recordFits, beq_eq_decide]
      rfl
    · dsimp only at he ⊢
      rw [show storeBody o .step false s = .error e from he]
    · dsimp only at ht ⊢
      rw [show storeBody o .step false s = .ok t from ht]
      simp [hm, stpsAfter]
  | vsth o =>
    cases h
    obtain ⟨hbroken, hkept⟩ := memLimits_table (c := s.core) (o := o) (indexed := false) (data := true)
      (extra := fun _ => true) (anyType_eq_typeIn _) named_nil rfl
    have hhamper : needHamper s.core = .ok () := by unfold needHamper; rw [hr]
    refine ⟨true, false, fun c => needAll [memLimits o false true anyType [] (fun _ => true) c, needHamper c],
      fun s => if s.core.region.isSome then holdBody o s else storeBody o .step false s, rfl,
      ⟨fun code hc => ?_, fun hn => ?_⟩, ?_⟩
    · obtain ⟨v, hv⟩ := hbroken code hc
      refine ⟨v, ?_⟩
      dsimp only
      rw [hv]
      rfl
    · dsimp only
      rw [hkept hn, hhamper]
      rfl
    · have hout : ¬s.core.region.isSome = true := by rw [hr]; exact Bool.false_ne_true
      have hbody : (fun s : State => if s.core.region.isSome then holdBody o s else storeBody o .step false s) s =
          storeBody o .step false s := if_neg hout
      unfold StoresBy
      rw [hbody]
      exact storesBy_storeBody (k := ⟨o, false, true, false, false⟩) (by simp)
  | _ => cases h

end

end Sys2Proof.Machine

namespace Sys2Proof.Machine

/-! ## Accesses that are let through change no translation -/

section
variable {s : State} {o : MemArgs} {k : Acc} {pl : Elem → Place} {els : List Elem}

/-- An access that changed nothing found its leaf's A and D bits set (R96). -/
theorem touched_of_probe {va : Word} {n : Nat} {spec : Bool} {p : Place} {attr : Nat}
    (h : probe s va n k spec = .ok (p, attr, s)) : s.touched va n k = s := by
  have hmark : ∀ (g : Gang) (l : Leaf), reach (s.mark l k) g l va.toNat k spec = .ok (p, attr, s) → s.mark l k = s := by
    intro g l hreach
    obtain ⟨m, hm⟩ := State.mark_frame s l k
    obtain ⟨c, hc⟩ := reach_ok hreach
    rw [hm] at hc ⊢
    have hdram : s.dev.dram = m := congrArg (fun t : State => t.dev.dram) hc
    rw [← hdram]
    rfl
  unfold probe at h
  unfold State.touched
  dsimp only at h ⊢
  split
  · rfl
  · next hskip =>
    simp only [Bool.or_eq_true, not_or, Bool.not_eq_true, Option.isSome_eq_false_iff, Option.isNone_iff_eq_none] at hskip
    obtain ⟨⟨hrange, hwatch⟩, hpin⟩ := hskip
    split
    · rfl
    · next g hg =>
      simp only [hrange, hwatch, hpin, hg, Bool.false_eq_true, if_false] at h
      split
      · rfl
      · next l hl =>
        simp only [hl] at h
        exact hmark g l h

theorem State.touchAll_eq_self {l : Uses} (h : ∀ u ∈ l, s.touched u.1 u.2.1 u.2.2 = s) : s.touchAll l = s := by
  induction l with
  | nil => rfl
  | cons u l ih =>
    show (s.touched u.1 u.2.1 u.2.2).touchAll l = s
    rw [h u List.mem_cons_self]
    exact ih fun x hx => h x (List.mem_cons_of_mem _ hx)

/-- The accesses of a word whose elements stand change no A or D bit. -/
theorem Stand.touchAll {gran : Gran} {indexed : Bool}
    (h : Stand s o k (doneOf (s.core.targets o indexed (s.core.shapeOf o) (s.core.memRun gran o.et.width))) pl) :
    s.touchAll (s.core.memUses o gran indexed k) = s := by
  refine State.touchAll_eq_self fun u hu => ?_
  unfold Core.memUses at hu
  dsimp only at hu
  split at hu
  · cases hu
  · next hskip =>
    rw [Bool.or_eq_true, not_or] at hskip
    obtain ⟨el, hel, rfl⟩ := List.mem_map.mp hu
    obtain ⟨-, hplace⟩ := h el hel
    rw [if_neg hskip.1] at hplace
    obtain ⟨-, _, _, -, -, -, hprobe⟩ := hplace
    obtain ⟨attr, hattr⟩ := hprobe false
    exact touched_of_probe hattr

/-! ## The body of a store -/

/-- Elements at places and halves that differ are performed in ascending order (R130). -/
theorem inOrder_atPlace (h : (els.map fun el => (pl el, el.high)).Nodup) (free : Nat) (ao : Bool) :
    inOrder free ao (els.map (atPlace pl)) = els.map (atPlace pl) := by
  have hkeys : ((els.map (atPlace pl)).map fun p => (p.2, p.1.high)).Nodup := by
    rw [List.map_map]
    exact h
  unfold inOrder
  dsimp only
  rw [decide_eq_true hkeys, Bool.or_true, if_pos rfl]

/-- The state in which a store has performed its elements. -/
def State.stored (s : State) (o : MemArgs) (indexed : Bool) (els : List Elem) (pl : Elem → Place) : State :=
  let t := writeHeld (els.map (heldOf s.core o pl)) s
  { t with free := s.free + 1
           core := (t.core.tookCM indexed els).streamOn o (s.core.run.rc.toNat * s.core.run.vl.toNat) }

variable {indexed : Bool} (hmode : s.core.mode = .whole) (hp : s.anyPoison = false)
  (hfree : indexed = true → s.core.cmFree)
  (hels : s.core.targets o indexed (s.core.shapeOf o) (s.core.memRun (storeGran indexed) o.et.width) = els)
  (hstand : Stand s o .write (doneOf els) pl) (hnodup : ((doneOf els).map fun el => (pl el, el.high)).Nodup)
include hmode hp hels hstand

/-- A store whose elements stand performs them all, unless its release has to hold (R134). -/
theorem storeBody_hold (hord : (o.ord.getLsbD 1 && !s.core.enginesQuiet o.sc) = true) :
    storeBody o (storeGran indexed) indexed s = .error .hold := by
  have hcheck : ¬s.core.mode = .check := by rw [hmode]; decide
  have hchecks := checkElems_stand (mode := .plain) (bad := fun _ => false) hstand (by decide) hmode (fun _ => rfl) (fun _ _ => rfl)
    o.et.width
  unfold storeBody
  dsimp only
  rw [hels, hstand.ready hp, hchecks]
  dsimp only
  rw [if_neg hcheck, if_pos hord]

include hfree hnodup

theorem storeBody_done (hord : ¬(o.ord.getLsbD 1 && !s.core.enginesQuiet o.sc) = true)
    (hrem : s.Remembers (writeHeld ((doneOf els).map (heldOf s.core o pl)) s)) :
    storeBody o (storeGran indexed) indexed s = .ok (s.stored o indexed (doneOf els) pl) := by
  have hcheck : ¬s.core.mode = .check := by rw [hmode]; decide
  have hchecks := checkElems_stand (mode := .plain) (bad := fun _ => false) hstand (by decide) hmode (fun _ => rfl) (fun _ _ => rfl)
    o.et.width
  unfold storeBody
  dsimp only
  rw [hels, hstand.ready hp, hchecks]
  dsimp only
  rw [if_neg hcheck, if_neg hord, inOrder_atPlace hnodup, writeElems_eq_writeHeld, Core.advanceBy_eq_streamOn,
    show els.filter Elem.on = doneOf els from rfl]
  unfold State.stored
  dsimp only
  generalize writeHeld ((doneOf els).map (heldOf s.core o pl)) s = t at hrem ⊢
  obtain ⟨hsame, -⟩ := hrem
  rw [hsame, Core.doneElems_takeCM (c := (s.withMemory t.dev.dram t.dev.host t.core.spad).core) hmode hfree]
  have hrun : ∀ c : Core, (c.tookCM indexed (doneOf els)).run = c.run := fun c => by
    unfold Core.tookCM
    split <;> rfl
  unfold Core.rows Core.vlen
  rw [hrun]
  rfl

end
end Sys2Proof.Machine

namespace Sys2Proof.Machine

/-! ## A memory word that runs outside a region -/

section
variable {s t : State} {gran : Gran} {inRegion ao : Bool} {limits : Core → Except Stop Unit}
  {body : State → Except Stop State} {uses : Core → Uses}

theorem regionOk_none {c : Core} (h : c.region = none) (allowed : Bool) : regionOk c allowed = .ok () := by
  unfold regionOk
  rw [h]

theorem Ready.not_annulled (h : Ready s inRegion) : s.core.annulled = false := by
  unfold Core.annulled
  cases hr : s.core.region with
  | none => rfl
  | some r => exact (h.region r hr).2.1

/-- A whole word that has written nothing in the hamper retires at its end. -/
theorem endVec_retired (hm : t.core.mode = .whole) (hw : t.core.wrote = []) : endVec t = .next t.retired := by
  rw [← State.finishVec_eq_retired hw]
  exact if_neg (not_not_intro hm)

/-- A word that its limits stop is refused (R366). -/
theorem memWord_refused (hu : firstUse s.core.run = none) (hr : regionOk s.core inRegion = .ok ())
    (ha : s.core.annulled = false) {i : StopInfo} (h : limits s.core = .error (.stop i)) :
    memWord gran inRegion ao limits body uses s = refuseWord s (.stop i) := by
  unfold memWord
  simp only [firstUseOk_none hu, hr, ha, Bool.false_eq_true, if_false, h]

/-- A word that breaks a limit takes the trap, and nothing of it takes effect (R366). -/
theorem memWord_limit (hm : s.core.mode = .whole) (hu : firstUse s.core.run = none)
    (hr : regionOk s.core inRegion = .ok ()) (ha : s.core.annulled = false) {code v : Nat}
    (h : limits s.core = .error (limitStop code v)) : limited s code (memWord gran inRegion ao limits body uses s) := by
  rw [memWord_refused hu hr ha h]
  exact refuseWord_limit hm code v

/-- A word whose body has to hold waits in the state that it found, but for A and D bits (R94, R134). -/
theorem memWord_hold (hm : s.core.mode = .whole) (hu : firstUse s.core.run = none)
    (hr : regionOk s.core inRegion = .ok ()) (ha : s.core.annulled = false) (hl : limits s.core = .ok ())
    (h : body s = .error .hold) (ht : s.touchAll (uses s.core) = s) :
    memWord gran inRegion ao limits body uses s = .next (s.withCore fun c => { c with why := some .hold }) := by
  unfold memWord
  simp only [firstUseOk_none hu, hr, ha, Bool.false_eq_true, if_false, hl, h, ht]
  exact if_neg (not_not_intro hm)

end

/-! ## Vector stores -/

/-- A memory word that breaks no limit has a type, a length and a record that fit. -/
theorem memLimitsOf_unbroken {c : Core} {o : MemArgs} {indexed data : Bool} {wr : List Nat} {fits : Bool}
    (h : firstBroken (memLimitsOf c o indexed data (typeIn 3) wr fits) = none) :
    anyType o.et = true ∧ c.run.vl.toNat ≤ 16384 / o.et.width ∧ shapeEt (c.shapeOf o) = o.et := by
  have htype : typeIn 3 o.et = true := holds_of_firstBroken h (code := 1) (by simp [memLimitsOf])
  have hfits : lenFits c o.et = true := holds_of_firstBroken h (code := 2) (by simp [memLimitsOf])
  have hshape : ((c.q[o.str.toNat]).shape.isSome && decide (shapeEt (c.shapeOf o) = o.et)) = true :=
    holds_of_firstBroken h (code := 8) (by simp [memLimitsOf])
  rw [Bool.and_eq_true, decide_eq_true_eq] at hshape
  exact ⟨(anyType_eq_typeIn _).trans htype, of_decide_eq_true hfits, hshape.2⟩

/-- The elements that a word performs stand in its rows; only `f4` ones have a high half. -/
theorem mem_elementsOf {c : Core} {o : MemArgs} {indexed : Bool} {left : Nat → Nat → Bool} {el : Elem}
    (het : shapeEt (c.shapeOf o) = o.et) (h : el ∈ doneOf (elementsOf c o indexed left)) :
    el.row < c.rows ∧ (o.et ≠ .f4 → el.high = false) := by
  obtain ⟨hrow, -, hhigh⟩ := Core.mem_targets (List.mem_filter.mp h).1
  exact ⟨hrow, fun hf => hhigh (by rw [het]; exact hf)⟩

section
variable {s t : State} {o : MemArgs} {pl : Elem → Place} {els : List Elem} {indexed : Bool}

/-- A store changes nothing of its core but the scratchpad, `CM` and its stream. -/
theorem State.stored_kept (h : s.Remembers (writeHeld (els.map (heldOf s.core o pl)) s)) :
    (s.stored o indexed els pl).core.stps = s.core.stps ∧ (s.stored o indexed els pl).core.mode = s.core.mode ∧
      (s.stored o indexed els pl).core.wrote = s.core.wrote := by
  unfold State.stored
  dsimp only
  rw [h.same]
  unfold Core.streamOn Core.tookCM
  split <;> split <;> exact ⟨rfl, rfl, rfl⟩

/-- Retired, the state of a store is that of R250 to R252. -/
theorem State.retired_stored (h : s.Remembers (writeHeld (els.map (heldOf s.core o pl)) s))
    (hpos : indexed = true → s.core.ownPos < 64) (l : List (Nat × Nat × Nat)) :
    ∃ m0 m1 m2, let t := s.withMemory m0 m1 m2
      t = writeHeld (els.map (heldOf s.core o pl)) s ∧
      State.retired { s.stored o indexed els pl with core := { (s.stored o indexed els pl).core with stps := l } } =
        State.retired { t with
          free := s.free + 1
          core := { (t.core.tracked indexed (markElems els (.replicate 16 0))).streamOn o
            (s.core.run.rc.toNat * s.core.run.vl.toNat) with stps := l } } := by
  refine ⟨_, _, _, h.same.symm, ?_⟩
  rw [← h.same]
  have hpos' : indexed = true → (writeHeld (els.map (heldOf s.core o pl)) s).core.ownPos < 64 := by
    rw [h.same]
    exact hpos
  exact State.retired_tookCM { writeHeld (els.map (heldOf s.core o pl)) s with free := s.free + 1 } hpos' els o _ l

end

/-- Settles O47: the elements that a store performs stand apart, so their values written in turn stand at their places. -/
theorem vectorStoresWriteMemory : Obligations.VectorStoresWriteMemory := by
  unfold Obligations.VectorStoresWriteMemory
  intro s i k pl hstore hready hregion hfree
  dsimp only
  have ha := hready.not_annulled
  obtain ⟨hm, hu, hp, hclean, hrc, hends, -⟩ := hready
  obtain ⟨inRegion, ao, limits, body, hexec, ⟨hbroken, hkept⟩, hholds, hstores⟩ := exec_store hstore hregion hm
  have hr := regionOk_none hregion inRegion
  rw [leftOf_store hstore, hexec]
  refine ⟨fun code hcode => ?_, fun hnone hstand hnodup hdram hhost hspad => ?_⟩
  · obtain ⟨v, hv⟩ := hbroken code hcode
    exact memWord_limit hm hu hr ha hv
  obtain ⟨htype, hfits, het⟩ := memLimitsOf_unbroken hnone
  have htargets := Core.targets_whole (c := s.core) (o := k.args) (indexed := k.indexed) (gran := storeGran k.indexed)
    (by cases k.indexed <;> decide) hends
    (fun hg => Core.cmFree.not_owns (hfree (by revert hg; cases k.indexed <;> decide))) hrc hfits
  generalize hels : elementsOf s.core k.args k.indexed (stepLeft s.core k.args.et.width) = els at *
  have hmem : ∀ el ∈ doneOf els, el.row < s.core.rows ∧ (k.args.et ≠ .f4 → el.high = false) := fun el hel =>
    mem_elementsOf het (hels ▸ hel)
  obtain ⟨hrem, hperf⟩ := writeHeld_performed (hs := (doneOf els).map (heldOf s.core k.args pl)) ⟨hdram, hhost, hspad⟩ hp
    (hstand.heldSized htype) (hstand.heldApart htype hnodup fun el hel => (hmem el hel).2)
  refine ⟨fun hord => ?_, fun hord hbusy => ?_⟩
  · have hgo : ¬(k.args.ord.getLsbD 1 && !s.core.enginesQuiet k.args.sc) = true := by
      rcases hord with h | h
      · rw [h]
        exact Bool.false_ne_true
      · rw [h, Bool.not_true, Bool.and_false]
        exact Bool.false_ne_true
    have hbody := hstores _ (storeBody_done hm hp hfree htargets hstand hnodup hgo hrem) (State.stored_kept hrem).1
    obtain ⟨-, hmode, hwrote⟩ := State.stored_kept (indexed := k.indexed) hrem
    obtain ⟨m0, m1, m2, ht, hretired⟩ := State.retired_stored (indexed := k.indexed) hrem (fun h => (hfree h).2)
      (stpsAfter s.core i k.args)
    refine ⟨m0, m1, m2, markElems (doneOf els) (.replicate 16 0), ?_,
      tracksElements_markElems fun el hel => Nat.lt_of_lt_of_le (hmem el hel).1 hrc, ?_⟩
    · rw [ht]
      exact hperf.written
    · have hrun := memWord_run (gran := storeGran k.indexed) (ao := ao)
        (uses := fun c => c.memUses k.args (storeGran k.indexed) k.indexed .write) (firstUseOk_none hu) hr ha (hkept hnone) hbody
      rw [hrun]
      refine (endVec_retired ?whole ?clean).trans (congrArg Host.Outcome.next hretired)
      case whole => exact hmode.trans hm
      case clean => exact hwrote.trans hclean
  · have hstop := hholds .hold (storeBody_hold hm hp htargets hstand (by rw [hord, hbusy]; rfl))
    refine ⟨_, memWord_hold hm hu hr ha (hkept hnone) hstop (Stand.touchAll (by rw [htargets]; exact hstand)), rfl, rfl, rfl, rfl⟩

end Sys2Proof.Machine

namespace Sys2Proof.Machine

/-! ## Bits that a sweep leaves in a register (R49, R213) -/

section
variable {c : Core} {w n rows : Nat} {on : Nat → Nat → Bool} {f : Nat → Nat → Nat}

/-- A bit of a row after a sweep over `n` of its elements. -/
theorem putRow_getLsbD (hw : 0 < w) (on : Nat → Bool) (f : Nat → Nat) (x : Row) (bit : Nat) :
    ∀ n, n * w ≤ 16384 → (putRow w n on f x).getLsbD bit =
      if bit / w < n ∧ on (bit / w) = true then (f (bit / w)).testBit (bit % w) else x.getLsbD bit
  | 0, _ => by simp [putRow]
  | n + 1, h => by
    have hn : n * w + w ≤ 16384 := by rw [← Nat.succ_mul]; exact h
    have ih := putRow_getLsbD hw on f x bit n (by omega)
    have hbit : bit / w * w + bit % w = bit := by rw [Nat.mul_comm]; exact Nat.div_add_mod bit w
    have hmod : bit % w < w := Nat.mod_lt _ hw
    have helem : n * w ≤ bit ∧ bit < n * w + w ↔ bit / w = n := by
      rw [Nat.div_eq_iff hw]
      omega
    show (if on n then rowSet (putRow w n on f x) (n * w) w (f n) else putRow w n on f x).getLsbD bit = _
    by_cases he : bit / w = n
    · have hold : ¬(bit / w < n ∧ on (bit / w) = true) := by omega
      rw [if_neg hold] at ih
      have hin := helem.mpr he
      have hoff : bit - n * w = bit % w := by rw [he] at hbit; omega
      by_cases hon : on n = true
      · rw [if_pos hon, rowSet_getLsbD, if_pos ⟨hin.1, hin.2, by omega⟩, if_pos ⟨by omega, by rw [he]; exact hon⟩, hoff, he]
      · rw [if_neg hon, ih, if_neg (by rw [he]; exact fun h => hon h.2)]
    · have hsame : (if on n then rowSet (putRow w n on f x) (n * w) w (f n) else putRow w n on f x).getLsbD bit =
          (putRow w n on f x).getLsbD bit := by
        split
        · rw [rowSet_getLsbD, if_neg fun h => he (helem.mp ⟨h.1, h.2.1⟩)]
        · rfl
      rw [hsame, ih]
      exact if_congr (and_congr_left' (by omega)) rfl rfl

/-- A bit of a register after a sweep over `rows` rows. -/
theorem foldRows_getLsbD (hw : 0 < w) (hn : n * w ≤ 16384) (v : VReg) (row bit : Nat) : ∀ rows, rows ≤ 16 →
    ((foldN rows (fun r v => v.setRow r (putRow w n (on r) (f r) (v.row r))) v).row row).getLsbD bit =
      if row < rows ∧ bit / w < n ∧ on row (bit / w) = true then (f row (bit / w)).testBit (bit % w)
      else (v.row row).getLsbD bit
  | 0, _ => by simp
  | rows + 1, h => by
    have ih := foldRows_getLsbD hw hn v row bit rows (by omega)
    rw [foldN_succ, VReg.row_setRow _ _ _ _ (by omega)]
    by_cases hr : row = rows
    · subst hr
      rw [if_pos rfl, putRow_getLsbD hw _ _ _ _ _ hn, ih, if_neg (by omega : ¬(row < row ∧ _))]
      exact if_congr ⟨fun h => ⟨Nat.lt_succ_self _, h⟩, And.right⟩ rfl rfl
    · rw [if_neg hr, ih]
      exact if_congr (and_congr_left' (by omega)) rfl rfl

/-- The elements that a sweep writes, as the tables describe them. -/
def sweepWrite (rows n w : Nat) (on : Nat → Nat → Bool) (vd : BitVec 5) (f : Nat → Nat → Nat) : VWrite :=
  ⟨vd.toNat, w, rows, n, on, f⟩

theorem sweepWrite_any (vd : BitVec 5) :
    ((List.range rows).any fun r => (List.range n).any fun e => on r e) = true ↔ (sweepWrite rows n w on vd f).any := by
  simp only [List.any_eq_true, List.mem_range, VWrite.any, sweepWrite]
  exact ⟨fun ⟨r, hr, e, he, h⟩ => ⟨r, e, hr, he, h⟩, fun ⟨r, e, hr, he, h⟩ => ⟨r, hr, e, he, h⟩⟩

/-- A sweep leaves the elements that it writes, and a register that is written dirty (R49, R213). -/
theorem Core.putWhere_leaves (c : Core) (on : Nat → Nat → Bool) (vd : BitVec 5) (f : Nat → Nat → Nat) (hw : 0 < w)
    (hr : rows ≤ 16) (hn : n * w ≤ 16384) :
    Leaves c [sweepWrite rows n w on vd f] (c.putWhere rows n w on vd f).v (c.putWhere rows n w on vd f).vdirty := by
  by_cases hany : ((List.range rows).any fun r => (List.range n).any fun e => on r e) = true
  · have hwrite : c.putWhere rows n w on vd f =
        c.setV vd (foldN rows (fun r v => v.setRow r (putRow w n (on r) (f r) (v.row r))) (c.vreg vd)) := if_pos hany
    rw [hwrite]
    refine ⟨fun u row bit _ _ => ?_, fun i => ?_⟩
    · show (((c.setV vd _).vreg u).row row).getLsbD bit = _
      rw [Core.vreg_setV]
      by_cases hu : u = vd
      · subst hu
        rw [if_pos rfl, foldRows_getLsbD hw hn _ _ _ _ hr]
        by_cases hin : row < rows ∧ bit / w < n ∧ on row (bit / w) = true
        · simp [VWrite.covers, sweepWrite, hin]
        · rw [if_neg hin]
          have hout : (sweepWrite rows n w on u f).covers u.toNat row bit = false := by
            simp only [VWrite.covers, sweepWrite, Bool.and_eq_false_iff, decide_eq_false_iff_not]
            by_cases hon : on row (bit / w) = true
            · exact .inl fun h => hin ⟨h.2.1, h.2.2, hon⟩
            · exact .inr (Bool.eq_false_iff.mpr hon)
          simp [hout, Core.vreg]
      · rw [if_neg hu]
        have hother : ¬u.toNat = vd.toNat := fun h => hu (BitVec.eq_of_toNat_eq h)
        simp [VWrite.covers, sweepWrite, hother, Core.vreg]
    · show (setBit c.vdirty vd.toNat true).getLsbD i = true ↔ _
      have hvd : vd.toNat < 64 := by omega
      rw [setBit_true_eq_or, BitVec.getLsbD_or, Bool.or_eq_true]
      simp only [List.mem_singleton, exists_eq_left, (sweepWrite_any vd).mp hany, and_true]
      refine or_congr_right ?_
      simp only [BitVec.getLsbD_ofNat, Nat.testBit_two_pow, sweepWrite, Bool.and_eq_true, decide_eq_true_eq]
      omega
  · have hkept : c.putWhere rows n w on vd f = c := if_neg hany
    rw [hkept]
    have hnone : ¬(sweepWrite rows n w on vd f).any := fun h => hany ((sweepWrite_any vd).mpr h)
    refine ⟨fun u row bit _ _ => ?_, fun i => by simp [hnone]⟩
    have hout : (sweepWrite rows n w on vd f).covers u.toNat row bit = false := by
      by_contra hcov
      simp only [VWrite.covers, Bool.not_eq_false, Bool.and_eq_true, decide_eq_true_eq] at hcov
      obtain ⟨⟨-, hrow, hbit⟩, hon⟩ := hcov
      exact hnone ⟨row, _, hrow, hbit, hon⟩
    simp [hout]

end

/-- The strip width of the model is that of Table 2-6 (R214). -/
theorem stripWidth_eq_stripW (c : Core) : stripWidth c = c.stripW := by
  have hwidth : ∀ et : EType, 16384 / (16384 / et.width) = et.width := fun et => by cases et <;> rfl
  unfold stripWidth Core.stripW
  rw [← vtypeMax_eq_rowLimit]
  exact hwidth _

/-- What a whole run by steps performs (R213). -/
theorem Core.performs_whole {c : Core} (hends : ∀ g, g < 4 → 512 ≤ c.hi.getD g 0) {m : Bool} {w row e : Nat}
    (h : stepOf w row e < 512) : c.performs .step m w row e = (activeAt c m row e && stepLeft c w row e) := by
  unfold Core.performs
  rw [active_eq_activeAt, inRun_eq_stepLeft hends (fun h => by cases h) h]

end Sys2Proof.Machine

namespace Sys2Proof.Machine

/-! ## `brk` and `ffs` (Tables 2-9 and 2-10) -/

/-- A bit of a word whose field has been replaced. -/
theorem setField_getLsbD (x : Word) {hi lo : Nat} (v i : Nat) (hlo : lo ≤ hi) (hhi : hi < 64) :
    (setField x hi lo v).getLsbD i = if lo ≤ i ∧ i ≤ hi then v.testBit (i - lo) else x.getLsbD i := by
  show ((x &&& ~~~fieldMask hi lo) ||| (BitVec.ofNat 64 (v <<< lo) &&& fieldMask hi lo)).getLsbD i = _
  simp only [BitVec.getLsbD_or, BitVec.getLsbD_and, BitVec.getLsbD_not, getLsbD_fieldMask, BitVec.getLsbD_ofNat,
    Nat.testBit_shiftLeft]
  by_cases h : lo ≤ i ∧ i ≤ hi
  · have h64 : i < 64 := by omega
    have hin : i - lo < hi + 1 - lo := by omega
    simp [h, h64, hin]
  · have hout : ¬(lo ≤ i ∧ i - lo < hi + 1 - lo) := by omega
    rw [if_neg h]
    by_cases h64 : i < 64
    · rcases not_and_or.mp hout with hl | hl
      · simp [hl, h64]
      · simp [hl, h64]
    · simp [h64, BitVec.getLsbD_of_ge x i (by omega)]

/-- The bits of a place in `brk` beside EXV. -/
theorem testBit_exitFields (a b i : Nat) (hi : i < 21) :
    (2 + a % 16 * 4 + b % 2 ^ 15 * 64).testBit i =
      if 6 ≤ i then b.testBit (i - 6) else if 2 ≤ i then a.testBit (i - 2) else decide (i = 1) := by
  have hsum : 2 + a % 16 * 4 + b % 2 ^ 15 * 64 = 2 ^ 6 * (b % 2 ^ 15) + (2 ^ 2 * (a % 2 ^ 4) + 2) := by omega
  rw [hsum, Nat.testBit_two_pow_mul_add _ (by omega), Nat.testBit_two_pow_mul_add _ (by omega), Nat.testBit_mod_two_pow,
    Nat.testBit_mod_two_pow]
  by_cases h6 : 6 ≤ i
  · have hb : i - 6 < 15 := by omega
    rw [if_neg (by omega), if_pos h6, decide_eq_true hb, Bool.true_and]
  · rw [if_pos (by omega), if_neg h6]
    by_cases h2 : 2 ≤ i
    · have ha : i - 2 < 4 := by omega
      rw [if_neg (by omega), if_pos h2, decide_eq_true ha, Bool.true_and]
    · rw [if_pos (by omega), if_neg h2, show 2 = 2 ^ 1 from rfl, Nat.testBit_two_pow]
      exact decide_eq_decide.mpr eq_comm

/-- An exit that has resolved in `brk`: V is clear, EXV is set, and its place is named (R266). -/
theorem brk_exit (x : Word) (a b : Nat) : setField (setField (setBit (setBit x 0 false) 1 true) 5 2 a) 20 6 b =
    (x &&& ~~~0x1FFFFF#64) ||| BitVec.ofNat 64 (2 + a % 16 * 4 + b % 2 ^ 15 * 64) := by
  have hmask : 0x1FFFFF#64 = fieldMask 20 0 := by decide
  refine BitVec.eq_of_getLsbD_eq fun i hi => ?_
  rw [setBit, setBit, setField_getLsbD _ _ _ (by omega) (by omega), setField_getLsbD _ _ _ (by omega) (by omega),
    setField_getLsbD _ _ _ (by omega) (by omega), setField_getLsbD _ _ _ (by omega) (by omega), hmask,
    BitVec.getLsbD_or, BitVec.getLsbD_and, BitVec.getLsbD_not, getLsbD_fieldMask, BitVec.getLsbD_ofNat]
  by_cases hlow : i < 21
  · have hin : i - 0 < 20 + 1 - 0 := by omega
    rw [testBit_exitFields a b i hlow]
    simp only [hi, hin, decide_true, Bool.true_and, Nat.zero_le, Bool.not_true, Bool.and_false, Bool.false_or]
    by_cases h6 : 6 ≤ i
    · rw [if_pos ⟨h6, by omega⟩, if_pos h6]
    · rw [if_neg (by omega), if_neg h6]
      by_cases h2 : 2 ≤ i
      · rw [if_pos ⟨h2, by omega⟩, if_pos h2]
      · rw [if_neg (by omega), if_neg h2]
        obtain rfl | rfl : i = 0 ∨ i = 1 := by omega
        · rfl
        · rfl
  · have hlt : 2 + a % 16 * 4 + b % 2 ^ 15 * 64 < 2 ^ i :=
      Nat.lt_of_lt_of_le (by omega) (Nat.pow_le_pow_right (by omega) (Nat.le_of_not_lt hlow))
    rw [if_neg (by omega), if_neg (by omega), if_neg (by omega), if_neg (by omega), Nat.testBit_lt_two_pow hlt]
    have hout : ¬i - 0 < 20 + 1 - 0 := by omega
    rw [decide_eq_false hout, Bool.and_false, Bool.and_false, Bool.or_false, Bool.not_false,
      decide_eq_true hi, Bool.and_true, Bool.and_true]

theorem setBit_false (x : Word) (i : Nat) : setBit x i false = x &&& ~~~fieldMask i i := setField_zero x i i

/-- No exit in `brk`: V and the place are clear, EXV stays (R266). -/
theorem brk_noExit (x : Word) : setField (setField (setBit x 0 false) 5 2 0) 20 6 0 = x &&& ~~~0x1FFFFD#64 := by
  have h : ~~~fieldMask 0 0 &&& ~~~fieldMask 5 2 &&& ~~~fieldMask 20 6 = ~~~0x1FFFFD#64 := by decide
  rw [setField_zero, setField_zero, setBit_false, BitVec.and_assoc, BitVec.and_assoc, ← BitVec.and_assoc (~~~fieldMask 0 0), h]

/-- `brk` after a partition: EXV says whether an element is left, its place is clear (R271). -/
theorem brk_partition (x : Word) (empty : Bool) : setField (setField (setBit x 1 empty) 5 2 0) 20 6 0 =
    if empty then (x &&& ~~~0x1FFFFE#64) ||| 2 else x &&& ~~~0x1FFFFE#64 := by
  have h : ~~~fieldMask 1 1 &&& (~~~fieldMask 5 2 &&& ~~~fieldMask 20 6) = ~~~0x1FFFFE#64 := by decide
  have h2 : fieldMask 1 1 &&& (~~~fieldMask 5 2 &&& ~~~fieldMask 20 6) = 2#64 := by decide
  rw [setField_zero, setField_zero, BitVec.and_assoc]
  cases empty with
  | false => rw [setBit_false, BitVec.and_assoc, h, if_neg Bool.false_ne_true]
  | true => rw [setBit_true, BitVec.and_or_distrib_right, BitVec.and_assoc, h, h2, if_pos rfl]; rfl

/-- V, WHY and the place of a suppressed element side by side in `ffs`. -/
theorem ffsWord_eq (why : BitVec 3) (row e : Nat) (hrow : row < 32) (he : e < 2 ^ 15) :
    ffsWord why.toNat row e = 0x800000#64 ||| BitVec.ofNat 64 (why.toNat * 2 ^ 20 + row * 2 ^ 15 + e) := by
  have hlow : why.toNat * 2 ^ 20 + row * 2 ^ 15 + e < 2 ^ 23 := by omega
  have hor := Nat.two_pow_add_eq_or_of_lt hlow 1
  rw [Nat.mul_one] at hor
  refine BitVec.eq_of_toNat_eq ?_
  rw [BitVec.toNat_or, BitVec.toNat_ofNat (x := _ + e), Nat.mod_eq_of_lt (Nat.lt_of_lt_of_le hlow (by decide)),
    show (0x800000#64).toNat = 2 ^ 23 from rfl, ← hor, ffsWord, BitVec.toNat_ofNat, Nat.shiftLeft_eq, Nat.shiftLeft_eq,
    Nat.shiftLeft_eq]
  omega

/-! ## `VPART` -/

/-- What a write leaves depends on its selection within its rows and elements alone. -/
theorem Leaves.of_on {c : Core} {x : VWrite} {v : Vector VReg 32} {d : Word} {on' : Nat → Nat → Bool} (h : Leaves c [x] v d)
    (hon : ∀ row e, row < x.rows → e < x.n → x.on row e = on' row e) : Leaves c [{ x with on := on' }] v d := by
  have hcovers : ∀ reg row bit, ({ x with on := on' } : VWrite).covers reg row bit = x.covers reg row bit := by
    intro reg row bit
    simp only [VWrite.covers]
    by_cases hin : reg = x.reg ∧ row < x.rows ∧ bit / x.w < x.n
    · rw [hon row _ hin.2.1 hin.2.2]
    · rw [decide_eq_false hin, Bool.false_and, Bool.false_and]
  have hany : ({ x with on := on' } : VWrite).any ↔ x.any := by
    refine exists_congr fun row => exists_congr fun e => and_congr_right fun hr => and_congr_right fun he => ?_
    exact Bool.eq_iff_iff.mp (hon row e hr he).symm
  refine ⟨fun r row bit hr hb => (h.bits r row bit hr hb).trans ?_, fun i => (h.dirty i).trans ?_⟩
  · simp only [List.reverse_singleton, List.find?_singleton, hcovers]
    cases x.covers r.toNat row bit <;> rfl
  · simp only [List.mem_singleton, exists_eq_left, hany]

section
variable {s : State} {o : MaskArgs}

/-- Nothing stops a mask word of a length that fits, where nothing is spoiled. -/
theorem maskLimits_ok {c : Core} (hvl : c.run.vl.toNat ≤ rowLimit c.run.vtype) (hp : c.poison = []) (m : Bool)
    (rd : List (BitVec 5)) : maskLimits m rd c = .ok () := by
  have hlen : needVl c (vtypeMax c.run.vtype) = .ok () := by
    rw [vtypeMax_eq_rowLimit]
    exact if_pos (decide_eq_true hvl)
  unfold maskLimits
  rw [hlen, sound_unspoilt hp]
  rfl

theorem Core.fullRun_of_ends {c : Core} (h : ∀ g, g < 4 → 512 ≤ c.hi.getD g 0) : c.fullRun = true := by
  unfold Core.fullRun
  rw [Vector.all_eq_true]
  intro g hg
  simpa [Vector.getD, hg] using h g hg

/-- The bits that a partition writes: the elements of `v0` whose bit of va is 0 (R271). -/
def partBit (c : Core) (o : MaskArgs) (r e : Nat) : Bool := c.maskBit 0 r e && !c.maskBit o.va r e

/-- The core with the partition's bits in vd. -/
def Core.parted (c : Core) (o : MaskArgs) : Core := c.putBits .step false c.stripW o.vd (partBit c o)

theorem Core.parted_frame (c : Core) (o : MaskArgs) :
    c.parted o = { c with v := (c.parted o).v, vdirty := (c.parted o).vdirty } := Core.putWhere_frame ..

/-- No element of the tile has its bit in vd. -/
def Core.noneIn (c : Core) (vd : BitVec 5) : Bool :=
  (List.range c.rows).all fun r => (List.range c.vlen).all fun e => !c.maskBit vd r e

theorem Core.noneIn_iff {c : Core} {vd : BitVec 5} : c.noneIn vd = true ↔
    ∀ r e, r < c.run.rc.toNat → e < c.run.vl.toNat → ((c.v[vd.toNat]).row r).getLsbD e = false := by
  simp only [Core.noneIn, List.all_eq_true, List.mem_range, Bool.not_eq_true']
  exact ⟨fun h r e hr he => h r hr e he, fun h r hr e he => h r e hr he⟩

/-- A length that fits the strip fits a row of bits. -/
theorem vl_le_of_rowLimit {c : Core} (h : c.run.vl.toNat ≤ rowLimit c.run.vtype) : c.run.vl.toNat ≤ 16384 := by
  have := Nat.le_mul_of_pos_right (rowLimit c.run.vtype) c.stripW_pos
  have := rowLimit_mul_stripW c
  omega

/-- A partition writes its bits in vd, for every element that is left (R213, R271). -/
theorem Core.parted_leaves {c : Core} (o : MaskArgs) (hends : ∀ g, g < 4 → 512 ≤ c.hi.getD g 0)
    (hrc : c.run.rc.toNat ≤ 16) (hvl : c.run.vl.toNat ≤ rowLimit c.run.vtype) :
    Leaves c [laneElems c false (stripWidth c) 1 o.vd fun r e => (bitAt c 0 r e && !bitAt c o.va r e).toNat]
      (c.parted o).v (c.parted o).vdirty := by
  have hrow : c.run.vl.toNat * 1 ≤ 16384 := (Nat.mul_one _).le.trans (vl_le_of_rowLimit hvl)
  have hleaves := Core.putWhere_leaves c (c.performs .step false c.stripW) o.vd (fun r e => (partBit c o r e).toNat)
    (by decide : 0 < 1) hrc hrow
  have hon : ∀ row e, row < c.run.rc.toNat → e < c.run.vl.toNat →
      c.performs .step false c.stripW row e = (activeAt c false row e && stepLeft c (stripWidth c) row e) := by
    intro row e hr he
    rw [stripWidth_eq_stripW]
    exact Core.performs_whole hends (stepOf_lt (Nat.lt_of_lt_of_le hr hrc) (Nat.lt_of_lt_of_le he hvl)
      (rowLimit_mul_stripW c) c.stripW_pos)
  exact hleaves.of_on hon

/-- The core after a partition (R271). -/
def Core.partition (c : Core) (o : MaskArgs) : Core :=
  let p := c.parted o
  if p.fullRun then { p with brk := setField (setField (setBit p.brk 1 (p.noneIn o.vd)) 5 2 0) 20 6 0 } else p

theorem Core.partition_whole {c : Core} (o : MaskArgs) (hends : ∀ g, g < 4 → 512 ≤ c.hi.getD g 0) :
    c.partition o = { c with
      v := (c.parted o).v, vdirty := (c.parted o).vdirty
      brk := if (c.parted o).noneIn o.vd then (c.brk &&& ~~~0x1FFFFE#64) ||| 2 else c.brk &&& ~~~0x1FFFFE#64 } := by
  have hfull : (c.parted o).fullRun = true := by
    rw [Core.parted_frame]
    exact Core.fullRun_of_ends hends
  have hbrk : (c.parted o).brk = c.brk := by rw [Core.parted_frame]
  unfold Core.partition
  dsimp only
  rw [if_pos hfull, brk_partition, hbrk]
  generalize (c.parted o).noneIn o.vd = empty
  rw [Core.parted_frame]

/-- A partition that may run leaves its bits in vd, and in `brk` whether any of them is set (R271). -/
theorem execVpart_partitions (hready : Ready s false) (hvl : s.core.run.vl.toNat ≤ rowLimit s.core.run.vtype) :
    execVpart o s = .next (State.retired { s with core := s.core.partition o }) := by
  have hann := hready.not_annulled
  obtain ⟨hm, hu, hp, hclean, hrc, hends, hin⟩ := hready
  have hregion : s.core.region = none := by
    by_contra h
    obtain ⟨r, hr⟩ := Option.ne_none_iff_exists'.mp h
    exact Bool.false_ne_true (hin r hr).1
  have hkept : (s.core.partition o).mode = s.core.mode ∧ (s.core.partition o).wrote = s.core.wrote := by
    rw [Core.partition_whole o hends]
    exact ⟨rfl, rfl⟩
  refine (vecWord_run (t := { s with core := s.core.partition o }) (firstUseOk_none hu) (regionOk_none hregion false)
    hann (maskLimits_ok hvl (State.poison_of_anyPoison hp) false [o.va, 0]) (by rw [hm]; decide) rfl).trans ?_
  exact endVec_retired (hkept.1.trans hm) (hkept.2.trans hclean)

end
end Sys2Proof.Machine

namespace Sys2Proof.Machine

/-! ## The place of an exit (R266) -/

/-- The places of a tile that satisfy a condition, row by row. -/
theorem filter_places (p : Nat → Nat → Bool) (n : Nat) : ∀ rows,
    (List.range (rows * n)).filter (fun l => p (l / n) (l % n)) =
      (List.range rows).flatMap fun r => ((List.range n).filter (p r)).map fun e => r * n + e
  | 0 => by simp
  | rows + 1 => by
    have hrow : (List.range n).filter (fun e => p ((rows * n + e) / n) ((rows * n + e) % n)) = (List.range n).filter (p rows) := by
      refine List.filter_congr fun e he => ?_
      have hlt := List.mem_range.mp he
      rw [Nat.mul_comm, Nat.mul_add_div (by omega), Nat.mul_add_mod, Nat.div_eq_of_lt hlt, Nat.mod_eq_of_lt hlt, Nat.add_zero]
    rw [Nat.succ_mul, List.range_add, List.filter_append, filter_places p n rows, List.range_succ, List.flatMap_append,
      List.filter_map, List.flatMap_singleton]
    exact congrArg _ (congrArg _ hrow)

/-- The exit bit that the model finds is that of the tables. -/
theorem firstLin_eq_firstPlace (c : Core) (m : Bool) (va : BitVec 5) : c.firstLin m va = firstPlace c m va := by
  have hplaces : ((c.activePairs m).filter fun p => c.maskBit va p.1 p.2).map (fun p => p.1 * c.vlen + p.2) =
      (List.range (c.run.rc.toNat * c.run.vl.toNat)).filter fun l =>
        activeAt c m (l / c.run.vl.toNat) (l % c.run.vl.toNat) && bitAt c va (l / c.run.vl.toNat) (l % c.run.vl.toNat) := by
    rw [filter_places fun r e => activeAt c m r e && bitAt c va r e]
    unfold Core.activePairs Core.actives
    rw [List.filter_flatMap, List.map_flatMap]
    refine List.flatMap_congr fun r _ => ?_
    rw [List.filter_map, List.map_map, List.filter_filter]
    refine congrArg _ (List.filter_congr fun e _ => ?_)
    rw [active_eq_activeAt, Bool.and_comm]
    rfl
  have hfind : c.firstLin m va = ((((c.activePairs m).filter fun p => c.maskBit va p.1 p.2).map
      fun p => p.1 * c.vlen + p.2).head?).getD (c.rows * c.vlen) := by
    rw [List.head?_map, List.head?_filter]
    unfold Core.firstLin
    cases (c.activePairs m).find? fun p => c.maskBit va p.1 p.2 <;> rfl
  rw [hfind, hplaces]
  rfl

/-! ## The hamper -/

section
variable {s t : State} {hs : List Held}

/-- The hamper performs elements that stand in frames of their context as they are written in turn (R414). -/
theorem performHeld_eq_writeHeld : ∀ {hs : List Held} {s : State}, s.MemoriesWf → s.anyPoison = false →
    (∀ h ∈ hs, heldSized h) → (∀ h ∈ hs, heldOwned s h) → performHeld hs s = .ok (writeHeld hs s)
  | [], _, _, _, _, _ => rfl
  | h :: hs, s, hwf, hp, hsized, howned => by
    have hown := howned h List.mem_cons_self
    obtain ⟨-, -, -, -, hrem, -⟩ := (hsized h List.mem_cons_self).setsBits hwf hp
    have hfirst : h.perform s = .ok (elemWrite s h.bits h.high h.place h.val) := by
      unfold Held.perform
      rw [State.poison_of_anyPoison hp]
      cases hplace : h.place with
      | dram a => dsimp only; rw [hown a hplace]; rfl
      | _ => rfl
    have howned' : ∀ x ∈ hs, heldOwned (elemWrite s h.bits h.high h.place h.val) x := by
      rw [hrem.same]
      exact fun x hx => howned x (List.mem_cons_of_mem _ hx)
    unfold performHeld
    rw [hfirst]
    exact performHeld_eq_writeHeld hrem.wf (hrem.anyPoison.trans hp) (fun x hx => hsized x (List.mem_cons_of_mem _ hx)) howned'

theorem Core.unheld_sound {c : Core} (h : c.poison = []) : c.unheld = c := by
  unfold Core.unheld
  rw [h, List.filter_nil, ← h]

/-! ## `VEXIT` -/

/-- What an exit leaves in `ffs`: its suppressed element, if that comes before the exit (R266). -/
def exitFfs (c : Core) (b : Nat) (supp : Option (Nat × BitVec 3)) : Word :=
  match supp with
  | some (q, why) => if q < b then ffsWord why.toNat (q / c.vlen) (q % c.vlen) else c.ffs
  | none => c.ffs

/-- The element after an exit bit, or after the last of the tile. -/
def exitEnd (c : Core) (o : MaskArgs) (inclusive : Bool) : Nat :=
  if exitPlace c o < c.run.rc.toNat * c.run.vl.toNat then exitPlace c o + inclusive.toNat
  else c.run.rc.toNat * c.run.vl.toNat

/-- The first element that an exit does not complete, and the core with its suppressed element noted (R266). -/
def exitCut (c : Core) (b : Nat) (supp : Option (Nat × BitVec 3)) : Nat × Core :=
  match supp with
  | some (q, why) => if q < b then (q, { c with ffs := ffsWord why.toNat (q / c.vlen) (q % c.vlen) }) else (b, c)
  | none => (b, c)

theorem exitCut_eq (c : Core) (o : MaskArgs) (inclusive : Bool) (r : Region) :
    exitCut c (exitEnd c o inclusive) r.supp =
      (exitBound c o inclusive r, { c with ffs := exitFfs c (exitEnd c o inclusive) r.supp }) := by
  unfold exitCut exitBound exitFfs
  dsimp only
  cases r.supp with
  | none => rfl
  | some x =>
    obtain ⟨q, why⟩ := x
    by_cases hq : q < exitEnd c o inclusive
    · have hmin : Min.min q (exitEnd c o inclusive) = q := Nat.min_eq_left (Nat.le_of_lt hq)
      dsimp only
      rw [if_pos hq, if_pos hq]
      exact congrArg (·, _) hmin.symm
    · have hmin : Min.min q (exitEnd c o inclusive) = exitEnd c o inclusive := Nat.min_eq_right (Nat.le_of_not_lt hq)
      dsimp only
      rw [if_neg hq, if_neg hq]
      exact congrArg (·, c) hmin.symm

/-- The rest of an exit, from its cut on. -/
def exitFrom (s : State) (o : MaskArgs) (r : Region) (x : Nat × Core) : Except Stop State :=
  match performHeld (r.held.filter fun h => decide (h.lin < x.1)) { s with core := x.2 } with
  | .error e => .error e
  | .ok t => .ok { t with core := t.core.resolved (exitPlace s.core o) x.1 r.supp }

theorem exitFrom_ok {o : MaskArgs} {r : Region} {x : Nat × Core}
    (h : performHeld (r.held.filter fun h => decide (h.lin < x.1)) { s with core := x.2 } = .ok t) :
    exitFrom s o r x = .ok { t with core := t.core.resolved (exitPlace s.core o) x.1 r.supp } := by
  unfold exitFrom
  rw [h]

theorem exitBody_eq_exitFrom {o : MaskArgs} {r : Region} (inclusive : Bool) (hr : s.core.region = some r)
    (hends : 512 ≤ s.core.hi.getD 0 0) :
    exitBody o inclusive.toNat s = exitFrom s o r (exitCut s.core (exitEnd s.core o inclusive) r.supp) := by
  have hwhole : ¬(!s.core.wholeRuns) = true := by
    rw [Core.wholeRuns, decide_eq_true hends]
    exact Bool.false_ne_true
  unfold exitBody
  rw [hr]
  dsimp only
  rw [if_neg hwhole, firstLin_eq_firstPlace]
  rfl

/-- The suppressed element of a region lies in its tile when it comes before the exit, so `ffs` can name it. -/
theorem exitFfs_eq {c : Core} {o : MaskArgs} {inclusive : Bool} {q : Nat} {why : BitVec 3} (hrc : c.run.rc.toNat ≤ 16)
    (hvl : c.run.vl.toNat ≤ 16384) (hq : q < exitEnd c o inclusive) :
    ffsWord why.toNat (q / c.vlen) (q % c.vlen) =
      0x800000#64 ||| BitVec.ofNat 64 (why.toNat * 2 ^ 20 + q / c.run.vl.toNat * 2 ^ 15 + q % c.run.vl.toNat) := by
  have htile : q < c.run.rc.toNat * c.run.vl.toNat := by
    refine Nat.lt_of_lt_of_le hq ?_
    unfold exitEnd
    have := inclusive.toNat_le
    split <;> omega
  have hpos : 0 < c.run.vl.toNat := Nat.pos_of_ne_zero fun h => by simp [h] at htile
  have hrow : q / c.run.vl.toNat < c.run.rc.toNat := (Nat.div_lt_iff_lt_mul hpos).mpr htile
  have he : q % c.run.vl.toNat < c.run.vl.toNat := Nat.mod_lt _ hpos
  exact ffsWord_eq why (q / c.run.vl.toNat) (q % c.run.vl.toNat) (by omega) (by omega)

section
variable {c : Core} {o : MaskArgs} {inclusive : Bool} {r : Region}

theorem exitState_ffs (hrc : c.run.rc.toNat ≤ 16) (hvl : c.run.vl.toNat ≤ 16384) :
    exitFfs c (exitEnd c o inclusive) r.supp = (exitState c o inclusive r).ffs := by
  unfold exitFfs exitState
  dsimp only
  cases r.supp with
  | none => rfl
  | some x =>
    obtain ⟨q, why⟩ := x
    by_cases hq : q < exitEnd c o inclusive
    · exact (if_pos hq).trans ((exitFfs_eq hrc hvl hq).trans (if_pos hq).symm)
    · exact (if_neg hq).trans (if_neg hq).symm

theorem exitState_brk (d : Core) (hbrk : d.brk = c.brk) (hrun : d.run = c.run) :
    (d.resolved (exitPlace c o) (exitBound c o inclusive r) r.supp).brk = (exitState c o inclusive r).brk := by
  unfold Core.resolved exitState Core.rows Core.vlen
  dsimp only
  rw [hbrk, hrun, brk_exit, brk_noExit]
  cases r.supp <;> rfl

/-- The state words that an exit leaves are those of R266, over any memories. -/
theorem Core.resolved_eq_exitState (hp : c.poison = []) (hrc : c.run.rc.toNat ≤ 16) (hvl : c.run.vl.toNat ≤ 16384)
    (m : Memory) :
    ({ c with ffs := exitFfs c (exitEnd c o inclusive) r.supp, spad := m } : Core).resolved (exitPlace c o)
      (exitBound c o inclusive r) r.supp = { exitState c o inclusive r with spad := m } := by
  have hbrk := exitState_brk (r := r) (o := o) (inclusive := inclusive)
    { c with ffs := exitFfs c (exitEnd c o inclusive) r.supp, spad := m } rfl rfl
  have hffs := exitState_ffs (r := r) (o := o) (inclusive := inclusive) hrc hvl
  unfold Core.resolved at hbrk ⊢
  rw [Core.unheld_sound (by exact hp)] at hbrk ⊢
  exact congrArg₂ (fun x y : Word => { c with ffs := x, brk := y, brkp := 0, region := none, spad := m }) hffs hbrk

end

end

end Sys2Proof.Machine

namespace Sys2Proof.Machine

/-! ## The words of a region (R263 to R269) -/

section
variable {s : State} {o : MaskArgs} {inclusive : Bool} {r : Region}

theorem regionOk_ready (h : Ready s true) : regionOk s.core true = .ok () :=
  regionOk_within fun r hr => (h.region r hr).2.2

/-- Outside an annulled region an exit is a word with its own limit (R266). -/
theorem exitWord_eq_vecWord (h : s.core.annulled = false) (inc : Nat) :
    exitWord o inc s = vecWord .whole true (fun c => needAll [need c.region.isSome 9 0, maskLimits o.m [o.va] c])
      (exitBody o inc) s := if_neg (by rw [h]; exact Bool.false_ne_true)

/-- Without an open region an exit is an operand limit (R266). -/
theorem exitWord_outside (h : Ready s true) (hr : s.core.region = none) (inc : Nat) : limited s 9 (exitWord o inc s) := by
  rw [exitWord_eq_vecWord h.not_annulled]
  exact memWord_limit h.whole h.used (regionOk_ready h) h.not_annulled (v := 0) (by rw [hr]; rfl)

/-- The core of an exit that performs its held elements, its suppressed one noted. -/
def exitNoted (s : State) (o : MaskArgs) (inclusive : Bool) (r : Region) : State :=
  { s with core := { s.core with ffs := exitFfs s.core (exitEnd s.core o inclusive) r.supp } }

/-- An exit performs the held elements before its cut, and leaves the state words of R266. -/
theorem exitBody_resolves (hr : s.core.region = some r) (hends : 512 ≤ s.core.hi.getD 0 0) (hp : s.anyPoison = false)
    (hrc : s.core.run.rc.toNat ≤ 16) (hvl : s.core.run.vl.toNat ≤ 16384) {hs : List Held}
    (hhs : (r.held.filter fun x => x.lin < exitBound s.core o inclusive r) = hs) (hsized : ∀ x ∈ hs, heldSized x)
    (howned : ∀ x ∈ hs, heldOwned s x) (hapart : heldApart hs) (hwf : s.MemoriesWf) :
    ∃ m0 m1 m2, Performed s (s.withMemory m0 m1 m2) hs ∧
      exitBody o inclusive.toNat s =
        .ok { s.withMemory m0 m1 m2 with core := { exitState s.core o inclusive r with spad := m2 } } := by
  have hwf' : (exitNoted s o inclusive r).MemoriesWf := ⟨hwf.dram, hwf.host, hwf.spad⟩
  have hdone := writeHeld_performed hwf' hp hsized hapart
  have hheld := performHeld_eq_writeHeld hwf' hp hsized howned
  generalize writeHeld hs (exitNoted s o inclusive r) = t at hdone hheld
  obtain ⟨hrem, hperf⟩ := hdone
  refine ⟨t.dev.dram, t.dev.host, t.core.spad, ?_, ?_⟩
  · rw [hrem.same] at hperf
    exact hperf
  · have hcore : t.core = { s.core with ffs := exitFfs s.core (exitEnd s.core o inclusive) r.supp, spad := t.core.spad } :=
      congrArg State.core hrem.same
    have hresolved := Core.resolved_eq_exitState (o := o) (inclusive := inclusive) (r := r)
      (State.poison_of_anyPoison hp) hrc hvl t.core.spad
    rw [← hcore] at hresolved
    rw [← hhs] at hheld
    rw [exitBody_eq_exitFrom inclusive hr hends, exitCut_eq, exitFrom_ok hheld]
    refine congrArg Except.ok ((congrArg (fun c : Core => { t with core := c }) hresolved).trans ?_)
    exact congrArg (fun u : State => { u with core := { exitState s.core o inclusive r with spad := t.core.spad } }) hrem.same

/-- An exit of a region that may run retires in the state of R266. -/
theorem exitWord_retires (h : Ready s true) (hvl : s.core.run.vl.toNat ≤ rowLimit s.core.run.vtype)
    (hr : s.core.region = some r) (inc : Nat) {t : State} (hbody : exitBody o inc s = .ok t) (hm : t.core.mode = s.core.mode)
    (hw : t.core.wrote = s.core.wrote) : exitWord o inc s = .next t.retired := by
  have hlimits : needAll [need s.core.region.isSome 9 0, maskLimits o.m [o.va] s.core] = .ok () := by
    rw [hr, maskLimits_ok hvl (State.poison_of_anyPoison h.sound)]
    rfl
  have hrun := h.whole
  rw [exitWord_eq_vecWord h.not_annulled, vecWord_run (firstUseOk_none h.used) (regionOk_ready h) h.not_annulled
    hlimits (by rw [hrun]; decide) hbody]
  exact endVec_retired (hm.trans hrun) (hw.trans h.clean)

/-- In an annulled region an exit only closes it (R268). -/
theorem exitWord_annulled (hr : s.core.region = some r) (ha : r.annulled = true) (hm : s.core.mode = .whole)
    (hu : firstUse s.core.run = none) (hp : s.anyPoison = false) (hclean : s.core.wrote = [])
    (hends : 512 ≤ s.core.hi.getD 0 0) (hwords : r.words + s.core.ownPos < 48) (hvl : s.core.run.vl = r.vl)
    (hrc : s.core.run.rc = r.rc) (inc : Nat) :
    exitWord o inc s =
      .next (State.retired { s with core := { s.core with brk := s.core.brk &&& ~~~1#64, brkp := 0, region := none } }) := by
  have hann : s.core.annulled = true := by
    unfold Core.annulled
    rw [hr]
    exact ha
  have hregion : regionOk s.core true = .ok () := regionOk_within fun r' hr' => by
    obtain rfl := Option.some.inj (hr'.symm.trans hr)
    exact ⟨hwords, hvl, hrc⟩
  have hwhole : s.core.wholeRuns = true := decide_eq_true hends
  have hbit : setBit s.core.brk 0 false = s.core.brk &&& ~~~1#64 := setBit_false _ _
  unfold exitWord
  rw [if_pos hann, firstUseOk_none hu, hregion]
  dsimp only [State.withCore]
  rw [if_pos hwhole, Core.unheld_sound (State.poison_of_anyPoison hp), hbit]
  exact endVec_retired hm hclean

end

/-! ## `VSTH` in a region (R264) -/

section
variable {s : State} {a : MemArgs} {r : Region} {pl : Elem → Place} {els : List Elem}

/-- The core in which the hamper has taken the elements of a store. -/
def Core.holding (c : Core) (a : MemArgs) (r : Region) (els : List Elem) (pl : Elem → Place) : Core :=
  ({ c with region := some { r with held := r.held ++ els.map (heldOf c a pl) } } : Core).streamOn a
    (c.run.rc.toNat * c.run.vl.toNat)

/-- A store in a region holds the elements that stand, and writes none. -/
theorem holdBody_holds (hr : s.core.region = some r) (hmode : s.core.mode = .whole) (hp : s.anyPoison = false)
    (hels : s.core.targets a false (s.core.shapeOf a) (s.core.memRun .step a.et.width) = els)
    (hstand : Stand s a .write (doneOf els) pl) (hnodup : ((doneOf els).map fun el => (pl el, el.high)).Nodup) :
    holdBody a s = .ok { s with free := s.free + 1, core := s.core.holding a r (doneOf els) pl } := by
  have hcheck : ¬s.core.mode = .check := by rw [hmode]; decide
  have hbad : ∀ el : Elem, s.core.spoiltElem a.va a.et.width el.row el.e = false := fun el => by
    unfold Core.spoiltElem
    rw [State.poison_of_anyPoison hp]
    rfl
  have hchecks := checkElems_stand (mode := .all) hstand (by decide) hmode hbad (fun _ _ => rfl) a.et.width
  have hheld : ((doneOf els).map (atPlace pl)).map (fun x : Elem × Place => (⟨s.core.run.rank, x.1.lin, x.1.addr, x.2, a.et.width,
      x.1.high, s.core.elem a.va a.et.width x.1.row x.1.e⟩ : Held)) = (doneOf els).map (heldOf s.core a pl) := by
    rw [List.map_map]
    exact List.map_congr_left fun el _ => by rw [heldOf, ← elem_eq_elemAt]; rfl
  unfold holdBody
  dsimp only
  rw [hels, hstand.ready hp, hchecks]
  dsimp only
  rw [if_neg hcheck, List.foldl_nil, inOrder_atPlace hnodup, hheld, Core.advanceBy_eq_streamOn, hr]
  rfl

/-- Elements that a `VSTH` of a region performs as a whole. -/
theorem Ready.targets (h : Ready s true) (hvl : s.core.run.vl.toNat ≤ 16384 / a.et.width) :
    s.core.targets a false (s.core.shapeOf a) (s.core.memRun .step a.et.width) =
      elementsOf s.core a false (stepLeft s.core a.et.width) :=
  Core.targets_whole (by decide) h.ends (fun h => by cases h) h.rows hvl

/-- The limits of a `VSTH` are those of a store, and then the hamper's. -/
theorem vsthLimits_eq (h : firstBroken (memLimitsOf s.core a false true (typeIn 3) [] true) = none) :
    needAll [memLimits a false true anyType [] (fun _ => true) s.core, needHamper s.core] =
      needAll [needHamper s.core] := by
  have hkept := (memLimits_table (c := s.core) (o := a) (indexed := false) (data := true) (extra := fun _ => true) (wr := [])
    (anyType_eq_typeIn _) named_nil rfl).2 h
  rw [hkept]
  rfl

/-- A `VSTH` beyond the hamper is cause 0x10 (R264). -/
theorem execVsth_overflows (h : Ready s true) (hr : s.core.region = some r)
    (hnone : firstBroken (memLimitsOf s.core a false true (typeIn 3) [] true) = none) (hfull : 4 ≤ r.stores) :
    execVsth a s = .next (takeTrap s ⟨.word s.core.run.rank, 0x10, BitVec.ofNat 64 (r.stores + 1), 0⟩) := by
  have hhamper : needHamper s.core = .error (.stop ⟨0x10, BitVec.ofNat 64 (r.stores + 1), 0, 0⟩) := by
    unfold needHamper
    rw [hr]
    exact if_neg (Nat.not_lt.mpr hfull)
  have hlimits : needAll [memLimits a false true anyType [] (fun _ => true) s.core, needHamper s.core] =
      .error (.stop ⟨0x10, BitVec.ofNat 64 (r.stores + 1), 0, 0⟩) := (vsthLimits_eq hnone).trans (by rw [hhamper]; rfl)
  refine Eq.trans ?_ (refuseWord_stop s ⟨0x10, BitVec.ofNat 64 (r.stores + 1), 0, 0⟩ h.whole)
  exact memWord_refused h.used (regionOk_ready h) h.not_annulled hlimits

/-- A `VSTH` of a region that has room for it holds its elements and retires (R264). -/
theorem execVsth_holds (h : Ready s true) (hr : s.core.region = some r)
    (hnone : firstBroken (memLimitsOf s.core a false true (typeIn 3) [] true) = none) (hroom : r.stores < 4)
    (hels : elementsOf s.core a false (stepLeft s.core a.et.width) = els) (hstand : Stand s a .write (doneOf els) pl)
    (hnodup : ((doneOf els).map fun el => (pl el, el.high)).Nodup) :
    execVsth a s =
      .next (State.retired { s with free := s.free + 1, core := s.core.holding a r (doneOf els) pl }) := by
  have hhamper : needHamper s.core = .ok () := by
    unfold needHamper
    rw [hr]
    exact if_pos hroom
  have hlimits : needAll [memLimits a false true anyType [] (fun _ => true) s.core, needHamper s.core] = .ok () :=
    (vsthLimits_eq hnone).trans (by rw [hhamper]; rfl)
  have htargets := (h.targets (memLimitsOf_unbroken hnone).2.1).trans hels
  have hbody : (if s.core.region.isSome then holdBody a s else storeBody a .step false s) =
      .ok { s with free := s.free + 1, core := s.core.holding a r (doneOf els) pl } := by
    rw [hr]
    exact holdBody_holds hr h.whole h.sound htargets hstand hnodup
  have hkept : (s.core.holding a r (doneOf els) pl).mode = s.core.mode ∧
      (s.core.holding a r (doneOf els) pl).wrote = s.core.wrote := by
    unfold Core.holding Core.streamOn
    split <;> exact ⟨rfl, rfl⟩
  refine (memWord_run (t := { s with free := s.free + 1, core := s.core.holding a r (doneOf els) pl }) (firstUseOk_none h.used)
    (regionOk_ready h) h.not_annulled hlimits hbody).trans ?_
  exact endVec_retired (hkept.1.trans h.whole) (hkept.2.trans h.clean)

end

/-- Settles O50: an exit performs what the hamper holds, `VSTH` fills it, and `VPART` sweeps its bits, each by its own lemma. -/
theorem regionsHoldAndResolve : Obligations.RegionsHoldAndResolve := by
  unfold Obligations.RegionsHoldAndResolve
  intro s o i inclusive hi
  have hexec : exec i s = exitWord o inclusive.toNat s := by
    rcases hi with ⟨rfl, rfl⟩ | ⟨rfl, rfl⟩ <;> rfl
  dsimp only
  rw [hexec]
  refine ⟨fun hready hvl => ⟨fun hr => exitWord_outside hready hr _, ?exit⟩, ?annulled, ?held, ?part⟩
  case exit =>
    intro r hr hsized howned hapart hdram hhost hspad
    obtain ⟨m0, m1, m2, hperf, hbody⟩ := exitBody_resolves hr (hready.ends 0 (by decide)) hready.sound hready.rows
      (vl_le_of_rowLimit hvl) rfl (fun h hh => hsized h (List.mem_filter.mp hh).1) howned hapart ⟨hdram, hhost, hspad⟩
    exact ⟨m0, m1, m2, hperf, exitWord_retires hready hvl hr _ hbody rfl rfl⟩
  case annulled =>
    intro r hr ha hm hu hp hclean hends hwords hvl hrc
    exact exitWord_annulled hr ha hm hu hp hclean hends hwords hvl hrc _
  case held =>
    intro a r pl hready hr hnone
    exact ⟨fun hfull => execVsth_overflows hready hr hnone hfull,
      fun hroom hstand hnodup => execVsth_holds hready hr hnone hroom rfl hstand hnodup⟩
  case part =>
    intro hready hvl
    have hbrk := execVpart_partitions (o := o) hready hvl
    rw [Core.partition_whole o hready.ends] at hbrk
    refine ⟨_, _, Core.parted_leaves o hready.ends hready.rows hvl, fun hempty => ?_, fun hsome => ?_⟩
    · have hnone : (s.core.parted o).noneIn o.vd = true := by
        rw [Core.noneIn_iff, Core.parted_frame]
        exact hempty
      rw [hnone] at hbrk
      exact hbrk
    · have hnone : (s.core.parted o).noneIn o.vd = false := by
        rw [Bool.eq_false_iff, ne_eq, Core.noneIn_iff, Core.parted_frame]
        exact hsome
      rw [hnone] at hbrk
      exact hbrk

end Sys2Proof.Machine

/-! PROOFS. Encoding (spec/06): decoding undoes encoding, and accepts nothing else. -/

namespace Sys2Proof.Laws.RoundTrip

/-- The case split over the instructions, in the order of `Instr`: each case is the instruction's own round trip. -/
theorem statement_holds (i : Instr) : Statement i :=
  Instr.casesOn (motive := Statement) i
    vadd vsub vmul vmulh vmacc vmin vmax vand vor vxor vshl vshr vsar vabs vsadd vssub vfadd vfsub vfmul vfma vfnma
    vfdiv vfsqrt vfrsqe vfexp2 vfmin vfmax vfclamp vfabs vfneg vcmpeq vcmpne vcmplt vcmpge vcmple vcmpgt vfcmpeq
    vfcmpne vfcmplt vfcmple vfcmpgt vfcmpge vfcmpun vfcmpord vmand vmor vmxor vmnot vmandn vmpop vmfirst vmscanand
    viota vidx vidxr vredsum vredmin vredmax vredand vredor vredxor vfredt vfredo vfredmax vfredmin vscansum vscanmax
    vscanmin vcolsum vcolmax vcolmin vrgather vrgatherw vslideup vslidedn vcompress vexpand vbcast vmv vrowmv vrowbc
    vcvt vpack2 vpack4 vunpk2 vunpk4 vqnt vslicea vsliceb vunslicea vunsliceb vcprs4 vspec vspecf vbrkb vbrki vexitb
    vexiti vpart vfftrim vpfold vhacc vld vldx vldff vldsp vldspx vldp vst vstx vsth vstp vamoAdd vamoSwp vamoMin
    vamoMax vamoAnd vamoOr vamoXor vamoFadd vxlt vxltff sopen sopenp sadv sclose ssave mcomp mcscan mcscanc mclegal
    mclegalx vsett vgett vfenceAcq vfenceRel vfenceFull vmark mshape mshapeg mzero mma mmas msmma mrd mrdz mwr mwra
    msync vproj vprojs vprojt vprojb vheaprd vpstrd vhmerge vhmergen vpstwr draw drawn drawr drawrn cpy cpyc cpywait
    cpywaitv csend csendm crecv credsum credmax credmin credrs credheap cwait cwaitv audlog nop halt ecall eret wfe
    brk fenceAcq fenceRel fenceFull add sub and or xor shl shr sar slt sltn min max minn maxn clz ctz popc mul mulh
    mulhn div divn rem remn addi andi ori xori shli shri sari slti lih addpc ins ext exts ld8 ld16 ld32 ld64 ldn8
    ldn16 ldn32 ldw st8 st16 st32 st64 amoAdd amoSwp amoCas amoMin amoMax amoMinn amoMaxn amoAnd amoOr amoXor beq bne
    blt bge bltn bgen jal jalr setvl sput emit emitq vfetch vdrain qwait mfs mts wmpub wmwait barArrive barWait barAw
    launch rseed rseek vqsave vqload vcmst vcmld trapEntry trapRecordDrop trapRingConsWrite preemptionRequest
    preemptGangWrite timeSliceExpiry graceExpiry dispatchRound ring0TailWrite admission barrierPhaseComplete
    watermarkUpdate wfeWake bucketRefill l2Request pageService faultResponseWrite priPageResponse atsInvalidation
    translationInvalidation pageMigration frameTableUpdate hostDma correctableError uncorrectableError
    errorCountWindow counterCount counterOverflow counterWrite traceRecordDrop singleStepStop allocateBank releaseBank
    allocateTraceUnit releaseTraceUnit collectiveMatch credJoin copyChunkArrival auditBlockSign auditConsWrite
    kernelResumeHart kernelEnterHandler destroyGang thawMaster functionLevelReset powerOnBoot keySlotLoad
    modelStoreLoad checkpoint checkpointRestore attestationRequest contextMigration thermalLimit thermalLimitClear
    registerWrite illegalSWord illegalVWord sWordFetchFault traceRingConsWrite collectiveGroupBind checkpointComplete
    recoveryImageWrite

end Sys2Proof.Laws.RoundTrip

namespace Sys2Proof

/-! ## Bytes and the numbers they hold (R4) -/

theorem bytesOf_ofBytes : ∀ bs : List (BitVec 8), bytesOf bs.length (ofBytes bs) = bs
  | [] => rfl
  | b :: bs => by
    have hhead : BitVec.ofNat 8 (ofBytes (b :: bs)) = b := by
      simpa using Machine.ofNat_ofBytes_div (b :: bs) 0 (Nat.succ_pos _)
    have htail : ofBytes (b :: bs) / 256 = ofBytes bs := by
      rw [ofBytes]
      omega
    rw [List.length_cons, bytesOf, hhead, htail, bytesOf_ofBytes bs]

theorem ofBytes_lt (bs : List (BitVec 8)) : ofBytes bs < 256 ^ bs.length := by
  have h := Machine.ofBytes_bytesOf bs.length (ofBytes bs)
  rw [bytesOf_ofBytes] at h
  exact h ▸ Nat.mod_lt _ (by positivity)

/-- A word of `8 * n` bits survives its `n` bytes. -/
theorem ofNat_ofBytes_bytesOf {w n : Nat} (hw : 2 ^ w = 256 ^ n) (x : BitVec w) :
    BitVec.ofNat w (ofBytes (bytesOf n x.toNat)) = x := by
  rw [Machine.ofBytes_bytesOf, Nat.mod_eq_of_lt (hw ▸ x.isLt), BitVec.ofNat_toNat, BitVec.setWidth_eq]

/-- `n` bytes survive the word of `8 * n` bits that they make. -/
theorem bytesOf_toNat_ofBytes {w n : Nat} (hw : 2 ^ w = 256 ^ n) {bs : List (BitVec 8)} (hn : bs.length = n) :
    bytesOf n (BitVec.ofNat w (ofBytes bs)).toNat = bs := by
  subst hn
  rw [BitVec.toNat_ofNat, Nat.mod_eq_of_lt (hw ▸ ofBytes_lt bs), bytesOf_ofBytes]

/-! ## When a word decodes -/

/-- A candidate that stands only where it passes a test, which is the shape of both decoders. -/
theorem elim_tested_eq_ok_iff {c : Option Instr} {p : Instr → Prop} [DecidablePred p] {e : Reject} {i : Instr} :
    c.elim (.error e) (fun j => if p j then .ok j else .error e) = Except.ok i ↔ c = some i ∧ p i := by
  cases c with
  | none => simp
  | some j =>
    rw [Option.elim_some, Option.some.injEq]
    by_cases h : p j
    · rw [if_pos h, Except.ok.injEq]
      exact ⟨fun hj => ⟨hj, hj ▸ h⟩, And.left⟩
    · rw [if_neg h]
      exact ⟨fun hj => (by cases hj), fun ⟨hj, hi⟩ => absurd (hj ▸ hi) h⟩

theorem decodeS_eq_elim (w : BitVec 32) : decodeS w = (candS (SRaw.unpack w)).elim (.error .illegalSWord)
    fun j => if j.wf = true ∧ (encodeS j).map SRaw.pack = some w then .ok j else .error .illegalSWord := by
  unfold decodeS
  cases candS (SRaw.unpack w) <;> rfl

theorem decodeV_eq_elim (w : BitVec 64) : decodeV w = (candV (VRaw.unpack w)).elim (.error .illegalVWord)
    fun j => if j.wf = true ∧ (encodeV j).map VRaw.pack = some w then .ok j else .error .illegalVWord := by
  unfold decodeV
  cases candV (VRaw.unpack w) <;> rfl

/-- R177: an S-word decodes to an instruction exactly where the bits are those of the instruction, which is well formed. The
test of the candidate is the one direction; that the fields select the candidate, `Laws.RoundTrip.statement_holds`, the
other. -/
theorem decodeS_ok_iff {w : BitVec 32} {i : Instr} :
    decodeS w = .ok i ↔ i.wf = true ∧ (encodeS i).map SRaw.pack = some w := by
  rw [decodeS_eq_elim, elim_tested_eq_ok_iff]
  refine and_iff_right_of_imp ?_
  rintro ⟨hwf, hpack⟩
  obtain ⟨r, he, rfl⟩ := Option.map_eq_some_iff.mp hpack
  rw [SRaw.unpack_pack]
  exact (Laws.RoundTrip.statement_holds i hwf).1 r he

/-- R161, R371: the same of a V-word. -/
theorem decodeV_ok_iff {w : BitVec 64} {i : Instr} :
    decodeV w = .ok i ↔ i.wf = true ∧ (encodeV i).map VRaw.pack = some w := by
  rw [decodeV_eq_elim, elim_tested_eq_ok_iff]
  refine and_iff_right_of_imp ?_
  rintro ⟨hwf, hpack⟩
  obtain ⟨r, he, rfl⟩ := Option.map_eq_some_iff.mp hpack
  rw [VRaw.unpack_pack]
  exact (Laws.RoundTrip.statement_holds i hwf).2 r he

/-! ## Bytes of an instruction -/

/-- No instruction is a word of both lengths. -/
theorem encodeS_or_encodeV_none (i : Instr) : ((encodeS i).isNone || (encodeV i).isNone) = true := by
  cases i <;> rfl

theorem encodeS_eq_none {i : Instr} {r : VRaw} (he : encodeV i = some r) : encodeS i = none := by
  simpa [he] using encodeS_or_encodeV_none i

theorem encode_ofS {i : Instr} {r : SRaw} (he : encodeS i = some r) : encode i = some (bytesOf 4 r.pack.toNat) := by
  unfold encode
  rw [he]

theorem encode_ofV {i : Instr} {r : VRaw} (he : encodeV i = some r) : encode i = some (bytesOf 8 r.pack.toNat) := by
  unfold encode
  rw [encodeS_eq_none he, he]

/-- The bytes of an encoding are those of an S-word or of a V-word. -/
theorem encode_eq_some {i : Instr} {bs : List (BitVec 8)} (h : encode i = some bs) :
    (∃ r, encodeS i = some r ∧ bytesOf 4 r.pack.toNat = bs) ∨ ∃ r, encodeV i = some r ∧ bytesOf 8 r.pack.toNat = bs := by
  cases hs : encodeS i with
  | some r => exact .inl ⟨r, rfl, Option.some.inj ((encode_ofS hs).symm.trans h)⟩
  | none =>
    cases hv : encodeV i with
    | some r => exact .inr ⟨r, rfl, Option.some.inj ((encode_ofV hv).symm.trans h)⟩
    | none => simp [encode, hs, hv] at h

theorem decode_four {bs : List (BitVec 8)} (h : bs.length = 4) : decode bs = decodeS (BitVec.ofNat 32 (ofBytes bs)) :=
  if_neg (by omega)

theorem decode_eight {bs : List (BitVec 8)} (h : bs.length = 8) : decode bs = decodeV (BitVec.ofNat 64 (ofBytes bs)) :=
  if_pos h

/-! ## The obligations -/

/-- Settles O1: the bytes give back the word, the word its fields, and the fields select the instruction
(`decodeS_ok_iff`, `decodeV_ok_iff`). -/
theorem encodedWordDecodesToItself : Obligations.EncodedWordDecodesToItself := by
  unfold Obligations.EncodedWordDecodesToItself
  intro i bs hwf henc
  obtain ⟨r, he, rfl⟩ | ⟨r, he, rfl⟩ := encode_eq_some henc
  · rw [decode_four (Machine.length_bytesOf 4 _), ofNat_ofBytes_bytesOf (by decide)]
    exact decodeS_ok_iff.mpr ⟨hwf, congrArg (Option.map SRaw.pack) he⟩
  · rw [decode_eight (Machine.length_bytesOf 8 _), ofNat_ofBytes_bytesOf (by decide)]
    exact decodeV_ok_iff.mpr ⟨hwf, congrArg (Option.map VRaw.pack) he⟩

/-- Settles O2: the decoder encodes its candidate again and compares, and the bytes are those of the word compared. -/
theorem decodedBytesAreAnEncoding : Obligations.DecodedBytesAreAnEncoding := by
  unfold Obligations.DecodedBytesAreAnEncoding
  intro i bs hlen hdec
  obtain h4 | h8 := hlen
  · rw [decode_four h4] at hdec
    obtain ⟨hwf, hpack⟩ := decodeS_ok_iff.mp hdec
    obtain ⟨r, he, hr⟩ := Option.map_eq_some_iff.mp hpack
    exact ⟨hwf, by rw [encode_ofS he, hr, bytesOf_toNat_ofBytes (by decide) h4]⟩
  · rw [decode_eight h8] at hdec
    obtain ⟨hwf, hpack⟩ := decodeV_ok_iff.mp hdec
    obtain ⟨r, he, hr⟩ := Option.map_eq_some_iff.mp hpack
    exact ⟨hwf, by rw [encode_ofV he, hr, bytesOf_toNat_ofBytes (by decide) h8]⟩

/-- Settles O3: each pattern is the packing of its instruction's fields, and a word of zeros has no candidate. -/
theorem wordsOfTheSpecDecode : Obligations.WordsOfTheSpecDecode := by
  unfold Obligations.WordsOfTheSpecDecode
  exact ⟨decodeS_ok_iff.mpr ⟨rfl, rfl⟩, decodeS_ok_iff.mpr ⟨rfl, rfl⟩, decodeS_ok_iff.mpr ⟨rfl, rfl⟩,
    decodeS_ok_iff.mpr ⟨rfl, rfl⟩, decodeS_ok_iff.mpr ⟨rfl, rfl⟩, decodeS_ok_iff.mpr ⟨rfl, rfl⟩,
    decodeS_ok_iff.mpr ⟨rfl, rfl⟩, decodeS_ok_iff.mpr ⟨rfl, rfl⟩, decodeS_ok_iff.mpr ⟨rfl, rfl⟩,
    decodeS_ok_iff.mpr ⟨rfl, rfl⟩, decodeV_ok_iff.mpr ⟨rfl, rfl⟩, rfl, rfl⟩

end Sys2Proof

namespace Sys2Proof.Machine

/-! ## Arithmetic S-words (Tables 7-1 and 7-2) -/

theorem yields_eq_wrote (s : State) (d : BitVec 5) (v : Word) : yields d v s = .next (s.wrote d v) :=
  congrArg Host.Outcome.next (writeNext_eq_wrote s d v)

/-- A word over two registers writes the value of its operation. -/
theorem alu2_eq_wrote {f : Word → Word → Word} {d a b : BitVec 5} {s : State} {v : Word}
    (h : f (s.operand a) (s.operand b) = v) : alu2 f d a b s = .next (s.wrote d v) := by
  rw [← h]
  exact yields_eq_wrote s d _

theorem yields_eq {d : BitVec 5} {s : State} {v w : Word} (h : v = w) : yields d v s = .next (s.wrote d w) := by
  rw [h, yields_eq_wrote]

theorem amount_toNat (x : Word) : (x.extractLsb' 0 6).toNat = x.toNat % 64 := by simp

theorem boolWord_decide (p : Prop) [Decidable p] : boolWord (decide p) = if p then 1 else 0 := by
  simp [boolWord]

theorem min_toInt (x y : Word) : (if x.slt y then x else y) = BitVec.ofInt 64 (min x.toInt y.toInt) := by
  rw [BitVec.slt, min_def]
  by_cases h : x.toInt < y.toInt
  · simp [h, Int.le_of_lt h]
  · by_cases he : x.toInt = y.toInt
    · simp [BitVec.toInt_inj.mp he]
    · simp [h, show ¬ x.toInt ≤ y.toInt by omega]

theorem max_toInt (x y : Word) : (if x.slt y then y else x) = BitVec.ofInt 64 (max x.toInt y.toInt) := by
  rw [BitVec.slt, max_def]
  by_cases h : x.toInt < y.toInt
  · simp [h, Int.le_of_lt h]
  · by_cases he : x.toInt = y.toInt
    · simp [BitVec.toInt_inj.mp he]
    · simp [h, show ¬ x.toInt ≤ y.toInt by omega]

theorem min_toNat (x y : Word) : (if x.ult y then x else y) = BitVec.ofNat 64 (min x.toNat y.toNat) := by
  rw [BitVec.ult, min_def]
  by_cases h : x.toNat < y.toNat
  · simp [h, Nat.le_of_lt h]
  · by_cases he : x.toNat = y.toNat
    · simp [BitVec.toNat_inj.mp he]
    · simp [h, show ¬ x.toNat ≤ y.toNat by omega]

theorem max_toNat (x y : Word) : (if x.ult y then y else x) = BitVec.ofNat 64 (max x.toNat y.toNat) := by
  rw [BitVec.ult, max_def]
  by_cases h : x.toNat < y.toNat
  · simp [h, Nat.le_of_lt h]
  · by_cases he : x.toNat = y.toNat
    · simp [BitVec.toNat_inj.mp he]
    · simp [h, show ¬ x.toNat ≤ y.toNat by omega]

/-- Above the highest set bit of a number below 2^n stand n − 1 − log2 zero bits. -/
theorem zerosAbove_eq (x : Word) : ∀ n, x.toNat < 2 ^ n → zerosAbove x n = if x = 0 then n else n - 1 - x.toNat.log2
  | 0, h => by
    have hx : x = 0 := BitVec.eq_of_toNat_eq (by simpa using h)
    simp [hx, zerosAbove]
  | n + 1, h => by
    rw [zerosAbove]
    by_cases hn : x.toNat < 2 ^ n
    · have hbit : x.getLsbD n = false := Nat.testBit_lt_two_pow hn
      have hlog (hx : x ≠ 0) : x.toNat.log2 < n := by
        rwa [Nat.log2_lt fun h0 => hx (BitVec.eq_of_toNat_eq h0)]
      rw [hbit, zerosAbove_eq x n hn]
      by_cases hx : x = 0
      · simp [hx, Nat.add_comm]
      · have := hlog hx
        simp only [if_neg hx, Bool.false_eq_true, if_false]
        omega
    · have hx : x ≠ 0 := fun h0 => hn (by simp [h0])
      have hx0 : x.toNat ≠ 0 := fun h0 => hx (BitVec.eq_of_toNat_eq h0)
      have hlog : x.toNat.log2 = n := (Nat.log2_eq_iff hx0).mpr ⟨by omega, h⟩
      have hbit : x.getLsbD n = true := by
        rw [BitVec.getLsbD, ← hlog]
        exact Nat.testBit_log2 hx0
      simp only [hbit, if_neg hx, hlog, if_true]
      omega

theorem clz_eq_zerosAbove (x : Word) : clz x = BitVec.ofNat 64 (zerosAbove x 64) := by
  rw [zerosAbove_eq x 64 x.isLt, clz]
  split <;> rfl

theorem firstSet_eq_find (x : Word) : ∀ n i, ((List.range' i n).find? fun i => x.getLsbD i).getD (i + n) = firstSet x n i
  | 0, _ => rfl
  | n + 1, i => by
    rw [List.range'_succ, List.find?_cons, firstSet]
    cases x.getLsbD i
    · rw [← firstSet_eq_find x n (i + 1), Nat.add_right_comm, Nat.add_assoc]
      rfl
    · rfl

theorem ctz_eq_firstSet (x : Word) : ctz x = BitVec.ofNat 64 (firstSet x 64 0) := by
  rw [← firstSet_eq_find, ctz, List.range_eq_range']

theorem countP_eq_onesBelow (x : Word) (n : Nat) : ((List.range n).countP fun i => x.getLsbD i) = onesBelow x n := by
  induction n with
  | zero => rfl
  | succ n ih =>
    rw [List.range_succ, List.countP_append, ih, onesBelow, List.countP_singleton]
    cases x.getLsbD n <;> rfl

theorem popc_eq_onesBelow (x : Word) : popc x = BitVec.ofNat 64 (onesBelow x 64) :=
  congrArg (BitVec.ofNat 64) (countP_eq_onesBelow x 64)

/-- Bits [127:64] of an integer's two's complement are those of its quotient by 2^64. -/
theorem extract_high_ofInt (i : Int) :
    (BitVec.ofInt 128 i).extractLsb' 64 64 = BitVec.ofInt 64 (i / ((2 ^ 64 : Nat) : Int)) := by
  apply BitVec.eq_of_toNat_eq
  rw [BitVec.extractLsb'_toNat, BitVec.toNat_ofInt, BitVec.toNat_ofInt, Nat.shiftRight_eq_div_pow]
  norm_num
  omega

theorem mulHigh_signed (x y : Word) :
    mulHigh x.toInt y.toInt = (x.signExtend 128 * y.signExtend 128).extractLsb' 64 64 := by
  rw [mulHigh, ← extract_high_ofInt, BitVec.ofInt_mul]
  rfl

theorem mulHigh_unsigned (x y : Word) :
    mulHigh x.toNat y.toNat = (x.setWidth 128 * y.setWidth 128).extractLsb' 64 64 := by
  rw [mulHigh, ← extract_high_ofInt, BitVec.ofInt_mul, BitVec.ofInt_natCast, BitVec.ofInt_natCast,
    BitVec.ofNat_toNat, BitVec.ofNat_toNat]

theorem divS_eq_sdiv (x y : Word) : divS x y = if y = 0 then 0xFFFFFFFFFFFFFFFF else x.sdiv y := by
  rw [divS]
  split
  · rfl
  · exact BitVec.eq_of_toInt_eq (by rw [BitVec.toInt_ofInt, BitVec.toInt_sdiv])

theorem remS_eq_srem (x y : Word) : remS x y = if y = 0 then x else x.srem y := by
  rw [remS]
  split
  · rfl
  · rw [← BitVec.toInt_srem, BitVec.ofInt_toInt]

theorem slti_eq (x : Word) (i : BitVec 16) : boolWord (x.slt (sextImm i)) = if x.toInt < i.toInt then 1 else 0 := by
  rw [BitVec.slt, sextImm, BitVec.toInt_signExtend_of_le (by decide), boolWord_decide]

theorem shl16_sextImm (i : BitVec 16) : sextImm i <<< 16 = i.signExtend 64 * 65536 :=
  BitVec.shiftLeft_eq_mul_twoPow ..

theorem exec_scalarValue {i : Instr} {s : State} {d : BitVec 5} {v : Word} (h : scalarValue s i = some (d, v)) :
    exec i s = .next (s.wrote d v) := by
  unfold scalarValue at h
  split at h
  case h_35 => cases h
  all_goals
    cases h
    unfold exec
    dsimp only
  case h_6 | h_7 | h_8 => exact alu2_eq_wrote (by rw [amount_toNat])
  case h_9 | h_10 => exact alu2_eq_wrote (by exact boolWord_decide _)
  case h_11 => exact alu2_eq_wrote (by exact min_toInt _ _)
  case h_12 => exact alu2_eq_wrote (by exact max_toInt _ _)
  case h_13 => exact alu2_eq_wrote (by exact min_toNat _ _)
  case h_14 => exact alu2_eq_wrote (by exact max_toNat _ _)
  case h_15 => exact yields_eq (by exact clz_eq_zerosAbove _)
  case h_16 => exact yields_eq (by exact ctz_eq_firstSet _)
  case h_17 => exact yields_eq (by exact popc_eq_onesBelow _)
  case h_19 => exact alu2_eq_wrote (by exact mulHigh_signed _ _)
  case h_20 => exact alu2_eq_wrote (by exact mulHigh_unsigned _ _)
  case h_21 => exact alu2_eq_wrote (by exact divS_eq_sdiv _ _)
  case h_23 => exact alu2_eq_wrote (by exact remS_eq_srem _ _)
  case h_1 | h_2 | h_3 | h_4 | h_5 | h_18 | h_22 | h_24 => exact alu2_eq_wrote rfl
  case h_32 => exact yields_eq (slti_eq _ _)
  case h_33 => exact yields_eq (shl16_sextImm _)
  case h_34 => exact yields_eq (by rw [shl16_sextImm])
  all_goals exact yields_eq rfl

/-! ### Division (R179) -/

/-- Dividend = divisor × quotient + remainder, modulo 2^64. -/
theorem divS_mul_add_remS {x y : Word} (hy : y ≠ 0) : x = y * divS x y + remS x y := by
  have hint : BitVec.ofInt 64 (y.toInt * x.toInt.tdiv y.toInt + x.toInt.tmod y.toInt) = x := by
    rw [Int.mul_tdiv_add_tmod, BitVec.ofInt_toInt]
  rw [BitVec.ofInt_add, BitVec.ofInt_mul, BitVec.ofInt_toInt] at hint
  rw [divS, remS, if_neg hy, if_neg hy, hint]

theorem toInt_divS {x y : Word} (hy : y ≠ 0) (h : ¬(x = 0x8000000000000000 ∧ y = 0xFFFFFFFFFFFFFFFF)) :
    (divS x y).toInt = x.toInt.tdiv y.toInt := by
  rw [divS_eq_sdiv, if_neg hy]
  exact BitVec.toInt_sdiv_of_ne_or_ne x y (by by_contra hc; exact h (not_or.mp hc |>.imp not_not.mp not_not.mp))

theorem toInt_remS {x y : Word} (hy : y ≠ 0) : (remS x y).toInt = x.toInt.tmod y.toInt := by
  rw [remS_eq_srem, if_neg hy, BitVec.toInt_srem]

/-- A remainder rounded toward zero has the sign of its dividend. -/
theorem mul_tmod_nonneg (x y : Int) : 0 ≤ x * x.tmod y := by
  rcases Int.le_total 0 x with h | h
  · exact Int.mul_nonneg h (Int.tmod_nonneg y h)
  · have := Int.tmod_nonneg y (Int.neg_nonneg_of_nonpos h)
    rw [Int.neg_tmod] at this
    exact Int.mul_nonneg_of_nonpos_of_nonpos h (by omega)

/-- Settles O6: `exec_scalarValue` for the table, and the integer division lemmas for what quotient and remainder make of their
operands. -/
theorem arithmeticWordsWriteTheirValue : Obligations.ArithmeticWordsWriteTheirValue := by
  unfold Obligations.ArithmeticWordsWriteTheirValue
  refine ⟨fun i s d v => exec_scalarValue, fun s d a b x y hx hy => ?_⟩
  subst hx hy
  have hdiv : exec (.div d a b) s = .next (s.wrote d (divS (s.operand a) (s.operand b))) := alu2_eq_wrote rfl
  have hrem : exec (.rem d a b) s = .next (s.wrote d (remS (s.operand a) (s.operand b))) := alu2_eq_wrote rfl
  have hdivn : exec (.divn d a b) s = .next (s.wrote d (divU (s.operand a) (s.operand b))) := alu2_eq_wrote rfl
  have hremn : exec (.remn d a b) s = .next (s.wrote d (remU (s.operand a) (s.operand b))) := alu2_eq_wrote rfl
  rw [hdiv, hrem, hdivn, hremn]
  generalize s.operand a = x
  generalize s.operand b = y
  refine ⟨fun hy => ?byZero, fun hx hy => ?overflow, fun hy => ?whole⟩
  case byZero =>
    subst hy
    exact ⟨rfl, rfl, rfl, rfl⟩
  case overflow =>
    subst hx hy
    exact ⟨rfl, rfl⟩
  case whole =>
    have hy' : 0 < y.toNat := Nat.pos_of_ne_zero fun h => hy (BitVec.eq_of_toNat_eq h)
    have hq : divU x y = x / y := if_neg hy
    have hr : remU x y = x % y := if_neg hy
    refine ⟨_, _, _, _, rfl, rfl, rfl, rfl, divS_mul_add_remS hy, ?_, ?_, fun h => ?_⟩
    · rw [hq, hr, BitVec.toNat_udiv, BitVec.toNat_umod, Nat.div_add_mod]
    · rw [hr, BitVec.toNat_umod]
      exact Nat.mod_lt _ hy'
    · have hy0 : y.toInt ≠ 0 := fun h => hy (BitVec.eq_of_toInt_eq h)
      rw [toInt_divS hy h, toInt_remS hy]
      refine ⟨(Int.mul_tdiv_add_tmod _ _).symm, ?_, mul_tmod_nonneg _ _⟩
      rw [Int.natAbs_tmod]
      exact Nat.mod_lt _ (Int.natAbs_pos.mpr hy0)

end Sys2Proof.Machine

namespace Sys2Proof.Machine

/-! ## Bit fields (R181) -/

theorem getLsbD_lowOnes {n : Nat} (hn : n ≤ 64) (i : Nat) : (lowOnes n).getLsbD i = decide (i < n) := by
  rw [lowOnes, BitVec.getLsbD_ushiftRight, BitVec.getLsbD_allOnes, decide_eq_decide]
  omega

theorem getLsbD_ofNat_wfield (w : Nat) (x : Word) (hi lo i : Nat) :
    (BitVec.ofNat w (wfield x hi lo)).getLsbD i = (decide (i < w) && (decide (i < hi + 1 - lo) && x.getLsbD (lo + i))) := by
  rw [BitVec.getLsbD_ofNat, wfield, field, Nat.testBit_mod_two_pow, Nat.testBit_shiftRight]
  rfl

/-- A signed number of `n` bits as a word. -/
theorem sext_eq_signExtend (n x : Nat) : sext n x = (BitVec.ofNat n x).signExtend 64 := by
  rw [sext, BitVec.signExtend, BitVec.toInt, BitVec.toNat_ofNat, toSigned]

section
variable {p l : Nat} (h : p + (l + 1) ≤ 64) (x y : Word)
include h

theorem lowOnes_shiftLeft : lowOnes (l + 1) <<< p = fieldMask (p + l) p := by
  refine BitVec.eq_of_getLsbD_eq fun i hi => ?_
  rw [BitVec.getLsbD_shiftLeft, getLsbD_lowOnes (by omega), getLsbD_fieldMask]
  grind

/-- `INS` replaces the field and nothing else. -/
theorem setField_eq_insert : setField x (p + l) p (wfield y l 0) =
    (x &&& ~~~(lowOnes (l + 1) <<< p)) ||| ((y &&& lowOnes (l + 1)) <<< p) := by
  have hnew : BitVec.ofNat 64 (wfield y l 0 <<< p) &&& fieldMask (p + l) p = (y &&& lowOnes (l + 1)) <<< p := by
    refine BitVec.eq_of_getLsbD_eq fun i hi => ?_
    simp only [BitVec.getLsbD_and, getLsbD_fieldMask, BitVec.getLsbD_ofNat, Nat.testBit_shiftLeft, BitVec.getLsbD_shiftLeft,
      getLsbD_lowOnes (show l + 1 ≤ 64 by omega), wfield, field, Nat.testBit_mod_two_pow, Nat.testBit_shiftRight]
    simp only [BitVec.getLsbD]
    grind
  rw [lowOnes_shiftLeft h, ← hnew]
  rfl

/-- `EXT` moves the field down. -/
theorem ofNat_wfield_eq_extract : BitVec.ofNat 64 (wfield x (p + l) p) = (x >>> p) &&& lowOnes (l + 1) := by
  refine BitVec.eq_of_getLsbD_eq fun i hi => ?_
  rw [getLsbD_ofNat_wfield, BitVec.getLsbD_and, BitVec.getLsbD_ushiftRight, getLsbD_lowOnes (by omega)]
  grind

/-- `EXTS` moves the field down with its sign. -/
theorem sext_wfield_eq : sext (l + 1) (wfield x (p + l) p) = (x <<< (64 - (p + l + 1))).sshiftRight (63 - l) := by
  rw [sext_eq_signExtend]
  refine BitVec.eq_of_getLsbD_eq fun i hi => ?_
  have hsign : (x <<< (64 - (p + l + 1))).msb = x.getLsbD (p + l) := by
    rw [BitVec.msb_eq_getLsbD_last, BitVec.getLsbD_shiftLeft, show 64 - 1 - (64 - (p + l + 1)) = p + l by omega]
    grind
  rw [BitVec.getLsbD_signExtend, BitVec.getLsbD_sshiftRight, BitVec.msb_eq_getLsbD_last, hsign,
    getLsbD_ofNat_wfield, getLsbD_ofNat_wfield, BitVec.getLsbD_shiftLeft]
  grind

end

section
variable {pos len : BitVec 6} {s : State} {d : BitVec 5} {v : Word} {k : Nat → Nat → Result}

/-- A field that fits is moved; one that does not is an operand limit with its end as the offending value (R181). -/
theorem onField_eq (h : pos.toNat + (len.toNat + 1) ≤ 64 → k pos.toNat (len.toNat + 1) = .next (s.wrote d v)) :
    (pos.toNat + len.toNat + 1 ≤ 64 → onField pos len s k = .next (s.wrote d v)) ∧
    (64 < pos.toNat + len.toNat + 1 → onField pos len s k =
      .next (genFault s 0x05 (BitVec.ofNat 64 (15 + (pos.toNat + len.toNat + 1) * 2 ^ 32)) 0)) := by
  rw [Nat.add_assoc]
  refine ⟨fun hfit => (if_pos hfit).trans (h hfit), fun hlong => (if_neg (by omega)).trans ?_⟩
  rw [operandStop, Nat.shiftLeft_eq, Nat.mod_eq_of_lt (by omega)]

end

/-- Settles O7: `onField_eq` for the bound, and one lemma for each way to move the bits. -/
theorem fieldWordsMoveBits : Obligations.FieldWordsMoveBits := by
  unfold Obligations.FieldWordsMoveBits
  intro i s d v top h
  unfold fieldValue at h
  split at h
  case h_4 => cases h
  all_goals
    cases h
    unfold exec
    refine onField_eq fun hfit => yields_eq ?_
  case h_1 => exact setField_eq_insert hfit _ _
  case h_2 => exact ofNat_wfield_eq_extract hfit _
  case h_3 => exact sext_wfield_eq hfit _

end Sys2Proof.Machine

namespace Sys2Proof.Machine

/-! ## Control transfer (R187, R188) -/

theorem advance_eq_movedTo (s : State) : s.advance = s.movedTo (s.core.pc + 4) := rfl

/-- A branch goes on at its target exactly when its condition holds. -/
theorem branch_eq_movedTo {cond : Word → Word → Bool} {a b : BitVec 5} {off : BitVec 16} {s : State} {c : Bool}
    (h : cond (s.operand a) (s.operand b) = c) : branch cond a b off s =
      .next (s.movedTo (if c then s.core.pc + off.signExtend 64 * 4 else s.core.pc + 4)) := by
  rw [apply_ite s.movedTo, ← h]
  rfl

theorem not_slt_eq_decide (x y : Word) : (!x.slt y) = decide (y.toInt ≤ x.toInt) := by
  simp [BitVec.slt, ← decide_not]

theorem not_ult_eq_decide (x y : Word) : (!x.ult y) = decide (y.toNat ≤ x.toNat) := by
  simp [BitVec.ult, ← decide_not]

theorem exec_branchOf {i : Instr} {s : State} {c : Bool} {off : BitVec 16} (h : branchOf s i = some (c, off)) :
    exec i s = .next (s.movedTo (if c then s.core.pc + off.signExtend 64 * 4 else s.core.pc + 4)) := by
  unfold branchOf at h
  split at h
  case h_7 => cases h
  all_goals
    cases h
    unfold exec
    refine branch_eq_movedTo ?_
  case h_4 => exact not_slt_eq_decide _ _
  case h_6 => exact not_ult_eq_decide _ _
  all_goals rfl

/-- The low two bits of an address are clear exactly when it is a multiple of 4. -/
theorem mod_four_eq_zero_iff (t : Word) : t.toNat % 4 = 0 ↔ t.extractLsb' 0 2 = 0 := by
  rw [← BitVec.toNat_inj, BitVec.extractLsb'_toNat]
  rfl

/-- Settles O8: each word leaves a state that is `movedTo` its target, with the link written first. -/
theorem controlTransfers : Obligations.ControlTransfers := by
  unfold Obligations.ControlTransfers
  refine ⟨fun i s c off => exec_branchOf, fun s d off => ?jal, fun s d a imm => ⟨fun h => ?jalr, fun h => ?misaligned⟩⟩
  case jal => exact congrArg Host.Outcome.next (jump_writeS s d _ _)
  case jalr =>
    refine (if_neg (not_not_intro ((mod_four_eq_zero_iff _).mpr h))).trans ?_
    exact congrArg Host.Outcome.next (jump_writeS s d _ _)
  case misaligned => exact if_pos (mt (mod_four_eq_zero_iff _).mp h)

end Sys2Proof.Machine

namespace Sys2Proof.Machine

/-! ## What an access finds (R90, R94, R116) -/

section
variable {s t : State} {g : Gang} {l : Leaf} {va : Word} {n a : Nat} {k : Acc} {spec : Bool} {p : Place} {attr : Nat} {f : Fail}

/-- The ownership check fails in one way (R116). -/
theorem ownerCheck_some {e : Word} {ctx : Nat} {wr : Bool} (h : ownerCheck e ctx wr = some f) : ∃ b, f = .owner b := by
  unfold ownerCheck at h
  dsimp only at h
  repeat' split at h
  all_goals cases h
  all_goals exact ⟨_, rfl⟩

theorem Pin.reach_error {x : Pin} (h : x.reach s g a k = .error f) : ∃ b, f = .owner b := by
  unfold Pin.reach at h
  dsimp only at h
  split at h
  · split at h
    · next ho =>
      cases h
      exact ownerCheck_some ho
    · cases h
  all_goals cases h

/-- How an access fails past its leaf: for its rights only where it is an atomic (R186). -/
theorem reach_error (h : reach s g l a k spec = .error f) :
    f = .device ∨ f = .page true ∨ f = .migrating ∨ (f = .perm ∧ k = .atomic) ∨ ∃ b, f = .owner b := by
  unfold reach at h
  dsimp only at h
  split at h
  · cases h
    exact .inl rfl
  split at h
  · split at h
    · cases h
      exact .inr (.inl rfl)
    split at h
    · cases h
      exact .inr (.inr (.inl rfl))
    · cases h
  split at h
  · split at h
    · next hk =>
      cases h
      exact .inr (.inr (.inr (.inl ⟨rfl, by simpa using hk⟩)))
    · cases h
  split at h
  · cases h
    exact .inr (.inr (.inl rfl))
  split at h
  · next ho =>
    cases h
    exact .inr (.inr (.inr (.inr (ownerCheck_some ho))))
  · cases h

/-- An access refused before its leaf is known to permit it sets no A or D bit (R94). -/
theorem touched_of_refused (h : probe s va n k spec = .error f) (hf : f = .noAddr ∨ f = .perm ∧ k ≠ .atomic) :
    s.touched va n k = s := by
  have hreach (g : Gang) (l : Leaf) (u : State) : reach u g l va.toNat k spec ≠ .error f := by
    intro hr
    rcases hf with rfl | ⟨rfl, hk⟩
    · simpa using reach_error hr
    · exact hk (by simpa using reach_error hr)
  unfold probe at h
  unfold State.touched
  dsimp only at h ⊢
  split
  · rfl
  · next hskip =>
    simp only [Bool.or_eq_true, not_or, Bool.not_eq_true, Option.isSome_eq_false_iff, Option.isNone_iff_eq_none] at hskip
    obtain ⟨⟨hrange, hwatch⟩, hpin⟩ := hskip
    split
    · rfl
    · next g hg =>
      simp only [hrange, hwatch, hpin, hg, Bool.false_eq_true, if_false] at h
      split
      · rfl
      · next l hl =>
        simp only [hl] at h
        exact absurd h (hreach g l _)

theorem mark_wf (h : s.dev.dram.wf = true) : (s.mark l k).dev.dram.wf = true := by
  unfold State.mark
  exact ite_keeps (P := fun u : State => u.dev.dram.wf = true) h (Memory.wf_setNum h _ _ _)

/-- What an access that is let through leaves of device memory: at most its leaf is marked. -/
theorem probe_dram (h : probe s va n k spec = .ok (p, attr, t)) :
    t.dev.dram = s.dev.dram ∨ ∃ l, t.dev.dram = (s.mark l k).dev.dram := by
  unfold probe at h
  dsimp only at h
  have h := of_ite_error h
  split at h
  · cases h
  · split at h
    · rw [Pin.reach_ok h]
      exact .inl rfl
    · have h := of_ite_error h
      split at h
      · cases h
      · next l _ =>
        obtain ⟨c, rfl⟩ := reach_ok h
        exact .inr ⟨l, rfl⟩

theorem probe_dram_wf (h : probe s va n k spec = .ok (p, attr, t)) (hw : s.dev.dram.wf = true) :
    t.dev.dram.wf = true := by
  rcases probe_dram h with ht | ⟨l, ht⟩
  · rwa [ht]
  · rw [ht]
    exact mark_wf hw

theorem probe_host (h : probe s va n k spec = .ok (p, attr, t)) : t.dev.host = s.dev.host := by
  obtain ⟨m, c, rfl⟩ := probe_ok h
  rfl

end

/-! ## Accesses of the Last -/

section
variable {s t : State} {va : Word} {n step v : Nat} {k : Acc} {p : Place} {attr : Nat} {f : Fail}

/-- An access that no refused page request stands for is decided by its checks (R413). -/
theorem probeFor_eq_probe {o : Owner} {spec : Bool} (h : s.refusedPage o va = false) :
    probeFor s o va n k spec = probe s va n k spec := if_neg (by simp [h])

/-- A failure for the address or the rights is the stop of its cause. -/
theorem lastStop_refused (u : State) (hf : f = .noAddr ∨ f = .perm) :
    lastStop u (s.failStop .last va k 0 f) = .next (genFault u f.cause va va) := by
  rcases hf with rfl | rfl <;> rfl

theorem heldDevice_of_ok (h : probe s va n k false = .ok (p, attr, t)) (hg : attr = 2 → s.core.gate = true) :
    heldDevice s va n k = false := by
  unfold heldDevice
  rw [h]
  simpa using hg

theorem heldDevice_of_error (h : probe s va n k false = .error f) : heldDevice s va n k = false := by
  unfold heldDevice
  rw [h]

section
variable (hr : s.refusedPage .last va = false)
include hr

theorem load_of_ok (h : probe s va n .read false = .ok (p, attr, t)) (hp : s.poisoned p = false) :
    load s .last va n step = .ok (t.readPlace p n, t) := by
  unfold load
  rw [probeFor_eq_probe hr, h]
  exact if_neg (by simp [hp])

theorem load_of_error (h : probe s va n .read false = .error f) :
    load s .last va n step = .error (s.failStop .last va .read step f) := by
  unfold load
  rw [probeFor_eq_probe hr, h]

theorem store_of_ok (h : probe s va n .write false = .ok (p, attr, t)) :
    store s .last va n v step = .ok (t.writePlace p n v) := by
  unfold store
  rw [probeFor_eq_probe hr, h]

theorem store_of_error (h : probe s va n .write false = .error f) :
    store s .last va n v step = .error (s.failStop .last va .write step f) := by
  unfold store
  rw [probeFor_eq_probe hr, h]

end
end

theorem length_bytesAt (s : State) (n : Nat) (p : Place) : (s.bytesAt n p).length = n := by
  have hupTo (n a : Nat) : (upTo n a).length = n := by
    induction n generalizing a with
    | zero => rfl
    | succ n ih => simp [upTo, ih]
  cases p with
  | reg a => simp [State.bytesAt, hupTo]
  | _ => exact Memory.read_length _ _ _

theorem readPlace_lt (s : State) (p : Place) (n : Nat) : s.readPlace p n < 2 ^ (8 * n) := by
  have h := ofBytes_lt (s.bytesAt n p)
  rwa [length_bytesAt, show 256 = 2 ^ 8 from rfl, ← Nat.pow_mul] at h

end Sys2Proof.Machine

namespace Sys2Proof.Machine

/-! ## Scalar loads (R182, R183) -/

/-- A load of `n` bytes as Table 7-4 extends them. -/
def extended (n : Nat) (sx : Bool) (v : Nat) : Word :=
  if sx then (BitVec.ofNat (8 * n) v).signExtend 64 else (BitVec.ofNat (8 * n) v).setWidth 64

section
variable {s t : State} {i : Instr} {d a b : BitVec 5} {imm : BitVec 16} {n : Nat} {sx : Bool} {p : Place} {attr : Nat}

/-- The model's loads: the bytes, and a conversion that extends what they hold. -/
theorem exec_loadOf (h : loadOf i = some (d, a, imm, n, sx)) (s : State) :
    ∃ conv, (∀ v, v < 2 ^ (8 * n) → conv v = extended n sx v) ∧ exec i s = loadReg n conv d a imm s := by
  have hzero (m v : Nat) (hv : v < 2 ^ (8 * m)) : BitVec.ofNat 64 v = extended m false v := by
    rw [extended, if_neg Bool.false_ne_true]
    exact BitVec.eq_of_toNat_eq (by simp [Nat.mod_eq_of_lt hv])
  have hsign (m v : Nat) : sext (8 * m) v = extended m true v := sext_eq_signExtend _ _
  have hwhole (v : Nat) : BitVec.ofNat 64 v = extended 8 true v := (BitVec.signExtend_eq _).symm
  unfold loadOf at h
  split at h
  case h_8 => cases h
  all_goals cases h
  case h_1 => exact ⟨_, fun v _ => hsign 1 v, rfl⟩
  case h_2 => exact ⟨_, fun v _ => hsign 2 v, rfl⟩
  case h_3 => exact ⟨_, fun v _ => hsign 4 v, rfl⟩
  case h_4 => exact ⟨_, fun v _ => hwhole v, rfl⟩
  all_goals exact ⟨_, hzero _, rfl⟩

theorem exec_storeOf {off : BitVec 16} (h : storeOf i = some (b, a, off, n)) (s : State) :
    exec i s = storeReg n b a off s := by
  unfold storeOf at h
  split at h
  case h_5 => cases h
  all_goals
    cases h
    rfl

section
variable {conv : Nat → Word} (hal : (ea s a imm).toNat % n = 0) (hr : s.refusedPage .last (ea s a imm) = false)
include hal hr

theorem loadReg_of_ok (h : probe s (ea s a imm) n .read false = .ok (p, attr, t)) (hp : s.poisoned p = false)
    (hg : attr = 2 → s.core.gate = true) :
    loadReg n conv d a imm s = .next (t.wrote d (conv (t.readPlace p n))) := by
  unfold loadReg
  dsimp only
  rw [if_neg (not_not_intro hal), heldDevice_of_ok h hg, if_neg Bool.false_ne_true, load_of_ok hr h hp]
  exact congrArg _ (writeNext_eq_wrote _ _ _)

theorem loadReg_of_refused {f : Fail} (h : probe s (ea s a imm) n .read false = .error f) (hf : f = .noAddr ∨ f = .perm) :
    loadReg n conv d a imm s = .next (genFault s f.cause (ea s a imm) (ea s a imm)) := by
  unfold loadReg
  dsimp only
  rw [if_neg (not_not_intro hal), heldDevice_of_error h, if_neg Bool.false_ne_true, load_of_error hr h,
    touched_of_refused h (hf.imp_right fun hf => ⟨hf, by decide⟩)]
  exact lastStop_refused s hf

/-! ## Scalar stores (R182) -/

theorem storeReg_of_ok (h : probe s (ea s a imm) n .write false = .ok (p, attr, t)) (hg : s.core.gate = true) :
    storeReg n b a imm s = .next (t.writePlace p n (s.operand b).toNat).advance := by
  unfold storeReg
  dsimp only
  rw [if_neg (not_not_intro hal), store_of_ok hr h]
  exact if_pos hg

theorem storeReg_of_refused {f : Fail} (h : probe s (ea s a imm) n .write false = .error f) (hf : f = .noAddr ∨ f = .perm) :
    storeReg n b a imm s = .next (genFault s f.cause (ea s a imm) (ea s a imm)) := by
  unfold storeReg
  dsimp only
  rw [if_neg (not_not_intro hal), store_of_error hr h,
    touched_of_refused h (hf.imp_right fun hf => ⟨hf, by decide⟩)]
  exact lastStop_refused s hf

end

theorem loadReg_misaligned {conv : Nat → Word} (h : (ea s a imm).toNat % n ≠ 0) :
    loadReg n conv d a imm s = .next (genFault s 0x06 (ea s a imm) (ea s a imm)) := if_pos h

theorem storeReg_misaligned (h : (ea s a imm).toNat % n ≠ 0) :
    storeReg n b a imm s = .next (genFault s 0x06 (ea s a imm) (ea s a imm)) := if_pos h

theorem noted_withDram (s : State) (m : Memory) (p : Place) (n : Nat) :
    (s.withDram m).noted p n = (s.noted p n).withDram m := by
  have h : (s.withDram m).anyPoison = s.anyPoison := rfl
  unfold State.noted
  rw [h]
  cases s.anyPoison <;> rfl

theorem noted_withHost (s : State) (m : Memory) (p : Place) (n : Nat) :
    (s.withHost m).noted p n = (s.noted p n).withHost m := by
  have h : (s.withHost m).anyPoison = s.anyPoison := rfl
  unfold State.noted
  rw [h]
  cases s.anyPoison <;> rfl

/-- A number written in device memory: its bytes, and a note of the range while something is poisoned. -/
theorem writePlace_dram (s : State) (x n v : Nat) :
    s.writePlace (.dram x) n v = (s.noted (.dram x) n).withDram (s.dev.dram.setNum n x v) := by
  rw [State.writePlace, State.setBytes_dram, length_bytesOf, noted_withDram]
  rfl

theorem writePlace_host (s : State) (x n v : Nat) :
    s.writePlace (.host x) n v = (s.noted (.host x) n).withHost (s.dev.host.setNum n x v) := by
  rw [State.writePlace, State.setBytes_host, length_bytesOf, noted_withHost]
  rfl

theorem setBytes_pc (s : State) (p : Place) (bs : List Byte) : (s.setBytes p bs).core.pc = s.core.pc := by
  obtain ⟨sp, w, h⟩ := s.setBytes_core p bs
  rw [h]

end

/-- Settles O10: a load is `loadReg`, whose access is let through. -/
theorem loadsReadMemory : Obligations.LoadsReadMemory := by
  unfold Obligations.LoadsReadMemory
  intro i s t d a imm n sx p attr v hi va hal hr hp hpoison hgate hv
  subst hv
  obtain ⟨conv, hconv, hexec⟩ := exec_loadOf hi s
  refine ⟨?_, fun x hx => by rw [hx]; rfl, fun x hx => by rw [hx]; rfl⟩
  rw [hexec, loadReg_of_ok hal hr hp hpoison hgate, hconv _ (readPlace_lt t p n)]
  rfl

/-- Settles O11: a store is `storeReg`, and its bytes stand at the place of the access. -/
theorem storesWriteMemory : Obligations.StoresWriteMemory := by
  unfold Obligations.StoresWriteMemory
  intro i s t b a off n p attr hi hdram hhost va hal hr hp hgate
  have hexec : exec i s = .next ((t.writePlace p n (s.operand b).toNat).movedTo (s.core.pc + 4)) := by
    rw [exec_storeOf hi, storeReg_of_ok hal hr hp hgate, advance_eq_movedTo, State.writePlace, setBytes_pc, (probe_core hp).1]
  refine ⟨fun x hx => ?_, fun x hx => ?_, fun x hx => ?_⟩
  all_goals
    subst hx
    rw [hexec]
  · exact ⟨_, by rw [writePlace_dram], storedAs_setNum (probe_dram_wf hp hdram) _ _ _⟩
  · exact ⟨_, by rw [writePlace_host], storedAs_setNum (by rwa [probe_host hp]) _ _ _⟩
  · rfl

end Sys2Proof.Machine

namespace Sys2Proof.Machine

/-! ## Scalar atomics (R185, R186) -/

theorem toSigned_eq_toInt (w x : Nat) : toSigned w x = (BitVec.ofNat w x).toInt := by
  rw [toSigned, BitVec.toInt, BitVec.toNat_ofNat]

/-- An open convoy at a word that orders is a conflict; without one the word waits for what it orders (R163, R376). -/
theorem ordering_open {s : State} {done : Bool} {kind : Nat} {r : Result} (h : s.core.openConvoy ≠ []) :
    ordering done kind s r =
      .next (genFault s 0x04 (BitVec.ofNat 64 (s.core.openConvoy.length * 65536 + kind * 256)) 0) := by
  rw [← openStop_eq]
  exact if_pos (by simpa using h)

theorem ordering_closed {s : State} {done : Bool} {kind : Nat} {r : Result} (h : s.core.openConvoy = []) :
    ordering done kind s r = if done then r else .next s.stall := if_neg (by simp [h])

/-- An atomic with acquire order discards the fetched copies (R133). -/
def State.acquiring (s : State) (ord : BitVec 2) (sc : Scope) : State := if ord.getLsbD 0 then s.discardFetched sc else s

/-- The new value of an atomic written at its place, if it writes one. -/
def State.writtenIf (s : State) (p : Place) (n : Nat) (v : Option Nat) : State :=
  match v with
  | none => s
  | some v => s.writePlace p n v

section
variable {s t : State} {i : Instr} {d a : BitVec 5} {size ord : BitVec 2} {n : Nat} {sc : Scope} {p : Place} {attr : Nat}

/-- An atomic asks its operation for one width. -/
theorem amo_congr {f g : Nat → Nat → Option Nat} (h : ∀ old, f (8 * 2 ^ size.toNat) old = g (8 * 2 ^ size.toNat) old) :
    amo d a size ord sc s f = amo d a size ord sc s g := by
  unfold amo
  dsimp only
  rw [funext h]

theorem amoOp_congr {op : AmoOp} {b : BitVec 5} {g : Nat → Option Nat}
    (h : ∀ old, some (op.apply (8 * 2 ^ size.toNat) old ((s.operand b).toNat % 2 ^ (8 * 2 ^ size.toNat))) = g old) :
    amoOp op d a b size ord sc s = amo d a size ord sc s fun _ => g := amo_congr h

/-- The model's atomics: order and scope from the word, and the operation of Table 6-5 on the old value. -/
theorem exec_amoOf (h : amoOf i = some (d, a, n, ord, sc)) (s : State) : ∃ size : BitVec 2, n = 2 ^ size.toNat ∧
    exec i s = amo d a size ord sc s fun _ old => amoNew s old i := by
  unfold amoOf at h
  split at h
  case h_11 => cases h
  all_goals
    cases h
    refine ⟨_, rfl, ?_⟩
    unfold exec
    dsimp only
  case h_1 => exact amoOp_congr fun old => congrArg some (Nat.add_mod_mod ..)
  case h_2 | h_8 | h_9 | h_10 => exact amoOp_congr fun old => rfl
  case h_3 => exact amo_congr fun old => rfl
  case h_4 | h_5 =>
    refine amoOp_congr fun old => congrArg some ?_
    simp only [AmoOp.apply, toSigned_eq_toInt]
    rfl
  case h_6 | h_7 =>
    refine amoOp_congr fun old => congrArg some ?_
    simp only [AmoOp.apply]
    grind

/-- A word with release order that waits for nothing goes on (R134). -/
theorem releasing_of_released {r : Result}
    (hrel : ord.getLsbD 1 = true → s.core.openConvoy = [] ∧ s.core.released sc = true) :
    (if ord.getLsbD 1 = true then releasing sc 5 s r else r) = r := by
  split
  · next ho =>
    obtain ⟨hconvoy, hdone⟩ := hrel ho
    exact (ordering_closed hconvoy).trans (if_pos hdone)
  · rfl

section
variable {f : Nat → Nat → Option Nat} (hal : (s.operand a).toNat % 2 ^ size.toNat = 0)
include hal

theorem amo_open (ho : ord.getLsbD 1 = true) (hopen : s.core.openConvoy ≠ []) : amo d a size ord sc s f =
    .next (genFault s 0x04 (BitVec.ofNat 64 (s.core.openConvoy.length * 65536 + 5 * 256)) 0) :=
  (if_neg (not_not_intro hal)).trans ((if_pos ho).trans (ordering_open hopen))

variable (hrel : ord.getLsbD 1 = true → s.core.openConvoy = [] ∧ s.core.released sc = true)
include hrel

variable (hr : s.refusedPage .last (s.operand a) = false)
include hr

theorem amo_of_ok (hg : s.core.gate = true)
    (h : probe s (s.operand a) (2 ^ size.toNat) .atomic false = .ok (p, attr, t)) (hp : s.poisoned p = false) :
    amo d a size ord sc s f = .next ((((t.checkAtomic p sc s.core.pc nullProv).writtenIf p (2 ^ size.toNat)
      (f (8 * 2 ^ size.toNat) (t.readPlace p (2 ^ size.toNat)))).acquiring ord sc).wrote d
        (BitVec.ofNat 64 (t.readPlace p (2 ^ size.toNat)))) := by
  unfold amo amoAt
  dsimp only
  rw [readS_eq_operand, if_neg (not_not_intro hal), releasing_of_released hrel, probeFor_eq_probe hr, h]
  dsimp only
  rw [hp, if_neg Bool.false_ne_true]
  dsimp only
  rw [if_pos hg, writeNext_eq_wrote]
  rfl

theorem amo_of_refused {e : Fail} (h : probe s (s.operand a) (2 ^ size.toNat) .atomic false = .error e)
    (he : e = .noAddr ∨ e = .perm) : amo d a size ord sc s f =
      .next (genFault (s.touched (s.operand a) (2 ^ size.toNat) .atomic) e.cause (s.operand a) (s.operand a)) := by
  unfold amo amoAt
  dsimp only
  rw [readS_eq_operand, if_neg (not_not_intro hal), releasing_of_released hrel, probeFor_eq_probe hr, h]
  exact lastStop_refused _ he

end

theorem amo_misaligned {f : Nat → Nat → Option Nat} (h : (s.operand a).toNat % 2 ^ size.toNat ≠ 0) :
    amo d a size ord sc s f = .next (genFault s 0x06 (s.operand a) (s.operand a)) := if_pos h

theorem probe_atomic_register {g : Gang} {l : Leaf} {va : Word} (hg : s.gang = some g) (hva : va.toNat < 2 ^ 55)
    (hw : s.core.watched va.toNat n .atomic = false) (hpin : s.pinned va.toNat .atomic = none)
    (hl : s.leafOf g va.toNat .atomic = .ok l) (hh : eH l.entry = false) (ha : eAttr l.entry = 2) :
    probe s va n .atomic false = .error .perm ∧ s.touched va n .atomic = s.mark l .atomic := by
  have hrange : field va.toNat 63 55 = 0 := (field_top_eq_zero_iff va).mpr hva
  constructor
  · rw [probe_eq_leafOf hva (.inr hw) hpin hg, hl]
    show reach _ g l va.toNat .atomic false = _
    unfold reach
    simp [hh, ha]
  · unfold State.touched
    simp [hrange, hw, hpin, hg, hl]

end

/-- Settles O14: an atomic is `amo` with its operation, whose access is let through. -/
theorem atomicsReadAndWrite : Obligations.AtomicsReadAndWrite := by
  unfold Obligations.AtomicsReadAndWrite
  intro i s t d a n ord sc p attr old hi hal hrel hg hr hp hpoison hold seen ends
  subst hold
  obtain ⟨size, rfl, hexec⟩ := exec_amoOf hi s
  rw [hexec, amo_of_ok hal hrel hr hg hp hpoison]
  refine ⟨fun h => by rw [h]; rfl, fun v h => ⟨fun x hx => ?_, fun x hx => ?_⟩⟩
  all_goals
    subst hx
    rw [h, State.writtenIf]
  · rw [writePlace_dram]
    exact ⟨_, rfl, fun hw => storedAs_setNum hw _ _ _⟩
  · rw [writePlace_host]
    exact ⟨_, rfl, fun hw => storedAs_setNum hw _ _ _⟩

/-- Settles O12: the checks of `loadReg`, `storeReg` and `amo`, in the order in which they come. -/
theorem scalarAccessTraps : Obligations.ScalarAccessTraps := by
  unfold Obligations.ScalarAccessTraps
  intro i s
  refine ⟨fun d a imm n sx hi => ?load, fun b a off n hi => ?store, fun d a n o sc hi => ?atomic⟩
  case load =>
    obtain ⟨conv, -, hexec⟩ := exec_loadOf hi s
    rw [hexec]
    exact ⟨loadReg_misaligned, fun hal hr h => loadReg_of_refused hal hr h (.inr rfl),
      fun hal hr h => loadReg_of_refused hal hr h (.inl rfl)⟩
  case store =>
    rw [exec_storeOf hi]
    exact ⟨storeReg_misaligned, fun hal hr h => storeReg_of_refused hal hr h (.inr rfl),
      fun hal hr h => storeReg_of_refused hal hr h (.inl rfl)⟩
  case atomic =>
    obtain ⟨size, rfl, hexec⟩ := exec_amoOf hi s
    rw [hexec]
    refine ⟨amo_misaligned, amo_open, fun hal hrel hr => ⟨fun h => ?_, fun h => amo_of_refused hal hrel hr h (.inr rfl)⟩,
      fun g l => probe_atomic_register⟩
    rw [amo_of_refused hal hrel hr h (.inl rfl), touched_of_refused h (.inl rfl)]
    rfl

end Sys2Proof.Machine

namespace Sys2Proof.Machine

/-! ## Parameter windows (R184) -/

section
variable {s t : State} {d : BitVec 5} {w : BitVec 3} {off : BitVec 16} {g : Gang} {base : Word} {bound : Nat}
  (hg : s.gang = some g) (hw : g.desc.wins[w.toNat] = (base, BitVec.ofNat 32 bound)) (hlt : bound < 2 ^ 32)
include hg hw hlt

theorem window_bound (h : bound ≠ 0) : s.window w = some (base, bound) := by
  have h0 : BitVec.ofNat 32 bound ≠ 0 := fun h' => h (by
    have := congrArg BitVec.toNat h'
    rwa [BitVec.toNat_ofNat, Nat.mod_eq_of_lt hlt] at this)
  unfold State.window
  rw [hg]
  dsimp only
  rw [hw, if_neg h0, BitVec.toNat_ofNat, Nat.mod_eq_of_lt hlt]

omit hlt in
theorem window_unbound (h : bound = 0) : s.window w = none := by
  unfold State.window
  rw [hg]
  dsimp only
  rw [hw, h]
  rfl

/-- An `LDW` of a bound window: alignment, the bound, then the load. -/
theorem execLdw_bound (h : bound ≠ 0) : execLdw d w off s =
    if off.toNat % 8 ≠ 0 ∨ base.toNat % 8 ≠ 0 then
      .next (genFault s 0x06 (base + off.setWidth 64) (base + off.setWidth 64))
    else if bound < off.toNat + 8 then .next (genFault s 0x0C (BitVec.ofNat 64 (w.toNat + off.toNat * 65536)) 0)
    else if heldDevice s (base + off.setWidth 64) 8 .read then .next s.stall
    else
      match load s .last (base + off.setWidth 64) 8 0 with
      | .error e => lastStop (s.touched (base + off.setWidth 64) 8 .read) e
      | .ok (v, t) => .next (t.wrote d (BitVec.ofNat 64 v)) := by
  unfold execLdw
  rw [window_bound hg hw hlt h, Nat.shiftLeft_eq]
  refine if_congr (by simp) rfl (if_congr Iff.rfl rfl (if_congr Iff.rfl rfl ?_))
  simp only [writeNext_eq_wrote]
  rfl

omit hlt in
/-- An `LDW` of an unbound window never loads; its address is formed from base 0 (log 56). -/
theorem execLdw_unbound (h : bound = 0) : execLdw d w off s =
    if off.toNat % 8 ≠ 0 then .next (genFault s 0x06 (off.setWidth 64) (off.setWidth 64))
    else .next (genFault s 0x0D (BitVec.ofNat 64 (w.toNat + off.toNat * 65536)) 0) := by
  have hzero : (0 : Word) + off.setWidth 64 = off.setWidth 64 := BitVec.zero_add _
  unfold execLdw
  rw [window_unbound hg hw h, Nat.shiftLeft_eq]
  refine if_congr (by simp) ?_ rfl
  rw [← hzero]
  rfl

end

/-- Settles O13: `LDW` by its window, bound or not, and by its checks in order. -/
theorem windowLoads : Obligations.WindowLoads := by
  unfold Obligations.WindowLoads
  intro s t d w off g base bound p attr v hg hw hlt va
  have hexec : exec (.ldw d w off) s = execLdw d w off s := rfl
  rw [hexec]
  refine ⟨fun hb hbase hoff hin hr hp hpoison hgate hv => ?loads, fun hoff hb => ?misaligned, fun hb hbase => ?base,
    fun hb hoff => ?zero, fun hb hoff => ?unbound, fun hb hbase hoff hout => ?beyond⟩
  case loads =>
    rw [execLdw_bound hg hw hlt hb, if_neg (by simp [hbase, hoff]), if_neg (Nat.not_lt.mpr hin), heldDevice_of_ok hp hgate,
      if_neg Bool.false_ne_true, load_of_ok hr hp hpoison, hv]
  case misaligned => exact (execLdw_bound hg hw hlt hb).trans (if_pos (.inl hoff))
  case base => exact (execLdw_bound hg hw hlt hb).trans (if_pos (.inr hbase))
  case zero => exact (execLdw_unbound hg hw hb).trans (if_pos hoff)
  case unbound => exact (execLdw_unbound hg hw hb).trans (if_neg (not_not_intro hoff))
  case beyond =>
    rw [execLdw_bound hg hw hlt hb, if_neg (by simp [hbase, hoff]), if_pos hout]

end Sys2Proof.Machine

namespace Sys2Proof.Machine

/-! ## System words, fences and waits of the Last (R135, R189, R190, R199, R200, R206) -/

section
variable {s : State} {sc : Scope}

/-- A release has nothing to wait for (R134, R146). -/
theorem released_iff (c : Core) (sc : Scope) : c.released sc = true ↔
    (sc ≠ .hart → c.cpy = [] ∧ c.col = []) ∧ c.vec = [] ∧ ∀ r, c.region = some r → r.held = [] := by
  simp only [Core.released, Bool.and_eq_true, Bool.or_eq_true, List.isEmpty_iff, beq_iff_eq, Option.all_eq_true]
  tauto

/-- An acquire has no load to wait for (R135). -/
theorem loaded_iff (c : Core) (sc : Scope) : c.loaded sc = true ↔
    (sc ≠ .hart → c.cpy = [] ∧ c.col = []) ∧ ∀ e ∈ c.vec, readsMemory e.word = false := by
  simp only [Core.loaded, Bool.and_eq_true, Bool.or_eq_true, List.isEmpty_iff, beq_iff_eq, List.all_eq_true,
    Bool.not_eq_true']
  tauto

theorem reachesCluster_iff (sc : Scope) : reachesCluster sc = true ↔ sc ≠ .hart ∧ sc ≠ .core := by
  simp [reachesCluster]

/-- A fence that has what it waits for goes on, its fetched copies discarded where it acquires at cluster scope or wider. -/
theorem fence_cases {done acq : Bool} {past : Prop} (hdone : done = true ↔ past) :
    (s.core.openConvoy ≠ [] → fence done acq sc s =
      .next (genFault s 0x04 (BitVec.ofNat 64 (s.core.openConvoy.length * 65536 + 5 * 256)) 0)) ∧
    (s.core.openConvoy = [] → past → fence done acq sc s =
      .next ((s.droppedIf (acq && reachesCluster sc)).movedTo (s.core.pc + 4))) ∧
    (s.core.openConvoy = [] → ¬ past → fence done acq sc s = .next s.stall) := by
  refine ⟨ordering_open, fun hc hp => ?_, fun hc hp => ?_⟩
  · refine (ordering_closed hc).trans ((if_pos (hdone.mpr hp)).trans ?_)
    cases acq with
    | true => rw [if_pos rfl, State.discardFetched_eq, State.droppedIf_advance, Bool.true_and]
    | false => rfl
  · exact (ordering_closed hc).trans (if_neg (mt hdone.mp hp))

end

/-- `RSEEK` takes positions below 2^40 (R206). -/
theorem execRseek_eq (s : State) (a : BitVec 5) : execRseek a s = if (s.operand a).toNat < 2 ^ 40 then
    .next ({ s with core := { s.core with rpos := s.operand a <<< 24, spent := false } }.movedTo (s.core.pc + 4))
    else .next (genFault s 0x12 (s.operand a) 0) := by
  unfold execRseek
  dsimp only
  rw [readS_eq_operand]
  generalize s.operand a <<< 24 = r
  rfl

/-- Settles O15: the plain words by what they write, the fences by `fence_cases` with what each waits for. -/
theorem plainSystemWords : Obligations.PlainSystemWords := by
  unfold Obligations.PlainSystemWords
  intro s
  refine ⟨rfl, rfl, fun a => rfl, fun a h => ?seek, fun a h => ?beyond, fun n a => rfl, fun sc i hi => ?fences⟩
  case seek => exact (execRseek_eq s a).trans (if_pos h)
  case beyond => exact (execRseek_eq s a).trans (if_neg (Nat.not_lt.mpr h))
  case fences =>
    have hdrop (b : Bool) (P : Prop) [Decidable P] (h : b = true ↔ P) : s.droppedIf b =
        if P then { s with core := { s.core with icache := [], bcache := [] } } else s := if_congr h rfl rfl
    rcases hi with rfl | rfl | rfl
    · rw [if_pos rfl, ← hdrop (true && reachesCluster sc) _ (by simp [reachesCluster_iff])]
      exact fence_cases (loaded_iff _ _)
    · rw [if_neg (by simp), if_neg (by simp)]
      exact fence_cases (acq := false) (released_iff _ _)
    · rw [if_neg (by simp), ← hdrop (true && reachesCluster sc) _ (by simp [reachesCluster_iff])]
      exact fence_cases (released_iff _ _)

end Sys2Proof.Machine

namespace Sys2Proof.Machine

/-! ## `VDRAIN` and `QWAIT` (R199, R200) -/

section
variable {s : State} {mask : BitVec 4} {n : Nat}

theorem mem_maskedQueues (q : Que) : q ∈ maskedQueues mask ↔ mask.getLsbD (q.code - 1) = true := by
  simp only [maskedQueues, List.mem_append]
  cases q <;> simp [Que.code]

/-- The queues named are empty. -/
theorem maskedQueues_empty_iff (c : Core) : ((maskedQueues mask).all fun q => (c.queue q).isEmpty) = true ↔
    ∀ q : Que, mask.getLsbD (q.code - 1) = true → c.queue q = [] := by
  simp [mem_maskedQueues]

/-- A count is above the smallest capacity named. -/
theorem maskedQueues_over_iff : ((maskedQueues mask).any fun q => decide (q.cap < n)) = true ↔
    ∃ q : Que, mask.getLsbD (q.code - 1) = true ∧ q.cap < n := by
  simp [mem_maskedQueues]

/-- The queues named and the history buffer have the entries asked for. -/
theorem maskedQueues_free_iff (c : Core) : (n = 0 || ((maskedQueues mask).all fun q =>
      decide ((c.queue q).length + n ≤ q.cap)) && decide (c.history + n ≤ Config.history)) = true ↔
    n = 0 ∨ (∀ q : Que, mask.getLsbD (q.code - 1) = true → (c.queue q).length + n ≤ q.cap) ∧ c.history + n ≤ 64 := by
  simp [mem_maskedQueues, Config.history]

theorem operandStop_eq (n : Nat) :
    operandStop s n = genFault s 0x05 (BitVec.ofNat 64 (15 + n % 2 ^ 32 * 2 ^ 32)) 0 := by
  rw [operandStop, Nat.shiftLeft_eq]

end

/-- Settles O19, by the queues that the mask names and their free entries. -/
theorem drainAndRoomWaits : Obligations.DrainAndRoomWaits := by
  unfold Obligations.DrainAndRoomWaits
  intro s mask a n named
  have hshut (hc : mask.getLsbD 0 = true → s.core.openConvoy = []) :
      ¬ (mask.getLsbD 0 && !s.core.openConvoy.isEmpty) = true := by simpa using hc
  have hroom (h : ∀ q, named q → n ≤ q.cap) : ¬ ((maskedQueues mask).any fun q => decide (q.cap < n)) = true :=
    fun ho => have ⟨q, hq, hlt⟩ := maskedQueues_over_iff.mp ho; Nat.not_le.mpr hlt (h q hq)
  have hqwait : exec (.qwait mask a) s = execQwait mask a s := rfl
  simp only [execQwait, readS_eq_operand] at hqwait
  refine ⟨fun hc hq => ?_, fun hc ⟨q, hq, hne⟩ => ?_, fun hm hc => ?_, fun hcap hn => ?_, fun hcap hn hor => ?_, fun hlt => ?_⟩
  · exact (if_neg (hshut hc)).trans (if_pos ((maskedQueues_empty_iff _).mpr hq))
  · exact (if_neg (hshut hc)).trans (if_neg fun h => hne ((maskedQueues_empty_iff _).mp h q hq))
  · exact (if_pos (by simpa using ⟨hm, hc⟩)).trans (congrArg _ (openStop_eq s 4))
  · exact hqwait.trans ((if_neg (hroom hcap)).trans (if_pos ((maskedQueues_free_iff _).mpr hn)))
  · refine hqwait.trans ((if_neg (hroom hcap)).trans (if_neg fun h => ?_))
    rcases (maskedQueues_free_iff _).mp h with h | ⟨hq, hh⟩
    · exact hn h
    · rcases hor with ⟨q, hqn, hlt⟩ | hlt
      · exact absurd (hq q hqn) (Nat.not_le.mpr hlt)
      · exact absurd hh (Nat.not_le.mpr hlt)
  · exact hqwait.trans ((if_pos (maskedQueues_over_iff.mpr hlt)).trans (congrArg _ (operandStop_eq n)))

end Sys2Proof.Machine

namespace Sys2Proof.Machine

/-! ## `EMIT` and `EMITQ` (R14, R17, R19, R195, R196, R316) -/

/-- The provenance of an emitted word is that of Table 2-15. -/
theorem emitProv_eq_emittedFrom (pc eseq : Word) : emitProv pc eseq = emittedFrom pc eseq := by
  have hseq : eseq.toNat % 2 ^ 10 < 2 ^ 10 := Nat.mod_lt _ (by norm_num)
  have hpc : pc.toNat >>> 2 % 2 ^ 53 < 2 ^ 64 := by omega
  have hseq53 : (eseq.toNat % 2 ^ 10) <<< 53 < 2 ^ 64 := by rw [Nat.shiftLeft_eq]; omega
  apply BitVec.eq_of_toNat_eq
  simp only [emitProv, emittedFrom, wfield, field, BitVec.toNat_or, BitVec.toNat_append, BitVec.toNat_ofNat,
    BitVec.extractLsb'_toNat]
  rw [Nat.mod_eq_of_lt hpc, Nat.shiftRight_zero, Nat.mod_eq_of_lt hseq53, Nat.shiftLeft_or_distrib]
  simp

section
variable (c : Core) {w : Word}

/-- Draw indices that are spent leave the position as it is (R417). -/
theorem setField_drawIndex (x : Word) (n : BitVec 5) :
    setField x 23 0 ((wfield x 23 0 + n.toNat) % 2 ^ 24) =
      x.extractLsb' 24 40 ++ (x.extractLsb' 0 24 + n.setWidth 24) := by
  have hsum : (x.extractLsb' 0 24 + n.setWidth 24).toNat = (wfield x 23 0 + n.toNat) % 2 ^ 24 := by
    simp [wfield, field, BitVec.toNat_add, BitVec.extractLsb'_toNat]
  refine BitVec.eq_of_getLsbD_eq fun i hi => ?_
  rw [setField_getLsbD x _ i (by norm_num) (by norm_num), BitVec.getLsbD_append, ← hsum, BitVec.testBit_toNat]
  by_cases h : i < 24
  · rw [if_pos ⟨Nat.zero_le i, by omega⟩, if_pos h, Nat.sub_zero]
  · rw [if_neg (by omega), if_neg h, BitVec.getLsbD_extractLsb', decide_eq_true (show i - 24 < 40 by omega),
      Bool.true_and, show 24 + (i - 24) = i by omega]

/-- What spending the draw indices of a placed word changes (R316). -/
theorem Core.spendDraws_eq : c.spendDraws c.rc.toNat = { c with
    rpos := c.rpos.extractLsb' 24 40 ++ (c.rpos.extractLsb' 0 24 + c.rc.setWidth 24)
    spent := decide (2 ^ 24 ≤ (c.rpos.extractLsb' 0 24).toNat + c.rc.toNat) } := by
  rw [← setField_drawIndex, show (c.rpos.extractLsb' 0 24).toNat = wfield c.rpos 23 0 by simp [wfield, field]]
  rfl

/-- A trim changes the length and the rows of a vector word and nothing else (R257). -/
theorem Core.trimmed_frame (vector : Prop) [Decidable vector] (e : QEntry) : ∃ vl rc,
    (if vector then (match c.trim with | some t => t.apply e | none => e) else e) = { e with vl := vl, rc := rc } ∧
      (c.trim = none → vl = e.vl ∧ rc = e.rc) := by
  by_cases hv : vector
  · rw [if_pos hv]
    cases ht : c.trim with
    | none => exact ⟨_, _, rfl, fun _ => ⟨rfl, rfl⟩⟩
    | some t =>
      obtain ⟨vl, rc, he⟩ := t.apply_frame e
      exact ⟨vl, rc, he, fun h => by cases h⟩
  · exact ⟨_, _, if_neg hv, fun _ => ⟨rfl, rfl⟩⟩

/-- The queue entry of a word that is placed, before a trim (R14, R17). -/
def Core.placedEntry (w : Word) (prov : Word) (more : Bool) : QEntry :=
  { word := w, prov := prov, pc := c.pc, rank := c.rank, vl := c.vl, rc := c.rc, vtype := c.vtype, slots := c.o,
    rkey := c.rkey, rpos := c.rpos, ven := c.ven, men := c.men, pen := c.pen, epoch := c.epoch,
    mark := ({ (if isStreamDraw w then c.spendDraws c.rc.toNat else c) with rank := c.rank + 1 } : Core).mark,
    more := more, restored := false, released := true, parked := false,
    passed := false, pins := [], aim := none, job := none, joined := [] }

/-- The queue entry carries what R14 and R17 say, trimmed or not. -/
theorem Core.placedEntry_carries {prov : Word} {more : Bool} {e : QEntry} (h : ∃ vl rc,
    e = { c.placedEntry w prov more with vl := vl, rc := rc } ∧ (c.trim = none → vl = c.vl ∧ rc = c.rc)) :
    Carries c w prov e ∧ e.rank = c.rank := by
  obtain ⟨vl, rc, rfl, hlen⟩ := h
  exact ⟨⟨rfl, rfl, rfl, rfl, rfl, ⟨rfl, rfl⟩, ⟨rfl, rfl, rfl⟩, hlen, rfl, rfl, rfl⟩, rfl⟩

/-- A placed word carries what R14 and R17 say, and stands at the end of its queue; a stream-form `DRAW` has spent its
draw indices. -/
theorem Core.place_eq (prov : Word) (more : Bool) : ∃ e, Carries c w prov e ∧ e.rank = c.rank ∧ c.place w prov more =
    ({ (if isStreamDraw w then c.spendDraws c.rc.toNat else c) with rank := c.rank + 1 } : Core).setQueue
      (c.queue (queOf w) ++ [e]) (queOf w) := by
  have hqueue : ({ (if isStreamDraw w then c.spendDraws c.rc.toNat else c) with rank := c.rank + 1 } : Core).queue
      (queOf w) = c.queue (queOf w) := by
    cases queOf w <;> cases isStreamDraw w <;> rfl
  have htrim : (if isStreamDraw w then c.spendDraws c.rc.toNat else c).trim = c.trim := by
    cases isStreamDraw w <;> rfl
  unfold Core.place
  dsimp only
  rw [hqueue, htrim]
  have ⟨hcarries, hrank⟩ := c.placedEntry_carries (c.trimmed_frame (queOf w = .vec) (c.placedEntry w prov more))
  exact ⟨_, hcarries, hrank, rfl⟩

end

section
variable {s : State} {w : Word}

/-- Nothing stops a legal word whose draw indices are there. -/
theorem emitStop_placed {i : Instr} (hk : s.core.parkedInK = false) (hi : decodeV w = .ok i)
    (hd : s.core.drawExhausts w = false) : emitStop s w = none := by
  unfold emitStop
  simp [hk, hi, hd]

theorem emitStop_exhausted {i : Instr} (hk : s.core.parkedInK = false) (hi : decodeV w = .ok i)
    (hd : s.core.drawExhausts w = true) : emitStop s w = some (genFault s 0x12 s.core.drawPassed 0) := by
  unfold emitStop
  simp [hk, hi, hd]

theorem emitStop_illegal {x : Reject} (hk : s.core.parkedInK = false) (hx : decodeV w = .error x) :
    emitStop s w = some (genFault s 0x02 w 0) := by
  unfold emitStop
  simp [hk, hx]

end

/-- What `EMIT` leaves once its word has room (R195). -/
theorem execEmit_room {s : State} {a : BitVec 5} (hstop : emitStop s (s.operand a) = none) : execEmit a s =
    if s.core.room (queOf (s.operand a)) then .next (s.withCore fun c => c.emit (s.operand a)).advance
    else .next s.stall := by
  unfold execEmit
  rw [readS_eq_operand]
  dsimp only
  rw [hstop]

theorem execEmitq_room {s : State} {d a : BitVec 5} (hstop : emitStop s (s.operand a) = none) : execEmitq d a s =
    if s.core.room (queOf (s.operand a)) then
      .next ((writeS s d 1).withCore fun c => c.emit (s.operand a)).advance
    else .next (s.wrote d 0) := by
  unfold execEmitq
  rw [readS_eq_operand]
  dsimp only
  rw [hstop, writeNext_eq_wrote]

theorem exec_emit_stopped {s s' : State} {d a : BitVec 5} (hstop : emitStop s (s.operand a) = some s') :
    exec (.emit a) s = .next s' ∧ exec (.emitq d a) s = .next s' := by
  constructor
  · show execEmit a s = _
    unfold execEmit
    rw [readS_eq_operand]
    dsimp only
    rw [hstop]
  · show execEmitq d a s = _
    unfold execEmitq
    rw [readS_eq_operand]
    dsimp only
    rw [hstop]

/-- A word stands placed at the end of its queue, as `EMIT` leaves it, in a core whose other registers are those of `c`. -/
theorem Core.emit_eq (c : Core) (w : Word) : ∃ e, Carries c w (emittedFrom c.pc c.eseq) e ∧ e.rank = c.rank ∧
    c.emit w = ({ (if isStreamDraw w then c.spendDraws c.rc.toNat else c) with
      rank := c.rank + 1, eseq := c.eseq + 1 } : Core).setQueue (c.queue (queOf w) ++ [e]) (queOf w) := by
  obtain ⟨e, he, hrank, hplace⟩ := ({ c with eseq := c.eseq + 1 } : Core).place_eq (w := w) (emitProv c.pc c.eseq) false
  rw [emitProv_eq_emittedFrom] at he
  refine ⟨e, ⟨he.word, he.prov, he.pc, he.vtype, he.slots, he.random, he.enables, he.length, he.unstarted⟩, hrank,
    hplace.trans ?_⟩
  cases queOf w <;> cases isStreamDraw w <;> rfl

/-- Settles O17: nothing stops a legal word, and `Core.emit_eq` says where it stands; the refusals come before the room. -/
theorem emitPlacesAWord : Obligations.EmitPlacesAWord := by
  unfold Obligations.EmitPlacesAWord
  intro s d a w hk
  refine ⟨fun i hi hd hr j hj => ?_, fun i hi hd hr => ?_, fun x hx => ?_, fun i hi hd => ?_⟩
  · obtain ⟨regs, hregs, hexec⟩ : ∃ regs, (if j = .emit a then s else s.wrote d 1).core.s = regs ∧
        exec j s = .next (State.advance { s with core := ({ s.core with s := regs } : Core).emit w }) := by
      have hstop := emitStop_placed hk hi hd
      rcases hj with rfl | rfl
      · exact ⟨_, rfl, (execEmit_room hstop).trans ((if_pos hr).trans (by rw [if_pos rfl]; rfl))⟩
      · exact ⟨_, rfl, (execEmitq_room hstop).trans ((if_pos hr).trans (by rw [if_neg (by simp), writeS_eq]; rfl))⟩
    obtain ⟨e, he, hrank, hemit⟩ := ({ s.core with s := regs } : Core).emit_eq w
    refine ⟨_, e, hexec, ⟨he.word, he.prov, he.pc, he.vtype, he.slots, he.random, he.enables, he.length, he.unstarted⟩,
      ?_⟩
    rw [hemit, hregs, Core.spendDraws_eq]
    refine ⟨?_, fun q hq => ?_, hrank, ?_⟩
    · cases queOf w <;> rfl
    · exact (Core.queue_setQueue_other _ _ hq).trans (by cases q <;> cases isStreamDraw w <;> rfl)
    · cases queOf w <;> cases isStreamDraw w <;> exact ⟨rfl, rfl, rfl, rfl, rfl, rfl, rfl, rfl, rfl, rfl, rfl⟩
  · have hstop := emitStop_placed hk hi hd
    have hshut := Bool.eq_false_iff.mp hr
    exact ⟨(execEmit_room hstop).trans (if_neg hshut), (execEmitq_room hstop).trans (if_neg hshut)⟩
  · exact exec_emit_stopped (emitStop_illegal hk hx)
  · exact exec_emit_stopped (emitStop_exhausted hk hi hd)

end Sys2Proof.Machine

namespace Sys2Proof.Machine

/-! ## `LAUNCH` (R138, R146, R205) -/

section
variable {s : State}

theorem Core.drained_iff (c : Core) : c.drained = true ↔ c.words = [] ∧ c.restore = [] := by simp [Core.drained]

/-- A hart whose placed words have finished has no word left in any queue. -/
theorem Core.queues_of_drained {c : Core} (h : c.drained = true) : c.vec = [] ∧ c.mat = [] ∧ c.cpy = [] ∧ c.col = [] := by
  simpa [Core.words, and_assoc] using (c.drained_iff.mp h).1

theorem Core.launched_eq_none {c : Core} (h : ∀ x ∈ c.launching, x.1 ≠ c.pc) : c.launched = none := by
  simpa [Core.launched] using h

theorem Core.launched_eq_some {c : Core} {k : Nat} (h : c.launching.find? (fun x => x.1 == c.pc) = some (c.pc, k)) :
    c.launched = some k := by
  rw [Core.launched, h]
  rfl

/-- What a `LAUNCH` waits for before it writes its entry. -/
theorem launch_holds_iff (c : Core) : (!c.drained || !c.released .dev || !c.pubs.isEmpty) = true ↔
    ¬ (c.drained = true ∧ (∀ r, c.region = some r → r.held = []) ∧ c.pubs = []) := by
  have hrel (h : c.drained = true) : c.released .dev = true ↔ ∀ r, c.region = some r → r.held = [] := by
    obtain ⟨hvec, -, hcpy, hcol⟩ := c.queues_of_drained h
    simp [released_iff, hvec, hcpy, hcol]
  cases hd : c.drained with
  | false => simp
  | true =>
    rw [← hrel hd]
    simp [imp_iff_not_or]

end

section
variable {s : State} {d a : BitVec 5} {c : Ctx}

/-- Memory with the entry that a `LAUNCH` writes (Table 12-2). -/
def launchMemory (s : State) (f : Func) (v : Word) : Memory :=
  (s.dev.dram.setWord (f.entryAt 1 (f.tailN 1)) v).setWord (f.entryAt 1 (f.tailN 1) + 8) (entryWord 0 0 0 s.ctxId)

/-- A word written to memory takes its eight bytes and no other (R4). -/
theorem storedAs_setWord {m : Memory} (h : m.wf = true) (p : Nat) (v : Word) :
    StoredAs m (m.setWord p v) p 8 v.toNat := storedAs_setNum h p 8 v.toNat

/-- A `LAUNCH` that has written no entry. -/
theorem execLaunch_fresh (hctx : s.dev.ctx s.ctxId = some c) (hnone : s.core.launched = none) :
    execLaunch d a s =
      if !s.core.drained || !s.core.released .dev || !s.core.pubs.isEmpty then .next s.stall
      else if (s.dev.func c.vf).full 1 || !(s.dev.func c.vf).enabled 1 then .next (s.wrote d 0xFFFFFFFFFFFFFFFF)
      else .next (State.stall { s with
        dev := ({ s.dev with dram := launchMemory s (s.dev.func c.vf) (s.operand a) }).updFunc c.vf fun f =>
          { f with tail := f.tail.set 1 (BitVec.ofNat 64 (((s.dev.func c.vf).tailN 1 + 1) % f.entries 1)) }
        core := { s.core with launching := (s.core.pc, (s.dev.func c.vf).tailN 1) :: s.core.launching } }) := by
  unfold execLaunch
  simp only [hctx, hnone, Option.getD_some, writeNext_eq_wrote]
  rfl

/-- A `LAUNCH` whose entry stands at index `k`. -/
theorem execLaunch_waiting {k : Nat} (hctx : s.dev.ctx s.ctxId = some c) (hk : s.core.launched = some k) :
    execLaunch d a s =
      let e := (s.dev.ringEntry (s.dev.func c.vf) 1 k).2
      let done (v : Word) := { s with core := s.core.decided }.wrote d v
      if e.extractLsb' 62 2 = 0 then .next s.stall
      else if e.extractLsb' 62 2 = 2 then .next (done 0xFFFFFFFFFFFFFFFE)
      else .next (done ((e.extractLsb' 32 16).setWidth 64)) := by
  unfold execLaunch
  simp only [hctx, hk, Option.getD_some, writeNext_eq_wrote]
  generalize (s.dev.ringEntry (s.dev.func c.vf) 1 k).2 = e
  have hstate : wfield e 63 62 = (e.extractLsb' 62 2).toNat := by simp [wfield, field]
  have hgid : BitVec.ofNat 64 (wfield e 47 32) = (e.extractLsb' 32 16).setWidth 64 := by
    apply BitVec.eq_of_toNat_eq
    simp [wfield, field]
  rw [hstate, hgid]
  generalize (e.extractLsb' 32 16).setWidth 64 = g
  generalize e.extractLsb' 62 2 = st
  obtain rfl | rfl | rfl | rfl : st = 0 ∨ st = 1 ∨ st = 2 ∨ st = 3 := by revert st; decide
  all_goals rfl
end

/-- Settles O22: a fresh `LAUNCH` by what it waits for and by its ring, one that has written its entry by the entry's state. -/
theorem launchReportsAdmission : Obligations.LaunchReportsAdmission := by
  unfold Obligations.LaunchReportsAdmission
  intro s d a c hctx f fresh past
  have hgo (hp : past) : ¬ (!s.core.drained || !s.core.released .dev || !s.core.pubs.isEmpty) = true :=
    fun h => (launch_holds_iff _).mp h hp
  have hfresh (hf : fresh) := execLaunch_fresh (d := d) (a := a) hctx (Core.launched_eq_none hf)
  refine ⟨fun hf hp hfull => ?_, fun hf hp => ?_, fun hf hp hfull hen => ?_, fun k hk => ?_⟩
  · exact (hfresh hf).trans ((if_neg (hgo hp)).trans (if_pos (by rw [hfull, Bool.true_or])))
  · exact (hfresh hf).trans (if_pos ((launch_holds_iff _).mpr hp))
  · have hroom : ¬ (f.full 1 || !f.enabled 1) = true := by simp [hfull, hen]
    refine ⟨_, (hfresh hf).trans ((if_neg (hgo hp)).trans (if_neg hroom)), rfl, rfl, rfl, rfl, fun hwf => ?_⟩
    have hslot := storedAs_setWord hwf (f.entryAt 1 (f.tailN 1)) (s.operand a)
    have hsecond := storedAs_setWord (Memory.wf_setWord hwf (f.entryAt 1 (f.tailN 1)) (s.operand a))
      (f.entryAt 1 (f.tailN 1) + 8) (entryWord 0 0 0 s.ctxId)
    exact ⟨_, hslot, (congrArg (StoredAs _ · _ 8 _) (Device.updFunc_frame _ _ _).2).mpr hsecond⟩
  · have hwait := execLaunch_waiting (d := d) (a := a) hctx (Core.launched_eq_some hk)
    refine ⟨fun h => ?_, fun h => ?_, fun h => ?_⟩
    · exact hwait.trans (if_pos h)
    · exact hwait.trans ((if_neg (by rw [h]; decide)).trans (if_pos h))
    · refine hwait.trans ((if_neg ?_).trans (if_neg ?_)) <;> rcases h with h | h <;> rw [h] <;> decide
end Sys2Proof.Machine

namespace Sys2Proof.Machine

/-! ## The end of a hart (R189, R192, R338, R433) -/

section
variable {d : Device} {gid : BitVec 16} {f : Gang → Gang}

/-- A gang that is live under a number: what `liveGang` looks for. -/
def Gang.liveAt (gid : BitVec 16) (g : Gang) : Bool := g.gid == gid && g.st != .ended

theorem Gang.liveAt_iff {g : Gang} : g.liveAt gid = true ↔ g.gid = gid ∧ g.st ≠ .ended := by simp [Gang.liveAt]

/-- A change that leaves a live gang its number and leaves it live is one of what `liveGang` gives. -/
theorem Device.liveGang_updGang {g : Gang} (hg : d.liveGang gid = some g)
    (h : ∀ g : Gang, g.gid = gid → g.st ≠ .ended → (f g).gid = gid ∧ (f g).st ≠ .ended) :
    (d.updGang gid f).liveGang gid = some (f g) := by
  change d.gangs.find? (Gang.liveAt gid) = some g at hg
  show (d.gangs.map _).find? (Gang.liveAt gid) = _
  generalize d.gangs = gs at hg ⊢
  induction gs with
  | nil => cases hg
  | cons x xs ih =>
    by_cases hx : x.gid = gid ∧ x.st ≠ .ended
    · obtain rfl : x = g := Option.some.inj ((List.find?_cons_of_pos (Gang.liveAt_iff.mpr hx)).symm.trans hg)
      rw [List.map_cons, if_pos hx]
      exact List.find?_cons_of_pos (Gang.liveAt_iff.mpr (h x hx.1 hx.2))
    · have hskip : ¬ Gang.liveAt gid x = true := mt Gang.liveAt_iff.mp hx
      rw [List.map_cons, if_neg hx]
      exact (List.find?_cons_of_neg hskip).trans (ih ((List.find?_cons_of_neg hskip).symm.trans hg))

/-- No gang of a number is live once they have ended. -/
theorem Device.liveGang_updGang_ended (h : ∀ g, (f g).st = .ended) : (d.updGang gid f).liveGang gid = none := by
  simp only [Device.liveGang, Device.updGang, List.find?_eq_none, List.mem_map]
  rintro _ ⟨g, -, rfl⟩
  split
  · simp [h g]
  · next hg => simpa using hg

theorem Device.liveGang_gid {g : Gang} (h : d.liveGang gid = some g) : g.gid = gid := by
  have := List.find?_some h
  simp_all

theorem Device.liveGang_congr {d' : Device} (h : d'.gangs = d.gangs) : d'.liveGang gid = d.liveGang gid := by
  rw [Device.liveGang, h]; rfl

end

/-! What a gang's end does beside the change of its state leaves the gangs. -/

theorem Device.updFunc_gangs (d : Device) (n : Nat) (f : Func → Func) : (d.updFunc n f).gangs = d.gangs := by
  unfold Device.updFunc
  split <;> rfl

theorem Device.setEntry_gangs (d : Device) (vf : Nat) (r : Fin 2) (i : Nat) (w : Word) :
    (d.setEntry vf r i w).gangs = d.gangs := Device.updFunc_gangs _ _ _

theorem Device.signBlock_gangs (d : Device) (id : Nat) : (d.signBlock id).gangs = d.gangs := by
  unfold Device.signBlock
  split <;> rfl

theorem Device.closeAudit_gangs (d : Device) (ctx : Nat) : (d.closeAudit ctx).gangs = d.gangs := by
  unfold Device.closeAudit
  dsimp only
  split
  · exact d.signBlock_gangs ctx
  · rfl

theorem Device.endGang_gangs {d : Device} {gid : BitVec 16} {g : Gang} (h : d.liveGang gid = some g) :
    (d.endGang gid).gangs = (d.updGang gid d.finalMarks).gangs := by
  unfold Device.endGang
  rw [h]
  refine (Device.closeAudit_gangs _ _).trans ?_
  dsimp only
  split <;> exact Device.setEntry_gangs _ _ _ _ _

theorem Device.endGang_liveGang (d : Device) (gid : BitVec 16) : (d.endGang gid).liveGang gid = none := by
  cases h : d.liveGang gid with
  | none =>
    unfold Device.endGang
    rw [h]
    exact h
  | some g =>
    exact (Device.liveGang_congr (Device.endGang_gangs h)).trans (Device.liveGang_updGang_ended fun _ => rfl)

section
variable {d : Device} {gid : BitVec 16} {g : Gang}

/-- Every hart of a gang has halted. -/
theorem Gang.allHalted_iff (g : Gang) : ((List.range g.desc.harts).all fun i => g.halted.contains i) = true ↔
    ∀ h, h < g.desc.harts → h ∈ g.halted := by
  simp

theorem Device.allStopped_iff (d : Device) (g : Gang) : d.allStopped g = true ↔
    ∀ h, h < g.desc.harts → h ∉ g.halted → ∃ c ∈ d.saved, c.gang16 = g.gid ∧ c.hart = h := by
  simp [Device.allStopped, or_iff_not_imp_left]

theorem Device.settleGang_ended (hg : d.liveGang gid = some g) (hall : ∀ h, h < g.desc.harts → h ∈ g.halted) :
    (d.settleGang gid).liveGang gid = none := by
  unfold Device.settleGang
  rw [hg]
  dsimp only
  rw [if_pos (g.allHalted_iff.mpr hall)]
  exact d.endGang_liveGang gid

theorem Device.settleGang_running {h : Nat} (hg : d.liveGang gid = some g) (hh : h < g.desc.harts) (hleft : h ∉ g.halted)
    (hon : ¬ ∃ c ∈ d.saved, c.gang16 = g.gid ∧ c.hart = h) : d.settleGang gid = d := by
  unfold Device.settleGang
  rw [hg]
  dsimp only
  rw [if_neg (fun hall => hleft (g.allHalted_iff.mp hall h hh)),
    if_neg (fun hall => hon ((d.allStopped_iff g).mp hall h hh hleft))]

theorem Device.settleGang_yielded {h : Nat} (hg : d.liveGang gid = some g) (hh : h < g.desc.harts) (hleft : h ∉ g.halted)
    (hoff : ∀ h, h < g.desc.harts → h ∉ g.halted → ∃ c ∈ d.saved, c.gang16 = g.gid ∧ c.hart = h) :
    (d.settleGang gid).liveGang gid = some { g with st := .preempted, order := d.order } := by
  unfold Device.settleGang
  rw [hg]
  dsimp only
  rw [if_neg (fun hall => hleft (g.allHalted_iff.mp hall h hh)), if_pos ((d.allStopped_iff g).mpr hoff)]
  refine (Device.liveGang_congr (d := d.updGang gid fun g => { g with st := .preempted, order := d.order }) rfl).trans ?_
  exact Device.liveGang_updGang hg fun g hgid _ => ⟨hgid, by simp⟩

end

/-- Settles O23: the focused hart's end is `State.endHart`, and what becomes of its gang is `Device.settleGang`. -/
theorem haltEndsTheHart : Obligations.HaltEndsTheHart := by
  unfold Obligations.HaltEndsTheHart
  have hclosed {s : State} (hc : s.core.openConvoy = []) : ¬ (!s.core.openConvoy.isEmpty) = true := by simp [hc]
  refine ⟨fun s hc => ?_, fun s g hg hc => ⟨fun hd hp => ?_, fun h => ?_⟩⟩
  · exact (if_pos (by simpa using hc)).trans (congrArg _ (openStop_eq s 3))
  · refine ⟨s.endHart, (if_neg (hclosed hc)).trans (if_pos (by simp [hd, hp])), rfl, rfl, rfl, rfl, ?_⟩
    have hlive : (s.dev.updGang s.core.gang16 fun g => { g with halted := s.core.hart :: g.halted }).liveGang
        s.core.gang16 = some { g with halted := s.core.hart :: g.halted } :=
      Device.liveGang_updGang hg fun g hgid hst => ⟨hgid, hst⟩
    refine ⟨fun hall => Device.settleGang_ended hlive ?_, ?_⟩
    · simpa using hall
    intro left off
    have hleft (h : Nat) : left h ↔ h < g.desc.harts ∧ h ∉ s.core.hart :: g.halted := by simp [left]
    refine ⟨fun ⟨h, hh, hon⟩ => ?_, fun ⟨h, hh⟩ hoff => ?_⟩
    · have ⟨hlt, hmem⟩ := (hleft h).mp hh
      exact (congrArg (Device.liveGang · _) (Device.settleGang_running hlive hlt hmem hon)).trans hlive
    · have ⟨hlt, hmem⟩ := (hleft h).mp hh
      exact ⟨_, Device.settleGang_yielded hlive hlt hmem fun h hlt hmem => hoff h ((hleft h).mpr ⟨hlt, hmem⟩)⟩
  · refine (if_neg (hclosed hc)).trans (if_neg ?_)
    rcases h with h | h <;> simp [h]

end Sys2Proof.Machine

namespace Sys2Proof.Machine

/-! ## Entering the hart's own handler (R386, R387) -/

/-- A trap that no word stands for: at an S-word, or a single-step stop, with the provenance that it reports. -/
inductive LastTrap : TrapKind → Word → Prop
  | generator : LastTrap .generator 0x6000000000000000
  | stop (p : Word) : LastTrap (.stop p) p

section
variable {k : TrapKind} {p : Word} {cause : BitVec 8}

theorem LastTrap.reported (h : LastTrap k p) (c : Core) : c.reported k = none := by cases h <;> rfl
theorem LastTrap.tepc (h : LastTrap k p) (c : Core) : c.tepcOf k = c.pc := by cases h <;> rfl
theorem LastTrap.tprov (h : LastTrap k p) : tprovOf k none = p := by cases h <;> rfl

/-- Such a trap gives WF = 0 and no queue. -/
theorem LastTrap.tcause (h : LastTrap k p) : tcauseOf cause k none = cause.setWidth 64 := by
  have hplain : tcauseOf cause k none = BitVec.ofNat 64 (cause.toNat + 0 * 256 + 0 * 512) := by cases h <;> rfl
  rw [hplain, Nat.zero_mul, Nat.add_zero, BitVec.ofNat_toNat]

theorem routeOf_handler (h : handlerAlone cause) : routeOf cause = .hart := by
  obtain ⟨h9, hA, hB, h16, h18, h19, h1A⟩ := h
  rw [routeOf, if_neg (not_or.mpr ⟨hA, hB⟩), if_neg (by simpa only [not_or] using ⟨h9, h16, h18, h19, h1A⟩)]

/-- A trap that is not nested finds the hart in U mode, with a handler address in `tvec`. -/
theorem not_nested_iff (c : Core) : (c.kmode || wfield c.t.tvec 54 2 == 0) = false ↔ ¬ nested c := by
  have hvec : wfield c.t.tvec 54 2 = 0 ↔ c.t.tvec.extractLsb' 2 53 = 0 := by
    rw [show wfield c.t.tvec 54 2 = (c.t.tvec.extractLsb' 2 53).toNat by simp [wfield, field]]
    exact ⟨fun h => BitVec.eq_of_toNat_eq h, fun h => by rw [h]; rfl⟩
  rw [nested, ← hvec, Core.kmode]
  simp

/-- The address at which the handler is entered (R387). -/
theorem tvec_address (v : Word) : BitVec.ofNat 64 (wfield v 54 2 * 4) = v &&& 0x7FFFFFFFFFFFFC := by
  show _ = v &&& fieldMask 54 2
  refine BitVec.eq_of_getLsbD_eq fun i hi => ?_
  rw [show wfield v 54 2 * 4 = wfield v 54 2 <<< 2 by rw [Nat.shiftLeft_eq], BitVec.getLsbD_and, getLsbD_fieldMask,
    BitVec.getLsbD_ofNat, Nat.testBit_shiftLeft, wfield, field, Nat.testBit_mod_two_pow, Nat.testBit_shiftRight]
  by_cases h : 2 ≤ i
  · simp [h, hi, Nat.add_sub_cancel' h, BitVec.getLsbD, Bool.and_comm]
  · simp [h]

/-- MODE := 1 and PM := 0, as entry from U mode leaves `hstat`. -/
theorem hstat_entered {x : Word} (h : x.getLsbD 0 = false) :
    setBit (setBit x 1 (x.getLsbD 0)) 0 true = (x &&& ~~~3#64) ||| 1 := by
  rw [h]
  have hclear : setBit x 1 false = x &&& ~~~2#64 := setField_zero x 1 1
  rw [hclear]
  show ((x &&& ~~~2#64) &&& ~~~1#64) ||| 1#64 = _
  rw [BitVec.and_assoc]
  rfl

/-- What a trap of the Last that ends no region and no convoy gives up. -/
theorem Core.givenUp_lastTrap {t : TrapReq} (c : Core) (hk : LastTrap t.kind p) (halone : handlerAlone t.cause)
    (h4 : t.cause ≠ 0x04) (h10 : t.cause ≠ 0x10) : ∃ l : List Batch, (∀ b ∈ l, b ∈ c.batches ∧ b.owner ≠ .last) ∧
      c.givenUp t = { c with batches := l, early := [], maskRead := none, wfe := false } := by
  obtain ⟨k, cause, tval, addr⟩ := t
  obtain ⟨h9, hA, hB, h16, h18, h19, h1A⟩ := halone
  have hfrozen : (c.frozenHart || cause == 0x0A || cause == 0x0B) = c.frozenHart := by
    rw [beq_eq_false_iff_ne.mpr hA, beq_eq_false_iff_ne.mpr hB, Bool.or_false, Bool.or_false]
  unfold Core.givenUp
  dsimp only at *
  rw [if_neg h10, if_neg (fun h => h4 h.1)]
  cases hk <;> dsimp only <;> rw [hfrozen]
  all_goals
    refine ⟨_, fun b hb => ?_, rfl⟩
    obtain ⟨hmem, hkeep⟩ := List.mem_filter.mp hb
    refine ⟨hmem, fun howner => ?_⟩
    rw [howner] at hkeep
    exact absurd hkeep (by simp)

/-- The state of a trap of the Last before its stop is traced: `l` are the accesses that are not given up. -/
def lastTrapTaken (s : State) (l : List Batch) (t : TrapReq) (p : Word) : State :=
  let given : Core := { s.core with batches := l, early := [], maskRead := none, wfe := false }
  { s with core := given.trapTaken t s.core.pc (t.cause.setWidth 64) p }

/-- A trap of the Last with the handler as its route: what is given up, the trap words, the trace, the handler. -/
theorem takeTrap_lastTrap {s : State} {t : TrapReq} (hk : LastTrap t.kind p) (halone : handlerAlone t.cause)
    (hnest : ¬ nested s.core) (h4 : t.cause ≠ 0x04) (h10 : t.cause ≠ 0x10) :
    ∃ l : List Batch, (∀ b ∈ l, b ∈ s.core.batches ∧ b.owner ≠ .last) ∧
      let u := (lastTrapTaken s l t p).trace 3 3 s.core.pc p (t.cause.setWidth 64) 0
      takeTrap s t = { u with core := u.core.enter none } := by
  obtain ⟨l, hl, hgiven⟩ := s.core.givenUp_lastTrap hk halone h4 h10
  have htrap := takeTrap_handler (routeOf_handler halone) ((not_nested_iff s.core).mpr hnest) (.inl h4)
  rw [hk.reported, hk.tepc, Option.map_none, Option.map_none, hk.tprov, hk.tcause, hgiven] at htrap
  exact ⟨l, hl, htrap⟩

/-- A trap of the Last with the handler as its route enters the handler (R387). -/
theorem takeTrap_enters {s : State} {t : TrapReq} (hk : LastTrap t.kind p) (halone : handlerAlone t.cause)
    (hnest : ¬ nested s.core) (h4 : t.cause ≠ 0x04) (h10 : t.cause ≠ 0x10) :
    EnteredHandler s s.core (t.cause.setWidth 64) s.core.pc p t.tval (takeTrap s t) ∧
      (untraced s → (takeTrap s t).dev = s.dev) := by
  obtain ⟨l, hl, htrap⟩ := takeTrap_lastTrap hk halone hnest h4 h10
  obtain ⟨n, hn⟩ := State.trace_core (lastTrapTaken s l t p) 3 3 s.core.pc p (t.cause.setWidth 64) 0
  have hmode : s.core.hstat.getLsbD 0 = false := Bool.eq_false_iff.mpr fun h => hnest (.inl h)
  have hcause : ((t.cause.setWidth 64).extractLsb' 0 8 == 0x17) = decide (t.cause = 0x17) := by
    rw [show (t.cause.setWidth 64).extractLsb' 0 8 = t.cause from BitVec.eq_of_toNat_eq (by simpa using t.cause.isLt)]
    rfl
  dsimp only at htrap
  rw [htrap]
  refine ⟨⟨?core, ?batches, State.trace_rest _ _ _ _ _ _ _⟩, fun hu => ?dev⟩
  case core =>
    dsimp only
    rw [hn, hcause, ← hstat_entered hmode, ← tvec_address]
    rfl
  case batches =>
    intro b hb
    have hbatches : b ∈ l := by rw [hn] at hb; exact hb
    exact hl b hbatches
  case dev =>
    dsimp only
    rw [State.trace_none (s := lastTrapTaken s l t p) hu]
    rfl

end

/-! ## S-words that trap (R188, R189, R191, R201, R370, R372, R377) -/

theorem handlerAlone_ecall : handlerAlone 0x1F := by unfold handlerAlone; decide
theorem handlerAlone_brk : handlerAlone 0x20 := by unfold handlerAlone; decide
theorem handlerAlone_step : handlerAlone 0x22 := by unfold handlerAlone; decide

section
variable {s : State} {i : Instr} {r : SRaw}

/-- In U mode a K-only S-word is refused (R377). -/
theorem privileged_refused (k : Result) (hu : s.core.kmode = false) :
    privileged r s k = .next (genFault s 0x03 (r.pack.setWidth 64) 0) := by
  rw [privileged, if_neg (by simp [hu])]
  rfl

/-- The privileged S-words in U mode. -/
theorem exec_privileged_refused (hu : s.core.kmode = false) (hr : encodeS i = some r)
    (hi : i = .eret ∨ (∃ d a, i = .vqsave d a) ∨ (∃ a b, i = .vqload a b) ∨ (∃ a, i = .vcmst a) ∨ ∃ a, i = .vcmld a) :
    exec i s = .next (genFault s 0x03 (r.pack.setWidth 64) 0) := by
  rcases hi with rfl | ⟨d, a, rfl⟩ | ⟨a, b, rfl⟩ | ⟨a, rfl⟩ | ⟨a, rfl⟩ <;> obtain rfl := Option.some.inj hr
  all_goals exact privileged_refused _ hu

/-- A fetch that fails without waiting is the trap of a load there (R188). -/
theorem execSWordFetchFault_error {f : Fail} (hr : s.refusedPage .last s.core.pc = false)
    (hf : probe s s.core.pc 4 .fetch false = .error f) :
    exec .sWordFetchFault s =
      let u := s.touched s.core.pc 4 .fetch
      lastStop u (u.failStop .last u.core.pc .fetch 0 f) := by
  have hfetch : fetchBytes s false s.core.pc 4 = .error f := by
    rw [fetchBytes, probeFor_eq_probe hr, hf]
  show execSWordFetchFault s = _
  unfold execSWordFetchFault
  rw [hfetch]

/-- A number that has a value is one that Table 2-3 lists. -/
theorem listed_of_stateValue {c : Core} {n : Nat} (h : (stateValue c n).isSome = true) : listedNumber n := by
  unfold listedNumber kernelNumber
  unfold stateValue at h
  split at h
  case h_29 =>
    split at h
    · omega
    · cases h
  all_goals omega
end

/-- Settles O25: `takeTrap_enters` for the traps, and the privilege, the legality and the fetch of the other words. -/
theorem wordsThatTrap : Obligations.WordsThatTrap := by
  unfold Obligations.WordsThatTrap
  refine ⟨fun s i cause hrun hnest hi => ?traps, fun s i r hu hr hi => ?privileged, fun s n d a hl => ?unlisted,
    fun s => ⟨fun w => rfl, fun hm w => refuseWord_stop s _ hm, fun f cause hf hr hp => ?fetch⟩⟩
  case traps =>
    rcases hi with ⟨rfl, hg, rfl⟩ | ⟨rfl, rfl⟩
    · exact ⟨_, if_pos hg, takeTrap_enters (t := ⟨.generator, 0x1F, 0, 0⟩) .generator handlerAlone_ecall hnest (by decide)
        (by decide)⟩
    · exact ⟨_, rfl, takeTrap_enters (t := ⟨.generator, 0x20, 0, 0⟩) .generator handlerAlone_brk hnest (by decide) (by decide)⟩
  case privileged =>
    rcases hi with h | h | h | h | h | ⟨d, n, rfl, hk⟩ | ⟨n, a, rfl, hl, hw⟩
    · exact exec_privileged_refused hu hr (.inl h)
    · exact exec_privileged_refused hu hr (.inr (.inl h))
    · exact exec_privileged_refused hu hr (.inr (.inr (.inl h)))
    · exact exec_privileged_refused hu hr (.inr (.inr (.inr (.inl h))))
    · exact exec_privileged_refused hu hr (.inr (.inr (.inr (.inr h))))
    · obtain rfl := Option.some.inj hr
      obtain ⟨w, h⟩ := SWord.exists_names (listed_of_kernel hk)
      exact (exec_mfs h).trans (if_pos ((mfs_refused_iff h).mpr ⟨hk, hu⟩))
    · obtain rfl := Option.some.inj hr
      obtain ⟨w, h⟩ := SWord.exists_names (listed_of_stateValue hl)
      exact (exec_mts h).trans (if_pos ((mts_refused_iff h).mpr ⟨hw, hu⟩))
  case unlisted =>
    have ⟨_, _, _, _, _, _, _, hunlisted⟩ := stateWordsAreReadAndWritten s n d a
    exact hunlisted hl
  case fetch =>
    have hkind : f = .noAddr ∨ f = .perm := by tauto
    have hcause : f.cause = cause := by rcases hf with ⟨rfl, rfl⟩ | ⟨rfl, rfl⟩ <;> rfl
    refine (execSWordFetchFault_error hr hp).trans ?_
    rw [touched_of_refused hp (by rcases hkind with h | h <;> simp [h])]
    exact (lastStop_refused s hkind).trans (by rw [hcause])

end Sys2Proof.Machine

namespace Sys2Proof.Machine

/-! ## `ERET` (R189, R388, R395) -/

section
variable {s : State}

/-- MODE takes PM (R388). -/
theorem hstat_returned (x : Word) : setBit x 0 (x.getLsbD 1) = (x &&& ~~~1#64) ||| ((x >>> 1) &&& 1) := by
  have h : x.getLsbD 1 = (x >>> 1).getLsbD 0 := by simp
  rw [h, setBit_getLsbD]
  rfl

/-- A parked word carries the enable bits of now, and may start when MODE is U (R388). -/
def Core.unpark (c : Core) (e : QEntry) : QEntry :=
  if e.parked then { e with ven := c.ven, men := c.men, pen := c.pen, parked := c.pm } else e

/-- Where `ERET` goes on (R388). -/
def Core.resume (c : Core) : Word :=
  if c.t.tcause.getLsbD 8 && !c.resoff.getLsbD 9 then c.t.tepc + 4 else c.t.tepc

/-- What `ERET` leaves where no word has been reloaded by `VQLOAD`. -/
def Core.returned (c : Core) : Core :=
  { c with
    hstat := setBit c.hstat 0 c.pm, pc := c.resume, graceHeld := c.graceHeld && c.pm
    midFetch := if c.resoff.getLsbD 9 then some c.resume else none
    saved := c.saved.map fun x => { x with live := false }
    barAw := c.barAw.filter fun a => a == c.resume, launching := c.launching.filter fun x => x.1 == c.resume
    vec := c.vec.map c.unpark, mat := c.mat.map c.unpark, cpy := c.cpy.map c.unpark, col := c.col.map c.unpark
    restore := [] }

theorem Core.unpark_restored (c : Core) (e : QEntry) : (c.unpark e).restored = e.restored := by
  unfold Core.unpark
  split <;> rfl

/-- The enable bits that `ERET` leaves are those of now, and MODE is PM. -/
theorem hstat_returned_bits (c : Core) : let h := setBit c.hstat 0 c.pm
    h.getLsbD 2 = c.ven ∧ h.getLsbD 3 = c.men ∧ h.getLsbD 4 = c.pen ∧ h.getLsbD 0 = c.pm := by
  refine ⟨?_, ?_, ?_, ?_⟩ <;> rw [setBit, setField_getLsbD _ _ _ (by norm_num) (by norm_num)]
  · rfl
  · rfl
  · rfl
  · cases c.pm <;> rfl

theorem eret_eq_returned (hrestore : s.core.restore = []) (hwords : ∀ e ∈ s.core.words, e.restored = false) :
    eret s = { s with core := s.core.returned } := by
  unfold eret
  extract_lets c resume c' fresh back add c'' released stampW c₃ s₃ failing
  have hback : back = [] := by
    simp only [back, c', c, hrestore, List.map_nil]
  have hadd (q : Que) (l : List QEntry) : add q l = l := by
    simp only [add, hback, List.filter_nil, List.append_nil]
  have hfresh (e : QEntry) (he : e ∈ s.core.words) : fresh e = false := by simp only [fresh, hwords e he, Bool.false_and]
  have hreleased : released = [] := by
    have hqueued : c''.words = s.core.words := by
      show add .vec s.core.vec ++ add .mat s.core.mat ++ add .cpy s.core.cpy ++ add .col s.core.col = _
      simp only [hadd]
      rfl
    exact List.filter_eq_nil_iff.mpr fun e he => by simp [hfresh e (hqueued ▸ he)]
  obtain ⟨hven, hmen, hpen, hmode⟩ := hstat_returned_bits s.core
  have hstamp (l : List QEntry) (hl : ∀ e ∈ l, e ∈ s.core.words) : (l.map stampW) = l.map s.core.unpark :=
    List.map_congr_left fun e he => by
      have hplain : (s.core.unpark e).restored = false := (s.core.unpark_restored e).trans (hwords e (hl e he))
      have hunpark : (if e.parked then
          { e with ven := c''.ven, men := c''.men, pen := c''.pen, parked := c''.kmode } else e) = s.core.unpark e := by
        rw [show c''.ven = s.core.ven from hven, show c''.men = s.core.men from hmen,
          show c''.pen = s.core.pen from hpen, show c''.kmode = s.core.pm from hmode]
        rfl
      show (if fresh (if e.parked then _ else e) then _ else _) = _
      rw [hunpark]
      exact if_neg (by simp [fresh, hplain])
  have hfailing : failing = [] := by
    show released.filterMap _ = []
    rw [hreleased]
    rfl
  rw [hfailing]
  show ({ s with core := c₃ } : State) = { s with core := s.core.returned }
  have hqueues : c₃ = { c'' with
      vec := c''.vec.map stampW, mat := c''.mat.map stampW, cpy := c''.cpy.map stampW, col := c''.col.map stampW } := rfl
  have hvec : c''.vec = s.core.vec := hadd .vec _
  have hmat : c''.mat = s.core.mat := hadd .mat _
  have hcpy : c''.cpy = s.core.cpy := hadd .cpy _
  have hcol : c''.col = s.core.col := hadd .col _
  rw [hqueues, hvec, hmat, hcpy, hcol, hstamp, hstamp, hstamp, hstamp]
  · rfl
  all_goals
    intro e he
    simp [Core.words, he]
end

/-- Settles O28: with no word of `VQLOAD` to release, `ERET` leaves `Core.returned`. -/
theorem eretReturns : Obligations.EretReturns := by
  unfold Obligations.EretReturns
  intro s hk hrestore hwords
  refine ⟨{ s with core := s.core.returned }, (if_pos hk).trans (congrArg _ (eret_eq_returned hrestore hwords)), ?_⟩
  refine ⟨?_, hstat_returned _, rfl, rfl, rfl, rfl, fun q => ?_, rfl, rfl, rfl, rfl, rfl, rfl, rfl, rfl⟩
  · show (if s.core.t.tcause.getLsbD 8 && !s.core.resoff.getLsbD 9 then _ else _) = _
    simp
  · cases q <;> rfl

end Sys2Proof.Machine

namespace Sys2Proof.Machine

/-! ## The trap ring under pressure, and single step (R190, R404, R407) -/

section
variable {d : Device} {id : Nat} {c : Ctx} {f : Ctx → Ctx}

/-- A change of a context is one of what `ctx` gives. -/
theorem Device.ctx_updCtx (hc : d.ctx id = some c) (hf : ∀ x, (f x).id = x.id) : (d.updCtx id f).ctx id = some (f c) := by
  change d.ctxs.find? (fun c : Ctx => c.id == id) = some c at hc
  show (d.ctxs.map _).find? (fun c : Ctx => c.id == id) = _
  generalize d.ctxs = cs at hc ⊢
  induction cs with
  | nil => cases hc
  | cons x xs ih =>
    by_cases hx : x.id = id
    · obtain rfl : x = c := Option.some.inj ((List.find?_cons_of_pos (by simpa using hx)).symm.trans hc)
      rw [List.map_cons, if_pos hx]
      exact List.find?_cons_of_pos (by simpa using (hf x).trans hx)
    · rw [List.map_cons, if_neg hx]
      refine (List.find?_cons_of_neg (by simpa using hx)).trans (ih ?_)
      exact (List.find?_cons_of_neg (by simpa using hx)).symm.trans hc

/-- A context that is owed no type-6 record. -/
theorem Device.payLost_none_owed (hc : d.ctx id = some c) (hd : c.dropped = 0) : d.payLost id = d := by
  unfold Device.payLost
  rw [hc]
  exact if_pos (by simp [hd])

/-- A record goes into a ring that has room, when no type-6 record is owed. -/
theorem Device.tryPush_room (hc : d.ctx id = some c) (hd : c.dropped = 0) (hroom : d.ringRoom c ≠ 0) (r : Record) :
    ∃ d', d.tryPush id r = some d' := by
  unfold Device.tryPush
  dsimp only
  rw [Device.payLost_none_owed hc hd, hc]
  exact ⟨_, if_neg hroom⟩

theorem Device.ringRoom_ne_zero_iff (d : Device) (c : Ctx) :
    d.ringRoom c ≠ 0 ↔ (d.ringProd c + 2 ^ 32 - d.ringCons c) % 2 ^ 32 < 2 ^ c.tlog := by
  rw [Device.ringRoom]
  omega

end

section
variable {s : State} {n : Nat}

theorem State.updCore_focused (s : State) (f : Core → Core) : s.updCore s.core.num f = { s with core := f s.core } :=
  if_pos rfl

theorem State.focus_focused (s : State) : s.focus s.core.num = s := if_pos rfl

end

/-- The bits of LF and LOST that a consumer's write leaves (Table 21-5). -/
theorem lostWord_written (old v : Word) :
    (if v.getLsbD 63 then setBit (setField old 31 0 (wfield v 31 0)) 63 false else setField old 31 0 (wfield v 31 0)) =
      (old &&& 0x7FFFFFFF00000000) ||| (v &&& 0xFFFFFFFF) |||
        (if v.getLsbD 63 then 0 else old &&& 0x8000000000000000) := by
  rw [setField_wfield]
  split
  · rw [setBit, Bool.toNat_false, setField_zero, BitVec.and_or_distrib_right, BitVec.and_assoc, BitVec.and_assoc]
    exact (BitVec.or_zero).symm
  · rw [BitVec.or_assoc, BitVec.or_comm (v &&& _), ← BitVec.or_assoc, ← BitVec.and_or_distrib_left]
    rfl

/-- LOST counts on, saturating, and LF is set (R404, Table 21-5). -/
theorem lostWord_counted (w : Word) {m : Nat} :
    (setBit (setField w 31 0 m) 63 true).extractLsb' 0 32 = BitVec.ofNat 32 m ∧
      (setBit (setField w 31 0 m) 63 true).getLsbD 63 = true := by
  constructor
  · refine BitVec.eq_of_getLsbD_eq fun i hi => ?_
    rw [BitVec.getLsbD_extractLsb', Nat.zero_add, setBit, setField_getLsbD _ _ _ (by norm_num) (by norm_num),
      setField_getLsbD _ _ _ (by norm_num) (by norm_num), if_neg (by omega), if_pos (by omega), BitVec.getLsbD_ofNat]
    rfl
  · rw [setBit, setField_getLsbD _ _ _ (by norm_num) (by norm_num)]
    rfl

section
variable {s : State} {id : Nat} {c : Ctx}

/-- The device of a flush where no type-6 record is owed and no hart's record is posted again: the harts' turn. -/
def flushStart (s : State) (id : Nat) : State :=
  { s with dev := s.dev.updCtx id fun c => { c with repost := [] } }

theorem flushStart_ctx (hc : s.dev.ctx id = some c) (hr : c.repost = []) : (flushStart s id).dev.ctx id = some c :=
  (Device.ctx_updCtx (f := fun c => { c with repost := [] }) hc fun _ => rfl).trans (by rw [← hr])

/-- After the harts, a flush changes the device alone. -/
theorem State.flushRing_harts (hc : s.dev.ctx id = some c) (hd : c.dropped = 0) (hr : c.repost = []) :
    let u := (s.cores.map Core.num).foldl (State.finishEntry id) (flushStart s id)
    (s.flushRing id).core = u.core ∧ (s.flushRing id).rest = u.rest ∧
      (∀ c', u.dev.ctx id = some c' → c'.waiting = [] → (s.flushRing id).dev.dram = u.dev.dram) := by
  intro u
  generalize hv : s.flushRing id = v
  unfold State.flushRing at hv
  rw [Device.payLost_none_owed hc hd] at hv
  dsimp only at hv
  rw [hc] at hv
  dsimp only at hv
  rw [hr] at hv
  split at hv
  · next hnone =>
    subst hv
    exact ⟨rfl, rfl, fun c' hc' => absurd (hnone.symm.trans hc') (by simp)⟩
  · next c₁ hc₁ =>
    subst hv
    refine ⟨rfl, rfl, fun c' hc' hw => ?_⟩
    obtain rfl : c₁ = c' := Option.some.inj (hc₁.symm.trans hc')
    rw [hw]
    rfl

theorem State.finishEntry_idle (h : ∀ x ∈ s.cores, x.trapWait = none) (n : Nat) : s.finishEntry id n = s := by
  unfold State.finishEntry
  cases hf : s.findCore n with
  | none => rfl
  | some x =>
    dsimp only
    rw [h x (List.mem_of_find?_eq_some hf)]

/-- No hart waits for room: the harts' turn of a flush is empty. -/
theorem State.finishEntries_idle (h : ∀ x ∈ s.cores, x.trapWait = none) (l : List Nat) :
    l.foldl (State.finishEntry id) s = s := by
  induction l with
  | nil => rfl
  | cons n l ih => rw [List.foldl_cons, State.finishEntry_idle h, ih]

/-- A hart whose record finds room enters its trap. -/
theorem State.finishEntry_enters {w : TrapWait} (hplaced : s.core.placed = true) (hw : s.core.trapWait = some w)
    (hctx : s.ctxOf s.core = id) (hc : s.dev.ctx id = some c) (hd : c.dropped = 0) (hroom : s.dev.ringRoom c ≠ 0) :
    (s.finishEntry id s.core.num).core = s.core.enter w.stop := by
  obtain ⟨d, hd⟩ := Device.tryPush_room hc hd hroom w.record
  have hfind : s.findCore s.core.num = some s.core := List.find?_cons_of_pos (by simp [hplaced])
  unfold State.finishEntry
  rw [hfind]
  dsimp only
  rw [hw]
  dsimp only
  rw [if_neg (not_not_intro hctx), hd]
  exact congrArg State.core (State.updCore_focused { s with dev := d } _)

/-- The consumer has written CONS (Table 21-5). -/
def consWritten (s : State) (c : Ctx) (v : Word) : State := s.withDram (s.dev.dram.setNum 4 c.consAt (wfield v 31 0))

theorem wfield_consValue (v : Word) : wfield v 31 0 = (v.extractLsb' 0 32).toNat := by simp [wfield, field]

/-- What the consumer's write to a control block of the ring does (Table 21-5). -/
theorem execTrapRingConsWrite_eq (hc : s.dev.ctx id = some c) (w : RingWrite) : exec (.trapRingConsWrite id w) s =
    if w.off = 0x08 then
      .next ((consWritten s c w.v).flushRing id)
    else if w.off = 0x10 then
      .next (s.withDram (s.dev.dram.setWord c.lostAt
        ((s.dev.dram.word c.lostAt &&& 0x7FFFFFFF00000000) ||| (w.v &&& 0xFFFFFFFF) |||
          (if w.v.getLsbD 63 then 0 else s.dev.dram.word c.lostAt &&& 0x8000000000000000))))
    else .next s := by
  rw [← lostWord_written]
  show execTrapRingConsWrite id w s = _
  unfold execTrapRingConsWrite
  rw [hc]
  rfl

/-- PROD does not move when CONS is written, and CONS reads back. -/
theorem ringRoom_consWritten (hwf : s.dev.dram.wf = true) (v : Word)
    (hv : (s.dev.ringProd c + 2 ^ 32 - (v.extractLsb' 0 32).toNat) % 2 ^ 32 < 2 ^ c.tlog) :
    (consWritten s c v).dev.ringRoom c ≠ 0 := by
  have hcons : (consWritten s c v).dev.ringCons c = (v.extractLsb' 0 32).toNat := by
    refine (Memory.num_setNum hwf 4 c.consAt (wfield v 31 0)).trans ?_
    rw [wfield_consValue]
    exact Nat.mod_eq_of_lt (BitVec.isLt _)
  have hprod : (consWritten s c v).dev.ringProd c = s.dev.ringProd c :=
    Memory.num_write_other hwf _ 4 c.consAt c.prodAt (.inl (by unfold Ctx.prodAt Ctx.consAt; omega))
  rw [Device.ringRoom_ne_zero_iff, hprod, hcons]
  exact hv

end

/-- A single-step stop that is due in U mode is a trap (R407). -/
theorem execSingleStepStop_due {s : State} {p : Word} (hp : s.core.stepDue = some p) (hu : s.core.kmode = false) :
    exec (.singleStepStop s.core.num) s =
      .next (takeTrap { s with core := { s.core with stepDue := none } } ⟨.stop p, 0x22, 0, 0⟩) := by
  show execSingleStepStop s.core.num s = _
  unfold execSingleStepStop
  rw [State.focus_focused]
  dsimp only
  rw [hp]
  dsimp only
  rw [if_neg (not_not_intro rfl)]
  have hmode : ¬ ({ s with core := { s.core with stepDue := none } } : State).core.kmode = true := by
    rw [show ({ s with core := { s.core with stepDue := none } } : State).core.kmode = false from hu]
    simp
  refine congrArg Host.Outcome.next ((congrArg (State.focus · s.core.num) (if_neg hmode)).trans ?_)
  exact if_pos (State.On.takeTrap (s := { s with core := { s.core with stepDue := none } }) rfl)

section
variable {s : State} {id : Nat} {c : Ctx} {w : TrapWait}

/-- The device after one record has been dropped: LOST counts it, and the record of a hart that the kernel is to hold is
posted again later (R404). -/
def recordDropped (d : Device) (id : Nat) (w : TrapWait) : Device :=
  (d.dropRecords id 1).updCtx id fun c => if w.stop.isSome then { c with repost := c.repost ++ [w.record] } else c

/-- With a full ring the trap entry of the focused hart goes on without its record (R404). -/
theorem execTrapRecordDrop_enters (hc : s.dev.ctx id = some c) (hroom : s.dev.ringRoom c = 0)
    (hw : s.core.trapWait = some w) (hctx : s.ctxOf s.core = id) : exec (.trapRecordDrop id) s =
      .next { s with core := s.core.enter w.stop, dev := recordDropped s.dev id w } := by
  have hfind : (s.cores.find? fun x => x.trapWait.isSome && s.ctxOf x == id) = some s.core :=
    List.find?_cons_of_pos (by simp [hw, hctx])
  show execTrapRecordDrop id s = _
  unfold execTrapRecordDrop
  rw [hc]
  dsimp only
  rw [if_neg (not_not_intro hroom), hfind]
  dsimp only
  rw [hw]
  dsimp only
  rw [State.updCore_focused]
  rfl

theorem recordDropped_ctx {d : Device} (hc : d.ctx id = some c) : (recordDropped d id w).ctx id = some { c with
    dropped := c.dropped + 1, repost := if w.stop = none then c.repost else c.repost ++ [w.record] } := by
  have hdropped : (d.dropRecords id 1).ctx id = some { c with dropped := c.dropped + 1 } := by
    unfold Device.dropRecords
    rw [hc]
    exact Device.ctx_updCtx (d := d.countLost c 1) (f := fun c => { c with dropped := c.dropped + 1 }) hc fun _ => rfl
  refine (Device.ctx_updCtx hdropped fun x => by split <;> rfl).trans ?_
  cases w.stop <;> rfl

theorem recordDropped_dram {d : Device} (hc : d.ctx id = some c) : (recordDropped d id w).dram =
    d.dram.setWord c.lostAt (setBit (setField (d.dram.word c.lostAt) 31 0
      (min (wfield (d.dram.word c.lostAt) 31 0 + 1) 0xFFFFFFFF)) 63 true) := by
  unfold recordDropped Device.dropRecords
  rw [hc]
  rfl

/-- A word reads back where it was written. -/
theorem Memory.word_setWord {m : Memory} (h : m.wf = true) (a : Nat) (v : Word) : (m.setWord a v).word a = v := by
  rw [Memory.word, Memory.setWord, Memory.num_setNum h, Nat.mod_eq_of_lt (lt_of_lt_of_eq v.isLt (by norm_num)),
    BitVec.ofNat_toNat, BitVec.setWidth_eq]
end

/-- Settles O29: the drop and the consumer's writes by what they leave of the ring's control block, the flush by
`State.flushRing_harts`, the single step by `takeTrap_enters`. -/
theorem trapRingEvents : Obligations.TrapRingEvents := by
  unfold Obligations.TrapRingEvents
  intro s id c hc hwf
  refine ⟨fun w hw hctx hroom => ?drop, fun v hd hr hwait hidle => ?cons, fun v => ?lost, fun off v h8 h16 => ?other,
    fun v w hd hr hl hrest hplaced hw hctx hroom => ?enter, ?wake, fun p hp hrun hu hvec => ?step⟩
  case drop =>
    refine ⟨_, execTrapRecordDrop_enters hc hroom hw hctx, rfl, by cases w.stop <;> rfl, ?_⟩
    rw [recordDropped_dram hc, ← wfield_consValue, show c.trap + 16 = c.lostAt from rfl, Memory.word_setWord hwf]
    exact ⟨(lostWord_counted _).1, (lostWord_counted _).2, recordDropped_ctx hc⟩
  case cons =>
    obtain ⟨hcore, hothers, hdram⟩ := State.flushRing_harts (s := consWritten s c v) hc hd hr
    have hturn := State.finishEntries_idle (id := id) (s := flushStart (consWritten s c v) id) hidle
      ((consWritten s c v).cores.map Core.num)
    refine ⟨_, (execTrapRingConsWrite_eq hc ⟨8, v⟩).trans (if_pos rfl), ?_, ?_, ?_⟩
    · rw [hdram c (by rw [hturn]; exact flushStart_ctx (s := consWritten s c v) hc hr) hwait, hturn, ← wfield_consValue]
      exact storedAs_setNum hwf c.consAt 4 (wfield v 31 0)
    · rw [hcore, hturn]
      rfl
    · rw [hothers, hturn]
      rfl
  case lost =>
    refine ⟨_, (execTrapRingConsWrite_eq hc ⟨16, v⟩).trans ((if_neg (by simp)).trans (if_pos rfl)), ?_, rfl, rfl⟩
    exact storedAs_setWord hwf _ _
  case other => exact (execTrapRingConsWrite_eq hc ⟨off, v⟩).trans ((if_neg h8).trans (if_neg h16))
  case enter =>
    have hcores : (consWritten s c v).cores.map Core.num = [s.core.num] := by
      show (s.core :: s.rest).map Core.num = _
      rw [hrest]
      rfl
    have hcore := (State.flushRing_harts (s := consWritten s c v) hc hd hr).1
    rw [hcores] at hcore
    refine ⟨_, (execTrapRingConsWrite_eq hc ⟨8, v⟩).trans (if_pos rfl), hcore.trans ?_⟩
    exact State.finishEntry_enters (s := flushStart (consWritten s c v) id) hplaced hw hctx
      (flushStart_ctx (s := consWritten s c v) hc hr) hd (ringRoom_consWritten hwf v hroom)
  case wake => exact congrArg _ (s.updCore_focused _)
  case step =>
    have hnest : ¬ nested s.core := fun h => h.elim (fun hk => absurd (hk.symm.trans hu) (by simp)) hvec
    have henter := (takeTrap_enters (s := { s with core := { s.core with stepDue := none } }) (t := ⟨.stop p, 0x22, 0, 0⟩)
        (.stop p)
      handlerAlone_step hnest (by simp) (by simp)).1
    refine ⟨_, execSingleStepStop_due hp hu, ?_⟩
    exact ⟨henter.core, henter.batches, henter.rest⟩

end Sys2Proof.Machine

namespace Sys2Proof.Machine

/-! ## Byte ranges of the Last (R207 to R210)

A range that the Last reads leaves the harts as they are; one that it writes leaves all of a hart but its scratchpad, its
    poison and
the note of what has been written while something is poisoned. -/

section
variable {s t : State}

/-- The hart of `t` is that of `s` but for what a write to memory may change. -/
def State.WroteBytes (s t : State) : Prop :=
  t.rest = s.rest ∧ ∃ sp w p, t.core = { s.core with spad := sp, wrote := w, poison := p }

theorem State.WroteBytes.refl : s.WroteBytes s := ⟨rfl, _, _, _, rfl⟩

theorem State.WroteBytes.trans {u : State} (h : s.WroteBytes t) (h' : t.WroteBytes u) : s.WroteBytes u := by
  obtain ⟨hr, sp, w, p, hc⟩ := h
  obtain ⟨hr', sp', w', p', hc'⟩ := h'
  exact ⟨hr'.trans hr, sp', w', p', by rw [hc', hc]⟩

theorem State.WroteBytes.of_core (hc : t.core = s.core) (hr : t.rest = s.rest) : s.WroteBytes t := ⟨hr, _, _, _, hc⟩

theorem checkRun_last {k : Acc} {sp : Bool} {acc : Fails × State} {r : Nat × Nat} :
    (checkRun .last k sp acc r).2.core = acc.2.core ∧ (checkRun .last k sp acc r).2.rest = acc.2.rest := by
  unfold checkRun
  refine ite_keeps (P := fun x : Fails × State => x.2.core = acc.2.core ∧ x.2.rest = acc.2.rest) ⟨rfl, rfl⟩ ?_
  split
  · next hp => exact probe_core (probeFor_ok hp)
  · exact ⟨rfl, rfl⟩

/-- Page checks of the Last keep no translation in the hart. -/
theorem checkSpans_last {l : List (Acc × Span)} (h : checkSpans .last l s = .ok t) : t.core = s.core ∧ t.rest = s.rest := by
  unfold checkSpans at h
  split at h
  · cases h
  · extract_lets r at h
    have hr : r.2.core = s.core ∧ r.2.rest = s.rest :=
      List.foldlRecOn (motive := fun acc : Fails × State => acc.2.core = s.core ∧ acc.2.rest = s.rest) l _ ⟨rfl, rfl⟩
        fun _ ha x _ => List.foldlRecOn (motive := fun acc : Fails × State => acc.2.core = s.core ∧ acc.2.rest = s.rest)
          x.2.runs _ ha fun _ hb _ _ => ⟨checkRun_last.1.trans hb.1, checkRun_last.2.trans hb.2⟩
    split at h <;> cases h
    exact hr

theorem enginePlace_rest {sp : Bool} {a k : Nat} {q : Acc} {p : Place} (h : enginePlace s sp a k q = .ok (p, t)) :
    t.rest = s.rest := by
  unfold enginePlace at h
  split at h
  · cases h
    rfl
  · dsimp only at h
    split at h
    · next hp =>
      cases h
      exact (probe_core hp).2
    all_goals cases h

theorem readSpan_core {r : Span} {bs : List Byte} (h : readSpan r s = .ok (bs, t)) : t.core = s.core ∧ t.rest = s.rest := by
  refine Gives.of_eq (P := fun x : List Byte × State => x.2.core = s.core ∧ x.2.rest = s.rest) ?_ h
  unfold readSpan
  refine List.foldlRecOn (motive := Gives fun x : List Byte × State => x.2.core = s.core ∧ x.2.rest = s.rest) r.runs _
    ⟨rfl, rfl⟩ fun acc ha x _ => ?_
  split
  · trivial
  · split
    · trivial
    · next hp =>
      split
      · trivial
      · exact ⟨(enginePlace_core hp).trans ha.1, (enginePlace_rest hp).trans ha.2⟩

theorem loadBytes_core {va : Word} {n : Nat} {bs : List Byte} (h : loadBytes va n s = .ok (bs, t)) :
    t.core = s.core ∧ t.rest = s.rest := by
  unfold loadBytes at h
  split at h
  · cases h
  · next hu => exact ⟨(readSpan_core h).1.trans (checkSpans_last hu).1, (readSpan_core h).2.trans (checkSpans_last hu).2⟩

theorem State.putRegs_rest {ctx : Nat} : ∀ (k pa : Nat) (bs : List Byte) (s : State), (State.putRegs ctx k pa bs s).rest =
    s.rest :=
  fun k pa bs s => by
    obtain ⟨d, h⟩ := State.putRegs_frame ctx k pa bs s
    rw [h]

theorem State.setBytes_wrote (s : State) (p : Place) (bs : List Byte) : s.WroteBytes (s.setBytes p bs) := by
  obtain ⟨sp, w, hc⟩ := s.setBytes_core p bs
  refine ⟨?_, sp, w, s.core.poison, hc⟩
  unfold State.setBytes
  dsimp only
  have h' : (if s.anyPoison = true then s.withCore fun c => { c with wrote := (p, bs.length) :: c.wrote } else s).rest = s.rest :=
    ite_keeps (P := fun u : State => u.rest = s.rest) rfl rfl
  split
  case h_4 => exact (State.putRegs_rest _ _ _ _).trans h'
  all_goals exact h'

theorem writeRuns_wrote {sp : Bool} : ∀ {l : List (Nat × Nat)} {bs : List Byte} {s : State}, writeRuns sp l bs s = .ok t →
    s.WroteBytes t
  | [], _, _, h => by
    cases h
    exact .refl
  | x :: l, _, s, h => by
    unfold writeRuns at h
    split at h
    · cases h
    · next p u hp =>
      have hu : s.WroteBytes u := .of_core (enginePlace_core hp) (enginePlace_rest hp)
      exact hu.trans ((u.setBytes_wrote p _).trans (writeRuns_wrote h))

theorem State.settlePoison_wrote (s : State) : s.WroteBytes s.settlePoison :=
  ite_keeps (P := State.WroteBytes s) .refl ⟨rfl, _, _, _, rfl⟩

theorem storeBytes_wrote {va : Word} {bs : List Byte} (h : storeBytes va bs s = .ok t) : s.WroteBytes t := by
  unfold storeBytes at h
  split at h
  · cases h
  · next v hv =>
    have hs : s.WroteBytes v := .of_core (checkSpans_last hv).1 (checkSpans_last hv).2
    refine Gives.of_eq (Gives.map (P := State.WroteBytes v) ?_ fun u hu => hs.trans (hu.trans u.settlePoison_wrote)) h
    cases hw : writeSpan ⟨false, va, bs.length⟩ bs v with
    | error e => trivial
    | ok u => exact writeRuns_wrote hw

end
end Sys2Proof.Machine

namespace Sys2Proof.Machine

/-! ## The Last goes on (R176, R366)

`s.Stands a h`: the Last stands at `a`, with its handler's word `h`. `Onward a h t`: from there it has waited, gone on behind
    the word,
or reported a trap. -/

/-- The Last stands at `a`, and `tvec` is `h`. -/
def State.Stands (a h : Word) (s : State) : Prop := s.core.pc = a ∧ s.core.t.tvec = h

/-- What the Last has done with a word at `a`. -/
def Onward (a h : Word) (t : State) : Prop :=
  t.core.why ≠ none ∨ t.core.pc = a + 4 ∨ t.core.pc = h &&& 0x7FFFFFFFFFFFFC ∨ t.core.stopped ≠ none ∨ t.core.trapWait ≠ none

/-- A turn ends with the Last having gone on. -/
def Advances (a h : Word) (r : Result) : Prop := ∃ t, r = .next t ∧ Onward a h t

section
variable {a h : Word} {s t : State} {c : Core} {r r' : Result}

theorem State.stands : s.Stands s.core.pc s.core.t.tvec := ⟨rfl, rfl⟩

theorem State.Stands.of_core (hs : s.Stands a h) (hc : t.core = s.core) : t.Stands a h := by
  unfold State.Stands
  rw [hc]
  exact hs

theorem Onward.next (ht : Onward a h t) : Advances a h (.next t) := ⟨t, rfl, ht⟩

theorem Advances.ite {p : Prop} [Decidable p] (hr : Advances a h r) (hr' : Advances a h r') :
    Advances a h (if p then r else r') := ite_keeps (P := Advances a h) hr hr'

/-! ### Waiting and going on -/

theorem Onward.stall : Onward a h s.stall := .inl (Option.some_ne_none _)

theorem Onward.advance (hs : s.Stands a h) : Onward a h s.advance := .inr (.inl (congrArg (· + 4) hs.1))

theorem State.Stands.writeS {d : BitVec 5} {v : Word} (hs : s.Stands a h) : (writeS s d v).Stands a h :=
  ite_keeps (P := State.Stands a h) hs hs

theorem Onward.writeNext {d : BitVec 5} {v : Word} (hs : s.Stands a h) : Onward a h (writeNext s d v) :=
  Onward.advance hs.writeS

/-! ### Traps -/

theorem Core.abandon_stands (c : Core) : c.abandon.pc = c.pc ∧ c.abandon.t = c.t := by
  unfold Core.abandon
  split <;> exact ⟨rfl, rfl⟩

theorem Core.unwind_t (c : Core) (rank : Nat) : (c.unwind rank).t = c.t := by
  unfold Core.unwind
  split <;> rfl

theorem Core.givenUp_t (c : Core) (x : TrapReq) : (c.givenUp x).t = c.t := by
  unfold Core.givenUp
  extract_lets c₁ c₂ c₃
  have h₁ : c₁.t = c.t := ite_keeps (P := fun d : Core => d.t = c.t) c.abandon_stands.2 rfl
  have h₂ : c₂.t = c.t := ite_keeps (P := fun d : Core => d.t = c.t) h₁ h₁
  show c₃.t = c.t
  unfold c₃
  split
  · exact (c₂.unwind_t _).trans h₂
  · exact h₂

/-- A trap enters the handler, or the kernel holds the hart. -/
theorem Core.enter_onward (stop : Option KStop) (hc : c.t.tvec = h) : Onward a h { s with core := c.enter stop } := by
  cases stop with
  | none =>
    refine .inr (.inr (.inl ?_))
    rw [← hc]
    exact tvec_address _
  | some k => exact .inr (.inr (.inr (.inl (Option.some_ne_none k))))

theorem State.postTrap_onward {x : Record} {stop : Option KStop} (hs : s.core.t.tvec = h) : Onward a h (s.postTrap x stop) := by
  rcases s.postTrap_cases x stop with ⟨d, -, hd⟩ | ⟨-, hd⟩
  · rw [hd]
    exact Core.enter_onward (s := { s with dev := d }) stop hs
  · rw [hd]
    exact .inr (.inr (.inr (.inr (Option.some_ne_none _))))

/-- A trap of the Last is taken in the hart's own handler, or held for the kernel. -/
theorem takeTrap_onward {x : TrapReq} (hs : s.core.t.tvec = h) : Onward a h (takeTrap s x) := by
  unfold takeTrap
  extract_lets c rep q prov tepc tcause route nest c₁ c₂ s₁ s₂ krn host stop s₃
  have h₁ : c₁.t.tvec = h := (congrArg TrapWords.tvec (s.core.givenUp_t x)).trans hs
  have h₂ : c₂.t.tvec = h := ite_keeps (P := fun d : Core => d.t.tvec = h) h₁ h₁
  have h' : s₂.core.t.tvec = h := by
    obtain ⟨n, hn⟩ := s₁.trace_core 3 3 tepc prov tcause 0
    rw [show s₂.core = _ from hn]
    exact h₂
  have h₃ : s₃.core.t.tvec = h := ite_keeps (P := fun u : State => u.core.t.tvec = h) h' h'
  exact ite_keeps (P := Onward a h) (Core.enter_onward none h₃) (State.postTrap_onward (s := s₃.stamp.2) h₃)

theorem genFault_onward {cause : BitVec 8} {tval addr : Word} (hs : s.Stands a h) : Onward a h (genFault s cause tval addr) :=
  takeTrap_onward hs.2

theorem operandStop_onward {n : Nat} (hs : s.Stands a h) : Onward a h (operandStop s n) := genFault_onward hs
theorem openStop_onward {n : Nat} (hs : s.Stands a h) : Onward a h (openStop s n) := genFault_onward hs
theorem misaligned_onward {va : Word} (hs : s.Stands a h) : Onward a h (misaligned s va) := genFault_onward hs
theorem privStop_onward {x : SRaw} (hs : s.Stands a h) : Onward a h (privStop x s) := genFault_onward hs

/-- What stops an access of the Last is reported, or the Last waits. -/
theorem lastStop_advances {e : Stop} (hs : s.Stands a h) : Advances a h (lastStop s e) := by
  cases e with
  | stop i => exact (genFault_onward hs).next
  | deferred i => exact (takeTrap_onward hs.2).next
  | hold => exact Onward.stall.next
  | wait post => exact ⟨_, rfl, .inl (Option.some_ne_none _)⟩

/-! ### What the words of the Last share -/

theorem privileged_advances {x : SRaw} (hs : s.Stands a h) (hr : Advances a h r) : Advances a h (privileged x s r) :=
  hr.ite (privStop_onward hs).next

theorem ordering_advances {done : Bool} {kind : Nat} (hs : s.Stands a h) (hr : Advances a h r) :
    Advances a h (ordering done kind s r) := .ite (openStop_onward hs).next (.ite hr Onward.stall.next)

theorem State.Stands.discardFetched {sc : Scope} (hs : s.Stands a h) : (s.discardFetched sc).Stands a h := by
  cases sc <;> exact hs

theorem State.Stands.mark {l : Leaf} {k : Acc} (hs : s.Stands a h) : (s.mark l k).Stands a h := by
  obtain ⟨m, hm⟩ := s.mark_frame l k
  rw [hm]
  exact hs

theorem State.Stands.touched {va : Word} {n : Nat} {k : Acc} (hs : s.Stands a h) : (s.touched va n k).Stands a h := by
  unfold State.touched
  refine ite_keeps (P := State.Stands a h) hs ?_
  split
  · exact hs
  · split
    · exact hs
    · exact hs.mark

theorem State.Stands.touchAll {l : Uses} (hs : s.Stands a h) : (s.touchAll l).Stands a h :=
  List.foldlRecOn (motive := State.Stands a h) l _ hs fun _ ht _ _ => ht.touched

theorem State.Stands.setBytes {p : Place} {bs : List Byte} (hs : s.Stands a h) : (s.setBytes p bs).Stands a h := by
  obtain ⟨sp, w, hc⟩ := s.setBytes_core p bs
  unfold State.Stands
  rw [hc]
  exact hs

theorem State.Stands.scopeReport {n : Nat} {pc prov addr : Word} {earlier : Word × Word} {used : Scope} {wm : Nat}
    (hs : s.Stands a h) : (s.scopeReport n pc prov addr earlier used wm).Stands a h := hs

theorem State.Stands.checkAtomic {p : Place} {sc : Scope} {pc prov : Word} (hs : s.Stands a h) :
    (s.checkAtomic p sc pc prov).Stands a h := by
  unfold State.checkAtomic
  refine ite_keeps (P := State.Stands a h) hs ?_
  extract_lets line me kept here s₁ s'
  show State.Stands a h s'
  unfold s'
  clear_value kept
  split
  · exact ite_keeps (P := State.Stands a h) hs (State.Stands.scopeReport hs)
  · exact hs

theorem State.Stands.amoAt {o : Owner} {va : Word} {n step : Nat} {sc : Option Scope} {f : Nat → Option Nat}
    (hs : s.Stands a h) : Gives (fun x => x.2.Stands a h) (amoAt s o va n step sc f) := by
  unfold Machine.amoAt
  split
  · trivial
  · next t hp =>
    have ht : t.Stands a h := hs.of_core (probe_core (probeFor_ok hp)).1
    refine ite_keeps (P := Gives fun x : Nat × State => x.2.Stands a h) trivial ?_
    extract_lets old t'
    have ht' : t'.Stands a h := by
      unfold t'
      split
      · exact ht.checkAtomic
      · exact ht
    show State.Stands a h (match f old with | none => t' | some new => t'.writePlace _ n new)
    split
    · exact ht'
    · exact ht'.setBytes

/-! ### Scalar memory words -/

theorem loadReg_advances {n : Nat} {conv : Nat → Word} {d b : BitVec 5} {off : BitVec 16} (hs : s.Stands a h) :
    Advances a h (loadReg n conv d b off s) := by
  unfold loadReg
  refine .ite (misaligned_onward hs).next (.ite Onward.stall.next ?_)
  split
  · exact lastStop_advances hs.touched
  · next hl => exact (Onward.writeNext (hs.of_core (load_core hl).1)).next

theorem storeReg_advances {n : Nat} {b c : BitVec 5} {off : BitVec 16} (hs : s.Stands a h) :
    Advances a h (storeReg n b c off s) := by
  unfold storeReg
  refine .ite (misaligned_onward hs).next ?_
  split
  · exact lastStop_advances hs.touched
  · next hl =>
    obtain ⟨p, attr, u, hp, rfl⟩ := store_ok hl
    exact .ite (Onward.advance (State.Stands.setBytes (hs.of_core (probe_core hp).1))).next Onward.stall.next

theorem execLdw_advances {d : BitVec 5} {n : BitVec 3} {off : BitVec 16} (hs : s.Stands a h) :
    Advances a h (execLdw d n off s) := by
  unfold execLdw
  extract_lets tv win base va
  clear_value win
  refine .ite (misaligned_onward hs).next ?_
  split
  · exact (genFault_onward hs).next
  · refine .ite (genFault_onward hs).next (.ite Onward.stall.next ?_)
    split
    · exact lastStop_advances hs.touched
    · next hl => exact (Onward.writeNext (hs.of_core (load_core hl).1)).next

theorem amo_advances {d b : BitVec 5} {size ord : BitVec 2} {sc : Scope} {f : Nat → Nat → Option Nat} (hs : s.Stands a h) :
    Advances a h (amo d b size ord sc s f) := by
  unfold amo
  extract_lets n va go
  have hgo : Advances a h go := by
    unfold go
    split
    · exact lastStop_advances hs.touched
    · next t hl =>
      have ht : t.Stands a h := hs.amoAt.of_eq hl
      exact .ite (Onward.writeNext (ite_keeps (P := State.Stands a h) ht.discardFetched ht)).next Onward.stall.next
  exact .ite (misaligned_onward hs).next (.ite (ordering_advances hs hgo) hgo)

/-! ### Arithmetic, fields and state words -/

theorem yields_advances {d : BitVec 5} {v : Word} (hs : s.Stands a h) : Advances a h (yields d v s) := (Onward.writeNext hs).next

theorem onField_advances {pos len : BitVec 6} {f : Nat → Nat → Result} (hs : s.Stands a h) (hf : ∀ p n, Advances a h (f p n)) :
    Advances a h (onField pos len s f) := .ite (hf _ _) (operandStop_onward hs).next

theorem execSetvl_advances {d b c : BitVec 5} (hs : s.Stands a h) : Advances a h (execSetvl d b c s) := by
  unfold execSetvl
  exact .ite (genFault_onward hs).next (Onward.writeNext (s := s.withCore _) hs).next

theorem execSput_advances {slot : BitVec 4} {b : BitVec 5} (hs : s.Stands a h) : Advances a h (execSput slot b s) :=
  (Onward.advance (s := s.withCore _) hs).next

theorem execRseed_advances {b : BitVec 5} (hs : s.Stands a h) : Advances a h (execRseed b s) :=
  (Onward.advance (s := s.withCore _) hs).next

theorem execRseek_advances {b : BitVec 5} (hs : s.Stands a h) : Advances a h (execRseek b s) := by
  rw [execRseek_eq]
  exact .ite ⟨_, rfl, .inr (.inl (congrArg (· + 4) hs.1))⟩ (genFault_onward hs).next

theorem execNop_advances (hs : s.Stands a h) : Advances a h (execNop s) := (Onward.advance hs).next
theorem execWfe_advances (hs : s.Stands a h) : Advances a h (execWfe s) := (Onward.advance (s := s.withCore _) hs).next
theorem execBrk_advances (hs : s.Stands a h) : Advances a h (execBrk s) := (genFault_onward hs).next
theorem execEcall_advances (hs : s.Stands a h) : Advances a h (execEcall s) := .ite (genFault_onward hs).next Onward.stall.next

theorem fence_advances {done acquires : Bool} {sc : Scope} (hs : s.Stands a h) : Advances a h (fence done acquires sc s) :=
  ordering_advances hs (Onward.advance (ite_keeps (P := State.Stands a h) hs.discardFetched hs)).next

theorem execMfs_advances {d : BitVec 5} {n : BitVec 12} (hs : s.Stands a h) : Advances a h (execMfs d n s) := by
  unfold execMfs
  split
  · exact (operandStop_onward hs).next
  · exact .ite (privStop_onward hs).next (.ite (openStop_onward hs).next (.ite Onward.stall.next (Onward.writeNext hs).next))

theorem execMts_advances {n : BitVec 12} {b : BitVec 5} (hs : s.Stands a h) : Advances a h (execMts n b s) := by
  unfold execMts
  split
  · exact (operandStop_onward hs).next
  · refine .ite (privStop_onward hs).next (.ite Onward.stall.next ⟨_, rfl, .inr (.inl ?_)⟩)
    exact congrArg (· + 4) ((s.core.writeState_pc _ _).trans hs.1)

/-! ### Emitting and fetching (R195 to R198) -/

theorem Core.setQueue_stands (c : Core) (l : List QEntry) (q : Que) : (c.setQueue l q).pc = c.pc ∧ (c.setQueue l q).t = c.t := by
  cases q <;> exact ⟨rfl, rfl⟩

theorem Core.place_stands (c : Core) (w : BitVec 64) (prov : Word) (more : Bool) :
    (c.place w prov more).pc = c.pc ∧ (c.place w prov more).t = c.t := by
  unfold Core.place
  extract_lets c₁ c₂ e q e'
  have h₁ : c₁.pc = c.pc ∧ c₁.t = c.t := ite_keeps (P := fun d : Core => d.pc = c.pc ∧ d.t = c.t) ⟨rfl, rfl⟩ ⟨rfl, rfl⟩
  exact ⟨(Core.setQueue_stands _ _ _).1.trans h₁.1, (Core.setQueue_stands _ _ _).2.trans h₁.2⟩

theorem State.Stands.place {w : BitVec 64} {prov : Word} {more : Bool} (hs : s.Stands a h) :
    (s.withCore fun c => c.place w prov more).Stands a h :=
  ⟨(s.core.place_stands w prov more).1.trans hs.1, (congrArg TrapWords.tvec (s.core.place_stands w prov more).2).trans hs.2⟩

theorem State.Stands.emit {w : BitVec 64} (hs : s.Stands a h) : (s.withCore fun c => c.emit w).Stands a h :=
  State.Stands.place (s := s.withCore fun c => { c with eseq := c.eseq + 1 }) hs

theorem emitStop_onward {w : Word} (hs : s.Stands a h) (ht : emitStop s w = some t) : Onward a h t := by
  unfold emitStop at ht
  split at ht
  · cases ht
    exact operandStop_onward hs
  · split at ht
    · cases ht
      exact genFault_onward hs
    · split at ht <;> cases ht
      exact genFault_onward hs

theorem execEmit_advances {b : BitVec 5} (hs : s.Stands a h) : Advances a h (execEmit b s) := by
  unfold execEmit
  extract_lets w
  split
  · next hstop => exact (emitStop_onward hs hstop).next
  · exact .ite (Onward.advance hs.emit).next Onward.stall.next

theorem execEmitq_advances {d b : BitVec 5} (hs : s.Stands a h) : Advances a h (execEmitq d b s) := by
  unfold execEmitq
  extract_lets w
  split
  · next hstop => exact (emitStop_onward hs hstop).next
  · exact .ite (Onward.advance hs.writeS.emit).next (Onward.writeNext hs).next

theorem State.Stands.fetchBytes {blk : Bool} {va : Word} {n : Nat} (hs : s.Stands a h) :
    Gives (fun x => x.2.Stands a h) (fetchBytes s blk va n) := by
  unfold Machine.fetchBytes
  split
  · trivial
  · next t hp =>
    have ht : t.Stands a h := hs.of_core (probe_core (probeFor_ok hp)).1
    extract_lets line kept pick base
    clear_value kept base
    split
    · exact ite_keeps (P := Gives fun x : Nat × State => x.2.Stands a h) trivial ht
    · split
      · trivial
      · refine ite_keeps (P := Gives fun x : Nat × State => x.2.Stands a h) trivial ?_
        show State.Stands a h { t with core := _ }
        exact ite_keeps (P := fun c : Core => c.pc = a ∧ c.t.tvec = h) ht ht

theorem State.Stands.blockWord {base : Word} {off : Nat} (hs : s.Stands a h) :
    Gives (fun x => x.2.Stands a h) (blockWord s base off) := by
  unfold Machine.blockWord
  split
  · trivial
  · next hf => exact hs.fetchBytes.of_eq hf

theorem State.Stands.stoppedAt {off : Nat} (hs : s.Stands a h) : (s.stoppedAt off).Stands a h := hs

/-- A block ends with the Last behind the `VFETCH`, at the word that has no room, or with the stop at a word. -/
theorem placeBlock_advances {base : Word} : ∀ (n off : Nat) {s : State}, s.Stands a h → Advances a h (placeBlock base n off s)
  | 0, _, _, hs => (genFault_onward hs).next
  | n + 1, off, s, hs => by
    unfold placeBlock
    split
    · exact lastStop_advances hs.touched.stoppedAt
    · next w t hw =>
      have ht : t.Stands a h := hs.blockWord.of_eq hw
      exact .ite (Onward.advance (s := t.withCore _) ht).next (.ite (genFault_onward (s := t.withCore _) ht).next
        (.ite (genFault_onward ht.stoppedAt).next (.ite (genFault_onward ht.stoppedAt).next (.ite Onward.stall.next
          (placeBlock_advances n (off + 1) ht.place)))))

theorem execVfetch_advances {b : BitVec 5} {off : BitVec 16} (hs : s.Stands a h) : Advances a h (execVfetch b off s) := by
  unfold execVfetch
  extract_lets base start
  refine .ite (operandStop_onward hs).next (.ite (misaligned_onward hs).next ?_)
  split
  · exact lastStop_advances hs.touched
  · exact placeBlock_advances _ _ hs

theorem execVdrain_advances {mask : BitVec 4} (hs : s.Stands a h) : Advances a h (execVdrain mask s) :=
  .ite (openStop_onward hs).next (.ite (Onward.advance hs).next Onward.stall.next)

theorem execQwait_advances {mask : BitVec 4} {b : BitVec 5} (hs : s.Stands a h) : Advances a h (execQwait mask b s) := by
  unfold execQwait
  exact .ite (operandStop_onward hs).next (.ite (Onward.advance hs).next Onward.stall.next)

/-! ### Watermarks, barriers and launches (R203 to R205) -/

theorem State.Stands.pastMark {n v : Nat} {pc prov : Word} (hs : s.Stands a h) : (s.pastMark n v pc prov).Stands a h := by
  unfold State.pastMark
  split
  · exact hs
  · extract_lets x
    split
    · next first r l _ _ =>
      have hd : (s.discardFetched first.scope).Stands a h := hs.discardFetched
      exact ite_keeps (P := State.Stands a h) hd ⟨hd.1, hd.2⟩
    · exact hs

theorem execWmpub_advances {w : BitVec 3} {b : BitVec 5} {sc : Scope} (hs : s.Stands a h) :
    Advances a h (execWmpub w b sc s) :=
  .ite (genFault_onward hs).next (.ite (Onward.advance (s := s.withCore _) hs).next Onward.stall.next)

theorem execWmwait_advances {w : BitVec 3} {b : BitVec 5} {sc : Scope} (hs : s.Stands a h) :
    Advances a h (execWmwait w b sc s) := by
  unfold execWmwait
  split
  · exact Onward.stall.next
  · refine .ite (genFault_onward hs).next (.ite ?_ Onward.stall.next)
    exact (Onward.advance (State.Stands.discardFetched (ite_keeps (P := State.Stands a h) hs hs.pastMark))).next

theorem execBarArrive_advances (hs : s.Stands a h) : Advances a h (execBarArrive s) :=
  .ite Onward.stall.next (Onward.advance (s := s.arrive) hs).next

theorem execBarWait_advances (hs : s.Stands a h) : Advances a h (execBarWait s) :=
  .ite Onward.stall.next (Onward.advance hs.discardFetched).next

theorem execBarAw_advances (hs : s.Stands a h) : Advances a h (execBarAw s) :=
  .ite (.ite Onward.stall.next (Onward.advance (State.Stands.discardFetched (s := s.withCore _) hs)).next)
    (.ite Onward.stall.next Onward.stall.next)

theorem execLaunch_advances {d b : BitVec 5} (hs : s.Stands a h) : Advances a h (execLaunch d b s) := by
  unfold execLaunch
  extract_lets cx f go i at_ mem dev
  split
  · extract_lets w
    have hgo : ∀ v, Advances a h (go v) := fun v => (Onward.writeNext (s := s.withCore Core.decided) hs).next
    clear_value go
    split
    · exact Onward.stall.next
    · exact hgo _
    · exact hgo _
  · exact .ite Onward.stall.next (.ite (Onward.writeNext hs).next Onward.stall.next)

/-! ### The queue image and `CM` (R207 to R210) -/

theorem State.WroteBytes.stands (hw : s.WroteBytes t) (hs : s.Stands a h) : t.Stands a h := by
  obtain ⟨-, sp, w, p, hc⟩ := hw
  unfold State.Stands
  rw [hc]
  exact hs

theorem spanStop_advances {k : Acc} {va : Word} {n : Nat} {e : Stop} (hs : s.Stands a h) : Advances a h (spanStop k va n s e) :=
  lastStop_advances hs.touchAll

theorem State.Stands.loadBytes {va : Word} {n : Nat} {bs : List Byte} (hs : s.Stands a h)
    (hl : loadBytes va n s = .ok (bs, t)) : t.Stands a h := hs.of_core (loadBytes_core hl).1

theorem Core.placeImage_stands (c : Core) (l : List (Loaded × List Word)) :
    (c.placeImage l).pc = c.pc ∧ (c.placeImage l).t = c.t := by
  unfold Core.placeImage
  extract_lets of_ known ranks same base c₁ placed
  have h₁ : c₁.pc = c.pc ∧ c₁.t = c.t := ite_keeps (P := fun d : Core => d.pc = c.pc ∧ d.t = c.t) ⟨rfl, rfl⟩ ⟨rfl, rfl⟩
  exact List.foldlRecOn (motive := fun d : Core => d.pc = c.pc ∧ d.t = c.t) known.zipIdx _ h₁
    fun d hd x _ => ⟨(d.setQueue_stands _ _).1.trans hd.1, (d.setQueue_stands _ _).2.trans hd.2⟩

theorem execVqload_advances {b c : BitVec 5} (hs : s.Stands a h) : Advances a h (execVqload b c s) := by
  unfold execVqload
  extract_lets va n
  refine privileged_advances hs (.ite (operandStop_onward hs).next ?_)
  split
  · exact spanStop_advances hs
  · next t ht =>
    have ht := hs.loadBytes ht
    refine .ite (operandStop_onward hs).next ?_
    split
    · exact spanStop_advances ht
    · next u hu =>
      have hu := ht.loadBytes hu
      extract_lets l n'
      refine .ite (operandStop_onward hs).next ?_
      split
      · exact spanStop_advances hu
      · next v hv =>
        refine ⟨_, rfl, .inr (.inl (congrArg (· + 4) ?_))⟩
        exact (Core.placeImage_stands _ _).1.trans (hu.loadBytes hv).1

theorem execVcmst_advances {b : BitVec 5} (hs : s.Stands a h) : Advances a h (execVcmst b s) := by
  unfold execVcmst
  extract_lets va
  refine privileged_advances hs (.ite (misaligned_onward hs).next (.ite Onward.stall.next ?_))
  split
  · exact spanStop_advances hs
  · next ht => exact (Onward.advance ((storeBytes_wrote ht).stands hs)).next

theorem execVcmld_advances {b : BitVec 5} (hs : s.Stands a h) : Advances a h (execVcmld b s) := by
  unfold execVcmld
  extract_lets va
  refine privileged_advances hs (.ite (misaligned_onward hs).next ?_)
  split
  · exact spanStop_advances hs
  · next t ht =>
    have ht := hs.loadBytes ht
    exact (Onward.advance (s := t.withCore _) ht).next

/-! ## The engines settle with the Last where it stands (R207, R424) -/

/-! ### Bytes that move -/

theorem State.Stands.settlePoison (hs : s.Stands a h) : s.settlePoison.Stands a h := ite_keeps (P := State.Stands a h) hs hs

theorem State.Stands.spoil {p : Place} (hs : s.Stands a h) : (s.spoil p).Stands a h := by cases p <;> exact hs

theorem State.Stands.moveBytes {p q : Place} {k : Nat} (hs : s.Stands a h) : (moveBytes s p q k).Stands a h := by
  unfold Machine.moveBytes
  split
  · exact ite_keeps (P := State.Stands a h) hs.setBytes hs.setBytes
  · exact hs.setBytes

theorem State.Stands.carryBytes {p q : Place} {k : Nat} (hs : s.Stands a h) : (carryBytes s p q k).Stands a h :=
  ite_keeps (P := State.Stands a h) hs.moveBytes
    (List.foldlRecOn _ _ hs.moveBytes.settlePoison fun _ hs _ _ => State.Stands.spoil hs)

theorem State.Stands.moveSpan {carry ssp dsp : Bool} {src dst k : Nat} (hs : s.Stands a h) :
    Gives (State.Stands a h) (moveSpan carry ssp dsp src dst k s) := by
  unfold Machine.moveSpan
  refine List.foldlRecOn (motive := Gives (State.Stands a h)) _ _ hs fun acc ha x _ => ?_
  split
  · trivial
  · split
    · trivial
    · next hp =>
      split
      · trivial
      · next hq =>
        split
        · trivial
        · exact State.Stands.carryBytes ((State.Stands.of_core ha (enginePlace_core hp)).of_core (enginePlace_core hq))

/-! ### Copies -/

theorem Core.finish_stands (c : Core) (e : QEntry) : (c.finish e).pc = c.pc ∧ (c.finish e).t = c.t :=
  ite_keeps (P := fun d : Core => d.pc = c.pc ∧ d.t = c.t) ⟨rfl, rfl⟩ ⟨rfl, rfl⟩

theorem State.Stands.finish {e : QEntry} (hs : s.Stands a h) : (s.withCore fun c => c.finish e).Stands a h :=
  ⟨(s.core.finish_stands e).1.trans hs.1, (congrArg TrapWords.tvec (s.core.finish_stands e).2).trans hs.2⟩

theorem State.Stands.copyChunk {e : QEntry} {j : Job} (hs : s.Stands a h) : Gives (State.Stands a h) (s.copyChunk e j) := by
  unfold State.copyChunk State.onWord
  dsimp -zeta only
  split
  · trivial
  · next t ht =>
    split at ht
    · cases ht
    · next u hu =>
      extract_lets p j' v w at ht
      cases ht
      have hu : u.Stands a h := (State.Stands.moveSpan (s := s.withRun e) hs).of_eq hu
      have hv : v.Stands a h := by
        unfold v
        split
        · exact ⟨hu.1, hu.2⟩
        · exact hu
      have hw : w.Stands a h := ite_keeps (P := State.Stands a h) (State.Stands.finish (s := v.markOlder e j) hv) hv
      exact hw.settlePoison

theorem State.Stands.runCopy {rank : Nat} : ∀ {k : Nat} {s : State}, s.Stands a h → (s.runCopy k rank).1.Stands a h
  | 0, _, hs => hs
  | k + 1, s, hs => by
    unfold State.runCopy
    split
    · exact hs
    · split
      · exact hs
      · refine ite_keeps (P := fun x : State × Option Stop => x.1.Stands a h) hs ?_
        split
        · next hc => exact State.Stands.runCopy (hs.copyChunk.of_eq hc)
        · exact hs

theorem State.Stands.finishCopy {e : QEntry} (hs : s.Stands a h) : (s.finishCopy e).1.Stands a h := by
  unfold State.finishCopy
  split
  · exact hs.runCopy
  · exact hs

theorem State.Stands.finishAll : ∀ (l : List QEntry) {s : State}, s.Stands a h → (s.finishAll l).1.Stands a h
  | [], _, hs => hs
  | e :: l, s, hs => by
    have he : ∀ {x}, s.finishCopy e = x → x.1.Stands a h := fun hx => hx ▸ hs.finishCopy
    unfold State.finishAll
    split
    · next hx => exact State.Stands.finishAll l (he hx)
    · next hx => exact State.Stands.finishAll l (he hx)
    · next hx => exact State.Stands.finishAll l (he hx)
    · next hx => exact he hx

theorem State.Stands.finishCopies (hs : s.Stands a h) : s.finishCopies.1.Stands a h :=
  ite_keeps (P := fun x : State × Option (Nat × Stop) => x.1.Stands a h) hs (State.Stands.finishAll _ hs)

/-! ### Checks of a copy -/

theorem State.Stands.pin {va : Word} {k : Acc} {p : Place} {attr : Nat} (hs : s.Stands a h) : (s.pin va k p attr).Stands a h :=
  ite_keeps (P := State.Stands a h) hs hs

theorem checkRun_stands {o : Owner} {q : Acc} {sp : Bool} {acc : Fails × State} {r : Nat × Nat} (hs : acc.2.Stands a h) :
    (checkRun o q sp acc r).2.Stands a h := by
  unfold checkRun
  refine ite_keeps (P := fun x : Fails × State => x.2.Stands a h) hs ?_
  split
  · next hp =>
      exact ite_keeps (P := State.Stands a h) (hs.of_core (probe_core (probeFor_ok hp)).1) (State.Stands.pin (hs.of_core
          (probe_core (probeFor_ok hp)).1))
  · exact hs

theorem State.Stands.checkSpans {o : Owner} {l : List (Acc × Span)} (hs : s.Stands a h) : Gives (State.Stands a h)
    (checkSpans o l s) := by
  unfold Machine.checkSpans
  split
  · trivial
  · extract_lets r
    have hr : r.2.Stands a h :=
      List.foldlRecOn (motive := fun acc : Fails × State => acc.2.Stands a h) l _ hs fun _ ha x _ =>
        List.foldlRecOn (motive := fun acc : Fails × State => acc.2.Stands a h) x.2.runs _ ha fun _ hb _ _ => checkRun_stands hb
    split
    · trivial
    · exact hr

theorem State.Stands.checkPlain {o : Owner} {k : Acc} {m : Nat} {step : Elem → Nat} {els : List Elem} (hs : s.Stands a h) :
    Gives (fun x => x.2.Stands a h) (checkPlain o k m step els s) := by
  unfold Machine.checkPlain
  extract_lets b r
  have hr : r.2.2.Stands a h := by
    refine List.foldlRecOn (motive := fun acc : List (Elem × Place) × Fails × State => acc.2.2.Stands a h) els _ hs ?_
    intro acc ha el _
    split
    · next hp =>
        exact ite_keeps (P := State.Stands a h) (State.Stands.pin (State.Stands.of_core ha (probe_core (probeFor_ok hp)).1))
            (State.Stands.of_core ha (probe_core (probeFor_ok hp)).1)
    · exact ha
  split
  · trivial
  · exact hr

theorem State.Stands.readDoubles {o : Owner} {va : Word} {m step : Nat} (hs : s.Stands a h) :
    Gives (fun x => x.2.Stands a h) (readDoubles o va m step s) := by
  unfold Machine.readDoubles
  extract_lets els
  split
  · trivial
  · next hp =>
    refine List.foldlRecOn (motive := Gives fun x : List Word × State => x.2.Stands a h) _ _ (hs.checkPlain.of_eq hp) ?_
    intro acc ha x _
    split
    · trivial
    · exact ite_keeps (P := Gives fun x : List Word × State => x.2.Stands a h) trivial ha

theorem State.Stands.engineDesc {src : RecSrc} {m : Nat} (hs : s.Stands a h) : Gives (fun x => x.2.Stands a h) (engineDesc
    src m s) := by
  unfold Machine.engineDesc
  split
  · split
    · trivial
    · exact hs
  · exact ite_keeps (P := Gives fun x : List Word × State => x.2.Stands a h) trivial hs.readDoubles

theorem State.Stands.copyStart {o : EngArgs} (hs : s.Stands a h) : Gives (fun x => x.2.Stands a h) (copyStart o s) := by
  unfold Machine.copyStart
  split
  · trivial
  · next ht =>
    extract_lets j
    split
    · trivial
    · split
      · trivial
      · next hu => exact (State.Stands.checkSpans (hs.engineDesc.of_eq ht)).of_eq hu

theorem State.Stands.feedCopy {e : QEntry} (hs : s.Stands a h) : (s.feedCopy e).Stands a h := by
  unfold State.feedCopy
  split
  · split
    · exact hs
    · next j t ht =>
      have ht : t.Stands a h := (State.Stands.copyStart (s := s.withRun e) hs).of_eq ht
      refine ite_keeps (P := State.Stands a h) hs ?_
      extract_lets t' u
      have hu : u.Stands a h := State.Stands.finishCopy (s := t') ht
      exact ite_keeps (P := State.Stands a h) hs hu
  · exact hs

/-! ### A forced stop -/

theorem State.Stands.settleCopies (hs : s.Stands a h) : s.settleCopies.Stands a h :=
  ite_keeps (P := State.Stands a h) hs (List.foldlRecOn _ _ (show State.Stands a h _ from hs.finishCopies) fun _ hs _ _ =>
      hs.feedCopy)

theorem State.Stands.settleEngines (hs : s.Stands a h) : s.settleEngines.Stands a h := by
  have hab := s.settleCopies.core.abandon_stands
  exact ⟨hab.1.trans hs.settleCopies.1, (congrArg TrapWords.tvec hab.2).trans hs.settleCopies.2⟩

theorem execVqsave_advances {d b : BitVec 5} (hs : s.Stands a h) : Advances a h (execVqsave d b s) := by
  unfold execVqsave
  extract_lets va q
  refine privileged_advances hs (.ite (misaligned_onward hs).next ?_)
  split
  · exact spanStop_advances hs
  · next u hu =>
    have hu : u.Stands a h := (storeBytes_wrote hu).stands hs.settleEngines
    exact (Onward.writeNext (s := u.withCore Core.emptied) hu).next

end
end Sys2Proof.Machine

namespace Sys2Proof.Machine
section
variable {a h : Word} {s : State} {i : Instr}

theorem amoOp_advances {op : AmoOp} {d b c : BitVec 5} {size ord : BitVec 2} {sc : Scope} (hs : s.Stands a h) :
    Advances a h (amoOp op d b c size ord sc s) := amo_advances hs

/-- An S-word that moves on waits, completes, or is reported (R176, R366). -/
theorem exec_advances (hm : movesOn i = true) (hs : s.Stands a h) : Advances a h (exec i s) := by
  unfold exec
  cases i <;> dsimp only
  case nop => exact execNop_advances hs
  case wfe => exact execWfe_advances hs
  case brk => exact execBrk_advances hs
  case ecall => exact execEcall_advances hs
  case fenceAcq | fenceRel | fenceFull => exact fence_advances hs
  case add | sub | and | or | xor | shl | shr | sar | slt | sltn | min | max | minn | maxn | clz | ctz | popc | mul |
    mulh | mulhn | div | divn | rem | remn | addi | andi | ori | xori | shli | shri | sari | slti | lih | addpc =>
    exact yields_advances hs
  case ins | ext | exts => exact onField_advances hs fun _ _ => yields_advances hs
  case ld8 | ld16 | ld32 | ld64 | ldn8 | ldn16 | ldn32 => exact loadReg_advances hs
  case ldw => exact execLdw_advances hs
  case st8 | st16 | st32 | st64 => exact storeReg_advances hs
  case amoCas => exact amo_advances hs
  case amoAdd | amoSwp | amoMin | amoMax | amoMinn | amoMaxn | amoAnd | amoOr | amoXor => exact amoOp_advances hs
  case setvl => exact execSetvl_advances hs
  case sput => exact execSput_advances hs
  case emit => exact execEmit_advances hs
  case emitq => exact execEmitq_advances hs
  case vfetch => exact execVfetch_advances hs
  case vdrain => exact execVdrain_advances hs
  case qwait => exact execQwait_advances hs
  case mfs => exact execMfs_advances hs
  case mts => exact execMts_advances hs
  case wmpub => exact execWmpub_advances hs
  case wmwait => exact execWmwait_advances hs
  case barArrive => exact execBarArrive_advances hs
  case barWait => exact execBarWait_advances hs
  case barAw => exact execBarAw_advances hs
  case launch => exact execLaunch_advances hs
  case rseed => exact execRseed_advances hs
  case rseek => exact execRseek_advances hs
  case vqsave => exact execVqsave_advances hs
  case vqload => exact execVqload_advances hs
  case vcmst => exact execVcmst_advances hs
  case vcmld => exact execVcmld_advances hs
  all_goals exact absurd hm Bool.false_ne_true
end
end Sys2Proof.Machine

namespace Sys2Proof.Machine

/-! ## Every word has a next state (R176, R366) -/

/-- A turn has a next state. -/
def Goes (r : Result) : Prop := ∃ t, r = .next t

section
variable {s : State}

theorem Goes.next : Goes (.next s) := ⟨s, rfl⟩

theorem Goes.ite {p : Prop} [Decidable p] {a b : Result} (ha : Goes a) (hb : Goes b) : Goes (if p then a else b) := by
  split
  · exact ha
  · exact hb

/-! ### The families of the vector and matrix words -/

theorem stopWith_goes {part : Nat → State} {e : Stop} : Goes (stopWith part s e) := stopWith_next _ _ _

theorem memWord_goes {gran : Gran} {inRegion ao : Bool} {limits : Core → Except Stop Unit}
    {body : State → Except Stop State} {uses : Core → Uses} : Goes (memWord gran inRegion ao limits body uses s) :=
  memWord_next _ _ _ _ _ _ _

theorem matWord_goes {limits : Core → Except Stop Unit} {f : Core → Core} : Goes (matWord limits f s) :=
  matWord_next _ _ _

theorem matWordS_goes {limits : Core → Except Stop Unit} {f : State → State} : Goes (matWordS limits f s) := by
  unfold matWordS
  split
  · exact stopWith_goes
  · split
    · exact stopWith_goes
    · exact Goes.ite .next .next

theorem projectWord_goes {m : Bool} {slot : BitVec 4} {t : BitVec 2} {from_ : Core → Press}
    {limits whole_ : Core → Except Stop Unit} {done : Core → Core} :
    Goes (projectWord m slot t from_ limits whole_ done s) := by
  unfold projectWord
  dsimp only
  split
  · exact stopWith_goes
  · split
    · exact stopWith_goes
    · split
      · exact stopWith_goes
      · exact Goes.ite .next .next

theorem engineWord_goes {q : Que} {f : State → Except Stop State} {uses : State → Uses} :
    Goes (engineWord q f uses s) := by
  unfold engineWord
  split
  · unfold engineRefuse
    split
    · exact Goes.ite .next stopWith_goes
    · exact stopWith_goes
  · exact .next

theorem vecWord_goes {gran : Gran} {inRegion : Bool} {limits : Core → Except Stop Unit} {body : State → Except Stop State} :
    Goes (vecWord gran inRegion limits body s) := memWord_goes
theorem computeWord_goes {gran : Gran} {limits : Core → Except Stop Unit} {f : Core → Core} :
    Goes (computeWord gran limits f s) := vecWord_goes
theorem plainWord_goes {inRegion : Bool} {limits : Core → Except Stop Unit} {f : Core → Core} :
    Goes (plainWord inRegion limits f s) := vecWord_goes
theorem elementwise_goes {o : Arith} {ok : EType → Bool} {more : List (BitVec 5)} {f : Core → Nat → Nat → Nat → Nat → Nat} :
    Goes (elementwise o ok more f s) := computeWord_goes
theorem unaryWord_goes {o : Arith} {ok : EType → Bool} {f : Nat → Nat} :
    Goes (unaryWord o ok f s) := computeWord_goes
theorem intWord_goes {o : Arith} {f : Int → Int → Int} : Goes (intWord o f s) := elementwise_goes
theorem bitWord_goes {o : Arith} {f : Nat → Nat → Nat → Nat} : Goes (bitWord o f s) := elementwise_goes
theorem compareWord_goes {o : Arith} {ok : EType → Bool} {f : Nat → Nat → Bool} :
    Goes (compareWord o ok f s) := computeWord_goes
theorem maskLogic_goes {o : MaskArgs} {rd : List (BitVec 5)} {f : Bool → Bool → Bool} :
    Goes (maskLogic o rd f s) := computeWord_goes
theorem rowWord_goes {limits : Core → Except Stop Unit} {vd : BitVec 5} {w : Nat} {on : Core → Nat → Nat → Bool} {f : Core →
    Nat → Nat → Nat} :
    Goes (rowWord limits vd w on f s) := computeWord_goes
theorem indexWord_goes {o : Arith} {f : Nat → Nat → Nat} : Goes (indexWord o f s) := computeWord_goes
theorem rowMoveWord_goes {o : RowMove} {srcRow : Nat → Nat} {srcRows : Nat → Nat} :
    Goes (rowMoveWord o srcRow srcRows s) := by
  unfold rowMoveWord
  exact computeWord_goes
theorem packWord_goes {p : Nat} {o : Conv} : Goes (packWord p o s) := by
  unfold packWord
  exact computeWord_goes
theorem unpackWord_goes {p : Nat} {o : Conv} : Goes (unpackWord p o s) := by
  unfold unpackWord
  exact computeWord_goes
theorem sliceWord_goes {second : Bool} {o : Conv} : Goes (sliceWord second o s) := by
  unfold sliceWord
  exact computeWord_goes
theorem unsliceWord_goes {second : Bool} {o : Conv} : Goes (unsliceWord second o s) := by
  unfold unsliceWord
  exact computeWord_goes
theorem darnWord_goes {limits : Core → Except Stop Unit} {f : Core → Core} :
    Goes (darnWord limits f s) := vecWord_goes
theorem reduceWord_goes {o : Arith} {ok : EType → Bool} {f : Core → Nat → Nat} :
    Goes (reduceWord o ok f s) := computeWord_goes
theorem columnWord_goes {o : Arith} {op : Nat → Nat → Nat} {empty : Nat} :
    Goes (columnWord o op empty s) := computeWord_goes
theorem gatherWord_goes {iw : Nat} {o : Gather} : Goes (gatherWord iw o s) := by
  unfold gatherWord
  exact computeWord_goes
theorem floatWord_goes {o : Arith} {f : Nat → Nat → Nat} : Goes (floatWord o f s) := elementwise_goes
theorem float3_goes {o : Arith} {f : Nat → Nat → Nat → Nat} : Goes (float3 o f s) := elementwise_goes
theorem intCompare_goes {k : Cond} {o : Arith} : Goes (intCompare k o s) := compareWord_goes
theorem floatCompare_goes {k : Cond} {o : Arith} : Goes (floatCompare k o s) := compareWord_goes
theorem rowValue_goes {o : Arith} {f : Core → Nat → Nat} : Goes (rowValue o f s) := rowWord_goes
theorem foldReduce_goes {o : Arith} {ok : EType → Bool} {op : Nat → Nat → Nat} {empty : Nat} :
    Goes (foldReduce o ok op empty s) := reduceWord_goes
theorem scanWord_goes {o : Arith} {op : Nat → Nat → Nat} : Goes (scanWord o op s) := rowWord_goes
theorem breakWord_goes {o : MaskArgs} {inc : Nat} : Goes (breakWord o inc s) := rowWord_goes
theorem vfence_goes {acquires : Bool} {sc : Scope} : Goes (vfence acquires sc s) := vecWord_goes
theorem loadVec_goes {o : MemArgs} {gran : Gran} {inRegion indexed : Bool} {mode : Suppress} {pointers : Bool} {extra : Shape
    → Bool} :
    Goes (loadVec o gran inRegion indexed mode pointers extra s) := memWord_goes
theorem storeVec_goes {o : MemArgs} {gran : Gran} {indexed : Bool} {extra : Shape → Bool} {body : State → Except Stop State} :
    Goes (storeVec o gran indexed extra body s) := memWord_goes
theorem vamo_goes {o : MemArgs} {ok : EType → Bool} {f : Nat → Nat → Nat} :
    Goes (vamo o ok f s) := memWord_goes
theorem vamoInt_goes {o : MemArgs} {op : AmoOp} : Goes (vamoInt o op s) := vamo_goes
theorem xltWord_goes {o : MemArgs} {ff : Bool} : Goes (xltWord o ff s) := memWord_goes
theorem tileReadWord_goes {o : TileRead} {zero : Bool} : Goes (tileReadWord o zero s) := by
  unfold tileReadWord
  exact matWord_goes
theorem tileWriteWord_goes {o : TileWrite} {add : Bool} : Goes (tileWriteWord o add s) := matWord_goes
theorem drawWord_goes {m : Bool} {vd va vb : BitVec 5} {et : EType} {slot : Option (BitVec 4)} {nrm : Bool} :
    Goes (drawWord m vd va vb et slot nrm s) := matWordS_goes
theorem startProject_goes {m : Bool} {vc : BitVec 5} {slot : BitVec 4} {k1 : BitVec 9} {t : BitVec 2} {thr : Bool} :
    Goes (startProject m vc slot k1 t thr s) := by
  unfold startProject
  exact projectWord_goes
theorem credWord_goes {op : BitVec 4} {o : EngArgs} {et : EType} :
    Goes (credWord op o et s) := engineWord_goes
theorem collWord_goes {k : CollKind} {o : EngArgs} : Goes (collWord k o s) := engineWord_goes

theorem bitwise_goes {o : Arith} {f : Nat → Nat → Nat} : Goes (bitwise o f s) := Goes.ite computeWord_goes bitWord_goes

theorem execVbcast_goes {o : Bcast} : Goes (execVbcast o s) := by
  unfold execVbcast
  dsimp only
  split
  · exact rowWord_goes
  · exact computeWord_goes
  · exact computeWord_goes

theorem exitWord_goes {o : MaskArgs} {inc : Nat} : Goes (exitWord o inc s) := by
  unfold exitWord
  split
  · split
    · exact stopWith_goes
    · exact stopWith_goes
    · exact endVec_next _
  · exact vecWord_goes

theorem execVcvt_goes {o : Conv} : Goes (execVcvt o s) := by
  unfold execVcvt
  exact computeWord_goes

theorem execVqnt_goes {o : Conv} : Goes (execVqnt o s) := by
  unfold execVqnt
  exact computeWord_goes

theorem execVcprs4_goes {o : Cprs} : Goes (execVcprs4 o s) := by
  unfold execVcprs4
  exact computeWord_goes

theorem execVpfold_goes {o : Arith} : Goes (execVpfold o s) := by
  unfold execVpfold
  exact computeWord_goes

theorem execVstp_goes {o : MemArgs} : Goes (execVstp o s) := by
  unfold execVstp
  exact storeVec_goes

theorem execMsmma_goes {o : SliceMul} : Goes (execMsmma o s) := by
  unfold execMsmma
  exact matWord_goes

theorem execVhacc_goes {o : MemArgs} : Goes (execVhacc o s) := by
  unfold execVhacc
  dsimp only
  split
  · exact stopWith_goes
  · exact memWord_goes

theorem execSopen_goes {b : Bool} {src : RecSrc} {q : BitVec 4} : Goes (execSopen b src q s) := by
  unfold execSopen
  split
  · exact plainWord_goes
  · exact memWord_goes

theorem Advances.goes {a h : Word} {r : Result} (hr : Advances a h r) : Goes r := ⟨hr.choose, hr.choose_spec.1⟩

/-! ### Events -/

theorem engineFail_goes {q : Que} {rank : Nat} {e : Stop} : Goes (engineFail q rank s e) := by cases e <;> exact .next

theorem observe_goes {who : ObsFunc} {op unit ctx limit : Nat} {f : State → Nat × State} :
    Goes (s.observe who op unit ctx limit f) := .ite .next (.ite .next .next)

theorem obsWrite_goes {who : ObsFunc} {v : Word} : Goes (obsWrite who v s) := by
  unfold obsWrite
  dsimp only
  split
  case h_5 => exact .next
  all_goals exact observe_goes

theorem funcWrite_goes {vf off : Nat} {v : Word} : Goes (funcWrite vf off v s) := by
  unfold funcWrite
  dsimp only
  split
  case h_6 => exact .ite .next .next
  case h_7 => exact obsWrite_goes
  all_goals exact .next

theorem execTrapEntry_goes {t : TrapReq} : Goes (execTrapEntry t s) := .ite .next .next

theorem execTrapRecordDrop_goes {ctx : Nat} : Goes (execTrapRecordDrop ctx s) := by
  unfold execTrapRecordDrop
  dsimp only
  repeat' split
  all_goals exact .next

theorem execTrapRingConsWrite_goes {ctx : Nat} {cons : RingWrite} : Goes (execTrapRingConsWrite ctx cons s) := by
  unfold execTrapRingConsWrite
  dsimp only
  repeat' split
  all_goals exact .next

theorem execTimeSliceExpiry_goes {gid : BitVec 16} : Goes (execTimeSliceExpiry gid s) := by
  unfold execTimeSliceExpiry
  dsimp only
  repeat' split
  all_goals exact .next

theorem execAdmission_goes {vf : Nat} {ring1 : Bool} : Goes (execAdmission vf ring1 s) := by
  unfold execAdmission
  dsimp only
  repeat' split
  all_goals exact .next

theorem execBarrierPhaseComplete_goes {gid : BitVec 16} : Goes (execBarrierPhaseComplete gid s) := by
  unfold execBarrierPhaseComplete
  repeat' split
  all_goals exact .next

theorem execWatermarkUpdate_goes {core : Nat} : Goes (execWatermarkUpdate core s) := by
  unfold execWatermarkUpdate
  dsimp only
  repeat' split
  all_goals exact .next

theorem execL2Request_goes {cluster ctx : Nat} : Goes (execL2Request cluster ctx s) := by
  unfold execL2Request
  dsimp only
  repeat' split
  all_goals exact .next

theorem execPageService_goes {core : Nat} {frames : List Nat} : Goes (execPageService core frames s) := by
  unfold execPageService
  dsimp only
  repeat' split
  all_goals exact .next

theorem execAtsInvalidation_goes {pasid vpage npages : Nat} : Goes (execAtsInvalidation pasid vpage npages s) := .ite .next .next

theorem execTranslationInvalidation_goes {ctx : Nat} {va : BitVec 64} {bytes : Nat} : Goes (execTranslationInvalidation ctx
    va bytes s) := .ite .next .next

theorem execPageMigration_goes {ctx : Nat} {va : BitVec 64} {toHost : Bool} {page : Nat} : Goes (execPageMigration ctx va
    toHost page s) := by
  unfold execPageMigration
  dsimp only
  repeat' split
  all_goals exact .next

theorem execFrameTableUpdate_goes {frame : Nat} {entry : BitVec 64} : Goes (execFrameTableUpdate frame entry s) := .ite .next (.ite .next .next)

theorem execHostDma_goes {vf ctx : Nat} {pa : Nat} {dma : Dma} : Goes (execHostDma vf ctx pa dma s) := by
  unfold execHostDma
  dsimp only
  repeat' split
  all_goals exact .next

theorem execUncorrectableError_goes {unit : ErrUnit} {loc : ErrLoc} : Goes (execUncorrectableError unit loc s) := by
  unfold execUncorrectableError
  repeat' split
  all_goals exact .next

theorem execCounterOverflow_goes {core idx : Nat} : Goes (execCounterOverflow core idx s) := .ite .next .next

theorem execSingleStepStop_goes {core : Nat} : Goes (execSingleStepStop core s) := by
  unfold execSingleStepStop
  dsimp only
  repeat' split
  all_goals exact .next

theorem execCollectiveMatch_goes {m : CollMsg} : Goes (execCollectiveMatch m s) := by
  unfold execCollectiveMatch
  dsimp only
  split
  · exact .next
  · next e j _ =>
    refine .ite .next ?_
    split
    · exact .next
    · next x _ =>
      obtain ⟨t, ht⟩ := engineFail_goes (q := .col) (rank := e.rank) (s := s.focus m.core) (e := x)
      rw [ht]
      exact .next

theorem execCredJoin_goes {ctx grp : Nat} {tag : BitVec 16} {parts : List CredPart} : Goes (execCredJoin ctx grp tag parts s)
    := by
  unfold execCredJoin
  dsimp only
  split
  · exact .next
  · next c _ =>
    split
    · next e j _ _ _ =>
      refine .ite .next ?_
      split
      · exact .next
      · next x _ =>
        obtain ⟨t, ht⟩ := engineFail_goes (q := .col) (rank := e.rank) (s := s.focus c.num) (e := x)
        rw [ht]
        exact .next
    · exact .next

theorem execCopyChunkArrival_goes {core idx : Nat} : Goes (execCopyChunkArrival core idx s) := by
  unfold execCopyChunkArrival
  dsimp only
  split
  · exact .next
  · next e _ =>
    split
    · exact .next
    · refine .ite .next ?_
      split
      · exact .next
      · next x _ =>
        obtain ⟨t, ht⟩ := engineFail_goes (q := .cpy) (rank := e.rank) (s := s.focus core) (e := x)
        rw [ht]
        exact .next

theorem execThawMaster_goes {m : Master} : Goes (execThawMaster m s) := by
  unfold execThawMaster
  repeat' split
  all_goals exact .next

theorem execModelStoreLoad_goes {ctx : Nat} {va : BitVec 64} {image : List (BitVec 8)} {frames : List Nat} : Goes
    (execModelStoreLoad ctx va image frames s) := by
  unfold execModelStoreLoad
  dsimp only
  repeat' split
  all_goals exact .next

theorem execCheckpoint_goes {id : Nat} {ctxs : List Nat} : Goes (execCheckpoint id ctxs s) := by
  unfold execCheckpoint
  dsimp only
  repeat' split
  all_goals exact .next

theorem execCheckpointRestore_goes {id : Nat} : Goes (execCheckpointRestore id s) := by
  unfold execCheckpointRestore
  dsimp only
  repeat' split
  all_goals exact .next

theorem execAttestationRequest_goes {ctx : Nat} {nonce : BitVec 256} : Goes (execAttestationRequest ctx nonce s) := by
  unfold execAttestationRequest
  dsimp only
  repeat' split
  all_goals exact .next

theorem execContextMigration_goes {ctx : Nat} {step : MigrStep} : Goes (execContextMigration ctx step s) := by
  unfold execContextMigration
  dsimp only
  repeat' split
  all_goals exact .next

theorem execRegisterWrite_goes {r : DevReg} {v : BitVec 64} : Goes (execRegisterWrite r v s) := by
  unfold execRegisterWrite
  split
  case h_5 => exact obsWrite_goes
  case h_8 => exact funcWrite_goes
  all_goals exact .next

theorem execSWordFetchFault_goes : Goes (execSWordFetchFault s) := by
  unfold execSWordFetchFault
  split
  · exact lastStop_next _ _
  · exact .next

theorem execCollectiveGroupBind_goes {ctx grp : Nat} {chips : List Nat} : Goes (execCollectiveGroupBind ctx grp chips s) :=
  .ite .next .next

theorem execCheckpointComplete_goes {id code : Nat} : Goes (execCheckpointComplete id code s) := .ite .next (.ite .next .next)

theorem execIllegalVWord_goes {w : BitVec 64} : Goes (execIllegalVWord w s) := by
  unfold execIllegalVWord refuseWord
  exact stopWith_goes

/-- Every instruction has a next state, the S-words that move on among them. -/
theorem exec_goes (i : Instr) : Goes (exec i s) := by
  by_cases hm : movesOn i = true
  · exact (exec_advances hm State.stands).goes
  · unfold exec
    cases i <;> dsimp only
    case vadd | vsub | vmul | vmulh | vmin | vmax | vsadd | vssub => exact intWord_goes
    case vmacc => exact elementwise_goes
    case vand | vor | vxor => exact bitwise_goes
    case vshl | vshr | vsar => exact bitWord_goes
    case vabs | vfsqrt | vfrsqe | vfexp2 | vfabs | vfneg | vmv => exact unaryWord_goes
    case vfadd | vfsub | vfmul | vfdiv | vfmin | vfmax => exact floatWord_goes
    case vfma | vfnma | vfclamp => exact float3_goes
    case vcmpeq | vcmpne | vcmplt | vcmpge | vcmple | vcmpgt => exact intCompare_goes
    case vfcmpeq | vfcmpne | vfcmplt | vfcmple | vfcmpgt | vfcmpge | vfcmpun | vfcmpord => exact floatCompare_goes
    case vmand | vmor | vmxor | vmnot | vmandn => exact maskLogic_goes
    case vmpop | vmfirst => exact rowValue_goes
    case vmscanand | viota | vslideup | vslidedn | vcompress | vexpand => exact rowWord_goes
    case vidx | vidxr => exact indexWord_goes
    case vredsum | vredmin | vredmax | vredand | vredor | vredxor | vfredo | vfredmax | vfredmin =>
      exact foldReduce_goes
    case vfredt => exact reduceWord_goes
    case vscansum | vscanmax | vscanmin => exact scanWord_goes
    case vcolsum | vcolmax | vcolmin => exact columnWord_goes
    case vrgather | vrgatherw => exact gatherWord_goes
    case vbcast => exact execVbcast_goes
    case vrowmv | vrowbc => exact rowMoveWord_goes
    case vcvt => exact execVcvt_goes
    case vqnt => exact execVqnt_goes
    case vcprs4 => exact execVcprs4_goes
    case vpfold => exact execVpfold_goes
    case vpack2 | vpack4 => exact packWord_goes
    case vunpk2 | vunpk4 => exact unpackWord_goes
    case vslicea | vsliceb => exact sliceWord_goes
    case vunslicea | vunsliceb => exact unsliceWord_goes
    case vspec | vspecf | vfftrim => exact plainWord_goes
    case vbrkb | vbrki => exact breakWord_goes
    case vexitb | vexiti => exact exitWord_goes
    case vpart | vmark | audlog => exact vecWord_goes
    case vhacc => exact execVhacc_goes
    case vld | vldx | vldff | vldsp | vldspx | vldp => exact loadVec_goes
    case vst | vstx  => exact storeVec_goes
    case vstp => exact execVstp_goes
    case vsth => exact memWord_goes
    case vamoAdd | vamoSwp | vamoMin | vamoMax | vamoAnd | vamoOr | vamoXor => exact vamoInt_goes
    case vamoFadd => exact vamo_goes
    case vxlt | vxltff => exact xltWord_goes
    case sopen => exact execSopen_goes
    case sopenp | sadv | sclose | ssave | vsett | vgett => exact plainWord_goes
    case mcomp | mcscan | mcscanc | mclegal | mclegalx => exact darnWord_goes
    case vfenceAcq | vfenceRel | vfenceFull => exact vfence_goes
    case mshape | mshapeg | mzero | mma | mmas | msync | vprojb | vheaprd | vpstrd | vhmerge | vhmergen | vpstwr =>
      exact matWord_goes
    case msmma => exact execMsmma_goes
    case mrd | mrdz => exact tileReadWord_goes
    case mwr | mwra => exact tileWriteWord_goes
    case vproj => exact projectWord_goes
    case vprojs | vprojt => exact startProject_goes
    case draw | drawn | drawr | drawrn => exact drawWord_goes
    case cpy | cpyc | cpywait | cpywaitv | cwait | cwaitv => exact engineWord_goes
    case csend | csendm | crecv => exact collWord_goes
    case credsum | credmax | credmin | credrs | credheap => exact credWord_goes
    case preemptionRequest | graceExpiry | ring0TailWrite | wfeWake | errorCountWindow | counterCount | counterWrite |
        traceRecordDrop | auditBlockSign | auditConsWrite | kernelResumeHart | kernelEnterHandler | destroyGang |
        keySlotLoad | thermalLimit | thermalLimitClear | preemptGangWrite | dispatchRound | bucketRefill |
        faultResponseWrite | correctableError | functionLevelReset | powerOnBoot | priPageResponse | illegalSWord |
        traceRingConsWrite | recoveryImageWrite =>
      exact .next
    case beq | bne | blt | bge | bltn | bgen | jal => exact .next
    case jalr => exact .ite .next .next
    case eret => exact .ite .next .next
    case halt => exact .ite .next (.ite .next .next)
    case illegalVWord => exact execIllegalVWord_goes
    case allocateBank | releaseBank | allocateTraceUnit | releaseTraceUnit => exact observe_goes
    case trapEntry => exact execTrapEntry_goes
    case trapRecordDrop => exact execTrapRecordDrop_goes
    case trapRingConsWrite => exact execTrapRingConsWrite_goes
    case timeSliceExpiry => exact execTimeSliceExpiry_goes
    case admission => exact execAdmission_goes
    case barrierPhaseComplete => exact execBarrierPhaseComplete_goes
    case watermarkUpdate => exact execWatermarkUpdate_goes
    case l2Request => exact execL2Request_goes
    case pageService => exact execPageService_goes
    case atsInvalidation => exact execAtsInvalidation_goes
    case translationInvalidation => exact execTranslationInvalidation_goes
    case pageMigration => exact execPageMigration_goes
    case frameTableUpdate => exact execFrameTableUpdate_goes
    case hostDma => exact execHostDma_goes
    case uncorrectableError => exact execUncorrectableError_goes
    case counterOverflow => exact execCounterOverflow_goes
    case singleStepStop => exact execSingleStepStop_goes
    case collectiveMatch => exact execCollectiveMatch_goes
    case credJoin => exact execCredJoin_goes
    case copyChunkArrival => exact execCopyChunkArrival_goes
    case thawMaster => exact execThawMaster_goes
    case modelStoreLoad => exact execModelStoreLoad_goes
    case checkpoint => exact execCheckpoint_goes
    case checkpointRestore => exact execCheckpointRestore_goes
    case attestationRequest => exact execAttestationRequest_goes
    case contextMigration => exact execContextMigration_goes
    case registerWrite => exact execRegisterWrite_goes
    case sWordFetchFault => exact execSWordFetchFault_goes
    case collectiveGroupBind => exact execCollectiveGroupBind_goes
    case checkpointComplete => exact execCheckpointComplete_goes
    all_goals exact absurd rfl hm
end
end Sys2Proof.Machine

namespace Sys2Proof.Machine

/-! ## Every step has a next state (R176, R366) -/

/-- Whatever turn an agent has, it has a next state. -/
def AgentGoes (a : State → Option Result) : Prop := ∀ s r, a s = some r → Goes r

section
variable {s t : State} {r : Result} {a : State → Option Result}

theorem tally_goes {ev : State → State → List (Nat × Nat)} {pair : State → State → Word × Word} {turn : State → Result}
    (h : ∀ s, Goes (turn s)) : Goes (tally ev pair turn s) := by
  unfold tally
  obtain ⟨t, ht⟩ := h s
  rw [ht]
  refine .ite ?_ .next
  extract_lets c
  obtain ⟨u, hu⟩ := h { c with free := s.free }
  rw [hu]
  exact .next

/-! ### The turns of the queues and of the Last -/

theorem runConvoy_goes {l : List Member} : Goes (s.runConvoy l) := by
  unfold State.runConvoy
  split <;> exact .next

theorem vecTurn_goes (s : State) : Goes s.vecTurn := by
  unfold State.vecTurn
  split
  · exact execIllegalVWord_goes
  · split
    · exact .next
    · exact exec_goes _
    · exact runConvoy_goes

theorem vecMoves_goes (s : State) : Goes s.vecMoves := by
  unfold State.vecMoves
  obtain ⟨t, ht⟩ := vecTurn_goes s
  rw [ht]
  exact .next

theorem wordTurn_goes {e : QEntry} : Goes (s.wordTurn e) := by
  unfold State.wordTurn
  dsimp only
  split
  · exact execIllegalVWord_goes
  · exact exec_goes _

theorem stepped_goes (h : Goes r) : Goes (s.stepped r) := by
  obtain ⟨t, rfl⟩ := h
  exact s.stepped_next t

theorem lastTurn_goes (s : State) : Goes s.lastTurn := by
  unfold State.lastTurn
  refine .ite .next ?_
  split
  · exact execSWordFetchFault_goes
  · refine stepped_goes ?_
    unfold State.runSWord
    split
    · exact exec_goes _
    · exact .next

/-! ### The agents -/

theorem Goes.of_some_ite {p : Prop} [Decidable p] {x : Result} (hx : Goes x) (h : (if p then some x else none) = some r) :
    Goes r := by
  split at h <;> cases h
  exact hx

theorem stopTurn_goes : AgentGoes State.stopTurn := fun _ _ => Goes.of_some_ite execSingleStepStop_goes
theorem forcedTurn_goes : AgentGoes State.forcedTurn := fun _ _ => Goes.of_some_ite .next
theorem auditTurn_goes : AgentGoes State.auditTurn := fun _ _ => Goes.of_some_ite .next
theorem vecAgent_goes : AgentGoes State.vecAgent := fun _ _ => Goes.of_some_ite (tally_goes vecMoves_goes)
theorem lastAgent_goes : AgentGoes State.lastAgent := fun _ _ => Goes.of_some_ite (tally_goes lastTurn_goes)

theorem vecToAgent_goes {ends : Vector Nat 4} : AgentGoes (State.vecToAgent ends) := fun _ _ => Goes.of_some_ite (tally_goes
    fun _ => .next)

theorem kernelTurn_goes : AgentGoes State.kernelTurn := fun s r h => by
  unfold State.kernelTurn at h
  split at h
  · cases h
  · exact .of_some_ite .next h

theorem barrierTurn_goes : AgentGoes State.barrierTurn := fun s r h => by
  unfold State.barrierTurn at h
  split at h
  · exact .of_some_ite execBarrierPhaseComplete_goes h
  · cases h

theorem pubTurn_goes : AgentGoes State.pubTurn := fun s r h => by
  unfold State.pubTurn at h
  split at h
  · exact .of_some_ite execWatermarkUpdate_goes h
  · cases h

/-- A turn that is there under a condition, for something that may be there. -/
theorem Goes.of_ite_map {α : Type} {p : Prop} [Decidable p] {o : Option α} {f : α → Result} (hf : ∀ x, Goes (f x))
    (h : (if p then o.map f else none) = some r) : Goes r := by
  split at h
  · obtain ⟨x, -, rfl⟩ := Option.map_eq_some_iff.mp h
    exact hf x
  · cases h

theorem seamTurn_goes : AgentGoes State.seamTurn := fun _ _ => Goes.of_ite_map fun _ => .next
theorem earlyAgent_goes {lins : List Nat} : AgentGoes (State.earlyAgent lins) := fun _ _ => Goes.of_ite_map fun _ => .next
theorem passAgent_goes : AgentGoes State.passAgent := fun _ _ => Goes.of_ite_map fun _ => .next
theorem matAgent_goes : AgentGoes State.matAgent := fun _ _ => Goes.of_ite_map fun _ => tally_goes fun _ => wordTurn_goes
theorem copyAgent_goes : AgentGoes State.copyAgent := fun _ _ => Goes.of_ite_map fun _ => wordTurn_goes
theorem chunkAgent_goes : AgentGoes State.chunkAgent := fun _ _ => Goes.of_ite_map fun _ => execCopyChunkArrival_goes
theorem collAgent_goes : AgentGoes State.collAgent := fun _ _ => Goes.of_ite_map fun _ => wordTurn_goes

theorem passWordTurn_goes {e : QEntry} (h : s.passWordTurn e = some r) : Goes r := by
  unfold State.passWordTurn at h
  split at h
  · cases h
    exact wordTurn_goes
  · split at h
    · cases h
    · next i _ u open_ _ =>
      split at h
      · cases h
      · split at h
        · cases h
        · next t _ =>
          extract_lets x at h
          split at h
          case h_1 | h_2 =>
            cases h
            exact .next
          case h_3 | h_4 =>
            split at h <;> cases h
            exact wordTurn_goes
          case h_5 => cases h

theorem passWordAgent_goes : AgentGoes State.passWordAgent := fun s r h => by
  unfold State.passWordAgent at h
  split at h
  · obtain ⟨e, -, he⟩ := Option.bind_eq_some_iff.mp h
    exact passWordTurn_goes he
  · cases h

theorem eventTurn_goes : AgentGoes State.eventTurn := fun s r h => by
  unfold State.eventTurn at h
  split at h
  · cases h
  · next i is _ =>
    obtain ⟨t, ht⟩ := exec_goes (s := { s with inbox := is }) i
    rw [ht] at h
    dsimp only at h
    split at h <;> cases h <;> exact .next

/-! ### The order of the agents -/

theorem Goes.of_snd {x : Bool × Result} {b : Bool} (h : Goes x.2) (hx : x = (b, r)) : Goes r := by
  subst hx
  exact h

theorem tryTurn_goes (ha : AgentGoes a) : Goes (tryTurn a s).2 := by
  unfold tryTurn
  split
  · exact .next
  · exact .next
  · next r h => exact ha _ _ h

theorem runAgents_goes : ∀ {l : List (State → Option Result)} {s : State}, (∀ a ∈ l, AgentGoes a) → Goes (runAgents l s).2
  | [], _, _ => .next
  | a :: l, s, h => by
    obtain ⟨ha, hl⟩ := List.forall_mem_cons.mp h
    have hgo := tryTurn_goes (s := s) ha
    unfold runAgents
    split
    · next hr => exact hgo.of_snd hr
    · exact runAgents_goes hl
    · next hr => exact hgo.of_snd hr

theorem runAgents_one (ha : AgentGoes a) : Goes (runAgents [a] s).2 := runAgents_goes (by simpa using ha)

theorem agentsOfCore_goes : ∀ a ∈ agentsOfCore, AgentGoes a := by
  simp only [agentsOfCore, List.forall_mem_cons]
  exact ⟨stopTurn_goes, forcedTurn_goes, kernelTurn_goes, barrierTurn_goes, pubTurn_goes, auditTurn_goes, seamTurn_goes,
    vecAgent_goes, matAgent_goes, copyAgent_goes, chunkAgent_goes, collAgent_goes, passAgent_goes, passWordAgent_goes,
    lastAgent_goes, by simp⟩

theorem runCores_goes : ∀ {l : List Nat} {s : State}, Goes (runCores l s).2
  | [], _ => .next
  | n :: l, s => by
    have hgo := runAgents_goes (s := s.focus n) agentsOfCore_goes
    unfold runCores
    split
    · next hr => exact hgo.of_snd hr
    · exact runCores_goes
    · next hr => exact hgo.of_snd hr

theorem planned_goes {x : Turn} : Goes (s.planned x) := by
  unfold State.planned
  dsimp only
  cases x with
  | event => exact runAgents_one eventTurn_goes
  | last => exact runAgents_one lastAgent_goes
  | vec => exact runAgents_one vecAgent_goes
  | vecTo ends => exact runAgents_one vecToAgent_goes
  | vecEarly lins => exact runAgents_one earlyAgent_goes
  | vecPass => exact runAgents_one passAgent_goes
  | mat => exact runAgents_one matAgent_goes
  | copy => exact runAgents_goes (by simpa using ⟨copyAgent_goes, chunkAgent_goes, passWordAgent_goes⟩)
  | coll => exact runAgents_goes (by simpa using ⟨collAgent_goes, passWordAgent_goes⟩)
  | pub => exact runAgents_one pubTurn_goes
  | focus n => exact .next
  | dropFetched l => exact .next

theorem unplanned_goes : Goes s.unplanned := by
  have hgo := tryTurn_goes (s := s) eventTurn_goes
  unfold State.unplanned
  split
  · next hr => exact hgo.of_snd hr
  · next t _ =>
    have hcores := runCores_goes (l := t.rest.map Core.num ++ [t.core.num]) (s := t)
    split
    · next hr => exact hcores.of_snd hr
    · exact .next
    · next hr => exact hcores.of_snd hr
  · next hr => exact hgo.of_snd hr

theorem step_goes : Goes (step s) := by
  unfold step State.advanceMachine
  split
  · exact planned_goes
  · exact unplanned_goes

end

/-- Settles O5: no instruction and no agent has an outcome but a next state, and each S-word that moves on goes through one of the
rules of the Last, which wait, advance, or take a trap. -/
theorem everyInstructionHasAMeaning : Obligations.EveryInstructionHasAMeaning := by
  unfold Obligations.EveryInstructionHasAMeaning
  refine ⟨fun s => ⟨step_goes, exec_goes⟩, fun s t i hm _ _ ht => ?_⟩
  obtain ⟨u, hu, hon⟩ := exec_advances hm s.stands
  rw [hu] at ht
  cases ht
  exact hon

end Sys2Proof.Machine

namespace Sys2Proof.Machine

/-! ## Counting the events of a turn (R346) -/

/-- The hart of `t` is that of `s`, whose stamps have gone on. -/
def State.OnlyStamps (s t : State) : Prop := ∃ n, t.core = { s.core with stampSeq := n }

section
variable {s t u : State}

theorem State.OnlyStamps.refl : s.OnlyStamps s := ⟨_, rfl⟩

theorem State.OnlyStamps.trans (h : s.OnlyStamps t) (h' : t.OnlyStamps u) : s.OnlyStamps u := by
  obtain ⟨n, hn⟩ := h
  obtain ⟨m, hm⟩ := h'
  exact ⟨m, by rw [hm, hn]⟩

theorem State.OnlyStamps.counterWraps {w : Word} {p : Word × Word} (h : s.OnlyStamps t) : s.OnlyStamps (t.counterWraps w p) := by
  unfold State.counterWraps
  extract_lets t'
  have h' : s.OnlyStamps t' := ite_keeps (P := State.OnlyStamps s) (h.trans ⟨t.core.stampSeq + 1, rfl⟩) h
  exact ite_keeps (P := State.OnlyStamps s) (h'.trans (State.trace_core _ _ _ _ _ _ _)) h'

theorem State.OnlyStamps.addCounter {core ev n i : Nat} {p : Word × Word} (h : s.OnlyStamps t) :
    s.OnlyStamps (t.addCounter core ev n p i) := by
  unfold State.addCounter
  extract_lets b w v t'
  have h' : s.OnlyStamps t' := h
  exact ite_keeps (P := State.OnlyStamps s) h (ite_keeps (P := State.OnlyStamps s) h'.counterWraps h')

theorem State.countEvents_onlyStamps (s : State) (p : Word × Word) (evs : List (Nat × Nat)) : s.OnlyStamps (s.countEvents p
    evs) := by
  unfold State.countEvents
  refine ite_keeps (P := State.OnlyStamps s) .refl ?_
  refine List.foldlRecOn (motive := State.OnlyStamps s) (List.range 8) _ .refl fun t ht i _ => ?_
  dsimp only
  split
  · exact ht
  · exact State.OnlyStamps.addCounter ht

end

section
variable {s c : State} {k : Nat}

/-- A bank that counts nothing leaves the state. -/
theorem State.Counted.refl (s : State) : s.Counted s 0 :=
  ⟨fun _ => ⟨rfl, rfl⟩, s.free, (0, 0), [], by
    have h : s.countEvents (0, 0) [] = s := by
      unfold State.countEvents
      refine ite_keeps (P := fun t : State => t = s) rfl ?_
      exact List.foldlRecOn (motive := fun t : State => t = s) (List.range 8) _ rfl fun _ ht _ _ => ht
    rw [h]⟩

theorem State.Counted.onlyStamps (h : s.Counted c k) : s.OnlyStamps c := by
  obtain ⟨-, n, p, evs, rfl⟩ := h
  exact ({ s with free := n } : State).countEvents_onlyStamps p evs

theorem State.past_zero (s : State) : s.past 0 = s := by rw [State.past, Nat.max_zero]

/-- A turn whose events are counted is that turn in the state that the counting leaves. -/
theorem tally_counted {ev : State → State → List (Nat × Nat)} {pair : State → State → Word × Word} {turn : State → Result}
    (hgo : ∀ s, Goes (turn s)) (s : State) :
    ∃ c k, s.Counted c k ∧ ∀ u, turn c = .next u → tally ev pair turn s = .next (u.past k) := by
  obtain ⟨t, ht⟩ := hgo s
  by_cases hb : s.bankCounts (s.dev.bankOf s.core.num) = true
  · refine ⟨{ ({ s with free := t.free } : State).countEvents (pair s t) (ev s t) with free := s.free },
      (({ s with free := t.free } : State).countEvents (pair s t) (ev s t)).free,
      ⟨fun hoff => absurd (hb.symm.trans hoff) (by simp), _, _, _, rfl⟩, fun u hu => ?_⟩
    unfold tally
    rw [ht]
    dsimp only
    rw [if_pos hb, hu]
    rfl
  · refine ⟨s, 0, .refl s, fun u hu => ?_⟩
    rw [tally_off (Bool.not_eq_true _ ▸ hb), hu, State.past_zero]

/-! ## The turns that a plan names -/

theorem step_planned {x : Turn} {ts : List Turn} (hp : s.plan = x :: ts) : step s = ({ s with plan := ts } : State).planned x
    := by
  unfold step State.advanceMachine
  rw [hp]

/-- A first agent that moves: the others have no turn. -/
theorem runAgents_moves {a : State → Option Result} {l : List (State → Option Result)} {u : State} (h : a s = some (.next u))
    (hw : u.core.why = none) : (runAgents (a :: l) s).2 = .next u.tidy := by
  simp only [runAgents, tryTurn, h, hw]
  rfl

theorem step_last {ts : List Turn} {u : State} (hp : s.plan = .last :: ts) (hr : s.runs = true)
    (h : tally lastEvents lastPair State.lastTurn { s with plan := ts } = .next u) : step s = .next u.tidy := by
  rw [step_planned hp]
  exact runAgents_next ((State.lastAgent_some (s := { s with plan := ts }) hr).trans (congrArg some h))

/-! ## The Last's turn (R176, R370) -/

/-- The Last's turn with nothing that holds it back, by what the fetch at the program counter gives. -/
theorem lastTurn_error {f : Fail} (hwfe : s.core.wfe = false) (h : fetchBytes s false s.core.pc 4 = .error f) :
    s.lastTurn = exec .sWordFetchFault s := by
  unfold State.lastTurn
  rw [hwfe, h]
  rfl

theorem lastTurn_ok {w : Nat} {t : State} (hwfe : s.core.wfe = false) (h : fetchBytes s false s.core.pc 4 = .ok (w, t)) :
    s.lastTurn = s.stepped (t.runSWord (BitVec.ofNat 32 w)) := by
  unfold State.lastTurn
  rw [hwfe, h]
  rfl

theorem runSWord_ok {w : BitVec 32} {i : Instr} (h : decodeS w = .ok i) : s.runSWord w = exec i s := by
  unfold State.runSWord
  rw [h]

theorem runSWord_error {w : BitVec 32} {x : Reject} (h : decodeS w = .error x) :
    s.runSWord w = .next (genFault s 0x01 (w.setWidth 64) 0) := by
  unfold State.runSWord
  rw [h]
  rfl

theorem stepped_off {r : Result} (h : wfield s.core.t.tdbg 1 0 ≠ 1) : s.stepped r = r := by
  unfold State.stepped
  split
  · exact if_neg fun hx => h hx.1
  · rfl

/-! ## A word of a queue (R25, R26, R161) -/

/-- The turn of a queue's head word. -/
theorem wordTurn_ok {e : QEntry} {i : Instr} (h : decodeV e.word = .ok i) :
    s.wordTurn e = exec i { s with core := s.core.fresh e .whole (.replicate 4 512) } := by
  unfold State.wordTurn
  dsimp only
  rw [h]

theorem vecTurn_one {e : QEntry} {i : Instr} (hc : s.core.headConvoy = [e]) (h : decodeV e.word = .ok i) :
    s.vecTurn = exec i { s with core := s.core.fresh e .whole (.replicate 4 512) } := by
  unfold State.vecTurn
  rw [hc]
  simp only [membersOf, h]
  rfl

theorem vecMoves_next {u : State} (h : s.vecTurn = .next u) (hw : u.core.why = none) : s.vecMoves = .next u := by
  unfold State.vecMoves
  rw [h]
  simp [hw]

theorem vecAgent_some (hr : s.runs = true) (hv : s.vecReady = true) :
    s.vecAgent = some (tally vecEvents queuePair State.vecMoves s) := if_pos (by rw [hr, hv]; rfl)

theorem step_vec {ts : List Turn} {u : State} (hp : s.plan = .vec :: ts) (hr : s.runs = true)
    (hv : ({ s with plan := ts } : State).vecReady = true)
    (h : tally vecEvents queuePair State.vecMoves { s with plan := ts } = .next u) : step s = .next u.tidy := by
  rw [step_planned hp]
  exact runAgents_next ((vecAgent_some (s := { s with plan := ts }) hr hv).trans (congrArg some h))

theorem ready_some {o : Option QEntry} {e : QEntry} {f : QEntry → Result} (hr : s.runs = true) (h : o = some e) :
    (if s.runs then o.map f else none) = some (f e) := by
  rw [hr, h]
  rfl

/-- A planned turn of a queue whose head word may run is `exec` of that word. -/
theorem step_word {ts : List Turn} {e : QEntry} {i : Instr} (hr : s.runs = true) (hi : decodeV e.word = .ok i)
    (h : s.plan = .vec :: ts ∧ s.core.headConvoy = [e] ∧ ({ s with plan := ts } : State).vecReady = true ∨
      s.plan = .mat :: ts ∧ s.core.matReady = some e ∨ s.plan = .copy :: ts ∧ s.core.copyReady = some e ∨
      s.plan = .coll :: ts ∧ s.core.collReady = some e) :
    ∃ c k, ({ s with plan := ts } : State).Counted c k ∧
      ∀ u, exec i { c with core := c.core.fresh e .whole (.replicate 4 512) } = .next u → u.core.why = none →
        step s = .next (u.past k).tidy := by
  have hword (t : State) : t.wordTurn e = exec i { t with core := t.core.fresh e .whole (.replicate 4 512) } := wordTurn_ok hi
  rcases h with ⟨hp, hc, hv⟩ | ⟨hp, hm⟩ | ⟨hp, hm⟩ | ⟨hp, hm⟩
  · obtain ⟨c, k, hk, hstep⟩ := tally_counted (ev := vecEvents) (pair := queuePair) vecMoves_goes { s with plan := ts }
    refine ⟨c, k, hk, fun u hu hw => step_vec hp hr hv (hstep u (vecMoves_next ?_ hw))⟩
    obtain ⟨n, hn⟩ := hk.onlyStamps
    rw [vecTurn_one (by rw [hn]; exact hc) hi]
    exact hu
  · obtain ⟨c, k, hk, hstep⟩ := tally_counted (ev := matEvents) (pair := queuePair) (turn := fun t => t.wordTurn e)
      (fun _ => wordTurn_goes) { s with plan := ts }
    refine ⟨c, k, hk, fun u hu hw => ?_⟩
    rw [step_planned hp]
    exact runAgents_next ((ready_some hr hm).trans (congrArg some (hstep u ((hword c).trans hu))))
  · refine ⟨_, 0, .refl _, fun u hu hw => ?_⟩
    rw [step_planned hp, State.past_zero]
    exact runAgents_moves (a := State.copyAgent) ((ready_some (s := { s with plan := ts }) hr hm).trans (congrArg some
        ((hword _).trans hu))) hw
  · refine ⟨_, 0, .refl _, fun u hu hw => ?_⟩
    rw [step_planned hp, State.past_zero]
    exact runAgents_moves (a := State.collAgent) ((ready_some (s := { s with plan := ts }) hr hm).trans (congrArg some
        ((hword _).trans hu))) hw

/-! ## Convoys of two words (R25, R26, R375) -/

/-- The limits of Table 1-5 that a convoy of two words breaks. -/
def pairConflict (i j : Instr) (f : QEntry) : Prop :=
  classOf i = .solitary ∨ classOf j = .solitary ∨ (classOf i = classOf j ∧ classOf i ≠ .arith) ∨
    (classOf j = .cross ∧ ∃ w ∈ writesOf i, ∃ r ∈ crossReads (f.vtype.getLsbD 15) j, w.meets r = true)

theorem breaks_one_iff {e f : QEntry} {i j : Instr} (hi : classOf i ≠ .solitary) :
    breaks [⟨e, i⟩] ⟨f, j⟩ = true ↔ pairConflict i j f := by
  unfold breaks pairConflict countClass Member.sce
  dsimp only
  cases hj : classOf j <;> cases hi' : classOf i <;> simp_all

/-- Such a convoy is a conflict exactly where it breaks a limit, and the report names the second word. -/
theorem conflictOf_conflict {e f : QEntry} {i j : Instr} (h : pairConflict i j f) :
    conflictOf [⟨e, i⟩, ⟨f, j⟩] = some 0x20101 := by
  have hbreak : breakAt [] [⟨e, i⟩, ⟨f, j⟩] 0 = some 1 := by
    unfold breakAt
    rw [if_pos rfl]
    split
    · rfl
    · next hi =>
      unfold breakAt
      rw [if_neg (by simp), if_pos ((breaks_one_iff hi).mpr h)]
  unfold conflictOf
  rw [if_neg (by simp), hbreak]
  exact congrArg some (by decide : BitVec.ofNat 64 (1 + 1 <<< 8 + 2 <<< 16) = 0x20101#64)

theorem conflictOf_none {e f : QEntry} {i j : Instr} (h : ¬ pairConflict i j f) : conflictOf [⟨e, i⟩, ⟨f, j⟩] = none := by
  have hi : classOf i ≠ .solitary := fun hi => h (.inl hi)
  have hbreak : breakAt [] [⟨e, i⟩, ⟨f, j⟩] 0 = none := by
    unfold breakAt
    rw [if_pos rfl, if_neg hi]
    unfold breakAt
    rw [if_neg (by simp), if_neg (mt (breaks_one_iff hi).mp h)]
    rfl
  unfold conflictOf
  rw [if_neg (by simp), hbreak]
  rfl

section
variable {e f : QEntry} {i j : Instr} (hc : s.core.headConvoy = [e, f]) (hi : decodeV e.word = .ok i)
  (hj : decodeV f.word = .ok j)
include hc hi hj

theorem membersOf_two : membersOf s.core.headConvoy = .ok [⟨e, i⟩, ⟨f, j⟩] := by
  rw [hc]
  simp only [membersOf, hi, hj]

theorem vecTurn_conflict (h : pairConflict i j f) : s.vecTurn = .next (takeTrap s ⟨.word e.rank, 0x04, 0x20101, 0⟩) := by
  unfold State.vecTurn
  rw [membersOf_two hc hi hj]
  dsimp only
  rw [conflictOf_conflict h]

theorem vecTurn_two {u v : State} (h : ¬ pairConflict i j f)
    (hu : exec i { s with core := s.core.fresh (s.core.nowEntry e) .part (.replicate 4 512) } = .next u)
    (huw : u.core.why = none)
    (hv : exec j { u with core := u.core.fresh (u.core.nowEntry f) .part u.core.hi } = .next v) (hvw : v.core.why = none) :
    s.vecTurn = .next (v.retireConvoy [⟨e, i⟩, ⟨f, j⟩]).clean := by
  have hrun : runMembers .part (.replicate 4 512) [⟨e, i⟩, ⟨f, j⟩] s = .ok (v, none) :=
    runMembers_next hu huw (runMembers_next hv hvw rfl)
  unfold State.vecTurn
  rw [membersOf_two hc hi hj]
  dsimp only
  rw [conflictOf_none h]
  dsimp only
  unfold State.runConvoy
  rw [hrun]

end

end

/-- Settles O4: the counting of a turn's events leaves the hart but for its stamps, and the turn that the plan names is then
`exec` of what decodes. -/
theorem stepRunsTheDecodedInstruction : Obligations.StepRunsTheDecodedInstruction := by
  unfold Obligations.StepRunsTheDecodedInstruction
  refine ⟨fun s ts hp hr hwfe => ?last, fun s ts e i hr hi => step_word hr hi, fun s ts e f i j => ?convoy⟩
  case last =>
    obtain ⟨c, k, hk, hstep⟩ := tally_counted (ev := lastEvents) (pair := lastPair) lastTurn_goes { s with plan := ts }
    obtain ⟨n, hn⟩ := hk.onlyStamps
    have hpc : c.core.pc = s.core.pc := by rw [hn]
    have hcw : c.core.wfe = false := by rw [hn]; exact hwfe
    have hends {u : State} (hu : c.lastTurn = .next u) : step s = .next (u.past k).tidy := step_last hp hr (hstep u hu)
    refine ⟨c, k, hk, fun x hx u hu => hends ?_, fun w t hw => ⟨fun i u hi hu => ?_, fun x hx => ?_⟩⟩
    · rw [lastTurn_error hcw (hpc ▸ hx)]
      exact hu
    · have hturn : c.lastTurn = c.stepped (.next u) := by
        rw [lastTurn_ok hcw (hpc ▸ hw), runSWord_ok hi, hu]
      obtain ⟨v, hv⟩ := c.stepped_next u
      refine ⟨⟨v, hv, hends (hturn.trans hv)⟩, fun hd => hends (hturn.trans (stepped_off ?_))⟩
      rw [hn]
      exact hd
    · have hturn : c.lastTurn = c.stepped (.next (genFault t 0x01 ((BitVec.ofNat 32 w).setWidth 64) 0)) := by
        rw [lastTurn_ok hcw (hpc ▸ hw), runSWord_error hx]
      obtain ⟨v, hv⟩ := c.stepped_next (genFault t 0x01 ((BitVec.ofNat 32 w).setWidth 64) 0)
      exact ⟨v, hv, hends (hturn.trans hv)⟩
  case convoy =>
    intro s0 hp hr hw hv hc hi hj member conflict
    obtain ⟨c, k, hk, hstep⟩ := tally_counted (ev := vecEvents) (pair := queuePair) vecMoves_goes s0
    obtain ⟨n, hn⟩ := hk.onlyStamps
    have hcc : c.core.headConvoy = [e, f] := by rw [hn]; exact hc
    have hcw : c.core.why = none := by rw [hn]; exact hw
    have hends {u : State} (hu : c.vecTurn = .next u) (huw : u.core.why = none) : step s = .next (u.past k).tidy :=
      step_vec hp hr hv (hstep u (vecMoves_next hu huw))
    refine ⟨c, k, hk, fun h => ?_, fun u v h hu huw hv' hvw => ?_⟩
    · exact hends (vecTurn_conflict hcc hi hj h) ((takeTrap_why _ _).trans hcw)
    · exact hends (vecTurn_two hcc hi hj h hu huw hv' hvw) ((v.retireConvoy_why _).trans hvw)

end Sys2Proof.Machine

namespace Sys2Proof.Machine

/-! ## Images in doublewords (Tables 7-8 and 7-9) -/

/-- The bytes of a list of doublewords. -/
def doublewords (l : List Nat) : List Byte := l.flatMap (bytesOf 8)

/-- A doubleword read back where it stands. -/
theorem imageWord_doublewords {post : List Byte} : ∀ {l : List Nat} {k v : Nat}, l[k]? = some v →
    imageWord (doublewords l ++ post) (8 * k) = BitVec.ofNat 64 v
  | a :: l, 0, v, h => by
    obtain rfl : a = v := by simpa using h
    have hlen := length_bytesOf 8 a
    rw [imageWord, doublewords, List.flatMap_cons, List.append_assoc, Nat.mul_zero, List.drop_zero, List.take_left' hlen,
      bytesWord, ofBytes_bytesOf]
    exact BitVec.eq_of_toNat_eq (by simp)
  | a :: l, k + 1, v, h => by
    have hlen := length_bytesOf 8 a
    have hdrop : (doublewords (a :: l) ++ post).drop (8 * (k + 1)) = (doublewords l ++ post).drop (8 * k) := by
      rw [doublewords, List.flatMap_cons, List.append_assoc, Nat.mul_succ, Nat.add_comm, ← List.drop_drop,
        List.drop_left' hlen]
      rfl
    rw [imageWord, hdrop]
    exact imageWord_doublewords (l := l) (by simpa using h)

/-- Where the doublewords of an entry stand when every entry has as many. -/
theorem getElem?_flatMap_entries {α β : Type} {f : α → List β} {n : Nat} (hf : ∀ x, (f x).length = n) :
    ∀ {l : List α} {k : Nat} {x : α} (j : Nat), l[k]? = some x → j < n → (l.flatMap f)[n * k + j]? = (f x)[j]?
  | y :: l, 0, x, j, h, hj => by
    obtain rfl : y = x := by simpa using h
    rw [Nat.mul_zero, Nat.zero_add, List.flatMap_cons, List.getElem?_append_left (by rw [hf]; exact hj)]
  | y :: l, k + 1, x, j, h, hj => by
    have hle : (f y).length ≤ n * (k + 1) + j := by
      rw [hf, Nat.mul_succ]
      omega
    have hk : n * (k + 1) + j - (f y).length = n * k + j := by
      rw [hf, Nat.mul_succ]
      omega
    rw [List.flatMap_cons, List.getElem?_append_right hle, hk]
    exact getElem?_flatMap_entries hf j (by simpa using h) hj

/-- The doublewords of an entry (Table 7-9). -/
def entryDoublewords (po que : Nat) (e : QEntry) : List Nat :=
  [e.word.toNat, e.prov.toNat, po * 2 ^ 38 + que * 2 ^ 36 + e.vtype.toNat * 2 ^ 20 + e.rc.toNat * 2 ^ 15 + e.vl.toNat,
    (match namedSlot e.word with
     | some n => e.slots.toList.getD n 0
     | none => 0 : Word).toNat]

theorem imageEntry_eq (po que : Nat) (e : QEntry) : imageEntry po que e = doublewords (entryDoublewords po que e) := by
  simp only [imageEntry, entryDoublewords, doublewords, wordBytes, List.flatMap_cons, List.flatMap_nil, List.append_nil,
    List.append_assoc, Nat.shiftLeft_eq] <;> rfl

/-- The doublewords of a header (Table 7-8). -/
def Core.headerDoublewords (c : Core) : List Nat :=
  [(c.imageQueue .col).length * 2 ^ 24 + (c.imageQueue .cpy).length * 2 ^ 16 + (c.imageQueue .mat).length * 2 ^ 8 +
    (c.imageQueue .vec).length, c.progressWords.1.toNat, c.brk.toNat, c.brkp.toNat, c.resoff.toNat, c.progressWords.2.toNat,
    c.eseq.toNat, 0]

theorem Core.imageHeader_eq (c : Core) : c.imageHeader = doublewords c.headerDoublewords := by
  simp only [Core.imageHeader, Core.headerDoublewords, doublewords, wordBytes, List.flatMap_cons, List.flatMap_nil,
    List.append_nil, List.append_assoc, Nat.shiftLeft_eq]

/-- The doublewords of the entries of an image. -/
def Core.entryWords (c : Core) : List Nat :=
  c.imageWords.flatMap fun x => entryDoublewords (placedAt c.imageWords x.2) x.1.imageCode x.2

theorem Core.image_eq (c : Core) : c.image = doublewords (c.headerDoublewords ++ c.entryWords) ++
    c.imageWords.flatMap fun x => appendixBytes x.2 := by
  simp only [Core.image, Core.imageHeader_eq, imageEntry_eq, doublewords, List.flatMap_append, Core.entryWords, List.flatMap_assoc]

section
variable {c : Core}

/-- A doubleword of the header of an image. -/
theorem Core.image_header {k v : Nat} (h : c.headerDoublewords[k]? = some v) : imageWord c.image (8 * k) = BitVec.ofNat 64 v := by
  rw [Core.image_eq]
  refine imageWord_doublewords ?_
  rw [List.getElem?_append_left (List.getElem?_eq_some_iff.mp h).choose]
  exact h

/-- A doubleword of an entry of an image. -/
theorem Core.image_entry {k j v : Nat} {que : Que} {e : QEntry} (hx : c.imageWords[k]? = some (que, e)) (hj : j < 4)
    (h : (entryDoublewords (placedAt c.imageWords e) que.imageCode e)[j]? = some v) :
    imageWord c.image (64 + 32 * k + 8 * j) = BitVec.ofNat 64 v := by
  have hoff : 64 + 32 * k + 8 * j = 8 * (8 + (4 * k + j)) := by omega
  rw [Core.image_eq, hoff]
  refine imageWord_doublewords ?_
  rw [List.getElem?_append_right (Nat.le_add_right 8 _), show 8 + (4 * k + j) - c.headerDoublewords.length = 4 * k + j by
    simp [Core.headerDoublewords], ← h]
  exact getElem?_flatMap_entries (f := fun x : Que × QEntry =>
    entryDoublewords (placedAt c.imageWords x.2) x.1.imageCode x.2) (fun _ => rfl) j hx hj

theorem ofNat_toNat_word (w : Word) : BitVec.ofNat 64 w.toNat = w := by simp

end

/-! ## The bytes of `CM` (R210) -/

/-- Bytes cut in pieces of one length. -/
theorem flatMap_pieces (m : Nat) (bs : List Byte) :
    ∀ n, ((List.range n).flatMap fun r => (bs.drop (m * r)).take m) = bs.take (m * n)
  | 0 => by simp
  | n + 1 => by
    rw [List.range_succ, List.flatMap_append, flatMap_pieces m bs n, List.flatMap_cons, List.flatMap_nil, List.append_nil,
      Nat.mul_succ, List.take_add]

/-- The bytes from which `CM` and `cmv` are read back are those that hold them. -/
theorem Core.cmBytes_eq {c : Core} {bs : List Byte} (hlen : bs.length = 32776) (hcmv : imageWord bs 32768 = c.cmv)
    (hrow : ∀ r, r < 16 → ofBytes ((bs.drop (2048 * r)).take 2048) = (c.cm.row r).toNat) : c.cmBytes = bs := by
  have hpiece : ∀ r ∈ List.range 16, bytesOf 2048 (c.cm.row r).toNat = (bs.drop (2048 * r)).take 2048 := fun r hr => by
    have hr := List.mem_range.mp hr
    have hl : ((bs.drop (2048 * r)).take 2048).length = 2048 := by
      rw [List.length_take, List.length_drop]
      omega
    rw [← hrow r hr]
    exact (congrArg (bytesOf · _) hl.symm).trans (bytesOf_ofBytes _)
  have hlast : (bs.drop 32768).take 8 = bs.drop 32768 := List.take_of_length_le (by rw [List.length_drop]; omega)
  have hword : wordBytes c.cmv = bs.drop 32768 := by
    rw [← hcmv, imageWord, hlast, bytesWord, wordBytes]
    exact bytesOf_toNat_ofBytes (by norm_num) (by rw [List.length_drop]; omega)
  rw [Core.cmBytes, hword, List.flatMap_congr hpiece, flatMap_pieces]
  exact List.take_append_drop 32768 bs

/-- Bytes survive a word that has room for them. -/
theorem toNat_ofNat_ofBytes {l : List Byte} {n w : Nat} (h : l.length ≤ n) (hw : w = 8 * n) :
    (BitVec.ofNat w (ofBytes l)).toNat = ofBytes l := by
  have hlt : ofBytes l < 2 ^ w := by
    rw [hw, pow_mul]
    exact (ofBytes_lt l).trans_le (Nat.pow_le_pow_right (by omega) h)
  rw [BitVec.toNat_ofNat, Nat.mod_eq_of_lt hlt]

/-- A row that `VCMLD` reads. -/
theorem row_ofBytes {bs : List Byte} {r : Nat} (hr : r < 16) :
    (VReg.row (.ofFn fun r => BitVec.ofNat 16384 (ofBytes ((bs.drop (2048 * r.val)).take 2048))) r).toNat =
      ofBytes ((bs.drop (2048 * r)).take 2048) := by
  unfold VReg.row
  rw [Vector.getElem?_eq_getElem hr, Option.getD_some, Vector.getElem_ofFn]
  exact toNat_ofNat_ofBytes (List.length_take_le 2048 _) rfl

end Sys2Proof.Machine

namespace Sys2Proof.Machine

/-! ## `VQSAVE`, `VCMST` and `VCMLD` (R207, R210) -/

section
variable {s u : State} {d a : BitVec 5}

theorem privileged_kmode {x : SRaw} {r : Result} (hk : s.core.kmode = true) : privileged x s r = r := if_pos hk

/-- The words of an image, and the sequence number under which they are saved, are those of the core before the image was stored. -/
theorem State.WroteBytes.emptied (h : s.WroteBytes u) (y : SavedWord) : y ∈ u.core.emptied.saved ↔
    y ∈ u.core.saved ∨ ∃ x ∈ s.core.imageWords,
      y = ⟨x.2.prov, x.2.word, x.2.rank, x.2.epoch, x.2.rkey, x.2.rpos, s.core.eseq, true⟩ := by
  obtain ⟨-, sp, w, p, hc⟩ := h
  have hwords : u.core.imageWords = s.core.imageWords := by rw [hc]; rfl
  have heseq : u.core.eseq = s.core.eseq := by rw [hc]
  show y ∈ ((u.core.imageWords.map Prod.snd).insertionSort fun a b => a.rank ≤ b.rank).map (QEntry.savedIn u.core.eseq) ++
    u.core.saved ↔ _
  rw [List.mem_append, List.mem_map, or_comm, hwords, heseq]
  simp only [List.mem_insertionSort, List.mem_map, exists_exists_and_eq_and]
  exact or_congr_right ⟨fun ⟨x, hx, hy⟩ => ⟨x, hx, hy.symm⟩, fun ⟨x, hx, hy⟩ => ⟨x, hx, hy.symm⟩⟩

theorem exec_vqsave (hk : s.core.kmode = true) (hal : (s.operand a).toNat % 64 = 0)
    (hu : storeBytes (s.operand a) s.settleEngines.core.image s.settleEngines = .ok u) :
    exec (.vqsave d a) s = .next ((u.withCore Core.emptied).wrote d (BitVec.ofNat 64 s.settleEngines.core.imageWords.length)) := by
  show execVqsave d a s = _
  unfold execVqsave
  dsimp only
  rw [readS_eq_operand, privileged_kmode hk, if_neg (not_not_intro hal), hu, ← writeNext_eq_wrote]

theorem exec_vcmst_drained (hk : s.core.kmode = true) (hal : (s.operand a).toNat % 64 = 0) (hd : s.core.drained = true)
    (hu : storeBytes (s.operand a) s.core.cmBytes s = .ok u) : exec (.vcmst a) s = .next (u.movedTo (u.core.pc + 4)) := by
  show execVcmst a s = _
  unfold execVcmst
  dsimp only
  rw [readS_eq_operand, privileged_kmode hk, if_neg (not_not_intro hal), hd, hu]
  rfl

theorem exec_vcmst_waits (hk : s.core.kmode = true) (hal : (s.operand a).toNat % 64 = 0) (hd : s.core.drained = false) :
    exec (.vcmst a) s = .next s.stall := by
  show execVcmst a s = _
  unfold execVcmst
  dsimp only
  rw [readS_eq_operand, privileged_kmode hk, if_neg (not_not_intro hal), hd]
  rfl

theorem exec_vcmld {bs : List Byte} (hk : s.core.kmode = true) (hal : (s.operand a).toNat % 64 = 0)
    (hl : loadBytes (s.operand a) 32776 s = .ok (bs, u)) : exec (.vcmld a) s = .next ({ u with core := { u.core with
      cm := .ofFn fun r => BitVec.ofNat 16384 (ofBytes ((bs.drop (2048 * r.val)).take 2048))
      cmv := imageWord bs 32768 &&& 0x3F03
      cntLive := u.core.cntLive && !u.core.drained } }.movedTo (u.core.pc + 4)) := by
  show execVcmld a s = _
  unfold execVcmld
  dsimp only
  rw [readS_eq_operand, privileged_kmode hk, if_neg (not_not_intro hal), hl]
  rfl

theorem exec_image_misaligned (hk : s.core.kmode = true) (hmis : (s.operand a).toNat % 64 ≠ 0) :
    exec (.vqsave d a) s = .next (genFault s 0x06 (s.operand a) (s.operand a)) ∧
      exec (.vcmst a) s = .next (genFault s 0x06 (s.operand a) (s.operand a)) ∧
      exec (.vcmld a) s = .next (genFault s 0x06 (s.operand a) (s.operand a)) :=
  ⟨(privileged_kmode hk).trans (if_pos hmis), (privileged_kmode hk).trans (if_pos hmis),
    (privileged_kmode hk).trans (if_pos hmis)⟩

end

/-! ## `VQLOAD`: the entries in ascending PO (R209) -/

section
variable {bs : List Byte} {n : Nat} {idx : Nat → Nat} {l : List (Loaded × List Word)}

theorem splitAppendix_fst : ∀ (l : List Loaded) (bs : List Byte), (splitAppendix l bs).map Prod.fst = l
  | [], _ => rfl
  | x :: l, _ => congrArg (x :: ·) (splitAppendix_fst l _)

/-- Positions that are all different and all below `n` are those below `n`. -/
theorem perm_range {idx : Nat → Nat} (hlt : ∀ p, p < n → idx p < n) (hinj : ∀ p q, p < n → q < n → idx p = idx q → p = q) :
    ((List.range n).map idx).Perm (List.range n) := by
  have hnd : ((List.range n).map idx).Nodup := List.Nodup.map_on
    (fun p hp q hq h => hinj p q (List.mem_range.mp hp) (List.mem_range.mp hq) h) List.nodup_range
  refine (hnd.subperm fun x hx => ?_).perm_of_length_le (by simp)
  obtain ⟨p, hp, rfl⟩ := List.mem_map.mp hx
  exact List.mem_range.mpr (hlt p (List.mem_range.mp hp))

/-- The entries of an image stand in the order of their positions. -/
theorem sorted_entries (hfst : l.map Prod.fst = (List.range n).map (loadedAt bs))
    (hidx : ∀ p, p < n → idx p < n ∧ (loadedAt bs (idx p)).po = p) :
    (l.insertionSort fun a b => a.1.po ≤ b.1.po).map Prod.fst = (List.range n).map fun p => loadedAt bs (idx p) := by
  have hperm : ((List.range n).map fun p => loadedAt bs (idx p)).Perm ((List.range n).map (loadedAt bs)) := by
    have h := (perm_range (fun p hp => (hidx p hp).1) fun p q hp hq h => by
      rw [← (hidx p hp).2, h, (hidx q hq).2]).map (loadedAt bs)
    rwa [List.map_map] at h
  have hpo : ∀ x ∈ (List.range n).map fun p => loadedAt bs (idx p), x = loadedAt bs (idx x.po) := fun x hx => by
    obtain ⟨p, hp, rfl⟩ := List.mem_map.mp hx
    rw [(hidx p (List.mem_range.mp hp)).2]
  have hsort : ((l.insertionSort fun a b => a.1.po ≤ b.1.po).map Prod.fst).Perm ((List.range n).map fun p => loadedAt bs (idx p)) :=
    ((List.perm_insertionSort _ l).map Prod.fst).trans (by rw [hfst]; exact hperm.symm)
  refine List.Perm.eq_of_pairwise (le := fun a b : Loaded => a.po ≤ b.po) (fun x y hx hy hxy hyx => ?_) ?_ ?_ hsort
  · rw [hpo x (hsort.subset hx), hpo y hy, Nat.le_antisymm hxy hyx]
  · have : Std.Total fun a b : Loaded × List Word => a.1.po ≤ b.1.po := ⟨fun a b => Nat.le_total _ _⟩
    have : IsTrans (Loaded × List Word) fun a b => a.1.po ≤ b.1.po := ⟨fun a b c => Nat.le_trans⟩
    exact List.pairwise_map.mpr (List.pairwise_insertionSort _ l)
  · refine List.pairwise_map.mpr (List.pairwise_lt_range.imp_of_mem fun {p q} hp hq hpq => ?_)
    rw [(hidx p (List.mem_range.mp hp)).2, (hidx q (List.mem_range.mp hq)).2]
    exact hpq.le

/-- A list of pairs by its first parts. -/
theorem eq_map_of_fst {α β : Type} [Inhabited β] {l : List (α × β)} {f : Nat → α} (h : l.map Prod.fst = (List.range n).map f) :
    ∃ g : Nat → β, l = (List.range n).map fun p => (f p, g p) := by
  refine ⟨fun p => (l.map Prod.snd).getD p default, ?_⟩
  have hlen : l.length = n := by simpa using congrArg List.length h
  refine List.ext_getElem (by simp [hlen]) fun p hp hp' => ?_
  have hfst : (l[p]).1 = f p := by
    have := List.getElem_of_eq h (by simpa using hp)
    simpa using this
  simp [← hfst, List.getD_eq_getElem?_getD, hp]

end

/-! ## `VQLOAD`: words that are known (R325) -/

/-- A saved word is what the entry of an image was saved as. -/
def SavedWord.saves (y : SavedWord) (x : Loaded) : Prop := y.prov = x.prov ∧ y.word = x.word

section
variable {X : Nat → Loaded × List Word} {f : Nat → SavedWord}

theorem recognise_none {k : List SavedWord} : ∀ {l : List (Loaded × List Word)},
    (∀ x ∈ l, ∀ y ∈ k, ¬ y.saves x.1) → recognise k l = l.map fun x => (x, none)
  | [], _ => rfl
  | x :: l, h => by
    obtain ⟨hx, hl⟩ := List.forall_mem_cons.mp h
    have hfind : (k.find? fun y => y.prov == x.1.prov && y.word == x.1.word) = none :=
      List.find?_eq_none.mpr fun y hy => by simpa [SavedWord.saves] using hx y hy
    unfold recognise
    rw [hfind]
    exact congrArg ((x, none) :: ·) (recognise_none hl)

/-- The first saved word that fits an entry is the one that it was saved as, where no two of its image look alike. -/
theorem find?_saved {l rest : List SavedWord} {y : SavedWord} {x : Loaded} (hnd : (l.map fun y => (y.prov, y.word)).Nodup)
    (hy : y ∈ l) (hyx : y.saves x) :
    ((l ++ rest).find? fun y => y.prov == x.prov && y.word == x.word) = some y := by
  have hfits : ∃ y ∈ l, (y.prov == x.prov && y.word == x.word) = true := ⟨y, hy, by simpa [SavedWord.saves] using hyx⟩
  obtain ⟨z, hz⟩ := Option.isSome_iff_exists.mp (List.find?_isSome.mpr hfits)
  have hzx : z.saves x := by simpa [SavedWord.saves] using List.find?_some hz
  have hzy : z = y := List.inj_on_of_nodup_map hnd (List.mem_of_find?_eq_some hz) hy (by
    rw [hzx.1, hzx.2, hyx.1, hyx.2])
  rw [List.find?_append, hz, hzy]
  rfl

/-- Entries that were all saved are recognised as the words that they were saved as. -/
theorem recognise_some : ∀ {ps : List Nat} {l rest : List SavedWord}, (l.map fun y => (y.prov, y.word)).Nodup →
    (∀ p ∈ ps, f p ∈ l ∧ (f p).saves (X p).1) → ps.Pairwise (fun p q => f p ≠ f q) →
    recognise (l ++ rest) (ps.map X) = ps.map fun p => (X p, some (f p))
  | [], _, _, _, _, _ => rfl
  | p :: ps, l, rest, hnd, hl, hne => by
    obtain ⟨⟨hp, hpx⟩, hl⟩ := List.forall_mem_cons.mp hl
    obtain ⟨hnep, hne⟩ := List.pairwise_cons.mp hne
    have hrest := recognise_some (ps := ps) (l := l.erase (f p)) (rest := rest)
      (hnd.sublist (l.erase_sublist.map _)) (fun q hq => ⟨(List.mem_erase_of_ne (hnep q hq).symm).mpr (hl q hq).1, (hl q hq).2⟩)
      hne
    unfold recognise
    rw [List.map_cons]
    dsimp only
    rw [find?_saved hnd hp hpx]
    dsimp only
    rw [List.erase_append_left _ hp, hrest]
    rfl

/-- Words of the image whose sequence number the header gives come first among the saved words. -/
theorem saved_own_first {l k : List SavedWord} {eseq : Word} (hl : ∀ y ∈ l, y.eseq = eseq) : ∃ rest,
    ((l ++ k).filter fun y => (y.eseq == eseq) == true) ++ ((l ++ k).filter fun y => (y.eseq == eseq) == false) = l ++ rest := by
  refine ⟨(k.filter fun y => (y.eseq == eseq) == true) ++ ((l ++ k).filter fun y => (y.eseq == eseq) == false), ?_⟩
  rw [List.filter_append, List.filter_eq_self.mpr (fun y hy => by simp [hl y hy]), List.append_assoc]

end

/-! ## `VQLOAD`: words placed (R209) -/

theorem Core.setQueue_queue (c : Core) (l : List QEntry) (q q' : Que) :
    (c.setQueue l q).queue q' = if q = q' then l else c.queue q' := by cases q <;> cases q' <;> rfl

/-- What a reloaded word takes from its hart no queue holds. -/
theorem Core.setQueue_reloaded (c : Core) (l : List QEntry) (q : Que) (r : Nat) (k : Option SavedWord) (x : Loaded × List Word) :
    (c.setQueue l q).reloaded r k x = c.reloaded r k x := by cases q <;> rfl

/-- A recognised entry placed at a rank. -/
def Core.placeLoaded (R : Nat → Nat) (c : Core) (x : ((Loaded × List Word) × Option SavedWord) × Nat) : Core :=
  c.setQueue (c.queue x.1.1.1.que ++ [c.reloaded (R x.2) x.1.2 x.1.1]) x.1.1.1.que

theorem foldl_placeLoaded_reloaded {R : Nat → Nat} {c : Core} {x : ((Loaded × List Word) × Option SavedWord) × Nat} {r : Nat}
    {k : Option SavedWord} {y : Loaded × List Word} : (c.placeLoaded R x).reloaded r k y = c.reloaded r k y :=
  Core.setQueue_reloaded _ _ _ _ _ _

/-- Each queue receives its words, in their order. -/
theorem foldl_placeLoaded_queue {R : Nat → Nat} {q : Que} :
    ∀ {l : List (((Loaded × List Word) × Option SavedWord) × Nat)} {c : Core},
    (l.foldl (Core.placeLoaded R) c).queue q =
      c.queue q ++ (l.filter fun x => x.1.1.1.que == q).map fun x => c.reloaded (R x.2) x.1.2 x.1.1
  | [], c => by simp
  | x :: l, c => by
    rw [List.foldl_cons, foldl_placeLoaded_queue]
    simp only [foldl_placeLoaded_reloaded]
    rw [Core.placeLoaded, Core.setQueue_queue]
    by_cases h : x.1.1.1.que = q
    · subst h
      simp
    · simp [h]

theorem foldl_placeLoaded_frame {R : Nat → Nat} (l : List (((Loaded × List Word) × Option SavedWord) × Nat)) (c : Core) :
    ∃ v m y o, l.foldl (Core.placeLoaded R) c = { c with vec := v, mat := m, cpy := y, col := o } := by
  refine List.foldlRecOn (motive := fun d : Core => ∃ v m y o, d = { c with vec := v, mat := m, cpy := y, col := o }) l _
    ⟨_, _, _, _, rfl⟩ fun d hd x _ => ?_
  obtain ⟨v, m, y, o, rfl⟩ := hd
  unfold Core.placeLoaded
  cases x.1.1.1.que <;> exact ⟨_, _, _, _, rfl⟩

/-- The ranks at which the entries of an image are placed: their own where all are known and in order, fresh ones otherwise. -/
def Core.imageRanks (c : Core) (n : Nat) (known : List ((Loaded × List Word) × Option SavedWord)) (p : Nat) : Nat :=
  let ranks := known.filterMap fun x => x.2.map SavedWord.rank
  if decide (ranks.length = n) && rising ranks then ranks.getD p 0 else c.rank + p

/-- The saved words in the order in which they are looked for (log 29). -/
def Core.savedOrder (c : Core) : List SavedWord :=
  (c.saved.filter fun y => (y.eseq == c.eseq) == true) ++ (c.saved.filter fun y => (y.eseq == c.eseq) == false)

/-- The entries of an image in the order of their positions, each with what is known of it. -/
def Core.knownOf (c : Core) (l : List (Loaded × List Word)) : List ((Loaded × List Word) × Option SavedWord) :=
  recognise c.savedOrder (l.insertionSort fun a b => a.1.po ≤ b.1.po)

/-- The core into which the words of an image are placed: words that take new places stand after all that came before. -/
def Core.imageBase (c : Core) (l : List (Loaded × List Word)) : Core :=
  let ranks := (c.knownOf l).filterMap fun x => x.2.map SavedWord.rank
  if decide (ranks.length = l.length) && rising ranks then c else
    { c with rank := c.rank + l.length, pubs := c.pubs.map fun p =>
        match p with
        | .raise w v sc _ => .raise w v sc (c.rank + l.length)
        | .arrive ph _ => .arrive ph (c.rank + l.length) }

theorem Core.imageBase_frame (c : Core) (l : List (Loaded × List Word)) :
    ∃ r p, c.imageBase l = { c with rank := r, pubs := p } := by
  unfold Core.imageBase
  dsimp only
  split
  · exact ⟨c.rank, c.pubs, rfl⟩
  · exact ⟨_, _, rfl⟩

theorem Core.placeImage_eq (c : Core) (l : List (Loaded × List Word)) : ∃ sv, c.placeImage l =
    { (c.knownOf l).zipIdx.foldl (Core.placeLoaded (c.imageRanks l.length (c.knownOf l))) (c.imageBase l) with saved := sv } :=
  ⟨_, rfl⟩

/-- Placing an image changes the queues, the ranks to come, the publications that wait and the saved words. -/
theorem Core.placeImage_frame (c : Core) (l : List (Loaded × List Word)) :
    ∃ v m y o r p sv, c.placeImage l =
      { c with vec := v, mat := m, cpy := y, col := o, rank := r, pubs := p, saved := sv } := by
  obtain ⟨sv, hsv⟩ := c.placeImage_eq l
  obtain ⟨v, m, y, o, hfold⟩ := foldl_placeLoaded_frame (R := c.imageRanks l.length (c.knownOf l)) (c.knownOf l).zipIdx
    (c.imageBase l)
  obtain ⟨r, p, hbase⟩ := c.imageBase_frame l
  exact ⟨v, m, y, o, r, p, sv, by rw [hsv, hfold, hbase]⟩

theorem Core.placeImage_queue (c : Core) (l : List (Loaded × List Word)) (q : Que) : (c.placeImage l).queue q =
    c.queue q ++ (((c.knownOf l).zipIdx.filter fun x => x.1.1.1.que == q).map fun x =>
      c.reloaded (c.imageRanks l.length (c.knownOf l) x.2) x.1.2 x.1.1) := by
  obtain ⟨sv, hsv⟩ := c.placeImage_eq l
  obtain ⟨r, p, hbase⟩ := c.imageBase_frame l
  have hqueue (d : Core) : ({ d with saved := sv } : Core).queue q = d.queue q := by cases q <;> rfl
  rw [hsv, hqueue, foldl_placeLoaded_queue, hbase]
  refine congrArg₂ (· ++ ·) ?_ rfl
  cases q <;> rfl

end Sys2Proof.Machine

namespace Sys2Proof.Machine

/-! ## `VQLOAD` as a whole (R209, R325) -/

theorem rising_of_pairwise : ∀ {l : List Nat}, l.Pairwise (· < ·) → rising l = true
  | [], _ | [_], _ => rfl
  | a :: b :: l, h => by
    obtain ⟨ha, hl⟩ := List.pairwise_cons.mp h
    rw [rising, rising_of_pairwise hl, Bool.and_true]
    exact decide_eq_true (ha b List.mem_cons_self)

section
variable {c : Core} {n : Nat} {X : Nat → Loaded × List Word} {l : List (Loaded × List Word)}

/-- Entries that none was saved as take new places. -/
theorem imageRanks_fresh {p : Nat} (hp : p < n) :
    c.imageRanks n ((List.range n).map fun p => (X p, none)) p = c.rank + p := by
  have hranks : (((List.range n).map fun p => (X p, (none : Option SavedWord))).filterMap fun x => x.2.map SavedWord.rank) = [] := by
    simp [List.filterMap_map]
  unfold Core.imageRanks
  dsimp only
  rw [hranks, if_neg]
  simp
  omega

/-- Entries that are all known, in the order that they had, take their places again. -/
theorem imageRanks_known {f : Nat → SavedWord} (hrise : ∀ p q, p < q → q < n → (f p).rank < (f q).rank) {p : Nat} (hp : p < n) :
    c.imageRanks n ((List.range n).map fun p => (X p, some (f p))) p = (f p).rank := by
  have hranks : (((List.range n).map fun p => (X p, some (f p))).filterMap fun x => x.2.map SavedWord.rank) =
      (List.range n).map fun p => (f p).rank := by
    simp [List.filterMap_map]
  have hpair : ((List.range n).map fun p => (f p).rank).Pairwise (· < ·) :=
    List.pairwise_map.mpr (List.pairwise_lt_range.imp_of_mem fun {p q} _ hq hpq => hrise p q hpq (List.mem_range.mp hq))
  unfold Core.imageRanks
  dsimp only
  rw [hranks, if_pos (by simp [rising_of_pairwise hpair])]
  simp [List.getD_eq_getElem?_getD, hp]

/-- What a queue holds once the entries of an image have been placed in an empty hart, each known or not. -/
theorem placeImage_queue_of_known {K : Nat → Option SavedWord} {rank : Nat → Nat} {draw : Nat → Word × Word} {q : Que}
    (hempty : c.queue q = []) (hlen : l.length = n) (hknown : c.knownOf l = (List.range n).map fun p => (X p, K p))
    (hrank : ∀ p, p < n → c.imageRanks n (c.knownOf l) p = rank p)
    (hdraw : ∀ p, p < n → ∀ r, ((c.reloaded r (K p) (X p)).rkey, (c.reloaded r (K p) (X p)).rpos) = draw p) :
    ((c.placeImage l).queue q).map (fun e =>
        (e.word, e.prov, e.vl, e.rc, e.vtype, e.rank, (e.rkey, e.rpos), e.parked, e.restored)) =
      ((List.range n).filter fun p => (X p).1.que == q).map fun p =>
        ((X p).1.word, (X p).1.prov, (X p).1.vl, (X p).1.rc, (X p).1.vtype, rank p, draw p, true, true) := by
  have hzip : (c.knownOf l).zipIdx = (List.range n).map fun p => ((X p, K p), p) := by
    rw [hknown]
    exact List.ext_getElem (by simp) fun i _ _ => by simp
  rw [c.placeImage_queue, hempty, List.nil_append, hlen, hzip, List.filter_map, List.map_map, List.map_map]
  refine List.map_congr_left fun p hp => ?_
  have hp : p < n := List.mem_range.mp (List.mem_of_mem_filter hp)
  exact congrArg₂ (fun r d => ((X p).1.word, (X p).1.prov, (X p).1.vl, (X p).1.rc, (X p).1.vtype, r, d, true, true))
    (hrank p hp) (hdraw p hp _)

/-! ### The instruction -/

theorem layoutProv_eq (b : Word) : layoutProv b =
    if b.getLsbD 63 = true ∨ b = 0x6000000000000000 then b else b &&& ~~~0x6000000000000000#64 := rfl

/-- A step counter of a header. -/
theorem withHeader_lgs (c : Core) (hd : List Byte) (i : Fin 4) :
    (c.withHeader hd).lgs[i] = BitVec.ofNat 10 ((imageWord hd 8).toNat / 2 ^ (10 * i.val)) := by
  have h : (c.withHeader hd).lgs[i] =
      BitVec.ofNat 10 (wfield (imageWord hd 8) (10 * i.val + 9) (10 * i.val)) := by
    show (Vector.ofFn _)[i] = _
    simp
  rw [h, wfield, field, Nat.shiftRight_eq_div_pow]
  exact BitVec.eq_of_toNat_eq (by simp [show 10 * i.val + 9 + 1 - 10 * i.val = 10 by omega])

section
variable {s : State} {a b : BitVec 5}

/-- A count that does not fit, or a queue that is not empty, is an operand limit. -/
theorem exec_vqload_refused (hk : s.core.kmode = true)
    (h : 64 < (s.operand b).toNat ∨ s.core.drained = false ∨ s.core.history ≠ 0) : exec (.vqload a b) s =
      .next (genFault s 0x05 (BitVec.ofNat 64 (15 + (s.operand b).toNat % 2 ^ 32 * 2 ^ 32)) 0) := by
  rw [← operandStop_eq]
  exact (privileged_kmode hk).trans (if_pos (by simpa [← readS_eq_operand, or_assoc] using h))

/-- The state behind a `VQLOAD`: the header's words are restored, and the entries placed. -/
def State.imageLoaded (s : State) (hd : List Byte) (l : List (Loaded × List Word)) : State :=
  (s.withCore fun c => (c.withHeader hd).placeImage l).advance

theorem exec_vqload {hd bs app : List Byte} (hk : s.core.kmode = true) (hn : (s.operand b).toNat ≤ 64)
    (hdr : s.core.drained = true) (hh : s.core.history = 0) (hhd : loadBytes (s.operand a) 64 s = .ok (hd, s))
    (hok : headerOk hd (s.operand b).toNat = true)
    (hbs : loadBytes (s.operand a + 64) (32 * (s.operand b).toNat) s = .ok (bs, s))
    (hpo : ∀ p, p < (s.operand b).toNat → ∃ i, i < (s.operand b).toNat ∧ (loadedAt bs i).po = p)
    (happ : loadBytes (s.operand a + BitVec.ofNat 64 (64 + 32 * (s.operand b).toNat))
      (8 * ((List.range (s.operand b).toNat).map fun i => appendixLen (loadedAt bs i).word (loadedAt bs i).rc.toNat).sum) s =
        .ok (app, s)) :
    exec (.vqload a b) s =
      .next (s.imageLoaded hd (splitAppendix ((List.range (s.operand b).toNat).map (loadedAt bs)) app)) := by
  have hfits : ¬ ((decide ((s.operand b).toNat > 64) || !s.core.drained || s.core.history != 0) = true) := by
    simp [hdr, hh, hn]
  have hall : ((List.range (s.operand b).toNat).all fun p =>
      ((List.range (s.operand b).toNat).map (loadedAt bs)).any fun x => x.po == p) = true := by
    simpa using hpo
  show execVqload a b s = _
  unfold execVqload
  dsimp only
  rw [readS_eq_operand, readS_eq_operand, privileged_kmode hk, if_neg hfits, hhd]
  dsimp only
  rw [hok, if_neg (by simp), hbs]
  dsimp only
  rw [hall, if_neg (by simp), List.map_map]
  simp only [Function.comp_def]
  rw [happ]
  rfl

/-- What a `VQLOAD` leaves but for the queues. -/
theorem State.imageLoaded_frame (s : State) (hd : List Byte) (l : List (Loaded × List Word)) :
    ∃ v m y o r p sv, s.imageLoaded hd l = { s with core := { s.core.withHeader hd with
      vec := v, mat := m, cpy := y, col := o, rank := r, pubs := p, saved := sv, pc := s.core.pc + 4 } } := by
  obtain ⟨v, m, y, o, r, p, sv, h⟩ := (s.core.withHeader hd).placeImage_frame l
  refine ⟨v, m, y, o, r, p, sv, ?_⟩
  show ({ s with core := { (s.core.withHeader hd).placeImage l with
    pc := ((s.core.withHeader hd).placeImage l).pc + 4 } } : State) = _
  rw [h]
  rfl

theorem State.imageLoaded_queue (s : State) (hd : List Byte) (l : List (Loaded × List Word)) (q : Que) :
    (s.imageLoaded hd l).core.queue q = ((s.core.withHeader hd).placeImage l).queue q := by cases q <;> rfl

theorem Core.queue_of_drained {c : Core} (h : c.drained = true) (q : Que) : c.queue q = [] := by
  obtain ⟨hv, hm, hy, ho⟩ := Core.queues_of_drained h
  cases q
  · exact hv
  · exact hm
  · exact hy
  · exact ho

end

/-! ### What is known of the entries -/

section
variable {f : Nat → SavedWord}

theorem Core.mem_savedOrder {y : SavedWord} (h : y ∈ c.savedOrder) : y ∈ c.saved :=
  (List.mem_append.mp h).elim List.mem_of_mem_filter List.mem_of_mem_filter

theorem knownOf_fresh (hsort : (l.insertionSort fun a b => a.1.po ≤ b.1.po) = (List.range n).map X)
    (h : ∀ p, p < n → ∀ y ∈ c.saved, ¬ y.saves (X p).1) : c.knownOf l = (List.range n).map fun p => (X p, none) := by
  unfold Core.knownOf
  rw [hsort, recognise_none, List.map_map]
  · rfl
  · intro x hx y hy
    obtain ⟨p, hp, rfl⟩ := List.mem_map.mp hx
    exact h p (List.mem_range.mp hp) y (Core.mem_savedOrder hy)

theorem knownOf_saved {own k : List SavedWord} (hsort : (l.insertionSort fun a b => a.1.po ≤ b.1.po) = (List.range n).map X)
    (hsaved : c.saved = own ++ k) (hown : ∀ y ∈ own, y.eseq = c.eseq) (hnd : (own.map fun y => (y.prov, y.word)).Nodup)
    (hf : ∀ p, p < n → f p ∈ own ∧ (f p).saves (X p).1) (hrise : ∀ p q, p < q → q < n → (f p).rank < (f q).rank) :
    c.knownOf l = (List.range n).map fun p => (X p, some (f p)) := by
  obtain ⟨rest, hrest⟩ := saved_own_first (k := k) hown
  unfold Core.knownOf Core.savedOrder
  rw [hsort, hsaved, hrest]
  refine recognise_some hnd (fun p hp => hf p (List.mem_range.mp hp)) ?_
  exact List.pairwise_lt_range.imp_of_mem fun {p q} _ hq hpq heq =>
    absurd (congrArg SavedWord.rank heq) (hrise p q hpq (List.mem_range.mp hq)).ne

end

end

/-- The entries of an image, placed in the order of their positions, with their own ranks and draw positions where all are known. -/
theorem vqload_queues {s : State} {n : Nat} {hd bs app : List Byte} {idx : Nat → Nat} {rank : Nat → Nat}
    {draw : Nat → Word × Word} (hdr : s.core.drained = true)
    (hidx : ∀ p, p < n → idx p < n ∧ (loadedAt bs (idx p)).po = p)
    (hknown : (∀ p, p < n → ∀ y ∈ s.core.saved, ¬ y.saves (loadedAt bs (idx p))) ∧ rank = (s.core.rank + ·) ∧
        draw = (fun _ => (s.core.rkey, s.core.rpos)) ∨
      ∃ f : Nat → SavedWord, (∃ l k, s.core.saved = l ++ k ∧ (∀ y ∈ l, y.eseq = imageWord hd 48) ∧
        (l.map fun y => (y.prov, y.word)).Nodup ∧ (∀ p, p < n → f p ∈ l ∧ (f p).saves (loadedAt bs (idx p))) ∧
        ∀ p q, p < q → q < n → (f p).rank < (f q).rank) ∧
        rank = (fun p => (f p).rank) ∧ draw = fun p => ((f p).rkey, (f p).rpos)) (q : Que) :
    ((s.imageLoaded hd (splitAppendix ((List.range n).map (loadedAt bs)) app)).core.queue q).map (fun e =>
        (e.word, e.prov, e.vl, e.rc, e.vtype, e.rank, (e.rkey, e.rpos), e.parked, e.restored)) =
      ((List.range n).filter fun p => (loadedAt bs (idx p)).que == q).map fun p =>
        ((loadedAt bs (idx p)).word, (loadedAt bs (idx p)).prov, (loadedAt bs (idx p)).vl, (loadedAt bs (idx p)).rc,
          (loadedAt bs (idx p)).vtype, rank p, draw p, true, true) := by
  have hfst := splitAppendix_fst ((List.range n).map (loadedAt bs)) app
  have hlen : (splitAppendix ((List.range n).map (loadedAt bs)) app).length = n := by
    simpa using congrArg List.length hfst
  obtain ⟨g, hsort⟩ := eq_map_of_fst (sorted_entries hfst hidx)
  have hempty : (s.core.withHeader hd).queue q = [] := by
    rw [← Core.queue_of_drained hdr q]
    cases q <;> rfl
  rw [State.imageLoaded_queue]
  rcases hknown with ⟨hnone, rfl, rfl⟩ | ⟨f, ⟨l, k, hsaved, hown, hnd, hf, hrise⟩, rfl, rfl⟩
  · have hk := knownOf_fresh (c := s.core.withHeader hd) hsort hnone
    refine placeImage_queue_of_known hempty hlen hk (fun p hp => ?_) fun p hp r => rfl
    rw [hk, imageRanks_fresh hp]
    rfl
  · have hk := knownOf_saved (c := s.core.withHeader hd) hsort hsaved hown hnd hf hrise
    refine placeImage_queue_of_known hempty hlen hk (fun p hp => ?_) fun p hp r => rfl
    rw [hk, imageRanks_known hrise hp]

/-! ## The words of the image -/

section
variable {c : Core}

/-- The state words of a header (Table 7-8). -/
theorem Core.image_stateWords (c : Core) :
    imageWord c.image 8 = (if c.cntLive then c.lgsWord else 0) ∧ imageWord c.image 16 = c.brk ∧ imageWord c.image 24 = c.brkp ∧
      imageWord c.image 32 = c.resoff ∧ imageWord c.image 40 = (if c.cntLive then c.cmv else c.cmv &&& 2) ∧
      imageWord c.image 48 = c.eseq ∧ imageWord c.image 56 = 0 := by
  have hprogress : c.progressWords = (if c.cntLive then c.lgsWord else 0, if c.cntLive then c.cmv else c.cmv &&& 2) := by
    unfold Core.progressWords
    split <;> rfl
  have hread {k : Nat} {w : Word} (h : c.headerDoublewords[k]? = some w.toNat) : imageWord c.image (8 * k) = w :=
    (Core.image_header h).trans (ofNat_toNat_word w)
  refine ⟨?_, hread (k := 2) rfl, hread (k := 3) rfl, hread (k := 4) rfl, ?_, hread (k := 6) rfl, hread (k := 7) (w := 0) rfl⟩
  · rw [hread (k := 1) (w := c.progressWords.1) rfl, hprogress]
  · rw [hread (k := 5) (w := c.progressWords.2) rfl, hprogress]

/-- The doublewords of an entry (Table 7-9). -/
theorem Core.image_entryWords {k : Nat} {que : Que} {e : QEntry} (hx : c.imageWords[k]? = some (que, e)) :
    imageWord c.image (64 + 32 * k) = e.word ∧ imageWord c.image (72 + 32 * k) = e.prov ∧
      imageWord c.image (80 + 32 * k) = BitVec.ofNat 64 (placedAt c.imageWords e * 2 ^ 38 + que.imageCode * 2 ^ 36 +
        e.vtype.toNat * 2 ^ 20 + e.rc.toNat * 2 ^ 15 + e.vl.toNat) ∧
      ∀ i, namedSlot e.word = some i → i < 16 → imageWord c.image (88 + 32 * k) = e.slots.getD i 0 := by
  have hread {j v : Nat} (hj : j < 4) (h : (entryDoublewords (placedAt c.imageWords e) que.imageCode e)[j]? = some v) :
      imageWord c.image (64 + 8 * j + 32 * k) = BitVec.ofNat 64 v := by
    rw [Nat.add_right_comm]
    exact Core.image_entry hx hj h
  refine ⟨?_, ?_, hread (j := 2) (by omega) rfl, fun i hi _ => ?_⟩
  · exact (hread (j := 0) (by omega) rfl).trans (ofNat_toNat_word e.word)
  · exact (hread (j := 1) (by omega) rfl).trans (ofNat_toNat_word e.prov)
  · refine (hread (j := 3) (by omega) rfl).trans ((ofNat_toNat_word _).trans ?_)
    rw [hi]
    simp [Vector.getD, List.getD_eq_getElem?_getD]

end

/-- Settles O54: an image is a list of doublewords, each of which is read back where it stands; the entries of one are sorted by
their positions, and each is the saved word that it was, or none is. -/
theorem queueImageMoves : Obligations.QueueImageMoves := by
  unfold Obligations.QueueImageMoves
  intro s d a b hk va n
  refine ⟨exec_image_misaligned hk, ?save, exec_vqload_refused hk, ?load, ?cm⟩
  case save =>
    intro hal q bs u hu
    have hexec := exec_vqsave (d := d) hk hal hu
    refine ⟨fun y => ?_, ⟨_, hexec, rfl, rfl, rfl, rfl, rfl, rfl, rfl, rfl⟩, Core.image_header (k := 0) rfl,
      q.core.image_stateWords, fun k que e => Core.image_entryWords⟩
    rw [← (storeBytes_wrote hu).emptied y, hexec]
    exact ⟨fun ⟨t, ht, hy⟩ => by cases ht; exact hy, fun hy => ⟨_, rfl, hy⟩⟩
  case load =>
    intro hd bs app idx hn hdr hh hhd hok at_ hbs hidx happ is known rank draw hknown
    obtain ⟨v, m, y, o, r, p, sv, hframe⟩ := s.imageLoaded_frame hd (splitAppendix ((List.range n).map (loadedAt bs)) app)
    refine ⟨_, exec_vqload hk hn hdr hh hhd hok hbs (fun p hp => ⟨idx p, hidx p hp⟩) happ, vqload_queues hdr hidx hknown, ?_⟩
    rw [hframe]
    exact ⟨withHeader_lgs s.core hd, rfl, rfl, layoutProv_eq _, rfl, rfl, rfl, rfl, rfl, rfl, rfl, rfl, rfl⟩
  case cm =>
    intro bs u hlen hal holds
    refine ⟨fun ⟨hcmv, hrow⟩ hdr hu => ?_, exec_vcmst_waits hk hal,
      fun hl => ⟨_, ⟨rfl, fun r hr => ?_⟩, exec_vcmld hk hal hl⟩⟩
    · exact exec_vcmst_drained hk hal hdr (by rw [Core.cmBytes_eq hlen hcmv hrow]; exact hu)
    · exact (row_ofBytes hr).symm

end Sys2Proof.Machine
